-- ==== Sys2Proof/Machine/Num.lean ====
section
/-! DEFINITION. Numbers (05_numbers R57-R72): element types, exact values, the five rounding modes and every
conversion. A value is computed exactly, or as a floor with a sticky bit finer than any rounding looks, and rounded
once. -/

namespace Sys2Proof.Machine

/-! ## Element types (R57) -/

def etypeOk (t : Nat) : Bool :=
  t ∈ [0x01, 0x02, 0x03, 0x04, 0x05, 0x08, 0x09, 0x0A, 0x0B, 0x0C, 0x0D, 0x0E, 0x10, 0x11, 0x12]

/-- Width of an element in bits; 2 for a VQ2 weight. -/
def ewidth (t : Nat) : Nat :=
  if t = 0x01 || t = 0x09 then 32 else if t = 0x02 || t = 0x03 || t = 0x0A then 16
  else if t = 0x04 || t = 0x05 || t = 0x0B || t = 0x0C || t = 0x11 then 8
  else if t = 0x08 || t = 0x0D || t = 0x0E then 4 else if t = 0x10 then 2 else if t = 0x12 then 1 else 8

def isFloatT (t : Nat) : Bool := t ∈ [0x01, 0x02, 0x03, 0x04, 0x05, 0x08]
def isIntT (t : Nat) : Bool := t ∈ [0x09, 0x0A, 0x0B, 0x0C, 0x0D, 0x0E]
def isSignedT (t : Nat) : Bool := t ∈ [0x09, 0x0A, 0x0B, 0x0D]

/-- Fraction bits, exponent bits and bias of a float type (R59). -/
def fracBits (t : Nat) : Nat :=
  if t = 0x01 then 23 else if t = 0x02 then 7 else if t = 0x03 then 10 else if t = 0x04 then 3 else if t = 0x05 then 2 else 1
def expBits (t : Nat) : Nat :=
  if t = 0x01 || t = 0x02 then 8 else if t = 0x03 || t = 0x05 then 5 else if t = 0x04 then 4 else 2
def biasOf (t : Nat) : Nat := 2 ^ (expBits t - 1) - 1

/-- The type has infinities (R59): FP32, BF16, FP16, E5M2. -/
def hasInf (t : Nat) : Bool := t ∈ [0x01, 0x02, 0x03, 0x05]
/-- The type has NaNs: every float type but E2M1. -/
def hasNan (t : Nat) : Bool := t ∈ [0x01, 0x02, 0x03, 0x04, 0x05]

/-- Canonical NaN (R59); 0xFF for E8M0 (R60). -/
def canonNan (t : Nat) : Nat :=
  if t = 0x01 then 0x7FC00000 else if t = 0x02 then 0x7FC0 else if t = 0x03 then 0x7E00 else if t = 0x04 then 0x7F
  else if t = 0x05 then 0x7E else if t = 0x11 then 0xFF else 0

/-- Largest finite magnitude's pattern (R59). -/
def maxFin (t : Nat) : Nat :=
  if t = 0x01 then 0x7F7FFFFF else if t = 0x02 then 0x7F7F else if t = 0x03 then 0x7BFF else if t = 0x04 then 0x7E
  else if t = 0x05 then 0x7B else 0x7

/-- Positive infinity's pattern. -/
def infBits (t : Nat) : Nat := (2 ^ expBits t - 1) * 2 ^ fracBits t

/-- The sign bit of a pattern. -/
def signOf (t v : Nat) : Bool := decide ((v / 2 ^ (ewidth t - 1)) % 2 = 1)

def withSign (t : Nat) (neg : Bool) (mag : Nat) : Nat := if neg then mag + 2 ^ (ewidth t - 1) else mag

/-! ## Exact values -/

/-- A value: NaN, an infinity, or (-1)^neg * (m + d) * 2^e, where d = 0 when `st` is false and 0 < d < 1 when true. -/
inductive Num where
  | nan
  | inf (neg : Bool)
  | fin (neg : Bool) (m : Nat) (e : Int) (st : Bool)
deriving DecidableEq, Repr

def Num.zero (neg : Bool) : Num := .fin neg 0 0 false

def Num.isZero : Num → Bool
  | .fin _ 0 _ false => true
  | _ => false

def Num.isNan : Num → Bool
  | .nan => true
  | _ => false

def Num.neg? : Num → Bool
  | .nan => false
  | .inf n => n
  | .fin n _ _ _ => n

def Num.negate : Num → Num
  | .nan => .nan
  | .inf n => .inf (!n)
  | .fin n m e s => .fin (!n) m e s

def Num.abs : Num → Num
  | .nan => .nan
  | .inf _ => .inf false
  | .fin _ m e s => .fin false m e s

/-- An integer as a value. -/
def Num.ofInt (v : Int) : Num := .fin (decide (v < 0)) v.natAbs 0 false

/-- An exact power of two. -/
def Num.pow2 (e : Int) : Num := .fin false 1 e false

/-- The exact value of a float pattern (R59). -/
def floatVal (t v : Nat) : Num :=
  let f := fracBits t
  let frac := v % 2 ^ f
  let ex := (v / 2 ^ f) % 2 ^ expBits t
  let neg := signOf t v
  if hasInf t && decide (ex = 2 ^ expBits t - 1) then (if frac = 0 then .inf neg else .nan)
  else if t = 0x04 && decide (v % 128 = 127) then .nan
  else if ex = 0 then .fin neg frac (1 - (biasOf t : Int) - f) false
  else .fin neg (2 ^ f + frac) ((ex : Int) - biasOf t - f) false

/-- The integer a pattern of an integer type or B1 holds (R58). -/
def intVal (t v : Nat) : Int :=
  let w := ewidth t
  let u := v % 2 ^ w
  if isSignedT t && decide (2 ^ (w - 1) ≤ u) then (u : Int) - (2 : Int) ^ w else (u : Int)

/-- The exact value of an element of any type but VQ2 (R59, R60). -/
def elemVal (t v : Nat) : Num :=
  if isFloatT t then floatVal t v
  else if t = 0x11 then (if v % 256 = 255 then .nan else .pow2 ((v % 256 : Nat) - 127))
  else Num.ofInt (intVal t v)

/-- A float pattern that is subnormal in its type. -/
def isSubnormal (t v : Nat) : Bool :=
  isFloatT t && decide ((v / 2 ^ fracBits t) % 2 ^ expBits t = 0) && decide (v % 2 ^ fracBits t ≠ 0)

/-- Input flush of one element (R68 bit 0): the pattern used, and whether it was flushed. -/
def flushIn (ftz t v : Nat) : Nat × Bool :=
  if ftz % 2 = 1 && isSubnormal t v then (withSign t (signOf t v) 0, true) else (v, false)

/-- Output flush of one element (R68 bit 1). -/
def flushOut (ftz t v : Nat) : Nat := if (ftz / 2) % 2 = 1 && isSubnormal t v then withSign t (signOf t v) 0 else v

/-! ## Rounding (R64) -/

/-- How a word rounds: mode 0-4, the random value of the element (R66), saturation, `ftz`. -/
structure Rnd where
  mode : Nat := 0
  r : Nat := 0
  sat : Bool := false
  ftz : Nat := 0
deriving DecidableEq, Repr

/-- Round a magnitude (m + d) * 2^e to a multiple of 2^q; the multiple. -/
def roundMag (mode r : Nat) (neg : Bool) (m : Nat) (e : Int) (st : Bool) (q : Int) : Nat :=
  if q ≤ e then m * 2 ^ (e - q).toNat
  else
    let s := (q - e).toNat
    let low := m / 2 ^ s
    let rem := m % 2 ^ s
    let inexact := decide (rem ≠ 0) || st
    let up :=
      if mode = 0 then decide (2 ^ s < 2 * rem) || (decide (2 * rem = 2 ^ s) && (st || decide (low % 2 = 1)))
      else if mode = 1 then false
      else if mode = 2 then neg && inexact
      else if mode = 3 then !neg && inexact
      else decide (r < rem * 2 ^ 32 / 2 ^ s)
    if up then low + 1 else low

/-- The result for a magnitude beyond the largest finite value (R70). -/
def overflowBits (t : Nat) (k : Rnd) (neg : Bool) : Nat :=
  if t = 0x08 || k.sat then withSign t neg (maxFin t)
  else
    let toInf := k.mode = 0 || k.mode = 4 || (k.mode = 3 && !neg) || (k.mode = 2 && neg)
    if toInf then (if hasInf t then withSign t neg (infBits t) else canonNan t) else withSign t neg (maxFin t)

/-- The pattern of an exactly representable magnitude c * 2^q, where q is the quantum at it. -/
def packMag (t : Nat) (c : Nat) (q : Int) : Nat :=
  let f := fracBits t
  if c < 2 ^ f then c
  else
    let c1 := if 2 ^ (f + 1) ≤ c then c / 2 else c
    let q1 := if 2 ^ (f + 1) ≤ c then q + 1 else q
    (q1 + f + biasOf t).toNat * 2 ^ f + (c1 - 2 ^ f)

/-- Round a value once to a float type (R69, R70), with the output flush of R68. -/
def roundFloat (t : Nat) (k : Rnd) (v : Num) : Nat :=
  match v with
  | .nan => canonNan t
  | .inf neg => if t = 0x08 || k.sat then withSign t neg (maxFin t) else if hasInf t then withSign t neg (infBits t) else canonNan t
  | .fin neg m e st =>
    if m = 0 && !st then withSign t neg 0
    else
      let f := fracBits t
      let qmin : Int := 1 - (biasOf t : Int) - f
      let q := if m = 0 then qmin else max ((Nat.log2 m : Int) + e - f) qmin
      let c := roundMag k.mode k.r neg m e st q
      let mx := maxFin t
      let mxc := 2 ^ f + mx % 2 ^ f
      let mxq : Int := (mx / 2 ^ f : Nat) - (biasOf t : Int) - f
      let big := decide (mxq < q) && decide (c ≠ 0) || (decide (q = mxq) && decide (mxc < c))
      let bits := if big then overflowBits t k neg else withSign t neg (packMag t c q)
      flushOut k.ftz t bits

/-- Range of an integer type. -/
def intMin (t : Nat) : Int := if isSignedT t then -((2 : Int) ^ (ewidth t - 1)) else 0
def intMax (t : Nat) : Int := if isSignedT t then (2 : Int) ^ (ewidth t - 1) - 1 else (2 : Int) ^ ewidth t - 1

def clampInt (lo hi v : Int) : Int := if v < lo then lo else if hi < v then hi else v

/-- The integer a value rounds to in a mode (R64), clamped to a range; NaN gives 0 (R71). -/
def roundInt (lo hi : Int) (mode r : Nat) (v : Num) : Int :=
  match v with
  | .nan => 0
  | .inf neg => if neg then lo else hi
  | .fin neg m e st =>
    let c : Int := roundMag mode r neg m e st 0
    clampInt lo hi (if neg then -c else c)

/-- An integer as a pattern of a type. -/
def intBits (t : Nat) (v : Int) : Nat := (v % (2 : Int) ^ ewidth t).toNat

/-- A value of a float computation in td's type (R69-R73): rounded once to a float type, clamped to an integer type,
or 0 and 1 for B1 (R72). -/
def narrow (t : Nat) (k : Rnd) (v : Num) : Nat :=
  if t = 0x12 then (if v.isZero then 0 else 1)
  else if isFloatT t then roundFloat t k v
  else intBits t (roundInt (intMin t) (intMax t) k.mode k.r v)

/-- An exact integer result in td's type (R71, R73): kept low bits, or clamped when the word saturates. -/
def narrowInt (t : Nat) (k : Rnd) (v : Int) : Nat :=
  if t = 0x12 then (if v = 0 then 0 else 1)
  else if isFloatT t then roundFloat t k (Num.ofInt v)
  else if k.sat then intBits t (clampInt (intMin t) (intMax t) v) else intBits t v

/-- Conversion of one element between types (R69-R72), the source after input flush. -/
def convert (src dst : Nat) (k : Rnd) (v : Nat) : Nat :=
  if isIntT src || src = 0x12 then narrowInt dst k (intVal src v) else narrow dst k (elemVal src v)

/-! ## Exact arithmetic (R62, R73) -/

/-- A signed mantissa at a common exponent. -/
def sgn (neg : Bool) (m : Nat) : Int := if neg then -(m : Int) else (m : Int)

/-- A value from a signed mantissa; an exact zero takes the given sign. -/
def Num.ofScaled (v : Int) (e : Int) (zneg : Bool) : Num :=
  if v = 0 then .zero zneg else .fin (decide (v < 0)) v.natAbs e false

/-- The exact sum (R73); a zero sum of opposite signs is +0 except under RDN. -/
def Num.add (mode : Nat) : Num → Num → Num
  | .nan, _ => .nan
  | _, .nan => .nan
  | .inf a, .inf b => if a = b then .inf a else .nan
  | .inf a, _ => .inf a
  | _, .inf b => .inf b
  | .fin a m e _, .fin b n f _ =>
    let lo := min e f
    let v := sgn a (m * 2 ^ (e - lo).toNat) + sgn b (n * 2 ^ (f - lo).toNat)
    Num.ofScaled v lo (if m = 0 && n = 0 && a = b then a else decide (mode = 2))

def Num.mul : Num → Num → Num
  | .nan, _ => .nan
  | _, .nan => .nan
  | .inf a, .inf b => .inf (a != b)
  | .inf a, .fin b n _ _ => if n = 0 then .nan else .inf (a != b)
  | .fin a m _ _, .inf b => if m = 0 then .nan else .inf (a != b)
  | .fin a m e _, .fin b n f _ => if m * n = 0 then .zero (a != b) else .fin (a != b) (m * n) (e + f) false

/-- The quotient with 200 bits below the operands' and a sticky bit. -/
def Num.div : Num → Num → Num
  | .nan, _ => .nan
  | _, .nan => .nan
  | .inf _, .inf _ => .nan
  | .inf a, .fin b _ _ _ => .inf (a != b)
  | .fin a _ _ _, .inf b => .zero (a != b)
  | .fin a m e _, .fin b n f _ =>
    if n = 0 then (if m = 0 then .nan else .inf (a != b))
    else if m = 0 then .zero (a != b)
    else
      let p := 200 + Nat.log2 n
      .fin (a != b) (m * 2 ^ p / n) (e - f - p) (decide (m * 2 ^ p % n ≠ 0))

/-- Compare finite values and infinities exactly; NaN compares with nothing. -/
def Num.lt : Num → Num → Bool
  | .nan, _ => false
  | _, .nan => false
  | .inf a, .inf b => a && !b
  | .inf a, _ => a
  | _, .inf b => !b
  | .fin a m e _, .fin b n f _ =>
    let lo := min e f
    decide (sgn a (m * 2 ^ (e - lo).toNat) < sgn b (n * 2 ^ (f - lo).toNat))

def Num.eq : Num → Num → Bool
  | .nan, _ => false
  | _, .nan => false
  | a, b => !(Num.lt a b) && !(Num.lt b a)

/-- Minimum and maximum of R62: -0 below +0, NaN when either is NaN. -/
def Num.minN (a b : Num) : Num :=
  if a.isNan || b.isNan then .nan
  else if Num.lt a b then a else if Num.lt b a then b else if a.neg? then a else b

def Num.maxN (a b : Num) : Num :=
  if a.isNan || b.isNan then .nan
  else if Num.lt a b then b else if Num.lt b a then a else if a.neg? then b else a

/-! ## Random values (R66) -/

/-- Three rounds of the shift generator. -/
def xorshift (x : BitVec 32) : Nat → BitVec 32
  | 0 => x
  | n + 1 =>
    let a := x ^^^ (x <<< 13)
    let b := a ^^^ (a >>> 17)
    xorshift (b ^^^ (b <<< 5)) n

/-- The random value of element e of a word with sequence number q. -/
def srValue (seed q : BitVec 32) (e : Nat) : Nat :=
  let x := seed ^^^ (q * 0x9E3779B9#32) ^^^ (BitVec.ofNat 32 e * 0x85EBCA6B#32)
  (xorshift (if x = 0 then 0x6D2B79F5#32 else x) 3).toNat

end Sys2Proof.Machine
end

