-- ==== Sys2Proof/Word.lean ====
section
/-! DEFINITION. The word types of the P384 and their plainest arithmetic (00_scope R4: bit 0 is the least
significant bit, multi-byte values are little-endian). -/

namespace Sys2Proof

/-- Eight bits. -/
abbrev Byte := BitVec 8
/-- An instruction word (R4). -/
abbrev Word := BitVec 32
/-- A 64-bit scalar (R86). -/
abbrev Dword := BitVec 64
/-- A predicate (R89). -/
abbrev Pred := BitVec 128
/-- A 128-byte row of a tile or of the scratchpad (R1). -/
abbrev Row := BitVec 1024
/-- One row of an accumulator: 128 elements of 32 bits (R140). -/
abbrev AccRow := BitVec 4096
/-- A 64-byte record: a descriptor, a landing map or a global map (R160, R169, R172). -/
abbrev Rec512 := BitVec 512

end Sys2Proof
end

