-- ==== Sys2Proof/Config.lean ====
section
/-! DEFINITION. What the manual fixes for every P384-M, and the values it leaves open. A free value is an opaque
constant: no proof can see what it is, so a claim about it holds whatever it is (DESIGN CHOICE: notes/assumptions/10). -/

namespace Sys2Proof.Config

/-- Cores of the device (R1). -/
def numCores : Nat := 384
/-- Slices of the device (R1). -/
def numSlices : Nat := 128
/-- Tenants of the device (R1). -/
def numTenants : Nat := 32
/-- Words a queue holds before capture stalls (R32). -/
def queueDepth : Nat := 16
/-- Tokens one token queue holds (02_idioms, before R14). -/
def tokenDepth : Nat := 15
/-- q6 reservations of a strand (R18). -/
def q6Depth : Nat := 32
/-- Open blocks of a core (R159). -/
def openBlocks : Nat := 64
/-- Requests of a core outstanding at once (R1, R190). -/
def outstanding : Nat := 4096
/-- First scratchpad byte of the flag region (R101, R229). -/
def flagBase : Nat := 0xBFC00
/-- Scratchpad bytes (R1, R101). -/
def spadBytes : Nat := 0xC0000
/-- End of device memory (R305, R318). -/
def memEnd : Nat := 0xC000000000
/-- Controller period in cycles (R294). -/
def period : Nat := 4096
/-- Bytes of a save slot's stride (R309). -/
def slotStride : Nat := 0x400000

/-- Free: the device serial number of a `cntsnap` record (R315). -/
opaque serial : BitVec 64
/-- Free: byte i of the identity key's public half, and of the device identity certificate (R320, R333). -/
opaque publicKey : Nat → BitVec 8
opaque certificate : Nat → BitVec 8
/-- Free: byte i of the ECDSA signature over a snapshot record (R315): the key never leaves the secure block. -/
opaque signature : List (BitVec 8) → Nat → BitVec 8
/-- Free: the bytes of image regions whose inner layout R310 does not give (the nth such byte written). -/
opaque imageByte : Nat → BitVec 8
/-- Free: a value the manual does not state, the nth one asked for. -/
opaque freeValue : Nat → BitVec 64

end Sys2Proof.Config
end

