-- ==== Sys2Proof/Machine/Map.lean ====
section
/-! DEFINITION. Sparse data by key: a list of pairs in rising order of key. `Map.put` keeps the canonical form in
which no entry equals what an unlisted key reads as. -/

namespace Sys2Proof.Machine

/-- Pairs of a key and a value. -/
abbrev Map (α : Type) := List (Nat × α)

/-- The value at a key, where an unlisted key reads as `d`. -/
def Map.get {α : Type} (d : α) : Map α → Nat → α
  | [], _ => d
  | (j, v) :: t, k => if j = k then v else Map.get d t k

/-- The value at a key, if it is listed. -/
def Map.at? {α : Type} : Map α → Nat → Option α
  | [], _ => none
  | (j, v) :: t, k => if j = k then some v else Map.at? t k

/-- List the value at the key, in its place. -/
def Map.ins {α : Type} : Map α → Nat → α → Map α
  | [], k, v => [(k, v)]
  | (j, u) :: t, k, v =>
    if k < j then (k, v) :: (j, u) :: t
    else if k = j then (k, v) :: t
    else (j, u) :: Map.ins t k v

/-- Unlist a key. -/
def Map.del {α : Type} : Map α → Nat → Map α
  | [], _ => []
  | (j, u) :: t, k => if j = k then Map.del t k else (j, u) :: Map.del t k

/-- Write a value, unlisting the key when the value is what an unlisted key reads as. -/
def Map.put {α : Type} [DecidableEq α] (d : α) (m : Map α) (k : Nat) (v : α) : Map α :=
  if v = d then Map.del m k else Map.ins m k v

/-- The keys in rising order, none listed with the value `d`. -/
def Map.wf {α : Type} [DecidableEq α] (d : α) : Map α → Bool
  | [] => true
  | [(_, v)] => decide (v ≠ d)
  | (j, v) :: (k, u) :: t => decide (v ≠ d) && decide (j < k) && Map.wf d ((k, u) :: t)

/-- Apply a function to one listed value. -/
def Map.modify {α : Type} (m : Map α) (k : Nat) (f : α → α) : Map α :=
  match Map.at? m k with
  | some v => Map.ins m k (f v)
  | none => m

end Sys2Proof.Machine
end

