-- ==== Sys2Proof/Syntax.lean ====
section
/-! DEFINITION. The steps of the P384: one constructor of `Instr` for every row of spec/opcode_table.json. The first
181 are instruction words with the fields of their encodings (04_encoding R42-R52), most significant field first;
the last 81 are the events, the indivisible steps of the other agents (95_what_each_step_holds). -/

namespace Sys2Proof

/-- The six engines of a core, each with one queue (R30). System words run in the S queue. -/
inductive Engine where
  | s | v | m | x | y | k
deriving DecidableEq, Repr

/-- The number of an engine's queue: its value in bits 31:29 of a word (R30). -/
def Engine.num : Engine → Nat
  | .s => 0 | .v => 1 | .m => 2 | .x => 3 | .y => 4 | .k => 5

/-- A write to a register of a virtual function's page or of the physical function that has no event of its own
(REGISTER_WRITE; R320, R322). `vf` is a write of `width` bytes at an offset of the tenant's page; the others are the
management registers of the physical function, by name, and the device memory windows. -/
inductive RegWrite where
  | vf (tenant off width : Nat) (v : BitVec 64)
  | ptbase (tenant : Nat) (v : BitVec 64)
  | tenctl (tenant : Nat) (v : BitVec 64)
  | scap (tenant : Nat) (v : BitVec 64)
  | qmax (tenant : Nat) (v : BitVec 64)
  | weight (tenant : Nat) (v : BitVec 64)
  | floorCap (tenant die floor cap : Nat)
  | queueCap (tenant queue cap : Nat)
  | endpoint (tenant dev : Nat) (v : BitVec 64)
  | window (tenant idx base size : Nat)
  | rgOwner (group : Nat) (tenant : Option Nat)
  | powerLimit (watts : Nat)
  | msixMask (tenant vec : Nat)
deriving DecidableEq, Repr

/-- The steps of the machine. -/
inductive Instr where
  -- Scalar and control words (000)
  | nop
  | add (d a b : BitVec 6)
  | sub (d a b : BitVec 6)
  | mul (d a b : BitVec 6)
  | mulh (d a b : BitVec 6)
  | mulhu (d a b : BitVec 6)
  | div (d a b : BitVec 6)
  | divu (d a b : BitVec 6)
  | rem (d a b : BitVec 6)
  | remu (d a b : BitVec 6)
  | and (d a b : BitVec 6)
  | or (d a b : BitVec 6)
  | xor (d a b : BitVec 6)
  | andn (d a b : BitVec 6)
  | shl (d a b : BitVec 6)
  | shr (d a b : BitVec 6)
  | sra (d a b : BitVec 6)
  | rotl (d a b : BitVec 6)
  | min (d a b : BitVec 6)
  | max (d a b : BitVec 6)
  | minu (d a b : BitVec 6)
  | maxu (d a b : BitVec 6)
  | clz (d a : BitVec 6)
  | ctz (d a : BitVec 6)
  | popc (d a : BitVec 6)
  | addi (d a : BitVec 6) (i : BitVec 11)
  | andi (d a : BitVec 6) (i : BitVec 11)
  | ori (d a : BitVec 6) (i : BitVec 11)
  | xori (d a : BitVec 6) (i : BitVec 11)
  | shli (d a : BitVec 6) (i : BitVec 11)
  | shri (d a : BitVec 6) (i : BitVec 11)
  | srai (d a : BitVec 6) (i : BitVec 11)
  | muli (d a : BitVec 6) (i : BitVec 11)
  | li (d : BitVec 6) (i : BitVec 11)
  | fadd (d a b : BitVec 6)
  | fsub (d a b : BitVec 6)
  | fmul (d a b : BitVec 6)
  | fdiv (d a b : BitVec 6)
  | fmin (d a b : BitVec 6)
  | fmax (d a b : BitVec 6)
  | fabs (d a : BitVec 6)
  | fneg (d a : BitVec 6)
  | fsqrt (d a : BitVec 6)
  | fcvtFw (d a : BitVec 6)
  | fcvtWf (d a : BitVec 6)
  | cmp (p : BitVec 7) (a b : BitVec 6) (c : BitVec 4)
  | pand (d a b : BitVec 7)
  | por (d a b : BitVec 7)
  | pxor (d a b : BitVec 7)
  | pandn (d a b : BitVec 7)
  | csel (d a b : BitVec 6) (p : BitVec 5)
  | pget (s : BitVec 6) (p : BitVec 7) (h : BitVec 1)
  | pput (s : BitVec 6) (p : BitVec 7) (h : BitVec 1)
  | tshape (s t : BitVec 6)
  | rdshape (s t : BitVec 6)
  | csrr (s : BitVec 6) (c : BitVec 12)
  | csrw (s : BitVec 6) (c : BitVec 12)
  | lds (s b : BitVec 6) (d : BitVec 11)
  | sts (s b : BitVec 6) (d : BitVec 11)
  | ldg (s b : BitVec 6) (d : BitVec 11)
  | stg (s b : BitVec 6) (d : BitVec 11)
  | br (p : BitVec 7) (s : BitVec 1) (d : BitVec 15)
  | jmp (d : BitVec 23)
  | call (d : BitVec 23)
  | jr (a : BitVec 6)
  | loopT (l : BitVec 2) (c : BitVec 6) (n : BitVec 15)
  | loopRp (l : BitVec 2) (q : BitVec 6) (n : BitVec 15)
  | endw
  -- Vector words (001)
  | vadd (d a b : BitVec 6) (w : BitVec 2)
  | vsub (d a b : BitVec 6) (w : BitVec 2)
  | vmul (d a b : BitVec 6) (w : BitVec 2)
  | vdiv (d a b : BitVec 6) (w : BitVec 2)
  | vmin (d a b : BitVec 6) (w : BitVec 2)
  | vmax (d a b : BitVec 6) (w : BitVec 2)
  | vand (d a b : BitVec 6) (w : BitVec 2)
  | vor (d a b : BitVec 6) (w : BitVec 2)
  | vxor (d a b : BitVec 6) (w : BitVec 2)
  | vshl (d a b : BitVec 6) (w : BitVec 2)
  | vshr (d a b : BitVec 6) (w : BitVec 2)
  | vsra (d a b : BitVec 6) (w : BitVec 2)
  | vabs (d a : BitVec 6)
  | vneg (d a : BitVec 6)
  | vrcp (d a : BitVec 6)
  | vrsqrt (d a : BitVec 6)
  | vsqrt (d a : BitVec 6)
  | vexp2 (d a : BitVec 6)
  | vlog2 (d a : BitVec 6)
  | vtanh (d a : BitVec 6)
  | vsigm (d a : BitVec 6)
  | vsilu (d a : BitVec 6)
  | vfloor (d a : BitVec 6)
  | vrnd (d a : BitVec 6)
  | vmov (d a : BitVec 6)
  | vnot (d a : BitVec 6)
  | vcmp (d a b : BitVec 6) (c : BitVec 4)
  | vcvt (d a : BitVec 6)
  | vredr (d a : BitVec 6) (f : BitVec 4)
  | vredc (d a : BitVec 6) (f : BitVec 4)
  | vtrn (d a : BitVec 6)
  | vbcr (d a : BitVec 6)
  | vbcc (d a : BitVec 6)
  | vqnt (d a b : BitVec 6)
  | vdqnt (d a b : BitVec 6)
  | vvqd (d a b : BitVec 6)
  | vcomp (d a b : BitVec 6) (k : BitVec 4)
  | vscan (d a : BitVec 6) (k : BitVec 4)
  | vrmg (d a s : BitVec 6)
  | vfill (d a : BitVec 6)
  | vget (t a : BitVec 6)
  | vput (d a b : BitVec 6)
  | tld (d a : BitVec 6) (i : BitVec 10)
  | tst (d a : BitVec 6) (i : BitVec 10)
  | tldX (d a : BitVec 6) (i : BitVec 10)
  | tkill (d : BitVec 6)
  | vcbld (s : BitVec 6)
  | vrowm (t : BitVec 6)
  | vfma (d a b c : BitVec 6)
  | vfms (d a b c : BitVec 6)
  | vsel (d a b c : BitVec 6)
  | vclamp (d a b c : BitVec 6)
  -- Matrix words (010)
  | mma (c : BitVec 2) (a b x : BitVec 6) (f : BitVec 3)
  | mmaSp (c : BitVec 2) (a b x : BitVec 6) (f : BitVec 3)
  | mmaG (c : BitVec 2) (a b x : BitVec 6) (f : BitVec 3)
  | mrd (c : BitVec 2) (d : BitVec 6) (k : BitVec 8) (t : BitVec 1)
  | mwr (c : BitVec 2) (s : BitVec 6) (k : BitVec 8) (t : BitVec 1)
  | mclr (c : BitVec 2)
  | mscl (a b : BitVec 6)
  | msclOff
  -- Transfer words (011)
  | xget (d : BitVec 4) (a b : BitVec 6) (m : BitVec 4) (s : BitVec 1)
  | xput (d : BitVec 4) (a b : BitVec 6) (m : BitVec 4) (s : BitVec 1)
  | xsend (d : BitVec 4) (a b : BitVec 6) (m : BitVec 4) (s : BitVec 1)
  | xgat (d : BitVec 4) (a b : BitVec 6) (m : BitVec 4) (s : BitVec 1)
  | xsca (d : BitVec 4) (a b : BitVec 6) (m : BitVec 4) (o : BitVec 2) (s : BitVec 1)
  | xacc (d : BitVec 4) (a b : BitVec 6) (m : BitVec 4) (o : BitVec 2) (s : BitVec 1)
  | xat (o : BitVec 4) (a b c : BitVec 6) (z : BitVec 2)
  | xdesc (s : BitVec 4) (a : BitVec 6)
  | xmap (s : BitVec 4) (a : BitVec 6)
  | xswap (s : BitVec 4) (a : BitVec 6)
  | xunmap (s : BitVec 4)
  | xmw (s : BitVec 4) (a : BitVec 6)
  | xrpl (d : BitVec 4) (a b : BitVec 6)
  | xrpf (d : BitVec 4) (a b : BitVec 6)
  | xred (d : BitVec 4) (ab : BitVec 6 × BitVec 6)
  | xgmap (a : BitVec 6)
  | xgunmap (a : BitVec 6)
  -- Synchronisation words (100)
  | hnew (d : BitVec 5)
  | hfork (d a : BitVec 5)
  | hjoin (d a b : BitVec 5) (s : BitVec 3)
  | hdrain (a : BitVec 5) (s : BitVec 3)
  | hpass (a : BitVec 5) (p : BitVec 6)
  | hrecv (d : BitVec 5) (p : BitVec 6)
  | hfree (a : BitVec 5)
  | ringInit (g : BitVec 4) (a : BitVec 6)
  | ringWfree (g : BitVec 4)
  | ringPub (g : BitVec 4)
  | ringWfill (g : BitVec 4)
  | ringRel (g : BitVec 4)
  | ringStat (g : BitVec 4)
  | barArr (t : BitVec 3)
  | barWait (t : BitVec 3)
  | flagAdd (a b : BitVec 6)
  | flagSet (a b c : BitVec 6)
  | flagWait (a b : BitVec 6)
  -- Selection words (101)
  | ktopc (d a b k : BitVec 6)
  | ktopr (d a b k : BitVec 6)
  | kmerge (d a b n : BitVec 6)
  | ksort (d a b : BitVec 6)
  | khist (d a n : BitVec 6)
  | kmark (d a n : BitVec 6)
  -- System words (110)
  | trap (i : BitVec 17)
  | ebrk (i : BitVec 17)
  | klaunch (a : BitVec 6) (q : BitVec 4)
  | eret
  | tinv (a : BitVec 6)
  | ctxsave (a : BitVec 6)
  | ctxload (a : BitVec 6)
  | spflush
  | sacinv
  | cntsnap (a : BitVec 6)
  | wfi
  | barcfg (a : BitVec 6) (t : BitVec 3)
  -- Events (95_what_each_step_holds); the arguments name the subject of the step
  | wordStart (core : Nat) (eng : Engine)
  | tokenSignal (core : Nat) (eng : Engine)
  | spanEndComplete (core : Nat)
  | beatArrival (pkt : Nat)
  | blockComplete (core blk : Nat)
  | ackReceive (pkt : Nat)
  | hdrainComplete (core : Nat)
  | packetEviction (arriving victim : Nat)
  | packetResend (pkt : Nat)
  | ackTimeoutResend (pkt : Nat)
  | rateLimitRelease (pkt : Nat)
  | sliceBlockRequest (pkt : Nat)
  | slicePutBeat (pkt : Nat)
  | sliceAccumulate (pkt : Nat)
  | sliceAtomic (pkt : Nat)
  | xatReply (pkt : Nat)
  | sliceScalarAccess (pkt : Nat)
  | ldgReply (pkt : Nat)
  | mapCacheFill (core tenant tag : Nat)
  | flagAddApply (pkt : Nat)
  | flagSetApply (pkt : Nat)
  | flagWaitRetest (core : Nat)
  | barrierPhaseComplete (tenant tag : Nat)
  | channelElementArrive (pkt : Nat)
  | channelCreditReturn (pkt : Nat)
  | channelPopTimeout (core : Nat)
  | mailboxTicketArrive (pkt : Nat)
  | ticketConfirm (pkt : Nat)
  | reductionContribution (pkt : Nat)
  | reductionTimeout (group : Nat)
  | reductionStatusDeliver (pkt : Nat)
  | sacCheck (pkt : Nat)
  | sacFill (pkt : Nat)
  | sacVerdictDeliver (pkt : Nat)
  | launchHeadCheck (tenant queue : Nat)
  | spanHandoff (core : Nat)
  | launchComplete (tenant lid : Nat)
  | controllerPeriod
  | immediateSave (core : Nat)
  | spanResume (core : Nat)
  | unitFirstTouch (core unit : Nat)
  | trapEntry (core : Nat)
  | vfReset (tenant : Nat)
  | qbellWrite (tenant queue : Nat) (v : BitVec 64)
  | qstatClear (tenant : Nat) (v : BitVec 64)
  | cqidxHeadWrite (tenant queue : Nat) (v : BitVec 64)
  | oboxRead (tenant : Nat)
  | iboxWrite (tenant core : Nat) (v : BitVec 64)
  | iboxovfClear (tenant idx : Nat) (v : BitVec 64)
  | mcgrpWrite (tenant group idx : Nat) (v : BitVec 64)
  | rgselWrite (tenant : Nat) (v : BitVec 64)
  | rgcommitWrite (tenant : Nat) (v : BitVec 64)
  | spdataStore (tenant : Nat) (v : BitVec 64)
  | vfEnable (tenant : Nat)
  | rateLimitConfig (tenant die : Nat) (v : BitVec 64)
  | sacQuotaWrite (tenant : Nat) (v : BitVec 64)
  | registerWrite (w : RegWrite)
  | msixUnmask (tenant vec : Nat)
  | hostMemRead (pa len : Nat)
  | hostMemWrite (pa : Nat) (bytes : List (BitVec 8))
  | falardFlitReplay (port : Nat)
  | falardRetrain (port : Nat)
  | falardPortFail (port : Nat)
  | deviceReset
  | firmwareLoadDone (ok : Bool)
  | hbmTrainingDone (ok : Bool)
  | falardTrainingDone (up : BitVec 16)
  | powerLimitStep (watts : Nat)
  | thermalThrottle (die temp : Nat)
  | thermalShutdown (temp flow : Nat)
  | counterFlush
  | lifetimeLogUpdate (temps : List Nat) (watts : Nat)
  | orderlyPowerOff
  | abruptPowerLoss
  | unitSpillComplete (core unit : Nat)
  | globalMapInstallArrive (pkt : Nat)
  | sacInvalidationArrive (pkt : Nat)
  | cntsnapRequestArrive (pkt : Nat)
  | hostRecallResponse (line : Nat)
  | falardRetrainDone (port : Nat) (ok : Bool)
  | supplyDroop (die millivolts : Nat)
deriving DecidableEq, Repr

end Sys2Proof
end

