-- ==== Sys2Proof/Machine/State.lean ====
section
/-! DEFINITION. The state of the whole device as plain data: everything the manual gives the machine (INVENTORY.md
lists each item with its rule), and the model's own fields (agenda, picks, cur, eager, freeCtr, hostRead), which say which
agent moves next and where a free value comes from. Every field's default value is its value at reset. -/

namespace Sys2Proof.Machine

/-- Why the model stops. -/
inductive Fault where
  /-- Raised by HOST_MEM_READ and HOST_MEM_WRITE on an address outside device memory (R318: one HDM decoder covers
  exactly 0x00_0000_0000-0xBF_FFFF_FFFF), which does not exist. Safe: the model stops where the host bus would answer. -/
  | hostAddress
deriving DecidableEq, Repr

/-- Why the model gives no meaning. -/
inductive Refusal where
  /-- Raised only by an arm of `exec` that has no meaning yet, with the mnemonic. Safe: the model stops. -/
  | notModelled (mnemonic : String)
deriving DecidableEq, Repr

/-! ## Capture -/

/-- The prefix words of a group (R34): TOK masks, IMM upper bits, HND fields, MOD fields. -/
structure Pfx where
  hasTok : Bool := false
  wait : BitVec 6 := 0
  signal : BitVec 6 := 0
  hasImm : Bool := false
  upper : BitVec 27 := 0
  hasHnd : Bool := false
  handle : Nat := 0
  scope : Nat := 0
  acq : Bool := false
  rel : Bool := false
  hasMod : Bool := false
  pred : Nat := 0
  maskOn : Bool := false
  invert : Bool := false
  round : Nat := 0
  sat : Bool := false
deriving DecidableEq, Repr

/-- The capture latch: the group being captured (R30): its first address, the address of its non-prefix word, that
word and the prefixes. -/
structure Grp where
  addr : Nat := 0
  waddr : Nat := 0
  raw : Word := 0
  pfx : Pfx := {}
deriving DecidableEq, Repr

/-- A byte range of a named access (R195, R196): in the scratchpad, or of global memory by physical address. -/
structure Foot where
  glob : Bool
  lo : Nat
  hi : Nat
deriving DecidableEq, Repr

/-- A condition on starting beyond queue, tokens and order: every earlier command naming a tag finished (`xgunmap`,
R186), every earlier check and fill decided (`sacinv`, R281), the earlier `xred` to the group answered (R262). -/
inductive Gate where
  | none | tag (t : Nat) | sacDone | group (g : Nat)
deriving DecidableEq, Repr

/-- A predecessor of an operation (R198, R199, R220): every operation of sequencer `seqr` numbered below `count`
must be visible at `scope` first. `lo` is the number the sequencer stood at when its holder took it. -/
structure Pre where
  seqr : Nat
  count : Nat
  scope : Nat
  lo : Nat := 0
deriving DecidableEq, Repr

/-- A row of the tile file (128 * tile + row) or of the scratchpad (8192 + row) as one access read it or will write it
(R114, R134): its bytes and its error mark. -/
structure RowVal where
  key : Nat
  val : Row
  bad : Bool
deriving DecidableEq, Repr

/-- How a word goes on after its row accesses: it finishes, or stays under way in one of three manners. -/
inductive After where
  | done | sent | shut | going
deriving DecidableEq, Repr

/-- The row accesses of a started word (R114, R134, R152, R214): rows still to read, rows read, rows still to write, and
what follows once nothing is left. -/
structure Rows where
  todo : List Nat := []
  snap : List RowVal := []
  outs : List RowVal := []
  after : Option After := none
deriving DecidableEq, Repr

/-- A source or destination of packets (R255). -/
inductive Leaf where
  | core (c : Nat) | slice (s : Nat) | io | remote (dev core : Nat)
deriving DecidableEq, Repr

/-- How far an `xgat` or `xsca` has gone through its index list (R178): the next index, its command, the number its index 0
has, and its destinations. -/
structure Listing where
  next : Nat
  cmd : Nat
  first : Nat
  leaves : List Leaf
deriving DecidableEq, Repr

/-- A captured word with everything it read at capture (R13, R32, R67, R173, R187). -/
structure QWord where
  instr : Instr
  eng : Engine
  /-- place in program order -/
  seq : Nat
  addr : Nat := 0
  waddr : Nat := 0
  raw : Word := 0
  pfx : Pfx := {}
  /-- operand values in field order -/
  ops : List Dword := []
  /-- the 64-bit immediate of R36 -/
  imm : Dword := 0
  /-- destination code, if the word has one (R41) -/
  dst : Option Nat := none
  /-- predicate written, if any -/
  dstP : Option Nat := none
  /-- q6 elements reserved, in order (R54) -/
  q6 : List Nat := []
  /-- a value fixed at capture (`csrr`, `rdshape`) -/
  cap : Dword := 0
  /-- shape records of the tiles named, by tile (R13) -/
  shapes : Map Word := []
  /-- effective rounding mode, `ftz`, seed and SR number (R65-R68) -/
  rnd : Nat := 0
  ftz : Nat := 0
  seed : BitVec 32 := 0
  srq : BitVec 32 := 0
  /-- row mask (R38, R115), all ones where none applies -/
  mask : Pred := BitVec.allOnes 128
  swz : Nat := 0
  gbase : Nat := 0
  gpitch : Nat := 0
  /-- the current format entry and index (R83, R84) -/
  fmt : Word := 0
  /-- the extraction set a word or microword uses (R82) -/
  bfx : List Dword := []
  /-- MX scale tiles bound (R147) -/
  mscl : Option (Nat × Nat) := none
  /-- descriptor and second descriptor, microword, global map, companion map (R172, R187) -/
  desc : Rec512 := 0
  desc2 : Rec512 := 0
  mw : Dword := 0
  gmap : Rec512 := 0
  gmap2 : Rec512 := 0
  /-- SAC step tag and age limit (R268, R274) -/
  step : Nat := 0
  sacage : Nat := 0
  /-- physical address fixed at capture (R306) -/
  pa : Nat := 0
  /-- frames of the pages of a slot, fixed at capture (R306, R313) -/
  frames : List Nat := []
  /-- the sequencer and operation number it runs under (R219), when it is a memory operation -/
  seqr : Option Nat := none
  opn : Nat := 0
  /-- scope of a release it carries, as capped (R207, R210, R213); 0 where it carries none -/
  rscope : Nat := 0
  pre : List Pre := []
  /-- tickets its handle waits for (R212): indices into the context's ticket list -/
  tix : List Nat := []
  /-- for `hdrain`: the sequencers and counts waited on, at the drain's scope (R221) -/
  covers : List Pre := []
  /-- named accesses (R196) -/
  foot : List Foot := []
  /-- units of tiles, accumulators and scratchpad it touches (R312) -/
  units : List Nat := []
  /-- what else must hold before it starts -/
  gate : Gate := .none
  /-- channel slot number of a push (R87, R235) -/
  slot : Nat := 0
  /-- an M word between two row accesses: the codebook as it stood when the word started (R63, R136), and the rows it has
  gathered, one for each index (R146) -/
  book : Option (Map Word) := none
  gath : List RowVal := []
  /-- an X word: the rows it reads first, how many of its last named accesses are those of `xrpf`'s output block (R277), and
  how far it has gone through a list -/
  keys : Option (List Nat) := none
  outs : Nat := 0
  lst : Option Listing := none
  /-- in `fly`: the word waits and holds its queue; its effect is over -/
  waiting : Bool := false
  /-- in `fly`: the word is under way and no later word of its queue starts before it finishes (R186) -/
  holds : Bool := false
  finished : Bool := false
  /-- raised a trap that was not taken, and runs again after `eret` (R298) -/
  blocked : Bool := false
  /-- an `ldg` that trapped while its register had a later writer: it runs again, and its reply leaves the register (R56, R103) -/
  lost : Bool := false
  /-- in `fly`: the word is between two of its row accesses (R114, R134) -/
  mid : Option Rows := none
deriving DecidableEq, Repr

/-! ## A context (R90, R310, R335) -/

/-- A q6 element (R54, R202): its reservation and, once produced, its value or the cause and tval it carries. -/
structure Elem where
  id : Nat
  val : Option Dword := none
  err : Option (Nat × Dword) := none
deriving DecidableEq, Repr

/-- The receive side of a channel (R234, R235): its elements in arrival order, and the slots reserved by senders
and not yet returned as credits. -/
structure Chan where
  elems : List Dword := []
  reserved : Nat := 0
deriving DecidableEq, Repr

/-- An active loop level (R105): its number, trips, the address of its last word and of its body. -/
structure Loop where
  lvl : Nat
  trips : Nat
  last : Nat
  start : Nat
deriving DecidableEq, Repr

/-- A sequencer (R182, R219): numbers captured, the number at which its holder took it, operations not performed,
predecessors of later operations, tickets they wait for, the deferred status (rank, cause, tval), the device-memory lines
its operations wrote, and the number below which operations were ordered at system scope. -/
structure Seqr where
  count : Nat := 0
  base : Nat := 0
  sysMark : Nat := 0
  opened : List Nat := []
  pre : List Pre := []
  tix : List Nat := []
  status : Option (Nat × Nat × Dword) := none
  lines : List (Nat × Nat) := []
  /-- tickets formed from it and not yet confirmed (their counts) -/
  owed : List Nat := []
deriving DecidableEq, Repr

/-- A received ticket (R212, R222): sender's core, device, sequencer and count; confirmed or not. -/
structure Ticket where
  core : Nat
  device : Nat
  seqr : Nat
  count : Nat
  confirmed : Bool
deriving DecidableEq, Repr

/-- The state of a ring slot (R224). -/
inductive SlotSt where
  | free | claimed | landing | filled | taken
deriving DecidableEq, Repr

/-- A ring (R223-R227). `init`, `nClaim` and `nTake` are capture's bookkeeping; `up` says `ring.init` has run. -/
structure Ring where
  init : Bool := false
  nClaim : Nat := 0
  nTake : Nat := 0
  up : Bool := false
  refusing : Bool := false
  base : Nat := 0
  slots : Nat := 0
  slotbytes : Nat := 0
  state : Map SlotSt := []
  ptr : Nat := 0
  fillOrder : List Nat := []
  takeOrder : List Nat := []
  claimOrder : List Nat := []
deriving DecidableEq, Repr

/-- How the current format entry is chosen (R84). -/
inductive FmtSel where
  | none | loop (k : Nat) | fixed (n : Nat)
deriving DecidableEq, Repr

/-- What a trap holds (R298): held words and token counts, where capture goes on, the trapped word, the address
written to `epc` at entry. -/
structure Held where
  words : List QWord := []
  toks : Map Nat := []
  resume : Nat := 0
  trapped : Option Nat := none
  epc0 : Nat := 0
deriving DecidableEq, Repr

/-- A raised trap that is not yet entered (R298, R311). `word` is the trapped engine word's place in program order;
`cycle` and `place` say when it was raised and where its word stands in program order. -/
structure Pend where
  cause : Nat
  tval : Dword
  eng : Engine
  addr : Nat
  word : Option Nat
  cycle : Nat := 0
  place : Nat := 0
  /-- deferred statuses an `hdrain` took with it, put back if the trap is not the one taken (R199, R298) -/
  drained : Map (Nat × Nat × Dword) := []
  /-- the errored q6 element that the trapped pop named; it goes when the trap is taken (R202) -/
  elem : Option Nat := none
deriving DecidableEq, Repr

/-- Why capture waits, since which cycle (R32, R55). A channel pop names its port and which element of it is awaited. -/
inductive Stall where
  | none | score | full (since : Nat) | q6 (since : Nat) | chan (port idx since : Nat) | mbox | credit | handle
  | gmap (tag : Nat) | other
deriving DecidableEq, Repr

/-- The context of a span on a core. -/
structure Ctx where
  uid : Nat := 0
  tenant : Nat := 0
  lid : Nat := 0
  lnr : Nat := 0
  spanid : Nat := 0
  cls : Nat := 0
  gang : Bool := false
  n : Map Dword := []
  /-- registers that `ldg`s under way still write, by the places of those loads in program order (R103) -/
  late : Map (List Nat) := []
  /-- result queue, newest first: position identity and value once produced -/
  rq : List (Nat × Option Dword) := []
  p : Map Pred := []
  lc : Map Nat := []
  loops : List Loop := []
  ix : Map Nat := []
  pc : Nat := 0
  grp : Grp := {}
  nextSeq : Nat := 1
  q6 : List Elem := []
  nextElem : Nat := 1
  chans : Map Chan := []
  /-- channel declarations of the LNR: offset and slots -/
  chdecl : Map (Int × Nat) := []
  /-- pushes reserved and not yet arrived, per channel in program order -/
  chout : Map (List Nat) := []
  shapes : Map Word := []
  dead : List Nat := []
  /-- live handles and the sequencer each holds -/
  hnd : Map Nat := [(0, 0)]
  seqrs : Map Seqr := []
  tickets : Map Ticket := []
  codebook : Map Word := []
  bfx : Map Dword := []
  desc : Map Rec512 := []
  maps : Map Rec512 := []
  /-- slots capture holds valid (R185) -/
  mapCap : List Nat := []
  mws : Map Dword := []
  rings : Map Ring := []
  rnd : Nat := 0
  ftz : Nat := 0
  step : Nat := 0
  sacage : Nat := 0
  gbase : Nat := 0
  gpitch : Nat := 0
  swz : Nat := 0
  bfxsel : Nat := 0
  rpbase : Dword := 0
  srseed : BitVec 32 := 0
  qtmo : Nat := 0
  srctr : BitVec 32 := 0
  sticky : BitVec 11 := 0
  epc : Nat := 0
  cause : Nat := 0
  tval : Dword := 0
  pstat : BitVec 8 := 0
  mscl : Option (Nat × Nat) := none
  /-- kinds of the accumulators (those that hold INT32) while the context is suspended (R140) -/
  kinds : List Nat := []
  /-- token queues, by 6 * from + to -/
  tok : Map Nat := []
  /-- captured words that have not started, in program order -/
  qs : List QWord := []
  /-- started words that wait, are unfinished, or have signals to push -/
  fly : List QWord := []
  held : Held := {}
  pend : Option Pend := none
  /-- the trap of an unhandled entry (R299) -/
  dead0 : Option (Nat × Dword) := none
  ending : Bool := false
  stall : Stall := .none
  fmtTab : Map Word := []
  fmtSel : FmtSel := .none
  /-- from the LNR: tiles used, scratchpad rows used, budget -/
  useTiles : Nat := 64
  useSpad : Nat := 6136
  budget : Nat := 0
  /-- an M word has been captured: the kernel contains one (R267) -/
  mword : Bool := false
  /-- cycle at which the span started, moved on by the cycles it was suspended (R297) -/
  started : Nat := 0
deriving DecidableEq, Repr

/-! ## Packets and commands -/

/-- A block header (R158). `blk` is the block's number; the acknowledgement of the block carries it. -/
structure Hdr where
  tag : Nat
  tenant : Nat
  origin : Dword
  blk : Nat
  etype : Nat
deriving DecidableEq, Repr

/-- One beat (R158). -/
structure Beat where
  row : Nat
  plane : Nat
  batch : Nat
  off : Nat
  count : Nat
  pad : Nat
  poison : Bool
  data : BitVec 512
deriving DecidableEq, Repr

/-- A whole block as a value: tag, etype, block shape and elements in row-major order, the first poisoned address. -/
structure Blk where
  tag : Nat := 0
  etype : Nat := 0
  shape : Dword := 0
  elems : List Nat := []
  /-- beats it travels as, and their payload bytes (R158, R260) -/
  beats : Nat := 0
  bytes : Nat := 0
  poison : Option Nat := none
deriving DecidableEq, Repr

/-- What an acknowledgement reports (R162, R181, R182): cause (0 none) with tval, and host-tracked lines written. -/
structure AckInfo where
  cause : Nat := 0
  tval : Dword := 0
  lines : List Nat := []
  /-- elements flushed by stages run at the slice (R68, R188) -/
  flushes : Nat := 0
deriving DecidableEq, Repr

/-- What a packet carries. -/
inductive PKind where
  /-- a block request of `xget` or `xgat`: global descriptor, microword, first element to read, origin carried, etype
  that leaves, destinations with the block numbers of their copies, `ftz`, seed, SR number, extraction set, and the
  number of the request itself -/
  | blockReq (desc : Rec512) (mw : Dword) (src origin : Dword) (outT : Nat) (dests : List (Leaf × Nat))
      (ftz : Nat) (seed srq : BitVec 32) (bfx : List Dword) (rid : Nat)
  | beat (h : Hdr) (b : Beat)
  | close (h : Hdr) (beats : Nat) (link : Bool)
  | put (h : Hdr) (b : Beat)
  | acc (h : Hdr) (b : Beat) (op : Nat)
  | atomic (op size pa va : Nat) (b c : Dword)
  | atomicReply (v : Dword) (poison : Bool) (va : Nat)
  | load (pa va : Nat)
  | store (pa va : Nat) (v : Dword)
  | loadReply (v : Dword) (poison : Bool) (va : Nat)
  | ack (seq : Nat) (ids : List Nat) (info : AckInfo)
  | flagAdd (word : Nat) (n : Nat)
  | flagSet (word : Nat) (v : Dword)
  /-- an element of a channel; the last field says that an `hpass` of the Y engine sent it -/
  | chan (q : Nat) (sender : Nat) (slot : Nat) (v : Dword) (ticket : Bool)
  | credit (q : Nat) (uid : Nat)
  | ticket (v : Dword)
  | confirmReq (uid core seqr count : Nat) (tix : Nat)
  /-- the close marker of a contribution or a partial value, with the values its block of `beats` beats carried -/
  | redContrib (group node port : Nat) (core : Nat) (count : Nat) (tag : Nat) (shape : Dword)
      (vals : List Nat) (leaf : Bool) (blk beats : Nat)
  | redStatus (group : Nat) (elem : Option Dword) (cause : Nat) (tval : Dword) (after : Nat)
  /-- the close markers of the blocks of a check and of a fill, with the values their beats carried; `sacIn` closes the
  input block of a fill -/
  | sacIn (key blk beats : Nat)
  | sacCheck (key : Nat) (input : Blk) (thr : Word) (metric step age : Nat) (arrived : Bool)
  | sacFill (key : Nat) (input output : Blk) (step : Nat) (arrived : Bool)
  | verdict (v : Dword) (after : Nat) (bytes : Nat)
  | gmapIns (r : Rec512)
  | gmapDel (tag : Nat)
  /-- a beat of a block that a check or a fill streams to its directory, with the key, or that goes to a reduction node -/
  | stream (key : Option Nat) (h : Hdr) (b : Beat)
  | sacInv
  | cntsnap (pa pa2 : Nat)
  /-- a read of n bytes by the host, and its write of bytes, over CXL.mem (R258, R319) -/
  | hostRead (a n : Nat)
  | hostWrite (a : Nat) (bs : List Byte)
deriving DecidableEq, Repr

/-- Where a packet stands (R159, R259, R260): on its way, held by a rate limiter, evicted or refused at a cycle. -/
inductive PSt where
  | flying | held | evicted (cyc : Nat) | refused (cyc : Nat)
deriving DecidableEq, Repr

/-- A packet (R158, R211, R258): its sequence identity `seq` is shared by the copies a resend makes. -/
structure Packet where
  seq : Nat
  kind : PKind
  src : Leaf
  dst : Leaf
  tenant : Nat
  cls : Nat
  /-- the command it belongs to, or 0 -/
  cmd : Nat := 0
  /-- the pending numbers of that command that settle it -/
  acks : List Nat := []
  evicts : Nat := 0
  /-- a copy that a switch replicates (R256): its first copy is debited, this one is not (R260) -/
  twin : Bool := false
  st : PSt := .flying
  sentAt : Nat := 0
deriving DecidableEq, Repr

/-- A command in flight (R177, R182, R292): who issued it, under which sequencer and number, the acknowledgements it
still awaits, its q6 elements, what it has counted. -/
structure Cmd where
  core : Nat
  uid : Nat
  tenant : Nat
  lid : Nat
  spanid : Nat
  cls : Nat := 0
  op5 : Nat := 0
  tag : Nat := 0
  seqr : Option Nat := none
  opn : Nat := 0
  word : Nat := 0
  pend : List Nat := []
  q6 : List Nat := []
  /-- the S word's destination, for `ldg` -/
  nsig : Nat := 0
  blocks : Nat := 0
  sent : Nat := 0
  /-- rows among them (R167) -/
  rows : Nat := 0
  /-- beats lost with a failed path (R266, R316) -/
  dropped : Nat := 0
  group : Nat := 0
deriving DecidableEq, Repr

/-- The part of a scratchpad row that a landing writes by one access (R134, R163): which bits, their values, and whether
the access marks the row (R167). -/
structure RowPart where
  mask : Row := 0
  data : Row := 0
  bad : Bool := false
deriving DecidableEq, Repr

/-- A block arriving at a core (R159, R162): the context it went to at its first arrival, the map it is bound to (slot,
record, owner context, ring slot), the beats received, the number its marker names, what it has written, and the parts of
rows that wait to be written whole (R134). -/
structure OpenBlk where
  hdr : Hdr
  cmd : Nat
  src : Leaf
  ctx : Option Nat := none
  bound : Option (Nat × Rec512 × Nat × Nat) := none
  beats : Nat := 0
  need : Option Nat := none
  link : Bool := false
  /-- first poisoned row, as its byte address -/
  bad : Option Nat := none
  /-- runs written: row, first column, elements -/
  runs : List (Nat × Nat × Nat) := []
  parts : Map RowPart := []
  dropped : Nat := 0
deriving DecidableEq, Repr

/-- A block arriving at a slice (R158, R170, R181, R275, R277): beats applied, the number its marker names, what its
acknowledgement will report, and whether it has been counted as dropped (R171). -/
structure SliceBlk where
  beats : Nat := 0
  need : Option Nat := none
  info : AckInfo := {}
  dropped : Bool := false
deriving DecidableEq, Repr

/-! ## Cores -/

/-- The owner of a unit of tiles, accumulators or scratchpad (R312): a tenant, and whether its suspended context. -/
structure Owner where
  tenant : Nat
  sus : Bool
deriving DecidableEq, Repr

/-- A core: its stores, its contexts and its caches. -/
structure Core where
  /-- tile rows by 128 * tile + row (R111) -/
  tiles : Map Row := []
  tilePoison : List Nat := []
  /-- accumulator rows by 128 * acc + row (R140) -/
  acc : Map AccRow := []
  accPoison : List Nat := []
  /-- accumulators that hold INT32 (R140) -/
  accInt : List Nat := []
  /-- scratchpad rows (R1), flag words in rows 6,136-6,143 (R229) -/
  spad : Map Row := []
  spadPoison : List Nat := []
  owner : Map Owner := []
  spilling : List Nat := []
  /-- units each tenant has in its slot of this core (R309) -/
  saved : Map (List Nat) := []
  /-- rows (key, value, mark) of units that an urgent span beside its own tenant's suspended one had to give up: the slot
  belongs to the suspended context (R309, R335). DESIGN CHOICE: notes/assumptions/80. -/
  side : Map (List (Nat × Nat × Bool)) := []
  /-- event counters 0x110-0x11F (R55) -/
  ev : Map Dword := []
  res : Option Ctx := none
  sus : Option Ctx := none
  /-- what the last span left in the core's registers until the next span starts (R90, R107, R156, R157, R194) -/
  ended : Option Ctx := none
  /-- quiescing for the launch of (tenant, id) (R311) -/
  quiesce : Option (Nat × Nat) := none
  lent : Option (Nat × Nat) := none
  /-- tenant whose partition the core belongs to (R289) -/
  part : Option Nat := none
  freeAt : Nat := 0
  blks : Map OpenBlk := []
  /-- scalar TLB: (tenant, page base, log2 size, frame, flags) -/
  stlb : List (Nat × Nat × Nat × Nat × Nat) := []
  /-- inbound mailbox per tenant context (R293, R335): by tenant, and by 32 + tenant for an urgent span beside its own
  tenant's suspended one -/
  mbox : Map (List Dword) := []
  /-- cached global maps per tenant: tags (R176) -/
  gcache : Map (List (Nat × Rec512)) := []
  /-- TOKLEFT and Q6LEFT kept for the tenant's next span (R110) -/
  kept : Map (BitVec 11) := []
  /-- the core's 64 sequencers as ended spans left them (R219): numbers, operations still in flight, lines still to recall -/
  seqs : Map Seqr := []
  tvec : Map Nat := []
  nextUid : Nat := 1
deriving DecidableEq, Repr

/-! ## Tenants -/

/-- One loop level of an LNR (R284). -/
structure Level where
  kind : Nat
  rowptr : Bool
  trips : Nat
  ptr : Nat
deriving DecidableEq, Repr

/-- A launch (R284-R292). `pos` is the index vector of the next span to hand out. -/
structure Launch where
  lnr : Nat := 0
  queue : Nat := 0
  /-- read and checked -/
  checked : Bool := false
  entry : Nat := 0
  budget : Nat := 0
  spad : Nat := 0
  tiles : Nat := 0
  fmten : Bool := false
  fmtlvl : Nat := 0
  cls : Nat := 0
  gang : Bool := false
  levels : List Level := []
  prereqs : List Nat := []
  chans : Map (Int × Nat) := []
  fmts : Map Word := []
  pos : Option (List Nat) := none
  nextSpan : Nat := 0
  live : Nat := 0
  /-- deferred statuses left by its spans: rank, spanid, cause, tval -/
  statuses : List (Nat × Nat × Nat × Dword) := []
  /-- host-tracked lines its ended spans wrote (R288, R319) -/
  lines : List Nat := []
  trapRec : Option (Nat × Nat × Dword) := none
  /-- dies of a gang, fixed at the head (R289) -/
  dies : List Nat := []
  /-- cycle at which it became eligible: at its queue's head, prerequisites met -/
  elig : Option Nat := none
  /-- pages of its row-pointer arrays, translated and pinned at launch: frame by virtual 4 KiB page (R306) -/
  ptrPages : Map Nat := []
  /-- memory as fetch sees it since the kernel became resident (R31), and by cluster since the last `tinv` there (R307) -/
  code : Option (List Host.Cell) := none
  recode : Map (List Host.Cell) := []
  /-- a span of it has captured an M word (R267) -/
  mword : Bool := false
  /-- completion state, cause and tval once decided (R292); whether it has completed, and whether its record has been
  written (R322) -/
  result : Option (Nat × Nat × Dword) := none
  completed : Bool := false
  written : Bool := false
deriving DecidableEq, Repr

/-- A hardware barrier tag (R228, R264). -/
structure Bar where
  parts : BitVec 384 := 0
  conf : Bool := false
  arr : Map Nat := []
  done : Nat := 0
  /-- cycle of the last arrival of the open phase, when every participant has arrived -/
  full : Option Nat := none
deriving DecidableEq, Repr

/-- A tenant: its management values, queues, maps, barriers, register page and counters. -/
structure Tenant where
  enabled : Bool := false
  weight : Nat := 1
  floor : Map Nat := []
  cap : Map Nat := []
  qcap : Map Nat := []
  scap : Nat := 5
  qmax : Nat := 2048
  ptbase : Nat := 0
  tenctl : Nat := 0
  /-- pages of the save region, pinned at configuration until the reset of the function (R306): virtual base, log of the size,
  frame -/
  savePins : List (Nat × Nat × Nat) := []
  windows : Map (Nat × Nat) := []
  /-- token bucket per die: rate, burst, balance in sixteenths of a byte, cycle it was computed at (R260) -/
  bucket : Map (Nat × Nat × Int × Nat) := []
  endpoints : Map Dword := []
  sacQuota : Nat := 0
  sacBase : Nat := 0
  queues : Map (List Nat) := []
  nextId : Map Nat := []
  launches : Map Launch := []
  rrobin : Nat := 15
  deficit : Int := 0
  used : Nat := 0
  /-- cores wanted per die at the last controller run (R294) -/
  want : Map Nat := []
  gmaps : Map Rec512 := []
  /-- pages pinned for each tag (R186): frame by virtual 64 KiB page number -/
  pins : Map (Map Nat) := []
  /-- slices that hold each tag (R186): all, or those an install has reached -/
  gslices : Map (List Nat) := []
  bars : Map Bar := []
  b0gang : Option Nat := none
  mcgrp : Map Rec512 := []
  qstat : BitVec 64 := 0
  cqbase : Map Dword := []
  cqhead : Map Nat := []
  cqtail : Map Nat := []
  rlbase : Dword := 0
  rlcount : Nat := 0
  obox : List Dword := []
  iboxovf : BitVec 384 := 0
  rgsel : Nat := 0
  rgstat : Nat := 5
  /-- staged group window, by dword index from offset 0x8800 (R325), per group: 256 * group + index -/
  staged : Map Dword := []
  spsel : Dword := 0
  spdata : Map Dword := []
  /-- the 18 usage counters, their flushed copy, gap, snapshot number (R315, R333) -/
  usage : Map Dword := []
  usageNv : Map Dword := []
  gap : Bool := false
  snaps : Nat := 0
  /-- SAC counters of R280 by number, blocks dropped at slices (R171) -/
  sacctr : Map Dword := []
  dropped : Nat := 0
  /-- billing record of replayed tiles (R271, R280) -/
  replays : Nat := 0
  preempts : Nat := 0
  /-- masked vectors: all of them until the host unmasks (R328; notes/assumptions/15) -/
  msixMask : BitVec 64 := 0xFFFFFFFFFFFFFFFF#64
  msixPend : BitVec 64 := 0
deriving DecidableEq, Repr

/-- A SAC directory entry (R272); data stands in the replay region. -/
structure SacEnt where
  key : Nat
  tag : Nat
  age : Nat
  refEtype : Nat
  refShape : Dword
  outTag : Nat
  outEtype : Nat
  outShape : Dword
deriving DecidableEq, Repr

/-- A reduction group (R261-R263): owner, record in force (64 bytes), tree, attach, and the open round: values by
(node, port), declared counts by core, contributors with their commands, opening cycle. -/
structure Group where
  owner : Option Nat := none
  conf : Rec512 := 0
  tree : Map Dword := []
  attach : Map Nat := []
  vals : Map (List Nat) := []
  tags : Map Nat := []
  shapes : Map Dword := []
  counts : Map Nat := []
  cmds : Map Nat := []
  opened : Option Nat := none
deriving DecidableEq, Repr

/-- A Falard port (R266, R330): `flits` and `fails` count in the current run of 10^6 flits. -/
structure Port where
  up : Bool := false
  training : Bool := false
  flits : Nat := 0
  fails : Nat := 0
  replays : Nat := 0
deriving DecidableEq, Repr

/-- What the host may read through the physical function (R320, R331, R333, R334): the bring-up state, a byte of the
identity key's public half or of its certificate, a record of the lifetime log. -/
inductive PfItem where
  | devstat | publicKey (i : Nat) | certificate (i : Nat) | lifeLog (rec : Nat)
deriving DecidableEq, Repr

/-- A hardware error (R282, R308, R334): a correctable one in a pseudo-channel, an uncorrectable one there at an address, a
correction in a die's SRAM, an uncorrectable one in a core's tile row, accumulator row or scratchpad row. -/
inductive ErrSite where
  | memFixed (pc : Nat) | memBad (pc addr : Nat) | sramFixed (die : Nat)
  | tileBad (core key : Nat) | accBad (core key : Nat) | spadBad (core row : Nat)
deriving DecidableEq, Repr

/-- A move chosen from outside: capture of a group on a core, an event, time passing, a packet coming in from another
device or from the host (R258, R265), what the full buffer of a switch holds (R259), a register read by the host (R320,
R322), a hardware error (R308) (notes/assumptions/1). -/
inductive Action where
  | capture (core : Nat) (eager : Bool)
  | event (i : Instr)
  | elapse (cycles : Nat)
  | arrive (p : Packet)
  | crowd (ids : List Nat)
  | vfRead (tenant off width : Nat)
  | pfRead (item : PfItem)
  | error (e : ErrSite)
deriving DecidableEq, Repr

/-- An entry of a cluster's instruction TLB (R306, R307). -/
structure ItlbEnt where
  cluster : Nat
  tenant : Nat
  vbase : Nat
  log : Nat
  frame : Nat
  exec : Bool
deriving DecidableEq, Repr

/-! ## The device -/

/-- The whole machine. -/
structure State where
  mem : List Host.Cell := []
  memPoison : List Nat := []
  cores : Map Core := []
  tenants : Map Tenant := []
  /-- SAC directory by (slice * 32 + tenant) * 4096 + entry -/
  sac : Map SacEnt := []
  /-- keys in progress: (tenant, key, command) -/
  sacBusy : List (Nat × Nat × Nat) := []
  /-- blocks arriving at slices, by block number (R158) -/
  slcBlks : Map SliceBlk := []
  groups : Map Group := []
  net : Map Packet := []
  /-- copies a source holds until acknowledged (R211) -/
  sent : Map Packet := []
  /-- the sequence window: identities applied, with the reply recorded (R211) -/
  applied : Map PKind := []
  /-- packets in the switch buffer that is full, the newest last (R259) -/
  crowd : List Nat := []
  cmds : Map Cmd := []
  nextId : Nat := 1
  cycle : Nat := 0
  ctlRuns : Nat := 0
  /-- cycle at which the span handed out last was assigned its core, or another launch came to the front (R289) -/
  served : Nat := 0
  forecast : Map Dword := []
  devstat : Nat := 0
  powered : Bool := true
  powerLimit : Nat := 2800
  clockSteps : Nat := 0
  hotDies : List Nat := []
  ports : Map Port := []
  lifeLog : Map Nat := []
  nvLog : Map Nat := []
  /-- instruction caches by cluster; words by 2^48 * tenant + virtual address (R31, R307) -/
  icache : Map (Map Word) := []
  /-- instruction TLBs (R306, R307) -/
  itlb : List ItlbEnt := []
  snoop : List Nat := []
  recalls : List Nat := []
  /-- contexts whose image `ctxsave` wrote, by the physical address of the slot: the part of an image whose bits R310
  does not lay out -/
  images : Map Ctx := []
  /-- 64-bit words written to host memory, by host physical address -/
  hostMem : Map Dword := []
  hostRead : List Byte := []
  /-- MSI-X messages sent: (tenant, vector), newest first -/
  msix : List (Nat × Nat) := []
  cur : Nat := 0
  eager : Bool := true
  agenda : List Action := []
  /-- which of its rows a started word accesses next, one choice for each access taken by itself; where none is left a word
  makes all its accesses in one step (notes/assumptions/75) -/
  picks : List Nat := []
  freeCtr : Nat := 0
deriving DecidableEq, Repr

/-- The machine right after reset: every field at the value its declaration names (R331 state 0, R336).
DESIGN CHOICE: notes/assumptions/3, 5, 6, 7, 8, 11, 12, 13; PRESUMED: notes/assumptions/15. -/
def State.reset : State := {}

end Sys2Proof.Machine
end

