-- ==== Sys2Proof/Machine/Ops.lean ====
section
/-! DEFINITION. The named operations over the state: cores and contexts, registers, memory, translation, tile,
accumulator and scratchpad rows, units, sequencers, packets, commands, and taking and returning from a trap. -/

namespace Sys2Proof.Machine

open Host (Outcome)

/-- What `exec` and the meanings answer. -/
abbrev Res := Outcome State Fault Refusal

/-! ## Bits and bytes -/

/-- Bits lo .. lo+n-1 of a natural number. -/
def bits (v lo n : Nat) : Nat := (v / 2 ^ lo) % 2 ^ n

/-- Bit i of a natural number. -/
def bit (v i : Nat) : Bool := decide ((v / 2 ^ i) % 2 = 1)

/-- Replace bits off .. off+n-1 of a vector by the low n bits of a value. -/
def setBits {w : Nat} (r : BitVec w) (off n v : Nat) : BitVec w :=
  (r &&& ~~~ (BitVec.ofNat w (2 ^ n - 1) <<< off)) ||| (BitVec.ofNat w (v % 2 ^ n) <<< off)

/-- Byte i of a vector. -/
def byteOf {w : Nat} (r : BitVec w) (i : Nat) : Byte := r.extractLsb' (8 * i) 8

/-- Word k (64 bits) of a 64-byte record. -/
def Rec512.w (r : Rec512) (k : Nat) : Dword := BitVec.extractLsb' (64 * k) 64 r

/-- Bits lo .. lo+n-1 of word k of a record, as a number. -/
def Rec512.f (r : Rec512) (k lo n : Nat) : Nat := bits (Rec512.w r k).toNat lo n

/-- Sign-extend an n-bit value to 64 bits, as an integer. -/
def toSigned (v n : Nat) : Int := if 2 * v < 2 ^ n then (v : Int) else (v : Int) - (2 : Int) ^ n

/-- The remainder of an integer modulo 2^n, as a number. -/
def wrapNat (v : Int) (n : Nat) : Nat := (v % (2 : Int) ^ n).toNat

/-- The four coordinates of a packed coordinate (R6): row, col, plane, batch. -/
def cRow (v : Dword) : Nat := bits v.toNat 16 16
def cCol (v : Dword) : Nat := bits v.toNat 0 16
def cPlane (v : Dword) : Nat := bits v.toNat 32 16
def cBatch (v : Dword) : Nat := bits v.toNat 48 16

/-- Pack coordinates (R6). -/
def coord (row col plane batch : Nat) : Dword :=
  BitVec.ofNat 64 (col % 65536 + 65536 * (row % 65536) + 65536 ^ 2 * (plane % 65536) + 65536 ^ 3 * (batch % 65536))

/-- Quotient rounded up. -/
def ceilDiv (a b : Nat) : Nat := (a + b - 1) / b

/-! ## Cores and contexts -/

def State.core (s : State) (c : Nat) : Core := Map.get {} s.cores c

def State.setCore (s : State) (c : Nat) (k : Core) : State := { s with cores := Map.ins s.cores c k }

def State.modCore (s : State) (c : Nat) (f : Core → Core) : State := s.setCore c (f (s.core c))

/-- The resident context of a core. -/
def State.ctx (s : State) (c : Nat) : Option Ctx := (s.core c).res

def State.setCtx (s : State) (c : Nat) (x : Ctx) : State := s.setCore c { s.core c with res := some x }

def State.modCtx (s : State) (c : Nat) (f : Ctx → Ctx) : State :=
  match s.ctx c with
  | some x => s.setCtx c (f x)
  | none => s

/-- The context with a given identity, resident or suspended (R335: responses go to the context that asked). -/
def State.ctxOf (s : State) (c uid : Nat) : Option Ctx :=
  match (s.core c).res with
  | some x => if x.uid = uid then some x else
    match (s.core c).sus with
    | some y => if y.uid = uid then some y else none
    | none => none
  | none =>
    match (s.core c).sus with
    | some y => if y.uid = uid then some y else none
    | none => none

def State.modCtxOf (s : State) (c uid : Nat) (f : Ctx → Ctx) : State :=
  s.modCore c (fun k => { k with
    res := k.res.map (fun x => if x.uid = uid then f x else x)
    sus := k.sus.map (fun x => if x.uid = uid then f x else x) })

/-- The context of a tenant on a core that takes what is not an answer: the resident one if there is one, else the
suspended one (R335). -/
def State.ctxFor (s : State) (c tenant : Nat) : Option Ctx :=
  match (s.core c).res.filter (fun x => x.tenant = tenant) with
  | some x => some x
  | none => (s.core c).sus.filter (fun x => x.tenant = tenant)

/-- Where a context's inbound mailbox stands on its core: each tenant context has its own (R293, R335). -/
def Core.boxKey (k : Core) (x : Ctx) : Nat :=
  if k.sus.any (fun y => decide (y.tenant = x.tenant) && decide (y.uid ≠ x.uid)) then 32 + x.tenant else x.tenant

/-- The inbound mailbox of a context, oldest word first (R293). -/
def Core.box (k : Core) (x : Ctx) : List Dword := Map.get [] k.mbox (k.boxKey x)

def Core.setBox (k : Core) (x : Ctx) (ws : List Dword) : Core := { k with mbox := Map.put [] k.mbox (k.boxKey x) ws }

def State.tenant (s : State) (t : Nat) : Tenant := Map.get {} s.tenants t

def State.setTenant (s : State) (t : Nat) (v : Tenant) : State := { s with tenants := Map.ins s.tenants t v }

def State.modTenant (s : State) (t : Nat) (f : Tenant → Tenant) : State := s.setTenant t (f (s.tenant t))

/-- The die and cluster of a core (R3). -/
def dieOf (c : Nat) : Nat := c / 48
def clusOf (c : Nat) : Nat := c / 8

/-- Privileged mode (R303). -/
def Ctx.priv (x : Ctx) : Bool := x.pstat.getLsbD 0

/-- Add to an event counter, which wraps (R55); k is the number less 0x110. -/
def Core.count (c : Core) (k n : Nat) : Core :=
  { c with ev := Map.put 0 c.ev k (Map.get 0 c.ev k + BitVec.ofNat 64 n) }

def State.count (s : State) (c k n : Nat) : State := if n = 0 then s else s.modCore c (fun q => q.count k n)

/-- Event counters of capture's stalls, by number less 0x110 (R55). -/
def evCAPSTALL : Nat := 11
def evQ6STALL : Nat := 12

/-- The stall counters of a stall that ends: cycles on a full queue and at q6 (R55). -/
def endStall (s : State) (c : Nat) (x : Ctx) : State :=
  match x.stall with
  | .full n => s.count c evCAPSTALL (s.cycle - n)
  | .q6 n => s.count c evQ6STALL (s.cycle - n)
  | _ => s

/-- Capture waits no more: the cycles of its wait are counted (R55). -/
def State.unstall (s : State) (c : Nat) (x : Ctx) : State :=
  if x.stall = .none then s else (endStall s c x).setCtx c { x with stall := .none }

/-- Set a sticky bit of a context (R110). -/
def Ctx.stick (x : Ctx) (i : Nat) : Ctx := { x with sticky := x.sticky ||| (1#11 <<< i) }

/-- Add to a usage counter of the tenant (R315, R333), wrapping at 64 bits.
DEDUCED: notes/assumptions/69. -/
def State.use (s : State) (t k n : Nat) : State :=
  if n = 0 then s
  else s.modTenant t (fun v => { v with usage := Map.put 0 v.usage k (Map.get 0 v.usage k + BitVec.ofNat 64 n) })

/-! ## Scalar registers (R86-R90) -/

def Ctx.reg (x : Ctx) (k : Nat) : Dword := Map.get 0 x.n k

def Ctx.setReg (x : Ctx) (k : Nat) (v : Dword) : Ctx := { x with n := Map.put 0 x.n k v }

/-- A predicate; p0 reads as all ones (R89). -/
def Ctx.pred (x : Ctx) (k : Nat) : Pred := if k = 0 then BitVec.allOnes 128 else Map.get 0 x.p k

/-- Write a predicate; a write of p0 is ignored (R89). -/
def Ctx.setPred (x : Ctx) (k : Nat) (v : Pred) : Ctx := if k = 0 then x else { x with p := Map.put 0 x.p k v }

/-- Give the value of a result-queue position (R86). -/
def fillRq : List (Nat × Option Dword) → Nat → Dword → List (Nat × Option Dword)
  | [], _, _ => []
  | (i, v) :: t, k, d => if i = k then (i, some d) :: t else (i, v) :: fillRq t k d

/-- Take the next position of the result queue; a push when 16 are held discards the oldest (R86). -/
def Ctx.pushRq (x : Ctx) (seq : Nat) : Ctx := { x with rq := (seq, none) :: x.rq.take 15 }

/-- Produce a q6 element (R54, R202). -/
def fillElem : List Elem → Nat → Option Dword → Option (Nat × Dword) → List Elem
  | [], _, _, _ => []
  | e :: t, k, v, err => if e.id = k then { e with val := v, err := err } :: t else e :: fillElem t k v err

def Ctx.produce (x : Ctx) (id : Nat) (v : Dword) : Ctx := { x with q6 := fillElem x.q6 id (some v) none }

def Ctx.produceErr (x : Ctx) (id cause : Nat) (tval : Dword) : Ctx :=
  { x with q6 := fillElem x.q6 id (some 0) (some (cause, tval)) }

/-- Produce the k-th reserved element of a word, if it reserved one. -/
def Ctx.produceAll (x : Ctx) : List Nat → List Dword → Ctx
  | i :: is, v :: vs => Ctx.produceAll (x.produce i v) is vs
  | _, _ => x

/-! ## Device memory (R205, R318, R338) -/

/-- DESIGN CHOICE: notes/assumptions/2. -/
def State.byte (s : State) (a : Nat) : Byte := Map.get 0 s.mem a

def State.putByte (s : State) (a : Nat) (b : Byte) : State := { s with mem := Map.put 0 s.mem a b }

/-- The canonical form of a memory: addresses strictly rising, no byte listed that reads as an unlisted address does. -/
abbrev Memory.wf (m : List Host.Cell) : Bool := Map.wf 0 m

/-- The machine's memory is in its canonical form. -/
def State.memWf (s : State) : Bool := Memory.wf s.mem

/-- n bytes from address a as a little-endian number (R4). -/
def State.readN (s : State) (a : Nat) : Nat → Nat
  | 0 => 0
  | n + 1 => (s.byte a).toNat + 256 * State.readN s (a + 1) n

/-- Write the low n bytes of a number at address a, little-endian (R4). -/
def State.writeN (s : State) (a : Nat) : Nat → Nat → State
  | 0, _ => s
  | n + 1, v => State.writeN (s.putByte a (BitVec.ofNat 8 v)) (a + 1) n (v / 256)

def State.readBytes (s : State) (a : Nat) : Nat → List Byte
  | 0 => []
  | n + 1 => s.byte a :: State.readBytes s (a + 1) n

def State.writeBytes (s : State) (a : Nat) : List Byte → State
  | [] => s
  | b :: t => State.writeBytes (s.putByte a b) (a + 1) t

/-- n bytes from address a become 0. -/
def State.zeroMem (s : State) (a n : Nat) : State :=
  { s with mem := s.mem.filter (fun e => !(decide (a ≤ e.1) && decide (e.1 < a + n))) }

/-- A byte of a range carries an uncorrectable-error mark. -/
def State.poisoned (s : State) (a n : Nat) : Bool := s.memPoison.any (fun p => decide (a ≤ p) && decide (p < a + n))

def rangeFrom (a n : Nat) : List Nat := (List.range n).map (fun i => a + i)

/-- Mark or clear the marks of a range. -/
def State.poisonMem (s : State) (a n : Nat) : State :=
  { s with memPoison := s.memPoison.filter (fun p => !(decide (a ≤ p) && decide (p < a + n))) ++ rangeFrom a n }

def State.cleanMem (s : State) (a n : Nat) : State :=
  { s with memPoison := s.memPoison.filter (fun p => !(decide (a ≤ p) && decide (p < a + n))) }

/-- Home slice of a device physical address (R338). -/
def homeSlice (pa : Nat) : Nat := (pa / 65536) % 128

/-- The 64-byte lines a write touches (R319): the host may hold copies of them, or read one before the promise. -/
def linesAt (a n : Nat) : List Nat := (rangeFrom (a / 64) ((a + n - 1) / 64 + 1 - a / 64)).map (fun l => 64 * l)

/-! ## Translation (R304-R306, R321) -/

/-- A 2 MiB granule lies in one of the tenant's windows (R321). -/
def Tenant.inWindow (t : Tenant) (a n : Nat) : Bool :=
  t.windows.any (fun w => decide (w.2.1 ≤ a) && decide (a + n ≤ w.2.1 + w.2.2))

/-- A range is wholly covered by the windows; windows are multiples of 2 MiB (R321). -/
def Tenant.covered (t : Tenant) (a n : Nat) : Bool :=
  t.inWindow a n ||
    (List.range (ceilDiv n 0x200000)).all (fun i =>
      t.inWindow (a / 0x200000 * 0x200000 + i * 0x200000) 0x200000)

/-- A translation: virtual base, log2 of the size, frame, writable, executable. -/
structure Page where
  vbase : Nat
  log : Nat
  frame : Nat
  w : Bool
  x : Bool
deriving DecidableEq, Repr

/-- Outcome of a walk: a page, or the cause XLATE or ECC. -/
abbrev Walk := Except Nat Page

/-- One level of the walk (R304, R305): the entry at `table + 8 * index`. `levels` counts the levels left below;
`logSize` is the size a leaf here maps. -/
def walkFrom (s : State) (t : Tenant) (va table : Nat) : Nat → Nat → Nat → Walk
  | 0, _, _ => .error 3
  | left + 1, shift, width =>
    let ea := table + 8 * bits va shift width
    if !t.inWindow ea 8 || decide (0xC000000000 ≤ ea + 7) then .error 3
    else if s.poisoned ea 8 then .error 9
    else
      let e := s.readN ea 8
      let addr := bits e 12 36 * 4096
      if !bit e 0 || decide (bits e 48 16 ≠ 0) || decide (bits e 4 8 ≠ 0) then .error 3
      else if decide (0xC000000000 ≤ addr) then .error 3
      else if bit e 1 then
        if decide (left = 3) || decide (addr % 2 ^ shift ≠ 0) || !t.covered addr (2 ^ shift)
            || decide (0xC000000000 < addr + 2 ^ shift) then .error 3
        else .ok { vbase := va / 2 ^ shift * 2 ^ shift, log := shift, frame := addr, w := bit e 2, x := bit e 3 }
      else if left = 0 then .error 3
      else walkFrom s t va addr left (if left = 1 then 16 else shift - 9) (if left = 1 then 5 else 9)

/-- The walk of a virtual address through a tenant's tables; an address with bits 63:48 set does not translate. -/
def walk (s : State) (tid va : Nat) : Walk :=
  if 2 ^ 48 ≤ va then .error 3
  else if (s.tenant tid).ptbase = 0 then .error 3
  else walkFrom s (s.tenant tid) va (s.tenant tid).ptbase 4 39 9

/-- The physical address of a translated access, or its cause: XLATE 3 (also for a write without W) or ECC 9. -/
def translate (s : State) (tid va : Nat) (write : Bool) : Except Nat Nat :=
  match walk s tid va with
  | .error e => .error e
  | .ok p => if write && !p.w then .error 3 else .ok (p.frame + va % 2 ^ p.log)


/-- Translation through the core's 64-entry scalar TLB (R102): an entry held is used as it stands; a miss walks. -/
def stlbLookup (k : Core) (tid va : Nat) : Option (Nat × Bool) :=
  match k.stlb.find? (fun e => decide (e.1 = tid) && decide (e.2.1 = va / 2 ^ e.2.2.1 * 2 ^ e.2.2.1)) with
  | some e => some (e.2.2.2.1 + va % 2 ^ e.2.2.1, bit e.2.2.2.2 0)
  | none => none

def stlbTranslate (s : State) (c tid va : Nat) (write : Bool) : Except Nat Nat :=
  if 2 ^ 48 ≤ va then .error 3
  else
    match stlbLookup (s.core c) tid va with
    | some (pa, w) => if write && !w then .error 3 else .ok pa
    | none => translate s tid va write

/-- The named access of `ldg` and `stg` (R195, R196): by its virtual address, in a range of its own, and by the physical
one it translates to as things stand. -/
def globFoot (s : State) (c tid va : Nat) : List Foot :=
  ⟨true, 2 ^ 62 + va, 2 ^ 62 + va + 8⟩ ::
    (match stlbTranslate s c tid va false with | .ok p => [⟨true, p, p + 8⟩] | .error _ => [])

/-- Keep a translation a scalar access used: R102 gives the TLB 64 entries; the oldest fill leaves a full one.
DESIGN CHOICE: notes/assumptions/18. -/
def stlbFill (s : State) (c tid va : Nat) : State :=
  match stlbLookup (s.core c) tid va with
  | some _ => s
  | none =>
    match walk s tid va with
    | .ok p => s.modCore c (fun k => { k with stlb := ((tid, p.vbase, p.log, p.frame, if p.w then 1 else 0) :: k.stlb).take 64 })
    | .error _ => s

/-! ## Rows (R111, R140, R203) -/

def Core.tileRow (k : Core) (t r : Nat) : Row := Map.get 0 k.tiles (128 * t + r)

def Core.setTileRow (k : Core) (t r : Nat) (v : Row) : Core := { k with tiles := Map.put 0 k.tiles (128 * t + r) v }

def Core.accRow (k : Core) (a r : Nat) : AccRow := Map.get 0 k.acc (128 * a + r)

def Core.setAccRow (k : Core) (a r : Nat) (v : AccRow) : Core := { k with acc := Map.put 0 k.acc (128 * a + r) v }

def Core.spadRow (k : Core) (r : Nat) : Row := Map.get 0 k.spad r

def Core.setSpadRow (k : Core) (r : Nat) (v : Row) : Core := { k with spad := Map.put 0 k.spad r v }

def addMark (l : List Nat) (k : Nat) : List Nat := if k ∈ l then l else k :: l

/-- A scratchpad byte. -/
def Core.spadByte (k : Core) (a : Nat) : Byte := byteOf (k.spadRow (a / 128)) (a % 128)

/-- The 8-byte scratchpad word at an 8-aligned address (R100). -/
def Core.spadWord (k : Core) (a : Nat) : Dword := (k.spadRow (a / 128)).extractLsb' (8 * (a % 128)) 64

/-- Write the 8-byte scratchpad word at an 8-aligned address (R100). -/
def Core.setSpadWord (k : Core) (a : Nat) (v : Dword) : Core :=
  k.setSpadRow (a / 128) (setBits (k.spadRow (a / 128)) (8 * (a % 128)) 64 v.toNat)

/-- Bits of the scratchpad from an absolute bit position, at most to the end of the next rows. -/
def Core.spadBits (k : Core) (pos : Nat) (n : Nat) : Nat :=
  let r := pos / 1024
  let o := pos % 1024
  if o + n ≤ 1024 then ((k.spadRow r).extractLsb' o n).toNat
  else ((k.spadRow r).extractLsb' o (1024 - o)).toNat
    + 2 ^ (1024 - o) * ((k.spadRow (r + 1)).extractLsb' 0 (n - (1024 - o))).toNat

/-- Write n bits at an absolute bit position (n at most 1,024). -/
def Core.setSpadBits (k : Core) (pos n v : Nat) : Core :=
  let r := pos / 1024
  let o := pos % 1024
  if o + n ≤ 1024 then k.setSpadRow r (setBits (k.spadRow r) o n v)
  else
    let k1 := k.setSpadRow r (setBits (k.spadRow r) o (1024 - o) v)
    k1.setSpadRow (r + 1) (setBits (k1.spadRow (r + 1)) 0 (n - (1024 - o)) (v / 2 ^ (1024 - o)))

/-- A 64-byte record at a 64-aligned scratchpad address (R184). -/
def Core.spadRec (k : Core) (a : Nat) : Rec512 := (k.spadRow (a / 128)).extractLsb' (8 * (a % 128)) 512

/-- Word number w of the flag words (R229). -/
def flagAddr (w : Nat) : Nat := Config.flagBase + 8 * w

/-! ## Units and their owners (R309, R312) -/

def tileUnit (t : Nat) : Nat := t
def accUnit (a row : Nat) : Nat := 64 + 4 * a + row / 32
def spadUnit (row : Nat) : Nat := 80 + row / 64

/-- Save-region base of a tenant, a virtual address: `tenctl` [63:22], 4 MiB aligned (R302, R306).
DEDUCED: notes/assumptions/45. -/
def Tenant.saveBase (t : Tenant) : Nat := t.tenctl / 0x400000 * 0x400000

/-- Pages of a writable range of virtual addresses, each with its base, the log of its size and its frame; none where one does
not translate (R306). The fuel is the most pages there can be. -/
def pinLeaves (s : State) (t hi : Nat) : Nat → Nat → Option (List (Nat × Nat × Nat))
  | 0, _ => some []
  | n + 1, va =>
    if hi ≤ va then some []
    else match walk s t va with
      | .error _ => none
      | .ok p => if p.w then (pinLeaves s t hi n (p.vbase + 2 ^ p.log)).map (fun l => (p.vbase, p.log, p.frame) :: l) else none

/-- Bytes from the save-region base to the end of the last core's slot (R309). -/
def saveBytes : Nat := 383 * Config.slotStride + 0x210000

/-- The pages of a tenant's save region, as its tables stand (R306).
DEDUCED: notes/assumptions/45. -/
def pinSave (s : State) (t : Nat) : Option (List (Nat × Nat × Nat)) :=
  let a := (s.tenant t).saveBase
  pinLeaves s t (a + saveBytes) (saveBytes / 0x10000 + 1) a

/-- Where an address of the save region stands in memory, by the pages that are pinned. Where none is, no function of the tenant
has been configured, and no context can be saved. -/
def Tenant.saveAddr (t : Tenant) (va : Nat) : Nat :=
  match t.savePins.find? (fun p => decide (p.1 ≤ va) && decide (va < p.1 + 2 ^ p.2.1)) with
  | some p => p.2.2 + (va - p.1)
  | none => va

/-- Physical address of an offset in a core's slot of a tenant's save region (R306, R309): the image lies in one page, and so does
each unit. -/
def slotAt (s : State) (tid c off : Nat) : Nat :=
  (s.tenant tid).saveAddr ((s.tenant tid).saveBase + c * Config.slotStride + off)

/-- The image's place in a slot. -/
def slotOf (s : State) (tid c : Nat) : Nat := slotAt s tid c 0

/-- Where a unit stands in a slot (R309). -/
def unitOff (u : Nat) : Nat :=
  if u < 64 then 0x10000 + 0x4000 * u else if u < 80 then 0x110000 + 0x4000 * (u - 64) else 0x150000 + 0x2000 * (u - 80)

/-- Keys of the rows of a unit, in the store they belong to. -/
def unitRows (u : Nat) : List Nat :=
  if u < 64 then rangeFrom (128 * u) 128
  else if u < 80 then rangeFrom (32 * (u - 64)) 32
  else rangeFrom (64 * (u - 80)) 64

/-- Write the rows of a unit at an address of memory, marks carried as poisoned memory (R308). -/
def spillRows (s : State) (c u a : Nat) : List Nat → State
  | [] => s
  | r :: rs =>
    let k := s.core c
    let n := if 64 ≤ u && u < 80 then 512 else 128
    let v : Nat := if u < 64 then (Map.get 0 k.tiles r).toNat else if u < 80 then (Map.get 0 k.acc r).toNat
      else (Map.get 0 k.spad r).toNat
    let bad := decide (r ∈ (if u < 64 then k.tilePoison else if u < 80 then k.accPoison else k.spadPoison))
    let s1 := (s.writeN a n v).cleanMem a n
    spillRows (if bad then s1.poisonMem a n else s1) c u (a + n) rs

/-- Set a row of a unit. -/
def Core.setUnitRow (k : Core) (u : Nat) (v : Nat × Nat × Bool) : Core :=
  if u < 64 then { k with tiles := Map.put 0 k.tiles v.1 (BitVec.ofNat 1024 v.2.1),
                          tilePoison := if v.2.2 then addMark k.tilePoison v.1 else k.tilePoison }
  else if u < 80 then { k with acc := Map.put 0 k.acc v.1 (BitVec.ofNat 4096 v.2.1),
                               accPoison := if v.2.2 then addMark k.accPoison v.1 else k.accPoison }
  else { k with spad := Map.put 0 k.spad v.1 (BitVec.ofNat 1024 v.2.1),
                spadPoison := if v.2.2 then addMark k.spadPoison v.1 else k.spadPoison }

/-- Read the rows of a unit from memory. -/
def loadRows (s : State) (c u a : Nat) : List Nat → State
  | [] => s
  | r :: rs =>
    let n := if 64 ≤ u && u < 80 then 512 else 128
    loadRows (s.modCore c (fun k => k.setUnitRow u (r, s.readN a n, s.poisoned a n))) c u (a + n) rs

/-- Zero the rows of a unit. -/
def Core.clearUnit (k : Core) (u : Nat) : Core :=
  let rows := unitRows u
  if u < 64 then { k with tiles := rows.foldl Map.del k.tiles, tilePoison := k.tilePoison.filter (fun r => r ∉ rows) }
  else if u < 80 then { k with acc := rows.foldl Map.del k.acc, accPoison := k.accPoison.filter (fun r => r ∉ rows) }
  else { k with spad := rows.foldl Map.del k.spad, spadPoison := k.spadPoison.filter (fun r => r ∉ rows) }

def Core.savedOf (k : Core) (tid : Nat) : List Nat := Map.get [] k.saved tid

/-- The context that an owner of units stands for, while the core holds it. -/
def Core.ctxFor (k : Core) (o : Owner) : Option Ctx :=
  if o.sus then k.sus else k.res.filter (fun x => decide (x.tenant = o.tenant))

/-- A tile that its owner has killed: every byte reads as 0, and it is neither saved nor restored (R137). -/
def Core.deadUnit (k : Core) (o : Owner) (u : Nat) : Bool := (k.ctxFor o).any (fun x => decide (u ∈ x.dead))

/-- The owner is an urgent span beside its own tenant's suspended one, to which alone the slot belongs (R309, R335). -/
def Core.beside (k : Core) (o : Owner) : Bool := !o.sus && k.sus.any (fun y => decide (y.tenant = o.tenant))

/-- The rows of a unit as they stand: key, value, mark. -/
def Core.unitVals (k : Core) (u : Nat) : List (Nat × Nat × Bool) :=
  (unitRows u).map (fun r =>
    if u < 64 then (r, (Map.get 0 k.tiles r).toNat, decide (r ∈ k.tilePoison))
    else if u < 80 then (r, (Map.get 0 k.acc r).toNat, decide (r ∈ k.accPoison))
    else (r, (Map.get 0 k.spad r).toNat, decide (r ∈ k.spadPoison)))

/-- The unit has no owner any more and holds zeros. -/
def Core.freeUnit (k : Core) (u : Nat) : Core :=
  let k1 := k.clearUnit u
  { k1 with owner := Map.del k1.owner u, spilling := k1.spilling.filter (fun v => v ≠ u) }

/-- A suspended context's spill map in its image says whether a unit is in the save area (R310). -/
def State.spillBit (s : State) (c : Nat) (o : Owner) (u : Nat) (out : Bool) : State :=
  let a := slotOf s o.tenant c + 0x50 + u / 8
  if o.sus then s.putByte a (setBits (s.byte a) (u % 8) 1 (if out then 1 else 0)) else s

/-- Spill a unit into its owner's slot of the core; the unit then has no owner and holds zeros. -/
def spillUnit (s : State) (c u : Nat) : State :=
  match Map.at? (s.core c).owner u with
  | none => s
  | some o =>
    if (s.core c).deadUnit o u then s.modCore c (fun k => k.freeUnit u)
    else if (s.core c).beside o then s.modCore c (fun k => { k.freeUnit u with side := Map.ins k.side u (k.unitVals u) })
    else
      let s1 := (spillRows s c u (slotAt s o.tenant c (unitOff u)) (unitRows u)).spillBit c o u true
      s1.modCore c (fun k => { k.freeUnit u with saved := Map.put [] k.saved o.tenant (addMark (k.savedOf o.tenant) u) })

/-- The toucher receives its own saved copy of a unit that has no owner, or the zeros it holds (R312). -/
def takeUnit (s : State) (c : Nat) (me : Owner) (u : Nat) : State :=
  let k := s.core c
  let s1 :=
    if k.beside me then
      s.modCore c (fun q => { (Map.get [] q.side u).foldl (fun r v => r.setUnitRow u v) q with side := Map.del q.side u })
    else if u ∈ k.savedOf me.tenant then
      ((if k.deadUnit me u then s
        else loadRows s c u (slotAt s me.tenant c (unitOff u)) (unitRows u)).spillBit c me u false).modCore c
        (fun q => { q with saved := Map.put [] q.saved me.tenant ((q.savedOf me.tenant).filter (fun v => v ≠ u)) })
    else s
  s1.modCore c (fun k => { k with owner := Map.ins k.owner u me })

/-- A touch of a unit by a context (R312): another holder's unit is spilled first. -/
def touchUnit (s : State) (c : Nat) (me : Owner) (u : Nat) : State :=
  match Map.at? (s.core c).owner u with
  | some o => if o = me then s else takeUnit (spillUnit s c u) c me u
  | none => takeUnit s c me u

def touchUnits (s : State) (c : Nat) (me : Owner) : List Nat → State
  | [] => s
  | u :: us => touchUnits (touchUnit s c me u) c me us

/-- The identity under which a resident context holds units. -/
def Ctx.me (x : Ctx) : Owner := { tenant := x.tenant, sus := false }

/-! ## Token queues (R14, R35) -/

/-- Engines named in a TOK mask, by queue number (R34). -/
def maskList (m : BitVec 6) : List Nat := (List.range 6).filter (fun i => m.getLsbD i)

def Ctx.tokens (x : Ctx) (src dst : Nat) : Nat := Map.get 0 x.tok (6 * src + dst)

/-- A token is present in every queue the word waits on (R35). -/
def Ctx.tokensReady (x : Ctx) (w : QWord) : Bool :=
  (maskList w.pfx.wait).all (fun i => decide (1 ≤ x.tokens i w.eng.num))

def addTok (m : Map Nat) (src dst : Nat) : Map Nat := Map.put 0 m (6 * src + dst) (Map.get 0 m (6 * src + dst) + 1)

def subTok (m : Map Nat) (src dst : Nat) : Map Nat := Map.put 0 m (6 * src + dst) (Map.get 0 m (6 * src + dst) - 1)

/-- The word pops one token from each queue it waits on (R35). -/
def Ctx.popTokens (x : Ctx) (w : QWord) : Ctx :=
  { x with tok := (maskList w.pfx.wait).foldl (fun m i => subTok m i w.eng.num) x.tok }

/-- The tokens a waiting word popped stand in their queues again (R298: it returns to its queue unstarted). -/
def returnTokens (m : Map Nat) (w : QWord) : Map Nat :=
  (maskList w.pfx.wait).foldl (fun t i => addTok t i w.eng.num) m

/-- Room for every token the word signals (a sixteenth signal stalls the engine).
DEDUCED: notes/assumptions/71. -/
def Ctx.signalRoom (x : Ctx) (w : QWord) : Bool :=
  (maskList w.pfx.signal).all (fun i => decide (x.tokens w.eng.num i < Config.tokenDepth))

/-- The word pushes one token to each engine named in signal (R35). -/
def Ctx.pushTokens (x : Ctx) (w : QWord) : Ctx :=
  { x with tok := (maskList w.pfx.signal).foldl (fun m i => addTok m w.eng.num i) x.tok }

/-! ## Sequencers and order (R182, R198, R206, R210, R219) -/

def Ctx.seqr (x : Ctx) (i : Nat) : Seqr := Map.get {} x.seqrs i

def Ctx.setSeqr (x : Ctx) (i : Nat) (q : Seqr) : Ctx := { x with seqrs := Map.ins x.seqrs i q }

/-- A scope as a tenant's policy caps it (R213; R302: 4 caps at tenant, every other value acts as 5).
DEDUCED: notes/assumptions/47. -/
def capScope (scap scope : Nat) : Nat := if scope = 5 && scap = 4 then 4 else scope

/-- Every operation of a sequencer numbered below a count has performed, and at system scope the host holds no copy of a
line they wrote (R206, R210, R319). -/
def State.preOk (s : State) (x : Ctx) (p : Pre) : Bool :=
  (x.seqr p.seqr).opened.all (fun o => decide (p.count ≤ o)) &&
    (decide (p.scope < 5) || (x.seqr p.seqr).lines.all (fun l =>
      decide (l.1 < p.lo) || decide (p.count ≤ l.1) || !s.snoop.contains l.2))

def Ctx.ticketOk (x : Ctx) (i : Nat) : Bool :=
  match Map.at? x.tickets i with
  | some t => t.confirmed
  | none => true

/-- The operations of a sequencer have performed at every scope they were ordered at: none is open, and the host holds no
copy of a line that one ordered at system scope wrote. -/
def State.seqrIdle (s : State) (q : Seqr) : Bool :=
  q.opened.isEmpty && q.lines.all (fun l => decide (q.sysMark ≤ l.1) || !s.snoop.contains l.2)

/-- A sequencer is free (R219): no handle holds it, every operation under it, one of an ended span of the core included, has
performed at every scope it was ordered at, and no ticket is unconfirmed. -/
def State.seqrFree (s : State) (c : Nat) (x : Ctx) (i : Nat) : Bool :=
  !(x.hnd.any (fun h => decide (h.2 = i))) && s.seqrIdle (x.seqr i) && (x.seqr i).owed.isEmpty
    && s.seqrIdle (Map.get {} (s.core c).seqs i)

/-- A free sequencer: of several the lowest-numbered.
DESIGN CHOICE: notes/assumptions/115. -/
def State.freeSeqr (s : State) (c : Nat) (x : Ctx) : Option Nat := (List.range 64).find? (fun i => s.seqrFree c x i)

/-- Operations ordered at system scope (R219): each sequencer keeps the highest number below which it was. -/
def Ctx.markSys (x : Ctx) (ps : List Pre) : Ctx :=
  (ps.filter (fun p => decide (5 ≤ p.scope))).foldl (fun y p =>
    y.setSeqr p.seqr { y.seqr p.seqr with sysMark := Max.max (y.seqr p.seqr).sysMark p.count }) x

/-- An operation has performed. -/
def Ctx.perform (x : Ctx) (sq : Option Nat) (opn : Nat) : Ctx :=
  match sq with
  | none => x
  | some i => x.setSeqr i { x.seqr i with opened := (x.seqr i).opened.filter (fun o => o ≠ opn) }

/-- Rank of a deferred status (R182): ECC 1, LINK 2, MAP 3. -/
def statusRank (cause : Nat) : Nat := if cause = 9 then 1 else if cause = 8 then 2 else 3

/-- Record a deferred status (R182): into an empty one, or over a lower rank; MAP counts add up. -/
def mergeStatus (old : Option (Nat × Nat × Dword)) (cause : Nat) (tval : Dword) : Option (Nat × Nat × Dword) :=
  match old with
  | none => some (statusRank cause, cause, tval)
  | some (r, c, v) =>
    if statusRank cause < r then some (statusRank cause, cause, tval)
    else if statusRank cause = r && r = 3 then some (r, c, v + tval)
    else some (r, c, v)

def Ctx.record (x : Ctx) (sq : Option Nat) (cause : Nat) (tval : Dword) : Ctx :=
  match sq with
  | none => x
  | some i => x.setSeqr i { x.seqr i with status := mergeStatus (x.seqr i).status cause tval }

/-- Two ranges share a byte.
DEDUCED: notes/assumptions/22. -/
def Foot.meets (a b : Foot) : Bool := a.glob == b.glob && decide (a.lo < b.hi) && decide (b.lo < a.hi)

/-- A word with its named accesses: `ldg` and `stg` translate when they start (R102), so until then theirs follow the
tables as they stand. -/
def State.placed (s : State) (c tid : Nat) (w : QWord) : QWord :=
  match w.instr with
  | .ldg _ _ _ | .stg _ _ _ => { w with foot := globFoot s c tid w.pa }
  | _ => w

/-- Two words name a common byte. -/
def QWord.clashes (v w : QWord) : Bool := v.foot.any (fun f => w.foot.any (fun g => f.meets g))

/-- A `flag.wait` that has started and waits: its first test is over. -/
def QWord.polls (w : QWord) : Bool :=
  match w.instr with
  | .flagWait _ _ => w.waiting
  | _ => false

/-- The word `sts`. -/
def QWord.storesWord (w : QWord) : Bool :=
  match w.instr with
  | .sts .. => true
  | _ => false

/-- A pending `flag.wait` may be ended by a later store of its own strand (the table of R233), which it does not hold back; a later
read waits for it.
DEDUCED: notes/assumptions/100. -/
def QWord.yields (v w : QWord) : Bool := v.polls && w.storesWord

/-- Captured words that have not started: those a trap holds come first, being earlier in program order, which is the order of
capture.
DEDUCED: notes/assumptions/104. -/
def Ctx.notStarted (x : Ctx) : List QWord := x.held.words ++ x.qs

/-- An earlier word that has not started names a common byte. -/
def State.clashesBefore (s : State) (c : Nat) (x : Ctx) (w : QWord) : Bool :=
  x.notStarted.any (fun v => decide (v.seq < w.seq) && (s.placed c x.tenant v).clashes (s.placed c x.tenant w))

/-- An earlier named access of the strand to a common byte has not performed (R196). -/
def State.footBlocked (s : State) (c : Nat) (x : Ctx) (w : QWord) : Bool :=
  s.clashesBefore c x w
    || x.fly.any (fun v => !v.finished && !v.yields w && decide (v.seq < w.seq) && v.clashes (s.placed c x.tenant w))

/-- Handle order lets the word perform (R198, R199, R206, R212). -/
def State.orderOk (s : State) (c : Nat) (x : Ctx) (w : QWord) : Bool :=
  match w.seqr with
  | none => true
  | some i =>
    s.preOk x ⟨i, w.opn, w.rscope, (x.seqr i).base⟩ && w.pre.all (fun p => s.preOk x { p with scope := max p.scope w.rscope })
      && w.tix.all (fun t => x.ticketOk t) && !s.footBlocked c x w

/-! ## Starting words (R33, R35, R198, R260, R312) -/

/-- The queue an unsent packet of a core holds up (R260). -/
def PKind.engine : PKind → Engine
  | .load .. | .store .. | .chan _ _ _ _ false | .cntsnap .. | .sacInv => .s
  | .flagAdd .. | .flagSet .. | .ticket .. | .confirmReq .. | .chan _ _ _ _ true => .y
  | _ => .x

/-- A packet of the tenant that its core holds stalls its engine (R260); another tenant's words do not wait for it. -/
def State.limited (s : State) (c t : Nat) (e : Engine) : Bool :=
  s.net.any (fun p => decide (p.2.st = PSt.held) && decide (p.2.src = Leaf.core c) && decide (p.2.tenant = t) && decide (p.2.kind.engine = e))

/-- A check or a fill on its way to its directory. -/
def PKind.sacOp : PKind → Bool
  | .sacCheck .. | .sacFill .. => true
  | _ => false

/-- A check or a fill of the step cache (R275, R277). -/
def QWord.sacOp (w : QWord) : Bool :=
  match w.instr with
  | .xrpl .. | .xrpf .. => true
  | _ => false

/-- Tag of a descriptor (R172). -/
def dTag (d : Rec512) : Nat := Rec512.f d 0 0 12

/-- A data command (R172). -/
def QWord.dataOp (w : QWord) : Bool :=
  match w.instr with
  | .xget .. | .xput .. | .xsend .. | .xgat .. | .xsca .. | .xacc .. => true
  | _ => false

/-- What a gate waits for, as a captured word. -/
def Gate.names (g : Gate) (v : QWord) : Bool :=
  match g with
  | .none => false
  | .tag t => v.dataOp && decide (dTag v.desc = t)
  | .sacDone => v.sacOp
  | .group _ => decide (v.gate = g)

/-- An earlier word that the word's gate waits for has not started. -/
def Ctx.gatedBefore (x : Ctx) (w : QWord) : Bool := x.notStarted.any (fun v => decide (v.seq < w.seq) && w.gate.names v)

/-- What a word of the X or S queue waits for beside tokens and order: `xgunmap` for earlier commands whose descriptor has its tag
(R186); `sacinv` for every earlier `xrpl` and `xrpf` to be decided (R281); `xred` for its group (R262). Words that a trap holds are
among the earlier ones.
DEDUCED: notes/assumptions/104. DESIGN CHOICE: notes/assumptions/113. -/
def State.gateOk (s : State) (c : Nat) (x : Ctx) (w : QWord) : Bool :=
  !x.gatedBefore w && match w.gate with
  | .none => true
  | .tag t => !(s.cmds.any (fun m => decide (m.2.core = c) && decide (m.2.uid = x.uid) && decide (m.2.tag = t)
      && decide (1 ≤ m.2.op5) && decide (m.2.op5 ≤ 6) && decide (m.2.word < w.seq)))
  | .sacDone => !(s.net.any (fun p => p.2.kind.sacOp && decide (p.2.src = Leaf.core c)
        && (match Map.at? s.cmds p.2.cmd with | some m => decide (m.uid = x.uid) && decide (m.word < w.seq) | none => false)))
      && !(x.fly.any (fun v => decide (v.seq < w.seq) && v.sacOp && (v.mid.isSome || v.waiting)))
  | .group g => !(s.cmds.any (fun m => decide (m.2.core = c) && decide (m.2.op5 = 0x0F) && decide (m.2.group = g)))

/-- The first unstarted word of a queue. -/
def Ctx.head (x : Ctx) (e : Engine) : Option QWord := x.qs.find? (fun w => w.eng == e)

/-- A started word of the queue still waits, or is between two row accesses, and holds the queue (15_sync, opening; R186). -/
def Ctx.holding (x : Ctx) (e : Engine) : Bool :=
  x.fly.any (fun w => w.eng == e && (w.waiting || w.mid.isSome || (w.holds && !w.finished)))

/-- A started word is between two of its row accesses. -/
def Ctx.midRows (x : Ctx) : Bool := x.fly.any (fun w => w.mid.isSome)

/-- The scalar register an S word writes: its destination's, or n31 for `call` (R41, R104). -/
def QWord.writes (w : QWord) : Option Nat :=
  match w.instr with
  | .call .. => some 31
  | _ => w.dst.filter (fun d => decide (d < 32))

/-- A word can start: it heads its queue, nothing holds the queue, its tokens are present, its order and resources
allow it (R33, R35, R291). -/
def State.canStart (s : State) (c : Nat) (x : Ctx) (w : QWord) : Bool :=
  !w.blocked && decide ((x.head w.eng).map QWord.seq = some w.seq) && !x.holding w.eng && x.tokensReady w
    && s.orderOk c x w && !s.limited c x.tenant w.eng && s.gateOk c x w
    && !(w.units.any (fun u => decide (u ∈ (s.core c).spilling)))
    && !(x.fly.any (fun v => v.eng == w.eng && v.finished && !x.signalRoom v))

/-- A predecessor is unperformed only because of operations already started: none of them is still queued. -/
def Ctx.preFlying (x : Ctx) (p : Pre) : Bool :=
  !(x.notStarted.any (fun w => decide (w.seqr = some p.seqr) && decide (w.opn < p.count)))

/-- A token from one engine to another is on its way: a word that has finished, or a command in flight, signals it. -/
def Ctx.tokenComing (x : Ctx) (src dst : Nat) : Bool :=
  x.fly.any (fun v => decide (v.eng.num = src) && !v.waiting && v.pfx.signal.getLsbD dst && x.signalRoom v)

/-- No word still queued stands before this one in order. -/
def State.orderFlying (s : State) (c : Nat) (x : Ctx) (w : QWord) : Bool :=
  match w.seqr with
  | none => true
  | some i => x.preFlying ⟨i, w.opn, 0, 0⟩ && w.pre.all (fun p => x.preFlying p) && w.tix.all (fun t => x.ticketOk t)
      && !s.clashesBefore c x w

/-- A head word that can start, or waits only for what is under way, which a trap does not stop (R56: the other queues run
on until each reaches a word that waits on a token or pop the trap prevents). -/
def State.runsOn (s : State) (c : Nat) (x : Ctx) (w : QWord) : Bool :=
  !w.blocked && !(x.fly.any (fun v => v.eng == w.eng && v.waiting))
    && !(x.fly.any (fun v => v.eng == w.eng && v.finished && !x.signalRoom v))
    && (maskList w.pfx.wait).all (fun i => decide (1 ≤ x.tokens i w.eng.num) || x.tokenComing i w.eng.num)
    && s.orderFlying c x w && !x.gatedBefore w

/-- The word of a queue whose tokens are pushed next (R35): it and every earlier word of the queue have finished, and every
token has room. -/
def Ctx.signaller (x : Ctx) (e : Engine) : Option QWord :=
  (x.fly.find? (fun w => w.eng == e)).filter (fun w =>
    w.finished && x.signalRoom w && !(x.qs.any (fun v => v.eng == e && decide (v.seq < w.seq))))

/-- No queue can start its head word, now or by what is under way, no started word is between two row accesses, and no token
is still to be pushed (R298).
DEDUCED: notes/assumptions/19. -/
def State.noneRunsOn (s : State) (c : Nat) (x : Ctx) : Bool :=
  !x.midRows && [Engine.s, .v, .m, .x, .y, .k].all (fun e =>
    (x.signaller e).isNone && (match x.head e with | none => true | some w => !s.runsOn c x w))

/-- Every word of a queue that started before the one that trapped in it has finished (R56). -/
def Ctx.earlierDone (x : Ctx) (e : Engine) (word : Option Nat) : Bool :=
  word.all (fun n => !(x.fly.any (fun v => v.eng == e && !v.finished && !v.waiting && decide (v.seq < n))))

/-- Take a word out of the unstarted words. -/
def Ctx.dequeue (x : Ctx) (seq : Nat) : Ctx := { x with qs := x.qs.filter (fun w => w.seq ≠ seq) }

/-- Put a word among words in program order. -/
def insertSeq (w : QWord) : List QWord → List QWord
  | [] => [w]
  | v :: t => if w.seq < v.seq then w :: v :: t else v :: insertSeq w t

/-- A started word has finished: it stays listed only while it has tokens to push (R35). -/
def Ctx.finish (x : Ctx) (seq : Nat) : Ctx :=
  let kept := x.fly.filter (fun w => w.seq ≠ seq || w.pfx.signal ≠ 0)
  { x with fly := kept.map (fun w => if w.seq = seq then { w with finished := true, waiting := false } else w) }

/-! ## Traps (R298-R300, R303) -/

/-- The word `end` (R107). -/
def QWord.isEnd (w : QWord) : Bool :=
  match w.instr with
  | .endw => true
  | _ => false

def Ctx.tokCount (x : Ctx) : Nat := (x.tok.map (fun t => t.2)).sum

/-- Finished words whose tokens stand before an ended span's queues, and those whose tokens come late: an earlier X command
of the queue is still in flight (R35, R107). -/
def Ctx.unsignalled (x : Ctx) (late : Bool) : List QWord :=
  x.fly.filter (fun w => w.finished && !w.isEnd &&
    (late == x.fly.any (fun v => v.eng == w.eng && !v.finished && !v.isEnd && decide (v.seq < w.seq))))

/-- Tokens in the queues, with those that finished words are about to push there (R107, R300). -/
def Ctx.tokensDue (x : Ctx) : Nat :=
  x.tokCount + ((x.unsignalled false).map (fun w => (maskList w.pfx.signal).length)).sum

/-- `pstat` after entry (R303). -/
def pstatOf (old : BitVec 8) (eng : Engine) (engineTrap held : Bool) : BitVec 8 :=
  1#8 ||| (if old.getLsbD 0 then 2#8 else 0#8) ||| (if engineTrap then 4#8 else 0#8)
    ||| (BitVec.ofNat 8 eng.num <<< 3) ||| (if held then 128#8 else 0#8)

/-- A trap that is not handled (R299): it ends the span and discards the held words, whose operations are over with them (R219).
The token counts a trap held, and the tokens that words still waiting had popped, go with them: they stand in no token queue, so
neither TOKLEFT nor `evtokleft` counts them.
DEDUCED: notes/assumptions/48. -/
def Ctx.endUnhandled (x : Ctx) (p : Pend) : Ctx :=
  let gone := x.notStarted ++ x.fly.filter (fun w => w.waiting)
  { gone.foldl (fun y w => y.perform w.seqr w.opn) x with
    ending := true, dead0 := some (p.cause, p.tval), qs := [], held := {}, pend := none
    fly := x.fly.filter (fun w => !w.waiting) }

/-- Entry into the handler (R298): started words that wait return unstarted with their tokens; the unstarted words
and every token count are held; `epc`, `cause`, `tval` and `pstat` are written; capture goes on at `tvec`, also where `end` was captured and is held. -/
def Ctx.enterHandler (x : Ctx) (tvec : Nat) (p : Pend) : Ctx :=
  let waiters := x.fly.filter (fun w => w.waiting)
  let words := ((waiters.map (fun w => { w with waiting := false })).foldl (fun l w => insertSeq w l) x.qs).map
    (fun w => { w with blocked := false })
  let toks := waiters.foldl returnTokens x.tok
  { x with
    held := { words := words, toks := toks, resume := if p.word.isSome then x.pc else p.addr,
              trapped := p.word, epc0 := p.addr }
    qs := [], tok := [], fly := x.fly.filter (fun w => !w.waiting)
    epc := p.addr, cause := p.cause, tval := p.tval
    pstat := pstatOf x.pstat p.eng p.word.isSome (!words.isEmpty || !toks.isEmpty)
    pc := tvec, pend := none, stall := .none, ending := false }

/-- The errored element that a trapped pop named is removed (R202). -/
def Ctx.dropElem (x : Ctx) : Option Nat → Ctx
  | none => x
  | some i => { x with q6 := x.q6.filter (fun e => e.id ≠ i) }

/-- Take a raised trap (R298, R299). -/
def State.enterTrap (s : State) (c : Nat) (p : Pend) : State :=
  match s.ctx c with
  | none => s
  | some y =>
    let x := y.dropElem p.elem
    if x.priv || Map.get 0 (s.core c).tvec x.tenant = 0 then s.setCtx c (x.endUnhandled p)
    else s.setCtx c (x.enterHandler (Map.get 0 (s.core c).tvec x.tenant) p)

/-- The higher-ranked of two statuses of a sequencer, the first among equals (R182). -/
def joinStatus (a : Nat × Nat × Dword) : Option (Nat × Nat × Dword) → Nat × Nat × Dword
  | none => a
  | some b => if b.1 < a.1 then b else a

/-- The statuses an `hdrain` took stand again: its trap is not the one taken, and it raises them when it runs again (R298). -/
def Ctx.putBack (x : Ctx) (p : Pend) : Ctx :=
  p.drained.foldl (fun y d => y.setSeqr d.1 { y.seqr d.1 with status := some (joinStatus d.2 (y.seqr d.1).status) }) x

/-- A trap may be entered: no queue can start its head word (R298), and an engine trap's queue is complete up to its word (R56). -/
def State.mayEnter (s : State) (c : Nat) (x : Ctx) (p : Pend) : Bool := s.noneRunsOn c x && x.earlierDone p.eng p.word

/-- A trap with the cycle it is raised in, and its word's place in program order. -/
def Pend.raisedIn (p : Pend) (s : State) (x : Ctx) : Pend := { p with cycle := s.cycle, place := p.word.getD x.nextSeq }

/-- Raise a trap (R298): it is taken at once when it may be entered, and recorded otherwise. Of traps raised
in one cycle the one earliest in program order stays recorded; any other trap raised while one is recorded is not. While
the core quiesces a trap is only recorded (R311). Capture takes no group from then on, so what it waited for ends (R55).
DEDUCED: notes/assumptions/96. -/
def State.raise (s : State) (c : Nat) (p : Pend) : State :=
  match s.ctx c with
  | none => s
  | some x =>
    let q := p.raisedIn s x
    match x.pend with
    | some o =>
      if o.cycle = q.cycle && decide (q.place < o.place) then s.setCtx c { x.putBack o with pend := some q } else s.setCtx c (x.putBack q)
    | none =>
      let s1 := s.unstall c x
      if s.mayEnter c x q && (s.core c).quiesce.isNone then s1.enterTrap c q
      else s1.setCtx c { x with pend := some q, stall := .none }

/-- Produce with 0 what a dropped word reserved, and leave 0 in its result-queue position (R300). -/
def Ctx.dropWord (x : Ctx) (w : QWord) : Ctx :=
  let x1 := w.q6.foldl (fun y i => y.produce i 0) x
  { (x1.perform w.seqr w.opn) with rq := fillRq x1.rq w.seq 0 }

/-- Held words stand in their queues again; capture goes on at an address, unless `end` is among them. -/
def Ctx.restoreHeld (x : Ctx) (ws : List QWord) (pc : Nat) : Ctx :=
  { x with qs := ws, pc := pc, ending := ws.any QWord.isEnd }

/-- The effect of `eret` once every queue is empty (R300). -/
def Ctx.returnTrap (x : Ctx) : Ctx :=
  let engineTrap := x.pstat.getLsbD 2
  let skip := x.pstat.getLsbD 6
  let pmode := x.pstat.getLsbD 1
  let x1 := { x with tok := x.held.toks, pstat := if pmode then 1#8 else 0#8, held := {}, stall := .none }
  if !engineTrap then x1.restoreHeld x.held.words x.epc
  else if x.epc = x.held.epc0 then
    if skip then
      let x2 := (x.held.words.filter (fun w => some w.seq = x.held.trapped)).foldl Ctx.dropWord x1
      x2.restoreHeld (x.held.words.filter (fun w => some w.seq ≠ x.held.trapped)) x.held.resume
    else x1.restoreHeld x.held.words x.held.resume
  else { (x.held.words.foldl Ctx.dropWord x1) with pc := x.epc }

/-! ## Packets and commands (R177, R182, R210, R211, R258-R260) -/

/-- Payload bytes of a packet (R260): a beat carries its elements. The spec gives no payload size for what has no beats.
DESIGN CHOICE: notes/assumptions/101. -/
def PKind.bytes : PKind → Nat
  | .beat _ b | .put _ b | .acc _ b _ | .stream _ _ b => b.count
  | .store .. | .loadReply .. | .atomicReply .. | .chan .. | .ticket .. | .flagAdd .. | .flagSet .. => 8
  | .hostRead _ n => n
  | .hostWrite _ bs => bs.length
  | _ => 0

/-- A packet that is a beat counts as one, any other as none (R316). -/
def PKind.isBeat : PKind → Nat
  | .beat .. | .put .. | .acc .. | .stream .. => 1
  | _ => 0

/-- A beat that begins a row counts as one row (R158, R167). -/
def PKind.isRow : PKind → Nat
  | .beat _ b | .put _ b | .acc _ b _ | .stream _ _ b => if b.off = 0 then 1 else 0
  | _ => 0

/-- A packet that closes its block (R158, R316). -/
def PKind.isBlock : PKind → Nat
  | .close .. | .sacIn .. | .sacCheck .. | .sacFill .. | .redContrib .. => 1
  | _ => 0

/-- A request that counts against the limit of R190: a block request, an `xat`. -/
def PKind.isRequest : PKind → Bool
  | .blockReq .. | .atomic .. => true
  | _ => false

/-- A packet that its source keeps until it is acknowledged (R211): every request, a contribution, a beat or marker that a
slice sends. -/
def PKind.kept : PKind → Nat → Bool
  | .beat .., _ | .close .., _ | .redContrib .., _ | .stream .., _ => true
  | _, cls => decide (cls ≤ 3)

def Tenant.bucketOf (t : Tenant) (die : Nat) : Nat × Nat × Int × Nat := Map.get (0, 0, 0, 0) t.bucket die

/-- The balance of a bucket at a cycle, in sixteenths of a byte (R260). -/
def balanceAt (b : Nat × Nat × Int × Nat) (now : Nat) : Int :=
  Min.min ((16 * b.2.1 : Nat) : Int) (b.2.2.1 + ((b.1 * (now - b.2.2.2) : Nat) : Int))

/-- Debit a request packet (R260). -/
def debit (b : Nat × Nat × Int × Nat) (now bytes : Nat) : Nat × Nat × Int × Nat :=
  (b.1, b.2.1, balanceAt b now - ((16 * (64 + bytes) : Nat) : Int), now)

/-- Requests of a core that have left it and await their answer (R190). -/
def State.outstanding (s : State) (c : Nat) : Nat :=
  (s.sent.filter (fun p => p.2.kind.isRequest && decide (p.2.src = Leaf.core c))).length
    - (s.net.filter (fun p => p.2.kind.isRequest && decide (p.2.src = Leaf.core c) && decide (p.2.st = PSt.held))).length

/-- The core holds as many outstanding requests as it may, and this is one more (R190).
DEDUCED: notes/assumptions/92. -/
def State.requestFull (s : State) (c : Nat) (k : PKind) : Bool :=
  k.isRequest && decide (Config.outstanding ≤ s.outstanding c)

/-- No room for the packet: the core has its outstanding requests (R190), or the bucket is overdrawn (R260). A copy that a
switch replicates is not charged again. -/
def State.shortOf (s : State) (c : Nat) (p : Packet) : Bool :=
  s.requestFull c p.kind || (!p.twin && decide (((s.tenant p.tenant).bucketOf (dieOf c)).1 ≠ 0)
      && decide (balanceAt ((s.tenant p.tenant).bucketOf (dieOf c)) s.cycle < 0))

/-- A packet must wait in its core, for room or behind one held before it. -/
def State.mustHold (s : State) (c : Nat) (p : Packet) : Bool := s.limited c p.tenant p.kind.engine || s.shortOf c p

/-- The bucket of its tenant pays for a packet that leaves, once for the copies a switch replicates (R260). -/
def State.pay (s : State) (c : Nat) (p : Packet) : State :=
  let b := (s.tenant p.tenant).bucketOf (dieOf c)
  if p.twin || b.1 = 0 then s
  else s.modTenant p.tenant (fun t => { t with bucket := Map.ins t.bucket (dieOf c) (debit b s.cycle p.kind.bytes) })

/-- Send a packet: a class 0-3 request from a core is held while R190 or R260 lets none leave, and pays when it leaves; its
source keeps a copy until it is acknowledged (R211). -/
def State.send (s : State) (p : Packet) : State :=
  let id := s.nextId
  let p1 := { p with seq := id, sentAt := s.cycle }
  let s1 := { s with
    nextId := id + 1
    cmds := Map.modify s.cmds p.cmd (fun m => { m with sent := m.sent + p.kind.isBeat, blocks := m.blocks + p.kind.isBlock, rows := m.rows + p.kind.isRow })
    sent := if p.kind.kept p.cls then Map.ins s.sent id p1 else s.sent }
  match p.src with
  | .core c =>
    if p.cls ≤ 3 then
      if s.mustHold c p then { s1 with net := Map.ins s1.net id { p1 with st := .held } }
      else let s2 := s1.pay c p; { s2 with net := Map.ins s2.net id p1 }
    else { s1 with net := Map.ins s1.net id p1 }
  | _ => { s1 with net := Map.ins s1.net id p1 }

def State.sendAll (s : State) : List Packet → State
  | [] => s
  | p :: ps => State.sendAll (s.send p) ps

/-- A packet that has been taken from the fabric. -/
def State.unsend (s : State) (id : Nat) : State := { s with net := Map.del s.net id }

/-- Note in the sequence window that a packet was applied, with its reply (R211).
DEDUCED: notes/assumptions/34. -/
def State.noteApplied (s : State) (p : Packet) (reply : PKind) : State :=
  if p.kind.kept p.cls then { s with applied := Map.ins s.applied p.seq reply } else s

/-- The next n identities.
DESIGN CHOICE: notes/assumptions/4. -/
def State.fresh (s : State) (n : Nat) : State × List Nat := ({ s with nextId := s.nextId + n }, rangeFrom s.nextId n)

/-- List a command, numbered by the next identity. -/
def State.newCmd (s : State) (m : Cmd) : State := { s with cmds := Map.ins s.cmds s.nextId m, nextId := s.nextId + 1 }

/-- A status recorded for a command whose context is gone goes to its launch (R107, R219, R292). -/
def State.launchStatus (s : State) (t lid spanid cause : Nat) (tval : Dword) : State :=
  s.modTenant t (fun v =>
    let upd := fun (l : Launch) => { l with statuses := l.statuses ++ [(statusRank cause, spanid, cause, tval)] }
    { v with launches := Map.modify v.launches lid upd })

/-- A deferred status of a command (R182). -/
def State.cmdStatus (s : State) (m : Cmd) (cause : Nat) (tval : Dword) : State :=
  if cause = 0 then s
  else
    match s.ctxOf m.core m.uid with
    | some _ => s.modCtxOf m.core m.uid (fun x => x.record m.seqr cause tval)
    | none => s.launchStatus m.tenant m.lid m.spanid cause tval

/-- An operation of an ended span has performed: its sequencer of the core has one less in flight (R107, R219). -/
def Core.performed (k : Core) (sq : Option Nat) (opn : Nat) : Core :=
  match sq with
  | none => k
  | some i => { k with seqs := Map.modify k.seqs i (fun q => { q with opened := q.opened.filter (fun o => o ≠ opn) }) }

/-- Late tokens (R107): those of a word of an ended span are discarded and counted when they would be pushed, once every
earlier X command of the span has finished too (R35). -/
def State.lateTokens (s : State) (c uid word n : Nat) : State :=
  match (s.cmds.filter (fun m => decide (m.2.core = c) && decide (m.2.uid = uid) && decide (m.2.word < word))).getLast? with
  | some m => { s with cmds := Map.modify s.cmds m.1 (fun k => { k with nsig := k.nsig + n }) }
  | none => s.count c 0xA n

/-- A command has finished (R177): its operation has performed and its word may signal. The tokens of a word whose
span has ended are discarded (R107). -/
def State.finishCmd (s : State) (id : Nat) : State :=
  match Map.at? s.cmds id with
  | none => s
  | some m =>
    let s1 := { s with cmds := Map.del s.cmds id, sent := s.sent.filter (fun p => p.2.cmd ≠ id) }
    match s1.ctxOf m.core m.uid with
    | some _ => s1.modCtxOf m.core m.uid (fun x => (x.perform m.seqr m.opn).finish m.word)
    | none => (s1.modCore m.core (fun k => k.performed m.seqr m.opn)).lateTokens m.core m.uid m.word m.nsig

/-- Lines an operation of a command wrote (R319), kept with its sequencer, and with the launch once its span has ended
(R288). -/
def State.noteLines (s : State) (cmd : Nat) (ls : List Nat) : State :=
  if ls.isEmpty then s
  else
    match Map.at? s.cmds cmd with
    | none => s
    | some m =>
      match s.ctxOf m.core m.uid with
      | some _ => s.modCtxOf m.core m.uid (fun x =>
          match m.seqr with
          | some q => x.setSeqr q { x.seqr q with lines := ((x.seqr q).lines ++ ls.map (fun l => (m.opn, l))).dedup }
          | none => x)
      | none =>
        let s1 := s.modTenant m.tenant (fun t =>
          { t with launches := Map.modify t.launches m.lid (fun l => { l with lines := l.lines ++ ls }) })
        match m.seqr with
        | some q => s1.modCore m.core (fun k => { k with
            seqs := Map.modify k.seqs q (fun v => { v with lines := (v.lines ++ ls.map (fun l => (m.opn, l))).dedup }) })
        | none => s1

/-- Acknowledgements `ids` of a command arrive with what they report (R182, R210); a number no longer awaited is a
duplicate and changes nothing (R211). -/
def State.settle (s : State) (id : Nat) (ids : List Nat) (info : AckInfo) : State :=
  match Map.at? s.cmds id with
  | none => s
  | some m =>
    if m.pend.any (fun a => decide (a ∈ ids)) then
      let left := m.pend.filter (fun a => a ∉ ids)
      let s1 := { s with cmds := Map.ins s.cmds id { m with pend := left },
                         sent := s.sent.filter (fun p => p.2.cmd ≠ id || p.2.acks.any (fun a => decide (a ∈ left))) }
      let s2 := s1.cmdStatus m info.cause info.tval
      let s2 := if info.flushes = 0 then s2
        else (s2.count m.core 9 info.flushes).modCtxOf m.core m.uid (fun x => x.stick 4)
      let s3 := s2.noteLines id info.lines
      if left.isEmpty then s3.finishCmd id else s3
    else s

/-- Answer a packet with an acknowledgement in the response class (R210, R258). -/
def State.ackTo (s : State) (p : Packet) (ids : List Nat) (info : AckInfo) : State :=
  s.send { seq := 0, kind := .ack p.seq ids info, src := p.dst, dst := p.src, tenant := p.tenant, cls := 4, cmd := p.cmd }

end Sys2Proof.Machine
end

