-- ==== Sys2Proof/Machine/Flags.lean ====
section
/-! DEFINITION. Conditions and predicates: the cond4 conditions of `cmp` and `vcmp` (R44, R94, R120), the row mask
(R38, R115), shape records (R111), and the sticky bits by name (R110). -/

namespace Sys2Proof.Machine

/-- cond4 0-5 over signed values and unsigned patterns (R94, R120). -/
def condInt (c : Nat) (a b : Int) (ua ub : Nat) : Bool :=
  if c = 0 then decide (a = b) else if c = 1 then decide (a ≠ b)
  else if c = 2 then decide (a < b) else if c = 3 then decide (b ≤ a)
  else if c = 4 then decide (ua < ub) else decide (ub ≤ ua)

/-- cond4 6-9 over values (R94): false when either is NaN, but for 9, which is true exactly then. -/
def condFloat (c : Nat) (a b : Num) : Bool :=
  if c = 6 then Num.lt a b else if c = 7 then Num.lt a b || Num.eq a b
  else if c = 8 then Num.eq a b else a.isNan || b.isNan

/-- The condition of `cmp` over 64-bit operands (R94), floats after input flush. -/
def condHolds (c ftz : Nat) (a b : Dword) : Bool :=
  if c < 6 then condInt c a.toInt b.toInt a.toNat b.toNat
  else condFloat c (floatVal 1 (flushIn ftz 1 (a.toNat % 2 ^ 32)).1) (floatVal 1 (flushIn ftz 1 (b.toNat % 2 ^ 32)).1)

/-- How many of two FP32 operands the input flush changes (R68): each operand field is an element, so a register that both
fields name counts twice. DESIGN CHOICE: notes/assumptions/83. -/
def flushCount (ftz : Nat) (vs : List Dword) : Nat :=
  (vs.filter (fun a => (flushIn ftz 1 (a.toNat % 2 ^ 32)).2)).length

/-- The type, rows and columns of a shape record (R111). -/
def shEt (sh : Word) : Nat := sh.toNat % 32
def shRows (sh : Word) : Nat := bits sh.toNat 5 8 + 1
def shCols (sh : Word) : Nat := bits sh.toNat 13 11 + 1

/-- The row mask of a MOD prefix (R38, R115). -/
def maskOf (x : Ctx) (p : Pfx) : Pred :=
  if p.hasMod && p.maskOn then (if p.invert then ~~~ (x.pred p.pred) else x.pred p.pred) else BitVec.allOnes 128

/-- Row i is selected. -/
def rowSel (m : Pred) (i : Nat) : Bool := m.getLsbD i

/-- Sticky bits (R110). -/
def stSCOPECAP : Nat := 0
def stMAPMISS : Nat := 1
def stOOB : Nat := 2
def stFLAGCLOB : Nat := 3
def stFTZHIT : Nat := 4
def stTOKLEFT : Nat := 5
def stMAPDUP : Nat := 6
def stFILL : Nat := 7
def stPOISON : Nat := 8
def stRPNEG : Nat := 9
def stQ6LEFT : Nat := 10

/-- Event counters by number less 0x110 (R55); `evCAPSTALL` and `evQ6STALL` stand with the operations. -/
def evSKIP : Nat := 0
def evSACHIT : Nat := 1
def evSACMISS : Nat := 2
def evMAPMISS : Nat := 3
def evMAPDUP : Nat := 4
def evOOB : Nat := 5
def evFILL : Nat := 6
def evSCOPECAP : Nat := 7
def evFLAGCLOB : Nat := 8
def evFTZ : Nat := 9
def evTOKLEFT : Nat := 10
def evPREEMPT : Nat := 13
def evRETX : Nat := 14
def evSPAN : Nat := 15

/-- Count flushed inputs: `evftz` and FTZHIT (R68). -/
def noteFlush (s : State) (c n : Nat) : State :=
  if n = 0 then s else (s.count c evFTZ n).modCtx c (fun x => x.stick stFTZHIT)

end Sys2Proof.Machine
end

