-- ==== Sys2Proof/Machine/Operands.lean ====
section
/-! DEFINITION. The operand and destination codes (R40, R41), the immediate of R36, and the writing of a scalar
result (R86, R87). -/

namespace Sys2Proof.Machine

/-- The value of an immediate field of w bits (R36): widened by IMM, else sign-extended. -/
def immOf (p : Pfx) {w : Nat} (f : BitVec w) : Dword :=
  if p.hasImm then (p.upper ++ f).signExtend 64 else f.signExtend 64

/-- The immediate of `trap` and `ebrk`: zero-extended without IMM (R36, R301). -/
def immZ (p : Pfx) {w : Nat} (f : BitVec w) : Dword :=
  if p.hasImm then (p.upper ++ f).signExtend 64 else f.setWidth 64

/-- Reading the operand fields of a group: their values and the ports popped, a stall, or a trap with the q6 element
it removes (R32 step 4). -/
inductive Rd where
  | ok (vals : List Dword) (pops : List Nat)
  | stall (st : Stall)
  | trap (cause : Nat) (tval : Dword) (drop : Option Nat)
deriving DecidableEq, Repr

/-- One operand (R40). `n` counts the earlier fields of the group that name the same port. -/
def readOne (s : State) (c : Nat) (x : Ctx) (n code : Nat) : Rd :=
  if code < 32 then .ok [x.reg code] []
  else if code < 48 then
    .ok [match x.rq[code - 32]? with | some (_, some v) => v | _ => 0] []
  else if code < 54 then
    if x.priv then .trap 6 (BitVec.ofNat 64 code) none
    else
      match Map.at? x.chdecl (code - 48) with
      | none => .trap 6 (BitVec.ofNat 64 code) none
      | some _ =>
        match (Map.get {} x.chans (code - 48)).elems[n]? with
        | some v => .ok [v] [code]
        | none => .stall (.chan code n s.cycle)
  else if code = 54 then
    if x.priv then .trap 6 54 none
    else
      match x.q6[n]? with
      | none => .trap 6 0 none
      | some e =>
        match e.err with
        | some (cause, tval) => .trap cause tval (some e.id)
        | none =>
          match e.val with
          | some v => .ok [v] [54]
          | none => .stall (.q6 s.cycle)
  else if code = 55 then
    match ((s.core c).box x)[n]? with
    | some v => .ok [v] [55]
    | none => .stall .mbox
  else if code = 56 then .ok [0] []
  else if code < 60 then .ok [BitVec.ofNat 64 (Map.get 0 x.lc (code - 57))] []
  else .ok [BitVec.ofNat 64 (Map.get 0 x.ix (code - 60))] []

/-- The operand fields in order (R32 step 4); the first trap or stall decides. -/
def readAll (s : State) (c : Nat) (x : Ctx) : List Nat → List Dword → List Nat → Rd
  | [], vals, pops => .ok vals pops
  | k :: ks, vals, pops =>
    match readOne s c x (pops.count k) k with
    | .ok v p => readAll s c x ks (vals ++ v) (pops ++ p)
    | r => r

/-- The value of an operand that pops nothing: a register, %k, z, a loop counter or a walker index. -/
def Ctx.plain (x : Ctx) (code : Nat) : Dword :=
  if code < 32 then x.reg code
  else if code < 48 then (match x.rq[code - 32]? with | some (_, some v) => v | _ => 0)
  else if code = 56 then 0
  else if code < 60 then BitVec.ofNat 64 (Map.get 0 x.lc (code - 57))
  else BitVec.ofNat 64 (Map.get 0 x.ix (code - 60))

/-- A destination code names a port the strand may not use: an undeclared channel (R41), or q0-q6 in privileged mode
(R299). -/
def destTrap (x : Ctx) (d : Nat) : Bool :=
  (decide (48 ≤ d) && decide (d ≤ 54) && x.priv) || (decide (48 ≤ d) && decide (d ≤ 53) && (Map.at? x.chdecl (d - 48)).isNone)

/-- An earlier S word that writes this source has not completed (R32 step 3, R86). -/
def srcPending (x : Ctx) (code : Nat) : Bool :=
  if code < 32 then
    x.qs.any (fun w => decide (w.writes = some code)) || x.fly.any (fun w => !w.finished && decide (w.writes = some code))
  else if code < 48 then (match x.rq[code - 32]? with | some (_, none) => true | _ => false)
  else false

def predPending (x : Ctx) (p : Nat) : Bool :=
  x.qs.any (fun w => decide (w.dstP = some p)) || x.fly.any (fun w => !w.finished && decide (w.dstP = some p))

/-- Core of the peer of a channel (R234). -/
def peerOf (x : Ctx) (c q : Nat) : Option Nat :=
  match Map.at? x.chdecl q with
  | some (off, _) => if 0 ≤ (c : Int) + off then some ((c : Int) + off).toNat else none
  | none => none

/-- The context of the peer span's tenant and launch on a core. -/
def gangCtx (s : State) (c tenant lid : Nat) : Option Ctx :=
  match (s.core c).res.filter (fun x => x.tenant = tenant && x.lid = lid) with
  | some x => some x
  | none => (s.core c).sus.filter (fun x => x.tenant = tenant && x.lid = lid)

/-- A slot of the peer's buffer is free (R235). Once the peer span has ended no credit is asked for.
DEDUCED: notes/assumptions/23. -/
def channelCredit (s : State) (c : Nat) (x : Ctx) (q : Nat) : Bool :=
  match peerOf x c q, Map.at? x.chdecl q with
  | some p, some (_, slots) =>
    match gangCtx s p x.tenant x.lid with
    | some y => decide ((Map.get {} y.chans q).reserved < slots)
    | none => true
  | _, _ => true

/-- Reserve a slot of the peer's buffer for a push captured with place `seq` (R87, R235). -/
def reserveChannel (s : State) (c : Nat) (q seq : Nat) : State :=
  match s.ctx c with
  | none => s
  | some x =>
    let s1 := s.setCtx c { x with chout := Map.ins x.chout q (Map.get [] x.chout q ++ [seq]) }
    match peerOf x c q with
    | none => s1
    | some p =>
      match gangCtx s1 p x.tenant x.lid with
      | none => s1
      | some y => s1.modCtxOf p y.uid (fun z =>
          let ch := Map.get {} z.chans q
          { z with chans := Map.ins z.chans q { ch with reserved := ch.reserved + 1 } })

/-- Room in the tenant's outbound mailbox (R293). -/
def oboxRoom (s : State) (x : Ctx) : Bool := decide ((s.tenant x.tenant).obox.length < 256)

/-- Raise an MSI-X vector (R328): sent, or held pending while masked. -/
def State.msixRaise (s : State) (t v : Nat) : State :=
  if (s.tenant t).msixMask.getLsbD v then
    s.modTenant t (fun k => { k with msixPend := k.msixPend ||| (1#64 <<< v) })
  else { s with msix := (t, v) :: s.msix }

/-- Push a word into the tenant's outbound mailbox; the vector is raised when it becomes non-empty (R293, R328). -/
def State.oboxPush (s : State) (t : Nat) (v : Dword) : State :=
  let empty := (s.tenant t).obox.isEmpty
  let s1 := s.modTenant t (fun k => { k with obox := k.obox ++ [v] })
  if empty then s1.msixRaise t 16 else s1

/-- Send a channel element to the peer (R234, R235); `ticket` says that an `hpass` does. -/
def sendChannel (s : State) (c : Nat) (x : Ctx) (q seq : Nat) (v : Dword) (ticket : Bool) : State :=
  match peerOf x c q with
  | none => s
  | some p => s.send { seq := 0, kind := .chan q x.uid seq v ticket, src := .core c, dst := .core p, tenant := x.tenant, cls := x.cls }

/-- A register written by the S word with place k: of the loads under way only one that started after it still writes it,
since the words' effects are as if they ran one after another (R33, R103). -/
def Ctx.writeReg (x : Ctx) (k d : Nat) (v : Dword) : Ctx :=
  { x.setReg d v with late := Map.put [] x.late d ((Map.get [] x.late d).filter (fun n => decide (k < n))) }

/-- What the result of an S word changes of its context (R41, R86): its result-queue position, and the register or q6
element that its destination names. -/
def Ctx.wrote (x : Ctx) (w : QWord) (d : Nat) (v : Dword) : Ctx :=
  let x1 := { x with rq := fillRq x.rq w.seq v }
  if d < 32 then x1.writeReg w.seq d v
  else if d = 54 then (match w.q6 with | i :: _ => x1.produce i v | [] => x1)
  else x1

/-- Write the result of an S word: its result-queue position, and its destination by R41. -/
def writeDst (s : State) (c : Nat) (w : QWord) (v : Dword) : State :=
  match w.dst with
  | none => s
  | some d =>
    let s1 := s.modCtx c (fun x => x.wrote w d v)
    match s1.ctx c with
    | none => s1
    | some x =>
      if 48 ≤ d && d ≤ 53 then sendChannel s1 c x (d - 48) w.seq v false
      else if d = 55 then s1.oboxPush x.tenant v
      else s1

end Sys2Proof.Machine
end

