-- ==== Sys2Proof/Machine/Capture.lean ====
section
/-! DEFINITION. Capture of one group (R32) and the start of one word (R33, R35): the frame every meaning of an
instruction word fills in. `issue` runs R32's steps on the group in the capture latch of core `cur`; the word enters
its queue and, when `eager` and nothing holds it, starts in the same step (notes/assumptions/1). -/

namespace Sys2Proof.Machine

/-- How a run of a started word goes: finished; started, to finish later; started with its local accesses over, to
finish later; the same, but its queue stands until it finishes; started and waiting; under way, with rows still to read, as a
word that goes through a list (R178); or a trap inside the engine. -/
inductive RunRes where
  | done (s : State)
  | sent (s : State)
  | shut (s : State)
  | going (s : State)
  | hold (s : State)
  | again (s : State) (w : QWord) (keys : List Nat)
  | trap (cause : Nat) (tval : Dword) (s : State)

/-- The effect of a word when it starts: state (the word already taken from its queue), core, word. -/
abbrev RunFn := State → Nat → QWord → RunRes

/-- What capture must know about a word: its engine, the operand fields from the most significant down, destination
code, predicates read and written, q6 elements besides a destination's, whether it is privileged, whether it is a
memory operation under a handle (R37), and whether it waits for every earlier S word (R184). -/
structure CapSpec where
  eng : Engine
  srcs : List Nat := []
  dst : Option Nat := none
  dstP : Option Nat := none
  preds : List Nat := []
  q6 : Nat := 0
  priv : Bool := false
  mem : Bool := false
  afterS : Bool := false
  sys : Bool := false
  /-- a channel code the word pushes without a result (`hpass`, R222) -/
  push : Option Nat := none
  /-- the word itself says where capture goes on -/
  jump : Bool := false

/-- The code a word pushes into: its destination, or the channel of an `hpass`. -/
def CapSpec.pushed (sp : CapSpec) : Option Nat := if sp.dst.isSome then sp.dst else sp.push

/-- The checks of R32 steps 5 and 6: the word with what it snapshots, a trap, or a stall. -/
inductive Chk where
  | ok (w : QWord)
  | trap (cause : Nat) (tval : Dword)
  | stall (st : Stall)

/-- The checks of a word that has none. -/
def noChk : State → Nat → Ctx → QWord → Chk := fun _ _ _ w => .ok w

/-- An S word of the strand has not completed. -/
def Ctx.sBusy (x : Ctx) : Bool := x.qs.any (fun w => w.eng == Engine.s) || x.fly.any (fun w => w.eng == Engine.s && !w.finished)

/-- Capture takes no group (R107, R298, R311): none is resident, a trap is raised, `end` has been captured, or the
core quiesces. -/
def State.captureShut (s : State) (c : Nat) (x : Ctx) : Bool :=
  x.pend.isSome || x.ending || (s.core c).quiesce.isSome || !s.powered

/-- Levels ending at the word before `target` wrap or exit (R106): the levels opened last come first. -/
def wrapLoops (lc : Map Nat) (target : Nat) : List Loop → Map Nat × List Loop × Nat
  | [] => (lc, [], target)
  | l :: ls =>
    if l.last + 4 = target then
      if Map.get 0 lc l.lvl + 1 < l.trips then (Map.put 0 lc l.lvl (Map.get 0 lc l.lvl + 1), l :: ls, l.start)
      else wrapLoops lc target ls
    else
      let r := wrapLoops lc target ls
      (r.1, l :: r.2.1, r.2.2)

/-- Capture goes on at an address, by falling through or by a taken branch: the wrap of R106. -/
def Ctx.goTo (x : Ctx) (target : Nat) : Ctx :=
  let r := wrapLoops x.lc target x.loops
  { x with lc := r.1, loops := r.2.1, pc := r.2.2 }

/-- The current format entry (R84). -/
def Ctx.fmtIndex (x : Ctx) : Nat :=
  match x.fmtSel with
  | .none => 0
  | .loop k => Map.get 0 x.lc k % 16
  | .fixed n => n % 16

/-- The extraction set k: eight words (R82). -/
def Ctx.bfxSet (x : Ctx) (k : Nat) : List Dword := (List.range 8).map (fun i => Map.get 0 x.bfx (8 * k + i))

/-- Effective rounding mode (R65): the MOD override, else `rnd`. -/
def effRnd (x : Ctx) (p : Pfx) : Nat := if p.hasMod && p.round ≠ 0 then p.round - 1 else x.rnd

/-- The word as capture sees it before its own checks (R67). -/
def mkWord (x : Ctx) (i : Instr) (sp : CapSpec) (vals : List Dword) : QWord :=
  { instr := i, eng := sp.eng, seq := x.nextSeq, addr := x.grp.addr, waddr := x.grp.waddr, raw := x.grp.raw
    pfx := x.grp.pfx, ops := vals, dst := sp.dst, dstP := sp.dstP
    rnd := effRnd x x.grp.pfx, ftz := x.ftz, seed := x.srseed, srq := x.srctr
    mask := maskOf x x.grp.pfx, swz := x.swz, gbase := x.gbase, gpitch := x.gpitch
    fmt := Map.get 0 x.fmtTab x.fmtIndex, bfx := x.bfxSet (bits x.bfxsel 4 3), mscl := x.mscl
    step := x.step, sacage := x.sacage }

/-- A microword whose rounding field selects SR, whether or not a stage of it rounds (R66, R187).
DEDUCED: notes/assumptions/78. -/
def mwSr (mw : Dword) : Bool := decide (bits mw.toNat 11 3 = 4)

/-- The word takes a stochastic-rounding number (R66): its effective mode is SR, or its microword's is. A MOD override of SR
gives a K word a number, too, though only `kmerge` rounds by it (R38, R241).
DEDUCED: notes/assumptions/78. -/
def takesSr (sp : CapSpec) (w : QWord) : Bool := !sp.sys && (decide (w.rnd = 4) || mwSr w.mw)

/-- Take the popped elements from their ports; a channel pop returns a credit to the senders (R235). -/
def popPorts (s : State) (c : Nat) : List Nat → State
  | [] => s
  | k :: ks =>
    let s1 :=
      if k = 54 then s.modCtx c (fun x => { x with q6 := x.q6.drop 1 })
      else if k = 55 then
        match s.ctx c with
        | some x => s.modCore c (fun q => q.setBox x ((q.box x).drop 1))
        | none => s
      else
        let s2 := s.modCtx c (fun x =>
          let ch := Map.get {} x.chans (k - 48)
          { x with chans := Map.ins x.chans (k - 48) { ch with elems := ch.elems.drop 1 } })
        match s2.ctx c with
        | some x => s2.send { seq := 0, kind := .credit (k - 48) x.uid, src := .core c, dst := .core c, tenant := x.tenant, cls := 4 }
        | none => s2
    popPorts s1 c ks

/-- Reserve n q6 elements (R54); their identities. -/
def Ctx.reserve (x : Ctx) : Nat → Ctx × List Nat
  | 0 => (x, [])
  | n + 1 =>
    let r := Ctx.reserve { x with q6 := x.q6 ++ [{ id := x.nextElem }], nextElem := x.nextElem + 1 } n
    (r.1, x.nextElem :: r.2)

/-- Number the operation under its handle's sequencer (R198, R219): it takes the predecessors and tickets of the
handle as they stand. A release at system scope waits for its predecessors there, too. -/
def Ctx.enlist (x : Ctx) (scap : Nat) (w : QWord) : Ctx × QWord :=
  let h := if w.pfx.hasHnd then w.pfx.handle else 0
  let i := Map.get 0 x.hnd h
  let q := x.seqr i
  let scope := if w.pfx.hasHnd && w.pfx.rel then capScope scap w.pfx.scope else 0
  ((x.setSeqr i { q with count := q.count + 1, opened := q.opened ++ [q.count],
                         sysMark := if scope = 5 then q.count else q.sysMark }).markSys
      (q.pre.map (fun p => { p with scope := max p.scope scope })),
   { w with seqr := some i, opn := q.count, pre := q.pre, tix := q.tix, rscope := scope })

/-- Two stalls wait for one thing. -/
def Stall.same : Stall → Stall → Bool
  | .full _, .full _ | .q6 _, .q6 _ => true
  | .chan p i _, .chan q j _ => decide (p = q) && decide (i = j)
  | a, b => decide (a = b)

/-- Capture waits: for what it waited for before, since when it did; for another thing from now on, the earlier wait being
over (R55). -/
def State.setStall (s : State) (c : Nat) (x : Ctx) (st : Stall) : State :=
  if x.stall.same st then s else (endStall s c x).setCtx c { x with stall := st }

/-- A capture trap (R32, R56): precise, at the group's first word; `elem` is the errored element that its pop named (R202). -/
def captureTrap (s : State) (c : Nat) (x : Ctx) (e : Engine) (cause : Nat) (tval : Dword) (elem : Option Nat := none) : State :=
  ((endStall s c x).setCtx c { x with stall := .none, grp := {} }).raise c
    { cause := cause, tval := tval, eng := e, addr := x.grp.addr, word := none, elem := elem }

/-- Put a word that ran into the list of started words, or let it go when nothing is left of it. -/
def State.addFly (s : State) (c : Nat) (w : QWord) : State := s.modCtx c (fun x => { x with fly := insertSeq w x.fly })

/-- The statuses of the sequencers an `hdrain` waited on, as they stand in a state (R221). -/
def QWord.drainedIn (w : QWord) (s : State) (c : Nat) : Map (Nat × Nat × Dword) :=
  match s.ctx c with
  | none => []
  | some x => ((w.covers.map (fun p => p.seqr)).dedup).filterMap (fun i => ((x.seqr i).status).map (fun v => (i, v)))

/-- What a run leaves (R35): a finished word stays only for its signals; a trap puts the word back unstarted, with its
tokens, and raises (R56, R298). -/
def afterRun (s0 : State) (c : Nat) (w : QWord) : RunRes → State
  | .done s =>
    let s1 := if w.seqr.isNone then s else s.modCtx c (fun x => x.perform w.seqr w.opn)
    if w.pfx.signal = 0 then s1 else s1.addFly c { w with finished := true, waiting := false, foot := [] }
  | .sent s => s.addFly c { w with waiting := false, foot := [] }
  | .shut s => s.addFly c { w with waiting := false, holds := true, foot := [] }
  | .going s => s.addFly c { w with waiting := false }
  | .hold s => s.addFly c { w with waiting := true }
  | .again s v keys => s.addFly c { v with waiting := false, mid := some { todo := keys } }
  | .trap cause tval s =>
    let s1 := s.modCtx c (fun x => { x with
      qs := insertSeq { w with blocked := true, waiting := false } x.qs
      tok := (match s0.ctx c with | some y => y.tok | none => x.tok) })
    s1.raise c { cause := cause, tval := tval, eng := w.eng, addr := w.addr, word := some w.seq, drained := w.drainedIn s0 c }

/-! ### Row accesses (R114, R134, R152, R214)

A word reads each row of its tiles and of the scratchpad by an access of its own, before it writes any, and writes each
row by one. Which rows it accesses when is chosen from outside (`State.picks`); with no choice given it makes all its
accesses in one step. The word runs on the rows as it read them. DESIGN CHOICE: notes/assumptions/75. -/

/-- Rows of a unit: of the tile file by 128 * tile + row, of the scratchpad from 8192 on. The accumulators are the M
engine's alone, and their rows meet no other word (R141). -/
def unitKeys (u : Nat) : List Nat :=
  if u < 64 then rangeFrom (128 * u) 128 else if u < 80 then [] else rangeFrom (8192 + 64 * (u - 80)) 64

/-- A row as it stands. -/
def Core.rowVal (k : Core) (key : Nat) : RowVal :=
  if key < 8192 then { key := key, val := Map.get 0 k.tiles key, bad := decide (key ∈ k.tilePoison) }
  else { key := key, val := Map.get 0 k.spad (key % 8192), bad := decide (key % 8192 ∈ k.spadPoison) }

/-- Make a row stand so. -/
def Core.setRowVal (k : Core) (v : RowVal) : Core :=
  let mark := fun (l : List Nat) (r : Nat) => if v.bad then addMark l r else l.filter (fun q => q ≠ r)
  if v.key < 8192 then { k with tiles := Map.put 0 k.tiles v.key v.val, tilePoison := mark k.tilePoison v.key }
  else { k with spad := Map.put 0 k.spad (v.key - 8192) v.val, spadPoison := mark k.spadPoison (v.key - 8192) }

def Core.setRowVals (k : Core) (vs : List RowVal) : Core := vs.foldl Core.setRowVal k

/-- V, M, K and X words access rows; a word of S or Y makes one access of 8 bytes. -/
def QWord.rowwise (w : QWord) : Bool := w.eng == Engine.v || w.eng == Engine.m || w.eng == Engine.k || w.eng == Engine.x

/-- The accesses made now, those left, and the choices left. -/
def pick {α : Type} (l : List α) : List Nat → List α × List α × List Nat
  | [] => (l, [], [])
  | n :: ns => ((l.drop (n % l.length)).take 1, l.eraseIdx (n % l.length), ns)

/-- What follows a word's row accesses. -/
def After.res : After → State → RunRes
  | .done, s => .done s
  | .sent, s => .sent s
  | .shut, s => .shut s
  | .going, s => .going s

/-- Write rows: those chosen now; once none is left the word goes on. -/
def writeRows (s0 s : State) (c : Nat) (w : QWord) (outs : List RowVal) (a : After) : State :=
  let p := pick outs s.picks
  let s1 := { s.modCore c (fun k => k.setRowVals p.1) with picks := p.2.2 }
  if p.2.1.isEmpty then afterRun s0 c { w with mid := none } (a.res s1)
  else s1.addFly c { w with mid := some { outs := p.2.1, after := some a } }

/-- Rows of the scratchpad that named accesses reach. -/
def footRows (fs : List Foot) : List Nat :=
  (fs.flatMap (fun f => if f.glob || decide (f.hi ≤ f.lo) then [] else rangeFrom (f.lo / 128) ((f.hi - 1) / 128 + 1 - f.lo / 128))).dedup

/-- The parts of a named access whose rows are still to be read, under keys that begin at a base. -/
def Foot.left (base : Nat) (todo : List Nat) (f : Foot) : List Foot :=
  if f.glob then [f]
  else ((footRows [f]).filter (fun r => decide (base + r ∈ todo))).map (fun r => ⟨false, max f.lo (128 * r), min f.hi (128 * (r + 1))⟩)

/-- A word between two row accesses names only what it has still to read (R214, R277): `xrpf` reads its input block's rows and
its output block's by accesses of their own. One that goes through a list names the rest of it. -/
def QWord.reading (w : QWord) (todo : List Nat) : QWord :=
  match w.instr with
  | .xgat .. | .xsca .. => w
  | _ =>
    let ins := (w.foot.take (w.foot.length - w.outs)).flatMap (Foot.left 8192 todo)
    let outs := (w.foot.drop (w.foot.length - w.outs)).flatMap (Foot.left 16384 todo)
    { w with foot := ins ++ outs, outs := outs.length }

/-- The rows a word reads first, each once (R241): all of those it names, but for a list's first batch (R178); V, M and K words
those of their units. -/
def QWord.rowKeys (w : QWord) : List Nat := w.keys.getD (w.units.dedup.flatMap unitKeys)

/-- Key of the read of scratchpad row r for index i of a gather; each index reads its row itself (R146). -/
def gatherKey (i r : Nat) : Nat := 16384 + 8192 * i + r

/-- The read is one of a gather. -/
def RowVal.gathered (v : RowVal) : Bool := decide (16384 ≤ v.key)

/-- Run a word on the rows it read; the rows it changes are then written, each whole: where the word writes part of a row, the
other bits stand as it read them.
DESIGN CHOICE: notes/assumptions/75. -/
def runOnRows (run : RunFn) (s0 s : State) (c : Nat) (w : QWord) (reads : List RowVal) : State :=
  let snap := reads.filter (fun v => !v.gathered)
  let real := snap.map (fun v => (s.core c).rowVal v.key)
  let back := fun (t : State) => t.modCore c (fun k => k.setRowVals real)
  let go := fun (t : State) (a : After) =>
    let outs := (snap.map (fun v => (t.core c).rowVal v.key)).filter (fun v => decide (v ∉ snap))
    if outs.isEmpty then afterRun s0 c { w with mid := none } (a.res (back t)) else writeRows s0 (back t) c w outs a
  match run (s.modCore c (fun k => k.setRowVals snap)) c { w with mid := none, gath := reads.filter RowVal.gathered } with
  | .done t => go t .done
  | .sent t => go t .sent
  | .shut t => go t .shut
  | .going t => go t .going
  | .hold t => afterRun s0 c { w with mid := none } (.hold (back t))
  | .again t v keys => afterRun s0 c v (.again (back t) v keys)
  | .trap cause tval t => afterRun s0 c { w with mid := none, book := none } (.trap cause tval (back t))

/-- Scratchpad row that index x gathers, if it is one (R146). -/
def gatherRow (w : QWord) (x : Int) : Option Nat :=
  let r := ((w.gbase : Int) + x * w.gpitch) / 128
  if r < 0 || 6135 < r then none else some r.toNat

/-- The reads that the index tile of an `mma.g` asks for, once its row 0 has been read. -/
def QWord.gatherKeys (w : QWord) (snap : List RowVal) : List Nat :=
  match w.instr with
  | .mmaG _ a _ t _ =>
    match snap.find? (fun v => decide (v.key = 128 * t.toNat)) with
    | some v => (List.range (shRows (Map.get 0 w.shapes a.toNat))).filterMap (fun i =>
        (gatherRow w (toSigned (v.val.extractLsb' (32 * i) 32).toNat 32)).map (gatherKey i))
    | none => []
  | _ => []

/-- The next row accesses of a started word, which `s` no longer lists; `s0` is what a trap of it goes back to. The rows that
an index tile names are read from its row 0 on, in any order with the others (R152). -/
def rowStep (run : RunFn) (s0 s : State) (c : Nat) (w : QWord) (r : Rows) : State :=
  match r.after with
  | some a => writeRows s0 s c w r.outs a
  | none =>
    match s.ctx c with
    | none => s
    | some x =>
      let p := pick r.todo s.picks
      let s1 := touchUnits { s with picks := p.2.2 } c x.me
        (((p.1.filter (fun k => decide (16384 ≤ k))).map (fun k => spadUnit (k % 8192))).dedup)
      let snap := r.snap ++ p.1.map (fun k => (s1.core c).rowVal k)
      let more := (w.gatherKeys snap).filter (fun k => !(snap.any (fun v => decide (v.key = k))) && decide (k ∉ p.2.1))
      let todo := p.2.1 ++ more
      if todo.isEmpty then runOnRows run s0 s1 c w snap
      else s1.addFly c { w.reading todo with mid := some { todo := todo, snap := snap } }

/-- Start a word: it leaves its queue and pops its tokens, the units it names are touched (R312), and it runs. -/
def startWord (run : RunFn) (s : State) (c : Nat) (v : QWord) : State :=
  match s.ctx c with
  | none => s
  | some x =>
    let w := s.placed c x.tenant v
    let s1 := touchUnits (s.setCtx c ((x.dequeue w.seq).popTokens w)) c x.me w.units
    if s.picks.isEmpty || !w.rowwise then afterRun s c w (run s1 c w)
    else rowStep run s s1 c { w with book := some x.codebook } { todo := w.rowKeys }

/-- A waiting word is tried again, or one between two row accesses makes the next (WORD_START): its tokens are already
popped. One that goes through a list stands while what it has issued is held in its core (R190). -/
def resumeWord (run : RunFn) (s : State) (c : Nat) (w : QWord) : State :=
  match s.ctx c with
  | none => s
  | some x =>
    if w.lst.isSome && s.limited c x.tenant w.eng then s
    else
    let back := s.setCtx c { x with tok := returnTokens x.tok w }
    let s1 := s.setCtx c { x with fly := x.fly.filter (fun v => v.seq ≠ w.seq) }
    match w.mid with
    | none => afterRun back c w (run s1 c w)
    | some r => rowStep run back (touchUnits s1 c x.me w.units) c w r

/-- Start the word with place `seq` if it can start. -/
def tryStart (run : RunFn) (s : State) (c seq : Nat) : State :=
  match s.ctx c with
  | none => s
  | some x =>
    match x.qs.find? (fun w => w.seq = seq) with
    | none => s
    | some w => if s.canStart c x w then startWord run s c w else s

/-- q6 elements a word needs, its destination's included (R54).
DEDUCED: notes/assumptions/77. -/
def q6Need (sp : CapSpec) : Nat := sp.q6 + (if sp.dst = some 54 then 1 else 0)

/-- What a captured word takes of its context: its operation number (R198), its q6 reservations (R54), its place in the
result queue (R86). -/
def Ctx.enrol (x : Ctx) (sp : CapSpec) (scap : Nat) (w : QWord) : Ctx × QWord :=
  let e := if sp.mem then x.enlist scap w else (x, w)
  let r := e.1.reserve (q6Need sp)
  (if sp.dst.isSome then r.1.pushRq w.seq else r.1, { e.2 with q6 := r.2 })

/-- What every captured word changes beside: the next place in program order, the stall reason, the latch, and the
stochastic-rounding counter where the word takes a number (R66). -/
def Ctx.pastAt (x : Ctx) (sr : Bool) : Ctx :=
  { x with nextSeq := x.nextSeq + 1, stall := .none, grp := {}, srctr := if sr then x.srctr + 1 else x.srctr }

/-- The same, capture going on at the next group (R106). -/
def Ctx.past (x : Ctx) (sr : Bool) : Ctx := (x.pastAt sr).goTo (x.grp.waddr + 4)

/-- A kernel that captures an M word uses the accumulators (R267).
DEDUCED: notes/assumptions/46. -/
def Ctx.sawM (x : Ctx) (e : Engine) : Ctx := { x with mword := x.mword || e == Engine.m }

/-- R32 step 8: the pops, the pushes reserved, the result-queue position, the operation number and the stochastic
number are committed, the word enters its queue, and capture goes on at the next group. -/
def commit (s : State) (c : Nat) (sp : CapSpec) (x : Ctx) (w : QWord) (pops : List Nat) : State × QWord :=
  let s1 := popPorts (endStall s c x) c pops
  match s1.ctx c with
  | none => (s1, w)
  | some y =>
    let e := y.enrol sp (s.tenant x.tenant).scap w
    let sr := takesSr sp w
    let y1 := (if sp.jump then e.1.pastAt sr else e.1.past sr).sawM sp.eng
    let s2 := s1.setCtx c { y1 with qs := y1.qs ++ [e.2] }
    let s3 := match sp.pushed with
      | some d => if 48 ≤ d && d ≤ 53 then reserveChannel s2 c (d - 48) w.seq else s2
      | none => s2
    (s3, e.2)

/-- A destination channel has no free slot (R87, R235). -/
def creditStall (s : State) (c : Nat) (x : Ctx) (sp : CapSpec) : Bool :=
  match sp.pushed with
  | some d => decide (48 ≤ d) && decide (d ≤ 53) && !channelCredit s c x (d - 48)
  | none => false

/-- Unstarted words in a queue. -/
def Ctx.queued (x : Ctx) (e : Engine) : Nat := (x.qs.filter (fun w => w.eng == e)).length

/-- The word captured last has found its queue holding 16 words and is not yet steered into it (R32 step 8): its pops and
pushes are committed, and capture stalls. It stands listed behind them.
DEDUCED: notes/assumptions/81. -/
def Ctx.steering (x : Ctx) : Bool :=
  [Engine.s, .v, .m, .x, .y, .k].any (fun e => decide (Config.queueDepth < x.queued e))

/-- A trap of step 1 or of the number checks of step 2 (R32, R55): not while capture is shut, nor while the word captured last
still waits for its queue in step 8. -/
def captureEarly (s : State) (c : Nat) (x : Ctx) (e : Engine) (cause : Nat) (tval : Dword) : State :=
  if s.captureShut c x then s
  else if x.steering then s.setStall c x (.full s.cycle)
  else captureTrap s c x e cause tval

/-- A CSR whose value V, M, K and X words take at capture (R67). -/
def csrTaken (n : Nat) : Bool := decide (n ≤ 1) || (decide (7 ≤ n) && decide (n ≤ 0xF)) || decide (n = 0x11)

/-- The word is a `csrw` of one of them. -/
def QWord.setsTaken (w : QWord) : Bool :=
  match w.instr with
  | .csrw _ n => csrTaken n.toNat
  | _ => false

/-- An earlier `csrw` of a CSR that the engine's words take at capture has not completed (R67): every V, M, K and X word
uses them all.
DEDUCED: notes/assumptions/102. -/
def Ctx.csrPending (x : Ctx) (e : Engine) : Bool :=
  (e == .v || e == .m || e == .k || e == .x) && (x.qs.any QWord.setsTaken || x.fly.any (fun w => !w.finished && w.setsTaken))

/-- Steps 2 to 8 of R32 on the group in the latch of core c, where a context captures. `act` is what the word does as
it passes capture. R32 places neither the QPORT of an undeclared destination or pushed channel (R41) nor the HANDLE of an
HND prefix (R37, R219) among its steps: the first is raised after step 3 and before any operand is read, the second after
the operands and before the checks of steps 5 and 6.
DESIGN CHOICE: notes/assumptions/82. -/
def capture (i : Instr) (sp : CapSpec) (chk : State → Nat → Ctx → QWord → Chk) (act : State → Nat → QWord → State)
    (run : RunFn) (s : State) (c : Nat) (x : Ctx) : State :=
  if x.steering then s.setStall c x (.full s.cycle)
  else if sp.priv && !x.priv then captureTrap s c x sp.eng 5 (x.grp.raw.setWidth 64)
  else if sp.srcs.any (fun k => srcPending x k) || sp.preds.any (fun p => predPending x p)
      || (x.grp.pfx.hasMod && x.grp.pfx.maskOn && predPending x x.grp.pfx.pred) || (sp.afterS && x.sBusy)
      || x.csrPending sp.eng then
    s.setStall c x .score
  else if (match sp.pushed with | some d => destTrap x d | none => false) then
    captureTrap s c x sp.eng 6 (BitVec.ofNat 64 (sp.pushed.getD 0))
  else
    match readAll s c x sp.srcs [] [] with
    | .stall st => s.setStall c x st
    | .trap cause tval drop =>
      captureTrap s c x sp.eng cause tval drop
    | .ok vals pops =>
      if sp.mem && x.grp.pfx.hasHnd && (Map.at? x.hnd x.grp.pfx.handle).isNone then
        captureTrap s c x sp.eng 0xC (BitVec.ofNat 64 x.grp.pfx.handle)
      else
        match chk s c x (mkWord x i sp vals) with
        | .trap cause tval => captureTrap s c x sp.eng cause tval
        | .stall st => s.setStall c x st
        | .ok w =>
          if Config.q6Depth < (x.q6.length - pops.count 54) + q6Need sp then
            captureTrap s c x sp.eng 6 (BitVec.ofNat 64 (q6Need sp))
          else if creditStall s c x sp then s.setStall c x .credit
          else
            let r := commit s c sp x w pops
            let s1 := act r.1 c r.2
            if s.eager then tryStart run s1 c r.2.seq else s1

/-- Capture of the group in the latch of core `cur` (R32). -/
def issue (i : Instr) (sp : CapSpec) (chk : State → Nat → Ctx → QWord → Chk) (act : State → Nat → QWord → State)
    (run : RunFn) (s : State) : Res :=
  match s.ctx s.cur with
  | none => .next s
  | some x => if s.captureShut s.cur x then .next s else .next (capture i sp chk act run s s.cur x)

/-- A word that does nothing as it passes capture. -/
def noAct : State → Nat → QWord → State := fun s _ _ => s

/-- A run that only finishes the word. -/
def runNone : RunFn := fun s _ _ => .done s

/-- Finish an S word with a result and n flushed inputs, which count once, as it finishes (R68, R86, R87): a push into a full
mailbox waits (R293).
DESIGN CHOICE: notes/assumptions/75. -/
def finishFlushed (s : State) (c : Nat) (w : QWord) (n : Nat) (v : Dword) : RunRes :=
  match s.ctx c with
  | none => .done s
  | some x => if w.dst = some 55 && !oboxRoom s x then .hold s else .done (writeDst (noteFlush s c n) c w v)

/-- The same where nothing is flushed. -/
def finishWith (s : State) (c : Nat) (w : QWord) (v : Dword) : RunRes := finishFlushed s c w 0 v

end Sys2Proof.Machine
end

