-- ==== Sys2Proof/Machine/Trans.lean ====
section
/-! DEFINITION. Square roots and the transcendental functions (R73, R118, R119): each answers a value finer than any
rounding of R64 looks at: an exact one, or a floor with the sticky bit. Irrational results are computed in fixed point
with 400 fraction bits and cut to 330 (notes/assumptions/14); arguments so large (where e^-x is 0 in those bits too) or
so small that the result lies closer than that to a simple value are answered by that value and the side it lies on. -/

namespace Sys2Proof.Machine

/-- Integer square root, one bit at a time from bit k - 1 down. -/
def isqrtBits (n : Nat) : Nat → Nat → Nat
  | 0, r => r
  | k + 1, r => isqrtBits n k (if (r + 2 ^ k) * (r + 2 ^ k) ≤ n then r + 2 ^ k else r)

def isqrt (n : Nat) : Nat := isqrtBits n (Nat.log2 n / 2 + 1) 0

/-- The square root (R93, R119): of -0 it is -0, of a negative value NaN. -/
def Num.sqrt : Num → Num
  | .nan => .nan
  | .inf neg => if neg then .nan else .inf false
  | .fin neg m e _ =>
    if m = 0 then .zero neg
    else if neg then .nan
    else
      let sh : Nat := if e % 2 = 0 then 400 else 401
      let n := m * 2 ^ sh
      let r := isqrt n
      .fin false r ((e - (sh : Int)) / 2) (decide (r * r ≠ n))

/-- 1/x (R119). -/
def Num.rcp (x : Num) : Num := Num.div (.fin false 1 0 false) x

/-- 1/sqrt x (R119). -/
def Num.rsqrt : Num → Num
  | .nan => .nan
  | .inf neg => if neg then .nan else .zero false
  | .fin neg m e _ =>
    if m = 0 then .inf neg
    else if neg then .nan
    else
      -- x = m * 2^e; with p - e even, 1/sqrt x = sqrt (2^p / m) * 2^(-(p + e)/2)
      let p := 700 + Nat.log2 m
      let q := if ((p : Int) + e) % 2 = 0 then p else p + 1
      let r := isqrt (2 ^ q / m)
      .fin false r (-(((q : Int) + e) / 2)) (decide (r * r * m ≠ 2 ^ q))

/-! ## Fixed point with 400 fraction bits -/

/-- The unit. -/
def fxOne : Nat := 2 ^ 400

/-- ln 2, by the sum of 1 / (k 2^k). -/
def ln2Sum : Nat → Nat
  | 0 => 0
  | k + 1 => 2 ^ 420 / ((k + 1) * 2 ^ (k + 1)) + ln2Sum k

def fxLn2 : Nat := ln2Sum 420 / 2 ^ 20

/-- e^z - 1 terms: sum of z^k / k! from a term. -/
def expSum (z : Nat) : Nat → Nat → Nat → Nat
  | 0, _, _ => 0
  | n + 1, k, term => term + expSum z n (k + 1) (term * z / fxOne / (k + 1))

/-- e^z for 0 ≤ z < 1, in fixed point.
DEDUCED: notes/assumptions/14. -/
def fxExp (z : Nat) : Nat := expSum z 100 0 fxOne

/-- atanh series: sum of z^(2j+1) / (2j+1). -/
def atanhSum (z2 : Nat) : Nat → Nat → Nat → Nat
  | 0, _, _ => 0
  | n + 1, j, term => term / (2 * j + 1) + atanhSum z2 n (j + 1) (term * z2 / fxOne)

/-- ln x for 1 ≤ x < 2, in fixed point. -/
def fxLn (x : Nat) : Nat :=
  let z := (x - fxOne) * fxOne / (x + fxOne)
  2 * atanhSum (z * z / fxOne) 140 0 z

/-- Cut a fixed-point value to 330 fraction bits, sticky: the floor of an irrational value. -/
def fxNum (neg : Bool) (v : Nat) : Num := .fin neg (v / 2 ^ 70) (-330) true

/-- A magnitude as fixed point (exact: every argument is a multiple of 2^-400). -/
def toFx (m : Nat) (e : Int) : Nat := if 0 ≤ e + 400 then m * 2 ^ (e + 400).toNat else m / 2 ^ (-(e + 400)).toNat

/-- |x| is below 2^-60, or at least 2^9 (x not zero). -/
def tinyArg (m : Nat) (e : Int) : Bool := decide ((Nat.log2 m : Int) + e < -60)
def hugeArg (m : Nat) (e : Int) : Bool := decide (9 ≤ (Nat.log2 m : Int) + e)

/-- A positive value too small for any rounding to see but its sign. -/
def Num.speck (neg : Bool) : Num := .fin neg 1 (-2000) true

/-- c * 2^e less a speck, and plus a speck. -/
def justBelow (neg : Bool) (c : Nat) (e : Int) : Num := .fin neg (c * 2 ^ 200 - 1) (e - 200) true
def justAbove (neg : Bool) (c : Nat) (e : Int) : Num := .fin neg (c * 2 ^ 200) (e - 200) true

/-- e^x for |x| < 2^9, as n and r with e^x = 2^n * e^r and 0 ≤ r < ln 2. -/
def expSplit (neg : Bool) (x : Nat) : Int × Nat :=
  let q := x / fxLn2
  let r := x % fxLn2
  if neg then (if r = 0 then (-(q : Int), 0) else (-(q : Int) - 1, fxLn2 - r)) else ((q : Int), r)

/-- e^x in fixed point for |x| < 2^9. -/
def fxExpSigned (neg : Bool) (x : Nat) : Nat :=
  let s := expSplit neg x
  if 0 ≤ s.1 then fxExp s.2 * 2 ^ s.1.toNat else fxExp s.2 / 2 ^ (-s.1).toNat

/-- 2^x (R119). -/
def Num.exp2 : Num → Num
  | .nan => .nan
  | .inf neg => if neg then .zero false else .inf false
  | .fin neg m e _ =>
    if m = 0 then .fin false 1 0 false
    else if hugeArg m e then (if neg then .speck false else .fin false 1 2000 false)
    else
      let x := toFx m e
      let n : Int := if neg then -(ceilDivFx x : Int) else (x / fxOne : Nat)
      let fr := if neg then ceilDivFx x * fxOne - x else x % fxOne
      if fr = 0 then .fin false 1 n false
      else .fin false (fxExp (fr * fxLn2 / fxOne) / 2 ^ 70) (n - 330) true
where ceilDivFx (x : Nat) : Nat := (x + fxOne - 1) / fxOne

/-- log2 x (R119): exact at powers of two. -/
def Num.log2 : Num → Num
  | .nan => .nan
  | .inf neg => if neg then .nan else .inf false
  | .fin neg m e _ =>
    if m = 0 then .inf true
    else if neg then .nan
    else
      let k := Nat.log2 m
      let n : Int := (k : Int) + e
      if m = 2 ^ k then Num.ofInt n
      else
        let f := fxLn (m * 2 ^ 400 / 2 ^ k) * fxOne / fxLn2
        let v : Int := n * (fxOne : Int) + f
        if 0 ≤ v then fxNum false v.toNat else fxNum true (-v).toNat

/-- tanh x (R119). -/
def Num.tanh : Num → Num
  | .nan => .nan
  | .inf neg => .fin neg 1 0 false
  | .fin neg m e _ =>
    if m = 0 then .zero neg
    else if tinyArg m e then justBelow neg m e
    else if hugeArg m e then justBelow neg 1 0
    else
      let t := fxExpSigned true (2 * toFx m e)
      if t = 0 then justBelow neg 1 0 else fxNum neg ((fxOne - t) * fxOne / (fxOne + t))

/-- σ(x) = 1/(1 + e^-x) (R119). -/
def Num.sigm : Num → Num
  | .nan => .nan
  | .inf neg => if neg then .zero false else .fin false 1 0 false
  | .fin neg m e _ =>
    if m = 0 then .fin false 1 (-1) false
    else if tinyArg m e then
      -- 1/2 + x/4 less (x > 0) or plus (x < 0) less than x^3
      let half := 2 ^ (1 - e + 200).toNat
      if neg then .fin false (half - m * 2 ^ 200) (e - 202) true else .fin false (half + m * 2 ^ 200 - 1) (e - 202) true
    else if hugeArg m e then (if neg then .speck false else justBelow false 1 0)
    else
      let x := toFx m e
      let t := fxExpSigned true x
      if neg then fxNum false (t * fxOne / (fxOne + t))
      else if t = 0 then justBelow false 1 0 else fxNum false (fxOne * fxOne / (fxOne + t))

/-- x * σ(x) (R119). -/
def Num.silu : Num → Num
  | .nan => .nan
  | .inf neg => if neg then .zero true else .inf false
  | .fin neg m e _ =>
    if m = 0 then .zero neg
    else if tinyArg m e then
      -- x/2 + x^2/4 less a speck: for x > 0 below, for x < 0 a magnitude above
      let lin := m * 2 ^ (1 - e + 200).toNat
      let sq := m * m * 2 ^ 200
      if neg then .fin true (lin - sq) (2 * e - 202) true else .fin false (lin + sq - 1) (2 * e - 202) true
    else if hugeArg m e then (if neg then .speck true else justBelow false m e)
    else
      let x := toFx m e
      let t := fxExpSigned true x
      if neg then fxNum true (x * t / (fxOne + t))
      else if t = 0 then justBelow false m e else fxNum false (x * fxOne / (fxOne + t))

/-- floor x and the integer x rounds to in a mode, as values (R118): infinities and NaN stand. -/
def Num.toInteger (mode r : Nat) : Num → Num
  | .fin neg m e st => .fin neg (roundMag mode r neg m e st 0) 0 false
  | v => v

end Sys2Proof.Machine
end

