-- ==== Sys2Proof/Machine/Scalar.lean ====
section
/-! DEFINITION. The scalar arithmetic, compare, predicate, shape-record and CSR words (06_scalar_engine R91-R99). -/

namespace Sys2Proof.Machine

/-! ## Results (R91, R92) -/

def op0 (w : QWord) : Dword := w.ops.getD 0 0
def op1 (w : QWord) : Dword := w.ops.getD 1 0

/-- Truncated signed division with the fixed results of R92. -/
def divS (a b : Dword) : Dword := if b = 0 then BitVec.allOnes 64 else BitVec.ofInt 64 (a.toInt.tdiv b.toInt)
def divU (a b : Dword) : Dword := if b = 0 then BitVec.allOnes 64 else BitVec.ofNat 64 (a.toNat / b.toNat)
def remS (a b : Dword) : Dword := if b = 0 then a else BitVec.ofInt 64 (a.toInt.tmod b.toInt)
def remU (a b : Dword) : Dword := if b = 0 then a else BitVec.ofNat 64 (a.toNat % b.toNat)

def mulHigh (a b : Dword) : Dword := BitVec.ofInt 64 (a.toInt * b.toInt / 2 ^ 64)
def mulHighU (a b : Dword) : Dword := BitVec.ofNat 64 (a.toNat * b.toNat / 2 ^ 64)

def shlD (a b : Dword) : Dword := a <<< (b.toNat % 64)
def shrD (a b : Dword) : Dword := a >>> (b.toNat % 64)
def sraD (a b : Dword) : Dword := a.sshiftRight (b.toNat % 64)
def rotlD (a b : Dword) : Dword := a.rotateLeft (b.toNat % 64)

/-- Leading zeros from bit k - 1 down; ones of the low k bits. -/
def clzFrom (a : Dword) : Nat → Nat
  | 0 => 0
  | k + 1 => if a.getLsbD k then 0 else 1 + clzFrom a k

def ctzFrom (a : Dword) : Nat → Nat → Nat
  | 0, _ => 0
  | n + 1, i => if a.getLsbD i then 0 else 1 + ctzFrom a n (i + 1)

def popFrom (a : Dword) : Nat → Nat
  | 0 => 0
  | k + 1 => (if a.getLsbD k then 1 else 0) + popFrom a k

/-- The rounding of an S word: the effective mode, element index 0 (R66, R93). -/
def rnd0 (w : QWord) : Rnd := { mode := w.rnd, r := srValue w.seed w.srq 0, sat := false, ftz := w.ftz }

/-- Bits 31:0 of an operand as FP32 after input flush (R93). -/
def fp (w : QWord) (v : Dword) : Num := floatVal 1 (flushIn w.ftz 1 (v.toNat % 2 ^ 32)).1

def fpOut (w : QWord) (v : Num) : Dword := BitVec.ofNat 64 (roundFloat 1 (rnd0 w) v)

/-! ## The shapes of scalar words -/

/-- An S word with sources and a destination whose result is a function of its operands and immediate (R86, R91). -/
def scalarRun (f : QWord → Dword) : RunFn := fun s c w => finishWith s c w (f w)

/-- The same for the FP32 group: flushed inputs are counted (R68, R93). -/
def fpRun (f : QWord → Dword) : RunFn := fun s c w => finishFlushed s c w (flushCount w.ftz w.ops) (f w)

/-- Capture of an S word with operand fields and a destination. -/
def scalar (i : Instr) (d : BitVec 6) (srcs : List (BitVec 6)) (run : RunFn) (s : State) : Res :=
  issue i { eng := .s, srcs := srcs.map BitVec.toNat, dst := some d.toNat } noChk noAct run s

/-- Capture of an S word with an immediate. -/
def scalarImm {n : Nat} (i : Instr) (d : BitVec 6) (srcs : List (BitVec 6)) (imm : BitVec n) (run : RunFn) (s : State) : Res :=
  issue i { eng := .s, srcs := srcs.map BitVec.toNat, dst := some d.toNat }
    (fun _ _ _ w => .ok { w with imm := immOf w.pfx imm }) noAct run s

/-! ## Integer words (R91) -/

def runNop : RunFn := runNone
def execNop (s : State) : Res := issue .nop { eng := .s } noChk noAct runNop s

def runAdd : RunFn := scalarRun (fun w => op0 w + op1 w)
def execAdd (d a b : BitVec 6) (s : State) : Res := scalar (.add d a b) d [a, b] runAdd s
def runSub : RunFn := scalarRun (fun w => op0 w - op1 w)
def execSub (d a b : BitVec 6) (s : State) : Res := scalar (.sub d a b) d [a, b] runSub s
def runMul : RunFn := scalarRun (fun w => op0 w * op1 w)
def execMul (d a b : BitVec 6) (s : State) : Res := scalar (.mul d a b) d [a, b] runMul s
def runMulh : RunFn := scalarRun (fun w => mulHigh (op0 w) (op1 w))
def execMulh (d a b : BitVec 6) (s : State) : Res := scalar (.mulh d a b) d [a, b] runMulh s
def runMulhu : RunFn := scalarRun (fun w => mulHighU (op0 w) (op1 w))
def execMulhu (d a b : BitVec 6) (s : State) : Res := scalar (.mulhu d a b) d [a, b] runMulhu s
def runDiv : RunFn := scalarRun (fun w => divS (op0 w) (op1 w))
def execDiv (d a b : BitVec 6) (s : State) : Res := scalar (.div d a b) d [a, b] runDiv s
def runDivu : RunFn := scalarRun (fun w => divU (op0 w) (op1 w))
def execDivu (d a b : BitVec 6) (s : State) : Res := scalar (.divu d a b) d [a, b] runDivu s
def runRem : RunFn := scalarRun (fun w => remS (op0 w) (op1 w))
def execRem (d a b : BitVec 6) (s : State) : Res := scalar (.rem d a b) d [a, b] runRem s
def runRemu : RunFn := scalarRun (fun w => remU (op0 w) (op1 w))
def execRemu (d a b : BitVec 6) (s : State) : Res := scalar (.remu d a b) d [a, b] runRemu s
def runAnd : RunFn := scalarRun (fun w => op0 w &&& op1 w)
def execAnd (d a b : BitVec 6) (s : State) : Res := scalar (.and d a b) d [a, b] runAnd s
def runOr : RunFn := scalarRun (fun w => op0 w ||| op1 w)
def execOr (d a b : BitVec 6) (s : State) : Res := scalar (.or d a b) d [a, b] runOr s
def runXor : RunFn := scalarRun (fun w => op0 w ^^^ op1 w)
def execXor (d a b : BitVec 6) (s : State) : Res := scalar (.xor d a b) d [a, b] runXor s
def runAndn : RunFn := scalarRun (fun w => op0 w &&& ~~~ op1 w)
def execAndn (d a b : BitVec 6) (s : State) : Res := scalar (.andn d a b) d [a, b] runAndn s
def runShl : RunFn := scalarRun (fun w => shlD (op0 w) (op1 w))
def execShl (d a b : BitVec 6) (s : State) : Res := scalar (.shl d a b) d [a, b] runShl s
def runShr : RunFn := scalarRun (fun w => shrD (op0 w) (op1 w))
def execShr (d a b : BitVec 6) (s : State) : Res := scalar (.shr d a b) d [a, b] runShr s
def runSra : RunFn := scalarRun (fun w => sraD (op0 w) (op1 w))
def execSra (d a b : BitVec 6) (s : State) : Res := scalar (.sra d a b) d [a, b] runSra s
def runRotl : RunFn := scalarRun (fun w => rotlD (op0 w) (op1 w))
def execRotl (d a b : BitVec 6) (s : State) : Res := scalar (.rotl d a b) d [a, b] runRotl s
def runMin : RunFn := scalarRun (fun w => if (op0 w).toInt < (op1 w).toInt then op0 w else op1 w)
def execMin (d a b : BitVec 6) (s : State) : Res := scalar (.min d a b) d [a, b] runMin s
def runMax : RunFn := scalarRun (fun w => if (op0 w).toInt < (op1 w).toInt then op1 w else op0 w)
def execMax (d a b : BitVec 6) (s : State) : Res := scalar (.max d a b) d [a, b] runMax s
def runMinu : RunFn := scalarRun (fun w => if (op0 w).toNat < (op1 w).toNat then op0 w else op1 w)
def execMinu (d a b : BitVec 6) (s : State) : Res := scalar (.minu d a b) d [a, b] runMinu s
def runMaxu : RunFn := scalarRun (fun w => if (op0 w).toNat < (op1 w).toNat then op1 w else op0 w)
def execMaxu (d a b : BitVec 6) (s : State) : Res := scalar (.maxu d a b) d [a, b] runMaxu s
def runClz : RunFn := scalarRun (fun w => BitVec.ofNat 64 (clzFrom (op0 w) 64))
def execClz (d a : BitVec 6) (s : State) : Res := scalar (.clz d a) d [a] runClz s
def runCtz : RunFn := scalarRun (fun w => BitVec.ofNat 64 (ctzFrom (op0 w) 64 0))
def execCtz (d a : BitVec 6) (s : State) : Res := scalar (.ctz d a) d [a] runCtz s
def runPopc : RunFn := scalarRun (fun w => BitVec.ofNat 64 (popFrom (op0 w) 64))
def execPopc (d a : BitVec 6) (s : State) : Res := scalar (.popc d a) d [a] runPopc s

def runAddi : RunFn := scalarRun (fun w => op0 w + w.imm)
def execAddi (d a : BitVec 6) (i : BitVec 11) (s : State) : Res := scalarImm (.addi d a i) d [a] i runAddi s
def runAndi : RunFn := scalarRun (fun w => op0 w &&& w.imm)
def execAndi (d a : BitVec 6) (i : BitVec 11) (s : State) : Res := scalarImm (.andi d a i) d [a] i runAndi s
def runOri : RunFn := scalarRun (fun w => op0 w ||| w.imm)
def execOri (d a : BitVec 6) (i : BitVec 11) (s : State) : Res := scalarImm (.ori d a i) d [a] i runOri s
def runXori : RunFn := scalarRun (fun w => op0 w ^^^ w.imm)
def execXori (d a : BitVec 6) (i : BitVec 11) (s : State) : Res := scalarImm (.xori d a i) d [a] i runXori s
def runShli : RunFn := scalarRun (fun w => shlD (op0 w) w.imm)
def execShli (d a : BitVec 6) (i : BitVec 11) (s : State) : Res := scalarImm (.shli d a i) d [a] i runShli s
def runShri : RunFn := scalarRun (fun w => shrD (op0 w) w.imm)
def execShri (d a : BitVec 6) (i : BitVec 11) (s : State) : Res := scalarImm (.shri d a i) d [a] i runShri s
def runSrai : RunFn := scalarRun (fun w => sraD (op0 w) w.imm)
def execSrai (d a : BitVec 6) (i : BitVec 11) (s : State) : Res := scalarImm (.srai d a i) d [a] i runSrai s
def runMuli : RunFn := scalarRun (fun w => op0 w * w.imm)
def execMuli (d a : BitVec 6) (i : BitVec 11) (s : State) : Res := scalarImm (.muli d a i) d [a] i runMuli s
def runLi : RunFn := scalarRun (fun w => w.imm)
def execLi (d : BitVec 6) (i : BitVec 11) (s : State) : Res := scalarImm (.li d i) d [] i runLi s

/-! ## FP32 words (R93) -/

def runFadd : RunFn := fpRun (fun w => fpOut w (Num.add w.rnd (fp w (op0 w)) (fp w (op1 w))))
def execFadd (d a b : BitVec 6) (s : State) : Res := scalar (.fadd d a b) d [a, b] runFadd s
def runFsub : RunFn := fpRun (fun w => fpOut w (Num.add w.rnd (fp w (op0 w)) (fp w (op1 w)).negate))
def execFsub (d a b : BitVec 6) (s : State) : Res := scalar (.fsub d a b) d [a, b] runFsub s
def runFmul : RunFn := fpRun (fun w => fpOut w (Num.mul (fp w (op0 w)) (fp w (op1 w))))
def execFmul (d a b : BitVec 6) (s : State) : Res := scalar (.fmul d a b) d [a, b] runFmul s
def runFdiv : RunFn := fpRun (fun w => fpOut w (Num.div (fp w (op0 w)) (fp w (op1 w))))
def execFdiv (d a b : BitVec 6) (s : State) : Res := scalar (.fdiv d a b) d [a, b] runFdiv s
def runFmin : RunFn := fpRun (fun w => fpOut w (Num.minN (fp w (op0 w)) (fp w (op1 w))))
def execFmin (d a b : BitVec 6) (s : State) : Res := scalar (.fmin d a b) d [a, b] runFmin s
def runFmax : RunFn := fpRun (fun w => fpOut w (Num.maxN (fp w (op0 w)) (fp w (op1 w))))
def execFmax (d a b : BitVec 6) (s : State) : Res := scalar (.fmax d a b) d [a, b] runFmax s
/-- The sign bit cleared, every other bit kept: no flush, no rounding (R61, R93). -/
def runFabs : RunFn := scalarRun (fun w => op0 w &&& 0x7FFFFFFF#64)
def execFabs (d a : BitVec 6) (s : State) : Res := scalar (.fabs d a) d [a] runFabs s
/-- The sign bit inverted (R61, R93). -/
def runFneg : RunFn := scalarRun (fun w => (op0 w &&& 0xFFFFFFFF#64) ^^^ 0x80000000#64)
def execFneg (d a : BitVec 6) (s : State) : Res := scalar (.fneg d a) d [a] runFneg s
def runFsqrt : RunFn := fpRun (fun w => fpOut w (Num.sqrt (fp w (op0 w))))
def execFsqrt (d a : BitVec 6) (s : State) : Res := scalar (.fsqrt d a) d [a] runFsqrt s
/-- A signed 64-bit integer rounded once to FP32; its operand is no float and is not flushed. -/
def runFcvtFw : RunFn := scalarRun (fun w => fpOut w (Num.ofInt (op0 w).toInt))
def execFcvtFw (d a : BitVec 6) (s : State) : Res := scalar (.fcvtFw d a) d [a] runFcvtFw s
/-- FP32 rounded to an integer and clamped (R71, R93). -/
def runFcvtWf : RunFn := fpRun (fun w =>
  BitVec.ofInt 64 (roundInt (-(2 ^ 63)) (2 ^ 63 - 1) w.rnd (rnd0 w).r (fp w (op0 w))))
def execFcvtWf (d a : BitVec 6) (s : State) : Res := scalar (.fcvtWf d a) d [a] runFcvtWf s

/-! ## Compares, predicates and selection (R94-R97) -/

/-- Write a predicate and finish. -/
def setPredRun (p : BitVec 7) (f : Ctx → QWord → Pred) : RunFn := fun s c w =>
  .done (s.modCtx c (fun x => x.setPred p.toNat (f x w)))

def runCmp (p : BitVec 7) (k : BitVec 4) : RunFn := fun s c w =>
  setPredRun p (fun _ w => if condHolds k.toNat w.ftz (op0 w) (op1 w) then BitVec.allOnes 128 else 0)
    (noteFlush s c (if k.toNat < 6 then 0 else flushCount w.ftz w.ops)) c w
def execCmp (p : BitVec 7) (a b : BitVec 6) (c : BitVec 4) (s : State) : Res :=
  issue (.cmp p a b c) { eng := .s, srcs := [a.toNat, b.toNat], dstP := some p.toNat } noChk noAct (runCmp p c) s

def predSpec (d a b : BitVec 7) : CapSpec := { eng := .s, dstP := some d.toNat, preds := [a.toNat, b.toNat] }

def runPand (d a b : BitVec 7) : RunFn := setPredRun d (fun x _ => x.pred a.toNat &&& x.pred b.toNat)
def execPand (d a b : BitVec 7) (s : State) : Res := issue (.pand d a b) (predSpec d a b) noChk noAct (runPand d a b) s
def runPor (d a b : BitVec 7) : RunFn := setPredRun d (fun x _ => x.pred a.toNat ||| x.pred b.toNat)
def execPor (d a b : BitVec 7) (s : State) : Res := issue (.por d a b) (predSpec d a b) noChk noAct (runPor d a b) s
def runPxor (d a b : BitVec 7) : RunFn := setPredRun d (fun x _ => x.pred a.toNat ^^^ x.pred b.toNat)
def execPxor (d a b : BitVec 7) (s : State) : Res := issue (.pxor d a b) (predSpec d a b) noChk noAct (runPxor d a b) s
def runPandn (d a b : BitVec 7) : RunFn := setPredRun d (fun x _ => x.pred a.toNat &&& ~~~ x.pred b.toNat)
def execPandn (d a b : BitVec 7) (s : State) : Res := issue (.pandn d a b) (predSpec d a b) noChk noAct (runPandn d a b) s

/-- The value of a predicate's bit 0 or half as capture reads it, kept in the word (R89, R96, R97). -/
def chkCap (f : Ctx → QWord → Dword) : State → Nat → Ctx → QWord → Chk := fun _ _ x w => .ok { w with cap := f x w }

def runCsel : RunFn := scalarRun (fun w => if w.cap = 1 then op0 w else op1 w)
def execCsel (d a b : BitVec 6) (p : BitVec 5) (s : State) : Res :=
  issue (.csel d a b p) { eng := .s, srcs := [a.toNat, b.toNat], dst := some d.toNat, preds := [p.toNat] }
    (chkCap (fun x _ => if (x.pred p.toNat).getLsbD 0 then 1 else 0)) noAct runCsel s

def runPget : RunFn := scalarRun (fun w => w.cap)
def execPget (d : BitVec 6) (p : BitVec 7) (h : BitVec 1) (s : State) : Res :=
  issue (.pget d p h) { eng := .s, dst := some d.toNat, preds := [p.toNat] }
    (chkCap (fun x _ => (x.pred p.toNat).extractLsb' (64 * h.toNat) 64)) noAct runPget s

def runPput (p : BitVec 7) (h : BitVec 1) : RunFn :=
  setPredRun p (fun x w => setBits (x.pred p.toNat) (64 * h.toNat) 64 (op0 w).toNat)
def execPput (a : BitVec 6) (p : BitVec 7) (h : BitVec 1) (s : State) : Res :=
  issue (.pput a p h) { eng := .s, srcs := [a.toNat], dstP := some p.toNat, preds := [p.toNat] } noChk noAct (runPput p h) s

/-! ## Shape records (R98) -/

/-- The record changes as the word passes capture. -/
def runTshape : RunFn := runNone
def execTshape (a : BitVec 6) (t : BitVec 6) (s : State) : Res :=
  issue (.tshape a t) { eng := .s, srcs := [a.toNat] } noChk
    (fun s c w => s.modCtx c (fun x => { x with shapes := Map.put 0 x.shapes t.toNat ((op0 w).setWidth 32) })) runTshape s

def runRdshape : RunFn := scalarRun (fun w => w.cap)
def execRdshape (d : BitVec 6) (t : BitVec 6) (s : State) : Res :=
  issue (.rdshape d t) { eng := .s, dst := some d.toNat }
    (chkCap (fun x _ => (Map.get 0 x.shapes t.toNat).setWidth 64)) noAct runRdshape s

/-! ## CSRs (R55, R99, R109, R110, R302) -/

/-- The CSR numbers of R55. -/
def csrExists (n : Nat) : Bool :=
  n ≤ 0x012 || (0x100 ≤ n && n ≤ 0x108) || (0x110 ≤ n && n ≤ 0x11F) || (0x800 ≤ n && n ≤ 0x808)

/-- A CSR as it stands (R109, R110, R302). -/
def csrRead (s : State) (c : Nat) (x : Ctx) (n : Nat) : Dword :=
  let t := s.tenant x.tenant
  let v : Nat :=
    if n = 0x000 then x.rnd else if n = 0x001 then x.ftz else if n = 0x002 then x.step else if n = 0x003 then x.sacage
    else if n = 0x004 then x.gbase else if n = 0x005 then x.gpitch else if n = 0x006 then x.swz else if n = 0x007 then x.bfxsel
    else if n ≤ 0x00F then (Map.get 0 x.bfx (8 * (x.bfxsel % 8) + (n - 8))).toNat
    else if n = 0x010 then x.rpbase.toNat else if n = 0x011 then x.srseed.toNat else if n = 0x012 then x.qtmo
    else if n = 0x100 then c else if n = 0x101 then dieOf c else if n = 0x102 then clusOf c else if n = 0x103 then x.tenant
    else if n = 0x104 then x.spanid % 2 ^ 32 else if n = 0x105 then s.cycle else if n = 0x106 then x.lnr else if n = 0x107 then x.fmtIndex
    else if n = 0x108 then x.sticky.toNat
    else if n < 0x800 then (Map.get 0 (s.core c).ev (n - 0x110)).toNat
    else if n = 0x800 then x.epc else if n = 0x801 then x.cause else if n = 0x802 then x.tval.toNat
    else if n = 0x803 then x.pstat.toNat else if n = 0x804 then Map.get 0 (s.core c).tvec x.tenant
    else if n = 0x805 then t.ptbase else if n = 0x806 then t.tenctl else if n = 0x807 then t.scap else t.qmax
  BitVec.ofNat 64 v

/-- Bits of an extraction word that are kept: word 0 of a set holds the count and period too (R82). -/
def bfxKeep (k : Nat) (v : Dword) : Dword := v &&& (if k = 0 then 0x00000F7F0FFF0FFF#64 else 0x000000000FFF0FFF#64)

/-- The bits of a value that a user CSR keeps (R65, R66, R68, R82, R109); those of an extraction word apart. -/
def csrKeep (n u : Nat) : Nat :=
  if n = 0x000 then (if 5 ≤ u % 8 then 0 else u % 8)
  else if n = 0x001 then u % 4
  else if n = 0x002 then u % 65536
  else if n = 0x003 then u % 65536
  else if n = 0x004 then bits u 7 13 * 128
  else if n = 0x005 then bits u 7 13 * 128
  else if n = 0x006 then u % 2 ^ 18
  else if n = 0x007 then bits u 4 3 * 16 + u % 8
  else if n = 0x012 then u % 2 ^ 32
  else u

/-- The effect of `csrw` on a read-write CSR (R65, R66, R68, R82, R109, R302). -/
def csrWrite (s : State) (c : Nat) (n : Nat) (v : Dword) : State :=
  let u := v.toNat
  if n = 0x804 then
    match s.ctx c with
    | some x => s.modCore c (fun k => { k with tvec := Map.put 0 k.tvec x.tenant (u / 4 * 4) })
    | none => s
  else s.modCtx c (fun x =>
    if n = 0x000 then { x with rnd := csrKeep 0x000 u }
    else if n = 0x001 then { x with ftz := csrKeep 0x001 u }
    else if n = 0x002 then { x with step := csrKeep 0x002 u }
    else if n = 0x003 then { x with sacage := csrKeep 0x003 u }
    else if n = 0x004 then { x with gbase := csrKeep 0x004 u }
    else if n = 0x005 then { x with gpitch := csrKeep 0x005 u }
    else if n = 0x006 then { x with swz := csrKeep 0x006 u }
    else if n = 0x007 then { x with bfxsel := csrKeep 0x007 u }
    else if n ≤ 0x00F then { x with bfx := Map.put 0 x.bfx (8 * (x.bfxsel % 8) + (n - 8)) (bfxKeep (n - 8) v) }
    else if n = 0x010 then { x with rpbase := v }
    else if n = 0x011 then { x with srseed := v.setWidth 32, srctr := 0 }
    else if n = 0x012 then { x with qtmo := csrKeep 0x012 u }
    else if n = 0x800 then { x with epc := u / 4 * 4 }
    else if n = 0x801 then { x with cause := u % 256 }
    else if n = 0x802 then { x with tval := v }
    else { x with pstat := setBits x.pstat 6 1 (bits u 6 1) })

def csrWritable (n : Nat) : Bool := n ≤ 0x012 || (0x800 ≤ n && n ≤ 0x804)

/-- Number and privilege checks of a CSR word (R55, R302): a number absent from the table, or a write of a read-only
CSR, is ILLEGAL; a privileged number in user mode, and a write of 0x805-0x808 in any mode, is PRIV. -/
def csrTrap (x : Ctx) (n : Nat) (write : Bool) : Option Nat :=
  if !csrExists n then some 1
  else if write && n < 0x800 && !csrWritable n then some 1
  else if 0x800 ≤ n && !x.priv then some 5
  else if write && 0x805 ≤ n then some 5
  else none

def runCsrr : RunFn := scalarRun (fun w => w.cap)
/-- The checks of R55 belong to steps 1 and 2 of R32, before any operand is read. The value is read once capture waits no
more, so that a stall counter has the stall just over. -/
def execCsrr (d : BitVec 6) (c : BitVec 12) (s : State) : Res :=
  match s.ctx s.cur with
  | none => .next s
  | some x =>
    match csrTrap x c.toNat false with
    | some cause => .next (captureEarly s s.cur x .s cause (x.grp.raw.setWidth 64))
    | none =>
      issue (.csrr d c) { eng := .s, dst := some d.toNat }
        (fun s k x w => .ok { w with cap := csrRead (endStall s k x) k x c.toNat }) noAct runCsrr s

def runCsrw : RunFn := runNone
/-- The write takes effect as the word passes capture (R99); a `csrw` of `srseed` takes no stochastic number (R66). -/
def execCsrw (a : BitVec 6) (c : BitVec 12) (s : State) : Res :=
  match s.ctx s.cur with
  | none => .next s
  | some x =>
    match csrTrap x c.toNat true with
    | some cause => .next (captureEarly s s.cur x .s cause (x.grp.raw.setWidth 64))
    | none =>
      issue (.csrw a c) { eng := .s, srcs := [a.toNat], sys := c.toNat = 0x011 } noChk
        (fun s k w => csrWrite s k c.toNat (op0 w)) runCsrw s

end Sys2Proof.Machine
end

