-- ==== Sys2Proof/Machine/Control.lean ====
section
/-! DEFINITION. Scalar memory access and control flow (06_scalar_engine R100-R107). -/

namespace Sys2Proof.Machine

/-! ## Addresses (R100) -/

/-- (base + 8 * disp) AND NOT 7. -/
def smAddr (base imm : Dword) : Nat := (base + 8 * imm).toNat / 8 * 8

/-- The unit of the scratchpad row that holds a byte. -/
def spadUnitOf (a : Nat) : Nat := spadUnit (a / 128)

/-! ## Flag words (R101, R229, R232) -/

/-- The condition of a `flag.wait` on a word's value (R232). -/
def flagHolds (v b : Dword) : Bool :=
  if bits v.toNat 32 16 = 0 then decide (b.toNat % 2 ^ 32 ≤ v.toNat % 2 ^ 32) else decide (bit v.toNat 48 = bit b.toNat 0)

/-- A flag word of a core. -/
def Core.flag (k : Core) (w : Nat) : Dword := k.spadWord (flagAddr w)

/-- Every `flag.wait` pending on word w tests its condition after a change; a test that holds is kept (R232). -/
def Ctx.retestFlags (x : Ctx) (w : Nat) (v : Dword) : Ctx :=
  { x with fly := x.fly.map (fun q =>
      match q.instr with
      | .flagWait _ _ => if q.waiting && decide ((op0 q).toNat % 128 = w) && flagHolds v (op1 q) then { q with cap := 1 } else q
      | _ => q) }

/-- Replace a flag word and let its waiters test (R101, R230, R231). -/
def State.setFlag (s : State) (c w : Nat) (v : Dword) : State :=
  let s1 := s.modCore c (fun k => k.setSpadWord (flagAddr w) v)
  s1.modCtx c (fun x => x.retestFlags w v)

/-! ## The four words (R100-R103) -/

/-- Address check of `lds` and `sts`: BOUNDS at 0xC_0000 and above (R101). -/
def chkSpadWord {n : Nat} (disp : BitVec n) (store : Bool) : State → Nat → Ctx → QWord → Chk := fun _ _ _ w =>
  let a := smAddr (w.ops.getD (if store then 1 else 0) 0) (immOf w.pfx disp)
  if Config.spadBytes ≤ a then .trap 4 (w.raw.setWidth 64)
  else .ok { w with pa := a, foot := [⟨false, a, a + 8⟩], units := [spadUnitOf a] }

def runLds : RunFn := fun s c w =>
  if w.pa / 128 ∈ (s.core c).spadPoison then .trap 9 (BitVec.ofNat 64 (w.pa / 128 * 128)) s
  else finishWith s c w ((s.core c).spadWord w.pa)
def execLds (d b : BitVec 6) (i : BitVec 11) (s : State) : Res :=
  issue (.lds d b i) { eng := .s, srcs := [b.toNat], dst := some d.toNat, mem := true } (chkSpadWord i false) noAct runLds s

def runSts : RunFn := fun s c w =>
  if Config.flagBase ≤ w.pa then
    .done (((s.setFlag c ((w.pa - Config.flagBase) / 8) (op0 w)).modCtx c (fun x => x.stick stFLAGCLOB)).count c evFLAGCLOB 1)
  else .done (s.modCore c (fun k => k.setSpadWord w.pa (op0 w)))
def execSts (a b : BitVec 6) (i : BitVec 11) (s : State) : Res :=
  issue (.sts a b i) { eng := .s, srcs := [a.toNat, b.toNat], mem := true } (chkSpadWord i true) noAct runSts s

/-- Address of `ldg` and `stg`: translated when the word starts (R102); the footprint for R196 stands by the virtual address,
and by the physical one as the tables stand (`State.placed`). -/
def chkGlobWord {n : Nat} (disp : BitVec n) (store : Bool) : State → Nat → Ctx → QWord → Chk := fun s c x w =>
  let a := smAddr (w.ops.getD (if store then 1 else 0) 0) (immOf w.pfx disp)
  .ok { w with pa := a, foot := globFoot s c x.tenant a }

/-- A command of one packet under the word's sequencer. -/
def sendCmd (s : State) (c : Nat) (x : Ctx) (w : QWord) (op5 : Nat) (kind : PKind) (dst : Leaf) : State :=
  let id := s.nextId
  let m : Cmd := { core := c, uid := x.uid, tenant := x.tenant, lid := x.lid, spanid := x.spanid, cls := x.cls, op5 := op5,
                   seqr := w.seqr, opn := w.opn, word := w.seq, pend := [id], q6 := w.q6,
                   nsig := (maskList w.pfx.signal).length }
  (s.newCmd m).send { seq := 0, kind := kind, src := .core c, dst := dst, tenant := x.tenant, cls := x.cls, cmd := id, acks := [id] }

/-- `ldg` and `stg` translate as they start (R102) and go to the byte's home (R205, R338). -/
def globalRun (store : Bool) (kind : Nat → Nat → QWord → PKind) : RunFn := fun s c w =>
  match s.ctx c with
  | none => .done s
  | some x =>
    match stlbTranslate s c x.tenant w.pa store with
    | .error cause => .trap cause (BitVec.ofNat 64 w.pa) s
    | .ok pa => .going (sendCmd (stlbFill s c x.tenant w.pa) c x w 0 (kind pa w.pa w) (.slice (homeSlice pa)))

/-- From its start on, the load writes its register when its reply comes, unless a later word has written it by then (R33,
R103), or had when a trap cut the load off.
DEDUCED: notes/assumptions/20, 74. -/
def Ctx.loading (x : Ctx) (w : QWord) : Ctx :=
  match w.dst with
  | some d => if d < 32 && !w.lost then { x with late := Map.ins x.late d (Map.get [] x.late d ++ [w.seq]) } else x
  | none => x

/-- A later S word has written the register of a load under way, or a later load is to (R103). -/
def Ctx.outrun (x : Ctx) (w : QWord) : Bool :=
  w.dst.any (fun d => decide (d < 32) && (decide (w.seq ∉ Map.get [] x.late d) || (Map.get [] x.late d).any (fun n => decide (w.seq < n))))

/-- The load was cut off by a trap: it is unstarted and writes nothing (R56). -/
def Ctx.unload (x : Ctx) (w : QWord) : Ctx :=
  match w.dst with
  | some d => { x with late := Map.put [] x.late d ((Map.get [] x.late d).filter (fun n => n ≠ w.seq)) }
  | none => x

def runLdg : RunFn := fun s c w =>
  match globalRun false (fun pa va _ => .load pa va) s c w with
  | .going t => .going (t.modCtx c (fun x => x.loading w))
  | r => r
def execLdg (d b : BitVec 6) (i : BitVec 11) (s : State) : Res :=
  issue (.ldg d b i) { eng := .s, srcs := [b.toNat], dst := some d.toNat, mem := true } (chkGlobWord i false) noAct runLdg s

/-- A store has finished when it is acknowledged.
DEDUCED: notes/assumptions/74. -/
def runStg : RunFn := globalRun true (fun pa va w => .store pa va (op0 w))
def execStg (a b : BitVec 6) (i : BitVec 11) (s : State) : Res :=
  issue (.stg a b i) { eng := .s, srcs := [a.toNat, b.toNat], mem := true } (chkGlobWord i true) noAct runStg s

/-! ## Control flow (R104-R107) -/

/-- address + 4 * disp, over 64 bits (R104). -/
def branchTarget (waddr : Nat) (disp : Dword) : Nat := (BitVec.ofNat 64 waddr + 4 * disp).toNat

def jumpSpec (srcs preds : List Nat) : CapSpec := { eng := .s, srcs := srcs, preds := preds, jump := true }

def runBr : RunFn := runNone
def execBr (p : BitVec 7) (t : BitVec 1) (d : BitVec 15) (s : State) : Res :=
  issue (.br p t d) (jumpSpec [] [p.toNat])
    (chkCap (fun x _ => if (x.pred p.toNat).getLsbD 0 ≠ t.getLsbD 0 then 1 else 0))
    (fun s c w => s.modCtx c (fun x => x.goTo (if w.cap = 1 then branchTarget w.waddr (immOf w.pfx d) else w.waddr + 4))) runBr s

def runJmp : RunFn := runNone
def execJmp (d : BitVec 23) (s : State) : Res :=
  issue (.jmp d) (jumpSpec [] []) noChk
    (fun s c w => s.modCtx c (fun x => x.goTo (branchTarget w.waddr (immOf w.pfx d)))) runJmp s

/-- n31 := address + 4, in the order of the S queue; nothing is pushed (R104). -/
def runCall : RunFn := fun s c w => .done (s.modCtx c (fun x => x.writeReg w.seq 31 (BitVec.ofNat 64 (w.waddr + 4))))
def execCall (d : BitVec 23) (s : State) : Res :=
  issue (.call d) (jumpSpec [] []) noChk
    (fun s c w => s.modCtx c (fun x => x.goTo (branchTarget w.waddr (immOf w.pfx d)))) runCall s

def runJr : RunFn := runNone
def execJr (a : BitVec 6) (s : State) : Res :=
  issue (.jr a) (jumpSpec [a.toNat] []) noChk
    (fun s c w => s.modCtx c (fun x => x.goTo ((op0 w).toNat / 4 * 4))) runJr s

/-- The active levels without level k and those opened after it (R105). -/
def dropLevel (k : Nat) (ls : List Loop) : List Loop :=
  if ls.any (fun l => decide (l.lvl = k)) then (ls.dropWhile (fun l => decide (l.lvl ≠ k))).drop 1 else ls

/-- Open loop level k (R105): with no trips, capture goes on past the body as after a taken branch. -/
def Ctx.openLoop (x : Ctx) (k trips waddr last : Nat) : Ctx :=
  let x1 := { x with loops := dropLevel k x.loops, lc := Map.put 0 x.lc k 0 }
  if trips = 0 then x1.goTo (last + 4)
  else { x1 with loops := { lvl := k, trips := trips, last := last, start := waddr + 4 } :: x1.loops, pc := waddr + 4 }

/-- A body that would reach past the end of an active level opened earlier is ILLEGAL (R105). -/
def loopChk (k : Nat) (len : BitVec 15) (trips : Ctx → QWord → Nat) : State → Nat → Ctx → QWord → Chk := fun _ _ x w =>
  let last := w.waddr + 4 * len.toNat
  if trips x w ≠ 0 && (dropLevel k x.loops).any (fun l => decide (l.last < last)) then .trap 1 (w.raw.setWidth 64)
  else .ok { w with cap := BitVec.ofNat 64 (trips x w) }

def runLoopT : RunFn := runNone
def execLoopT (l : BitVec 2) (n : BitVec 6) (len : BitVec 15) (s : State) : Res :=
  issue (.loopT l n len) (jumpSpec [] [])
    (loopChk l.toNat len (fun _ w => if 0 < (immOf w.pfx n).toInt then (immOf w.pfx n).toNat else 0))
    (fun s c w => s.modCtx c (fun x => x.openLoop l.toNat w.cap.toNat w.waddr (w.waddr + 4 * len.toNat))) runLoopT s

def runLoopRp : RunFn := runNone
/-- Trips are the popped pointer less `rpbase`; a smaller pointer gives none and sets RPNEG (R105). -/
def execLoopRp (l : BitVec 2) (q : BitVec 6) (len : BitVec 15) (s : State) : Res :=
  issue (.loopRp l q len) (jumpSpec [q.toNat] [])
    (loopChk l.toNat len (fun x w => if x.rpbase.toNat ≤ (op0 w).toNat then (op0 w).toNat - x.rpbase.toNat else 0))
    (fun s c w => s.modCtx c (fun x =>
      let x1 := if (op0 w).toNat < x.rpbase.toNat then x.stick stRPNEG else x
      { x1 with rpbase := op0 w }.openLoop l.toNat w.cap.toNat w.waddr (w.waddr + 4 * len.toNat))) runLoopRp s

/-- `end` waits in the S queue until the span has completed (SPAN_END_COMPLETE); a trap taken before that holds it with
the other words (R298). -/
def runEndw : RunFn := fun s _ _ => .hold s
/-- Capture takes no further group of the span (R107). -/
def execEndw (s : State) : Res :=
  issue .endw { eng := .s, jump := true } noChk (fun s c _ => s.modCtx c (fun x => { x with ending := true })) runEndw s

end Sys2Proof.Machine
end

