-- ==== Sys2Proof/Machine/Tile.lean ====
section
/-! DEFINITION. Tiles as V, M and K words read them (07_tiles R111-R116): shape records and their checks, elements,
row writes, flush counting, poison, and the frame of a tile word's run. -/

namespace Sys2Proof.Machine

/-! ## Shape records (R111, R112) -/

/-- A shape record. -/
def mkShape (et rows cols : Nat) : Word := BitVec.ofNat 32 (et % 32 + 32 * (rows - 1) + 8192 * (cols - 1))

/-- R112 breaches other than the type: a bit of [31:24], a row longer than 1,024 bits, VQ2 columns not in eights, and
more than the 128 rows of R111.
DEDUCED: notes/assumptions/24. -/
def shapeBreach (sh : Word) : Bool :=
  decide (bits sh.toNat 24 8 ≠ 0) || decide (1024 < shCols sh * ewidth (shEt sh)) || decide (128 < shRows sh)
    || (decide (shEt sh = 0x10) && decide (shCols sh % 8 ≠ 0))

/-- Numeric types of R116. -/
def numericT (t : Nat) : Bool := isFloatT t || isIntT t || t = 0x12

/-- Integer types of R116: B1 counts as one of width 1. -/
def integerT (t : Nat) : Bool := isIntT t || t = 0x12

/-- Causes. -/
def cSHAPE : Nat := 2
def cBOUNDS : Nat := 4
def cMAP : Nat := 0xA
def cFMT : Nat := 0xB

/-- The records of the tiles a word names. -/
def snapShapes (x : Ctx) (ts : List Nat) : Map Word := ts.foldl (fun m t => Map.ins m t (Map.get 0 x.shapes t)) []

/-- Capture of a tile word: R112 for every tile it uses, types first, then the word's own checks (a cause, or none).
DEDUCED: notes/assumptions/25. -/
def chkTiles (ts : List Nat) (own : Ctx → QWord → Option Nat) (more : Ctx → QWord → QWord) :
    State → Nat → Ctx → QWord → Chk := fun _ _ x w =>
  let shs := ts.map (fun t => Map.get 0 x.shapes t)
  let w1 := { w with shapes := snapShapes x ts, units := ts.map tileUnit }
  if shs.any (fun sh => !etypeOk (shEt sh)) then .trap cFMT (w.raw.setWidth 64)
  else if shs.any shapeBreach then .trap cSHAPE (w.raw.setWidth 64)
  else
    match own x w1 with
    | some cause => .trap cause (w.raw.setWidth 64)
    | none => .ok (more x w1)

def QWord.sh (w : QWord) (t : Nat) : Word := Map.get 0 w.shapes t
def QWord.et (w : QWord) (t : Nat) : Nat := shEt (w.sh t)
def QWord.rows (w : QWord) (t : Nat) : Nat := shRows (w.sh t)
def QWord.cols (w : QWord) (t : Nat) : Nat := shCols (w.sh t)

/-- Two tiles have the same rows and columns. -/
def sameDims (w : QWord) (t u : Nat) : Bool := w.rows t = w.rows u && w.cols t = w.cols u

/-! ## Elements (R58) -/

/-- The pattern of element c of a row. -/
def rowElem (r : Row) (wd c : Nat) : Nat := (r.extractLsb' (c * wd) wd).toNat

/-- The pattern of element (i, j) of a tile read with an element type. -/
def Core.elem (k : Core) (t et i j : Nat) : Nat := rowElem (k.tileRow t i) (ewidth et) j

/-- Index j of a VQ2 row: 16 bits holding weights 8j .. 8j+7 (R58). -/
def Core.vqIndex (k : Core) (t i j : Nat) : Nat := ((k.tileRow t i).extractLsb' (16 * j) 16).toNat

/-- Replace elements 0 .. n-1 of a row, keeping every other bit (R113). -/
def setElems (r : Row) (wd n : Nat) (f : Nat → Nat) : Row :=
  let low := (List.range n).foldl (fun acc j => acc + (f j % 2 ^ wd) * 2 ^ (wd * j)) 0
  BitVec.ofNat 1024 (low + r.toNat / 2 ^ (wd * n) * 2 ^ (wd * n))

/-- Element (i, j) after input flush, as a pattern and as a value (`val` of chapter 7). -/
def flushed (w : QWord) (k : Core) (t i j : Nat) : Nat := (flushIn w.ftz (w.et t) (k.elem t (w.et t) i j)).1

def tval (w : QWord) (k : Core) (t i j : Nat) : Num := elemVal (w.et t) (flushed w k t i j)

/-- The rounding of element e (R65, R66, R115). -/
def rndAt (w : QWord) (e : Nat) : Rnd :=
  { mode := w.rnd, r := if w.rnd = 4 then srValue w.seed w.srq e else 0, sat := w.pfx.hasMod && w.pfx.sat, ftz := w.ftz }

/-- Rows of a tile the mask selects. -/
def selRows (w : QWord) (n : Nat) : List Nat := (List.range n).filter (fun i => rowSel w.mask i)

/-- Write one row of a tile: a full row clears its mark (R308), and the tile is live again (R137). -/
def Core.putRow (k : Core) (t i : Nat) (full : Bool) (r : Row) : Core :=
  let k1 := k.setTileRow t i r
  if full then { k1 with tilePoison := k1.tilePoison.filter (fun p => p ≠ 128 * t + i) } else k1

/-- Write f(i, j) to the selected rows of a tile's active shape (R113, R115). -/
def putTile (w : QWord) (t : Nat) (rows : List Nat) (f : Nat → Nat → Nat) (k : Core) : Core :=
  rows.foldl (fun k i => k.putRow t i (w.cols t * ewidth (w.et t) = 1024)
    (setElems (k.tileRow t i) (ewidth (w.et t)) (w.cols t) (f i))) k

/-! ## Flush counts and poison -/

/-- A run of elements read: tile, row, columns 0 .. n-1. -/
abbrev Run := Nat × Nat × Nat

/-- Flushed inputs of the runs; an element counts once for the word (R68). -/
def flushedIn (w : QWord) (k : Core) (runs : List Run) : Nat :=
  if w.ftz % 2 = 0 then 0
  else
    let uniq := runs.foldl (fun (acc : List Run) r =>
      if acc.any (fun q => decide (q.1 = r.1) && decide (q.2.1 = r.2.1) && decide (r.2.2 ≤ q.2.2)) then acc
      else r :: acc.filter (fun q => !(decide (q.1 = r.1) && decide (q.2.1 = r.2.1)))) []
    (uniq.map (fun r => ((List.range r.2.2).filter (fun j =>
      (flushIn w.ftz (w.et r.1) (k.elem r.1 (w.et r.1) r.2.1 j)).2)).length)).sum

/-- The first poisoned tile row among those read, as its ECC tval (R308): of several, the one listed first.
DESIGN CHOICE: notes/assumptions/111. -/
def poisonedTile (k : Core) (reads : List (Nat × Nat)) : Option Dword :=
  (reads.find? (fun r => decide (128 * r.1 + r.2 ∈ k.tilePoison))).map
    (fun r => BitVec.ofNat 64 (2 ^ 60 + 256 * r.1 + r.2))

/-- Rows of a tile as reads. -/
def readRows (t : Nat) (rows : List Nat) : List (Nat × Nat) := rows.map (fun i => (t, i))

def runsOf (t n : Nat) (rows : List Nat) : List Run := rows.map (fun i => (t, i, n))

/-- The tile is live again once a word writes it (R137). -/
def Ctx.revive (x : Ctx) (ts : List Nat) : Ctx := { x with dead := x.dead.filter (fun t => t ∉ ts) }

/-- Run of a tile word that flushes n elements: ECC on a poisoned row it reads (R308), else the flushes counted and the tiles
written. -/
def tileRunOf (n : Nat) (s : State) (c : Nat) (w : QWord) (reads : List (Nat × Nat)) (writes : List Nat) (upd : Core → Core) : RunRes :=
  match poisonedTile (s.core c) reads with
  | some v => .trap 9 v s
  | none => .done (((noteFlush s c n).modCore c upd).modCtx c (fun x => x.revive (writes.filter (fun t => !(selRows w (w.rows t)).isEmpty))))

/-- The same where the flushed elements are those of the runs. -/
def tileRun (s : State) (c : Nat) (w : QWord) (reads : List (Nat × Nat)) (runs : List Run) (writes : List Nat)
    (upd : Core → Core) : RunRes := tileRunOf (flushedIn w (s.core c) runs) s c w reads writes upd

end Sys2Proof.Machine
end

