-- ==== Sys2Proof/Machine/Vector.lean ====
section
/-! DEFINITION. The elementwise, converting, reducing and rearranging V words (07_tiles R117-R125). -/

namespace Sys2Proof.Machine

/-! ## Binary words (R117) -/

/-- The twelve operations of the binary group. -/
inductive BinOp where
  | add | sub | mul | div | min | max | and | or | xor | shl | shr | sra
deriving DecidableEq, Repr

def BinOp.bitwise : BinOp → Bool
  | .and | .or | .xor => true
  | _ => false

def BinOp.shift : BinOp → Bool
  | .shl | .shr | .sra => true
  | _ => false

/-- The operation over exact values (R73). -/
def binNum (op : BinOp) (mode : Nat) (x y : Num) : Num :=
  match op with
  | .add => Num.add mode x y
  | .sub => Num.add mode x y.negate
  | .mul => Num.mul x y
  | .div => Num.div x y
  | .min => Num.minN x y
  | _ => Num.maxN x y

/-- The operation over integers (R73, R117). -/
def binInt (op : BinOp) (x y : Int) : Int :=
  match op with
  | .add => x + y
  | .sub => x - y
  | .mul => x * y
  | .div => if y = 0 then -1 else x.tdiv y
  | .min => if x < y then x else y
  | _ => if x < y then y else x

/-- The pattern operations: bitwise, and shifts within the width by y modulo it (R117). -/
def binBits (op : BinOp) (wd : Nat) (x y : Nat) (yv : Int) : Nat :=
  let sh := (yv % (wd : Int)).toNat
  match op with
  | .and => x &&& y
  | .or => x ||| y
  | .xor => x ^^^ y
  | .shl => x * 2 ^ sh % 2 ^ wd
  | .shr => x / 2 ^ sh
  | _ => ((toSigned x wd) / (2 : Int) ^ sh % (2 : Int) ^ wd).toNat

/-- One result of the binary group from the two operand patterns. -/
def binElem (op : BinOp) (td ta tb : Nat) (k : Rnd) (x y : Nat) : Nat :=
  if op.bitwise || op.shift then binBits op (ewidth td) x y (intVal tb y)
  else if isFloatT td || isFloatT ta || isFloatT tb then
    narrow td k (binNum op k.mode (elemVal ta x) (elemVal tb y))
  else narrowInt td k (binInt op (intVal ta x) (intVal tb y))

/-- Checks of the binary group: types by R116, shapes by R117. -/
def binChk (op : BinOp) (d a b : Nat) (bc : Nat) : Ctx → QWord → Option Nat := fun _ w =>
  let typesOk :=
    if op.bitwise then ewidth (w.et a) = ewidth (w.et d) && ewidth (w.et b) = ewidth (w.et d)
    else if op.shift then integerT (w.et d) && w.et a = w.et d && integerT (w.et b)
    else numericT (w.et d) && numericT (w.et a) && numericT (w.et b)
  if !typesOk then some cFMT
  else if !sameDims w a d then some cSHAPE
  else if (if bc = 1 then w.rows b = 1 && w.cols b = w.cols d
           else if bc = 2 then w.rows b = w.rows d && w.cols b = 1 else sameDims w b d) then none
  else some cSHAPE

def runBin (op : BinOp) (d a b : BitVec 6) (bc : BitVec 2) : RunFn := fun s c w =>
  let k := s.core c
  let td := d.toNat; let ta := a.toNat; let tb := b.toNat
  let rows := selRows w (w.rows td)
  let brow := fun i => if bc = 1 then 0 else i
  let brows := if bc = 1 then (if rows.isEmpty then [] else [0]) else rows
  let get := fun t i j => if op.bitwise then k.elem t (w.et t) i j else flushed w k t i j
  let runs := if op.bitwise then [] else runsOf ta (w.cols ta) rows ++ runsOf tb (w.cols tb) brows
  tileRun s c w (readRows ta rows ++ readRows tb brows) runs [td]
    (putTile w td rows (fun i j =>
      binElem op (w.et td) (w.et ta) (w.et tb) (rndAt w (i * w.cols td + j)) (get ta i j)
        (get tb (brow i) (if bc = 2 then 0 else j))))

def binary (i : Instr) (op : BinOp) (d a b : BitVec 6) (bc : BitVec 2) (run : RunFn) (s : State) : Res :=
  issue i { eng := .v } (chkTiles [d.toNat, a.toNat, b.toNat] (binChk op d.toNat a.toNat b.toNat bc.toNat) (fun _ w => w))
    noAct run s

def runVadd := runBin .add
def execVadd (d a b : BitVec 6) (w : BitVec 2) (s : State) : Res := binary (.vadd d a b w) .add d a b w (runVadd d a b w) s
def runVsub := runBin .sub
def execVsub (d a b : BitVec 6) (w : BitVec 2) (s : State) : Res := binary (.vsub d a b w) .sub d a b w (runVsub d a b w) s
def runVmul := runBin .mul
def execVmul (d a b : BitVec 6) (w : BitVec 2) (s : State) : Res := binary (.vmul d a b w) .mul d a b w (runVmul d a b w) s
def runVdiv := runBin .div
def execVdiv (d a b : BitVec 6) (w : BitVec 2) (s : State) : Res := binary (.vdiv d a b w) .div d a b w (runVdiv d a b w) s
def runVmin := runBin .min
def execVmin (d a b : BitVec 6) (w : BitVec 2) (s : State) : Res := binary (.vmin d a b w) .min d a b w (runVmin d a b w) s
def runVmax := runBin .max
def execVmax (d a b : BitVec 6) (w : BitVec 2) (s : State) : Res := binary (.vmax d a b w) .max d a b w (runVmax d a b w) s
def runVand := runBin .and
def execVand (d a b : BitVec 6) (w : BitVec 2) (s : State) : Res := binary (.vand d a b w) .and d a b w (runVand d a b w) s
def runVor := runBin .or
def execVor (d a b : BitVec 6) (w : BitVec 2) (s : State) : Res := binary (.vor d a b w) .or d a b w (runVor d a b w) s
def runVxor := runBin .xor
def execVxor (d a b : BitVec 6) (w : BitVec 2) (s : State) : Res := binary (.vxor d a b w) .xor d a b w (runVxor d a b w) s
def runVshl := runBin .shl
def execVshl (d a b : BitVec 6) (w : BitVec 2) (s : State) : Res := binary (.vshl d a b w) .shl d a b w (runVshl d a b w) s
def runVshr := runBin .shr
def execVshr (d a b : BitVec 6) (w : BitVec 2) (s : State) : Res := binary (.vshr d a b w) .shr d a b w (runVshr d a b w) s
def runVsra := runBin .sra
def execVsra (d a b : BitVec 6) (w : BitVec 2) (s : State) : Res := binary (.vsra d a b w) .sra d a b w (runVsra d a b w) s

/-! ## Unary words (R118, R119) -/

/-- How a unary word makes an element: from the pattern of ta, bit for bit or through its value; `whole` rounds it to an
integer, which leaves an integer as it is. -/
inductive UnOp where
  | abs | neg | fn (f : Nat → Nat → Num → Num) | whole (f : Nat → Nat → Num → Num) | mov | not

/-- One result. A transcendental function of an integer element has no integer computation (R73): its rounded value clamps
to an integer td, as a float's does (R71). `vneg` of an integer 0 into a float td is −0.
DESIGN CHOICE: notes/assumptions/87, 107. -/
def unElem (op : UnOp) (td ta : Nat) (k : Rnd) (raw fl : Nat) : Nat :=
  match op with
  | .mov => raw
  | .not => (2 ^ ewidth td - 1) - raw % 2 ^ ewidth td
  | .abs =>
    if isFloatT ta && td = ta then withSign ta false (raw % 2 ^ (ewidth ta - 1))
    else if isFloatT td || isFloatT ta then narrow td k (elemVal ta fl).abs
    else narrowInt td k (intVal ta fl).natAbs
  | .neg =>
    if isFloatT ta && td = ta then withSign ta (!signOf ta raw) (raw % 2 ^ (ewidth ta - 1))
    else if isFloatT td || isFloatT ta then narrow td k (elemVal ta fl).negate
    else narrowInt td k (-(intVal ta fl))
  | .fn f => narrow td k (f k.mode k.r (elemVal ta fl))
  | .whole f =>
    if isFloatT td || isFloatT ta then narrow td k (f k.mode k.r (elemVal ta fl)) else narrowInt td k (intVal ta fl)

def UnOp.raw (op : UnOp) (td ta : Nat) : Bool :=
  match op with
  | .mov | .not => true
  | .abs | .neg => isFloatT ta && td = ta
  | .fn _ | .whole _ => false

def unChk (op : UnOp) (d a : Nat) : Ctx → QWord → Option Nat := fun _ w =>
  let typesOk := match op with
    | .mov | .not => ewidth (w.et a) = ewidth (w.et d)
    | _ => numericT (w.et d) && numericT (w.et a)
  if !typesOk then some cFMT else if sameDims w a d then none else some cSHAPE

def runUn (op : UnOp) (d a : BitVec 6) : RunFn := fun s c w =>
  let k := s.core c
  let td := d.toNat; let ta := a.toNat
  let rows := selRows w (w.rows td)
  tileRun s c w (readRows ta rows) (if op.raw (w.et td) (w.et ta) then [] else runsOf ta (w.cols ta) rows) [td]
    (putTile w td rows (fun i j =>
      unElem op (w.et td) (w.et ta) (rndAt w (i * w.cols td + j)) (k.elem ta (w.et ta) i j) (flushed w k ta i j)))

def unary (i : Instr) (op : UnOp) (d a : BitVec 6) (run : RunFn) (s : State) : Res :=
  issue i { eng := .v } (chkTiles [d.toNat, a.toNat] (unChk op d.toNat a.toNat) (fun _ w => w)) noAct run s

def runVabs := runUn .abs
def execVabs (d a : BitVec 6) (s : State) : Res := unary (.vabs d a) .abs d a (runVabs d a) s
def runVneg := runUn .neg
def execVneg (d a : BitVec 6) (s : State) : Res := unary (.vneg d a) .neg d a (runVneg d a) s
def runVrcp := runUn (.fn (fun _ _ v => v.rcp))
def execVrcp (d a : BitVec 6) (s : State) : Res := unary (.vrcp d a) (.fn (fun _ _ v => v.rcp)) d a (runVrcp d a) s
def runVrsqrt := runUn (.fn (fun _ _ v => v.rsqrt))
def execVrsqrt (d a : BitVec 6) (s : State) : Res := unary (.vrsqrt d a) (.fn (fun _ _ v => v.rsqrt)) d a (runVrsqrt d a) s
def runVsqrt := runUn (.fn (fun _ _ v => v.sqrt))
def execVsqrt (d a : BitVec 6) (s : State) : Res := unary (.vsqrt d a) (.fn (fun _ _ v => v.sqrt)) d a (runVsqrt d a) s
def runVexp2 := runUn (.fn (fun _ _ v => v.exp2))
def execVexp2 (d a : BitVec 6) (s : State) : Res := unary (.vexp2 d a) (.fn (fun _ _ v => v.exp2)) d a (runVexp2 d a) s
def runVlog2 := runUn (.fn (fun _ _ v => v.log2))
def execVlog2 (d a : BitVec 6) (s : State) : Res := unary (.vlog2 d a) (.fn (fun _ _ v => v.log2)) d a (runVlog2 d a) s
def runVtanh := runUn (.fn (fun _ _ v => v.tanh))
def execVtanh (d a : BitVec 6) (s : State) : Res := unary (.vtanh d a) (.fn (fun _ _ v => v.tanh)) d a (runVtanh d a) s
def runVsigm := runUn (.fn (fun _ _ v => v.sigm))
def execVsigm (d a : BitVec 6) (s : State) : Res := unary (.vsigm d a) (.fn (fun _ _ v => v.sigm)) d a (runVsigm d a) s
def runVsilu := runUn (.fn (fun _ _ v => v.silu))
def execVsilu (d a : BitVec 6) (s : State) : Res := unary (.vsilu d a) (.fn (fun _ _ v => v.silu)) d a (runVsilu d a) s
/-- Rounding toward minus infinity, then narrow (R118). -/
def runVfloor := runUn (.whole (fun _ _ v => v.toInteger 2 0))
def execVfloor (d a : BitVec 6) (s : State) : Res := unary (.vfloor d a) (.whole (fun _ _ v => v.toInteger 2 0)) d a (runVfloor d a) s
/-- Rounding to an integer in the effective mode, then narrow (R118). -/
def runVrnd := runUn (.whole (fun m r v => v.toInteger m r))
def execVrnd (d a : BitVec 6) (s : State) : Res := unary (.vrnd d a) (.whole (fun m r v => v.toInteger m r)) d a (runVrnd d a) s
def runVmov := runUn .mov
def execVmov (d a : BitVec 6) (s : State) : Res := unary (.vmov d a) .mov d a (runVmov d a) s
def runVnot := runUn .not
def execVnot (d a : BitVec 6) (s : State) : Res := unary (.vnot d a) .not d a (runVnot d a) s

/-! ## Compare and convert (R120, R121) -/

def vcmpChk (d a b : Nat) (cond : Nat) : Ctx → QWord → Option Nat := fun _ w =>
  let ok := fun t => if cond < 6 then integerT t else numericT t
  if !(ok (w.et a) && ok (w.et b) && w.et d = 0x12) then some cFMT
  else if sameDims w a d && sameDims w b d then none else some cSHAPE

def runVcmp (d a b : BitVec 6) (cond : BitVec 4) : RunFn := fun s c w =>
  let k := s.core c
  let td := d.toNat; let ta := a.toNat; let tb := b.toNat
  let rows := selRows w (w.rows td)
  tileRun s c w (readRows ta rows ++ readRows tb rows)
    (if cond.toNat < 6 then [] else runsOf ta (w.cols ta) rows ++ runsOf tb (w.cols tb) rows) [td]
    (putTile w td rows (fun i j =>
      let x := k.elem ta (w.et ta) i j
      let y := k.elem tb (w.et tb) i j
      let r := if cond.toNat < 6 then condInt cond.toNat (intVal (w.et ta) x) (intVal (w.et tb) y) x y
        else condFloat cond.toNat (tval w k ta i j) (tval w k tb i j)
      if r then 1 else 0))
def execVcmp (d a b : BitVec 6) (c : BitVec 4) (s : State) : Res :=
  issue (.vcmp d a b c) { eng := .v } (chkTiles [d.toNat, a.toNat, b.toNat] (vcmpChk d.toNat a.toNat b.toNat c.toNat) (fun _ w => w))
    noAct (runVcmp d a b c) s

def vcvtChk (d a : Nat) : Ctx → QWord → Option Nat := fun _ w =>
  if w.et a = 0x10 || w.et d = 0x10 || w.et d = 0x11 then some cFMT
  else if sameDims w a d then none else some cSHAPE

def runVcvt (d a : BitVec 6) : RunFn := fun s c w =>
  let k := s.core c
  let td := d.toNat; let ta := a.toNat
  let rows := selRows w (w.rows td)
  tileRun s c w (readRows ta rows) (runsOf ta (w.cols ta) rows) [td]
    (putTile w td rows (fun i j => convert (w.et ta) (w.et td) (rndAt w (i * w.cols td + j)) (flushed w k ta i j)))
def execVcvt (d a : BitVec 6) (s : State) : Res :=
  issue (.vcvt d a) { eng := .v } (chkTiles [d.toNat, a.toNat] (vcvtChk d.toNat a.toNat) (fun _ w => w)) noAct (runVcvt d a) s

/-! ## Four operands (R122) -/

inductive FourOp where
  | fma | fms | sel | clamp
deriving DecidableEq, Repr

def fourElem (op : FourOp) (td ta tb tc : Nat) (k : Rnd) (rawA rawB x y z : Nat) : Nat :=
  let anyF := isFloatT td || isFloatT ta || isFloatT tb || isFloatT tc
  match op with
  | .fma =>
    if anyF then narrow td k (Num.add k.mode (Num.mul (elemVal ta x) (elemVal tb y)) (elemVal tc z))
    else narrowInt td k (intVal ta x * intVal tb y + intVal tc z)
  | .fms =>
    if anyF then narrow td k (Num.add k.mode (Num.mul (elemVal ta x) (elemVal tb y)) (elemVal tc z).negate)
    else narrowInt td k (intVal ta x * intVal tb y - intVal tc z)
  | .sel =>
    if z = 1 then (if ta = td then rawA else convert ta td k x) else (if tb = td then rawB else convert tb td k y)
  | .clamp =>
    if anyF then narrow td k (Num.minN (Num.maxN (elemVal ta x) (elemVal tb y)) (elemVal tc z))
    else narrowInt td k (binInt .min (binInt .max (intVal ta x) (intVal tb y)) (intVal tc z))

def fourChk (op : FourOp) (d a b c : Nat) : Ctx → QWord → Option Nat := fun _ w =>
  if !(numericT (w.et d) && numericT (w.et a) && numericT (w.et b)
      && (if op = .sel then w.et c = 0x12 else numericT (w.et c))) then some cFMT
  else if sameDims w a d && sameDims w b d && sameDims w c d then none else some cSHAPE

/-- DEDUCED: notes/assumptions/27. -/
def runFour (op : FourOp) (d a b e : BitVec 6) : RunFn := fun s c w =>
  let k := s.core c
  let td := d.toNat; let ta := a.toNat; let tb := b.toNat; let tc := e.toNat
  let rows := selRows w (w.rows td)
  let srcRuns := fun t => if op = .sel && w.et t = w.et td then [] else runsOf t (w.cols t) rows
  tileRun s c w (readRows ta rows ++ readRows tb rows ++ readRows tc rows) (srcRuns ta ++ srcRuns tb ++ srcRuns tc) [td]
    (putTile w td rows (fun i j =>
      fourElem op (w.et td) (w.et ta) (w.et tb) (w.et tc) (rndAt w (i * w.cols td + j))
        (k.elem ta (w.et ta) i j) (k.elem tb (w.et tb) i j)
        (flushed w k ta i j) (flushed w k tb i j) (flushed w k tc i j)))

def four (i : Instr) (op : FourOp) (d a b e : BitVec 6) (run : RunFn) (s : State) : Res :=
  issue i { eng := .v } (chkTiles [d.toNat, a.toNat, b.toNat, e.toNat] (fourChk op d.toNat a.toNat b.toNat e.toNat) (fun _ w => w))
    noAct run s

def runVfma := runFour .fma
def execVfma (d a b c : BitVec 6) (s : State) : Res := four (.vfma d a b c) .fma d a b c (runVfma d a b c) s
def runVfms := runFour .fms
def execVfms (d a b c : BitVec 6) (s : State) : Res := four (.vfms d a b c) .fms d a b c (runVfms d a b c) s
def runVsel := runFour .sel
def execVsel (d a b c : BitVec 6) (s : State) : Res := four (.vsel d a b c) .sel d a b c (runVsel d a b c) s
def runVclamp := runFour .clamp
def execVclamp (d a b c : BitVec 6) (s : State) : Res := four (.vclamp d a b c) .clamp d a b c (runVclamp d a b c) s

/-! ## Reductions and scans (R79, R123, R124) -/

/-- An FP32 value rounded RNE with the word's output flush: every inner step (R65, R68, R79). -/
def inner (ftz : Nat) (v : Num) : Num := floatVal 1 (roundFloat 1 { mode := 0, ftz := ftz } v)

/-- An element of a float reduction as FP32 (R79): floats exactly, integers rounded RNE. -/
def toF32 (et : Nat) (v : Nat) : Num := if isFloatT et then elemVal et v else floatVal 1 (roundFloat 1 {} (elemVal et v))

/-- One level of the pairwise tree. -/
def pairUp {α : Type} (f : α → α → α) : List α → List α
  | a :: b :: t => f a b :: pairUp f t
  | l => l

/-- The tree over a list of 2^n values. -/
def treeFold {α : Type} (f : α → α → α) : Nat → List α → List α
  | 0, l => l
  | n + 1, l => treeFold f n (pairUp f l)

/-- The smallest power of two at least n, as its exponent. -/
def ceilLog2 (n : Nat) : Nat := if n ≤ 1 then 0 else Nat.log2 (n - 1) + 1

def padTo {α : Type} (n : Nat) (d : α) (l : List α) : List α := l ++ List.replicate (n - l.length) d

/-- A float reduction: f 0 sum, 1 max, 2 min, 3 amax, 4 sum of squares (R79, R123). -/
def reduceF (f ftz : Nat) (vs : List Num) : Num :=
  let n := ceilLog2 vs.length
  let pad : Num := if f = 1 then .inf true else if f = 2 then .inf false else .zero false
  let xs := if f = 3 then vs.map Num.abs else if f = 4 then vs.map (fun v => inner ftz (Num.mul v v)) else vs
  let comb := fun (a b : Num) =>
    if f = 1 || f = 3 then Num.maxN a b else if f = 2 then Num.minN a b else inner ftz (Num.add 0 a b)
  (treeFold comb n (padTo (2 ^ n) pad xs)).headD pad

/-- INT32 wrap. -/
def wrap32 (v : Int) : Int := toSigned (wrapNat v 32) 32

/-- An integer reduction (R123): values and squares modulo 2^32, sums wrap, max, min and amax compare exact values. -/
def reduceI (f : Nat) (vs : List Int) : Int :=
  if f = 0 then wrap32 (vs.foldl (· + ·) 0)
  else if f = 4 then wrap32 ((vs.map (fun v => v * v)).foldl (· + ·) 0)
  else
    let xs := if f = 3 then vs.map (fun v => (v.natAbs : Int)) else vs
    match xs with
    | [] => 0
    | v :: t => t.foldl (fun a b => if f = 2 then (if b < a then b else a) else (if a < b then b else a)) v

/-- The reduction of a list of patterns of type ta into one pattern of type td. -/
def reduceTo (f ftz td ta : Nat) (k : Rnd) (vs : List Nat) : Nat :=
  if isFloatT td || isFloatT ta then narrow td k (reduceF f ftz (vs.map (toF32 ta)))
  else narrowInt td k (reduceI f (vs.map (intVal ta)))

def redChk (byRow : Bool) (d a : Nat) : Ctx → QWord → Option Nat := fun _ w =>
  if !(numericT (w.et d) && numericT (w.et a)) then some cFMT
  else if (if byRow then w.rows d = w.rows a && w.cols d = 1 else w.rows d = 1 && w.cols d = w.cols a) then none
  else some cSHAPE

def runVredr (d a : BitVec 6) (f : BitVec 4) : RunFn := fun s c w =>
  let k := s.core c
  let td := d.toNat; let ta := a.toNat
  let rows := selRows w (w.rows td)
  tileRun s c w (readRows ta rows) (runsOf ta (w.cols ta) rows) [td]
    (putTile w td rows (fun i _ =>
      reduceTo f.toNat w.ftz (w.et td) (w.et ta) (rndAt w i) ((List.range (w.cols ta)).map (fun j => flushed w k ta i j))))
def execVredr (d a : BitVec 6) (f : BitVec 4) (s : State) : Res :=
  issue (.vredr d a f) { eng := .v } (chkTiles [d.toNat, a.toNat] (redChk true d.toNat a.toNat) (fun _ w => w)) noAct (runVredr d a f) s

def runVredc (d a : BitVec 6) (f : BitVec 4) : RunFn := fun s c w =>
  let k := s.core c
  let td := d.toNat; let ta := a.toNat
  let rows := selRows w 1
  let src := if rows.isEmpty then [] else List.range (w.rows ta)
  tileRun s c w (readRows ta src) (runsOf ta (w.cols ta) src) [td]
    (putTile w td rows (fun _ j =>
      reduceTo f.toNat w.ftz (w.et td) (w.et ta) (rndAt w j) ((List.range (w.rows ta)).map (fun i => flushed w k ta i j))))
def execVredc (d a : BitVec 6) (f : BitVec 4) (s : State) : Res :=
  issue (.vredc d a f) { eng := .v } (chkTiles [d.toNat, a.toNat] (redChk false d.toNat a.toNat) (fun _ w => w)) noAct (runVredc d a f) s

/-- The running sums of a float scan, inclusive and exclusive, strictly left to right (R124). -/
def scanF (ftz : Nat) : Num → List Num → List (Num × Num)
  | _, [] => []
  | acc, v :: t => let a := inner ftz (Num.add 0 acc v); (a, acc) :: scanF ftz a t

def scanI : Int → List Int → List (Int × Int)
  | _, [] => []
  | acc, v :: t => let a := wrap32 (acc + v); (a, acc) :: scanI a t

/-- One row of a scan, as patterns of td. -/
def scanRow (w : QWord) (k : Core) (td ta : Nat) (exc : Bool) (i : Nat) : List Nat :=
  let pats := (List.range (w.cols ta)).map (fun j => flushed w k ta i j)
  let r := fun j => rndAt w (i * w.cols td + j)
  if isFloatT (w.et td) || isFloatT (w.et ta) then
    (scanF w.ftz (.zero false) (pats.map (toF32 (w.et ta)))).mapIdx (fun j p => narrow (w.et td) (r j) (if exc then p.2 else p.1))
  else (scanI 0 (pats.map (intVal (w.et ta)))).mapIdx (fun j p => narrowInt (w.et td) (r j) (if exc then p.2 else p.1))

def scanChk (d a : Nat) : Ctx → QWord → Option Nat := fun _ w =>
  if !(numericT (w.et d) && numericT (w.et a)) then some cFMT else if sameDims w a d then none else some cSHAPE

def runVscan (d a : BitVec 6) (m : BitVec 4) : RunFn := fun s c w =>
  let k := s.core c
  let td := d.toNat; let ta := a.toNat
  let rows := selRows w (w.rows td)
  tileRun s c w (readRows ta rows) (runsOf ta (w.cols ta) rows) [td]
    (putTile w td rows (fun i j => (scanRow w k td ta (m = 1) i).getD j 0))
def execVscan (d a : BitVec 6) (k : BitVec 4) (s : State) : Res :=
  issue (.vscan d a k) { eng := .v } (chkTiles [d.toNat, a.toNat] (scanChk d.toNat a.toNat) (fun _ w => w)) noAct (runVscan d a k) s

/-! ## Rearrangement (R125) -/

def moveChk (ok : QWord → Bool) (d a : Nat) : Ctx → QWord → Option Nat := fun _ w =>
  if w.et a = 0x10 || w.et a ≠ w.et d then some cFMT else if ok w then none else some cSHAPE

def runMove (rowsRead : QWord → List Nat → List Nat) (from_ : Nat → Nat → Nat × Nat) (d a : BitVec 6) : RunFn := fun s c w =>
  let k := s.core c
  let td := d.toNat; let ta := a.toNat
  let rows := selRows w (w.rows td)
  tileRun s c w (readRows ta (rowsRead w rows)) [] [td]
    (putTile w td rows (fun i j => k.elem ta (w.et ta) (from_ i j).1 (from_ i j).2))

def runVtrn (d a : BitVec 6) : RunFn :=
  runMove (fun w rows => if rows.isEmpty then [] else List.range (w.rows a.toNat)) (fun i j => (j, i)) d a
def execVtrn (d a : BitVec 6) (s : State) : Res :=
  issue (.vtrn d a) { eng := .v } (chkTiles [d.toNat, a.toNat]
    (moveChk (fun w => w.rows d.toNat = w.cols a.toNat && w.cols d.toNat = w.rows a.toNat) d.toNat a.toNat) (fun _ w => w)) noAct (runVtrn d a) s

def runVbcr (d a : BitVec 6) : RunFn := runMove (fun _ rows => if rows.isEmpty then [] else [0]) (fun _ j => (0, j)) d a
def execVbcr (d a : BitVec 6) (s : State) : Res :=
  issue (.vbcr d a) { eng := .v } (chkTiles [d.toNat, a.toNat]
    (moveChk (fun w => w.rows a.toNat = 1 && w.cols a.toNat = w.cols d.toNat) d.toNat a.toNat) (fun _ w => w)) noAct (runVbcr d a) s

def runVbcc (d a : BitVec 6) : RunFn := runMove (fun _ rows => rows) (fun i _ => (i, 0)) d a
def execVbcc (d a : BitVec 6) (s : State) : Res :=
  issue (.vbcc d a) { eng := .v } (chkTiles [d.toNat, a.toNat]
    (moveChk (fun w => w.rows a.toNat = w.rows d.toNat && w.cols a.toNat = 1) d.toNat a.toNat) (fun _ w => w)) noAct (runVbcc d a) s

end Sys2Proof.Machine
end

