-- ==== Sys2Proof/Machine/Quant.lean ====
section
/-! DEFINITION. Quantisation, weight decoding, compression, single elements, row movement and row masks: the rest of the
V words (05_numbers R63, R74, R75, R81, R82; 07_tiles R126-R138). -/

namespace Sys2Proof.Machine

/-! ## Block quantisation (R74, R75), shared with the QNT and DQ stages -/

/-- Targets of a quantisation. -/
def qTarget (t : Nat) : Bool := t ∈ [0x04, 0x05, 0x08, 0x0B]

def emax (t : Nat) : Int := if t = 0x04 then 8 else if t = 0x05 then 15 else if t = 0x08 then 2 else 6

/-- A value times 2^n. -/
def Num.scale (n : Int) : Num → Num
  | .nan => .nan
  | .inf s => .inf s
  | .fin s m e st => .fin s m (e + n) st

/-- The largest magnitude of a block: NaN ranks as NaN. -/
def amaxOf (xs : List Num) : Num := xs.foldl (fun a x => Num.maxN a x.abs) (.zero false)

/-- Scale of a block with a given amax: 255 where it is NaN or infinite. -/
def blockScale (t : Nat) : Num → Nat
  | .nan => 255
  | .inf _ => 255
  | .fin _ m e _ =>
    if m = 0 then 0 else (Min.min (Max.max ((Nat.log2 m : Int) + e - emax t + 127) 0) 254).toNat

/-- One quantised element under a block's scale. -/
def quantElem (t : Nat) (k : Rnd) (sc : Nat) (zero : Bool) (x : Num) : Nat :=
  if sc = 255 then 0
  else if zero then (if t = 0x0B then 0 else withSign t x.neg? 0)
  else if t = 0x0B then intBits t (roundInt (-127) 127 k.mode k.r (x.scale (127 - (sc : Int))))
  else roundFloat t { k with sat := true } (x.scale (127 - (sc : Int)))

/-- A row of quantised elements and its block scales. -/
def quantRow (t : Nat) (rnd : Nat → Rnd) (xs : List Num) : List Nat × List Nat :=
  let amax := (List.range (ceilDiv xs.length 32)).map (fun b => amaxOf ((xs.drop (32 * b)).take 32))
  let sc := amax.map (blockScale t)
  (xs.mapIdx (fun j x => quantElem t (rnd j) (sc.getD (j / 32) 0) (amax.getD (j / 32) .nan).isZero x), sc)

/-- q * 2^(e - 127), NaN under a scale of 0xFF (R75). -/
def dequant (sc : Nat) (q : Num) : Num := if sc = 255 then .nan else q.scale ((sc : Int) - 127)

/-- Checks of `vqnt` (R126). R116 gives its source no types: one that is not numeric raises FMT.
DESIGN CHOICE: notes/assumptions/85. -/
def vqntChk (d a b : Nat) : Ctx → QWord → Option Nat := fun _ w =>
  if !(qTarget (w.et d) && w.et b = 0x11 && numericT (w.et a)) then some cFMT
  else if sameDims w a d && w.rows b = w.rows a && w.cols b = ceilDiv (w.cols a) 32 && d ≠ b then none else some cSHAPE

def runVqnt (d a b : BitVec 6) : RunFn := fun s c w =>
  let k := s.core c
  let td := d.toNat; let ta := a.toNat; let tb := b.toNat
  let rows := selRows w (w.rows td)
  let q := fun i => quantRow (w.et td) (fun j => rndAt w (i * w.cols td + j)) ((List.range (w.cols ta)).map (fun j => tval w k ta i j))
  tileRun s c w (readRows ta rows) (runsOf ta (w.cols ta) rows) [td, tb] (fun k0 =>
    rows.foldl (fun k1 i =>
      let r := q i
      putTile w tb [i] (fun _ j => r.2.getD j 0) (putTile w td [i] (fun _ j => r.1.getD j 0) k1)) k0)
def execVqnt (d a b : BitVec 6) (s : State) : Res :=
  issue (.vqnt d a b) { eng := .v } (chkTiles [d.toNat, a.toNat, b.toNat] (vqntChk d.toNat a.toNat b.toNat) (fun _ w => w))
    noAct (runVqnt d a b) s

/-- R126 names the types of `vdqnt` and no cause for others: they raise FMT.
DESIGN CHOICE: notes/assumptions/108. -/
def vdqntChk (d a b : Nat) : Ctx → QWord → Option Nat := fun _ w =>
  if !(qTarget (w.et a) && w.et b = 0x11 && isFloatT (w.et d)) then some cFMT
  else if sameDims w a d && w.rows b = w.rows a && w.cols b = ceilDiv (w.cols a) 32 then none else some cSHAPE

def runVdqnt (d a b : BitVec 6) : RunFn := fun s c w =>
  let k := s.core c
  let td := d.toNat; let ta := a.toNat; let tb := b.toNat
  let rows := selRows w (w.rows td)
  tileRun s c w (readRows ta rows ++ readRows tb rows) (runsOf ta (w.cols ta) rows) [td]
    (putTile w td rows (fun i j =>
      narrow (w.et td) (rndAt w (i * w.cols td + j)) (dequant (k.elem tb 0x11 i (j / 32)) (tval w k ta i j))))
def execVdqnt (d a b : BitVec 6) (s : State) : Res :=
  issue (.vdqnt d a b) { eng := .v } (chkTiles [d.toNat, a.toNat, b.toNat] (vdqntChk d.toNat a.toNat b.toNat) (fun _ w => w))
    noAct (runVdqnt d a b) s

/-! ## VQ2 (R63, R127) -/

/-- The sign of weight j of an index. -/
def vqSign (i j : Nat) : Bool :=
  if j < 7 then bit i (j + 1) else decide ((List.range 7).countP (fun m => bit i (m + 1)) % 2 = 1)

/-- Weight j of an index under a codebook. -/
def vqWeight (cb : Map Word) (i j : Nat) : Num :=
  .fin (vqSign i j) (2 * bits (Map.get 0 cb (bits i 8 8)).toNat (4 * j) 4 + i % 2) (-1) false

/-- Element (i, j) of a VQ2 tile as a value. -/
def vqElem (cb : Map Word) (k : Core) (t i j : Nat) : Num := vqWeight cb (k.vqIndex t i (j / 8)) (j % 8)

/-- The codebook of the resident context. -/
def codebookOf (s : State) (c : Nat) : Map Word := match s.ctx c with | some x => x.codebook | none => []

def vvqdChk (d a b : Nat) : Ctx → QWord → Option Nat := fun _ w =>
  if !(w.et a = 0x10 && w.et b = 0x11 && isFloatT (w.et d)) then some cFMT
  else if sameDims w a d && w.rows b = w.rows a && w.cols b = ceilDiv (w.cols a) 32 then none else some cSHAPE

def runVvqd (d a b : BitVec 6) : RunFn := fun s c w =>
  let k := s.core c
  let cb := codebookOf s c
  let td := d.toNat; let ta := a.toNat; let tb := b.toNat
  let rows := selRows w (w.rows td)
  tileRun s c w (readRows ta rows ++ readRows tb rows) [] [td]
    (putTile w td rows (fun i j =>
      narrow (w.et td) (rndAt w (i * w.cols td + j)) (dequant (k.elem tb 0x11 i (j / 32)) (vqElem cb k ta i j))))
def execVvqd (d a b : BitVec 6) (s : State) : Res :=
  issue (.vvqd d a b) { eng := .v } (chkTiles [d.toNat, a.toNat, b.toNat] (vvqdChk d.toNat a.toNat b.toNat) (fun _ w => w))
    noAct (runVvqd d a b) s

/-! ## Compression (R128) -/

/-- Element u ranks before element v: larger magnitude, NaN largest, then the lower index. -/
def ranksBefore (u v : Num × Nat) : Bool :=
  if u.1.isNan then !v.1.isNan || decide (u.2 < v.2)
  else if v.1.isNan then false
  else if Num.lt v.1.abs u.1.abs then true
  else if Num.lt u.1.abs v.1.abs then false
  else decide (u.2 < v.2)

/-- Indices kept of a group, ascending. -/
def keptOf (keep : Nat) (xs : List Num) : List Nat :=
  let ix := xs.mapIdx (fun i x => (x, i))
  (ix.filter (fun v => decide ((ix.countP (fun u => ranksBefore u v)) < keep))).map (fun v => v.2)

/-- Indices packed `wd` bits each, the first lowest. -/
def packIdx (wd : Nat) : List Nat → Nat
  | [] => 0
  | i :: t => i + 2 ^ wd * packIdx wd t

/-- Elements kept, elements of a group. -/
def compShape (m : Nat) : Nat × Nat := if m = 1 then (4, 8) else (2, 4)

/-- DEDUCED: notes/assumptions/26. -/
def vcompChk (m d a b : Nat) : Ctx → QWord → Option Nat := fun _ w =>
  if !(w.et b = 0x0C && numericT (w.et a) && w.et d = w.et a) then some cFMT
  else if w.cols a % 8 = 0 && w.rows d = w.rows a && 2 * w.cols d = w.cols a && w.rows b = w.rows a
    && w.cols b = w.cols a / (if m = 1 then 4 else 8) && d ≠ b then none else some cSHAPE

/-- One row compressed: the patterns kept and the metadata bytes. -/
def compRow (m et : Nat) (pats : List Nat) : List Nat × List Nat :=
  let g := (compShape m).2
  let groups := (List.range (pats.length / g)).map (fun q => (pats.drop (g * q)).take g)
  let kept := groups.map (fun ps => keptOf (compShape m).1 (ps.map (elemVal et)))
  let vals := (groups.zip kept).flatMap (fun p => p.2.map (fun i => p.1.getD i 0))
  let meta4 := fun q => packIdx 2 (kept.getD q [])
  let meta8 := fun q => packIdx 3 (kept.getD q [])
  (vals,
   if m = 1 then (List.range (2 * kept.length)).map (fun b => meta8 (b / 2) / 2 ^ (8 * (b % 2)) % 256)
   else (List.range (kept.length / 2)).map (fun b => meta4 (2 * b) + 16 * meta4 (2 * b + 1)))

def runVcomp (d a b : BitVec 6) (m : BitVec 4) : RunFn := fun s c w =>
  let k := s.core c
  let td := d.toNat; let ta := a.toNat; let tb := b.toNat
  let rows := selRows w (w.rows td)
  tileRun s c w (readRows ta rows) (runsOf ta (w.cols ta) rows) [td, tb] (fun k0 =>
    rows.foldl (fun k1 i =>
      let r := compRow m.toNat (w.et ta) ((List.range (w.cols ta)).map (fun j => flushed w k ta i j))
      putTile w tb [i] (fun _ j => r.2.getD j 0) (putTile w td [i] (fun _ j => r.1.getD j 0) k1)) k0)
def execVcomp (d a b : BitVec 6) (k : BitVec 4) (s : State) : Res :=
  issue (.vcomp d a b k) { eng := .v }
    (chkTiles [d.toNat, a.toNat, b.toNat] (vcompChk k.toNat d.toNat a.toNat b.toNat) (fun _ w => w)) noAct (runVcomp d a b k) s

/-! ## Fills and single elements (R129, R130) -/

/-- The pattern a 64-bit value gives an element of a type, and whether its FP32 part was flushed.
DEDUCED: notes/assumptions/27. -/
def fillElemOf (w : QWord) (t e : Nat) (v : Dword) : Nat × Bool :=
  if isFloatT t then
    let p := flushIn w.ftz 1 (v.toNat % 2 ^ 32)
    (narrow t (rndAt w e) (floatVal 1 p.1), p.2)
  else if isIntT t then (narrowInt t (rndAt w e) v.toInt, false)
  else if t = 0x12 then (if v = 0 then 0 else 1, false)
  else (v.toNat % (if t = 0x10 then 65536 else 256), false)

/-- Replace 16-bit index j of a row. -/
def setVq (r : Row) (j v : Nat) : Row := setBits r (16 * j) 16 v

def runVfill (d : BitVec 6) : RunFn := fun s c w =>
  let t := d.toNat
  let rows := selRows w (w.rows t)
  let v := op0 w
  let n := if (fillElemOf w (w.et t) 0 v).2 && !rows.isEmpty then 1 else 0
  tileRunOf n s c w [] [t] (fun k0 =>
    if w.et t = 0x10 then
      rows.foldl (fun k i => k.putRow t i (w.cols t = 512)
        ((List.range (w.cols t / 8)).foldl (fun r j => setVq r j (v.toNat % 65536)) (k.tileRow t i))) k0
    else putTile w t rows (fun i j => (fillElemOf w (w.et t) (i * w.cols t + j) v).1) k0)
def execVfill (d a : BitVec 6) (s : State) : Res :=
  issue (.vfill d a) { eng := .v, srcs := [a.toNat] } (chkTiles [d.toNat] (fun _ _ => none) (fun _ w => w)) noAct (runVfill d) s

/-- An index inside the active shape. -/
def idxChk (t k : Nat) : Ctx → QWord → Option Nat := fun _ w =>
  if w.rows t ≤ cRow (w.ops.getD k 0) || w.cols t ≤ cCol (w.ops.getD k 0) then some cBOUNDS else none

/-- What a q6 element of `vget` holds. -/
def getElem (k : Core) (t et i j : Nat) : Dword :=
  let v := k.elem t et i j
  if et = 0x10 then BitVec.ofNat 64 (k.vqIndex t i (j / 8))
  else if et = 0x01 then BitVec.ofNat 64 v
  else if isFloatT et then BitVec.ofNat 64 (roundFloat 1 {} (elemVal et v))
  else if isIntT et then BitVec.ofInt 64 (intVal et v)
  else BitVec.ofNat 64 v

def runVget (t : BitVec 6) : RunFn := fun s c w =>
  let i := cRow (op0 w)
  match poisonedTile (s.core c) [(t.toNat, i)] with
  | some v => .trap 9 v s
  | none => .done (s.modCtx c (fun x => x.produceAll w.q6 [getElem (s.core c) t.toNat (w.et t.toNat) i (cCol (op0 w))]))
def execVget (t a : BitVec 6) (s : State) : Res :=
  issue (.vget t a) { eng := .v, srcs := [a.toNat], q6 := 1 } (chkTiles [t.toNat] (idxChk t.toNat 0) (fun _ w => w)) noAct (runVget t) s

def runVput (d : BitVec 6) : RunFn := fun s c w =>
  let t := d.toNat
  let i := cRow (op1 w)
  let j := cCol (op1 w)
  if !rowSel w.mask i then .done s
  else
    let v := fillElemOf w (w.et t) (i * w.cols t + j) (op0 w)
    let wd := ewidth (w.et t)
    tileRunOf (if v.2 then 1 else 0) s c w [] [t] (fun k => k.putRow t i false
      (if w.et t = 0x10 then setVq (k.tileRow t i) (j / 8) v.1 else setBits (k.tileRow t i) (wd * j) wd v.1))
def execVput (t a b : BitVec 6) (s : State) : Res :=
  issue (.vput t a b) { eng := .v, srcs := [a.toNat, b.toNat] } (chkTiles [t.toNat] (idxChk t.toNat 1) (fun _ w => w)) noAct (runVput t) s

/-! ## Rows between tiles and the scratchpad (R131, R132) -/

/-- `swz` undoes a swizzle, or none, legally (R132). -/
def swzOk (z : Nat) : Bool := bits z 14 4 = 0 || (4 ≤ bits z 0 8 && bits z 0 8 ≤ 6 && bits z 14 4 ≤ 7 - bits z 0 8)

/-- Exchange the chunks of a row as the swizzle of row number r says; its own inverse (R132, R163). -/
def swizzleRow (c sh mb r : Nat) (v : Row) : Row :=
  if mb = 0 then v
  else
    let n := 8 * 2 ^ c
    let x := (r / 2 ^ sh) % 2 ^ mb
    BitVec.ofNat 1024 ((List.range (128 / 2 ^ c)).foldl (fun acc k =>
      acc + 2 ^ (n * k) * (v.extractLsb' (n * (k ^^^ x)) n).toNat) 0)

def unswizzle (z r : Nat) (v : Row) : Row := swizzleRow (bits z 0 8) (bits z 8 6) (bits z 14 4) r v

/-- Row base of a row mover (R131). -/
def rowBase (w : QWord) : Int := ((op0 w).toNat / 128 : Nat) + w.imm.toInt

/-- Capture of `tld` and `tst`. -/
def rowsChk {n : Nat} (imm : BitVec n) (t : Nat) (undo : Bool) : State → Nat → Ctx → QWord → Chk := fun s c x w0 =>
  let w := { w0 with imm := immOf w0.pfx imm }
  chkTiles [t] (fun _ w =>
    let b := rowBase w
    if undo && !swzOk w.swz then some cSHAPE
    else if Config.spadBytes ≤ (op0 w).toNat || b < 0 || 6136 < b + w.rows t then some cBOUNDS else none)
    (fun _ w => { w with units := w.units ++ ((List.range (w.rows t)).map (fun i => spadUnit ((rowBase w).toNat + i))).dedup })
    s c x w

/-- The first poisoned scratchpad row of a list, as its byte address (R167). -/
def poisonedSpad (k : Core) (rows : List Nat) : Option Dword :=
  (rows.find? (fun r => decide (r ∈ k.spadPoison))).map (fun r => BitVec.ofNat 64 (128 * r))

def runTld (d : BitVec 6) : RunFn := fun s c w =>
  let t := d.toNat
  let b := (rowBase w).toNat
  let rows := selRows w (w.rows t)
  match poisonedSpad (s.core c) (rows.map (fun i => b + i)) with
  | some v => .trap 9 v s
  | none => tileRun s c w [] [] [t] (fun k0 =>
      rows.foldl (fun k i => k.putRow t i true (unswizzle w.swz (b + i) (k.spadRow (b + i)))) k0)
def execTld (d a : BitVec 6) (i : BitVec 10) (s : State) : Res :=
  issue (.tld d a i) { eng := .v, srcs := [a.toNat] } (rowsChk i d.toNat true) noAct (runTld d) s

def runTst (d : BitVec 6) : RunFn := fun s c w =>
  let t := d.toNat
  let b := (rowBase w).toNat
  let rows := selRows w (w.rows t)
  tileRun s c w (readRows t rows) [] [] (fun k0 =>
    rows.foldl (fun k i =>
      let k1 := k.setSpadRow (b + i) (k.tileRow t i)
      { k1 with spadPoison := k1.spadPoison.filter (fun r => r ≠ b + i) }) k0)
def execTst (d a : BitVec 6) (i : BitVec 10) (s : State) : Res :=
  issue (.tst d a i) { eng := .v, srcs := [a.toNat] } (rowsChk i d.toNat false) noAct (runTst d) s

/-! ## Bit-packed streams (R81, R82, R133) -/

def bfxPeriod (b : List Dword) : Nat := bits (b.getD 0 0).toNat 32 7 + 1
def bfxCount (b : List Dword) : Nat := bits (b.getD 0 0).toNat 40 4 + 1
def bfxOff (b : List Dword) (f : Nat) : Nat := bits (b.getD (f / 2) 0).toNat (16 * (f % 2)) 7
def bfxWidth (b : List Dword) (f : Nat) : Nat := bits (b.getD (f / 2) 0).toNat (7 + 16 * (f % 2)) 5 + 1

/-- The set extracts elements of a type (R81). -/
def bfxOk (b : List Dword) (et : Nat) : Bool :=
  et ≠ 0x10 && (List.range (bfxCount b)).all (fun f =>
    decide (bfxOff b f + bfxWidth b f ≤ bfxPeriod b) && decide (bfxWidth b f ≤ ewidth et))

/-- Bit position of element c of a row from the row's first bit. -/
def bfxPos (b : List Dword) (c : Nat) : Nat := c / bfxCount b * bfxPeriod b + bfxOff b (c % bfxCount b)

/-- Extend a field's bits to an element's pattern. -/
def bfxExtend (et wd v : Nat) : Nat := if isSignedT et then wrapNat (toSigned v wd) (ewidth et) else v

/-- Bits of one row of a packed stream. -/
def bfxRowBits (b : List Dword) (cols : Nat) : Nat := ceilDiv cols (bfxCount b) * bfxPeriod b

/-- First bit past the last one read by `tld.x`, from the stream's start. -/
def bfxEnd (b : List Dword) (rows cols : Nat) : Nat :=
  (rows - 1) * bfxRowBits b cols + (List.range cols).foldl (fun m c => Max.max m (bfxPos b c + bfxWidth b (c % bfxCount b))) 0

def tldxStart (w : QWord) : Int := 8 * (((op0 w).toNat : Int) + 128 * w.imm.toInt)

/-- Checks of `tld.x` (R133): every row of the active shape counts towards the last bit read, selected or not.
DESIGN CHOICE: notes/assumptions/86. -/
def tldxChk {n : Nat} (imm : BitVec n) (t : Nat) : State → Nat → Ctx → QWord → Chk := fun s c x w0 =>
  chkTiles [t] (fun _ w =>
    if !bfxOk w.bfx (w.et t) then some cFMT
    else if tldxStart w < 0 || (8 * Config.flagBase : Int) < tldxStart w + bfxEnd w.bfx (w.rows t) (w.cols t) then some cBOUNDS
    else none)
    (fun _ w =>
      let lo := (tldxStart w).toNat / 1024
      let hi := ((tldxStart w).toNat + bfxEnd w.bfx (w.rows t) (w.cols t) - 1) / 1024
      { w with units := w.units ++ ((rangeFrom lo (hi + 1 - lo)).map spadUnit).dedup })
    s c x { w0 with imm := immOf w0.pfx imm }

def runTldX (d : BitVec 6) : RunFn := fun s c w =>
  let k := s.core c
  let t := d.toNat
  let rows := selRows w (w.rows t)
  let pos := fun i j => (tldxStart w).toNat + i * bfxRowBits w.bfx (w.cols t) + bfxPos w.bfx j
  let touched := (rows.flatMap (fun i => (List.range (w.cols t)).flatMap (fun j =>
    [pos i j / 1024, (pos i j + bfxWidth w.bfx (j % bfxCount w.bfx) - 1) / 1024]))).dedup
  match poisonedSpad k (touched.mergeSort (fun a b => decide (a ≤ b))) with
  | some v => .trap 9 v s
  | none => tileRun s c w [] [] [t] (putTile w t rows (fun i j =>
      let wd := bfxWidth w.bfx (j % bfxCount w.bfx)
      bfxExtend (w.et t) wd (k.spadBits (pos i j) wd)))
def execTldX (d a : BitVec 6) (i : BitVec 10) (s : State) : Res :=
  issue (.tldX d a i) { eng := .v, srcs := [a.toNat] } (tldxChk i d.toNat) noAct (runTldX d) s

/-! ## Rotate-merge, liveness, codebook and row masks (R135-R138) -/

/-- Bytes sh .. sh + 127 of two rows laid end to end. -/
def rotMerge (lo hi : Row) (sh : Nat) : Row :=
  BitVec.ofNat 1024 ((lo.toNat + 2 ^ 1024 * hi.toNat) / 2 ^ (8 * sh))

def runVrmg (d t2 : BitVec 6) : RunFn := fun s c w =>
  let k := s.core c
  let td := d.toNat; let ts := t2.toNat
  let rows := selRows w (w.rows td)
  tileRun s c w (readRows td rows ++ readRows ts rows) [] [td] (fun k0 =>
    rows.foldl (fun k1 i => k1.putRow td i true (rotMerge (k.tileRow td i) (k.tileRow ts i) (op0 w).toNat)) k0)
def execVrmg (d a t2 : BitVec 6) (s : State) : Res :=
  issue (.vrmg d a t2) { eng := .v, srcs := [a.toNat] }
    (chkTiles [d.toNat, t2.toNat] (fun _ w =>
      if w.rows t2.toNat < w.rows d.toNat then some cSHAPE else if 127 < (op0 w).toNat then some cBOUNDS else none) (fun _ w => w))
    noAct (runVrmg d t2) s

/-- Every byte then reads as 0, and the tile is dead (R137). -/
def runTkill (d : BitVec 6) : RunFn := fun s c _ =>
  .done ((s.modCore c (fun k => k.clearUnit (tileUnit d.toNat))).modCtx c (fun x => { x with dead := addMark x.dead d.toNat }))
def execTkill (d : BitVec 6) (s : State) : Res :=
  issue (.tkill d) { eng := .v } (chkTiles [d.toNat] (fun _ _ => none) (fun _ w => w)) noAct (runTkill d) s

/-- Entry e of a codebook from the tile's bytes in row-major order (R63). -/
def cbEntry (k : Core) (t e : Nat) : Word := (k.tileRow t (e / 32)).extractLsb' (32 * (e % 32)) 32

def runVcbld (t : BitVec 6) : RunFn := fun s c w =>
  let k := s.core c
  tileRun s c w (readRows t.toNat (List.range 8)) [] [] id |> fun r =>
    match r with
    | .done s1 => .done (s1.modCtx c (fun x => { x with
        codebook := (List.range 256).foldl (fun m e => Map.put 0 m e (cbEntry k t.toNat e)) [] }))
    | other => other
def execVcbld (t : BitVec 6) (s : State) : Res :=
  issue (.vcbld t) { eng := .v }
    (chkTiles [t.toNat] (fun _ w => if w.sh t.toNat = mkShape 0x0C 8 128 then none else some cSHAPE) (fun _ w => w))
    noAct (runVcbld t) s

/-- An element is nonzero (R138). -/
def nonzeroElem (w : QWord) (k : Core) (t i j : Nat) : Bool :=
  if w.et t = 0x10 then decide (k.vqIndex t i (j / 8) ≠ 0)
  else if isFloatT (w.et t) then !(tval w k t i j).isZero else decide (k.elem t (w.et t) i j ≠ 0)

def rowMaskOf (w : QWord) (k : Core) (t : Nat) : Nat :=
  (List.range (w.rows t)).foldl (fun m i => if (List.range (w.cols t)).any (fun j => nonzeroElem w k t i j) then m + 2 ^ i else m) 0

def runVrowm (t : BitVec 6) : RunFn := fun s c w =>
  let k := s.core c
  let rows := List.range (w.rows t.toNat)
  let m := rowMaskOf w k t.toNat
  match tileRun s c w (readRows t.toNat rows) (if isFloatT (w.et t.toNat) then runsOf t.toNat (w.cols t.toNat) rows else []) [] id with
  | .done s1 => .done (s1.modCtx c (fun x => x.produceAll w.q6 [BitVec.ofNat 64 m, BitVec.ofNat 64 (m / 2 ^ 64)]))
  | r => r
def execVrowm (t : BitVec 6) (s : State) : Res :=
  issue (.vrowm t) { eng := .v, q6 := 2 }
    (chkTiles [t.toNat] (fun _ w => if w.et t.toNat = 0x11 then some cFMT else none) (fun _ w => w)) noAct (runVrowm t) s

end Sys2Proof.Machine
end

