-- ==== Sys2Proof/Machine/Matrix.lean ====
section
/-! DEFINITION. The M words (08_matrix_engine R140-R152; summation by 05_numbers R76-R78, format entries by R83-R85). -/

namespace Sys2Proof.Machine

/-! ## Pairings (R142) -/

/-- FP8 types. -/
def isFp8 (t : Nat) : Bool := t = 0x04 || t = 0x05

/-- The pair is a pairing, given MX scaling and sparsity (R142, R143 step 3). -/
def pairingOk (a b : Nat) (mx sp : Bool) : Bool :=
  if a = 0x0B && b = 0x0B || a = 0x0D && b = 0x0D then !mx
  else if isFp8 a && b = 0x10 then mx && !sp
  else (a = 0x02 && b = 0x02) || (a = 0x03 && b = 0x03) || (isFp8 a && isFp8 b) || (a = 0x08 && b = 0x08)

/-- The accumulator of an A type is INT32. -/
def intPairing (a : Nat) : Bool := isIntT a

/-- Group size G (R76). -/
def groupSize (a : Nat) : Nat := if ewidth a = 16 then 8 else if ewidth a = 8 then 16 else 32

/-! ## Modes of a multiply word (R143) -/

/-- The three multiply words. -/
inductive MulOp where
  | dense | sparse | gather
deriving DecidableEq, Repr

/-- Format entry fields (R83). -/
def fmtA (e : Word) : Nat := bits e.toNat 0 5
def fmtB (e : Word) : Nat := bits e.toNat 5 5
def fmtSp (e : Word) : Bool := bit e.toNat 10
def fmtMx (e : Word) : Bool := bit e.toNat 11
def fmtOut (e : Word) : Nat := bits e.toNat 12 5

/-- Flags: NSK, FT, Z. -/
def fNsk (f : BitVec 3) : Bool := f.getLsbD 2
def fFt (f : BitVec 3) : Bool := f.getLsbD 1
def fZ (f : BitVec 3) : Bool := f.getLsbD 0

def mulSparse (op : MulOp) (f : BitVec 3) (e : Word) : Bool := op = .sparse || (op = .dense && fFt f && fmtSp e)
def mulMx (f : BitVec 3) (e : Word) (etB : Nat) : Bool := if fFt f then fmtMx e else etB = 0x10

/-- K of a multiply word. -/
def mulK (sp : Bool) (w : QWord) (a b : Nat) : Nat := if sp then 2 * w.cols b else w.cols a

/-- A sparse word whose A does not fit one tile takes the pair ta, ta+1. -/
def mulPair (sp : Bool) (w : QWord) (a b : Nat) : Bool := sp && decide (1024 < mulK sp w a b * ewidth (w.et a))

/-- Checks of R143 steps 2-5. -/
def mulOwn (op : MulOp) (a b tx : Nat) (f : BitVec 3) : Ctx → QWord → Option Nat := fun x w =>
  let sp := mulSparse op f w.fmt
  let mx := mulMx f w.fmt (w.et b)
  let k := mulK sp w a b
  if fFt f && (bits w.fmt.toNat 17 15 ≠ 0 || w.et a ≠ fmtA w.fmt || w.et b ≠ fmtB w.fmt) then some cFMT
  else if !pairingOk (w.et a) (w.et b) mx sp then some cSHAPE
  else if op = .sparse && fFt f && !fmtSp w.fmt then some cSHAPE
  else if op = .gather && fFt f && fmtSp w.fmt then some cSHAPE
  else if !sp && w.cols b ≠ w.cols a then some cSHAPE
  else if sp && w.cols b % 4 ≠ 0 then some cSHAPE
  else if sp && !mulPair sp w a b && w.cols a ≠ k then some cSHAPE
  else if mulPair sp w a b && (a % 2 ≠ 0 || Map.get 0 x.shapes (a + 1) ≠ w.sh a || 2 * w.cols a ≠ k) then some cSHAPE
  else if sp && w.et tx ≠ 0x0C then some cFMT
  else if sp && !(w.rows tx = w.rows b && 4 * w.cols tx = w.cols b) then some cSHAPE
  else if op = .gather && w.et tx ≠ 0x09 then some cFMT
  else if op = .gather && (w.cols tx < w.rows a || !swzOk w.swz) then some cSHAPE
  else if mx then
    match w.mscl with
    | none => some cSHAPE
    | some (sa, sb) =>
      if w.et sa ≠ 0x11 || w.et sb ≠ 0x11 then some cFMT
      else if w.rows sa = w.rows a && w.cols sa = ceilDiv k 32 && w.rows sb = w.rows b && w.cols sb = ceilDiv k 32 then none
      else some cSHAPE
  else none

/-- Tiles a multiply word checks by R112. -/
def mulTiles (op : MulOp) (a b tx : Nat) (f : BitVec 3) (x : Ctx) (w : QWord) : List Nat :=
  let bt := shEt (Map.get 0 x.shapes b)
  (if op = .gather || mulSparse op f w.fmt then [a, b, tx] else [a, b]) ++
    (if mulMx f w.fmt bt then (match w.mscl with | some (sa, sb) => [sa, sb] | none => []) else [])

def mulChk (op : MulOp) (acc a b tx : Nat) (f : BitVec 3) : State → Nat → Ctx → QWord → Chk := fun s c x w0 =>
  chkTiles (mulTiles op a b tx f x w0) (mulOwn op a b tx f) (fun _ w => { w with
    shapes := if mulPair (mulSparse op f w.fmt) w a b then Map.ins w.shapes (a + 1) (w.sh a) else w.shapes
    units := w.units ++ (if mulPair (mulSparse op f w.fmt) w a b then [tileUnit (a + 1)] else [])
      ++ ((selRows w (w.rows a)).map (accUnit acc)).dedup }) s c x w0

/-! ## Sums (R76-R78, R144, R145) -/

/-- Split a list into runs of n. -/
def chunks {α : Type} (n : Nat) : Nat → List α → List (List α)
  | 0, _ => []
  | k + 1, l => l.take n :: chunks n k (l.drop n)

/-- Contributing products of one group of a float pairing: A elements that are zero contribute nothing. -/
def groupProducts (sa sb : Nat) (as : List Num) (bs : List (List Num)) : List Num :=
  (as.zip bs).flatMap (fun p => if p.1.isZero then [] else p.2.map (fun b => dequant sa (dequant sb (Num.mul p.1 b))))

/-- The exact sum of products. -/
def exactSum (ps : List Num) : Num := ps.foldl (Num.add 0) (.zero false)

/-- One float group added to an accumulator element (R76). -/
def accFloat (ftz : Nat) (acc : Nat) (sum : Num) : Nat :=
  if sum.isZero then acc else roundFloat 1 { ftz := ftz } (Num.add 0 (floatVal 1 acc) sum)

/-- A scale pattern of position 32q of a row; 127, which scales by one, where the word is not MX-scaled. -/
abbrev ScaleOf := Nat → Nat

/-- All groups of one element (i, n), float. -/
def mulFloat (ftz g : Nat) (sa sb : ScaleOf) : Nat → Nat → List (List Num) → List (List (List Num)) → Nat
  | acc, _, [], _ => acc
  | acc, _, _, [] => acc
  | acc, k, a :: as, b :: bs =>
    mulFloat ftz g sa sb (accFloat ftz acc (exactSum (groupProducts (sa (k / 32)) (sb (k / 32)) a b))) (k + g) as bs

/-- All products of one element, integer. -/
def mulInt (acc : Nat) (as : List Int) (bs : List (List Int)) : Nat :=
  wrapNat ((acc : Int) + ((as.zip bs).flatMap (fun p => p.2.map (fun b => p.1 * b))).foldl (· + ·) 0) 32

/-! ## Operands (R145, R146) -/

/-- The nibble of group q of row n of a metadata tile (R128). -/
def nibbleAt (k : Core) (tx n q : Nat) : Nat := k.elem tx 0x0C n (q / 2) / 16 ^ (q % 2) % 16

/-- Indices of the kept values standing at a dense position. -/
def keptAt (nib q pos : Nat) : List Nat :=
  (if nib % 4 = pos then [2 * q] else []) ++ (if nib / 4 = pos then [2 * q + 1] else [])

/-- Row n of B as values standing at each dense position; a position with nothing kept holds 0. -/
def bRow {α : Type} (sp : Bool) (zero : α) (kk : Nat) (nib : Nat → Nat) (val : Nat → α) : List (List α) :=
  (List.range kk).map (fun p =>
    if sp then
      match keptAt (nib (p / 4)) (p / 4) (p % 4) with
      | [] => [zero]
      | l => l.map val
    else [val p])

/-- Scratchpad row r as index i gathers it: as its own read found it (R146), or as it stands. -/
def gathRow (w : QWord) (k : Core) (i r : Nat) : RowVal :=
  (w.gath.find? (fun v => decide (v.key = gatherKey i r))).getD (k.rowVal (8192 + r))

/-- Row i of A as rows of bits: (tile columns, bits). -/
def aBits (op : MulOp) (w : QWord) (k : Core) (a tx i : Nat) : Row :=
  if op = .gather then
    match gatherRow w (intVal 0x09 (k.elem tx 0x09 0 i)) with
    | some r => unswizzle w.swz r (gathRow w k i r).val
    | none => 0
  else k.tileRow a i

/-- Patterns of row i of A, before the input flush. -/
def aPats (op : MulOp) (pair : Bool) (w : QWord) (k : Core) (a tx kk i : Nat) : List Nat :=
  let wd := ewidth (w.et a)
  if pair then (List.range (kk / 2)).map (rowElem (k.tileRow a i) wd) ++ (List.range (kk / 2)).map (rowElem (k.tileRow (a + 1) i) wd)
  else (List.range kk).map (rowElem (aBits op w k a tx i) wd)

/-- The scratchpad rows that A rows gather, with the index that names each (R146). -/
def gathered (op : MulOp) (w : QWord) (k : Core) (tx : Nat) (rows : List Nat) : List (Nat × Nat) :=
  if op = .gather then rows.filterMap (fun i => (gatherRow w (intVal 0x09 (k.elem tx 0x09 0 i))).map (fun r => (i, r))) else []

/-- The first poisoned row among those gathered, as its ECC tval (R308). -/
def poisonedGath (w : QWord) (k : Core) (gs : List (Nat × Nat)) : Option Dword :=
  (gs.find? (fun g => (gathRow w k g.1 g.2).bad)).map (fun g => BitVec.ofNat 64 (128 * g.2))

/-- Elements of gathered rows that the input flush changes: each once, however many indices read it (R68). -/
def gathFlushes (w : QWord) (k : Core) (et kk : Nat) (gs : List (Nat × Nat)) : Nat :=
  if w.ftz % 2 = 0 then 0
  else (((gs.map Prod.snd).dedup).map (fun r => ((List.range kk).filter (fun p => gs.any (fun g => decide (g.2 = r) &&
    (flushIn w.ftz et (rowElem (unswizzle w.swz r (gathRow w k g.1 r).val) (ewidth et) p)).2))).length)).sum

/-! ## Accumulator rows (R140) -/

def accElem (r : AccRow) (j : Nat) : Nat := (r.extractLsb' (32 * j) 32).toNat

/-- Replace n elements of an accumulator row from element `off`. -/
def setAccElems (r : AccRow) (off n : Nat) (f : Nat → Nat) : AccRow :=
  (List.range n).foldl (fun acc j => setBits acc (32 * (off + j)) 32 (f j)) r

def Core.accIsInt (k : Core) (a : Nat) : Bool := decide (a ∈ k.accInt)

def Core.setAccKind (k : Core) (a : Nat) (int : Bool) : Core :=
  { k with accInt := if int then addMark k.accInt a else k.accInt.filter (fun b => b ≠ a) }

/-- The first poisoned accumulator row among those read, as its ECC tval (R308). -/
def poisonedAcc (k : Core) (a : Nat) (rows : List Nat) : Option Dword :=
  (rows.find? (fun r => decide (128 * a + r ∈ k.accPoison))).map (fun r => BitVec.ofNat 64 (2 ^ 61 + 256 * a + r))

/-- Clear the marks of accumulator rows written whole. -/
def Core.healAcc (k : Core) (a : Nat) (rows : List Nat) : Core :=
  { k with accPoison := k.accPoison.filter (fun p => !(rows.any (fun r => decide (p = 128 * a + r)))) }

/-! ## The multiply words (R144) -/

/-- Groups in which every A element of every selected row is zero (R77). -/
def skippedGroups (g kk : Nat) (rows : List (List Bool)) : Nat :=
  ((List.range (ceilDiv kk g)).filter (fun q => rows.all (fun r => ((r.drop (g * q)).take g).all id))).length

/-- New accumulator elements of one selected row. -/
def mulRow (w : QWord) (g : Nat) (int : Bool) (as : List Nat) (etA : Nat) (sa : ScaleOf)
    (bf : List (List (List Num) × ScaleOf)) (bi : List (List (List Int))) (old : Nat → Nat) : List Nat :=
  if int then
    let av := as.map (intVal etA)
    bi.mapIdx (fun n b => mulInt (old n) av b)
  else
    let av := as.map (fun v => floatVal etA (flushIn w.ftz etA v).1)
    let ac := chunks g (ceilDiv as.length g) av
    bf.mapIdx (fun n b => mulFloat w.ftz g sa b.2 (old n) 0 ac (chunks g (ceilDiv as.length g) b.1))

/-- Rows of tiles that a multiply word reads, each once (R152): the operand tiles' in full, whatever the mask selects. -/
def mulReads (op : MulOp) (sp mx pair : Bool) (w : QWord) (a b tx : Nat) : List (Nat × Nat) :=
  let allA := List.range (w.rows a)
  let allB := List.range (w.rows b)
  (if op = .gather then [] else readRows a allA) ++ (if pair then readRows (a + 1) allA else []) ++ readRows b allB
    ++ (if sp || op = .gather then readRows tx (List.range (w.rows tx)) else [])
    ++ (if mx then readRows (w.mscl.getD (0, 0)).1 allA ++ readRows (w.mscl.getD (0, 0)).2 allB else [])

/-- Runs of float elements it reads there (R68): a tile that stands for both operands is read once. -/
def mulRuns (op : MulOp) (pair : Bool) (w : QWord) (a b : Nat) : List Run :=
  let allA := List.range (w.rows a)
  (if op = .gather then [] else runsOf a (w.cols a) allA) ++ (if pair then runsOf (a + 1) (w.cols a) allA else [])
    ++ (if w.et b = 0x10 then [] else runsOf b (w.cols b) (List.range (w.rows b)))

/-- The E8M0 scales of a row, where the word is MX-scaled. -/
def scalesOf (k : Core) (mx : Bool) (t i : Nat) : ScaleOf := fun q => if mx then k.elem t 0x11 i q else 127

/-- Of several poisoned rows the first is reported: of the tiles, then of the gathered rows, then of the accumulator.
DEDUCED: notes/assumptions/29. DESIGN CHOICE: notes/assumptions/111. -/
def mulRun (op : MulOp) (acc a b tx : Nat) (f : BitVec 3) : RunFn := fun s0 c w =>
  match s0.ctx c with
  | none => .done s0
  | some x =>
    let sp := mulSparse op f w.fmt
    let mx := mulMx f w.fmt (w.et b)
    let kk := mulK sp w a b
    let pair := mulPair sp w a b
    let rows := selRows w (w.rows a)
    let spRows := gathered op w (s0.core c) tx (List.range (w.rows a))
    let s := if w.gath.isEmpty then touchUnits s0 c x.me ((spRows.map (fun g => spadUnit g.2)).dedup) else s0
    let k := s.core c
    let sa := (w.mscl.getD (0, 0)).1
    let sb := (w.mscl.getD (0, 0)).2
    let allB := List.range (w.rows b)
    match poisonedTile k (mulReads op sp mx pair w a b tx) with
    | some v => .trap 9 v s
    | none =>
    match poisonedGath w k spRows with
    | some v => .trap 9 v s
    | none =>
    match (if fZ f then none else poisonedAcc k acc rows) with
    | some v => .trap 9 v s
    | none =>
      let etA := w.et a
      let etB := w.et b
      let int := intPairing etA
      let g := groupSize etA
      let as := rows.map (fun i => (i, aPats op pair w k a tx kk i))
      let bPats := fun n => (List.range (w.cols b)).map (k.elem b etB n)
      let bf : List (List (List Num) × ScaleOf) :=
        if int then []
        else allB.map (fun n =>
          let ps := bPats n
          (bRow sp (.zero false) kk (nibbleAt k tx n) (fun p =>
            if etB = 0x10 then vqElem (w.book.getD x.codebook) k b n p else floatVal etB (flushIn w.ftz etB (ps.getD p 0)).1),
           scalesOf k mx sb n))
      let bi := if int then allB.map (fun n => bRow sp 0 kk (nibbleAt k tx n) (fun p => intVal etB (k.elem b etB n p))) else []
      let zeros := as.map (fun p => p.2.map (fun v => if int then decide (intVal etA v = 0)
        else (floatVal etA (flushIn w.ftz etA v).1).isZero))
      let skips := if fNsk f then 0 else skippedGroups g kk zeros
      let n := if int then 0 else flushedIn w k (mulRuns op pair w a b)
        + gathFlushes w k etA kk spRows
      .done (((noteFlush s c n).count c evSKIP skips).modCore c (fun k0 =>
        (as.foldl (fun k1 p =>
          let old := k.accRow acc p.1
          let new := mulRow w g int p.2 etA (scalesOf k mx sa p.1) bf bi (fun j => if fZ f then 0 else accElem old j)
          k1.setAccRow acc p.1 (setAccElems old 0 (w.rows b) (fun j => new.getD j 0))) k0).setAccKind acc int))

def multiply (i : Instr) (op : MulOp) (acc : BitVec 2) (a b tx : BitVec 6) (f : BitVec 3) (run : RunFn) (s : State) : Res :=
  issue i { eng := .m } (mulChk op acc.toNat a.toNat b.toNat tx.toNat f) noAct run s

def runMma (c : BitVec 2) (a b x : BitVec 6) (f : BitVec 3) : RunFn := mulRun .dense c.toNat a.toNat b.toNat x.toNat f
def execMma (c : BitVec 2) (a b x : BitVec 6) (f : BitVec 3) (s : State) : Res :=
  multiply (.mma c a b x f) .dense c a b x f (runMma c a b x f) s
def runMmaSp (c : BitVec 2) (a b x : BitVec 6) (f : BitVec 3) : RunFn := mulRun .sparse c.toNat a.toNat b.toNat x.toNat f
def execMmaSp (c : BitVec 2) (a b x : BitVec 6) (f : BitVec 3) (s : State) : Res :=
  multiply (.mmaSp c a b x f) .sparse c a b x f (runMmaSp c a b x f) s
def runMmaG (c : BitVec 2) (a b x : BitVec 6) (f : BitVec 3) : RunFn := mulRun .gather c.toNat a.toNat b.toNat x.toNat f
def execMmaG (c : BitVec 2) (a b x : BitVec 6) (f : BitVec 3) (s : State) : Res :=
  multiply (.mmaG c a b x f) .gather c a b x f (runMmaG c a b x f) s

/-! ## Read-out and write-in (R149-R151) -/

/-- Bounds of `mrd` and `mwr` (R149). -/
def accBounds (w : QWord) (t col0 : Nat) (tr : Bool) : Bool :=
  decide (w.cols t ≤ 128) && (if tr then decide (col0 + w.rows t ≤ 128) else decide (col0 + w.cols t ≤ 128))

def accMoveChk (acc t col0 : Nat) (tr write : Bool) : State → Nat → Ctx → QWord → Chk :=
  chkTiles [t] (fun _ w => if !numericT (w.et t) then some cFMT else if accBounds w t col0 tr then none else some cSHAPE)
    (fun _ w =>
      let rows := if tr then (if write then selRows w (w.cols t) else List.range (w.cols t)) else selRows w (w.rows t)
      { w with units := w.units ++ (rows.map (accUnit acc)).dedup })

/-- An accumulator element as `mrd` narrows it. -/
def readOut (int : Bool) (td ftz : Nat) (k : Rnd) (v : Nat) : Nat :=
  if int then narrowInt td k (intVal 0x09 v) else narrow td k (floatVal 1 (flushIn ftz 1 v).1)

/-- With T every accumulator row that a column of td names is read if any row of td is selected; without it the selected
ones are.
DEDUCED: notes/assumptions/103. -/
def runMrd (acc : BitVec 2) (d : BitVec 6) (col : BitVec 8) (t : BitVec 1) : RunFn := fun s c w =>
  let k := s.core c
  let td := d.toNat; let a := acc.toNat; let col0 := col.toNat
  let tr := t = 1
  let rows := selRows w (w.rows td)
  let src := if tr then (if rows.isEmpty then [] else List.range (w.cols td)) else rows
  let get := fun i j => if tr then accElem (k.accRow a j) (col0 + i) else accElem (k.accRow a i) (col0 + j)
  let int := k.accIsInt a
  match poisonedAcc k a src with
  | some v => .trap 9 v s
  | none =>
    let n := if int then 0
      else (rows.map (fun i => ((List.range (w.cols td)).filter (fun j => (flushIn w.ftz 1 (get i j)).2)).length)).sum
    tileRunOf n s c w [] [td]
      (putTile w td rows (fun i j => readOut int (w.et td) w.ftz (rndAt w (i * w.cols td + j)) (get i j)))
def execMrd (c : BitVec 2) (d : BitVec 6) (k : BitVec 8) (t : BitVec 1) (s : State) : Res :=
  issue (.mrd c d k t) { eng := .m } (accMoveChk c.toNat d.toNat k.toNat (t = 1) false) noAct (runMrd c d k t) s

/-- An element extended to an accumulator's 32 bits (R150). The output flush applies to what it writes, as to every float
result and accumulator update (R68, R69). DESIGN CHOICE: notes/assumptions/88. -/
def writeIn (ftz et v : Nat) : Nat :=
  if isFloatT et then roundFloat 1 { ftz := ftz } (floatVal et (flushIn ftz et v).1) else intBits 0x09 (intVal et v)

/-- With T every row of ts is read if any accumulator row is selected; without it the selected ones are. Flushed elements
count where they are written.
DEDUCED: notes/assumptions/103. -/
def runMwr (acc : BitVec 2) (d : BitVec 6) (col : BitVec 8) (t : BitVec 1) : RunFn := fun s c w =>
  let k := s.core c
  let ts := d.toNat; let a := acc.toNat; let col0 := col.toNat
  let tr := t = 1
  let n := if tr then w.cols ts else w.rows ts
  let m := if tr then w.rows ts else w.cols ts
  let rows := selRows w n
  let src := if tr then (if rows.isEmpty then [] else List.range (w.rows ts)) else rows
  let flushes := if w.ftz % 2 = 0 then 0
    else (rows.map (fun r => ((List.range m).filter (fun j =>
      (flushIn w.ftz (w.et ts) (if tr then k.elem ts (w.et ts) j r else k.elem ts (w.et ts) r j)).2)).length)).sum
  tileRunOf flushes s c w (readRows ts src) [] (fun k0 =>
    let k1 := rows.foldl (fun k1 r => k1.setAccRow a r (setAccElems (k1.accRow a r) col0 m
      (fun j => writeIn w.ftz (w.et ts) (if tr then k.elem ts (w.et ts) j r else k.elem ts (w.et ts) r j)))) k0
    ((if m = 128 then k1.healAcc a rows else k1)).setAccKind a (!isFloatT (w.et ts)))
def execMwr (c : BitVec 2) (d : BitVec 6) (k : BitVec 8) (t : BitVec 1) (s : State) : Res :=
  issue (.mwr c d k t) { eng := .m } (accMoveChk c.toNat d.toNat k.toNat (t = 1) true) noAct (runMwr c d k t) s

def runMclr (acc : BitVec 2) : RunFn := fun s c w =>
  let rows := selRows w 128
  .done (s.modCore c (fun k => (rows.foldl (fun k1 r => k1.setAccRow acc.toNat r 0) k).healAcc acc.toNat rows))
def execMclr (c : BitVec 2) (s : State) : Res :=
  issue (.mclr c) { eng := .m } (fun _ _ _ w => .ok { w with units := ((selRows w 128).map (accUnit c.toNat)).dedup }) noAct (runMclr c) s

/-- The binding changes as the word passes capture (R147). -/
def runMscl : RunFn := runNone
def execMscl (a b : BitVec 6) (s : State) : Res :=
  issue (.mscl a b) { eng := .m } noChk (fun s c _ => s.modCtx c (fun x => { x with mscl := some (a.toNat, b.toNat) })) runMscl s
def runMsclOff : RunFn := runNone
def execMsclOff (s : State) : Res :=
  issue .msclOff { eng := .m } noChk (fun s c _ => s.modCtx c (fun x => { x with mscl := none })) runMsclOff s

end Sys2Proof.Machine
end

