-- ==== Sys2Proof/Machine/Selection.lean ====
section
/-! DEFINITION. The K words (17_selection_engine R241-R247). -/

namespace Sys2Proof.Machine

/-! ## Ranking (R243, R244) -/

/-- a stands above b: larger value, NaN above every number; -0 equals +0. -/
def above (a b : Num) : Bool := if a.isNan then !b.isNan else if b.isNan then false else Num.lt b a

/-- Insert before the first element it stands above, so that equal elements keep their order. -/
def insBy {α : Type} (up : α → α → Bool) (v : α) : List α → List α
  | [] => [v]
  | u :: t => if up u v then v :: u :: t else u :: insBy up v t

/-- Stable sort: `up u v` says v must stand before u. -/
def stableSort {α : Type} (up : α → α → Bool) (l : List α) : List α := l.foldl (fun acc v => insBy up v acc) []

/-- Indices in decreasing order of value, equal ones by increasing index. -/
def orderDown (xs : List Num) : List Nat :=
  (stableSort (fun u v => above v.1 u.1) (xs.mapIdx (fun i x => (x, i)))).map (fun p => p.2)

/-- Indices in increasing order of value, NaN last, equal ones in source order. -/
def orderUp (xs : List Num) : List Nat :=
  (stableSort (fun u v => above u.1 v.1) (xs.mapIdx (fun i x => (x, i)))).map (fun p => p.2)

/-- The count operand (R241). -/
def kCount (w : QWord) : Nat := (op0 w).toNat

def chkK (ts : List Nat) (types : QWord → Bool) (count : QWord → Bool) (shapes : QWord → Bool) : State → Nat → Ctx → QWord → Chk :=
  chkTiles ts (fun _ w => if !types w then some cFMT else if !count w then some cBOUNDS else if !shapes w then some cSHAPE else none)
    (fun _ w => w)

/-- A shape is n rows by m columns. -/
def isDims (w : QWord) (t n m : Nat) : Bool := decide (w.rows t = n) && decide (w.cols t = m)

def rankTypes (d a b : Nat) (w : QWord) : Bool := numericT (w.et a) && w.et b = w.et a && w.et d = 0x09

/-- Write row i of the index tile and of the value tile. -/
def putPair (w : QWord) (td tb : Nat) (rows : List Nat) (ix val : Nat → Nat → Nat) (k0 : Core) : Core :=
  putTile w tb rows val (putTile w td rows ix k0)

def runKtopc (d a b : BitVec 6) : RunFn := fun s c w =>
  let k := s.core c
  let td := d.toNat; let ta := a.toNat; let tb := b.toNat
  let all := List.range (w.rows ta)
  let orders := (List.range (w.cols ta)).map (fun j => orderDown (all.map (fun i => tval w k ta i j)))
  let ix := fun r j => (orders.getD j []).getD r 0
  tileRun s c w (readRows ta all) (runsOf ta (w.cols ta) all) [td, tb]
    (putPair w td tb (selRows w (w.rows td)) ix (fun r j => k.elem ta (w.et ta) (ix r j) j))
def execKtopc (d a b k : BitVec 6) (s : State) : Res :=
  issue (.ktopc d a b k) { eng := .k, srcs := [k.toNat] }
    (chkK [d.toNat, a.toNat, b.toNat] (rankTypes d.toNat a.toNat b.toNat)
      (fun w => 1 ≤ kCount w && kCount w ≤ w.rows a.toNat)
      (fun w => isDims w b.toNat (kCount w) (w.cols a.toNat) && isDims w d.toNat (kCount w) (w.cols a.toNat) && d ≠ b))
    noAct (runKtopc d a b) s

/-- A row-wise ranking word: td and tb take the order of each selected row; every row is read and ranked (R241). -/
def rowRank (order : List Num → List Nat) (d a b : BitVec 6) : RunFn := fun s c w =>
  let k := s.core c
  let td := d.toNat; let ta := a.toNat; let tb := b.toNat
  let rows := selRows w (w.rows td)
  let all := List.range (w.rows ta)
  let orders := all.map (fun i => (i, order ((List.range (w.cols ta)).map (fun j => tval w k ta i j))))
  let ix := fun i j => (Map.get [] orders i).getD j 0
  tileRun s c w (readRows ta all) (runsOf ta (w.cols ta) all) [td, tb]
    (putPair w td tb rows ix (fun i j => k.elem ta (w.et ta) i (ix i j)))

def runKtopr (d a b : BitVec 6) : RunFn := rowRank orderDown d a b
def execKtopr (d a b k : BitVec 6) (s : State) : Res :=
  issue (.ktopr d a b k) { eng := .k, srcs := [k.toNat] }
    (chkK [d.toNat, a.toNat, b.toNat] (rankTypes d.toNat a.toNat b.toNat)
      (fun w => 1 ≤ kCount w && kCount w ≤ Min.min (w.cols a.toNat) 32)
      (fun w => isDims w b.toNat (w.rows a.toNat) (kCount w) && isDims w d.toNat (w.rows a.toNat) (kCount w) && d ≠ b))
    noAct (runKtopr d a b) s

def runKsort (d a b : BitVec 6) : RunFn := rowRank orderUp d a b
def execKsort (d a b : BitVec 6) (s : State) : Res :=
  issue (.ksort d a b) { eng := .k }
    (chkK [d.toNat, a.toNat, b.toNat] (rankTypes d.toNat a.toNat b.toNat) (fun _ => true)
      (fun w => isDims w b.toNat (w.rows a.toNat) (w.cols a.toNat) && isDims w d.toNat (w.rows a.toNat) (w.cols a.toNat) && d ≠ b))
    noAct (runKsort d a b) s

/-! ## Merging (R245) -/

/-- The elements of fibre f: coordinates before the first negative one, with their value patterns.
DEDUCED: notes/assumptions/28. -/
def fibre (w : QWord) (k : Core) (ta tb f : Nat) : List (Int × Nat) :=
  ((List.range (w.cols ta)).map (fun j => (intVal 0x09 (k.elem ta 0x09 f j), k.elem tb (w.et tb) f j))).takeWhile (fun p => 0 ≤ p.1)

/-- A value as the merge reads it: flushed, NaN canonical. -/
def mergeRead (w : QWord) (et v : Nat) : Nat :=
  if et = 0x09 then v
  else
    let u := (flushIn w.ftz et v).1
    if (floatVal et u).isNan then canonNan et else u

/-- One addition at list position p. -/
def mergeAdd (w : QWord) (et p s v : Nat) : Nat :=
  if et = 0x09 then wrapNat (intVal 0x09 s + intVal 0x09 v) 32
  else roundFloat 1 { rndAt w p with sat := false } (Num.add w.rnd (floatVal et s) (floatVal et v))

/-- The smallest coordinate at any head. -/
def minHead (fs : List (List (Int × Nat))) : Option Int :=
  fs.foldl (fun m f => match f, m with
    | [], m => m
    | p :: _, none => some p.1
    | p :: _, some v => some (if p.1 < v then p.1 else v)) none

/-- Fold the values at coordinate c from the heads, in fibre order. -/
def takeCoord (w : QWord) (et p : Nat) (c : Int) : Option Nat → List (List (Int × Nat)) → Option Nat × List (List (Int × Nat))
  | s, [] => (s, [])
  | s, f :: fs =>
    let here := f.takeWhile (fun q => q.1 = c)
    let s1 := here.foldl (fun (s : Option Nat) q =>
      let v := mergeRead w et q.2
      some (match s with | none => v | some u => mergeAdd w et p u v)) s
    let r := takeCoord w et p c s1 fs
    (r.1, f.drop here.length :: r.2)

/-- The merged list; the fuel is the number of elements. -/
def mergeList (w : QWord) (et : Nat) : Nat → Nat → List (List (Int × Nat)) → List (Int × Nat)
  | 0, _, _ => []
  | n + 1, p, fs =>
    match minHead fs with
    | none => []
    | some c =>
      let r := takeCoord w et p c none fs
      (c, r.1.getD 0) :: mergeList w et n (p + 1) r.2

/-- Every row of both tiles is read (R241); the values it adds are flushed. -/
def runKmerge (d a b : BitVec 6) : RunFn := fun s c w =>
  let k := s.core c
  let td := d.toNat; let ta := a.toNat; let tb := b.toNat
  let src := List.range (kCount w)
  let fs := src.map (fibre w k ta tb)
  let out := mergeList w (w.et tb) ((fs.map List.length).sum) 0 fs
  let rows := selRows w (w.rows td)
  let at_ := fun i j => out[i * w.cols td + j]?
  tileRun s c w (readRows ta (List.range (w.rows ta)) ++ readRows tb (List.range (w.rows tb))) (fs.mapIdx (fun f l => (tb, f, l.length))) [td, td + 1]
    (putPair w td (td + 1) rows
      (fun i j => match at_ i j with | some p => wrapNat p.1 32 | none => 0xFFFFFFFF)
      (fun i j => match at_ i j with | some p => p.2 | none => 0))
/-- The shape record of td + 1 is checked only beside an even-numbered td; an odd-numbered one raises SHAPE (R112, R242).
DESIGN CHOICE: notes/assumptions/109. -/
def execKmerge (d a b n : BitVec 6) (s : State) : Res :=
  let td := d.toNat
  issue (.kmerge d a b n) { eng := .k, srcs := [n.toNat] }
    (chkK (if td % 2 = 0 then [td, a.toNat, b.toNat, td + 1] else [td, a.toNat, b.toNat])
      (fun w => w.et a.toNat = 0x09 && (w.et b.toNat = 0x01 || w.et b.toNat = 0x09) && w.et td = 0x09
        && (td % 2 = 1 || w.et (td + 1) = w.et b.toNat))
      (fun w => 1 ≤ kCount w && kCount w ≤ w.rows a.toNat)
      (fun w => td % 2 = 0 && sameDims w b.toNat a.toNat && kCount w * w.cols a.toNat ≤ w.rows td * w.cols td && sameDims w (td + 1) td))
    noAct (runKmerge d a b) s

/-! ## Counting and marking (R246, R247) -/

def runKhist (d a : BitVec 6) : RunFn := fun s c w =>
  let k := s.core c
  let td := d.toNat; let ta := a.toNat
  let all := List.range (w.rows ta)
  let vals := all.flatMap (fun i => (List.range (w.cols ta)).map (fun j => intVal (w.et ta) (k.elem ta (w.et ta) i j)))
  tileRun s c w (readRows ta all) [] [td]
    (putTile w td (selRows w (w.rows td)) (fun i j =>
      let bin := i * w.cols td + j
      if bin < kCount w then vals.countP (fun v => decide (v = (bin : Int))) else 0))
def execKhist (d a n : BitVec 6) (s : State) : Res :=
  issue (.khist d a n) { eng := .k, srcs := [n.toNat] }
    (chkK [d.toNat, a.toNat] (fun w => isIntT (w.et a.toNat) && w.et d.toNat = 0x09)
      (fun w => 1 ≤ kCount w && kCount w ≤ w.rows d.toNat * w.cols d.toNat) (fun _ => true))
    noAct (runKhist d a) s

def runKmark (d a : BitVec 6) : RunFn := fun s c w =>
  let k := s.core c
  let td := d.toNat; let ta := a.toNat
  let all := List.range (w.rows ta)
  tileRun s c w (readRows ta all) [] [td]
    (putTile w td (selRows w (w.rows td)) (fun i j =>
      if all.any (fun r => decide (intVal 0x09 (k.elem ta 0x09 r j) = (i : Int))) then 1 else 0))
def execKmark (d a n : BitVec 6) (s : State) : Res :=
  issue (.kmark d a n) { eng := .k, srcs := [n.toNat] }
    (chkK [d.toNat, a.toNat] (fun w => w.et a.toNat = 0x09 && w.et d.toNat = 0x12)
      (fun w => 1 ≤ kCount w && kCount w ≤ 128)
      (fun w => isDims w d.toNat (kCount w) (w.cols a.toNat)))
    noAct (runKmark d a) s

end Sys2Proof.Machine
end

