-- ==== Sys2Proof/Machine/Blocks.lean ====
section
/-! DEFINITION. Blocks in motion: descriptors, the microword's stages, beats, and the placement of global tensors
(05_numbers R80; 10_landing_maps R158, R169, R170; 11_transfer_engine R172, R187, R188). -/

namespace Sys2Proof.Machine

/-! ## Descriptor fields (R172) -/

def dEt (d : Rec512) : Nat := Rec512.f d 0 12 5
def dRank (d : Rec512) : Nat := Rec512.f d 0 17 2 + 1
def dSpace (d : Rec512) : Nat := Rec512.f d 0 19 2
def dBitoff (d : Rec512) : Nat := Rec512.f d 0 21 7
def dExt (d : Rec512) : Dword := Rec512.w d 1
def dBlock (d : Rec512) : Dword := Rec512.w d 2
def dPitch (d : Rec512) (k : Nat) : Nat := Rec512.f d (3 + k) 0 40
def dBase (d : Rec512) : Nat := Rec512.f d 6 0 20
def dMw (d : Rec512) : Nat := Rec512.f d 7 0 4

/-- Bit-packed by its own fields (R80). -/
def dPacked (d : Rec512) : Bool := dBitoff d ≠ 0 || dPitch d 0 % 8 ≠ 0 || dPitch d 1 % 8 ≠ 0 || dPitch d 2 % 8 ≠ 0

/-- First bit of row (r, p, q) of a scratchpad block (R80). -/
def dRowBit (d : Rec512) (r p q : Nat) : Nat := 8 * dBase d + dBitoff d + r * dPitch d 0 + p * dPitch d 1 + q * dPitch d 2

/-- First bit past the block (R173). -/
def dEnd (d : Rec512) : Nat :=
  dRowBit d (cRow (dBlock d) - 1) (cPlane (dBlock d) - 1) (cBatch (dBlock d) - 1) + cCol (dBlock d) * ewidth (dEt d)

/-- Elements of a block shape. -/
def volume (v : Dword) : Nat := cRow v * cCol v * cPlane v * cBatch v

/-- Rows of a block shape in order: (row, plane, batch), batch outermost. -/
def rowsOf (v : Dword) : List (Nat × Nat × Nat) :=
  (List.range (cBatch v)).flatMap (fun q => (List.range (cPlane v)).flatMap (fun p =>
    (List.range (cRow v)).map (fun r => (r, p, q))))

/-- Index of row (r, p, q)'s first element in its block (R188). -/
def elemIndex (v : Dword) (r p q : Nat) : Nat := ((q * cPlane v + p) * cRow v + r) * cCol v

/-- The parts of n bits at a bit address: byte, first bit in it, bits, bits below them. -/
def bytePieces (pos n : Nat) : List (Nat × Nat × Nat × Nat) :=
  (rangeFrom (pos / 8) ((pos + n - 1) / 8 + 1 - pos / 8)).map (fun b =>
    let lo := Max.max pos (8 * b)
    let hi := Min.min (pos + n) (8 * b + 8)
    (b, lo - 8 * b, hi - lo, lo - pos))

/-! ## What moves: elements, and whole indices of VQ2 (R163) -/

def cellBits (t : Nat) : Nat := if t = 0x10 then 16 else ewidth t
def cellCols (t : Nat) : Nat := if t = 0x10 then 8 else 1
def cellsIn (t cols : Nat) : Nat := ceilDiv cols (cellCols t)

/-- A cell: its pattern and whether it was read poisoned. -/
abbrev Cell := Nat × Bool

/-- A row of cells at its coordinates. -/
structure BRow where
  row : Nat
  plane : Nat
  batch : Nat
  cells : List Cell
deriving DecidableEq, Repr

/-- Reads n bits at a bit position. -/
abbrev BitsAt := Nat → Nat → Cell

/-- The scratchpad as bits; a poisoned row reads poisoned. -/
def spadAt (k : Core) : BitsAt := fun pos n =>
  (k.spadBits pos n, decide (pos / 1024 ∈ k.spadPoison) || decide ((pos + n - 1) / 1024 ∈ k.spadPoison))

/-! ## Microwords (R187) -/

def mwEn (m : Dword) (i : Nat) : Bool := bit m.toNat i
def mwUNP (m : Dword) : Bool := mwEn m 0
def mwEXP (m : Dword) : Bool := mwEn m 1
def mwDQ (m : Dword) : Bool := mwEn m 2
def mwSCL (m : Dword) : Bool := mwEn m 3
def mwCVT (m : Dword) : Bool := mwEn m 4
def mwQNT (m : Dword) : Bool := mwEn m 5
def mwTarget (m : Dword) : Nat := bits m.toNat 6 5
def mwRound (m : Dword) : Nat := bits m.toNat 11 3
def mwSet (m : Dword) : Nat := bits m.toNat 14 3
def mwSat (m : Dword) : Bool := bit m.toNat 17
def mwFactor (m : Dword) : Nat := bits m.toNat 48 16
/-- Bit-packed by its fields, or by an extraction set that its own microword names (R80). -/
def dPackedBy (d : Rec512) (own : Dword) : Bool := dPacked d || mwUNP own

/-- A stage that computes. -/
def mwValue (m : Dword) : Bool := mwDQ m || mwSCL m || mwCVT m || mwQNT m

/-- The etype that leaves (R85, R188): the target, or the format entry's out where the target is 0. -/
def outType (m : Dword) (fmt : Word) (et : Nat) : Nat :=
  if mwCVT m || mwQNT m then (if mwTarget m = 0 then fmtOut fmt else mwTarget m) else et

/-- Read the first n cells of a row through UNP or EXP, or plainly (R80, R188). `rb` is the row's first bit, `pitch` the
bits to the next row, `cols` the block's columns. -/
def readCells (get : BitsAt) (m : Dword) (bfx : List Dword) (et rb pitch cols n : Nat) : List Cell :=
  let wd := cellBits et
  if mwUNP m then
    (List.range n).map (fun c =>
      let v := get (rb + bfxPos bfx c) (bfxWidth bfx (c % bfxCount bfx))
      (bfxExtend et (bfxWidth bfx (c % bfxCount bfx)) v.1, v.2))
  else if mwEXP m then
    let map := (List.range (cellsIn et cols)).map (fun c => get (rb + c) 1)
    let first := 8 * ceilDiv (cellsIn et cols) 8
    (List.range n).map (fun c =>
      let here := map.getD c (0, false)
      if here.1 = 0 then (0, here.2)
      else
        let off := first + wd * ((map.take c).countP (fun b => decide (b.1 = 1)))
        if pitch < off + wd then (0, here.2)
        else let v := get (rb + off) wd; (v.1, v.2 || here.2))
  else (List.range n).map (fun c => get (rb + c * wd) wd)

/-- Rounding of the CVT and QNT stages at element e (R65, R66, R188). -/
def mwRnd (m : Dword) (ftz : Nat) (seed srq : BitVec 32) (e : Nat) : Rnd :=
  { mode := mwRound m, r := if mwRound m = 4 then srValue seed srq e else 0, sat := mwSat m, ftz := ftz }

/-- The computing stages on one row (R188): the cells that leave, the block scales of QNT, the elements flushed. -/
def stageRow (m : Dword) (et out ftz : Nat) (seed srq : BitVec 32) (scale : Nat → Nat) (e0 : Nat) (cells : List Cell) :
    List Cell × List Cell × Nat :=
  if !mwValue m then (cells, [], 0)
  else
    let fl := cells.map (fun c => flushIn ftz et c.1)
    let vals := fl.mapIdx (fun c v =>
      let x := elemVal et v.1
      let y := if mwDQ m then dequant (scale c) x else x
      if mwSCL m then Num.mul y (floatVal 0x02 (flushIn ftz 0x02 (mwFactor m)).1) else y)
    let k := fun c => mwRnd m ftz seed srq (e0 + c)
    let n := (fl.filter (fun v => v.2)).length
    if mwQNT m then
      let q := quantRow out k vals
      (q.1.mapIdx (fun c v => (v, (cells.getD c (0, false)).2)),
       q.2.mapIdx (fun b v => (v, ((cells.drop (32 * b)).take 32).any (fun c => c.2))), n)
    else if mwDQ m || mwSCL m then (vals.mapIdx (fun c v => (narrow out (k c) v, (cells.getD c (0, false)).2)), [], n)
    else (fl.mapIdx (fun c v => (convert et out (k c) v.1, (cells.getD c (0, false)).2)), [], n)

/-! ## Beats (R158) -/

/-- Pack cells from the least significant bit up. -/
def packCells (wd : Nat) : List Cell → Nat
  | [] => 0
  | c :: t => c.1 % 2 ^ wd + 2 ^ wd * packCells wd t

/-- Beats of one row. A row, column or offset past the 16 bits of its field stands in full: it does not wrap.
DESIGN CHOICE: notes/assumptions/106. -/
def beatsOfRow (et : Nat) (r : BRow) : List Beat :=
  let wd := cellBits et
  (chunks (512 / wd) (ceilDiv r.cells.length (512 / wd)) r.cells).mapIdx (fun k cs =>
    let n := ceilDiv (cs.length * wd) 8
    { row := r.row, plane := r.plane, batch := r.batch, off := 64 * k, count := n, pad := 8 * n - cs.length * wd,
      poison := cs.any (fun c => c.2), data := BitVec.ofNat 512 (packCells wd cs) })

def beatsOf (et : Nat) (rows : List BRow) : List Beat := rows.flatMap (beatsOfRow et)

/-- Cells of a beat with their columns (R158). -/
def beatCells (h : Hdr) (b : Beat) : List (Nat × Nat) :=
  let wd := cellBits h.etype
  (List.range ((8 * b.count - b.pad) / wd)).map (fun k =>
    (cCol h.origin + (8 * b.off / wd + k) * cellCols h.etype, (b.data.extractLsb' (k * wd) wd).toNat))

/-- The rows of a scratchpad block that are sent (R177): clipped to the descriptor's extents, at coordinates counted from
an origin, with their stages, and the scales of QNT as rows of a second block. Row i of an `xsca` list takes the
stochastic-rounding indices that row i of the block has (R66), whatever block.row says. DESIGN CHOICE: notes/assumptions/84. -/
def localRows (k : Core) (d : Rec512) (origin : Dword) (m : Dword) (bfx : List Dword) (out ftz : Nat) (seed srq : BitVec 32)
    (rows : List (Nat × Nat × Nat)) : List (BRow × BRow × Nat) :=
  (rows.filter (fun i => decide (i.1 < cRow (dExt d)) && decide (i.2.1 < cPlane (dExt d)) && decide (i.2.2 < cBatch (dExt d)))).map
    (fun i =>
      let n := cellsIn (dEt d) (Min.min (cCol (dBlock d)) (cCol (dExt d)))
      let cells := readCells (spadAt k) m bfx (dEt d) (dRowBit d i.1 i.2.1 i.2.2) (dPitch d 0) (cCol (dBlock d)) n
      let r := stageRow m (dEt d) out ftz seed srq (fun _ => 0) (elemIndex (dBlock d) i.1 i.2.1 i.2.2) cells
      let mk := fun cs => { row := cRow origin + i.1, plane := cPlane origin + i.2.1, batch := cBatch origin + i.2.2, cells := cs : BRow }
      (mk r.1, mk r.2.1, r.2.2))

/-- The rows of a whole scratchpad block as they stand, without stages (R217, R275, R277). -/
def blockRows (k : Core) (d : Rec512) : List BRow :=
  (rowsOf (dBlock d)).map (fun i =>
    { row := i.1, plane := i.2.1, batch := i.2.2
      cells := readCells (spadAt k) 0 [] (dEt d) (dRowBit d i.1 i.2.1 i.2.2) (dPitch d 0) (cCol (dBlock d))
        (cellsIn (dEt d) (cCol (dBlock d))) })

/-! ## Global tensors (R169, R170) -/

def gTag (g : Rec512) : Nat := Rec512.f g 0 0 12
def gEt (g : Rec512) : Nat := Rec512.f g 0 12 5
def gSkew (g : Rec512) : Nat := Rec512.f g 0 17 7
def gExt (g : Rec512) : Dword := Rec512.w g 1
def gBlock (g : Rec512) : Dword := Rec512.w g 2
def gBase (g : Rec512) : Nat := (Rec512.w g 3).toNat
def gStride (g : Rec512) : Nat := (Rec512.w g 4).toNat

/-- Bytes of a block, rounded up to 128. -/
def gBlockBytes (g : Rec512) : Nat := ceilDiv (ceilDiv (volume (gBlock g) * ewidth (gEt g)) 8) 128 * 128

/-- Number of the block that holds an element. -/
def gNumber (g : Rec512) (row col plane batch : Nat) : Nat :=
  let nb := fun (f : Dword → Nat) => ceilDiv (f (gExt g)) (f (gBlock g))
  ((batch / cBatch (gBlock g) * nb cPlane + plane / cPlane (gBlock g)) * nb cRow + row / cRow (gBlock g)) * nb cCol
    + col / cCol (gBlock g)

/-- Blocks of a tensor. -/
def gBlocks (g : Rec512) : Nat :=
  let nb := fun (f : Dword → Nat) => ceilDiv (f (gExt g)) (f (gBlock g))
  nb cBatch * nb cPlane * nb cRow * nb cCol

def gSlice (g : Rec512) (b : Nat) : Nat := (b + gSkew g) % 128

/-- Virtual address of a block. -/
def gStart (g : Rec512) (b : Nat) : Nat := gBase g + gSlice g b * gStride g + b / 128 * gBlockBytes g

/-- Bit address of an element. -/
def gElemBit (g : Rec512) (row col plane batch : Nat) : Nat :=
  let v := gBlock g
  8 * gStart g (gNumber g row col plane batch) +
    (((batch % cBatch v * cPlane v + plane % cPlane v) * cRow v + row % cRow v) * cCol v + col % cCol v) * ewidth (gEt g)

/-- Inside the extents. -/
def inExtents (e : Dword) (row col plane batch : Nat) : Bool :=
  decide (row < cRow e) && decide (col < cCol e) && decide (plane < cPlane e) && decide (batch < cBatch e)

/-- A slice's copy of a tenant's map, if the slice holds it (R186). -/
def State.gmapAt (s : State) (t tag slice : Nat) : Option Rec512 :=
  if slice ∈ Map.get [] (s.tenant t).gslices tag then Map.at? (s.tenant t).gmaps tag else none

/-- Physical address of a pinned byte (R186). -/
def Tenant.pinned (t : Tenant) (tag va : Nat) : Option Nat :=
  (Map.at? (Map.get [] t.pins tag) (va / 65536)).map (fun f => f + va % 65536)

/-- Bytes of a pinned region as bits. -/
def globAt (s : State) (t tag : Nat) : BitsAt := fun pos n =>
  let lo := pos / 8
  let bs := (rangeFrom lo ((pos + n - 1) / 8 + 1 - lo)).map (fun a => (s.tenant t).pinned tag a)
  let v := bs.foldr (fun p acc => (match p with | some a => (s.byte a).toNat | none => 0) + 256 * acc) 0
  (v / 2 ^ (pos % 8) % 2 ^ n, bs.any (fun p => match p with | some a => s.poisoned a 1 | none => false))

end Sys2Proof.Machine
end

