-- ==== Sys2Proof/Machine/Transfer.lean ====
section
/-! DEFINITION. The data commands and word atomics of the X engine (11_transfer_engine R174-R183, R187, R188). -/

namespace Sys2Proof.Machine

/-- The cause of the first breach of a list of checks. -/
def firstBreach : List (Bool × Nat) → Option Nat
  | [] => none
  | (b, c) :: t => if b then some c else firstBreach t

/-! ## Destinations (R174, R324) -/

def dwCore (b : Dword) : Nat := bits b.toNat 0 9
def dwDev (b : Dword) : Nat := bits b.toNat 9 10
def dwMcast (b : Dword) : Bool := bit b.toNat 19
def dwGroup (b : Dword) : Nat := bits b.toNat 20 8
def dwLocal (b : Dword) : Bool := dwDev b = 0x3FF

/-- Members of a multicast group of this device. -/
def Tenant.members (t : Tenant) (g : Nat) : List Nat :=
  let r := Map.get 0 t.mcgrp g
  if r.getLsbD 384 then (List.range Config.numCores).filter (fun c => r.getLsbD c) else []

/-- A device number has an endpoint (R265), or is this device. -/
def Tenant.devOk (t : Tenant) (dev : Nat) : Bool := dev = 0x3FF || (Map.get 0 t.endpoints dev).getLsbD 0

/-- The destination word breaks R174. -/
def destBad (t : Tenant) (b : Dword) : Bool :=
  (!dwMcast b && decide (384 ≤ dwCore b)) || (dwMcast b && dwLocal b && (t.members (dwGroup b)).isEmpty) || !t.devOk (dwDev b)

/-- Destinations when the word issues. A remote group is addressed as core 512 + group. -/
def destLeaves (t : Tenant) (b : Dword) : List Leaf :=
  if !dwLocal b then [.remote (dwDev b) (if dwMcast b then 512 + dwGroup b else dwCore b)]
  else if dwMcast b then (t.members (dwGroup b)).map Leaf.core else [.core (dwCore b)]

/-! ## The map cache (R186) -/

/-- This strand has an `xgunmap` of the tag under way. -/
def Ctx.unmapping (x : Ctx) (tag : Nat) : Bool :=
  let is := fun (w : QWord) => match w.instr with | .xgunmap _ => decide ((op0 w).toNat % 4096 = tag) | _ => false
  x.qs.any is || x.fly.any (fun w => !w.finished && is w)

/-- The map of a tag in the core's cache, and whether a miss can be filled from slice 0. -/
def gmapLookup (s : State) (c : Nat) (x : Ctx) (tag : Nat) : Option Rec512 × Bool :=
  match Map.at? (Map.get [] (s.core c).gcache x.tenant) tag with
  | some g => (some g, false)
  | none => (none, !x.unmapping tag && (s.gmapAt x.tenant tag 0).isSome)

/-! ## Capture (R176) -/

/-- The six data commands. -/
inductive DataOp where
  | get | put | send | gat | sca | acc
deriving DecidableEq, Repr

def DataOp.global (o : DataOp) : Bool := o = .get || o = .gat
def DataOp.listed (o : DataOp) : Bool := o = .gat || o = .sca
def DataOp.accum (o : DataOp) : Bool := o = .sca || o = .acc
def DataOp.code : DataOp → Nat
  | .get => 1 | .put => 2 | .send => 3 | .gat => 4 | .sca => 5 | .acc => 6

/-- Etypes that accumulate (R181). -/
def accumType (t : Nat) : Bool := t ∈ [0x01, 0x02, 0x03, 0x04, 0x05, 0x09, 0x0A, 0x0B, 0x0C]

/-- Index word fields (R178). -/
def ixCol (a : Dword) : Nat := bits a.toNat 48 16
def ixCount (a : Dword) : Nat := bits a.toNat 32 16
def ixList (a : Dword) : Nat := bits a.toNat 0 20

/-- A coordinate is a multiple of a shape in every dimension. -/
def aligned (a v : Dword) : Bool :=
  cRow a % cRow v = 0 && cCol a % cCol v = 0 && cPlane a % cPlane v = 0 && cBatch a % cBatch v = 0

/-- The microword checks of R187 and R80 at a command. -/
def mwBad (o : DataOp) (d : Rec512) (m own : Dword) (bfx : List Dword) (fmt : Word) (g2 : Option Rec512) (g : Option Rec512) : Bool :=
  (mwDQ m && !o.global) || (mwQNT m && (o.global || o.accum)) || (dPackedBy d own && !mwUNP m)
    || (mwUNP m && !bfxOk bfx (dEt d))
    || (mwValue m && dEt d = 0x10)
    || ((mwCVT m || mwQNT m) && decide (mwTarget m = 0) &&
        (decide (bits fmt.toNat 17 15 ≠ 0) || decide (fmtOut fmt = 0) || !etypeOk (fmtOut fmt)
          || (mwCVT m && (fmtOut fmt = 0x10 || fmtOut fmt = 0x11)) || (mwQNT m && !qTarget (fmtOut fmt))))
    || (mwDQ m && !(match g2, g with
        | some h, some g => gEt h = 0x11 && cRow (gBlock h) = cRow (gBlock g) && cCol (gBlock h) = ceilDiv (cCol (gBlock g)) 32
            && cRow (gExt h) = cRow (gExt g) && gSkew h = gSkew g
        | _, _ => false))

/-- Bytes of the local rows a command reads, as named accesses (R195). -/
def localFoot (d : Rec512) (m : Dword) (bfx : List Dword) (rows : List (Nat × Nat × Nat)) : List Foot :=
  rows.map (fun i =>
    let b := dRowBit d i.1 i.2.1 i.2.2
    let n := if mwUNP m then bfxRowBits bfx (cCol (dBlock d)) else if mwEXP m then dPitch d 0 else cCol (dBlock d) * ewidth (dEt d)
    ⟨false, b / 8, (b + n + 7) / 8⟩)

/-- Scratchpad units a byte range touches. -/
def footUnits (fs : List Foot) : List Nat :=
  (fs.flatMap (fun f => if f.glob || f.hi ≤ f.lo then [] else rangeFrom (spadUnitOf f.lo) (spadUnitOf (f.hi - 1) + 1 - spadUnitOf f.lo))).dedup

/-- Local accesses of a command from position `next` of an index list on, n positions: the rows `xsca` sends and the
indices (R178, R195). -/
def listFoot (o : DataOp) (d : Rec512) (m : Dword) (bfx : List Dword) (a : Dword) (next n : Nat) : List Foot :=
  (if o.global then [] else localFoot d m bfx ((rangeFrom next n).map (fun i => (i, 0, 0))))
    ++ [⟨false, ixList a + 4 * next, ixList a + 4 * (next + n)⟩]

/-- Indices that the X engine reads at a time (R178). -/
def batchLen : Nat := 8

/-- Rows that the batch at a position of the list needs. -/
def batchKeys (o : DataOp) (d : Rec512) (m : Dword) (bfx : List Dword) (a : Dword) (next : Nat) : List Nat :=
  (footRows (listFoot o d m bfx a next (Min.min batchLen (ixCount a - next)))).map (fun r => 8192 + r)

/-- Capture of a data command.
DEDUCED: notes/assumptions/79. -/
def dataChk (o : DataOp) (slot mw : Nat) (sel : Bool) : State → Nat → Ctx → QWord → Chk := fun s c x w =>
  let t := s.tenant x.tenant
  match Map.at? x.desc slot with
  | none => .trap cBOUNDS (w.raw.setWidth 64)
  | some d =>
    let a := w.ops.getD 0 0
    let b := w.ops.getD 1 0
    let m := Map.get 0 x.mws (if sel then mw else dMw d)
    let bfx := x.bfxSet (mwSet m)
    let here := o.global || (o ≠ .send && dwLocal b)
    let lk := if here then gmapLookup s c x (dTag d) else (none, false)
    let lk2 := if (mwDQ m && o.global) || (mwQNT m && here) then gmapLookup s c x ((dTag d + 1) % 4096) else (none, false)
    if dSpace d ≠ (if o.global then 1 else 0) then .trap cBOUNDS (w.raw.setWidth 64)
    else if lk.2 then .stall (.gmap (dTag d))
    else if here && lk.1.isNone then .trap cMAP (w.raw.setWidth 64)
    else if lk2.2 then .stall (.gmap ((dTag d + 1) % 4096))
    else
      let g := lk.1.getD 0
      let out := outType m w.fmt (dEt d)
      let vol1 := coord 1 (cCol (gBlock g)) 1 1
      let foot := if o.listed then listFoot o d m bfx a 0 (ixCount a) else if o.global then [] else localFoot d m bfx (rowsOf (dBlock d))
      let keys := if o.listed then batchKeys o d m bfx a 0 else (footRows foot).map (fun r => 8192 + r)
      match firstBreach [
        (here && decide ((if o.global then dEt d else out) ≠ gEt g), cFMT),
        (o.accum && !accumType out, cFMT),
        (here && decide (dBlock d ≠ (if o.listed then vol1 else gBlock g)), cSHAPE),
        (here && !o.listed && !(aligned a (gBlock g) && inExtents (gExt g) (cRow a) (cCol a) (cPlane a) (cBatch a)), cBOUNDS),
        (!here && (o = .put || o = .acc) && !aligned a (dBlock d), cBOUNDS),
        (mwBad o d m (Map.get 0 x.mws (dMw d)) bfx w.fmt lk2.1 lk.1, cFMT),
        (o.listed && (decide (ixCount a = 0) || decide (bits a.toNat 20 12 ≠ 0) || decide (ixList a % 4 ≠ 0)
          || decide (Config.flagBase < ixList a + 4 * ixCount a)
          || decide (ixCol a % cCol (dBlock d) ≠ 0) || (here && decide (cCol (gExt g) ≤ ixCol a))), cBOUNDS),
        (o = .sca && decide (8 * Config.flagBase < dRowBit d (ixCount a - 1) 0 0 + cCol (dBlock d) * ewidth (dEt d)), cBOUNDS),
        (if o = .put || o.accum then !t.devOk (dwDev b) else destBad t b, cBOUNDS)] with
      | some cause => .trap cause (w.raw.setWidth 64)
      | none => .ok { w with desc := d, mw := m, bfx := bfx, gmap := g, gmap2 := lk2.1.getD 0, foot := foot, keys := some keys, units := footUnits foot }

/-! ## Issue (R177-R180) -/

/-- A command under the word's sequencer that awaits the given numbers. -/
def openCmd (s : State) (c : Nat) (x : Ctx) (w : QWord) (op5 tag group : Nat) (pend : List Nat) : State × Nat :=
  (s.newCmd { core := c, uid := x.uid, tenant := x.tenant, lid := x.lid, spanid := x.spanid, cls := x.cls, op5 := op5, tag := tag
              seqr := w.seqr, opn := w.opn, word := w.seq, pend := pend, q6 := w.q6, group := group
              nsig := (maskList w.pfx.signal).length }, s.nextId)

def pkt (x : Ctx) (c cmd : Nat) (dst : Leaf) (acks : List Nat) (kind : PKind) : Packet :=
  { seq := 0, kind := kind, src := .core c, dst := dst, tenant := x.tenant, cls := x.cls, cmd := cmd, acks := acks }

/-- A command that has sent its packets, or that has none to wait for. -/
def issued (s : State) (pend : List Nat) : RunRes := if pend.isEmpty then .done s else .sent s

/-- The numbers in a range, paired with a list. -/
def numbered {α : Type} (from_ : Nat) (l : List α) : List (α × Nat) := l.mapIdx (fun i a => (a, from_ + i))

/-- Send a block to destinations whose copies are numbered: its beats and a close marker (R158). -/
def blockPackets (x : Ctx) (c cmd : Nat) (tag et : Nat) (origin : Dword) (beats : List Beat) (dests : List (Leaf × Nat)) : List Packet :=
  dests.zipIdx.flatMap (fun d =>
    let h : Hdr := { tag := tag, tenant := x.tenant, origin := origin, blk := d.1.2, etype := et }
    let tw := fun (p : Packet) => { p with twin := decide (d.2 ≠ 0) }
    (beats.map (fun b => tw (pkt x c cmd d.1.1 [d.1.2] (.beat h b)))) ++ [tw (pkt x c cmd d.1.1 [d.1.2] (.close h beats.length false))])

/-- Origin of the scales of a block (R188). -/
def scaleOrigin (o : Dword) : Dword := coord (cRow o) (cCol o / 32) (cPlane o) (cBatch o)

/-- The block request of `xget`, or one row of `xgat` (R177, R179). -/
def requestPacket (x : Ctx) (c cmd : Nat) (w : QWord) (src origin : Dword) (dests : List (Leaf × Nat)) (rid : Nat) : Packet :=
  pkt x c cmd (.slice (gSlice w.gmap (gNumber w.gmap (cRow src) (cCol src) (cPlane src) (cBatch src)))) (rid :: dests.map (fun d => d.2))
    (.blockReq w.desc w.mw src origin (outType w.mw w.fmt (dEt w.desc)) dests w.ftz w.seed w.srq w.bfx rid)

def runXget : RunFn := fun s c w =>
  match s.ctx c with
  | none => .done s
  | some x =>
    let leaves := destLeaves (s.tenant x.tenant) (op1 w)
    if leaves.isEmpty then .done s
    else
      let f := s.fresh (leaves.length + 1)
      let dests := numbered s.nextId leaves
      let rid := s.nextId + leaves.length
      let r := openCmd f.1 c x w 1 (dTag w.desc) 0 f.2
      .sent (r.1.send (requestPacket x c r.2 w (op0 w) (op0 w) dests rid))
def execXget (d : BitVec 4) (a b : BitVec 6) (m : BitVec 4) (k : BitVec 1) (s : State) : Res :=
  issue (.xget d a b m k) { eng := .x, srcs := [a.toNat, b.toNat], mem := true } (dataChk .get d.toNat m.toNat (k = 1)) noAct runXget s

/-- The indices of one batch of a list, with their positions (R178).
DEDUCED: notes/assumptions/31. -/
def batchOf (k : Core) (a : Dword) (next : Nat) : List (Int × Nat) :=
  (rangeFrom next (Min.min batchLen (ixCount a - next))).map (fun i => (toSigned (k.spadBits (8 * (ixList a + 4 * i)) 32) 32, i))

/-- Numbers that a command does not await after all. -/
def State.notAwaited (s : State) (cmd : Nat) (ids : List Nat) : State :=
  { s with cmds := Map.modify s.cmds cmd (fun m => { m with pend := m.pend.filter (fun a => decide (a ∉ ids)) }) }

/-- The list is through: the command finishes at once when nothing of it is awaited. -/
def listEnd (s : State) (cmd : Nat) : RunRes :=
  match Map.at? s.cmds cmd with
  | some m => if m.pend.isEmpty then .done { s with cmds := Map.del s.cmds cmd } else .sent s
  | none => .done s

/-- A word at position `next` of its list: what it still names and reads. -/
def QWord.atIndex (o : DataOp) (w : QWord) (l : Listing) : QWord :=
  { w with lst := some l, foot := listFoot o w.desc w.mw w.bfx (op0 w) l.next (ixCount (op0 w) - l.next) }

/-- Go through a list of tenant t batch by batch (R178): the rows of one are issued before the next is read. With no choice of row
accesses left and nothing of the tenant's held in the core, the batches follow one another in one step. The fuel is the number of
batches. -/
def listLoop (o : DataOp) (batch : State → Listing → State) (c t : Nat) (w : QWord) : Nat → State → Listing → RunRes
  | 0, s, l => listEnd s l.cmd
  | n + 1, s, l =>
    let s1 := batch s l
    let l1 := { l with next := l.next + batchLen }
    if ixCount (op0 w) ≤ l1.next then listEnd s1 l.cmd
    else if s1.picks.isEmpty && !s1.limited c t .x then listLoop o batch c t w n s1 l1
    else .again s1 (w.atIndex o l1) (batchKeys o w.desc w.mw w.bfx (op0 w) l1.next)

/-- An `xgat` or `xsca` that starts, with `per` numbers for each index, or goes on. -/
def listRun (o : DataOp) (leaves : List Leaf) (per : Nat) (batch : State → Listing → State) (s : State) (c : Nat) (x : Ctx) (w : QWord) : RunRes :=
  let n := ixCount (op0 w)
  match w.lst with
  | some l => listLoop o batch c x.tenant w (ceilDiv n batchLen) s l
  | none =>
    let f := s.fresh (per * n)
    let r := openCmd f.1 c x w o.code (dTag w.desc) 0 f.2
    listLoop o batch c x.tenant w (ceilDiv n batchLen) r.1 { next := 0, cmd := r.2, first := s.nextId, leaves := leaves }

/-- Positions whose index is outside the row extent are counted (R179, R180). -/
def noteOob (s : State) (c n : Nat) : State := if n = 0 then s else (s.count c evOOB n).modCtx c (fun x => x.stick stOOB)

/-- An index outside the row extent. -/
def outside (rows : Nat) (v : Int) : Bool := decide (v < 0) || decide ((rows : Int) ≤ v)

/-- One batch of `xgat` (R179): a request for each row, and for an index outside the extent close markers that name no beat. -/
def gatBatch (c : Nat) (x : Ctx) (w : QWord) (s : State) (l : Listing) : State :=
  let n := l.leaves.length
  let ix := batchOf (s.core c) (op0 w) l.next
  let bad := ix.filter (fun p => outside (cRow (gExt w.gmap)) p.1)
  let num := fun (i : Nat) => l.first + (n + 1) * i
  let s1 := (noteOob s c bad.length).notAwaited l.cmd (bad.map (fun p => num p.2 + n))
  s1.sendAll (ix.flatMap (fun p =>
    let dests := numbered (num p.2) l.leaves
    let origin := coord p.2 (ixCol (op0 w)) 0 0
    if outside (cRow (gExt w.gmap)) p.1 then blockPackets x c l.cmd (dTag w.desc) (outType w.mw w.fmt (dEt w.desc)) origin [] dests
    else [requestPacket x c l.cmd w (coord p.1.toNat (ixCol (op0 w)) 0 0) origin dests (num p.2 + n)]))

def runXgat : RunFn := fun s c w =>
  match s.ctx c with
  | none => .done s
  | some x =>
    let leaves := destLeaves (s.tenant x.tenant) (op1 w)
    if leaves.isEmpty && w.lst.isNone then
      .done (noteOob s c (((rangeFrom 0 (ceilDiv (ixCount (op0 w)) batchLen)).flatMap (fun b =>
        batchOf (s.core c) (op0 w) (batchLen * b))).countP (fun p => outside (cRow (gExt w.gmap)) p.1)))
    else listRun .gat leaves (leaves.length + 1) (gatBatch c x w) s c x w
def execXgat (d : BitVec 4) (a b : BitVec 6) (m : BitVec 4) (k : BitVec 1) (s : State) : Res :=
  issue (.xgat d a b m k) { eng := .x, srcs := [a.toNat, b.toNat], mem := true } (dataChk .gat d.toNat m.toNat (k = 1)) noAct runXgat s

/-- The rows a command sends, with stages; a row index list gives `xsca` the rows they go to. -/
def outRows (s : State) (c : Nat) (w : QWord) (origin : Dword) (rows : List (Nat × Nat × Nat)) : List (BRow × BRow × Nat) :=
  localRows (s.core c) w.desc origin w.mw w.bfx (outType w.mw w.fmt (dEt w.desc)) w.ftz w.seed w.srq rows

def runXsend : RunFn := fun s c w =>
  match s.ctx c with
  | none => .done s
  | some x =>
    let leaves := destLeaves (s.tenant x.tenant) (op1 w)
    let rows := outRows s c w (op0 w) (rowsOf (dBlock w.desc))
    let s0 := noteFlush s c ((rows.map (fun r => r.2.2)).sum)
    if leaves.isEmpty then .done s0
    else
      let out := outType w.mw w.fmt (dEt w.desc)
      let n := leaves.length
      let f := s0.fresh (if mwQNT w.mw then 2 * n else n)
      let r := openCmd f.1 c x w 3 (dTag w.desc) 0 f.2
      .sent (r.1.sendAll (blockPackets x c r.2 (dTag w.desc) out (op0 w) (beatsOf out (rows.map (fun r => r.1))) (numbered s0.nextId leaves)
        ++ (if mwQNT w.mw then blockPackets x c r.2 ((dTag w.desc + 1) % 4096) 0x11 (scaleOrigin (op0 w))
              (beatsOf 0x11 (rows.map (fun r => r.2.1))) (numbered (s0.nextId + n) leaves) else [])))
def execXsend (d : BitVec 4) (a b : BitVec 6) (m : BitVec 4) (k : BitVec 1) (s : State) : Res :=
  issue (.xsend d a b m k) { eng := .x, srcs := [a.toNat, b.toNat], mem := true } (dataChk .send d.toNat m.toNat (k = 1)) noAct runXsend s

/-- Where the beats of a destination tensor go (R174, R176): the slice its cached map names, or the remote device. -/
def tensorLeaf (b : Dword) (g : Rec512) (o : Dword) : Leaf :=
  if dwLocal b then .slice (gSlice g (gNumber g (cRow o) (cCol o) (cPlane o) (cBatch o))) else .remote (dwDev b) 511

/-- One block for a slice, its number not yet given. -/
structure SliceOut where
  h : Hdr
  beats : List Beat
  dst : Leaf

/-- Rows bound for a tensor as one block. -/
def sliceOut (x : Ctx) (tag et : Nat) (origin : Dword) (dst : Leaf) (rows : List BRow) : SliceOut :=
  { h := { tag := tag, tenant := x.tenant, origin := origin, blk := 0, etype := et }, beats := beatsOf et rows, dst := dst }

/-- The packets of a numbered block (R158): its beats, each under the header, and the close marker that names them. -/
def SliceOut.packets (x : Ctx) (c cmd : Nat) (kind : Hdr → Beat → PKind) (b : SliceOut) (blk : Nat) : List Packet :=
  let h := { b.h with blk := blk }
  b.beats.map (fun t => pkt x c cmd b.dst [blk] (kind h t)) ++ [pkt x c cmd b.dst [blk] (.close h b.beats.length false)]

/-- Send blocks to slices, each acknowledged once (R210). -/
def sendSlice (s : State) (c : Nat) (x : Ctx) (w : QWord) (op5 : Nat) (kind : Hdr → Beat → PKind) (blocks : List SliceOut) : RunRes :=
  if blocks.isEmpty then .done s
  else
    let f := s.fresh blocks.length
    let r := openCmd f.1 c x w op5 (dTag w.desc) 0 f.2
    .sent (r.1.sendAll ((numbered s.nextId blocks).flatMap (fun p => p.1.packets x c r.2 kind p.2)))

/-- `xput` and `xacc`: the block, and the scales of QNT. -/
def putRun (op5 : Nat) (kind : Hdr → Beat → PKind) : RunFn := fun s c w =>
  match s.ctx c with
  | none => .done s
  | some x =>
    let o := op0 w
    let rows := outRows s c w o (rowsOf (dBlock w.desc))
    let out := outType w.mw w.fmt (dEt w.desc)
    let s0 := noteFlush s c ((rows.map (fun r => r.2.2)).sum)
    let so := scaleOrigin o
    sendSlice s0 c x w op5 kind
      (sliceOut x (dTag w.desc) out o (tensorLeaf (op1 w) w.gmap o) (rows.map (fun r => r.1))
        :: (if mwQNT w.mw then [sliceOut x ((dTag w.desc + 1) % 4096) 0x11 so
              (tensorLeaf (op1 w) w.gmap2 so) (rows.map (fun r => r.2.1))] else []))

def runXput : RunFn := putRun 2 PKind.put
def execXput (d : BitVec 4) (a b : BitVec 6) (m : BitVec 4) (k : BitVec 1) (s : State) : Res :=
  issue (.xput d a b m k) { eng := .x, srcs := [a.toNat, b.toNat], mem := true } (dataChk .put d.toNat m.toNat (k = 1)) noAct runXput s

def runXacc (o : BitVec 2) : RunFn := putRun 6 (fun h b => .acc h b o.toNat)
def execXacc (d : BitVec 4) (a b : BitVec 6) (m : BitVec 4) (o : BitVec 2) (k : BitVec 1) (s : State) : Res :=
  issue (.xacc d a b m o k) { eng := .x, srcs := [a.toNat, b.toNat], mem := true } (dataChk .acc d.toNat m.toNat (k = 1)) noAct (runXacc o) s

/-- One batch of `xsca` (R180): local row i accumulates into global row list[i], as one block of one row. No extent reaches
65,535 (R169), so such an index is out of range on any device. -/
def scaBatch (o : Nat) (c : Nat) (x : Ctx) (w : QWord) (s : State) (l : Listing) : State :=
  let ix := batchOf (s.core c) (op0 w) l.next
  let out := outType w.mw w.fmt (dEt w.desc)
  let rows := if dwLocal (op1 w) then cRow (gExt w.gmap) else 65535
  let bad := ix.filter (fun p => outside rows p.1)
  let sent := (ix.filter (fun p => !outside rows p.1)).map (fun p =>
    let origin := coord p.1.toNat (ixCol (op0 w)) 0 0
    let rs := outRows s c w 0 [(p.2, 0, 0)]
    ((rs.map (fun r => r.2.2)).sum,
      (sliceOut x (dTag w.desc) out origin (tensorLeaf (op1 w) w.gmap origin) (rs.map (fun r => { r.1 with row := p.1.toNat }))).packets
        x c l.cmd (fun h b => .acc h b o) (l.first + p.2)))
  let s1 := (noteOob (noteFlush s c ((sent.map (fun p => p.1)).sum)) c bad.length).notAwaited l.cmd (bad.map (fun p => l.first + p.2))
  s1.sendAll (sent.flatMap (fun p => p.2))

def runXsca (o : BitVec 2) : RunFn := fun s c w =>
  match s.ctx c with
  | none => .done s
  | some x => listRun .sca [] 1 (scaBatch o.toNat c x w) s c x w
def execXsca (d : BitVec 4) (a b : BitVec 6) (m : BitVec 4) (o : BitVec 2) (k : BitVec 1) (s : State) : Res :=
  issue (.xsca d a b m o k) { eng := .x, srcs := [a.toNat, b.toNat], mem := true } (dataChk .sca d.toNat m.toNat (k = 1)) noAct (runXsca o) s

/-! ## Word atomics (R183) -/

def xatAddr (z : BitVec 2) (a : Dword) : Nat := if z = 0 then a.toNat / 4 * 4 else a.toNat / 8 * 8

def xatChk (z : BitVec 2) : State → Nat → Ctx → QWord → Chk := fun s _ x w =>
  let a := xatAddr z (op0 w)
  match translate s x.tenant a true with
  | .error cause => .trap cause (BitVec.ofNat 64 a)
  | .ok pa => .ok { w with pa := pa, foot := [⟨true, pa, pa + (if z = 0 then 4 else 8)⟩] }

def runXat (o : BitVec 4) (z : BitVec 2) : RunFn := fun s c w =>
  match s.ctx c with
  | none => .done s
  | some x =>
    .going (sendCmd s c x w 7 (.atomic o.toNat (if z = 0 then 4 else 8) w.pa (xatAddr z (op0 w)) (op1 w) (w.ops.getD 2 0)) (.slice (homeSlice w.pa)))
def execXat (o : BitVec 4) (a b e : BitVec 6) (z : BitVec 2) (s : State) : Res :=
  issue (.xat o a b e z) { eng := .x, srcs := [a.toNat, b.toNat, e.toNat], q6 := 1, mem := true } (xatChk z) noAct (runXat o z) s

end Sys2Proof.Machine
end

