-- ==== Sys2Proof/Machine/Records.lean ====
section
/-! DEFINITION. The X words that load records, the step-cache words and the reduction word (11_transfer_engine R161,
R173, R184-R187, R189; 19_fabric R262; 21_step_cache R274-R277). -/

namespace Sys2Proof.Machine

/-! ## Reading a record at capture (R184) -/

/-- Check the address, wait for a spill of its block, and read the record of the resident context: BOUNDS, then ECC. -/
def loadRecord (s : State) (c : Nat) (x : Ctx) (w : QWord) (a : Nat) (k : State → QWord → Chk) : Chk :=
  if Config.flagBase ≤ a then .trap cBOUNDS (w.raw.setWidth 64)
  else if spadUnitOf a ∈ (s.core c).spilling then .stall .other
  else
    let s1 := touchUnits s c x.me [spadUnitOf a]
    if a / 128 ∈ (s1.core c).spadPoison then .trap 9 (BitVec.ofNat 64 (a / 128 * 128))
    else k s1 { w with pa := a }

/-- The block of the record read is touched as the word passes capture (R312). -/
def touchRecord (s : State) (c : Nat) (w : QWord) : State :=
  match s.ctx c with
  | some x => touchUnits s c x.me [spadUnitOf w.pa]
  | none => s

/-- The 64-byte record at a AND NOT 63. -/
def recordAt (s : State) (c a : Nat) : Rec512 := (s.core c).spadRec (a / 64 * 64)

def recSpec (srcs : List Nat) : CapSpec := { eng := .x, srcs := srcs, afterS := true }

/-! ## Descriptors (R173) -/

def descBad (d : Rec512) : Option Nat :=
  let dims := [cCol, cRow, cPlane, cBatch]
  firstBreach [
    (!etypeOk (dEt d), cFMT),
    (Rec512.f d 0 28 36 ≠ 0 || Rec512.f d 3 40 24 ≠ 0 || Rec512.f d 4 40 24 ≠ 0 || Rec512.f d 5 40 24 ≠ 0 || Rec512.f d 6 20 44 ≠ 0
      || Rec512.f d 7 4 60 ≠ 0 || (dSpace d = 1 && Rec512.w d 6 ≠ 0) || decide (2 ≤ dSpace d)
      || dims.any (fun f => decide (f (dExt d) = 0) || decide (f (dBlock d) = 0) || decide (f (dExt d) < f (dBlock d)))
      || (dims.drop (dRank d)).any (fun f => decide (f (dExt d) ≠ 1)), cBOUNDS),
    (dSpace d = 0 && decide (8 * Config.flagBase < dEnd d), cBOUNDS)]

def runXdesc : RunFn := runNone
def execXdesc (k : BitVec 4) (a : BitVec 6) (s : State) : Res :=
  issue (.xdesc k a) (recSpec [a.toNat])
    (fun s c x w => loadRecord s c x w (op0 w).toNat (fun s1 w1 =>
      let d := recordAt s1 c w1.pa
      match descBad d with
      | some cause => .trap cause (w.raw.setWidth 64)
      | none => .ok { w1 with desc := d }))
    (fun s c w => (touchRecord s c w).modCtx c (fun x => { x with desc := Map.ins x.desc k.toNat w.desc })) runXdesc s

/-! ## Landing maps (R160, R161, R185) -/

def mTag (m : Rec512) : Nat := Rec512.f m 0 0 12
def mValid (m : Rec512) : Bool := Rec512.f m 0 12 1 = 1
def mKind (m : Rec512) : Nat := Rec512.f m 0 13 3
def mEt (m : Rec512) : Nat := Rec512.f m 0 16 5
def mFill (m : Rec512) : Nat := Rec512.f m 0 21 7
def mChunk (m : Rec512) : Nat := Rec512.f m 0 28 8
def mShift (m : Rec512) : Nat := Rec512.f m 0 36 6
def mMask (m : Rec512) : Nat := Rec512.f m 0 42 4
def mLo (m : Rec512) : Dword := Rec512.w m 1
def mHi (m : Rec512) : Dword := Rec512.w m 2
def mBase (m : Rec512) : Nat := Rec512.f m 3 0 20
def mPitch (m : Rec512) : Nat := Rec512.f m 3 32 32
def mBw (m : Rec512) : Nat := Rec512.f m 4 0 16
def mBh (m : Rec512) : Nat := Rec512.f m 4 16 16
def mSlotBytes (m : Rec512) : Nat := Rec512.f m 4 0 32
def mSlots (m : Rec512) : Nat := Rec512.f m 4 32 9
def mRing (m : Rec512) : Nat := Rec512.f m 4 48 4
def mFcols (m : Rec512) : Nat := Rec512.f m 5 0 16
def mFrows (m : Rec512) : Nat := Rec512.f m 5 16 16

/-- First byte past the last one the map can write, before the swizzle (R161 step 3). -/
def mapEnd (m : Rec512) : Nat :=
  let h := cRow (mHi m) - cRow (mLo m)
  let w := cCol (mHi m) - cCol (mLo m)
  let wd := ewidth (mEt m)
  let es := wd / 8
  if mKind m = 0 then mBase m + (h - 1) * mPitch m + ceilDiv (w * wd) 8
  else if mKind m = 1 then mBase m + (w - 1) * mPitch m + h * es
  else if mKind m = 2 then mBase m + (ceilDiv h (mBh m) - 1) * mPitch m + ceilDiv w (mBw m) * mBh m * mBw m * es
  else mBase m + mSlots m * mSlotBytes m

/-- The checks of R161. A kind above 3, which R160 does not name, and bits of w4 that no field of the record's kind takes,
raise MAP too. DESIGN CHOICE: notes/assumptions/89. -/
def mapBad (m : Rec512) : Option Nat :=
  let wd := ewidth (mEt m)
  let k := mKind m
  let ranges := [cCol, cRow, cPlane, cBatch]
  firstBreach [
    (!etypeOk (mEt m), cFMT),
    (!mValid m || Rec512.f m 0 46 18 ≠ 0 || Rec512.f m 3 20 12 ≠ 0 || Rec512.f m 5 32 32 ≠ 0 || Rec512.w m 6 ≠ 0 || Rec512.w m 7 ≠ 0
      || decide (3 < k) || (k < 2 && Rec512.w m 4 ≠ 0) || (k = 2 && Rec512.f m 4 32 32 ≠ 0)
      || (k = 3 && (Rec512.f m 4 52 12 ≠ 0 || Rec512.f m 4 41 7 ≠ 0 || mSlots m = 0 || decide (256 < mSlots m) || mSlotBytes m % 128 ≠ 0))
      || decide (3 < mFill m) || ranges.any (fun f => decide (f (mHi m) ≤ f (mLo m)))
      || mFrows m = 0 || mFcols m = 0 || (k = 2 && (mBw m = 0 || mBh m = 0))
      || ((k = 1 || k = 2) && (wd < 8 || mEt m = 0x10))
      || (decide (8 ≤ wd) && (mBase m % (wd / 8) ≠ 0 || mPitch m % (wd / 8) ≠ 0))
      || (mMask m ≠ 0 && (mChunk m < 4 || decide (6 < mChunk m) || decide (7 - mChunk m < mMask m)))
      || (mMask m = 0 && (mChunk m ≠ 0 || mShift m ≠ 0))
      || (mFill m = 1 && !(hasNan (mEt m) || mEt m = 0x11)) || (mFill m = 2 && !hasInf (mEt m)), cMAP),
    (decide (Config.flagBase < mapEnd m), cMAP),
    (k = 3 && decide (mSlotBytes m < (mFrows m - 1) * mPitch m + ceilDiv (mFcols m * wd) 8), cMAP)]

/-- Capture of `xmap` and `xswap`. -/
def mapChk (slot : Nat) (swap : Bool) : State → Nat → Ctx → QWord → Chk := fun s c x w =>
  loadRecord s c x w (op0 w).toNat (fun s1 w1 =>
    let m := recordAt s1 c w1.pa
    match mapBad m with
    | some cause => .trap cause (w.raw.setWidth 64)
    | none => if swap && slot ∉ x.mapCap then .trap cMAP (w.raw.setWidth 64) else .ok { w1 with desc := m })

def markMap (slot : Nat) : State → Nat → QWord → State := fun s c w =>
  (touchRecord s c w).modCtx c (fun x => { x with mapCap := addMark x.mapCap slot })

/-- The record is in place from now on (R15, R185). -/
def installMap (slot : Nat) : RunFn := fun s c w => .done (s.modCtx c (fun x => { x with maps := Map.ins x.maps slot w.desc }))

def runXmap (k : BitVec 4) : RunFn := installMap k.toNat
def execXmap (k : BitVec 4) (a : BitVec 6) (s : State) : Res :=
  issue (.xmap k a) (recSpec [a.toNat]) (mapChk k.toNat false) (markMap k.toNat) (runXmap k) s
def runXswap (k : BitVec 4) : RunFn := installMap k.toNat
def execXswap (k : BitVec 4) (a : BitVec 6) (s : State) : Res :=
  issue (.xswap k a) (recSpec [a.toNat]) (mapChk k.toNat true) (markMap k.toNat) (runXswap k) s

def runXunmap (k : BitVec 4) : RunFn := fun s c _ => .done (s.modCtx c (fun x => { x with maps := Map.del x.maps k.toNat }))
def execXunmap (k : BitVec 4) (s : State) : Res :=
  issue (.xunmap k) { eng := .x } noChk
    (fun s c _ => s.modCtx c (fun x => { x with mapCap := x.mapCap.filter (fun m => m ≠ k.toNat) })) (runXunmap k) s

/-! ## Microwords (R187) -/

def mwInvalid (m : Dword) : Bool :=
  bits m.toNat 18 30 ≠ 0 || decide (5 ≤ mwRound m) || (mwTarget m ≠ 0 && !etypeOk (mwTarget m)) || (mwUNP m && mwEXP m)
    || (mwCVT m && mwQNT m) || ((mwDQ m || mwSCL m) && !(mwCVT m || mwQNT m))
    || (mwCVT m && (mwTarget m = 0x10 || mwTarget m = 0x11)) || (mwQNT m && mwTarget m ≠ 0 && !qTarget (mwTarget m))

def runXmw : RunFn := runNone
def execXmw (k : BitVec 4) (a : BitVec 6) (s : State) : Res :=
  issue (.xmw k a) (recSpec [a.toNat])
    (fun s c x w => loadRecord s c x w (op0 w).toNat (fun s1 w1 =>
      let m := (s1.core c).spadWord (w1.pa / 8 * 8)
      if mwInvalid m then .trap cFMT (w.raw.setWidth 64) else .ok { w1 with cap := m }))
    (fun s c w => (touchRecord s c w).modCtx c (fun x => { x with mws := Map.put 0 x.mws k.toNat w.cap })) runXmw s

/-! ## Global maps (R169, R186) -/

/-- Bytes of a slice's range. -/
def gRange (g : Rec512) : Nat := ceilDiv (gBlocks g) 128 * gBlockBytes g

def gmapBad (t : Tenant) (held : List (Nat × Rec512)) (g : Rec512) : Option Nat :=
  let dims := [cCol, cRow, cPlane, cBatch]
  firstBreach [
    (!etypeOk (gEt g), cFMT),
    (Rec512.f g 0 24 40 ≠ 0 || Rec512.w g 5 ≠ 0 || Rec512.w g 6 ≠ 0 || Rec512.w g 7 ≠ 0
      || dims.any (fun f => decide (f (gExt g) = 0) || decide (f (gBlock g) = 0) || decide (f (gExt g) < f (gBlock g)))
      || gBase g % 128 ≠ 0 || gStride g % 128 ≠ 0
      || (Map.at? t.gmaps (gTag g)).isSome || (Map.at? held (gTag g)).isSome, cMAP),
    (decide (gStride g < gRange g), cMAP),
    (decide (256 ≤ t.gmaps.length), cMAP)]

/-- Pin the pages of range `sl` from address `a`: the pages, or the cause and the first address that does not translate to
a writable granule of the slice (XLATE), or whose walk reads an uncorrectable error (ECC, R305). The fuel is the number of
pages. -/
def pinRange (s : State) (tid sl hi : Nat) : Nat → Nat → Map Nat → Except (Nat × Nat) (Map Nat)
  | 0, _, m => .ok m
  | n + 1, a, m =>
    if hi ≤ a then .ok m
    else
      match translate s tid a true with
      | .error cause => .error (cause, a)
      | .ok pa =>
        if homeSlice pa ≠ sl then .error (3, a)
        else pinRange s tid sl hi n (a / 65536 * 65536 + 65536) (Map.ins m (a / 65536) (pa - a % 65536))

/-- Pin the ranges of slices in order (R186). -/
def pinAll (s : State) (tid : Nat) (g : Rec512) : List Nat → Map Nat → Except (Nat × Nat) (Map Nat)
  | [], m => .ok m
  | sl :: rest, m =>
    let a := gBase g + sl * gStride g
    match pinRange s tid sl (a + gRange g) (gRange g / 65536 + 2) a m with
    | .error e => .error e
    | .ok m1 => pinAll s tid g rest m1

/-- Cores of a tenant's partition. -/
def State.partition (s : State) (t : Nat) : List Nat := (s.cores.filter (fun p => decide (p.2.part = some t))).map (fun p => p.1)

/-- Cores that hold a tenant's map in their caches, whatever partition they belong to. -/
def State.cachers (s : State) (t tag : Nat) : List Nat :=
  (s.cores.filter (fun p => (Map.at? (Map.get [] p.2.gcache t) tag).isSome)).map (fun p => p.1)

/-- Send a change of a global map to every slice and to some cores. -/
def spreadMap (s : State) (c : Nat) (x : Ctx) (w : QWord) (op5 : Nat) (kind : PKind) (cores : List Nat) : State :=
  let leaves := (List.range 128).map Leaf.slice ++ cores.map Leaf.core
  let f := s.fresh leaves.length
  let r := openCmd f.1 c x w op5 0 0 f.2
  r.1.sendAll ((numbered s.nextId leaves).map (fun p => pkt x c r.2 p.1 [p.2] kind))

/-- Installs the map everywhere; no later X word starts until all have acknowledged. -/
def runXgmap : RunFn := fun s c w =>
  match s.ctx c with
  | none => .done s
  | some x => .shut (spreadMap s c x w 0x10 (.gmapIns w.gmap) (s.partition x.tenant))
def execXgmap (a : BitVec 6) (s : State) : Res :=
  issue (.xgmap a) (recSpec [a.toNat])
    (fun s c x w => loadRecord s c x w (op0 w).toNat (fun s1 w1 =>
      let g := recordAt s1 c w1.pa
      match gmapBad (s.tenant x.tenant) (Map.get [] (s.core c).gcache x.tenant) g with
      | some cause => .trap cause (w.raw.setWidth 64)
      | none =>
        match pinAll s x.tenant g (List.range 128) [] with
        | .error e => .trap e.1 (BitVec.ofNat 64 e.2)
        | .ok _ => .ok { w1 with gmap := g }))
    (fun s c w =>
      match s.ctx c with
      | none => s
      | some x =>
        let g := w.gmap
        let pins := match pinAll s x.tenant g (List.range 128) [] with | .ok m => m | .error _ => []
        ((touchRecord s c w).modTenant x.tenant (fun t => { t with
            gmaps := Map.ins t.gmaps (gTag g) g
            pins := Map.ins t.pins (gTag g) pins })).modCore c (fun k => { k with
              gcache := Map.ins k.gcache x.tenant (Map.ins (Map.get [] k.gcache x.tenant) (gTag g) g) }))
    runXgmap s

/-- Removes the map everywhere, from a lent core's cache too, once every earlier command of the strand naming the tag has finished.
It holds the X queue until the removal is acknowledged.
DESIGN CHOICE: notes/assumptions/113. -/
def runXgunmap : RunFn := fun s c w =>
  match s.ctx c with
  | none => .done s
  | some x =>
    let tag := (op0 w).toNat % 4096
    if (Map.at? (s.tenant x.tenant).gmaps tag).isNone then .done s else .shut (spreadMap s c x w 0x11 (.gmapDel tag)
      (s.partition x.tenant ++ (s.cachers x.tenant tag).filter (fun k => k ∉ s.partition x.tenant)))
def execXgunmap (a : BitVec 6) (s : State) : Res :=
  issue (.xgunmap a) { eng := .x, srcs := [a.toNat] }
    (fun _ _ _ w => .ok { w with gate := .tag ((op0 w).toNat % 4096) })
    (fun s c w =>
      match s.ctx c with
      | none => s
      | some x => s.modCore c (fun k => { k with
          gcache := Map.ins k.gcache x.tenant (Map.del (Map.get [] k.gcache x.tenant) ((op0 w).toNat % 4096)) }))
    runXgunmap s

/-! ## Blocks of the step cache and of reductions (R189) -/

/-- A scratchpad descriptor in a slot. -/
def spadDesc (x : Ctx) (slot : Nat) : Option Rec512 := (Map.at? x.desc slot).filter (fun d => dSpace d = 0)

/-- First poisoned row among the rows of a block, as its byte address. -/
def blockPoison (k : Core) (d : Rec512) : Option Nat :=
  let touched := (rowsOf (dBlock d)).flatMap (fun i =>
    let b := dRowBit d i.1 i.2.1 i.2.2
    rangeFrom (b / 1024) ((b + cCol (dBlock d) * ewidth (dEt d) - 1) / 1024 + 1 - b / 1024))
  (touched.find? (fun r => decide (r ∈ k.spadPoison))).map (fun r => 128 * r)

/-- The whole block a descriptor names, as a value. -/
def blockOf (k : Core) (d : Rec512) : Blk :=
  let rows := blockRows k d
  let beats := beatsOf (dEt d) rows
  { tag := dTag d, etype := dEt d, shape := dBlock d, poison := blockPoison k d, beats := beats.length
    bytes := (beats.map (fun b => b.count)).sum, elems := rows.flatMap (fun r => r.cells.map (fun c => c.1)) }

/-- The beats of a block that streams to a directory or to a reduction node, under its header (R158). -/
def streamBeats (k : Core) (d : Rec512) (x : Ctx) (key : Option Nat) (blk : Nat) : List PKind :=
  (beatsOf (dEt d) (blockRows k d)).map (fun b =>
    .stream key { tag := dTag d, tenant := x.tenant, origin := 0, blk := blk, etype := dEt d } b)

/-- Bytes of a block (R274). -/
def blockBytes (d : Rec512) : Nat := ceilDiv (volume (dBlock d) * ewidth (dEt d)) 8

/-- Home slice of a key (R272). -/
def sacHome (key t : Nat) : Nat :=
  let h := (bits key 0 16 + 3 * bits key 16 16 + 5 * bits key 32 16 + 7 * t) % 65536
  (h ^^^ (h / 128)) % 128

def sacKey (w : QWord) : Nat := (op0 w).toNat % 2 ^ 48
def sacOut (w : QWord) : Nat := bits (op1 w).toNat 33 4

/-- A `sacinv` of the strand has not completed (R281), one that a trap holds included.
DEDUCED: notes/assumptions/104. -/
def Ctx.invalidating (x : Ctx) : Bool :=
  let is := fun (w : QWord) => match w.instr with | .sacinv => true | _ => false
  x.notStarted.any is || x.fly.any (fun w => !w.finished && is w)

/-- Capture of `xrpl` and `xrpf` (R189, R274). -/
def sacChk (slot : Nat) (withOut : Bool) : State → Nat → Ctx → QWord → Chk := fun _ _ x w =>
  match spadDesc x slot, spadDesc x (sacOut w) with
  | some d, some e =>
    if !(dEt d ∈ [0x01, 0x02, 0x03, 0x04, 0x05]) || dPackedBy d (Map.get 0 x.mws (dMw d)) || dPackedBy e (Map.get 0 x.mws (dMw e)) then .trap cFMT (w.raw.setWidth 64)
    else if 16384 < blockBytes d || 16384 < blockBytes e then .trap cBOUNDS (w.raw.setWidth 64)
    else if x.invalidating then .stall .other
    else
      let foot := localFoot d 0 [] (rowsOf (dBlock d)) ++ (if withOut then localFoot e 0 [] (rowsOf (dBlock e)) else [])
      let n := if withOut then (rowsOf (dBlock e)).length else 0
      let ins := foot.take (foot.length - n)
      let outs := foot.drop (foot.length - n)
      .ok { w with desc := d, desc2 := e, foot := foot, outs := n, units := footUnits foot
                   keys := some ((footRows ins).map (fun r => 8192 + r) ++ (footRows outs).map (gatherKey 0)) }
  | _, _ => .trap cBOUNDS (w.raw.setWidth 64)

/-- The input block streams to the key's home slice, and the check is its close marker (R275).
DEDUCED: notes/assumptions/35. -/
def runXrpl : RunFn := fun s c w =>
  match s.ctx c with
  | none => .done s
  | some x =>
    let f := s.fresh 1
    let r := openCmd f.1 c x w 0x0D 0 0 f.2
    .sent (r.1.sendAll ((streamBeats (s.core c) w.desc x (some (sacKey w)) s.nextId ++
      [PKind.sacCheck (sacKey w) (blockOf (s.core c) w.desc) ((op1 w).setWidth 32) (bits (op1 w).toNat 32 1) w.step w.sacage false]).map
        (pkt x c r.2 (.slice (sacHome (sacKey w) x.tenant)) f.2)))
def execXrpl (d : BitVec 4) (a b : BitVec 6) (s : State) : Res :=
  issue (.xrpl d a b) { eng := .x, srcs := [a.toNat, b.toNat], q6 := 1, mem := true } (sacChk d.toNat false) noAct runXrpl s

/-- The core as the reads of `xrpf`'s output block found its rows (R277). -/
def outCore (k : Core) (w : QWord) : Core := k.setRowVals (w.gath.map (fun v => { v with key := 8192 + v.key % 8192 }))

/-- Both blocks stream to the key's home slice, and the fill is the close marker of the second (R277); a row that both hold is
read for each. -/
def runXrpf : RunFn := fun s c w =>
  match s.ctx c with
  | none => .done s
  | some x =>
    let f := s.fresh 2
    let i := blockOf (s.core c) w.desc
    let r := openCmd f.1 c x w 0x0E 0 0 f.2
    .sent (r.1.sendAll ((streamBeats (s.core c) w.desc x (some (sacKey w)) s.nextId ++ [PKind.sacIn (sacKey w) s.nextId i.beats] ++
      streamBeats (outCore (s.core c) w) w.desc2 x (some (sacKey w)) (s.nextId + 1) ++
      [PKind.sacFill (sacKey w) i (blockOf (outCore (s.core c) w) w.desc2) w.step false]).map
        (pkt x c r.2 (.slice (sacHome (sacKey w) x.tenant)) f.2)))
def execXrpf (d : BitVec 4) (a b : BitVec 6) (s : State) : Res :=
  issue (.xrpf d a b) { eng := .x, srcs := [a.toNat, b.toNat], mem := true } (sacChk d.toNat true) noAct runXrpf s

/-! ## Reductions (R262) -/

def gcValid (r : Rec512) : Bool := r.getLsbD 0
def gcOp (r : Rec512) : Nat := Rec512.f r 0 5 3
def gcNodes (r : Rec512) : Nat := Rec512.f r 0 8 6
def gcTimeout (r : Rec512) : Nat := Rec512.f r 0 32 32
def gcLength (r : Rec512) : Nat := Rec512.f r 1 0 13
def gcLive (r : Rec512) (c : Nat) : Bool := r.getLsbD (128 + c)
def gcMembers (r : Rec512) : List Nat := (List.range Config.numCores).filter (gcLive r)
/-- Ops 0, 2 and 3 are over FP32. -/
def gcFloat (op : Nat) : Bool := op = 0 || op = 2 || op = 3

def redGroup (w : QWord) : Nat := bits (op0 w).toNat 0 6
def redCount (w : QWord) : Nat := bits (op0 w).toNat 16 16

/-- Capture of `xred` (R189, R262), and the bit-packing rule of R80 beside the etype's.
DESIGN CHOICE: notes/assumptions/90. -/
def xredChk (slot : Nat) : State → Nat → Ctx → QWord → Chk := fun s c x w =>
  match spadDesc x slot with
  | none => .trap cBOUNDS (w.raw.setWidth 64)
  | some d =>
    let g := Map.get {} s.groups (redGroup w)
    let foot := localFoot d 0 [] (rowsOf (dBlock d))
    match firstBreach [
      (redCount w = 0, cBOUNDS),
      (g.owner ≠ some x.tenant || !gcValid g.conf || !gcLive g.conf c, cBOUNDS),
      (decide (dEt d ≠ (if gcFloat (gcOp g.conf) then 0x01 else 0x09)) || dPackedBy d (Map.get 0 x.mws (dMw d)), cFMT),
      (volume (dBlock d) ≠ gcLength g.conf || decide (2 < dRank d), cSHAPE)] with
    | some cause => .trap cause (w.raw.setWidth 64)
    | none => .ok { w with desc := d, foot := foot, units := footUnits foot, gate := .group (redGroup w)
                           keys := some ((footRows foot).map (fun r => 8192 + r)) }

/-- A status element (R251). -/
def redStatusWord (group combined : Nat) : Dword := BitVec.ofNat 64 (65536 * combined + group)

def runXred : RunFn := fun s c w =>
  match s.ctx c with
  | none => .done s
  | some x =>
    let g := redGroup w
    let b := blockOf (s.core c) w.desc
    if redCount w = 1 then
      let f := s.fresh 2
      let sid := s.nextId
      let r := openCmd f.1 c x w 0x0F 0 g f.2
      let rows := (blockRows (s.core c) w.desc).map (fun r => { r with cells := r.cells.map (fun v => (v.1, false)) })
      .sent (r.1.sendAll ((blockPackets x c r.2 b.tag b.etype 0 (beatsOf b.etype rows) [(.core c, sid + 1)] ++
        [pkt x c r.2 (.core c) [sid] (.redStatus g (some (redStatusWord g 1)) 0 0 (sid + 1))]).map (fun p => { p with cls := 5 })))
    else
      let f := s.fresh 2
      let r := openCmd f.1 c x w 0x0F 0 g [s.nextId]
      let att := Map.get 0 (Map.get {} s.groups g).attach c
      let root := (List.range 63).find? (fun n => bits (Map.get 0 (Map.get {} s.groups g).tree n).toNat 38 6 = 0x3F)
      .sent (r.1.sendAll ((streamBeats (s.core c) w.desc x none (s.nextId + 1) ++
        [PKind.redContrib g (bits att 4 6) (bits att 0 4) c (redCount w) b.tag b.shape b.elems true (s.nextId + 1) b.beats]).map (fun k =>
          { pkt x c r.2 (.slice (bits (Map.get 0 (Map.get {} s.groups g).tree (root.getD 0)).toNat 0 8 % 128)) [] k with cls := 5 })))
/-- The operand codes a and b stand as a pair; operand b is read and its value ignored (R189). -/
def execXred (d : BitVec 4) (ab : BitVec 6 × BitVec 6) (s : State) : Res :=
  issue (.xred d ab) { eng := .x, srcs := [ab.1.toNat, ab.2.toNat], q6 := 1, mem := true } (xredChk d.toNat) noAct runXred s

end Sys2Proof.Machine
end

