-- ==== Sys2Proof/Machine/Sync.lean ====
section
/-! DEFINITION. The Y words (15_synchronisation_engine R219-R232; order by 13_ordering_near R198, R199 and
14_ordering_far R206, R212, R213). -/

namespace Sys2Proof.Machine

/-! ## Order handles (R219, R220) -/

def Ctx.live (x : Ctx) (h : Nat) : Bool := (Map.at? x.hnd h).isSome

/-- The sequencer of a live handle. -/
def Ctx.seqOf (x : Ctx) (h : Nat) : Nat := Map.get 0 x.hnd h

/-- Everything captured so far under a handle, and its predecessors (R199, R221).
DEDUCED: notes/assumptions/33. -/
def Ctx.covered (x : Ctx) (h scope : Nat) : List Pre :=
  let q := x.seqr (x.seqOf h)
  { seqr := x.seqOf h, count := q.count, scope := scope, lo := q.base } :: q.pre

/-- Checks of a handle word in the order hd, ha, hb (R219), then a free sequencer where one is needed. -/
def handleChk (bad : Ctx → List (Bool × Nat)) (fresh : Ctx → Bool) : State → Nat → Ctx → QWord → Chk := fun s c x w =>
  match firstBreach ((bad x).map (fun p => (p.1, p.2 + 1))) with
  | some h => .trap 0xC (BitVec.ofNat 64 (h - 1))
  | none => if fresh x && (s.freeSeqr c x).isNone then .stall .handle else .ok w

/-- hd takes a new sequencer, where one is free, with given predecessors and tickets; its operations are those numbered from
now on. -/
def Ctx.takeSeqr (x : Ctx) (free : Option Nat) (h : Nat) (pre : List Pre) (tix : List Nat) : Ctx :=
  match free with
  | none => x
  | some i => { x.setSeqr i { x.seqr i with pre := pre, tix := tix, base := (x.seqr i).count } with hnd := Map.ins x.hnd h i }

def handleWord (i : Instr) (chk : State → Nat → Ctx → QWord → Chk) (act : State → Nat → QWord → State) (run : RunFn) (s : State) : Res :=
  issue i { eng := .y } chk act run s

def runHnew : RunFn := runNone
def execHnew (d : BitVec 5) (s : State) : Res :=
  handleWord (.hnew d) (handleChk (fun x => [(decide (d = 0) || x.live d.toNat, d.toNat)]) (fun _ => true))
    (fun s c _ => s.modCtx c (fun x => x.takeSeqr (s.freeSeqr c x) d.toNat [] [])) runHnew s

def runHfork : RunFn := runNone
def execHfork (d a : BitVec 5) (s : State) : Res :=
  handleWord (.hfork d a)
    (handleChk (fun x => [(decide (d = 0) || x.live d.toNat, d.toNat), (!x.live a.toNat, a.toNat)]) (fun _ => true))
    (fun s c _ => s.modCtx c (fun x => x.takeSeqr (s.freeSeqr c x) d.toNat (x.covered a.toNat 0) (x.seqr (x.seqOf a.toNat)).tix)) runHfork s

/-- A system scope is capped at tenant (R213). -/
def capped (s : State) (x : Ctx) (scope : Nat) : Bool := scope = 5 && (s.tenant x.tenant).scap = 4

/-- A capped join or drain sets SCOPECAP and counts (R213). -/
def noteCap (s : State) (c scope : Nat) : State :=
  match s.ctx c with
  | none => s
  | some x => if capped s x scope then (s.modCtx c (fun y => y.stick stSCOPECAP)).count c evSCOPECAP 1 else s

/-- ha's and hb's operations, and hd's own, become predecessors of hd's later operations at a scope (R220). -/
def Ctx.join (x : Ctx) (free : Option Nat) (d a b scope : Nat) : Ctx :=
  let tix := ((x.seqr (x.seqOf a)).tix ++ (x.seqr (x.seqOf b)).tix)
  let pre := x.covered a scope ++ x.covered b scope
  if x.live d then
    let i := x.seqOf d
    let q := x.seqr i
    let pre1 := (⟨i, q.count, scope, q.base⟩ :: q.pre ++ pre).dedup
    (x.setSeqr i { q with pre := pre1, tix := (q.tix ++ tix).dedup }).markSys pre1
  else (x.takeSeqr free d pre.dedup tix.dedup).markSys pre

def runHjoin : RunFn := runNone
def execHjoin (d a b : BitVec 5) (k : BitVec 3) (s : State) : Res :=
  handleWord (.hjoin d a b k)
    (handleChk (fun x => [(!x.live a.toNat, a.toNat), (!x.live b.toNat, b.toNat)]) (fun x => !x.live d.toNat))
    (fun s c _ =>
      match s.ctx c with
      | none => s
      | some x => (noteCap s c k.toNat).modCtx c (fun y => y.join (s.freeSeqr c y) d.toNat a.toNat b.toNat (capScope (s.tenant x.tenant).scap k.toNat)))
    runHjoin s

def runHfree : RunFn := runNone
def execHfree (a : BitVec 5) (s : State) : Res :=
  handleWord (.hfree a) (handleChk (fun x => [(decide (a = 0) || !x.live a.toNat, a.toNat)]) (fun _ => false))
    (fun s c _ => s.modCtx c (fun x => { x with hnd := Map.del x.hnd a.toNat })) runHfree s

/-! ## Drains (R206, R210, R221, R319) -/

/-- A system-scope promise recalls the tracked host copies of the lines written (R319). -/
def State.recall (s : State) (x : Ctx) (ps : List Pre) : State :=
  { s with recalls := (s.recalls ++ (ps.filter (fun p => decide (5 ≤ p.scope))).flatMap (fun p =>
      ((x.seqr p.seqr).lines.filter (fun l => decide (p.lo ≤ l.1) && decide (l.1 < p.count) && s.snoop.contains l.2)).map
        (fun l => l.2))).dedup }

/-- The highest-ranked status among sequencers. -/
def worstStatus (x : Ctx) (is : List Nat) : Option (Nat × Nat × Dword) :=
  (is.filterMap (fun i => (x.seqr i).status)).foldl (fun m v => match m with
    | none => some v
    | some u => if v.1 < u.1 then some v else some u) none

def clearStatus (x : Ctx) : List Nat → Ctx
  | [] => x
  | i :: t => clearStatus (x.setSeqr i { x.seqr i with status := none }) t

/-- Completes when everything covered has performed at its scope, and raises the highest-ranked status it finds; should that
trap not be taken, the statuses stand again (`Ctx.putBack`). -/
def runHdrain : RunFn := fun s c w =>
  match s.ctx c with
  | none => .done s
  | some x =>
    if w.covers.all (fun p => s.preOk x p) then
      let is := (w.covers.map (fun p => p.seqr)).dedup
      let s1 := s.setCtx c (clearStatus x is)
      match worstStatus x is with
      | some st => .trap st.2.1 st.2.2 s1
      | none => .done s1
    else .hold (s.recall x w.covers)
def execHdrain (a : BitVec 5) (k : BitVec 3) (s : State) : Res :=
  handleWord (.hdrain a k)
    (fun s _ x w =>
      if !x.live a.toNat then .trap 0xC (BitVec.ofNat 64 a.toNat)
      else
        let sc := capScope (s.tenant x.tenant).scap k.toNat
        .ok { w with covers := ((x.covered a.toNat sc).map (fun p => { p with scope := sc })).dedup })
    (fun s c w => (noteCap s c k.toNat).modCtx c (fun x => x.markSys w.covers)) runHdrain s

/-! ## Tickets (R212, R222) -/

/-- A ticket's fields. -/
def mkTicket (core dev seqr count : Nat) : Dword :=
  BitVec.ofNat 64 (core + 512 * dev + 2 ^ 19 * seqr + 2 ^ 32 * (count % 2 ^ 32))

/-- The port code of `hpass` names a channel or the mailbox, not an operand. -/
def isPort (p : Nat) : Bool := (decide (48 ≤ p) && decide (p ≤ 53)) || decide (p = 55)

/-- Core and device of a remote endpoint. -/
def epCore (v : Dword) : Nat := bits v.toNat 0 9
def epDev (v : Dword) : Nat := bits v.toNat 9 10

def endpointBad (t : Tenant) (v : Dword) : Bool := decide (384 ≤ epCore v) || !t.devOk (epDev v)

/-- A packet without a command, answered by its own application. -/
def loosePkt (x : Ctx) (c : Nat) (dst : Leaf) (kind : PKind) : Packet :=
  { seq := 0, kind := kind, src := .core c, dst := dst, tenant := x.tenant, cls := x.cls }

def runHpass (p : BitVec 6) : RunFn := fun s c w =>
  match s.ctx c with
  | none => .done s
  | some x =>
    if 48 ≤ p.toNat && p.toNat ≤ 53 then .done (sendChannel s c x (p.toNat - 48) w.seq w.cap true)
    else if p.toNat = 55 then (if oboxRoom s x then .done (s.oboxPush x.tenant w.cap) else .hold s)
    else if epDev (op0 w) = 0x3FF then .done (s.send (loosePkt x c (.core (epCore (op0 w))) (.ticket w.cap)))
    else .done (s.send (loosePkt x c (.remote (epDev (op0 w)) (epCore (op0 w))) (.ticket w.cap)))
def execHpass (a : BitVec 5) (p : BitVec 6) (s : State) : Res :=
  issue (.hpass a p) { eng := .y, srcs := if isPort p.toNat then [] else [p.toNat], push := if isPort p.toNat then some p.toNat else none }
    (fun s c x w =>
      if !x.live a.toNat then .trap 0xC (BitVec.ofNat 64 a.toNat)
      else if !isPort p.toNat && endpointBad (s.tenant x.tenant) (op0 w) then .trap cBOUNDS (w.raw.setWidth 64)
      else .ok { w with cap := mkTicket c 0x3FF (x.seqOf a.toNat) (x.seqr (x.seqOf a.toNat)).count })
    (fun s c _ => s.modCtx c (fun x =>
      let i := x.seqOf a.toNat
      x.setSeqr i { x.seqr i with owed := (x.seqr i).owed ++ [(x.seqr i).count] }))
    (runHpass p) s

/-- Fields of a received ticket. -/
def ticketOf (v : Dword) : Ticket :=
  { core := bits v.toNat 0 9, device := bits v.toNat 9 10, seqr := bits v.toNat 19 6, count := bits v.toNat 32 32, confirmed := false }

/-- The receiver asks the sender's core to confirm (R212). -/
def runHrecv : RunFn := fun s c w =>
  match s.ctx c with
  | none => .done s
  | some x =>
    let t := ticketOf (op0 w)
    let dst := if t.device = 0x3FF then Leaf.core t.core else .remote t.device t.core
    .done (s.send (loosePkt x c dst (.confirmReq x.uid c t.seqr t.count w.seq)))
def execHrecv (d : BitVec 5) (p : BitVec 6) (s : State) : Res :=
  issue (.hrecv d p) { eng := .y, srcs := [p.toNat] }
    (fun s c x w =>
      let t := ticketOf (op0 w)
      if bits (op0 w).toNat 25 7 ≠ 0 || 384 ≤ t.core || !(s.tenant x.tenant).devOk t.device then .trap 0xC (BitVec.ofNat 64 d.toNat)
      else if !x.live d.toNat && (s.freeSeqr c x).isNone then .stall .handle
      else .ok w)
    (fun s c w => s.modCtx c (fun x =>
      let x1 := { x with tickets := Map.ins x.tickets w.seq (ticketOf (op0 w)) }
      if x1.live d.toNat then
        let i := x1.seqOf d.toNat
        x1.setSeqr i { x1.seqr i with tix := (x1.seqr i).tix ++ [w.seq] }
      else x1.takeSeqr (s.freeSeqr c x) d.toNat [] [w.seq]))
    runHrecv s

/-! ## Rings (R223-R227) -/

/-- The state of ring g of a context. -/
def Ctx.ring (x : Ctx) (g : Nat) : Ring := Map.get {} x.rings g

def Ctx.modRing (x : Ctx) (g : Nat) (f : Ring → Ring) : Ctx := { x with rings := Map.ins x.rings g (f (x.ring g)) }

def Ring.slotSt (r : Ring) (k : Nat) : SlotSt := Map.get .free r.state k

def Ring.set (r : Ring) (k : Nat) (v : SlotSt) : Ring := { r with state := Map.put .free r.state k v }

def Ring.countOf (r : Ring) (v : SlotSt) : Nat := ((List.range r.slots).filter (fun k => decide (r.slotSt k = v))).length

def Ring.addr (r : Ring) (k : Nat) : Dword := BitVec.ofNat 64 (r.base + k * r.slotbytes)

/-- The record of R223 in a 256-bit value. -/
def ringBad (v : Rec512) : Bool :=
  let base := Rec512.f v 0 0 20
  let slots := Rec512.f v 1 32 9
  let sb := Rec512.f v 1 0 32
  Rec512.f v 0 20 44 ≠ 0 || Rec512.f v 1 41 23 ≠ 0 || Rec512.w v 2 ≠ 0 || Rec512.w v 3 ≠ 0 || base % 128 ≠ 0
    || slots = 0 || decide (256 < slots) || sb = 0 || sb % 128 ≠ 0 || decide (Config.flagBase < base + slots * sb)

/-- The ring refuses first beats, waits until no slot is landing, and starts anew (R225). Where a trap or a pre-emption returns the
waiting word unstarted (R298, R311), the ring goes on refusing.
DESIGN CHOICE: notes/assumptions/116. -/
def runRingInit (g : BitVec 4) : RunFn := fun s c w =>
  match s.ctx c with
  | none => .done s
  | some x =>
    if 0 < (x.ring g.toNat).countOf .landing then .hold (s.setCtx c (x.modRing g.toNat (fun r => { r with refusing := true })))
    else .done (s.setCtx c (x.modRing g.toNat (fun r => { r with
      up := true
      refusing := false
      base := Rec512.f w.desc 0 0 20
      slots := Rec512.f w.desc 1 32 9
      slotbytes := Rec512.f w.desc 1 0 32
      state := []
      ptr := 0
      fillOrder := []
      takeOrder := []
      claimOrder := [] })))
def execRingInit (g : BitVec 4) (a : BitVec 6) (s : State) : Res :=
  issue (.ringInit g a) { eng := .y, srcs := [a.toNat], afterS := true, mem := true }
    (fun s c x w => loadRecord s c x w (op0 w).toNat (fun s1 w1 =>
      let v : Rec512 := (((s1.core c).spadRow (w1.pa / 128)).extractLsb' (8 * (w1.pa % 128 / 32 * 32)) 256).setWidth 512
      if ringBad v then .trap cBOUNDS (w.raw.setWidth 64) else .ok { w1 with desc := v }))
    (fun s c w => (touchRecord s c w).modCtx c (fun x => x.modRing g.toNat (fun r => { r with init := true, nClaim := 0, nTake := 0 })))
    (runRingInit g) s

/-- Capture of a ring word in use: the initialised bit and the counts (R224). -/
def ringChk (g : Nat) (ok : Ring → Bool) : State → Nat → Ctx → QWord → Chk := fun _ _ x w =>
  if (x.ring g).init && ok (x.ring g) then .ok w else .trap cBOUNDS (w.raw.setWidth 64)

/-- `ring.stat` alone runs under no handle (R37). -/
def ringWord (i : Instr) (g : BitVec 4) (q6 : Nat) (mem : Bool) (ok : Ring → Bool) (book : Ring → Ring) (run : RunFn) (s : State) : Res :=
  issue i { eng := .y, q6 := q6, mem := mem } (ringChk g.toNat ok)
    (fun s c _ => s.modCtx c (fun x => x.modRing g.toNat book)) run s

/-- A ring's change and the element it produces. -/
def ringRun (g : BitVec 4) (f : Ring → Option (Ring × List Dword)) : RunFn := fun s c w =>
  match s.ctx c with
  | none => .done s
  | some x =>
    match f (x.ring g.toNat) with
    | none => .hold s
    | some r => .done (s.setCtx c ((x.modRing g.toNat (fun _ => r.1)).produceAll w.q6 r.2))

def runRingWfree (g : BitVec 4) : RunFn := ringRun g (fun r =>
  if r.slotSt r.ptr = .free then
    some ({ r.set r.ptr .claimed with ptr := (r.ptr + 1) % r.slots, claimOrder := r.claimOrder ++ [r.ptr] }, [r.addr r.ptr])
  else none)
def execRingWfree (g : BitVec 4) (s : State) : Res :=
  ringWord (.ringWfree g) g 1 true (fun _ => true) (fun r => { r with nClaim := r.nClaim + 1 }) (runRingWfree g) s

def runRingPub (g : BitVec 4) : RunFn := ringRun g (fun r =>
  match r.claimOrder with
  | [] => some (r, [])
  | k :: t => some ({ r.set k .filled with claimOrder := t, fillOrder := r.fillOrder ++ [k] }, []))
def execRingPub (g : BitVec 4) (s : State) : Res :=
  ringWord (.ringPub g) g 0 true (fun r => decide (0 < r.nClaim)) (fun r => { r with nClaim := r.nClaim - 1 }) (runRingPub g) s

def runRingWfill (g : BitVec 4) : RunFn := ringRun g (fun r =>
  match r.fillOrder with
  | [] => none
  | k :: t => some ({ r.set k .taken with fillOrder := t, takeOrder := r.takeOrder ++ [k] }, [r.addr k]))
def execRingWfill (g : BitVec 4) (s : State) : Res :=
  ringWord (.ringWfill g) g 1 true (fun _ => true) (fun r => { r with nTake := r.nTake + 1 }) (runRingWfill g) s

def runRingRel (g : BitVec 4) : RunFn := ringRun g (fun r =>
  match r.takeOrder with
  | [] => some (r, [])
  | k :: t => some ({ r.set k .free with takeOrder := t }, []))
def execRingRel (g : BitVec 4) (s : State) : Res :=
  ringWord (.ringRel g) g 0 true (fun r => decide (0 < r.nTake)) (fun r => { r with nTake := r.nTake - 1 }) (runRingRel g) s

/-- The element of `ring.stat` (R227). -/
def Ring.stat (r : Ring) : Dword :=
  BitVec.ofNat 64 (r.countOf .free + 2 ^ 9 * r.countOf .claimed + 2 ^ 18 * r.countOf .landing + 2 ^ 27 * r.countOf .filled
    + 2 ^ 36 * r.countOf .taken + 2 ^ 45 * r.ptr + 2 ^ 53)

def runRingStat (g : BitVec 4) : RunFn := ringRun g (fun r => some (r, [r.stat]))
def execRingStat (g : BitVec 4) (s : State) : Res :=
  ringWord (.ringStat g) g 1 false (fun _ => true) id (runRingStat g) s

/-! ## Barriers (R228) -/

def Tenant.bar (t : Tenant) (tag : Nat) : Bar := Map.get {} t.bars tag

def barChk (tag : Nat) : State → Nat → Ctx → QWord → Chk := fun s c x w =>
  let b := (s.tenant x.tenant).bar tag
  if b.conf && b.parts.getLsbD c then .ok w else .trap cBOUNDS (w.raw.setWidth 64)

/-- Cores of a participant set. -/
def Bar.cores (b : Bar) : List Nat := (List.range Config.numCores).filter (fun c => b.parts.getLsbD c)

/-- An arrival; the phase is full when every participant has made it. -/
def Bar.arrive (b : Bar) (c now : Nat) : Bar :=
  let arr := Map.put 0 b.arr c (Map.get 0 b.arr c + 1)
  let b1 := { b with arr := arr }
  if b1.full.isNone && b1.cores.all (fun k => decide (b.done < Map.get 0 arr k)) then { b1 with full := some now } else b1

def runBarArr (t : BitVec 3) : RunFn := fun s c _ =>
  match s.ctx c with
  | none => .done s
  | some x =>
    let b := (s.tenant x.tenant).bar t.toNat
    if b.done < Map.get 0 b.arr c then .hold s
    else .done (s.modTenant x.tenant (fun v => { v with bars := Map.ins v.bars t.toNat (b.arrive c s.cycle) }))
def execBarArr (t : BitVec 3) (s : State) : Res := issue (.barArr t) { eng := .y } (barChk t.toNat) noAct (runBarArr t) s

def runBarWait (t : BitVec 3) : RunFn := fun s c _ =>
  match s.ctx c with
  | none => .done s
  | some x =>
    let b := (s.tenant x.tenant).bar t.toNat
    if b.done < Map.get 0 b.arr c then .hold s else .done s
def execBarWait (t : BitVec 3) (s : State) : Res := issue (.barWait t) { eng := .y } (barChk t.toNat) noAct (runBarWait t) s

/-! ## Flag words (R229-R232) -/

/-- The named access to a flag word of a core (R195, R196). -/
def flagFoot (here c dev w : Nat) : Foot :=
  if dev = 0x3FF && c = here then ⟨false, flagAddr w, flagAddr w + 8⟩
  else ⟨true, 2 ^ 60 + 2 ^ 32 * dev + 2 ^ 20 * c + flagAddr w, 2 ^ 60 + 2 ^ 32 * dev + 2 ^ 20 * c + flagAddr w + 8⟩

def leafOf (dev c : Nat) : Leaf := if dev = 0x3FF then .core c else .remote dev c

def runFlagAdd : RunFn := fun s c w =>
  match s.ctx c with
  | none => .done s
  | some x => .going (sendCmd s c x w 0x20 (.flagAdd (bits (op0 w).toNat 32 7) ((op1 w).toNat % 2 ^ 32)) (leafOf (epDev (op0 w)) (epCore (op0 w))))
def execFlagAdd (a b : BitVec 6) (s : State) : Res :=
  issue (.flagAdd a b) { eng := .y, srcs := [a.toNat, b.toNat], mem := true }
    (fun s c x w =>
      if endpointBad (s.tenant x.tenant) (op0 w) then .trap cBOUNDS (w.raw.setWidth 64)
      else .ok { w with foot := [flagFoot c (epCore (op0 w)) (epDev (op0 w)) (bits (op0 w).toNat 32 7)] })
    noAct runFlagAdd s

def runFlagSet : RunFn := fun s c w =>
  match s.ctx c with
  | none => .done s
  | some x =>
    let leaves := destLeaves (s.tenant x.tenant) (op0 w)
    if leaves.isEmpty then .done s
    else
      let f := s.fresh leaves.length
      let r := openCmd f.1 c x w 0x21 0 0 f.2
      .going (r.1.sendAll ((numbered s.nextId leaves).map (fun p =>
        { pkt x c r.2 p.1 [p.2] (.flagSet ((op1 w).toNat % 128) (w.ops.getD 2 0)) with twin := decide (p.2 ≠ s.nextId) })))
def execFlagSet (a b e : BitVec 6) (s : State) : Res :=
  issue (.flagSet a b e) { eng := .y, srcs := [a.toNat, b.toNat, e.toNat], mem := true }
    (fun s c x w =>
      let t := s.tenant x.tenant
      if destBad t (op0 w) || bits (w.ops.getD 2 0).toNat 49 15 ≠ 0 then .trap cBOUNDS (w.raw.setWidth 64)
      else .ok { w with foot := (destLeaves t (op0 w)).map (fun l => match l with
        | .core k => flagFoot c k 0x3FF ((op1 w).toNat % 128)
        | .remote d k => flagFoot c k d ((op1 w).toNat % 128)
        | _ => flagFoot c 0 0 0) })
    noAct runFlagSet s

/-- Tests when it starts, and after every change to the word (R232). -/
def runFlagWait : RunFn := fun s c w =>
  if w.cap = 1 || flagHolds ((s.core c).flag ((op0 w).toNat % 128)) (op1 w) then .done s else .hold s
def execFlagWait (a b : BitVec 6) (s : State) : Res :=
  issue (.flagWait a b) { eng := .y, srcs := [a.toNat, b.toNat], mem := true }
    (fun _ c _ w => .ok { w with foot := [flagFoot c c 0x3FF ((op0 w).toNat % 128)], units := [spadUnitOf (flagAddr ((op0 w).toNat % 128))] })
    noAct runFlagWait s

end Sys2Proof.Machine
end

