-- ==== Sys2Proof/Machine/Landing.lean ====
section
/-! DEFINITION. Landing at a core (10_landing_maps R158-R168, R171; 23_traps_and_context R312, R335): binding a block to
a map, the position of an element, writing it into the core or into the copy of an absent context, and fill. -/

namespace Sys2Proof.Machine

/-! ## Writing for a context, present or absent (R312, R335) -/

/-- The owner under which a context's landings write: a suspended one while it is out. -/
def State.ownerOf (s : State) (c tenant uid : Nat) : Owner :=
  match (s.core c).sus with
  | some y => { tenant := tenant, sus := decide (y.uid = uid) }
  | none => { tenant := tenant, sus := false }

/-- A unit's landing goes to the saved copy: the owner is out and does not hold the unit itself (R267). -/
def toSlot (s : State) (c u : Nat) (me : Owner) : Bool :=
  me.sus && (match Map.at? (s.core c).owner u with
    | some o => decide (o ≠ me)
    | none => decide (u ∈ (s.core c).savedOf me.tenant))

/-- Byte address of a scratchpad row in the owner's slot. -/
def slotRow (s : State) (c row : Nat) (me : Owner) : Nat :=
  slotAt s me.tenant c (unitOff (spadUnit row)) + row % 64 * 128

/-- The saved copy exists: a unit never saved before starts as zeros (R312). -/
def ensureSaved (s : State) (c u : Nat) (me : Owner) : State :=
  if u ∈ (s.core c).savedOf me.tenant then s
  else
    let a := slotAt s me.tenant c (unitOff u)
    (((s.writeN a 8192 0).cleanMem a 8192).spillBit c me u true).modCore c
      (fun k => { k with saved := Map.put [] k.saved me.tenant (addMark (k.savedOf me.tenant) u) })

/-- A row as a landing leaves it. -/
def RowPart.over (p : RowPart) (old : Row) : Row := (old &&& ~~~p.mask) ||| (p.data &&& p.mask)

/-- The part is all 128 bytes of its row. -/
def RowPart.whole (p : RowPart) : Bool := p.mask == BitVec.allOnes 1024

/-- Write part of a row of the owner's scratchpad by one access (R134). A poisoned part marks the row; a part that is the
whole row clears its mark (R167). -/
def landRow (s : State) (c : Nat) (me : Owner) (row : Nat) (p : RowPart) : State :=
  let u := spadUnit row
  if toSlot s c u me then
    let s1 := ensureSaved s c u me
    let a := slotRow s1 c row me
    let s2 := s1.writeN a 128 (p.over (BitVec.ofNat 1024 (s1.readN a 128))).toNat
    if p.bad then s2.poisonMem a 128 else if p.whole then s2.cleanMem a 128 else s2
  else (touchUnit s c me u).modCore c (fun k => { k.setSpadRow row (p.over (k.spadRow row)) with
    spadPoison := if p.bad then addMark k.spadPoison row else if p.whole then k.spadPoison.filter (fun r => r ≠ row) else k.spadPoison })

/-- Set a sticky bit of a context, resident or suspended; a suspended one's image takes it too (R171, R310). -/
def State.stickAt (s : State) (c uid i : Nat) : State :=
  let s1 := s.modCtxOf c uid (fun x => x.stick i)
  match (s.core c).sus.filter (fun y => decide (y.uid = uid)) with
  | none => s1
  | some y =>
    let a := slotOf s y.tenant c + 0x38 + i / 8
    s1.putByte a (setBits (s1.byte a) (i % 8) 1 1)

/-- Rows of which a block has a part. -/
def partRows (ps : Map RowPart) : List Nat := (ps.map (fun p => p.1)).dedup

/-- Write the parts of given rows, each by one access; POISON is set where one marks its row (R167). -/
def landRows (s : State) (c : Nat) (me : Owner) (uid : Nat) (ps : Map RowPart) (rows : List Nat) : State :=
  let s1 := rows.foldl (fun q r => landRow q c me r (Map.get {} ps r)) s
  if rows.any (fun r => (Map.get {} ps r).bad) then s1.stickAt c uid stPOISON else s1

/-! ## Positions (R163, R164) -/

/-- Bit position of an element before the swizzle (R163). -/
def mapPos (m : Rec512) (origin : Dword) (slot row col : Nat) : Nat :=
  let wd := ewidth (mEt m)
  let r := row - cRow (mLo m)
  let c := col - cCol (mLo m)
  let es := wd / 8
  if mKind m = 0 then 8 * (mBase m + r * mPitch m) + c * wd
  else if mKind m = 1 then 8 * (mBase m + c * mPitch m + r * es)
  else if mKind m = 2 then
    8 * (mBase m + r / mBh m * mPitch m + (c / mBw m * mBh m * mBw m + r % mBh m * mBw m + c % mBw m) * es)
  else 8 * (mBase m + slot * mSlotBytes m + (row - cRow origin) * mPitch m) + (col - cCol origin) * wd

/-- The swizzle of a byte address (R164). -/
def mapSwizzle (m : Rec512) (a : Nat) : Nat :=
  if mMask m = 0 then a
  else
    let row := a / 128
    let k := a % 128 / 2 ^ mChunk m
    let k2 := k ^^^ (row / 2 ^ mShift m % 2 ^ mMask m)
    row * 128 + k2 * 2 ^ mChunk m + a % 2 ^ mChunk m

/-- The pieces of an element, each within one byte, the lowest first: bit position in the scratchpad, bits, and the bits
of the element below them. No piece lands on a flag word (R229), which a RING block longer than its slot could reach.
DEDUCED: notes/assumptions/105. -/
def cellPieces (m : Rec512) (origin : Dword) (slot row col : Nat) : List (Nat × Nat × Nat) :=
  (bytePieces (mapPos m origin slot row col) (cellBits (mEt m))).map (fun p => (8 * mapSwizzle m p.1 + p.2.1, p.2.2.1, p.2.2.2))
    |>.filter (fun p => decide (p.1 < 8 * Config.flagBase))

/-- Take n bits at bit o of a row into its part. -/
def RowPart.put (p : RowPart) (o n v : Nat) (bad : Bool) : RowPart :=
  { mask := setBits p.mask o n (2 ^ n - 1), data := setBits p.data o n v, bad := p.bad || bad }

/-- Take an element into the parts of the rows it reaches. -/
def landCell (m : Rec512) (origin : Dword) (slot row col v : Nat) (bad : Bool) (ps : Map RowPart) : Map RowPart :=
  (cellPieces m origin slot row col).foldl (fun q p =>
    Map.ins q (p.1 / 1024) ((Map.get {} q (p.1 / 1024)).put (p.1 % 1024) p.2.1 (v / 2 ^ p.2.2) bad)) ps

/-- Rows an element reaches. -/
def cellRows (m : Rec512) (origin : Dword) (slot row col : Nat) : List Nat :=
  (cellPieces m origin slot row col).map (fun p => p.1 / 1024)

/-- A coordinate lies in the map's window. -/
def inWindow (m : Rec512) (row col plane batch : Nat) : Bool :=
  [(cRow, row), (cCol, col), (cPlane, plane), (cBatch, batch)].all (fun p => decide (p.1 (mLo m) ≤ p.2) && decide (p.2 < p.1 (mHi m)))

/-! ## Binding (R162, R335) -/

/-- The context a block goes to: the one whose command it answers, while it exists (after its `end`, the maps then in
force take it, R280), else the tenant's resident or suspended one.
DEDUCED: notes/assumptions/40. -/
def State.blockCtx (s : State) (c tenant cmd : Nat) : Option Ctx :=
  match Map.at? s.cmds cmd with
  | some m =>
    if m.core = c && (m.op5 = 1 || m.op5 = 4 || m.op5 = 0x0D || m.op5 = 0x0F) then (s.ctxOf c m.uid).or (s.ctxFor c tenant)
    else s.ctxFor c tenant
  | none => s.ctxFor c tenant

/-- Slots whose map is a candidate for a block, lowest first. -/
def candidates (x : Ctx) (tag : Nat) (origin : Dword) : List (Nat × Rec512) :=
  x.maps.filter (fun m => mValid m.2 && decide (mTag m.2 = tag) && inWindow m.2 (cRow origin) (cCol origin) (cPlane origin) (cBatch origin))

/-- Open blocks of a core (R159). -/
def Core.openCount (k : Core) : Nat := (k.blks.filter (fun b => b.2.bound.isSome && decide (0 < b.2.beats))).length

/-- The bytes a beat would reach lie in a unit that is spilling (R312). -/
def beatSpilling (s : State) (c : Nat) (m : Rec512) (origin : Dword) (slot : Nat) (cells : List Nat) (row : Nat) : Bool :=
  cells.any (fun col => (cellRows m origin slot row col).any (fun r => decide (spadUnit r ∈ (s.core c).spilling)))

/-- What a first arrival finds: the block refused, or the state with the block open. -/
def bindBlock (s : State) (c : Nat) (h : Hdr) (cmd : Nat) (src : Leaf) (row : Nat) (cols : List Nat) : Option (State × OpenBlk) :=
  let fresh : OpenBlk := { hdr := h, cmd := cmd, src := src }
  match s.blockCtx c h.tenant cmd with
  | none => some (s, fresh)
  | some x =>
    let fresh := { fresh with ctx := some x.uid }
    let cs := candidates x h.tag h.origin
    let noted := if 2 ≤ cs.length then (s.count c evMAPDUP 1).stickAt c x.uid stMAPDUP else s
    match cs with
    | [] => some (s, fresh)
    | (k, m) :: _ =>
      if mEt m ≠ h.etype then some (noted, fresh)
      else if Config.openBlocks ≤ (s.core c).openCount then none
      else if mKind m = 3 then
        let r := x.ring (mRing m)
        if !r.up || r.refusing || r.slotSt r.ptr ≠ .free || beatSpilling s c m h.origin r.ptr cols row then none
        else some (noted.modCtxOf c x.uid (fun y => y.modRing (mRing m) (fun (q : Ring) => { q.set q.ptr SlotSt.landing with ptr := (q.ptr + 1) % q.slots })),
          { fresh with bound := some (k, m, x.uid, r.ptr) })
      else if beatSpilling s c m h.origin 0 cols row then none
      else some (noted, { fresh with bound := some (k, m, x.uid, 0) })

/-! ## Beats -/

/-- Elements of a beat that land: those in the map's window (R162). -/
def landed (m : Rec512) (h : Hdr) (t : Beat) : List (Nat × Nat) :=
  (beatCells h t).filter (fun e => inWindow m t.row e.1 t.plane t.batch)

/-- A beat of a bound block lands its elements that lie in the window. They gather by scratchpad row: a row whose 128 bytes
are complete is written at once, any other when the block completes, so that no row is seen half landed (R134, R163).
DEDUCED: notes/assumptions/91. -/
def landBeat (s : State) (c : Nat) (b : OpenBlk) (m : Rec512) (uid slot : Nat) (h : Hdr) (t : Beat) : State × OpenBlk :=
  let cells := landed m h t
  let parts := cells.foldl (fun q e => landCell m h.origin slot t.row e.1 e.2 t.poison q) b.parts
  let rows := (partRows parts).filter (fun r => (Map.get {} parts r).whole)
  (landRows s c (s.ownerOf c h.tenant uid) uid parts rows,
   { b with
     beats := b.beats + 1
     runs := b.runs ++ (match cells with | [] => [] | e :: _ => [(t.row, e.1, cells.length)])
     parts := rows.foldl Map.del parts
     bad := if b.bad.isNone && t.poison
       then (cells.flatMap (fun e => cellRows m h.origin slot t.row e.1)).head?.map (fun r => 128 * r) else b.bad })

/-- A beat that no map takes (R162, R171): the context the block met at its first arrival, if any, gets MAPMISS. -/
def dropBeat (s : State) (c : Nat) (b : OpenBlk) : State × OpenBlk :=
  let s1 := s.count c evMAPMISS 1
  let s2 := match b.ctx with
    | some uid => s1.stickAt c uid stMAPMISS
    | none => s1
  (s2, { b with beats := b.beats + 1, dropped := b.dropped + 1 })

def State.setBlk (s : State) (c : Nat) (k : Nat) (b : OpenBlk) : State :=
  s.modCore c (fun q => { q with blks := Map.ins q.blks k b })

/-! ## Completion (R159, R165) -/

/-- Footprint positions that no beat wrote. -/
def unwritten (b : OpenBlk) (m : Rec512) : List (Nat × Nat) :=
  let st := cellCols (mEt m)
  let o := b.hdr.origin
  (List.range (mFrows m)).flatMap (fun a =>
    ((List.range (ceilDiv (mFcols m) st)).map (fun i => (cRow o + a, cCol o + st * i))).filter (fun p =>
      inWindow m p.1 p.2 (cPlane o) (cBatch o) &&
        !b.runs.any (fun q => decide (q.1 = p.1) && decide (q.2.1 ≤ p.2) && decide (p.2 < q.2.1 + st * q.2.2))))

/-- The fill value of a map (R165). -/
def fillBits (m : Rec512) : Nat :=
  if mFill m = 1 then (if mEt m = 0x11 then 0xFF else canonNan (mEt m)) else if mFill m = 2 then withSign (mEt m) true (infBits (mEt m)) else 0

/-- Fill after every beat has landed, and the rows that still wait are written with it (R165); after a synthesised marker
the rows the fill reaches are marked, and else a row that beats and fill have written whole loses its mark (R167).
DEDUCED: notes/assumptions/37. -/
def fillBlock (s : State) (c : Nat) (b : OpenBlk) (m : Rec512) (uid slot : Nat) : State :=
  let ps := if mFill m = 3 then [] else unwritten b m
  let parts := ps.foldl (fun q p => landCell m b.hdr.origin slot p.1 p.2 (fillBits m) b.link q) b.parts
  let s1 := landRows s c (s.ownerOf c b.hdr.tenant uid) uid parts (partRows parts)
  if ps.isEmpty then s1 else (s1.count c evFILL ps.length).stickAt c uid stFILL

/-- What the completed block reports to its sender (R162, R182). -/
def OpenBlk.report (b : OpenBlk) : AckInfo :=
  match b.bad with
  | some a => { cause := 9, tval := BitVec.ofNat 64 a }
  | none => if b.dropped = 0 then {} else { cause := 0xA, tval := BitVec.ofNat 64 b.dropped }

/-- Every beat the marker names has arrived. -/
def OpenBlk.whole (b : OpenBlk) : Bool := match b.need with | some n => decide (n ≤ b.beats) | none => false

/-- Where a block's acknowledgement goes: the core whose command it belongs to, else its source. -/
def State.ackLeaf (s : State) (b : OpenBlk) : Leaf :=
  match Map.at? s.cmds b.cmd with
  | some m => .core m.core
  | none => b.src

/-- Fill, let the ring slot count as filled, and acknowledge (R159, R165, R166). -/
def completeBlock (s : State) (c k : Nat) (b : OpenBlk) : State :=
  let s1 := match b.bound with
    | none => s
    | some (_, m, uid, slot) =>
      let s1 := fillBlock s c b m uid slot
      if mKind m = 3 then
        s1.modCtxOf c uid (fun x => x.modRing (mRing m) (fun (r : Ring) =>
          if r.slotSt slot = SlotSt.landing then { r.set slot SlotSt.filled with fillOrder := r.fillOrder ++ [slot] } else r))
      else s1
  let ack := PKind.ack k [k] b.report
  let s2 := s1.modCore c (fun q => { q with blks := Map.del q.blks k })
  let s3 := { s2 with applied := Map.ins s2.applied k ack }
  s3.send { seq := 0, kind := ack, src := .core c, dst := s.ackLeaf b, tenant := b.hdr.tenant, cls := 4, cmd := b.cmd }

end Sys2Proof.Machine
end

