-- ==== Sys2Proof/Machine/Image.lean ====
section
/-! DEFINITION. The immediate image of a context and its units in a slot (23_traps_and_context R309-R311, R313). -/

namespace Sys2Proof.Machine

/-! ## Live units (R267, R310) -/

/-- The code from an address on holds a word of the M engine, in memory as it is fetched. Each kernel's code image starts on a
64 KiB boundary, and the record of a launch gives no length: the image is taken to end with the first 64 KiB whose last word
is zero. The fuel is the most chunks of 64 KiB that are looked at.
DEDUCED: notes/assumptions/46. -/
def codeHasM (s : State) (t : Nat) (m : List Host.Cell) : Nat → Nat → Bool
  | 0, _ => false
  | n + 1, va =>
    match walk s t va with
    | .error _ => false
    | .ok p =>
      let pa := p.frame + va % 2 ^ p.log
      let len := 0x10000 - va % 0x10000
      m.any (fun e => decide (pa ≤ e.1) && decide (e.1 < pa + len) && decide (e.1 % 4 = 3) && decide (e.2.toNat / 32 = 2))
        || (decide (State.readN { s with mem := m } (pa + len - 4) 4 ≠ 0) && codeHasM s t m n (va + len))

/-- The launch's kernel contains an M word (R267): the first 4 MiB of its code do, or a span of it has captured one.
DEDUCED: notes/assumptions/46. -/
def Launch.hasM (s : State) (t : Nat) (l : Launch) : Bool := l.mword || codeHasM s t (l.code.getD s.mem) 64 l.entry

/-- The kernel of a context contains an M word. -/
def State.kernelM (s : State) (x : Ctx) : Bool :=
  x.mword || (match Map.at? (s.tenant x.tenant).launches x.lid with | some l => l.hasM s x.tenant | none => false)

/-- Units live by the LNR: declared tiles that are not dead, scratchpad blocks that hold a row below `.spad`, and, where the
kernel contains an M word, the accumulator units the tenant has here. -/
def liveUnits (s : State) (c : Nat) (x : Ctx) : List Nat :=
  ((List.range x.useTiles).filter (fun t => t ∉ x.dead))
    ++ (if s.kernelM x then ((List.range 16).map (fun i => 64 + i)).filter (fun u =>
        decide ((Map.at? (s.core c).owner u).map Owner.tenant = some x.tenant) || decide (u ∈ (s.core c).savedOf x.tenant)) else [])
    ++ (List.range (ceilDiv x.useSpad 64)).map (fun b => 80 + b)

/-! ## Regions -/

/-- A region of the image: its row of R310's table, offset, bytes, whether it is empty, and its value, or none where
R310 gives no inner layout. -/
structure Region where
  row : Nat
  off : Nat
  len : Nat
  empty : Bool
  val : Option Nat

/-- Pack values of w bits, the first lowest. -/
def packNat (w : Nat) : List Nat → Nat
  | [] => 0
  | v :: t => v % 2 ^ w + 2 ^ w * packNat w t

/-- A region of n equal fields of w bits each. -/
def fieldRegion (row off w n : Nat) (f : Nat → Nat) : Region :=
  let vs := (List.range n).map f
  { row := row, off := off, len := w * n / 8, empty := vs.all (fun v => decide (v = 0)), val := some (packNat w vs) }

/-- A header word, always written. -/
def headRegion (row off len v : Nat) : Region := { row := row, off := off, len := len, empty := false, val := some v }

/-- The queues of the token order of R310: S to V, S to M ... K to Y. -/
def tokenPairs : List (Nat × Nat) :=
  (List.range 6).flatMap (fun i => ((List.range 6).filter (fun j => decide (j ≠ i))).map (fun j => (i, j)))

/-- A record of 512 bits in a slot, or zero. -/
def recNat (m : Map Rec512) (k : Nat) : Nat := match Map.at? m k with | some r => r.toNat | none => 0

/-- The regions of R310 (row 6, the present bits, apart). The context is the interrupted one; `csr` gives its CSRs.
DESIGN CHOICE: notes/assumptions/42. -/
def imageRegions (s : State) (c : Nat) (x : Ctx) (csr : Nat → Nat) (resume : Nat) (spill : List Nat) : List Region :=
  [ headRegion 0 0x0000 8 resume,
    { row := 1, off := 0x0008, len := 8, empty := !x.pstat.getLsbD 7, val := none },
    headRegion 2 0x0010 8 x.held.resume,
    headRegion 3 0x0018 8 x.lnr,
    headRegion 4 0x0020 8 (packNat 16 ((List.range 4).map (fun i => Map.get 0 x.ix i))),
    headRegion 5 0x0028 8 (x.spanid % 2 ^ 32 + 2 ^ 32 * x.srctr.toNat),
    headRegion 7 0x0038 8 x.sticky.toNat,
    headRegion 8 0x0040 16 (packNat 4 (tokenPairs.map (fun p => x.tokens p.1 p.2))),
    headRegion 9 0x0050 24 ((spill.map (fun u => 2 ^ u)).sum),
    { row := 10, off := 0x0068, len := 8, empty := false, val := none },
    headRegion 11 0x0070 16 0,
    fieldRegion 12 0x0080 64 32 (fun k => (x.reg k).toNat),
    fieldRegion 13 0x0180 64 16 (fun k => match x.rq[k]? with | some (_, some v) => v.toNat | _ => 0),
    { fieldRegion 14 0x0200 64 19 csr with empty := false },
    { row := 14, off := 0x0298, len := 104, empty := false, val := none },
    fieldRegion 15 0x0300 32 64 (fun k => (Map.get 0 x.shapes k).toNat),
    fieldRegion 16 0x0400 128 128 (fun k => (x.pred k).toNat),
    fieldRegion 17 0x0C00 32 256 (fun k => (Map.get 0 x.codebook k).toNat),
    fieldRegion 18 0x1000 64 64 (fun k => (Map.get 0 x.bfx k).toNat),
    fieldRegion 19 0x1200 512 16 (recNat x.desc),
    fieldRegion 20 0x1600 512 16 (recNat x.maps),
    fieldRegion 21 0x1A00 64 16 (fun k => (Map.get 0 x.mws k).toNat),
    { row := 22, off := 0x1A80, len := 1152, empty := x.seqrs.isEmpty, val := none },
    { row := 23, off := 0x1F00, len := 2560, empty := x.rings.isEmpty, val := none },
    { row := 24, off := 0x2900, len := 512, empty := x.q6.isEmpty, val := none },
    { row := 25, off := 0x2B00, len := 3072, empty := x.chans.all (fun q => q.2.elems.isEmpty), val := none },
    fieldRegion 26 0x3700 64 16 (fun k => (((s.core c).box x).getD k 0).toNat),
    { row := 27, off := 0x3780, len := 6144, empty := x.notStarted.isEmpty, val := none },
    { headRegion 28 0x4F80 128 0 with empty := true } ]

/-- Bytes of a region whose layout is open: free values (notes/assumptions/10).
DESIGN CHOICE: notes/assumptions/10. -/
def freeBytes (ctr n : Nat) : List Byte := (List.range n).map (fun i => Config.imageByte (ctr + i))

/-- Write the regions that are not empty. -/
def writeRegions (s : State) (a : Nat) : List Region → State
  | [] => s
  | r :: rs =>
    if r.empty then writeRegions s a rs
    else
      match r.val with
      | some v => writeRegions (s.writeN (a + r.off) r.len v) a rs
      | none => writeRegions { s.writeBytes (a + r.off) (freeBytes s.freeCtr r.len) with freeCtr := s.freeCtr + r.len } a rs

/-- Present bits: bit i for row i of the table, row 6 itself present. -/
def presentBits (rs : List Region) : Nat :=
  ((List.range 29).map (fun i => if i = 6 || rs.any (fun r => decide (r.row = i) && !r.empty) then 2 ^ i else 0)).sum

/-- Write the image at a physical address (R310); the rest of the slot's first 64 KiB is zero (R309). -/
def writeImage (s : State) (c : Nat) (x : Ctx) (csr : Nat → Nat) (resume : Nat) (spill : List Nat) (a : Nat) : State :=
  let rs := imageRegions s c x csr resume spill
  (writeRegions ((s.cleanMem a 0x10000).zeroMem (a + 0x5000) 0xB000) a rs).writeN (a + 0x30) 8 (presentBits rs)

/-! ## Units in a slot given by its frames -/

/-- Physical address of a unit in a slot. -/
def slotAddr (frames : List Nat) (off : Nat) : Nat := frames.getD (off / 0x10000) 0 + off % 0x10000

def saveUnits (s : State) (c : Nat) (frames : List Nat) : List Nat → State
  | [] => s
  | u :: us => saveUnits (spillRows s c u (slotAddr frames (unitOff u)) (unitRows u)) c frames us

def loadUnits (s : State) (c : Nat) (frames : List Nat) : List Nat → State
  | [] => s
  | u :: us =>
    loadUnits (loadRows (s.modCore c (fun k => k.clearUnit u)) c u (slotAddr frames (unitOff u)) (unitRows u)) c frames us

/-- The context a trap interrupted: the held words are its queues, the held tokens its tokens (R313), and the kinds of the
accumulators are part of its image (R140). -/
def Ctx.interrupted (x : Ctx) (kinds : List Nat) : Ctx := { x with qs := x.held.words, tok := x.held.toks, fly := [], kinds := kinds }

/-- A field of w bits at place k of a region, from memory; zero where the region is absent. -/
def imgField (s : State) (a off w k : Nat) (present : Bool) : Nat := if present then s.readN (a + off + w / 8 * k) (w / 8) else 0

/-- Listed values that are not zero. -/
def listed {α : Type} (n : Nat) (f : Nat → Nat) (mk : Nat → α) : Map α :=
  ((List.range n).filter (fun k => decide (f k ≠ 0))).map (fun k => (k, mk (f k)))

/-- The context read from an image (R311, R313): fields R310 lays out from memory, each CSR with the bits it keeps (R109), the
others from what was noted when the image was written. -/
def readImage (s : State) (base : Ctx) (a : Nat) : Ctx :=
  let pr := s.readN (a + 0x30) 8
  let csr := fun n => csrKeep n (s.readN (a + 0x200 + 8 * n) 8)
  let fld := fun off w k i => imgField s a off w k (bit pr i)
  { base with
    lnr := s.readN (a + 0x18) 8
    ix := listed 4 (fun k => s.readN (a + 0x20 + 2 * k) 2) id
    spanid := s.readN (a + 0x28) 4
    srctr := BitVec.ofNat 32 (s.readN (a + 0x2C) 4)
    sticky := BitVec.ofNat 11 (s.readN (a + 0x38) 8)
    tok := (tokenPairs.zipIdx.map (fun p => (6 * p.1.1 + p.1.2, bits (s.readN (a + 0x40) 16) (4 * p.2) 4))).filter (fun e => decide (e.2 ≠ 0))
    n := listed 32 (fun k => fld 0x0080 64 k 12) (BitVec.ofNat 64)
    rq := (List.range 16).map (fun k =>
      let v := BitVec.ofNat 64 (fld 0x0180 64 k 13)
      match base.rq[k]? with
      | some (i, none) => if v = 0 then (i, none) else (i, some v)
      | some (i, some _) => (i, some v)
      | none => (0, some v))
    shapes := listed 64 (fun k => fld 0x0300 32 k 15) (BitVec.ofNat 32)
    p := listed 128 (fun k => if k = 0 then 0 else fld 0x0400 128 k 16) (BitVec.ofNat 128)
    codebook := listed 256 (fun k => fld 0x0C00 32 k 17) (BitVec.ofNat 32)
    bfx := (listed 64 (fun k => fld 0x1000 64 k 18) (BitVec.ofNat 64)).filterMap (fun e =>
      if bfxKeep (e.1 % 8) e.2 = 0 then none else some (e.1, bfxKeep (e.1 % 8) e.2))
    desc := listed 16 (fun k => fld 0x1200 512 k 19) (BitVec.ofNat 512)
    maps := (listed 16 (fun k => fld 0x1600 512 k 20) (BitVec.ofNat 512)).filter (fun m => mValid m.2)
    mws := listed 16 (fun k => fld 0x1A00 64 k 21) (BitVec.ofNat 64)
    rnd := csr 0
    ftz := csr 1
    step := csr 2
    sacage := csr 3
    gbase := csr 4
    gpitch := csr 5
    swz := csr 6
    bfxsel := csr 7
    rpbase := BitVec.ofNat 64 (s.readN (a + 0x280) 8)
    srseed := BitVec.ofNat 32 (s.readN (a + 0x288) 8)
    qtmo := csr 0x12 }

/-- The mailbox words of an image, up to the last that is not zero. -/
def imageMbox (s : State) (a : Nat) : List Dword :=
  let pr := s.readN (a + 0x30) 8
  let vs := (List.range 16).map (fun k => BitVec.ofNat 64 (imgField s a 0x3700 64 k (bit pr 26)))
  (vs.reverse.dropWhile (fun v => decide (v = 0))).reverse

/-- Mailbox words of an image: n of them, and more where others are not zero. -/
def imageBox (s : State) (a n : Nat) : List Dword :=
  let ws := imageMbox s a
  ws ++ List.replicate (n - ws.length) 0

/-- Units whose bit of the spill map is set are in the slot. -/
def spilledIn (s : State) (a : Nat) : List Nat := (List.range 176).filter (fun u => bit (s.readN (a + 0x50) 24) u)

/-- A code address in an image: a multiple of 4 (R109, R302). -/
def imagePc (s : State) (a : Nat) : Nat := s.readN a 8 / 4 * 4

/-- Tiles that are dead in a context read 0 (R137): what the core's rows of them hold is not theirs. -/
def Core.clearDead (k : Core) (me : Owner) (dead : List Nat) : Core :=
  dead.foldl (fun q t => if Map.at? q.owner t = some me then q.clearUnit t else q) k

/-! ## What arrives for a suspended context (R310, R312) -/

/-- The part of a context that a region without an inner layout stands for has changed. -/
def rowChanged (row : Nat) (x y : Ctx) : Bool :=
  if row = 22 then decide (x.seqrs ≠ y.seqrs) || decide (x.hnd ≠ y.hnd) || decide (x.tickets ≠ y.tickets)
  else if row = 23 then decide (x.rings ≠ y.rings)
  else if row = 24 then decide (x.q6 ≠ y.q6)
  else if row = 25 then decide (x.chans ≠ y.chans)
  else false

/-- The regions of a suspended context, but for the spill map, which `spillBit` keeps. -/
def State.susRegions (s : State) (c : Nat) (y : Ctx) : List Region :=
  (imageRegions s c y (fun n => (csrRead s c y n).toNat) 0 []).filter (fun r => decide (r.row ≠ 0) && decide (r.row ≠ 9))

/-- Present bits with one set or cleared. -/
def notePresent (pr : Nat) (r : Region) : Nat := (setBits (BitVec.ofNat 64 pr) r.row 1 (if r.empty then 0 else 1)).toNat

/-- The image of a suspended context in its slot follows what has arrived for it since state `s`. -/
def State.noteImage (s t : State) (c : Nat) (x y : Ctx) : State :=
  let a := slotOf t y.tenant c
  let rs := (((t.susRegions c y).zip (s.susRegions c x)).filter (fun p =>
    if p.1.val.isSome then decide (p.1.val ≠ p.2.val) else rowChanged p.1.row x y)).map (fun p => p.1)
  if rs.isEmpty then t
  else
    let u := writeRegions { t with images := Map.modify t.images a (fun _ => y) } a rs
    u.writeN (a + 0x30) 8 (rs.foldl notePresent (u.readN (a + 0x30) 8))

/-- Every suspended context's image follows what an event has brought (R312): q6 elements, channel elements, statuses, ring
slots, sticky bits and mailbox words. -/
def State.noteImages (s t : State) : State :=
  t.cores.foldl (fun q p =>
    match (s.core p.1).sus, p.2.sus with
    | some x, some y =>
      if decide (x.uid = y.uid) && (decide (x ≠ y) || decide ((s.core p.1).box x ≠ p.2.box y)) then s.noteImage q p.1 x y else q
    | _, _ => q) t

/-- Operations that have performed since the image was written are no longer open. -/
def Ctx.prune (s : State) (c : Nat) (x : Ctx) : Ctx :=
  { x with seqrs := x.seqrs.map (fun q => (q.1, { q.2 with opened := q.2.opened.filter (fun o =>
      x.qs.any (fun w => decide (w.seqr = some q.1) && decide (w.opn = o))
        || s.cmds.any (fun m => decide (m.2.core = c) && decide (m.2.uid = x.uid) && decide (m.2.seqr = some q.1) && decide (m.2.opn = o))) })) }

/-- The loaded context replaces the interrupted one, and the handler goes on in it (R313). -/
def Ctx.replace (x y : Ctx) (resume point : Nat) : Ctx :=
  { y with
    uid := x.uid, tenant := x.tenant, lid := x.lid, pc := x.pc, grp := x.grp, qs := x.qs, fly := x.fly, tok := x.tok
    stall := x.stall, pend := x.pend, ending := x.ending, dead0 := x.dead0
    nextSeq := Max.max x.nextSeq y.nextSeq, nextElem := Max.max x.nextElem y.nextElem
    epc := resume, pstat := (y.pstat &&& 0xFE#8) ||| 1#8
    held := { y.held with words := y.qs, toks := y.tok, resume := point, epc0 := resume } }

end Sys2Proof.Machine
end

