-- ==== Sys2Proof/Machine/System.lean ====
section
/-! DEFINITION. The system words (23_traps_and_context R300, R301, R307, R313-R315; 21_step_cache R281;
22_scheduling R287; R52). -/

namespace Sys2Proof.Machine

def sysWord (i : Instr) (srcs : List Nat) (priv : Bool) (chk : State → Nat → Ctx → QWord → Chk)
    (act : State → Nat → QWord → State) (run : RunFn) (s : State) : Res :=
  issue i { eng := .s, srcs := srcs, priv := priv, sys := true } chk act run s

/-! ## Traps and return (R300, R301) -/

def runTrap : RunFn := runNone
/-- Raises TRAP at capture; nothing of the word is left (R301). -/
def execTrap (i : BitVec 17) (s : State) : Res :=
  sysWord (.trap i) [] false (fun _ _ x _ => .trap 0x10 (immZ x.grp.pfx i)) noAct runTrap s

def runEbrk : RunFn := runNone
def execEbrk (i : BitVec 17) (s : State) : Res :=
  sysWord (.ebrk i) [] false (fun _ _ x _ => .trap 0x11 (immZ x.grp.pfx i)) noAct runEbrk s

/-- All six engine queues are empty; X commands that have issued are under their sequencers.
DEDUCED: notes/assumptions/43. -/
def Ctx.quiet (x : Ctx) : Bool := x.qs.isEmpty && x.fly.all (fun w => w.finished || (w.eng == Engine.x && !w.waiting && !w.holds && w.mid.isNone))

/-- Push slots of dropped words are given back: the words will not send (R235, R300). -/
def releasePushes (s : State) (c : Nat) (x : Ctx) : List QWord → State
  | [] => s
  | w :: ws =>
    let s1 := x.chout.foldl (fun t p =>
      if w.seq ∈ p.2 then
        let t1 := t.modCtx c (fun y => { y with chout := Map.ins y.chout p.1 ((Map.get [] y.chout p.1).filter (fun k => k ≠ w.seq)) })
        match peerOf x c p.1 with
        | none => t1
        | some k =>
          match gangCtx t1 k x.tenant x.lid with
          | none => t1
          | some y => t1.modCtxOf k y.uid (fun z =>
              let ch := Map.get {} z.chans p.1
              { z with chans := Map.ins z.chans p.1 { ch with reserved := ch.reserved - 1 } })
      else t) s
    releasePushes s1 c x ws

/-- The held words a return drops (R300). -/
def Ctx.returnDrops (x : Ctx) : List QWord :=
  if !x.pstat.getLsbD 2 then []
  else if x.epc = x.held.epc0 then
    (if x.pstat.getLsbD 6 then x.held.words.filter (fun w => some w.seq = x.held.trapped) else [])
  else x.held.words

/-- The return of `eret` (R300): tokens in the queues are discarded, and so are those of finished words that were about to be
pushed there. -/
def State.eret (s : State) (c : Nat) : State :=
  match s.ctx c with
  | none => s
  | some x =>
    let n := x.tokensDue
    let due := x.unsignalled false
    let s1 := if n = 0 then s else (s.modCtx c (fun y => y.stick stTOKLEFT)).count c evTOKLEFT n
    (releasePushes s1 c x x.returnDrops).modCtx c (fun y =>
      ({ y with qs := [], fly := y.fly.filter (fun w => decide (w ∉ due)) } : Ctx).returnTrap)

def runEret : RunFn := runNone
/-- Capture waits until all six queues are empty, and the return takes effect as the word passes capture. -/
def execEret (s : State) : Res :=
  issue .eret { eng := .s, priv := true, jump := true, sys := true }
    (fun _ _ x w => if x.quiet then .ok w else .stall .other) (fun s c _ => s.eret c) runEret s

/-! ## Launch, translation, waiting (R287, R293, R307) -/

/-- Enqueue a launch: its id is its number on the queue (R287). -/
def State.enqueueLaunch (s : State) (t q lnr : Nat) : State :=
  s.modTenant t (fun v =>
    let n := Map.get 0 v.nextId q
    let id := q * 2 ^ 28 + n % 2 ^ 28
    { v with nextId := Map.ins v.nextId q (n + 1)
             launches := Map.ins v.launches id { lnr := lnr, queue := q }
             queues := Map.ins v.queues q (Map.get [] v.queues q ++ [id]) })

def queueFull (t : Tenant) (q : Nat) : Bool := decide (256 ≤ (Map.get [] t.queues q).length)

def runKlaunch (q : BitVec 4) : RunFn := fun s c w =>
  match s.ctx c with
  | none => .done s
  | some x =>
    if queueFull (s.tenant x.tenant) q.toNat then .hold s
    else .done (s.enqueueLaunch x.tenant q.toNat (op0 w).toNat)
def execKlaunch (a : BitVec 6) (q : BitVec 4) (s : State) : Res :=
  sysWord (.klaunch a q) [a.toNat] false noChk noAct (runKlaunch q) s

/-- An entry covers an address. -/
def coversVa (vbase log a : Nat) : Bool := decide (vbase = a / 2 ^ log * 2 ^ log)

/-- What fetch sees of memory after an invalidation: what stands there now, in the range invalidated. -/
def freshCode (old now : List Host.Cell) (a n : Nat) : List Host.Cell :=
  old.filter (fun e => decide (e.1 < a)) ++ now.filter (fun e => decide (a ≤ e.1) && decide (e.1 < a + n))
    ++ old.filter (fun e => decide (a + n ≤ e.1))

/-- A kernel's code as a cluster fetches it after a `tinv` there (R31, R307). -/
def Launch.refetch (l : Launch) (clus : Nat) (now : List Host.Cell) (a n : Nat) : Launch :=
  if l.code.isNone then l else { l with recode := Map.ins l.recode clus (freshCode ((Map.at? l.recode clus).getD (l.code.getD now)) now a n) }

/-- Translations and fetched words of the tenant are gone (R307): all of them, or those that cover the address. Words fetched
afterwards in the cluster are those that stand in memory now (R31). -/
def runTinv : RunFn := fun s c w =>
  match s.ctx c with
  | none => .done s
  | some x =>
    let a := (op0 w).toNat
    let hit := fun (vbase log : Nat) => decide (a = 0) || coversVa vbase log a
    let page := match walk s x.tenant a with | .ok p => p.log | .error _ => 16
    let s1 := s.modCore c (fun k => { k with stlb := k.stlb.filter (fun e => !(decide (e.1 = x.tenant) && hit e.2.1 e.2.2.1)) })
    let range := if a = 0 then (0, Config.memEnd) else match walk s x.tenant a with | .ok p => (p.frame, 2 ^ p.log) | .error _ => (0, 0)
    let s2 := s1.modTenant x.tenant (fun t =>
      { t with launches := t.launches.map (fun l => (l.1, l.2.refetch (clusOf c) s.mem range.1 range.2)) })
    .done { s2 with
      itlb := s1.itlb.filter (fun e => !(decide (e.cluster = clusOf c) && decide (e.tenant = x.tenant) && hit e.vbase e.log))
      icache := Map.modify s1.icache (clusOf c) (fun m => m.filter (fun e =>
        !(decide (e.1 / 2 ^ 48 = x.tenant) && (decide (a = 0) || decide (e.1 % 2 ^ 48 / 2 ^ page = a / 2 ^ page))))) }
def execTinv (a : BitVec 6) (s : State) : Res := sysWord (.tinv a) [a.toNat] true noChk noAct runTinv s

/-- The S queue waits until the mailbox is not empty (R314). -/
def runWfi : RunFn := fun s c _ =>
  match s.ctx c with
  | none => .done s
  | some x => if ((s.core c).box x).isEmpty then .hold s else .done s
def execWfi (s : State) : Res := sysWord .wfi [] true noChk noAct runWfi s

/-! ## Contexts (R313) -/

/-- Frames of n pages from a virtual address, or the cause and address of the first that does not translate. -/
def framesOf (s : State) (tid va : Nat) (write : Bool) : Nat → Except (Nat × Nat) (List Nat)
  | 0 => .ok []
  | n + 1 =>
    match translate s tid va write with
    | .error cause => .error (cause, va)
    | .ok pa =>
      match framesOf s tid (va + 0x10000) write n with
      | .error e => .error e
      | .ok fs => .ok (pa :: fs)

/-- Pages of a slot (R309). -/
def slotPages : Nat := 33

/-- The slot's address is a multiple of 64 KiB (R313): its low bits are not used. -/
def slotVa (w : QWord) : Nat := (op0 w).toNat / 0x10000 * 0x10000

def ctxsaveChk : State → Nat → Ctx → QWord → Chk := fun s c x w =>
  match framesOf s x.tenant (slotVa w) true slotPages with
  | .error e => .trap e.1 (BitVec.ofNat 64 e.2)
  | .ok fs => if x.quiet then .ok { w with frames := fs, units := liveUnits s c x } else .stall .other

def runCtxsave : RunFn := fun s c w =>
  match s.ctx c with
  | none => .done s
  | some x =>
    let a := w.frames.getD 0 0
    let y := x.interrupted (s.core c).accInt
    let s1 := writeImage s c y (fun n => (csrRead s c x n).toNat) x.epc w.units a
    let s2 := saveUnits s1 c w.frames w.units
    .done { s2 with images := Map.ins s2.images a y }
def execCtxsave (a : BitVec 6) (s : State) : Res :=
  sysWord (.ctxsave a) [a.toNat] true ctxsaveChk noAct runCtxsave s

/-- What is known of the image at an address beside its bytes. -/
def imageBase (s : State) (x : Ctx) (a : Nat) : Ctx :=
  match Map.at? s.images a with
  | some y => y
  | none => { tenant := x.tenant }

def ctxloadChk : State → Nat → Ctx → QWord → Chk := fun s c x w =>
  match framesOf s x.tenant (slotVa w) false slotPages with
  | .error e => .trap e.1 (BitVec.ofNat 64 e.2)
  | .ok fs =>
    if !x.quiet then .stall .other
    else
      let a := fs.getD 0 0
      if (imageBase s x a).tenant ≠ x.tenant || s.readN (a + 0x18) 8 ≠ x.lnr then .trap cBOUNDS (BitVec.ofNat 64 (slotVa w))
      else .ok { w with frames := fs, units := liveUnits s c x }

def runCtxload : RunFn := fun s c w =>
  match s.ctx c with
  | none => .done s
  | some x =>
    let a := w.frames.getD 0 0
    let y := readImage s (imageBase s x a) a
    let z := (x.replace y (imagePc s a) (imagePc s (a + 0x10))).prune s c
    let s1 := (s.setCtx c z).modCore c (fun k => { k.setBox z (imageMbox s a) with accInt := y.kinds })
    .done ((loadUnits (touchUnits s1 c x.me (spilledIn s a)) c w.frames (spilledIn s a)).modCore c (fun k => k.clearDead x.me z.dead))
def execCtxload (a : BitVec 6) (s : State) : Res :=
  sysWord (.ctxload a) [a.toNat] true ctxloadChk noAct runCtxload s

/-- Every unit another context holds is spilled (R313). -/
def spillOthers (s : State) (c : Nat) (me : Owner) : List Nat → State
  | [] => s
  | u :: us => spillOthers (match Map.at? (s.core c).owner u with | some o => if o = me then s else spillUnit s c u | none => s) c me us

def runSpflush : RunFn := fun s c _ =>
  match s.ctx c with
  | none => .done s
  | some x => .done (spillOthers s c x.me (List.range 176))
def execSpflush (s : State) : Res := sysWord .spflush [] true noChk noAct runSpflush s

/-! ## The step cache and the snapshot (R281, R314, R315) -/

/-- Invalidates at all 128 slices; completes when every one has acknowledged. -/
def runSacinv : RunFn := fun s c w =>
  match s.ctx c with
  | none => .done s
  | some x =>
    let leaves := (List.range Config.numSlices).map Leaf.slice
    let f := s.fresh leaves.length
    let r := openCmd f.1 c x w 0x30 0 0 f.2
    .shut (r.1.sendAll ((numbered s.nextId leaves).map (fun p => pkt x c r.2 p.1 [p.2] .sacInv)))
def execSacinv (s : State) : Res :=
  sysWord .sacinv [] false (fun _ _ _ w => .ok { w with gate := .sacDone }) noAct runSacinv s

/-- Bytes of the record of R315. -/
def snapBytes : Nat := 320

def snapVa (w : QWord) : Nat := (op0 w).toNat / 64 * 64

/-- Translated at capture (R306); the second page where the record reaches into one. -/
def cntsnapChk : State → Nat → Ctx → QWord → Chk := fun s _ x w =>
  let a := snapVa w
  let b := (a + snapBytes - 1) / 0x10000 * 0x10000
  match translate s x.tenant a true with
  | .error cause => .trap cause (BitVec.ofNat 64 a)
  | .ok pa =>
    if b ≤ a then .ok { w with pa := pa, frames := [0], foot := [⟨true, pa, pa + snapBytes⟩] }
    else
      match translate s x.tenant b true with
      | .error cause => .trap cause (BitVec.ofNat 64 b)
      | .ok pb => .ok { w with pa := pa, frames := [pb + 1], foot := [⟨true, pa, pa + (b - a)⟩, ⟨true, pb, pb + (a + snapBytes - b)⟩] }

def runCntsnap : RunFn := fun s c w =>
  match s.ctx c with
  | none => .done s
  | some x => .going (sendCmd s c x w 0x31 (.cntsnap w.pa (w.frames.getD 0 0)) .io)
def execCntsnap (a : BitVec 6) (s : State) : Res :=
  issue (.cntsnap a) { eng := .s, srcs := [a.toNat], mem := true, sys := true } cntsnapChk noAct runCntsnap s

/-! ## Barrier configuration (R314) -/

/-- A phase of the tag is open: an arrival has been made that has not completed. -/
def Bar.busy (b : Bar) : Bool := b.arr.any (fun p => decide (b.done < p.2))

def barcfgChk (t : Nat) : State → Nat → Ctx → QWord → Chk := fun s c x w =>
  loadRecord s c x w (op0 w).toNat (fun s1 w1 =>
    let r := recordAt s1 c w1.pa
    let v := s.tenant x.tenant
    let inside := (List.range Config.numCores).all (fun k => !r.getLsbD k || decide ((s.core k).part = some x.tenant))
    if !inside || (v.bar t).busy || (t = 0 && v.b0gang.isSome) then .trap cBOUNDS (w.raw.setWidth 64)
    else .ok { w1 with desc := r })

def runBarcfg (t : BitVec 3) : RunFn := fun s c w =>
  match s.ctx c with
  | none => .done s
  | some x =>
    let b : Bar := { parts := w.desc.setWidth 384, conf := w.desc.getLsbD 384 }
    .done (s.modTenant x.tenant (fun v => { v with bars := Map.ins v.bars t.toNat b }))
def execBarcfg (a : BitVec 6) (t : BitVec 3) (s : State) : Res :=
  issue (.barcfg a t) { eng := .s, srcs := [a.toNat], priv := true, afterS := true, sys := true } (barcfgChk t.toNat)
    touchRecord (runBarcfg t) s

end Sys2Proof.Machine
end

