-- ==== Sys2Proof/Machine/Start.lean ====
section
/-! DEFINITION. From a captured word to its run: which effect WORD_START gives each word (04_encoding R33). -/

namespace Sys2Proof.Machine

/-- The effect of a word when it starts. An event is no word, and has none. -/
def runWord : Instr → RunFn
  | .nop => runNop
  | .add _ _ _ => runAdd
  | .sub _ _ _ => runSub
  | .mul _ _ _ => runMul
  | .mulh _ _ _ => runMulh
  | .mulhu _ _ _ => runMulhu
  | .div _ _ _ => runDiv
  | .divu _ _ _ => runDivu
  | .rem _ _ _ => runRem
  | .remu _ _ _ => runRemu
  | .and _ _ _ => runAnd
  | .or _ _ _ => runOr
  | .xor _ _ _ => runXor
  | .andn _ _ _ => runAndn
  | .shl _ _ _ => runShl
  | .shr _ _ _ => runShr
  | .sra _ _ _ => runSra
  | .rotl _ _ _ => runRotl
  | .min _ _ _ => runMin
  | .max _ _ _ => runMax
  | .minu _ _ _ => runMinu
  | .maxu _ _ _ => runMaxu
  | .clz _ _ => runClz
  | .ctz _ _ => runCtz
  | .popc _ _ => runPopc
  | .addi _ _ _ => runAddi
  | .andi _ _ _ => runAndi
  | .ori _ _ _ => runOri
  | .xori _ _ _ => runXori
  | .shli _ _ _ => runShli
  | .shri _ _ _ => runShri
  | .srai _ _ _ => runSrai
  | .muli _ _ _ => runMuli
  | .li _ _ => runLi
  | .fadd _ _ _ => runFadd
  | .fsub _ _ _ => runFsub
  | .fmul _ _ _ => runFmul
  | .fdiv _ _ _ => runFdiv
  | .fmin _ _ _ => runFmin
  | .fmax _ _ _ => runFmax
  | .fabs _ _ => runFabs
  | .fneg _ _ => runFneg
  | .fsqrt _ _ => runFsqrt
  | .fcvtFw _ _ => runFcvtFw
  | .fcvtWf _ _ => runFcvtWf
  | .cmp p _ _ c => runCmp p c
  | .pand d a b => runPand d a b
  | .por d a b => runPor d a b
  | .pxor d a b => runPxor d a b
  | .pandn d a b => runPandn d a b
  | .csel _ _ _ _ => runCsel
  | .pget _ _ _ => runPget
  | .pput _ p h => runPput p h
  | .tshape _ _ => runTshape
  | .rdshape _ _ => runRdshape
  | .csrr _ _ => runCsrr
  | .csrw _ _ => runCsrw
  | .lds _ _ _ => runLds
  | .sts _ _ _ => runSts
  | .ldg _ _ _ => runLdg
  | .stg _ _ _ => runStg
  | .br _ _ _ => runBr
  | .jmp _ => runJmp
  | .call _ => runCall
  | .jr _ => runJr
  | .loopT _ _ _ => runLoopT
  | .loopRp _ _ _ => runLoopRp
  | .endw => runEndw
  | .vadd d a b w => runVadd d a b w
  | .vsub d a b w => runVsub d a b w
  | .vmul d a b w => runVmul d a b w
  | .vdiv d a b w => runVdiv d a b w
  | .vmin d a b w => runVmin d a b w
  | .vmax d a b w => runVmax d a b w
  | .vand d a b w => runVand d a b w
  | .vor d a b w => runVor d a b w
  | .vxor d a b w => runVxor d a b w
  | .vshl d a b w => runVshl d a b w
  | .vshr d a b w => runVshr d a b w
  | .vsra d a b w => runVsra d a b w
  | .vabs d a => runVabs d a
  | .vneg d a => runVneg d a
  | .vrcp d a => runVrcp d a
  | .vrsqrt d a => runVrsqrt d a
  | .vsqrt d a => runVsqrt d a
  | .vexp2 d a => runVexp2 d a
  | .vlog2 d a => runVlog2 d a
  | .vtanh d a => runVtanh d a
  | .vsigm d a => runVsigm d a
  | .vsilu d a => runVsilu d a
  | .vfloor d a => runVfloor d a
  | .vrnd d a => runVrnd d a
  | .vmov d a => runVmov d a
  | .vnot d a => runVnot d a
  | .vcmp d a b c => runVcmp d a b c
  | .vcvt d a => runVcvt d a
  | .vredr d a f => runVredr d a f
  | .vredc d a f => runVredc d a f
  | .vtrn d a => runVtrn d a
  | .vbcr d a => runVbcr d a
  | .vbcc d a => runVbcc d a
  | .vqnt d a b => runVqnt d a b
  | .vdqnt d a b => runVdqnt d a b
  | .vvqd d a b => runVvqd d a b
  | .vcomp d a b k => runVcomp d a b k
  | .vscan d a k => runVscan d a k
  | .vrmg d _ t2 => runVrmg d t2
  | .vfill d _ => runVfill d
  | .vget t _ => runVget t
  | .vput t _ _ => runVput t
  | .tld d _ _ => runTld d
  | .tst d _ _ => runTst d
  | .tldX d _ _ => runTldX d
  | .tkill d => runTkill d
  | .vcbld t => runVcbld t
  | .vrowm t => runVrowm t
  | .vfma d a b c => runVfma d a b c
  | .vfms d a b c => runVfms d a b c
  | .vsel d a b c => runVsel d a b c
  | .vclamp d a b c => runVclamp d a b c
  | .mma c a b x f => runMma c a b x f
  | .mmaSp c a b x f => runMmaSp c a b x f
  | .mmaG c a b x f => runMmaG c a b x f
  | .mrd c d k t => runMrd c d k t
  | .mwr c d k t => runMwr c d k t
  | .mclr c => runMclr c
  | .mscl _ _ => runMscl
  | .msclOff => runMsclOff
  | .xget _ _ _ _ _ => runXget
  | .xput _ _ _ _ _ => runXput
  | .xsend _ _ _ _ _ => runXsend
  | .xgat _ _ _ _ _ => runXgat
  | .xsca _ _ _ _ o _ => runXsca o
  | .xacc _ _ _ _ o _ => runXacc o
  | .xat o _ _ _ z => runXat o z
  | .xdesc _ _ => runXdesc
  | .xmap k _ => runXmap k
  | .xswap k _ => runXswap k
  | .xunmap k => runXunmap k
  | .xmw _ _ => runXmw
  | .xrpl _ _ _ => runXrpl
  | .xrpf _ _ _ => runXrpf
  | .xred _ _ => runXred
  | .xgmap _ => runXgmap
  | .xgunmap _ => runXgunmap
  | .hnew _ => runHnew
  | .hfork _ _ => runHfork
  | .hjoin _ _ _ _ => runHjoin
  | .hdrain _ _ => runHdrain
  | .hpass _ p => runHpass p
  | .hrecv _ _ => runHrecv
  | .hfree _ => runHfree
  | .ringInit g _ => runRingInit g
  | .ringWfree g => runRingWfree g
  | .ringPub g => runRingPub g
  | .ringWfill g => runRingWfill g
  | .ringRel g => runRingRel g
  | .ringStat g => runRingStat g
  | .barArr t => runBarArr t
  | .barWait t => runBarWait t
  | .flagAdd _ _ => runFlagAdd
  | .flagSet _ _ _ => runFlagSet
  | .flagWait _ _ => runFlagWait
  | .ktopc d a b _ => runKtopc d a b
  | .ktopr d a b _ => runKtopr d a b
  | .kmerge d a b _ => runKmerge d a b
  | .ksort d a b => runKsort d a b
  | .khist d a _ => runKhist d a
  | .kmark d a _ => runKmark d a
  | .trap _ => runTrap
  | .ebrk _ => runEbrk
  | .klaunch _ q => runKlaunch q
  | .eret => runEret
  | .tinv _ => runTinv
  | .ctxsave _ => runCtxsave
  | .ctxload _ => runCtxload
  | .spflush => runSpflush
  | .sacinv => runSacinv
  | .cntsnap _ => runCntsnap
  | .wfi => runWfi
  | .barcfg _ t => runBarcfg t
  | .wordStart _ _ => runNone
  | .tokenSignal _ _ => runNone
  | .spanEndComplete _ => runNone
  | .beatArrival _ => runNone
  | .blockComplete _ _ => runNone
  | .ackReceive _ => runNone
  | .hdrainComplete _ => runNone
  | .packetEviction _ _ => runNone
  | .packetResend _ => runNone
  | .ackTimeoutResend _ => runNone
  | .rateLimitRelease _ => runNone
  | .sliceBlockRequest _ => runNone
  | .slicePutBeat _ => runNone
  | .sliceAccumulate _ => runNone
  | .sliceAtomic _ => runNone
  | .xatReply _ => runNone
  | .sliceScalarAccess _ => runNone
  | .ldgReply _ => runNone
  | .mapCacheFill _ _ _ => runNone
  | .flagAddApply _ => runNone
  | .flagSetApply _ => runNone
  | .flagWaitRetest _ => runNone
  | .barrierPhaseComplete _ _ => runNone
  | .channelElementArrive _ => runNone
  | .channelCreditReturn _ => runNone
  | .channelPopTimeout _ => runNone
  | .mailboxTicketArrive _ => runNone
  | .ticketConfirm _ => runNone
  | .reductionContribution _ => runNone
  | .reductionTimeout _ => runNone
  | .reductionStatusDeliver _ => runNone
  | .sacCheck _ => runNone
  | .sacFill _ => runNone
  | .sacVerdictDeliver _ => runNone
  | .launchHeadCheck _ _ => runNone
  | .spanHandoff _ => runNone
  | .launchComplete _ _ => runNone
  | .controllerPeriod => runNone
  | .immediateSave _ => runNone
  | .spanResume _ => runNone
  | .unitFirstTouch _ _ => runNone
  | .trapEntry _ => runNone
  | .vfReset _ => runNone
  | .qbellWrite _ _ _ => runNone
  | .qstatClear _ _ => runNone
  | .cqidxHeadWrite _ _ _ => runNone
  | .oboxRead _ => runNone
  | .iboxWrite _ _ _ => runNone
  | .iboxovfClear _ _ _ => runNone
  | .mcgrpWrite _ _ _ _ => runNone
  | .rgselWrite _ _ => runNone
  | .rgcommitWrite _ _ => runNone
  | .spdataStore _ _ => runNone
  | .vfEnable _ => runNone
  | .rateLimitConfig _ _ _ => runNone
  | .sacQuotaWrite _ _ => runNone
  | .registerWrite _ => runNone
  | .msixUnmask _ _ => runNone
  | .hostMemRead _ _ => runNone
  | .hostMemWrite _ _ => runNone
  | .falardFlitReplay _ => runNone
  | .falardRetrain _ => runNone
  | .falardPortFail _ => runNone
  | .deviceReset => runNone
  | .firmwareLoadDone _ => runNone
  | .hbmTrainingDone _ => runNone
  | .falardTrainingDone _ => runNone
  | .powerLimitStep _ => runNone
  | .thermalThrottle _ _ => runNone
  | .thermalShutdown _ _ => runNone
  | .counterFlush => runNone
  | .lifetimeLogUpdate _ _ => runNone
  | .orderlyPowerOff => runNone
  | .abruptPowerLoss => runNone
  | .unitSpillComplete _ _ => runNone
  | .globalMapInstallArrive _ => runNone
  | .sacInvalidationArrive _ => runNone
  | .cntsnapRequestArrive _ => runNone
  | .hostRecallResponse _ => runNone
  | .falardRetrainDone _ _ => runNone
  | .supplyDroop _ _ => runNone

end Sys2Proof.Machine
end

