-- ==== Sys2Proof/Machine/Engines.lean ====
section
/-! DEFINITION. The steps of a core's engines (95_what_each_step_holds): starting a word, signalling its tokens, taking a
raised trap, retrying a word that waits, touching and spilling a unit. A step whose condition does not hold changes
nothing. -/

namespace Sys2Proof.Machine

/-- Words start and are retried: the core holds a context, has power, and does not quiesce (R311). -/
def State.running (s : State) (c : Nat) : Option Ctx :=
  match s.ctx c with
  | some x => if s.powered && (s.core c).quiesce.isNone then some x else none
  | none => none

/-- The predecessors a word waits for, at the scopes they are waited for at (R199, R206, R220). -/
def QWord.waitsFor (x : Ctx) (w : QWord) : List Pre :=
  match w.seqr with
  | none => []
  | some i => ⟨i, w.opn, w.rscope, (x.seqr i).base⟩ :: w.pre.map (fun p => { p with scope := Max.max p.scope w.rscope })

/-- Retry the word of the queue that waits. -/
def State.retry (s : State) (c : Nat) (p : QWord → Bool) : State :=
  match s.running c with
  | none => s
  | some x =>
    match x.fly.find? (fun w => w.waiting && p w) with
    | some w => resumeWord (runWord w.instr) s c w
    | none => s

/-- A started word of a queue that is between two of its row accesses; it goes on while the core quiesces, too. -/
def State.midWord (s : State) (c : Nat) (e : Engine) : Option QWord :=
  if s.powered then (s.ctx c).bind (fun x => x.fly.find? (fun w => w.mid.isSome && w.eng == e)) else none

/-- WORD_START (R33, R35): a word between two row accesses makes the next; the queue's waiting word is retried; else its head
word starts if it can. A head word that waits for a system-scope promise has the host's copies recalled (R319). -/
def execWordStart (c : Nat) (e : Engine) (s : State) : Res :=
  .next (match s.midWord c e, s.running c with
    | some w, _ => resumeWord (runWord w.instr) s c w
    | none, none => s
    | none, some x =>
      match x.fly.find? (fun w => w.waiting && w.eng == e) with
      | some w => resumeWord (runWord w.instr) s c w
      | none =>
        match x.head e with
        | none => s
        | some w =>
          if s.canStart c x w then startWord (runWord w.instr) s c w
          else if s.orderOk c x w then s
          else s.recall x (w.waitsFor x))

/-- TOKEN_SIGNAL (R35). -/
def execTokenSignal (c : Nat) (e : Engine) (s : State) : Res :=
  .next (match s.ctx c with
    | none => s
    | some x =>
      match x.signaller e with
      | none => s
      | some w => s.setCtx c { x.pushTokens w with fly := x.fly.filter (fun v => v.seq ≠ w.seq) })

/-- HDRAIN_COMPLETE (R221). -/
def execHdrainComplete (c : Nat) (s : State) : Res :=
  .next (s.retry c (fun w => match w.instr with | .hdrain _ _ => true | _ => false))

/-- FLAG_WAIT_RETEST (R232). -/
def execFlagWaitRetest (c : Nat) (s : State) : Res :=
  .next (s.retry c (fun w => match w.instr with | .flagWait _ _ => true | _ => false))

/-- TRAP_ENTRY (R298): a raised trap is taken once it may be entered. -/
def execTrapEntry (c : Nat) (s : State) : Res :=
  .next (match s.running c with
    | none => s
    | some x =>
      match x.pend with
      | some p => if s.mayEnter c x p then s.enterTrap c p else s
      | none => s)

/-- Engine of a captured word by its bits 31:29 (R30). -/
def engineOf (w : Word) : Engine :=
  match bits w.toNat 29 3 with
  | 1 => .v
  | 2 => .m
  | 3 => .x
  | 4 => .y
  | 5 => .k
  | _ => .s

/-- The element a channel pop waits for has not arrived. -/
def Ctx.awaited (x : Ctx) (port idx : Nat) : Bool := decide ((Map.get {} x.chans (port - 48)).elems.length ≤ idx)

/-- CHANNEL_POP_TIMEOUT (R32 step 4, R235): a channel pop has stalled longer than `qtmo`, and what it waits for is still not
there. After a resumption (R311) it waits until the group has been captured again. -/
def execChannelPopTimeout (c : Nat) (s : State) : Res :=
  .next (match s.running c with
    | none => s
    | some x =>
      match x.stall with
      | .chan port idx since =>
        if x.awaited port idx && decide (x.grp ≠ {}) && x.qtmo ≠ 0 && x.qtmo < s.cycle - since && !s.captureShut c x
        then captureTrap s c x (engineOf x.grp.raw) 7 (BitVec.ofNat 64 (s.cycle - since)) else s
      | _ => s)

/-- MAP_CACHE_FILL (R186): the core takes the map from slice 0. -/
def execMapCacheFill (c t tag : Nat) (s : State) : Res :=
  .next (match s.gmapAt t tag 0 with
    | none => s
    | some g => s.modCore c (fun k => { k with gcache := Map.ins k.gcache t (Map.ins (Map.get [] k.gcache t) tag g) }))

/-- UNIT_FIRST_TOUCH (R312): the resident context touches a unit. -/
def execUnitFirstTouch (c u : Nat) (s : State) : Res :=
  .next (match s.ctx c with
    | none => s
    | some x => if u < 176 then touchUnit s c x.me u else s)

/-- UNIT_SPILL_COMPLETE (R312): a unit that is spilling has been written to its owner's slot. -/
def execUnitSpillComplete (c u : Nat) (s : State) : Res :=
  .next (if u ∈ (s.core c).spilling then spillUnit s c u else s)

end Sys2Proof.Machine
end

