-- ==== Sys2Proof/Machine/Paths.lean ====
section
/-! DEFINITION. Falard ports and the paths of endpoint entries (19_fabric R265, R266; 24_device_in_system R330; R167, R182,
R212): which packets can cross, and what a failed path does to a packet, a ticket and an open block. -/

namespace Sys2Proof.Machine

def State.port (s : State) (p : Nat) : Port := Map.get {} s.ports p

def State.setPort (s : State) (p : Nat) (v : Port) : State := { s with ports := Map.ins s.ports p v }

/-- Ports an endpoint entry allows (R265). -/
def entryPorts (e : Dword) : List Nat := (List.range 16).filter (fun k => bit e.toNat (24 + k))

/-- A valid entry has no port that is up: the path to its device has failed (R266, R330). -/
def State.pathFailed (s : State) (e : Dword) : Bool := e.getLsbD 0 && (entryPorts e).all (fun p => !(s.port p).up)

/-- A tenant's entry for a device. -/
def State.endpoint (s : State) (t dev : Nat) : Dword := Map.get 0 (s.tenant t).endpoints dev

/-- Tenants and devices whose path has failed. -/
def State.failedPaths (s : State) : List (Nat × Nat) :=
  s.tenants.flatMap (fun t => (t.2.endpoints.filter (fun e => s.pathFailed e.2)).map (fun e => (t.1, e.1)))

/-- Flits after which a port's failures are counted anew (R330). -/
def flitRun : Nat := 1000000

/-- A flit crosses a port. -/
def Port.flit (v : Port) : Port := if flitRun ≤ v.flits + 1 then { v with flits := 0, fails := 0 } else { v with flits := v.flits + 1 }

/-- A packet crosses to or from a device over one of its entry's ports that is up; a packet takes one flit.
DESIGN CHOICE: notes/assumptions/67. -/
def State.cross (s : State) (t dev seq : Nat) : State :=
  let up := (entryPorts (s.endpoint t dev)).filter (fun p => (s.port p).up)
  match up[seq % up.length]? with
  | some p => s.setPort p (s.port p).flit
  | none => s

/-- The device a packet goes to over Falard. -/
def Packet.device (p : Packet) : Option Nat :=
  match p.dst with
  | .remote d _ => some d
  | _ => none

/-- The row a beat belongs to, with its block. -/
def PKind.rowKey : PKind → Option (Nat × Nat × Nat × Nat)
  | .beat h b | .put h b | .acc h b _ | .stream _ h b => some (h.blk, b.row, b.plane, b.batch)
  | _ => none

/-- The packet has been applied where it went; what is on its way is a copy (R211). -/
def State.delivered (s : State) (p : Packet) : Bool := p.kind.kept p.cls && (Map.at? s.applied p.seq).isSome

/-- Rows of a command of which no beat is still to be applied (R167): a copy of one that has been is none. -/
def State.rowsDelivered (s : State) (cmd : Nat) : Nat :=
  match Map.at? s.cmds cmd with
  | some m => m.rows - ((s.net.filterMap (fun p => if p.2.cmd = cmd && !s.delivered p.2 then p.2.kind.rowKey else none)).dedup).length
  | none => 0

/-- A packet over a failed path: it is lost, and its command's handle takes LINK (R182, R266), unless it is a copy of one that
has arrived. -/
def failPacket (s : State) (id : Nat) (p : Packet) : State :=
  let s1 := { s with net := Map.del s.net id, sent := Map.del s.sent p.seq
                     cmds := Map.modify s.cmds p.cmd (fun m => { m with dropped := m.dropped + p.kind.isBeat }) }
  if s.delivered p then s.unsend id
  else if p.cmd = 0 then s1 else s1.settle p.cmd p.acks { cause := 8, tval := BitVec.ofNat 64 (s.rowsDelivered p.cmd) }

/-- Unconfirmed tickets of a context that a predicate picks are taken as confirmed, and the handles that wait for them take
LINK with tval 0 (R212): every sequencer that lists the ticket, those of handles that a `hfork` or `hjoin` has given it to
included.
DEDUCED: notes/assumptions/33. -/
def Ctx.loseTickets (x : Ctx) (sel : Nat → Ticket → Bool) : Ctx :=
  let lost := (x.tickets.filter (fun t => !t.2.confirmed && sel t.1 t.2)).map (fun t => t.1)
  { x with
    tickets := x.tickets.map (fun t => if t.1 ∈ lost then (t.1, { t.2 with confirmed := true }) else t)
    seqrs := x.seqrs.map (fun q =>
      if q.2.tix.any (fun i => decide (i ∈ lost)) then (q.1, { q.2 with status := mergeStatus q.2.status 8 0 }) else q) }

/-- A packet stands in the fabric that no core and no slice of this device sent. -/
def State.inject (s : State) (p : Packet) : State :=
  { s with net := Map.ins s.net s.nextId { p with st := .flying, sentAt := s.cycle }, nextId := s.nextId + 1 }

/-- Numbers that another device gives: they stand clear of this device's own (R211: a sequence number belongs to its source). -/
def foreign (d c n : Nat) : Nat := 2 ^ 64 * (1 + 512 * d + c) + n

/-- A packet as another device's core sends it: its block, its acknowledgements and its command carry that core's numbers. -/
def Packet.abroad (p : Packet) (d c : Nat) : Packet :=
  let own := fun (h : Hdr) => { h with tenant := p.tenant, blk := foreign d c h.blk }
  { p with
    seq := foreign d c p.seq, cmd := foreign d c p.cmd, acks := p.acks.map (foreign d c)
    kind := match p.kind with
      | .beat h b => .beat (own h) b
      | .close h n l => .close (own h) n l
      | .put h b => .put (own h) b
      | .acc h b op => .acc (own h) b op
      | k => k }

/-- Packets that cross from another device (R174, R212, R222, R230). -/
def PKind.crosses : PKind → Bool
  | .beat .. | .close .. | .put .. | .acc .. | .flagAdd .. | .flagSet .. | .ticket .. | .confirmReq .. => true
  | _ => false

/-- The blocks that another device's slices send here for its own `xget` or `xgat` come in the response class, any other
packet of it as a request (R174, R258). -/
def Packet.comes (p : Packet) : Bool :=
  p.kind.crosses && (decide (p.cls ≤ 3) || (decide (p.cls = 4) && (match p.kind with | .beat .. | .close .. => true | _ => false)))

/-- A packet comes in: from another device over a valid entry with a port that is up (R265), or a request of the host, in class 2
(R258). Nothing else does.
DESIGN CHOICE: notes/assumptions/97. -/
def State.bringIn (s : State) (p : Packet) : State :=
  let home := match p.dst with | .core c => decide (c < Config.numCores) | .slice k => decide (k < Config.numSlices) | _ => false
  if !s.powered || !home then s
  else match p.src, p.kind with
    | .remote d c, _ =>
      if (s.endpoint p.tenant d).getLsbD 0 && !s.pathFailed (s.endpoint p.tenant d) && p.comes
      then (s.cross p.tenant d p.seq).inject (p.abroad d c) else s
    | .io, .hostRead .. | .io, .hostWrite .. => s.inject { p with seq := s.nextId, cls := 2, cmd := 0, acks := [], twin := false }
    | _, _ => s

/-- CLOSE_MARKER_SYNTHESIS (R167): a marker with the link bit for each block from a failed device that is still open at a
core; it names the beats already received. -/
def State.closeMarkers (s : State) (fs : List (Nat × Nat)) : List Packet :=
  s.cores.flatMap (fun k => k.2.blks.filterMap (fun b =>
    match b.2.src with
    | .remote d _ => if (b.2.hdr.tenant, d) ∈ fs && !b.2.whole then
        some { seq := s.nextId, kind := .close b.2.hdr b.2.beats true, src := b.2.src, dst := .core k.1, tenant := b.2.hdr.tenant, cls := 5, cmd := b.2.cmd }
      else none
    | _ => none))

/-- Every path without a port that is up has failed (R266): packets on their way over it are lost, open blocks that came
over it are closed, and tickets that await confirmation over it take LINK. -/
def State.failPaths (s : State) : State :=
  let fs := s.failedPaths
  let lost := fun (p : Packet) => match p.device with | some d => decide ((p.tenant, d) ∈ fs) | none => false
  let s1 := (s.net.filter (fun p => lost p.2)).foldl (fun q p => failPacket q p.1 p.2) s
  let s2 := (s1.closeMarkers fs).foldl (fun q p => q.inject { p with seq := q.nextId }) s1
  let fail := fun (x : Ctx) => x.loseTickets (fun _ t => decide ((x.tenant, t.device) ∈ fs))
  { s2 with cores := s2.cores.map (fun p => (p.1, { p.2 with res := p.2.res.map fail, sus := p.2.sus.map fail })) }

end Sys2Proof.Machine
end

