-- ==== Sys2Proof/Machine/Arrivals.lean ====
section
/-! DEFINITION. Packets arriving and leaving (95_what_each_step_holds): beats and close markers at cores, requests at
slices, replies and acknowledgements, flags, channels, tickets, evictions and resends. An event whose packet is not on
its way changes nothing. -/

namespace Sys2Proof.Machine

/-! ## Common -/

/-- A packet on its way. -/
def State.flying (s : State) (id : Nat) : Option Packet := (Map.at? s.net id).filter (fun p => decide (p.st = PSt.flying))

/-- Replace a packet that stays in the fabric. -/
def State.setPkt (s : State) (id : Nat) (p : Packet) : State := { s with net := Map.ins s.net id p }

/-- A first arrival is refused (R159). -/
def State.refuse (s : State) (id : Nat) (p : Packet) : State := s.setPkt id { p with st := .refused s.cycle }

/-- The reply recorded for a packet already applied (R211): for one of a block, the acknowledgement of the whole block. -/
def State.replyFor (s : State) (p : Packet) : Option PKind :=
  match p.kind with
  | .beat h _ | .close h _ _ | .put h _ | .acc h _ _ | .stream _ h _ => Map.at? s.applied h.blk
  | .sacIn _ blk _ => Map.at? s.applied blk
  | _ => Map.at? s.applied p.seq

/-- A reduction's status travels in the combine class, any other reply in the response class (R258). -/
def PKind.replyClass : PKind → Nat
  | .redStatus .. => 5
  | _ => 4

/-- What has come from another device, and has been applied or dropped, is acknowledged to it (R211). -/
def State.ackRemote (s : State) (p : Packet) : State :=
  match p.src with
  | .remote _ _ => s.send { seq := 0, kind := .ack p.seq [] {}, src := p.dst, dst := p.src, tenant := p.tenant, cls := 4 }
  | _ => s

/-- A duplicate is acknowledged again with the recorded reply, and not applied (R211). -/
def State.answerDup (s : State) (id : Nat) (p : Packet) : State :=
  let s1 := s.unsend id
  match s.replyFor p with
  | some r => if p.cmd = 0 then s1.ackRemote p
      else s1.send { seq := 0, kind := r, src := p.dst, dst := p.src, tenant := p.tenant, cls := r.replyClass, cmd := p.cmd }
  | none => s1

/-- An arrival: a duplicate is answered, any other packet is handled. -/
def onPacket (id : Nat) (s : State) (f : Packet → State) : Res :=
  .next (match s.flying id with
    | none => s
    | some p => if p.kind.kept p.cls && (Map.at? s.applied p.seq).isSome then s.answerDup id p else f p)

/-- Take the packet, record its reply and send it (R211). -/
def State.answer (s : State) (id : Nat) (p : Packet) (reply : PKind) : State :=
  ((s.unsend id).noteApplied p reply).send { seq := 0, kind := reply, src := p.dst, dst := p.src, tenant := p.tenant, cls := 4, cmd := p.cmd }

/-- Acknowledge a packet with what it reports. -/
def State.ackPkt (s : State) (id : Nat) (p : Packet) (info : AckInfo) : State := s.answer id p (.ack p.seq p.acks info)

/-- A packet that needs no answer has been applied: its source's copy goes. -/
def State.consume (s : State) (id : Nat) (p : Packet) : State :=
  let s1 := (s.unsend id).noteApplied p (.ack p.seq [] {})
  { s1 with sent := Map.del s1.sent p.seq }

def coreOf : Leaf → Option Nat
  | .core c => some c
  | _ => none

def sliceOf : Leaf → Option Nat
  | .slice c => some c
  | _ => none

/-- A beat dropped for want of a map or a context. -/
def mapMiss : AckInfo := { cause := 0xA, tval := 1 }

/-! ## Landing (R159, R162) -/

/-- A beat of a block is applied. -/
def landOrDrop (s : State) (c : Nat) (b : OpenBlk) (h : Hdr) (t : Beat) : State × OpenBlk :=
  match b.bound with
  | some (_, m, uid, slot) => landBeat s c b m uid slot h t
  | none => dropBeat s c b

/-- A `ring.wfree` of the resident strand on ring g waits for the slot at the fill pointer, or is about to start: it takes
that slot before a block whose first beat reaches the ring in the same cycle (R224). -/
def State.wfreeReady (s : State) (c uid g : Nat) : Bool :=
  let is := fun (w : QWord) => match w.instr with | .ringWfree r => decide (r.toNat = g) | _ => false
  match s.running c with
  | none => false
  | some x => decide (x.uid = uid) && decide ((x.ring g).slotSt (x.ring g).ptr = .free) &&
      (x.fly.any (fun w => w.waiting && is w) || (x.head .y).any (fun w => is w && s.canStart c x w))

/-- The ring whose slot a block took at its first arrival, with the context that owns it. -/
def OpenBlk.ringOf (b : OpenBlk) : Option (Nat × Nat) :=
  match b.bound with
  | some (_, m, uid, _) => if mKind m = 3 then some (uid, mRing m) else none
  | none => none

/-- The open block a packet belongs to, or what its first arrival makes of it; none where it is refused (R159): the block
itself, or the first beat of one that its close marker opened, while 64 blocks are open. -/
def State.blockFor (s : State) (c : Nat) (p : Packet) (h : Hdr) (row : Nat) (cols : List Nat) : Option (State × OpenBlk) :=
  match Map.at? (s.core c).blks h.blk with
  | some b =>
    if !cols.isEmpty && b.bound.isSome && b.beats = 0 && decide (Config.openBlocks ≤ (s.core c).openCount) then none else some (s, b)
  | none => bindBlock s c h p.cmd p.src row cols

/-- The block has its close marker, by which it completes: one that a failed link synthesised stands (R167). -/
def OpenBlk.closed (b : OpenBlk) (n : Nat) (link : Bool) : OpenBlk := if b.link then b else { b with need := some n, link := link }

/-- BEAT_ARRIVAL at a core: bind at the first arrival, refuse, land, drop, or note the close marker. What arrives for a block that
has completed is a duplicate, or comes after the marker that a failed link synthesised: it lands nowhere (R167). -/
def arriveAtCore (s : State) (id : Nat) (p : Packet) (c : Nat) : State :=
  let go := fun (h : Hdr) (row : Nat) (cols : List Nat) (f : State → OpenBlk → State × OpenBlk) =>
    if (Map.at? s.applied h.blk).isSome then s.answerDup id p
    else
      match s.blockFor c p h row cols with
      | none => s.refuse id p
      | some (s1, b) =>
        if (Map.at? (s.core c).blks h.blk).isNone && b.ringOf.any (fun g => s.wfreeReady c g.1 g.2) then s
        else
          let r := f ((s1.unsend id).noteApplied p (.ack p.seq [] {})) b
          r.1.setBlk c h.blk r.2
  match p.kind with
  | .beat h t => go h t.row ((beatCells h t).map (fun e => e.1)) (fun s1 b => landOrDrop s1 c b h t)
  | .close h n link => go h 0 [] (fun s1 b => (s1, b.closed n link))
  | _ => s

/-! ## Blocks at slices (R158, R170, R181, R275, R277) -/

def State.slcBlk (s : State) (blk : Nat) : SliceBlk := Map.get {} s.slcBlks blk

def State.setSlcBlk (s : State) (blk : Nat) (b : SliceBlk) : State := { s with slcBlks := Map.ins s.slcBlks blk b }

def State.dropSlcBlk (s : State) (blk : Nat) : State := { s with slcBlks := Map.del s.slcBlks blk }

/-- A beat of a block has reached its slice, which holds it. -/
def State.holdBeat (s : State) (id : Nat) (p : Packet) (blk : Nat) : State :=
  let s1 := (s.unsend id).noteApplied p (.ack p.seq [] {})
  s1.setSlcBlk blk { s1.slcBlk blk with beats := (s1.slcBlk blk).beats + 1 }

/-- A packet of a check or a fill reaches its home slice: the first is refused while another command holds the key (R279);
the close marker stays until the directory decides. -/
def arriveAtSac (s : State) (id : Nat) (p : Packet) : State :=
  let key := fun (k : Nat) (f : State → State) =>
    let mine := fun (b : Nat × Nat × Nat) => decide (b.1 = p.tenant) && decide (b.2.1 = k)
    if s.sacBusy.any (fun b => mine b && decide (b.2.2 ≠ p.cmd)) then s.refuse id p
    else f { s with sacBusy := if s.sacBusy.any mine then s.sacBusy else (p.tenant, k, p.cmd) :: s.sacBusy }
  match p.kind with
  | .stream (some k) h _ => key k (fun q => q.holdBeat id p h.blk)
  | .stream none h _ => s.holdBeat id p h.blk
  | .sacIn k blk n => key k (fun q =>
      ((q.unsend id).noteApplied p (.ack p.seq [] {})).setSlcBlk blk { q.slcBlk blk with need := some n })
  | .sacCheck k i thr m st age false => key k (fun q => q.setPkt id { p with kind := .sacCheck k i thr m st age true })
  | .sacFill k i o st false => key k (fun q => q.setPkt id { p with kind := .sacFill k i o st true })
  | _ => s

/-- Two reports of one block as one (R182). -/
def AckInfo.merge (a b : AckInfo) : AckInfo :=
  let st : Nat × Dword :=
    if b.cause = 0 then (a.cause, a.tval)
    else if a.cause = 0 || statusRank b.cause < statusRank a.cause then (b.cause, b.tval)
    else if statusRank a.cause = 3 && statusRank b.cause = 3 then (a.cause, a.tval + b.tval)
    else (a.cause, a.tval)
  { cause := st.1, tval := st.2, lines := (a.lines ++ b.lines).dedup, flushes := a.flushes + b.flushes }

/-- A block at a slice is acknowledged once its marker and every beat the marker names are there (R158, R210). -/
def State.closeSlice (s : State) (p : Packet) (blk : Nat) (b : SliceBlk) : State :=
  match b.need with
  | some n =>
    if n ≤ b.beats then
      let ack := PKind.ack blk [blk] b.info
      ({ s.dropSlcBlk blk with applied := Map.ins s.applied blk ack }).send
        { seq := 0, kind := ack, src := p.dst, dst := p.src, tenant := p.tenant, cls := 4, cmd := p.cmd }
    else s.setSlcBlk blk b
  | none => s.setSlcBlk blk b

def State.sliceDrop (s : State) (t n : Nat) : State := s.modTenant t (fun v => { v with dropped := v.dropped + n })

/-- A beat has been applied at its slice, or dropped for want of a map: one dropped block counts once (R171). -/
def State.sliceBeat (s : State) (id : Nat) (p : Packet) (h : Hdr) (info : AckInfo) (drop : Bool) : State :=
  let s1 := (s.unsend id).noteApplied p (.ack p.seq [] {})
  let b := s1.slcBlk h.blk
  (if drop && !b.dropped then s1.sliceDrop p.tenant 1 else s1).closeSlice p h.blk
    { b with beats := b.beats + 1, info := b.info.merge info, dropped := b.dropped || drop }

/-- The close marker of a block at its slice. -/
def arriveClose (s : State) (id : Nat) (p : Packet) : State :=
  match p.kind with
  | .close h n _ =>
    let s1 := (s.unsend id).noteApplied p (.ack p.seq [] {})
    s1.closeSlice p h.blk { s1.slcBlk h.blk with need := some n }
  | _ => arriveAtSac s id p

def execBeatArrival (id : Nat) (s : State) : Res :=
  onPacket id s (fun p =>
    match p.dst with
    | .core c => arriveAtCore s id p c
    | .slice _ => arriveClose s id p
    | _ => s)

/-- BLOCK_COMPLETE (R159). -/
def execBlockComplete (c k : Nat) (s : State) : Res :=
  .next (match Map.at? (s.core c).blks k with
    | none => s
    | some b => if b.whole then completeBlock s c k b else s)

/-! ## Acknowledgements (R182, R210) -/

/-- Acknowledgements of a packet to a remote device: they settle once no other of its packets shares them that has not been
applied there.
DEDUCED: notes/assumptions/32. -/
def remoteApplied (s : State) (id : Nat) (p : Packet) : State :=
  let s1 := (s.unsend id).noteApplied p (.ack p.seq [] {})
  if p.cmd = 0 then s1.consume id p
  else if s1.net.any (fun q => decide (q.2.cmd = p.cmd) && q.2.acks.any (fun a => decide (a ∈ p.acks)) && !s1.delivered q.2) then s1
  else s1.settle p.cmd p.acks {}

/-- ACK_RECEIVE: at a core, an acknowledgement; on a packet bound for another device, that device's acknowledgement, where a
port is up to carry it (R265), and else the loss of the packet (R266). A ticket's debt stays until it is confirmed (R212). -/
def execAckReceive (id : Nat) (s : State) : Res :=
  .next (match s.flying id with
    | none => s
    | some p =>
      match p.kind, p.dst with
      | .ack _ ids info, .core _ => (s.unsend id).settle p.cmd ids info
      | .ack .., _ => s.unsend id
      | .confirmReq .., .remote _ _ => s
      | _, .remote d _ =>
        if s.pathFailed (s.endpoint p.tenant d) then failPacket s id p else remoteApplied (s.cross p.tenant d p.seq) id p
      | _, _ => s)

/-! ## Evictions and resends (R211, R259, R260) -/

/-- The packet that a request of a class evicts from a full buffer (R259): the newest of the lowest class below its own.
The buffer lists its packets oldest first; an id of none that is on its way stands for no packet.
DEDUCED: notes/assumptions/94. -/
def State.victim (s : State) (cls : Nat) : Option Nat :=
  let here := s.crowd.filterMap (fun i => ((s.flying i).filter (fun p => decide (p.cls < cls))).map (fun p => (i, p.cls)))
  ((here.filter (fun a => here.all (fun b => decide (a.2 ≤ b.2)))).map (fun a => a.1)).getLast?

/-- PACKET_EVICTION (R259): a request meets the full buffer of a switch, and the buffered packet the rule names goes; where
the rule names none, the request waits. -/
def execPacketEviction (arriving victim : Nat) (s : State) : Res :=
  .next (match s.flying arriving, s.flying victim with
    | some a, some v =>
      if a.cls ≤ 3 && arriving ∉ s.crowd && decide (s.victim a.cls = some victim) then
        { s.setPkt victim { v with st := .evicted s.cycle, evicts := v.evicts + 1 } with
          crowd := s.crowd.filter (fun i => i ≠ victim) ++ [arriving] }
      else s
    | _, _ => s)

def State.noteResend (s : State) (p : Packet) : State :=
  match p.src with
  | .core c => s.count c evRETX 1
  | _ => s

/-- PACKET_RESEND (R259): no sooner than 64 cycles after the notice or the refusal; a packet evicted three times goes one
class higher; a refusal is not counted and raises no class.
DEDUCED: notes/assumptions/36. -/
def execPacketResend (id : Nat) (s : State) : Res :=
  .next (match Map.at? s.net id with
    | none => s
    | some p =>
      match p.st with
      | .evicted n =>
        if n + 64 ≤ s.cycle then
          (s.setPkt id { p with st := .flying, cls := if p.evicts % 3 = 0 then Min.min 3 (p.cls + 1) else p.cls }).noteResend p
        else s
      | .refused n => if n + 64 ≤ s.cycle then s.setPkt id { p with st := .flying } else s
      | _ => s)

/-- ACK_TIMEOUT_RESEND (R211): no acknowledgement within 65,536 cycles; it follows no eviction, so `evretx` does not count it
(R55). A packet that has not left its core waits for none. DEDUCED: notes/assumptions/36. -/
def execAckTimeoutResend (id : Nat) (s : State) : Res :=
  .next (match Map.at? s.sent id with
    | none => s
    | some p =>
      if p.sentAt + 65536 ≤ s.cycle && !(Map.at? s.net id).any (fun q => decide (q.st = PSt.held)) then
        let q := { p with sentAt := s.cycle, st := .flying }
        { s with sent := Map.ins s.sent id q, net := Map.ins s.net s.nextId q, nextId := s.nextId + 1 }
      else s)

/-- RATE_LIMIT_RELEASE (R190, R260): the oldest held packet of a tenant's engine leaves when the balance is not negative and the
core has room for another outstanding request. -/
def execRateLimitRelease (id : Nat) (s : State) : Res :=
  .next (match Map.at? s.net id with
    | none => s
    | some p =>
      match p.st, p.src with
      | .held, .core c =>
        let first := !(s.net.any (fun q => decide (q.1 < id) && decide (q.2.st = PSt.held) && decide (q.2.src = p.src)
          && decide (q.2.tenant = p.tenant) && decide (q.2.kind.engine = p.kind.engine)))
        if first && !s.shortOf c p then
          let q := { p with st := .flying, sentAt := s.cycle }
          let s1 := (s.setPkt id q).pay c p
          { s1 with sent := Map.modify s1.sent id (fun r => { r with sentAt := s.cycle }) }
        else s
      | _, _ => s)

/-! ## Global tensors at slices (R170, R177, R181, R188) -/

/-- Write n bits of a pinned region. -/
def putGlob (s : State) (t tag pos n v : Nat) : State :=
  (bytePieces pos n).foldl (fun q p =>
    match (q.tenant t).pinned tag p.1 with
    | none => q
    | some a => q.putByte a (setBits (q.byte a) p.2.1 p.2.2.1 (v / 2 ^ p.2.2.2))) s

/-- Physical bytes of n bits of a pinned region. -/
def globBytes (s : State) (t tag pos n : Nat) : List Nat :=
  (bytePieces pos n).filterMap (fun p => (s.tenant t).pinned tag p.1)

/-- Bytes of a pinned region of which pieces at given bit addresses make up all eight bits lose their marks: they hold new
data (R282). -/
def cleanGlob (s : State) (t tag : Nat) (cells : List (Nat × Nat)) : State :=
  let ps := cells.flatMap (fun e => bytePieces e.1 e.2)
  ((ps.map (fun p => p.1)).dedup.filter (fun b => decide (8 ≤ ((ps.filter (fun p => decide (p.1 = b))).map (fun p => p.2.2.1)).sum))).foldl
    (fun q b => match (q.tenant t).pinned tag b with
      | some a => q.cleanMem a 1
      | none => q) s

def poisonGlob (s : State) (t tag pos n : Nat) : State := (globBytes s t tag pos n).foldl (fun q a => q.poisonMem a 1) s

/-- Lines of written bytes (R319). -/
def linesOf (bytes : List Nat) : List Nat := (bytes.flatMap (fun a => linesAt a 1)).dedup

/-- Elements of a beat inside a tensor's extents, with their bit addresses. -/
def sliceCells (g : Rec512) (h : Hdr) (b : Beat) : List (Nat × Nat) :=
  ((beatCells h b).filter (fun e => inExtents (gExt g) b.row e.1 b.plane b.batch)).map (fun e => (gElemBit g b.row e.1 b.plane b.batch, e.2))

/-- The map a slice applies to a block: of its tag, and of its etype, looked up for each beat.
DEDUCED: notes/assumptions/39. DESIGN CHOICE: notes/assumptions/112. -/
def sliceMap (s : State) (p : Packet) (h : Hdr) : Option Rec512 :=
  match sliceOf p.dst with
  | none => none
  | some sl => (s.gmapAt p.tenant h.tag sl).filter (fun g => gEt g = h.etype)

/-- SLICE_PUT_BEAT (R170): elements outside the extents are discarded; a poisoned beat leaves its bytes poisoned.
DEDUCED: notes/assumptions/37. -/
def execSlicePutBeat (id : Nat) (s : State) : Res :=
  onPacket id s (fun p =>
    match p.kind, p.dst with
    | .put h b, .slice _ =>
      match sliceMap s p h with
      | none => s.sliceBeat id p h mapMiss true
      | some g =>
        let cells := sliceCells g h b
        let wd := cellBits h.etype
        let s1 := cleanGlob (cells.foldl (fun q e => putGlob q p.tenant h.tag e.1 wd e.2) s) p.tenant h.tag (cells.map (fun e => (e.1, wd)))
        let s2 := if b.poison then cells.foldl (fun q e => poisonGlob q p.tenant h.tag e.1 wd) s1 else s1
        let lines := linesOf (cells.flatMap (fun e => globBytes s p.tenant h.tag e.1 wd))
        s2.sliceBeat id p h (match b.poison, cells with
          | true, e :: _ => { cause := 9, tval := BitVec.ofNat 64 (e.1 / 8), lines := lines }
          | _, _ => { lines := lines }) false
    | _, _ => s)

/-- One accumulated element (R181): FP32 add rounds once to nearest even; integers wrap; max and min by R62. -/
def accumElem (op et old v : Nat) : Nat :=
  if isFloatT et then
    roundFloat et {} (if op = 0 then Num.add 0 (elemVal et old) (elemVal et v)
      else if op = 1 then Num.maxN (elemVal et old) (elemVal et v) else Num.minN (elemVal et old) (elemVal et v))
  else
    let a := intVal et old
    let b := intVal et v
    intBits et (if op = 0 then a + b else if op = 1 then Max.max a b else Min.min a b)

/-- Accumulate the elements of a beat: the state, the first address that keeps a mark, the bytes written. -/
def accumCells (s : State) (t : Nat) (h : Hdr) (op : Nat) : List (Nat × Nat) → Option Nat → List Nat → State × Option Nat × List Nat
  | [], bad, bytes => (s, bad, bytes)
  | (pos, v) :: rest, bad, bytes =>
    let wd := cellBits h.etype
    let old := globAt s t h.tag pos wd
    if old.2 then accumCells s t h op rest (if bad.isNone then some (pos / 8) else bad) bytes
    else accumCells (putGlob s t h.tag pos wd (accumElem op h.etype old.1 v)) t h op rest bad (bytes ++ globBytes s t h.tag pos wd)

/-- An earlier beat of the command for the same place has not been applied: list order (R181). -/
def accWaits (s : State) (p : Packet) (h : Hdr) (b : Beat) : Bool :=
  s.net.any (fun q => decide (q.2.cmd = p.cmd) && decide (q.2.seq < p.seq) && decide ((Map.at? s.applied q.2.seq).isNone) &&
    (match q.2.kind with
     | .acc h2 b2 _ => decide (h2.tag = h.tag) && decide (b2.row = b.row) && decide (b2.plane = b.plane) && decide (b2.batch = b.batch)
         && decide (b2.off = b.off) && decide (h2.origin = h.origin)
     | _ => false))

/-- SLICE_ACCUMULATE (R181). -/
def execSliceAccumulate (id : Nat) (s : State) : Res :=
  onPacket id s (fun p =>
    match p.kind, p.dst with
    | .acc h b op, .slice _ =>
      if accWaits s p h b then s
      else
        match sliceMap s p h with
        | none => s.sliceBeat id p h mapMiss true
        | some g =>
          let cells := sliceCells g h b
          if b.poison then
            let s1 := cells.foldl (fun q e => poisonGlob q p.tenant h.tag e.1 (cellBits h.etype)) s
            s1.sliceBeat id p h (match cells with
              | e :: _ => { cause := 9, tval := BitVec.ofNat 64 (e.1 / 8) }
              | [] => {}) false
          else
            let r := accumCells s p.tenant h op cells none []
            let lines := linesOf r.2.2
            r.1.sliceBeat id p h (match r.2.1 with
              | some a => { cause := 9, tval := BitVec.ofNat 64 a, lines := lines }
              | none => { lines := lines }) false
    | _, _ => s)

/-- Rows a slice sends for a request: those of the block inside both the descriptor's and the map's extents, with their
first element's position in the block (R170, R177).
DEDUCED: notes/assumptions/73. -/
def requestRows (g d : Rec512) (src : Dword) : List (Nat × Nat × Nat) :=
  (rowsOf (dBlock d)).filter (fun i =>
    inExtents (gExt g) (cRow src + i.1) (cCol src) (cPlane src + i.2.1) (cBatch src + i.2.2)
      && inExtents (dExt d) (cRow src + i.1) (cCol src) (cPlane src + i.2.1) (cBatch src + i.2.2))

/-- One row with its stages (R188): the cells that leave, and the elements flushed.
DEDUCED: notes/assumptions/30. -/
def requestRow (s : State) (t : Nat) (g g2 d : Rec512) (mw : Dword) (bfx : List Dword) (src origin : Dword) (outT ftz : Nat)
    (seed srq : BitVec 32) (i : Nat × Nat × Nat) : BRow × Nat :=
  let row := cRow src + i.1
  let plane := cPlane src + i.2.1
  let batch := cBatch src + i.2.2
  let n := cellsIn (gEt g) (Min.min (cCol (dBlock d)) (Min.min (cCol (gExt g)) (cCol (dExt d)) - cCol src))
  let rb := gElemBit g row (cCol src) plane batch
  let cells := readCells (globAt s t (gTag g)) mw bfx (gEt g) rb (cCol (gBlock g) * ewidth (gEt g)) (cCol (dBlock d)) n
  let scale := fun c => (globAt s t (gTag g2) (gElemBit g2 row ((cCol src + c) / 32) plane batch) 8).1
  let bad := fun c => mwDQ mw && (globAt s t (gTag g2) (gElemBit g2 row ((cCol src + c) / 32) plane batch) 8).2
  let r := stageRow mw (gEt g) outT ftz seed srq scale (elemIndex (dBlock d) i.1 i.2.1 i.2.2) (cells.mapIdx (fun c e => (e.1, e.2 || bad c)))
  ({ row := cRow origin + i.1, plane := cPlane origin + i.2.1, batch := cBatch origin + i.2.2, cells := r.1 }, r.2.2)

/-- Copies of a block a slice sends in the response class (R177, R258). -/
def sliceBlock (p : Packet) (tag outT : Nat) (origin : Dword) (beats : List Beat) (dests : List (Leaf × Nat)) : List Packet :=
  dests.flatMap (fun d =>
    let h : Hdr := { tag := tag, tenant := p.tenant, origin := origin, blk := d.2, etype := outT }
    let mk := fun (k : PKind) => { seq := 0, kind := k, src := p.dst, dst := d.1, tenant := p.tenant, cls := 4, cmd := p.cmd, acks := [d.2] : Packet }
    beats.map (fun b => mk (.beat h b)) ++ [mk (.close h beats.length false)])

/-- SLICE_BLOCK_REQUEST (R170, R177, R179, R188): the block leaves for every destination; without a map, close markers
naming no beat do. -/
def execSliceBlockRequest (id : Nat) (s : State) : Res :=
  onPacket id s (fun p =>
    match p.kind, p.dst with
    | .blockReq d mw src origin outT dests ftz seed srq bfx rid, .slice sl =>
      match s.gmapAt p.tenant (dTag d) sl with
      | none =>
        ((s.sliceDrop p.tenant 1).answer id p (.ack p.seq [rid] mapMiss)).sendAll (sliceBlock p (dTag d) outT origin [] dests)
      | some g =>
        let g2 := ((s.gmapAt p.tenant ((dTag d + 1) % 4096) sl)).getD 0
        let rows := (requestRows g d src).map (requestRow s p.tenant g g2 d mw bfx src origin outT ftz seed srq)
        (s.answer id p (.ack p.seq [rid] { flushes := (rows.map (fun r => r.2)).sum })).sendAll
          (sliceBlock p (dTag d) outT origin (beatsOf outT (rows.map (fun r => r.1))) dests)
    | _, _ => s)

/-! ## Words of global memory (R102, R183, R205) -/

/-- The new value of a word atomic (R183); none for `cas` that does not match. -/
def atomicNew (op size : Nat) (old b c : Nat) : Nat :=
  let w := 8 * size
  let sb := toSigned b w
  let so := toSigned old w
  match op with
  | 0 => (old + b) % 2 ^ w
  | 1 => if so ≤ sb then old else b
  | 2 => if so ≤ sb then b else old
  | 3 => Min.min old b
  | 4 => Max.max old b
  | 5 => old &&& b
  | 6 => old ||| b
  | 7 => old ^^^ b
  | 8 => b
  | 9 => if old = c then b else old
  | _ => roundFloat 1 {} (Num.add 0 (floatVal 1 old) (floatVal 1 b))

/-- SLICE_ATOMIC (R183): a read-modify-write; over an uncorrectable error nothing is written. -/
def execSliceAtomic (id : Nat) (s : State) : Res :=
  onPacket id s (fun p =>
    match p.kind, p.dst with
    | .atomic op size pa va b c, .slice _ =>
      let old := s.readN pa size
      let m := 2 ^ (8 * size)
      if s.poisoned pa size then s.answer id p (.atomicReply (BitVec.ofNat 64 old) true va)
      else
        let s1 := (s.writeN pa size (atomicNew op size old (b.toNat % m) (c.toNat % m))).noteLines p.cmd (linesAt pa size)
        s1.answer id p (.atomicReply (BitVec.ofNat 64 old) false va)
    | _, _ => s)

/-- XAT_REPLY (R54, R183): the element is produced and the command finishes; over poisoned data its handle takes ECC, too
(R182). -/
def execXatReply (id : Nat) (s : State) : Res :=
  .next (match s.flying id with
    | none => s
    | some p =>
      match p.kind, Map.at? s.cmds p.cmd with
      | .atomicReply v bad va, some m =>
        let s1 := (s.unsend id).modCtxOf m.core m.uid (fun x => match m.q6 with
          | i :: _ => if bad then x.produceErr i 9 (BitVec.ofNat 64 va) else x.produce i v
          | [] => x)
        s1.settle p.cmd m.pend (if bad then { cause := 9, tval := BitVec.ofNat 64 va } else {})
      | .atomicReply .., none => s.unsend id
      | _, _ => s)

/-- SLICE_SCALAR_ACCESS (R102, R205): eight bytes are read or written at their home. -/
def execSliceScalarAccess (id : Nat) (s : State) : Res :=
  onPacket id s (fun p =>
    match p.kind, p.dst with
    | .load pa va, .slice _ => s.answer id p (.loadReply (BitVec.ofNat 64 (s.readN pa 8)) (s.poisoned pa 8) va)
    | .store pa _ v, .slice _ => ((s.writeN pa 8 v.toNat).cleanMem pa 8).ackPkt id p { lines := linesAt pa 8 }
    | _, _ => s)

/-- The value of a load: where a later word has written its register since, it stands in the result queue alone (R33,
R103). -/
def writeLate (s : State) (c : Nat) (w : QWord) (v : Dword) : State :=
  let mine := (s.ctx c).any (fun x => w.dst.all (fun d => decide (32 ≤ d) || decide (w.seq ∈ Map.get [] x.late d)))
  if mine then writeDst s c w v else s.modCtx c (fun x => { x with rq := fillRq x.rq w.seq v })

/-- LDG_REPLY (R102): the word finishes with the value, once a full outbound mailbox has room for it; poisoned data traps
in the S engine (R56), and the word is unstarted again. Later S words that started while the load was under way (R103)
stay complete and do not run again, nor do they where it runs again after `eret`, and a register that one of them has written or
is to write keeps their value: R56 holds its queue's later words unstarted, which these no longer are.
DEDUCED: notes/assumptions/74. -/
def execLdgReply (id : Nat) (s : State) : Res :=
  .next (match s.flying id with
    | none => s
    | some p =>
      match p.kind, Map.at? s.cmds p.cmd with
      | .loadReply v bad va, some m =>
        match s.ctxOf m.core m.uid with
        | none => (s.unsend id).settle p.cmd m.pend {}
        | some x =>
          match x.fly.find? (fun w => decide (w.seq = m.word)) with
          | none => (s.unsend id).settle p.cmd m.pend {}
          | some w =>
            if bad then
              let s1 := { s.unsend id with cmds := Map.del s.cmds p.cmd, sent := s.sent.filter (fun q => q.2.cmd ≠ p.cmd) }
              let s2 := s1.modCtxOf m.core m.uid (fun y => { y.unload w with
                fly := y.fly.filter (fun u => u.seq ≠ w.seq)
                qs := insertSeq { w with blocked := true, lost := w.lost || y.outrun w } y.qs
                tok := returnTokens y.tok w })
              s2.raise m.core { cause := 9, tval := BitVec.ofNat 64 va, eng := .s, addr := w.addr, word := some w.seq }
            else if w.dst = some 55 && !oboxRoom s x then s
            else (writeLate (s.unsend id) m.core w v).settle p.cmd m.pend {}
      | .loadReply .., none => s.unsend id
      | _, _ => s)

/-! ## Flag words (R230, R231, R233) -/

/-- A flag word of a context, resident or suspended. -/
def State.flagAt (s : State) (c : Nat) (me : Owner) (w : Nat) : Dword :=
  if toSlot s c 175 me then
    if 175 ∈ (s.core c).savedOf me.tenant then BitVec.ofNat 64 (s.readN (slotRow s c (flagAddr w / 128) me + flagAddr w % 128) 8) else 0
  else ((touchUnit s c me 175).core c).flag w

/-- Replace a flag word of a context; its waiters test (R232). -/
def State.putFlag (s : State) (c : Nat) (x : Ctx) (w : Nat) (v : Dword) : State :=
  let me := s.ownerOf c x.tenant x.uid
  if toSlot s c 175 me then
    let s1 := ensureSaved s c 175 me
    s1.writeN (slotRow s1 c (flagAddr w / 128) me + flagAddr w % 128) 8 v.toNat
  else
    let s1 := (touchUnit s c me 175).modCore c (fun k => k.setSpadWord (flagAddr w) v)
    s1.modCtxOf c x.uid (fun y => y.retestFlags w v)

/-- The sum of R230. -/
def flagSum (v : Dword) (n : Nat) : Dword :=
  let expected := bits v.toNat 32 16
  let t := v.toNat % 2 ^ 32 + n
  let flip := expected ≠ 0 && decide (expected ≤ t)
  let count := (if flip then t - expected else t) % 2 ^ 32
  let phase := if flip then !bit v.toNat 48 else bit v.toNat 48
  BitVec.ofNat 64 (count + 2 ^ 32 * expected + (if phase then 2 ^ 48 else 0))

/-- A change of a flag word at its core, dropped where the tenant has no context (R233). -/
def onFlag (id : Nat) (s : State) (f : State → Nat → Ctx → Packet → Option State) : Res :=
  onPacket id s (fun p =>
    match p.dst with
    | .core c =>
      match s.ctxFor c p.tenant with
      | none => if (f s c {} p).isSome then s.ackPkt id p mapMiss else s
      | some x =>
        match f s c x p with
        | some s1 => s1.ackPkt id p {}
        | none => s
    | _ => s)

/-- FLAG_ADD_APPLY (R230). -/
def execFlagAddApply (id : Nat) (s : State) : Res :=
  onFlag id s (fun s c x p => match p.kind with
    | .flagAdd w n => some (s.putFlag c x w (flagSum (s.flagAt c (s.ownerOf c x.tenant x.uid) w) n))
    | _ => none)

/-- FLAG_SET_APPLY (R231). -/
def execFlagSetApply (id : Nat) (s : State) : Res :=
  onFlag id s (fun s c x p => match p.kind with
    | .flagSet w v => some (s.putFlag c x w v)
    | _ => none)

/-! ## Channels (R234, R235) -/

/-- No push of the sender reserved before this one is still to arrive. -/
def chanFirst (s : State) (p : Packet) (k q uid slot : Nat) : Bool :=
  match s.ctxOf k uid with
  | some x => decide ((Map.get [] x.chout q).head? = some slot)
  | none => !(s.net.any (fun r => match r.2.kind with
      | .chan q2 u2 sl2 _ _ => decide (q2 = q) && decide (u2 = uid) && decide (r.2.src = p.src) && decide (sl2 < slot)
      | _ => false))

/-- CHANNEL_ELEMENT_ARRIVE: elements of one sender arrive in its program order. -/
def execChannelElementArrive (id : Nat) (s : State) : Res :=
  onPacket id s (fun p =>
    match p.kind, p.src, p.dst with
    | .chan q uid slot v _, .core k, .core c =>
      if chanFirst s p k q uid slot then
        let s1 := (s.consume id p).modCtxOf k uid (fun x => { x with chout := Map.ins x.chout q ((Map.get [] x.chout q).filter (fun n => n ≠ slot)) })
        match s1.ctxFor c p.tenant with
        | none => s1
        | some y =>
          if (Map.at? y.chdecl q).isSome then
            s1.modCtxOf c y.uid (fun z =>
              let ch := Map.get {} z.chans q
              { z with chans := Map.ins z.chans q { ch with elems := ch.elems ++ [v] } })
          else s1
      else s
    | _, _, _ => s)

/-- CHANNEL_CREDIT_RETURN. -/
def execChannelCreditReturn (id : Nat) (s : State) : Res :=
  .next (match s.flying id with
    | none => s
    | some p =>
      match p.kind, p.dst with
      | .credit q uid, .core c =>
        (s.unsend id).modCtxOf c uid (fun z =>
          let ch := Map.get {} z.chans q
          { z with chans := Map.ins z.chans q { ch with reserved := ch.reserved - 1 } })
      | _, _ => s)

/-! ## Tickets (R212, R222, R293) -/

/-- MAILBOX_TICKET_ARRIVE: a full mailbox refuses the ticket; without a context it is dropped (R335). Its sender has it acknowledged
(R211).
One from another device names that device by the number of its entry in the tenant's endpoint table (R222). -/
def execMailboxTicketArrive (id : Nat) (s : State) : Res :=
  onPacket id s (fun p =>
    match p.kind, p.dst with
    | .ticket v, .core c =>
      match s.ctxFor c p.tenant with
      | none => (s.consume id p).ackRemote p
      | some x =>
        let v1 := match p.src with | .remote d _ => setBits v 9 10 d | _ => v
        if 16 ≤ ((s.core c).box x).length then s.refuse id p
        else ((s.consume id p).modCore c (fun k => k.setBox x (k.box x ++ [v1]))).ackRemote p
    | _, _ => s)

/-- Operation o of a sequencer is numbered at or above a ticket's count, within a window of 2^31 (R222). -/
def pastCount (count o : Nat) : Bool := decide ((o + 2 ^ 32 - count % 2 ^ 32) % 2 ^ 32 < 2 ^ 31)

/-- The sequencers of a tenant's contexts on a core with a number, and what ended spans left of it: a ticket names no context.
DESIGN CHOICE: notes/assumptions/114. -/
def State.seqrsOf (s : State) (k t q : Nat) : List Seqr :=
  (((s.core k).res.toList ++ (s.core k).sus.toList).filter (fun x => decide (x.tenant = t))).map (fun x => x.seqr q)
    ++ [Map.get {} (s.core k).seqs q]

/-- Host copies of lines that a sequencer's operations below a count wrote (R210, R319). -/
def State.copiesBelow (s : State) (v : Seqr) (count : Nat) : List Nat :=
  (v.lines.filter (fun l => !pastCount count l.1 && s.snoop.contains l.2)).map (fun l => l.2)

/-- The sender's operations below the count have performed, and at system scope no host copy of their lines is left.
DESIGN CHOICE: notes/assumptions/114. -/
def ticketDone (s : State) (k t q count : Nat) : Bool :=
  (s.seqrsOf k t q).all (fun v => v.opened.all (fun o => pastCount count o) &&
      (decide (capScope (s.tenant t).scap 5 < 5) || (s.copiesBelow v count).isEmpty))
    && s.cmds.all (fun m => !(decide (m.2.core = k) && decide (m.2.tenant = t) && decide (m.2.seqr = some q)) || pastCount count m.2.opn)

/-- The sequencer owes one confirmation less. -/
def State.payTicket (s : State) (k t q count : Nat) : State :=
  let pay := fun (x : Ctx) => if x.tenant = t then x.setSeqr q { x.seqr q with owed := (x.seqr q).owed.erase count } else x
  s.modCore k (fun r => { r with res := r.res.map pay, sus := r.sus.map pay })

/-- A request for a confirmation that has been answered: another device's is acknowledged again (R211). -/
def State.confirmDup (s : State) (id : Nat) (p : Packet) : State := (s.unsend id).ackRemote p

/-- TICKET_CONFIRM (R212): the sender's core answers once the operations are visible at system scope, and has the host's
copies recalled until then; a duplicate is not acted on again (R211). A request to another device is answered there, where a port is up to
carry it, and else the ticket takes LINK (R266). -/
def execTicketConfirm (id : Nat) (s : State) : Res :=
  .next (match s.flying id with
    | none => s
    | some p =>
      match p.kind with
      | .confirmReq uid c q count tix =>
        let ok := fun (t : State) => t.modCtxOf c uid (fun x => { x with tickets := Map.modify x.tickets tix (fun v => { v with confirmed := true }) })
        match p.dst, p.src with
        | .core k, from_ =>
          if (Map.at? s.applied p.seq).isSome then s.confirmDup id p
          else if ticketDone s k p.tenant q count then
            let s1 := ((s.consume id p).payTicket k p.tenant q count).ackRemote p
            match from_ with
            | .remote _ _ => s1
            | _ => ok s1
          else if capScope (s.tenant p.tenant).scap 5 = 5 then
            { s with recalls := (s.recalls ++ (s.seqrsOf k p.tenant q).flatMap (fun v => s.copiesBelow v count)).dedup }
          else s
        | .remote d _, _ =>
          if s.pathFailed (s.endpoint p.tenant d) then
            (s.consume id p).modCtxOf c uid (fun x => x.loseTickets (fun i _ => decide (i = tix)))
          else ok ((s.cross p.tenant d p.seq).consume id p)
        | _, _ => s
      | _ => s)

/-! ## Maps, invalidations and snapshots (R186, R281, R315) -/

/-- No cache of any core holds a tenant's map of a tag any more (R186). -/
def State.purgeMap (s : State) (t tag : Nat) : State :=
  { s with cores := s.cores.map (fun k => (k.1, { k.2 with gcache := Map.ins k.2.gcache t (Map.del (Map.get [] k.2.gcache t) tag) })) }

/-- GLOBAL_MAP_INSTALL_ARRIVE: a slice or a core takes a map, or lets it go; the last slice unpins the region, and with it
goes a copy that a cache has taken meanwhile. -/
def execGlobalMapInstallArrive (id : Nat) (s : State) : Res :=
  onPacket id s (fun p =>
    match p.kind, p.dst with
    | .gmapIns g, .slice sl =>
      (s.modTenant p.tenant (fun t => { t with gslices := Map.ins t.gslices (gTag g) (addMark (Map.get [] t.gslices (gTag g)) sl) })).ackPkt id p {}
    | .gmapIns g, .core c =>
      (s.modCore c (fun k => { k with gcache := Map.ins k.gcache p.tenant (Map.ins (Map.get [] k.gcache p.tenant) (gTag g) g) })).ackPkt id p {}
    | .gmapDel tag, .slice sl =>
      let left := (Map.get [] (s.tenant p.tenant).gslices tag).filter (fun k => k ≠ sl)
      let s1 := s.modTenant p.tenant (fun t =>
        if left.isEmpty then { t with gslices := Map.del t.gslices tag, gmaps := Map.del t.gmaps tag, pins := Map.del t.pins tag }
        else { t with gslices := Map.ins t.gslices tag left })
      (if left.isEmpty then s1.purgeMap p.tenant tag else s1).ackPkt id p {}
    | .gmapDel tag, .core c =>
      (s.modCore c (fun k => { k with gcache := Map.ins k.gcache p.tenant (Map.del (Map.get [] k.gcache p.tenant) tag) })).ackPkt id p {}
    | _, _ => s)

/-- SAC_INVALIDATION_ARRIVE (R281): the slice drops the tenant's entries. -/
def execSacInvalidationArrive (id : Nat) (s : State) : Res :=
  onPacket id s (fun p =>
    match p.kind, p.dst with
    | .sacInv, .slice sl =>
      ({ s with sac := s.sac.filter (fun e => e.1 / 4096 ≠ sl * 32 + p.tenant) }).ackPkt id p {}
    | _, _ => s)

/-- A usage counter as read: the units of counters 1-8 are not given, so what each has reached is a free value there, not
below what it was when read before (R333: the counters are monotonic).
DESIGN CHOICE: notes/assumptions/44. -/
def State.usageAt (s : State) (t k : Nat) : Dword :=
  let old := Map.get 0 (s.tenant t).usage k
  if 1 ≤ k && k ≤ 8 then BitVec.ofNat 64 (Max.max old.toNat (Config.freeValue (s.freeCtr + k)).toNat) else old

/-- Counters that have been read stand at what was read. -/
def State.meter (s : State) (t : Nat) : State :=
  { s.modTenant t (fun v => { v with usage := (rangeFrom 1 8).foldl (fun m k => Map.put 0 m k (s.usageAt t k)) v.usage }) with
    freeCtr := s.freeCtr + 9 }

/-- The bytes of the snapshot record up to the signature (R315). -/
def snapBody (s : State) (t : Nat) : List Byte :=
  let dw := fun (v : Nat) => (List.range 8).map (fun i => BitVec.ofNat 8 (v / 256 ^ i))
  (dw (t % 32 + 256) ++ dw Config.serial.toNat ++ dw (s.tenant t).snaps ++ dw (if (s.tenant t).gap then 1 else 0) ++ dw s.cycle)
    ++ (List.range 18).flatMap (fun k => dw (s.usageAt t k).toNat)

/-- The record of R315. -/
def snapRecord (s : State) (t : Nat) : List Byte :=
  let b := snapBody s t
  b ++ (List.range 96).map (fun i => Config.signature b i) ++ List.replicate 40 0

/-- CNTSNAP_REQUEST_ARRIVE (R315): the counters are read at the I/O die and the record is written. The packet names the
first page's address, and one more than the second page's where the record reaches into it. -/
def execCntsnapRequestArrive (id : Nat) (s : State) : Res :=
  onPacket id s (fun p =>
    match p.kind, p.dst with
    | .cntsnap pa pa2, .io =>
      let r := snapRecord s p.tenant
      let n := if pa2 = 0 then 320 else Min.min 320 (0x10000 - pa % 0x10000)
      let s1 := ((s.writeBytes pa (r.take n)).cleanMem pa n).writeBytes (pa2 - 1) (r.drop n)
      let s2 := (s.meter p.tenant).modTenant p.tenant (fun t => { t with snaps := t.snaps + 1, gap := false })
      ({ s1 with tenants := s2.tenants, freeCtr := s2.freeCtr } : State).ackPkt id p
        { lines := linesAt pa n ++ (if n < 320 then linesAt (pa2 - 1) (320 - n) else []) }
    | _, _ => s)

end Sys2Proof.Machine
end

