-- ==== Sys2Proof/Machine/Combine.lean ====
section
/-! DEFINITION. The reduction network (19_fabric R261-R263; 18_program_reduction R251) and the step cache's directory
(21_step_cache R272-R282) at their nodes and slices. -/

namespace Sys2Proof.Machine

/-! ## Reduction rounds (R262, R263) -/

def State.group (s : State) (g : Nat) : Group := Map.get {} s.groups g

def State.setGroup (s : State) (g : Nat) (v : Group) : State := { s with groups := Map.ins s.groups g v }

/-- A port of a node. -/
def portKey (node port : Nat) : Nat := 16 * node + port

def treeInputs (e : Dword) : Nat := bits e.toNat 48 16
def treePport (e : Dword) : Nat := bits e.toNat 44 4
def treeParent (e : Dword) : Nat := bits e.toNat 38 6
def treeRoot : Nat := 0x3F

/-- Expected input ports of a node, ascending. -/
def portsOf (e : Dword) : List Nat := (List.range 16).filter (fun p => bit (treeInputs e) p)

/-- combine over one element: FP32 add 0, INT32 add 1, FP32 max 2, FP32 min 3, INT32 max 4, INT32 min 5. -/
def combineElem (op a b : Nat) : Nat :=
  accumElem (if op = 0 || op = 1 then 0 else if op = 2 || op = 4 then 1 else 2) (if gcFloat op then 0x01 else 0x09) a b

/-- The left fold of the values of a node's ports. -/
def foldPorts (op : Nat) : List (List Nat) → List Nat
  | [] => []
  | v :: vs => vs.foldl (fun acc w => List.zipWith (combineElem op) acc w) v

/-- A round is over: nothing of it is left at the nodes. -/
def Group.reopen (g : Group) : Group := { g with vals := [], tags := [], shapes := [], counts := [], cmds := [], opened := none }

/-- A status packet to a member that contributed. -/
def statusPkt (g root t c cmd : Nat) (ids : List Nat) (elem : Option Dword) (cause tval after : Nat) : Packet :=
  { seq := 0, kind := .redStatus g elem cause tval after, src := .slice root, dst := .core c, tenant := t, cls := 5, cmd := cmd, acks := ids }

/-- Send a status; it is the reply recorded for its member's contribution (R211). -/
def State.sendStatus (s : State) (p : Packet) : State :=
  let mine := s.sent.filter (fun q => decide (q.2.cmd = p.cmd) && (match q.2.kind with | .redContrib .. => true | _ => false))
  ({ s with applied := mine.foldl (fun (m : Map PKind) (q : Nat × Packet) => Map.ins m q.1 p.kind) s.applied }).send p

/-- Traps for every contributor (R263): COUNT and TIMEOUT. -/
def statusAll (s : State) (g root : Nat) (v : Group) (cause tval : Nat) : State :=
  v.cmds.foldl (fun q m => q.sendStatus (statusPkt g root (v.owner.getD 0) m.1 m.2
    (match Map.at? s.cmds m.2 with | some k => k.pend | none => []) none cause tval 0)) s

/-- Rows of a result block.
DEDUCED: notes/assumptions/41. -/
def resultRows (cols : Nat) : Nat → List Nat → Nat → List BRow
  | 0, _, _ => []
  | n + 1, vs, r => { row := r, plane := 0, batch := 0, cells := (vs.take cols).map (fun v => (v, false)) } :: resultRows cols n (vs.drop cols) (r + 1)

/-- The result to one live member: its block, and its status after the landing. -/
def sendResult (s : State) (g root : Nat) (v : Group) (tag : Nat) (shape : Dword) (acc : List Nat) (c : Nat) : State :=
  let t := v.owner.getD 0
  let et := if gcFloat (gcOp v.conf) then 0x01 else 0x09
  let cmd := Map.get 0 v.cmds c
  let f := s.fresh 1
  let blk := s.nextId
  let h : Hdr := { tag := tag, tenant := t, origin := 0, blk := blk, etype := et }
  let mk := fun (k : PKind) => { seq := 0, kind := k, src := .slice root, dst := .core c, tenant := t, cls := 5, cmd := cmd, acks := [blk] : Packet }
  let beats := beatsOf et (resultRows (cCol shape) (cRow shape) acc 0)
  let s1 := f.1.sendAll (beats.map (fun b => mk (.beat h b)) ++ [mk (.close h beats.length false)])
  match Map.at? s1.cmds cmd with
  | none => s1
  | some m =>
    let s2 := { s1 with cmds := Map.ins s1.cmds cmd { m with pend := m.pend ++ [blk] } }
    s2.sendStatus (statusPkt g root t c cmd m.pend (some (redStatusWord g (gcMembers v.conf).length)) 0 0 blk)

/-- ROUND_CLOSE (R263). -/
def closeRound (s : State) (g root : Nat) (v : Group) (tag : Nat) (shape : Dword) (acc : List Nat) : State :=
  let live := gcMembers v.conf
  let s1 := s.setGroup g v.reopen
  if v.counts.any (fun k => decide (k.2 ≠ live.length)) then statusAll s1 g root v 4 live.length
  else
    live.foldl (fun q c => sendResult q g root v tag shape acc c) s1

/-- A node's value travels to its parent as a block: beats, and the marker that feeds the port (R158, R262). -/
def sendPartial (s : State) (g t from_ to_ : Nat) (node port core tag : Nat) (shape : Dword) (et : Nat) (acc : List Nat) : State :=
  let blk := s.nextId
  let mk := fun (k : PKind) => { seq := 0, kind := k, src := .slice from_, dst := .slice to_, tenant := t, cls := 5 : Packet }
  let h : Hdr := { tag := tag, tenant := t, origin := 0, blk := blk, etype := et }
  let beats := beatsOf et (resultRows (cCol shape) (cRow shape) acc 0)
  (s.fresh 1).1.sendAll (beats.map (fun b => mk (.stream none h b)) ++
    [mk (.redContrib g node port core 0 tag shape acc false blk beats.length)])

/-- A contribution, or a node's partial value, at a node of the tree. -/
def contribute (s : State) (g node port core count tag : Nat) (shape : Dword) (vals : List Nat) (leaf : Bool) (cmd t : Nat) : State :=
  let v := s.group g
  let e := Map.get 0 v.tree node
  let key := portKey node port
  let v1 := { v with
    vals := Map.ins v.vals key vals
    tags := Map.ins v.tags key tag
    shapes := Map.ins v.shapes key shape
    counts := if leaf then Map.ins v.counts core count else v.counts
    cmds := if leaf then Map.ins v.cmds core cmd else v.cmds
    opened := if v.opened.isNone then some s.cycle else v.opened }
  let ports := portsOf e
  let got := ports.filterMap (fun p => Map.at? v1.vals (portKey node p))
  if got.length ≠ ports.length then s.setGroup g v1
  else
    let acc := foldPorts (gcOp v.conf) got
    let tag1 := Map.get 0 v1.tags (portKey node (ports.headD 0))
    let shape1 := Map.get 0 v1.shapes (portKey node (ports.headD 0))
    let index := bits e.toNat 0 8
    if treeParent e = treeRoot then closeRound s g (index % 128) v1 tag1 shape1 acc
    else sendPartial (s.setGroup g v1) g t (index % 128) (bits (Map.get 0 v.tree (treeParent e)).toNat 0 8 % 128)
      (treeParent e) (treePport e) core tag1 shape1 (if gcFloat (gcOp v.conf) then 0x01 else 0x09) acc

/-- Contributions of the open round that have not reached their nodes (R251). -/
def Group.missing (v : Group) : Nat := (gcMembers v.conf).length - v.cmds.length

/-- The round's time has run out with a contribution missing (R251): what comes first decides, and a round whose last
contribution has reached its node by then closes.
DEDUCED: notes/assumptions/41. -/
def Group.expired (v : Group) (now : Nat) : Bool :=
  match v.opened with
  | none => false
  | some t0 => decide (gcTimeout v.conf ≠ 0) && decide (t0 + gcTimeout v.conf ≤ now) && decide (0 < v.missing)

/-- The beats of a block that is wholly there are acknowledged: no node keeps a copy of one (R211). -/
def State.dropStreams (s : State) (blks : List Nat) : State :=
  let keep := fun (p : Nat × Packet) => match p.2.kind with
    | .stream none h _ => decide (h.blk ∉ blks)
    | _ => true
  { s with net := s.net.filter keep, sent := s.sent.filter keep }

/-- REDUCTION_CONTRIBUTION (R262): once every beat of the block is there, a second arrival for a filled port is refused; when
every expected port holds a value, the node folds them in ascending port order. A core keeps its contribution until its
status comes; a node's is done with. In a round whose time is up nothing arrives any more: it ends first (R263). -/
def execReductionContribution (id : Nat) (s : State) : Res :=
  onPacket id s (fun p =>
    match p.kind with
    | .redContrib g node port core count tag shape vals leaf blk beats =>
      if (s.slcBlk blk).beats < beats || (s.group g).expired s.cycle then s
      else if (Map.at? (s.group g).vals (portKey node port)).isSome then s.refuse id p
      else
        let s1 := if leaf then (s.unsend id).noteApplied p (.ack p.seq [] {}) else (s.consume id p).dropStreams [blk]
        contribute (s1.dropSlcBlk blk) g node port core count tag shape vals leaf p.cmd p.tenant
    | _ => s)

/-- Node of a group that stands at its root. -/
def rootOf (v : Group) : Nat :=
  ((List.range 63).find? (fun n => decide (n < gcNodes v.conf) && decide (treeParent (Map.get 0 v.tree n) = treeRoot))).getD 0

/-- Blocks of partial values of a group that have not reached their nodes. -/
def State.partials (s : State) (g : Nat) : List Nat :=
  (s.net ++ s.sent).filterMap (fun p => match p.2.kind with
    | .redContrib h _ _ _ _ _ _ _ leaf blk _ => if h = g && !leaf then some blk else none
    | _ => none)

/-- Nothing of a group's partial values is left on its way, nor kept to be resent (R211, R263). -/
def State.dropPartials (s : State) (g : Nat) : State :=
  let keep := fun (p : Nat × Packet) => match p.2.kind with
    | .redContrib h _ _ _ _ _ _ _ leaf _ _ => decide (h ≠ g) || leaf
    | _ => true
  let s1 := (s.partials g).foldl State.dropSlcBlk (s.dropStreams (s.partials g))
  { s1 with net := s1.net.filter keep, sent := s1.sent.filter keep }

/-- REDUCTION_TIMEOUT (R251, R263): every node discards the round; each contributor's status traps with the number missing. -/
def execReductionTimeout (g : Nat) (s : State) : Res :=
  .next (
    let v := s.group g
    if v.expired s.cycle then
      statusAll ((s.dropPartials g).setGroup g v.reopen) g (bits (Map.get 0 v.tree (rootOf v)).toNat 0 8 % 128) v 7 v.missing
    else s)

/-- REDUCTION_STATUS_DELIVER (R201, R251, R263): the status is produced once the result has landed, and the command
finishes. -/
def execReductionStatusDeliver (id : Nat) (s : State) : Res :=
  .next (match s.flying id with
    | none => s
    | some p =>
      match p.kind, Map.at? s.cmds p.cmd with
      | .redStatus _ elem cause tval after, some m =>
        if after ∈ m.pend then s
        else
          let s1 := (s.unsend id).modCtxOf m.core m.uid (fun x => match m.q6 with
            | i :: _ => (match elem with | some v => x.produce i v | none => x.produceErr i cause tval)
            | [] => x)
          s1.settle p.cmd p.acks {}
      | .redStatus .., none => s.unsend id
      | _, _ => s)

/-! ## The directory (R272-R278) -/

def sacSlot (slice t e : Nat) : Nat := (slice * 32 + t) * 4096 + e

/-- Stand-in tag of the replay region's pinned pages. -/
def sacTag : Nat := 4096

/-- Virtual address of entry e's reference on a slice (R273); the output stands 16 KiB above.
DEDUCED: notes/assumptions/38. -/
def sacAddr (t : Tenant) (slice e : Nat) : Nat := t.sacBase + (slice * t.sacQuota + e) * 0x8000

/-- Entry of a key on a slice, with its index. -/
def sacFind (s : State) (slice t key : Nat) : Option (Nat × SacEnt) :=
  ((s.sac.filter (fun e => decide (e.1 / 4096 = slice * 32 + t))).find? (fun e => decide (e.2.key = key))).map (fun e => (e.1 % 4096, e.2))

/-- Elements of a stored block, and whether one reads an uncorrectable error. -/
def sacRead (s : State) (t a et : Nat) (shape : Dword) : List Nat × Bool :=
  let wd := cellBits et
  let cells := (List.range (cRow shape * cPlane shape * cBatch shape * cellsIn et (cCol shape))).map (fun i => globAt s t sacTag (8 * a + i * wd) wd)
  (cells.map (fun c => c.1), cells.any (fun c => c.2))

/-- Physical bytes of a stored block of n elements. -/
def sacBytes (s : State) (t a et n : Nat) : List Nat := globBytes s t sacTag (8 * a) (8 * ceilDiv (n * cellBits et) 8)

/-- Store a block; its bytes hold new data, and lose their marks (R282). -/
def sacWrite (s : State) (t a et : Nat) (vs : List Nat) : State :=
  (sacBytes s t a et vs.length).foldl (fun q b => q.cleanMem b 1)
    (vs.zipIdx.foldl (fun q p => putGlob q t sacTag (8 * a + p.2 * cellBits et) (cellBits et) p.1) s)

/-- FP32 rounding of a value, nearest even, no flush. -/
def f32 (v : Num) : Num := floatVal 1 (roundFloat 1 {} v)

/-- Sum of row sums, each addition rounded (R276). -/
def rowSums (cols : Nat) (vs : List Num) : Num :=
  let rows := chunks cols (ceilDiv vs.length cols) vs
  (rows.map (fun r => r.foldl (fun a v => f32 (Num.add 0 a v)) (.zero false))).foldl (fun a v => f32 (Num.add 0 a v)) (.zero false)

/-- The distance of R276, as FP32 bits. -/
def sacDistance (metric et cols : Nat) (x r : List Nat) : Nat :=
  let diffs := List.zipWith (fun a b => (f32 (Num.add 0 (elemVal et a) (elemVal et b).negate)).abs) x r
  if metric = 0 then roundFloat 1 {} (diffs.foldl Num.maxN (.zero false))
  else
    let n := rowSums cols diffs
    let d := rowSums cols (r.map (fun v => (elemVal et v).abs))
    if n.isNan || d.isNan then canonNan 1
    else if d.isZero then (if n.isZero then 0 else infBits 1)
    else roundFloat 1 {} (Num.div n d)

def ageBit (sacage age : Nat) : Nat := if sacage ≠ 0 && sacage ≤ age then 4 else 0

/-- The check of R275: the directory after it, the verdict, and on a hit the entry replayed. -/
def sacDecide (s : State) (slice t key : Nat) (i : Blk) (thr : Word) (metric step sacage : Nat) : State × Nat × Option (Nat × SacEnt) :=
  if i.poison.isSome then (s, 2, none)
  else
    match sacFind s slice t key with
    | none => (s, 0, none)
    | some (e, v) =>
      let a := sacAddr (s.tenant t) slice e
      let ref := sacRead s t a v.refEtype v.refShape
      let out := sacRead s t (a + 0x4000) v.outEtype v.outShape
      if ref.2 || out.2 then ({ s with sac := Map.del s.sac (sacSlot slice t e) }, 2, none)
      else if v.tag ≠ (step + 65535) % 65536 then (s, ageBit sacage v.age, none)
      else if v.refEtype ≠ i.etype || v.refShape ≠ i.shape then (s, ageBit sacage v.age, none)
      else
        let dist := sacDistance metric i.etype (cCol i.shape) i.elems ref.1
        let dn := floatVal 1 dist
        let th := floatVal 1 thr.toNat
        if (sacage = 0 || v.age < sacage) && (Num.lt dn th || Num.eq dn th) then
          let v1 := { v with tag := step, age := Min.min (v.age + 1) 0xFFFF }
          ({ s with sac := Map.ins s.sac (sacSlot slice t e) v1 }, 1 + ageBit sacage v1.age + 2 ^ 32 * dist, some (e, v1))
        else (s, ageBit sacage v.age + 2 ^ 32 * dist, none)

/-- Origin of a replayed block (R268). -/
def replayOrigin (key : Nat) (shape : Dword) : Dword :=
  coord (bits key 16 16 * cRow shape) (bits key 32 16 * cCol shape) 0 0

/-- Rows of a stored block at their coordinates. -/
def storedRows (et : Nat) (shape origin : Dword) (vs : List Nat) : List BRow :=
  (rowsOf shape).mapIdx (fun k i =>
    { row := cRow origin + i.1, plane := i.2.1, batch := i.2.2,
      cells := ((vs.drop (k * cellsIn et (cCol shape))).take (cellsIn et (cCol shape))).map (fun v => (v, false)) })

/-- A command has done with its key, and with the blocks its directory held for it. -/
def State.unbusy (s : State) (p : Packet) : State :=
  p.acks.foldl State.dropSlcBlk { s with sacBusy := s.sacBusy.filter (fun b => b.2.2 ≠ p.cmd) }

/-- SAC_CHECK (R275): decided once the whole block has arrived; a hit's output leaves before its verdict. -/
def execSacCheck (id : Nat) (s : State) : Res :=
  onPacket id s (fun p =>
    match p.kind, p.dst with
    | .sacCheck key i thr metric step sacage true, .slice sl =>
      let r := sacDecide s sl p.tenant key i thr metric step sacage
      if (s.slcBlk (p.acks.headD 0)).beats < i.beats then s
      else match r.2.2 with
      | none => (r.1.unbusy p).answer id p (.verdict (BitVec.ofNat 64 r.2.1) 0 0)
      | some (e, v) =>
        let f := (r.1.unbusy p).fresh 1
        let blk := r.1.nextId
        let o := replayOrigin key v.outShape
        let out := sacRead s p.tenant (sacAddr (s.tenant p.tenant) sl e + 0x4000) v.outEtype v.outShape
        let beats := beatsOf v.outEtype (storedRows v.outEtype v.outShape o out.1)
        let s1 := { f.1 with cmds := Map.modify f.1.cmds p.cmd (fun m => { m with pend := m.pend ++ [blk] }) }
        (s1.answer id p (.verdict (BitVec.ofNat 64 r.2.1) blk (ceilDiv (volume v.outShape * ewidth v.outEtype) 8))).sendAll
          (sliceBlock p v.outTag v.outEtype o beats [(p.src, blk)])
    | _, _ => s)

/-- SAC counters (R280): checks 0, hits 1, misses 2, errors 3, fills 4, evictions 5, refused 6, bytes 7; each is a usage
counter too (R315). -/
def State.sacCount (s : State) (t k n : Nat) : State :=
  let u := if k = 0 then 10 else if k = 1 then 9 else if k = 2 then 11 else 9 + k
  (s.modTenant t (fun v => { v with sacctr := Map.put 0 v.sacctr k (Map.get 0 v.sacctr k + BitVec.ofNat 64 n) })).use t u n

/-- The tenant's counts of a verdict delivered, wherever it goes, and on a hit the billing record of replayed tiles
(R280). -/
def State.countVerdict (s : State) (t : Nat) (v : Dword) (bytes : Nat) : State :=
  let hit := v.getLsbD 0
  let s1 := (s.sacCount t 0 1).sacCount t (if hit then 1 else 2) 1
  let s2 := if v.getLsbD 1 then s1.sacCount t 3 1 else s1
  if hit then (s2.sacCount t 7 bytes).modTenant t (fun u => { u with replays := u.replays + 1 }) else s2

/-- SAC_VERDICT_DELIVER (R17, R280): produced after the landing, counted once; a second verdict of a command, which a resent
check was answered with, is not delivered again. -/
def execSacVerdictDeliver (id : Nat) (s : State) : Res :=
  .next (match s.flying id with
    | none => s
    | some p =>
      match p.kind with
      | .verdict v after bytes =>
        let waits := match Map.at? s.cmds p.cmd with | some m => decide (after ∈ m.pend) | none => false
        if waits then s
        else if (Map.at? s.applied p.cmd).isSome then s.unsend id
        else
          let hit := v.getLsbD 0
          let s2 := (s.unsend id).countVerdict p.tenant v bytes
          let s3 := { s2 with applied := Map.ins s2.applied p.cmd p.kind }
          match Map.at? s3.cmds p.cmd with
          | none => s3
          | some m =>
            match s3.ctxOf m.core m.uid with
            | none => s3.settle p.cmd m.pend {}
            | some _ =>
              let s4 := (s3.count m.core (if hit then evSACHIT else evSACMISS) 1).modCtxOf m.core m.uid (fun x => match m.q6 with
                | i :: _ => x.produce i v
                | [] => x)
              s4.settle p.cmd m.pend {}
      | _ => s)

/-- The entry a fill takes (R277, R278): the key's own, the lowest free one, or the victim; and whether it evicts. -/
def fillEntry (s : State) (slice t key step : Nat) : Option (Nat × Bool) :=
  let n := (s.tenant t).sacQuota
  match sacFind s slice t key with
  | some (e, _) => some (e, false)
  | none =>
    match (List.range n).find? (fun e => (Map.at? s.sac (sacSlot slice t e)).isNone) with
    | some e => some (e, false)
    | none =>
      let age : Nat → Nat := fun e => match Map.at? s.sac (sacSlot slice t e) with | some v => (step + 65536 - v.tag) % 65536 | none => 0
      (List.range n).foldl (fun best e => match best with
        | none => some (e, true)
        | some (b, _) => if age b < age e then some (e, true) else some (b, true)) none

/-- SAC_FILL (R277, R278): once both blocks have arrived in full. The host may hold copies of the lines the entry stands in
(R319). -/
def execSacFill (id : Nat) (s : State) : Res :=
  onPacket id s (fun p =>
    match p.kind, p.dst with
    | .sacFill key i o step true, .slice sl =>
      let s0 := s.unbusy p
      if (s.slcBlk (p.acks.headD 0)).need.all (fun n => decide ((s.slcBlk (p.acks.headD 0)).beats < n))
          || (s.slcBlk (p.acks.getD 1 0)).beats < o.beats then s
      else if i.poison.isSome || o.poison.isSome then
        let s1 := match sacFind s sl p.tenant key with
          | some (e, _) => { s0 with sac := Map.del s0.sac (sacSlot sl p.tenant e) }
          | none => s0
        (s1.sacCount p.tenant 3 1).ackPkt id p { cause := 9, tval := BitVec.ofNat 64 ((i.poison.or o.poison).getD 0) }
      else
        match fillEntry s sl p.tenant key step with
        | none => (s0.sacCount p.tenant 6 1).ackPkt id p {}
        | some (e, evict) =>
          let a := sacAddr (s.tenant p.tenant) sl e
          let ent : SacEnt := { key := key, tag := step, age := 0, refEtype := i.etype, refShape := i.shape,
                                outTag := o.tag, outEtype := o.etype, outShape := o.shape }
          let s1 := sacWrite (sacWrite s0 p.tenant a i.etype i.elems) p.tenant (a + 0x4000) o.etype o.elems
          let s2 := { s1 with sac := Map.ins s1.sac (sacSlot sl p.tenant e) ent }
          ((if evict then s2.sacCount p.tenant 5 1 else s2).sacCount p.tenant 4 1).ackPkt id p
            { lines := linesOf (sacBytes s p.tenant a i.etype i.elems.length ++ sacBytes s p.tenant (a + 0x4000) o.etype o.elems.length) }
    | _, _ => s)

end Sys2Proof.Machine
end

