-- ==== Sys2Proof/Machine/Walker.lean ====
section
/-! DEFINITION. Launches from the queue's head to the completion record, the walker and the spans it hands out
(22_scheduling R284-R293; R90, R107, R228). -/

namespace Sys2Proof.Machine

/-- Causes of R285. -/
def cILLEGAL : Nat := 1
def cXLATE : Nat := 3
def cQPORT : Nat := 6

/-! ## Reading a loop-nest record (R284-R286) -/

/-- An entry of a row-pointer array: through the pages pinned at launch (R306), and else as the tables stand; or the cause
with which it does not translate. -/
def readPtr (s : State) (t : Nat) (pins : Map Nat) (va : Nat) : Except Nat Nat :=
  match Map.at? pins (va / 4096) with
  | some f => .ok (s.readN (f + va % 4096) 4)
  | none =>
    match translate s t va false with
    | .error e => .error e
    | .ok pa => .ok (s.readN pa 4)

/-- The 32 dwords of a record at a physical address. -/
def lnrDwords (s : State) (pa : Nat) : List Nat := (List.range 32).map (fun k => s.readN (pa + 8 * k) 8)

/-- Bits lo .. lo+n-1 of dword k of a record. -/
def lnrF (d : List Nat) (k lo n : Nat) : Nat := bits (d.getD k 0) lo n

def lnrLevel (d : List Nat) (k : Nat) : Level :=
  { kind := lnrF d (2 + k) 0 2, rowptr := lnrF d (2 + k) 2 1 = 1, trips := lnrF d (2 + k) 16 16, ptr := d.getD (8 + k) 0 / 4 * 4 }

def lnrLevels (d : List Nat) : List Level := (List.range (lnrF d 1 0 3)).map (lnrLevel d)

/-- Launch id i of the prerequisite dwords. -/
def lnrPrereq (d : List Nat) (i : Nat) : Nat := lnrF d (15 + i / 2) (32 * (i % 2)) 32

/-- The channel word of channel q. -/
def lnrChan (d : List Nat) (q : Nat) : Nat := lnrF d (17 + q / 2) (32 * (q % 2)) 32

/-- A level word breaks R284: k below the level count, or beyond it. -/
def levelBad (d : List Nat) (n k : Nat) : Bool :=
  let l := lnrLevel d k
  if k < n then
    decide (lnrF d (2 + k) 32 32 ≠ 0) || decide (lnrF d (2 + k) 3 13 ≠ 0) || decide (l.kind = 3)
      || (if l.rowptr then decide (l.kind = 0) || decide (l.trips ≠ 0) else decide (l.trips = 0) || decide (d.getD (8 + k) 0 ≠ 0))
  else decide (d.getD (2 + k) 0 ≠ 0) || decide (d.getD (8 + k) 0 ≠ 0)

/-- The second row of R285. -/
def lnrIllegal (d : List Nat) : Bool :=
  let n := lnrF d 1 0 3
  let lv := lnrLevels d
  decide (lnrF d 1 30 2 ≠ 0) || decide (lnrF d 1 3 1 ≠ 0) || decide (n = 0) || decide (6 < n)
    || (List.range 6).any (levelBad d n)
    || decide (3 < (lv.filter (fun l => l.kind = 0)).length) || decide (4 < (lv.filter (fun l => l.kind ≠ 0)).length)
    || (decide (lnrF d 1 10 1 = 1) && decide (n ≤ lnrF d 1 7 3))
    || decide (lnrF d 1 17 13 = 0) || decide (6136 < lnrF d 1 17 13)
    || decide (lnrF d 14 3 61 ≠ 0) || decide (4 < lnrF d 14 0 3)
    || (List.range 4).any (fun i => decide (lnrF d 14 0 3 ≤ i) && decide (lnrPrereq d i ≠ 0))
    || (List.range 6).any (fun q => decide (lnrChan d q / 2 ^ 17 ≠ 0))
    || (List.range 4).any (fun i => decide (d.getD (28 + i) 0 ≠ 0))

/-- Offset and slots of a declared channel. -/
def chanDecl (d : List Nat) (q : Nat) : Option (Int × Nat) :=
  let v := lnrChan d q
  if bit v 0 then some (toSigned (bits v 1 10) 10, bits v 11 6 + 1) else none

def lnrChans (d : List Nat) : Map (Int × Nat) :=
  (List.range 6).filterMap (fun q => (chanDecl d q).map (fun c => (q, c)))

/-- The third row of R285, but for the peers, which are known when the gang is placed.
DEDUCED: notes/assumptions/50. -/
def lnrQport (d : List Nat) : Bool :=
  (lnrChans d).any (fun c => decide (c.2.1 = 0) || decide (c.2.1 < -383) || decide (383 < c.2.1) || lnrF d 1 4 1 = 0)

/-- The launch a record describes.
DEDUCED: notes/assumptions/49. -/
def parseLnr (l : Launch) (d : List Nat) (qcap : Nat) : Launch :=
  { l with
    checked := true
    entry := d.getD 0 0 / 4 * 4
    budget := lnrF d 1 32 32
    spad := lnrF d 1 17 13
    tiles := lnrF d 1 11 6 + 1
    fmten := lnrF d 1 10 1 = 1
    fmtlvl := lnrF d 1 7 3
    cls := Min.min (lnrF d 1 5 2) qcap
    gang := lnrF d 1 4 1 = 1
    levels := lnrLevels d
    prereqs := (List.range (lnrF d 14 0 3)).map (lnrPrereq d)
    chans := lnrChans d
    fmts := (List.range 16).map (fun i => (i, BitVec.ofNat 32 (lnrF d (20 + i / 2) (32 * (i % 2)) 32))) }

/-! ## Spatial iterations (R286, R289) -/

/-- The levels that the walker enumerates, outermost first. -/
def spatial (ls : List Level) : List Level := ls.filter (fun l => l.kind ≠ 0)

/-- Trips of a level for index p of the nearest enclosing spatial level (R286). -/
def tripsOf (s : State) (t : Nat) (pins : Map Nat) (l : Level) (p : Nat) : Except Nat Nat :=
  if !l.rowptr then .ok l.trips
  else
    match readPtr s t pins (l.ptr + 4 * p), readPtr s t pins (l.ptr + 4 * (p + 1)) with
    | .ok a, .ok b => .ok (b - a)
    | .error e, _ => .error e
    | _, .error e => .error e

/-- The first answer of f at i, i+1, ... among n of them. -/
def searchUp (f : Nat → Except Nat (Option (List Nat))) (i : Nat) : Nat → Except Nat (Option (List Nat))
  | 0 => .ok none
  | n + 1 =>
    match f i with
    | .ok none => searchUp f (i + 1) n
    | r => r

/-- Prefix an index to an answer. -/
def withIndex (i : Nat) : Except Nat (Option (List Nat)) → Except Nat (Option (List Nat))
  | .ok (some v) => .ok (some (i :: v))
  | r => r

/-- The first iteration of the levels, under index p. -/
def firstSpan (s : State) (t : Nat) (pins : Map Nat) : List Level → Nat → Except Nat (Option (List Nat))
  | [], _ => .ok (some [])
  | l :: ls, p =>
    match tripsOf s t pins l p with
    | .error e => .error e
    | .ok n => searchUp (fun i => withIndex i (firstSpan s t pins ls i)) 0 n

/-- The iteration after a given one. -/
def nextSpan (s : State) (t : Nat) (pins : Map Nat) : List Level → Nat → List Nat → Except Nat (Option (List Nat))
  | l :: ls, p, i :: is =>
    match nextSpan s t pins ls i is with
    | .ok none =>
      match tripsOf s t pins l p with
      | .error e => .error e
      | .ok n => searchUp (fun j => withIndex j (firstSpan s t pins ls j)) (i + 1) (n - (i + 1))
    | r => withIndex i r
  | _, _, _ => .ok none

/-- Up to n iterations from a given one on, and the cause where the walk stops at a page that does not translate. -/
def spansFrom (s : State) (t : Nat) (pins : Map Nat) (ls : List Level) : Nat → Option (List Nat) → List (List Nat) × Option Nat
  | 0, _ => ([], none)
  | _, none => ([], none)
  | n + 1, some v =>
    match nextSpan s t pins ls 0 v with
    | .error e => ([v], some e)
    | .ok w => let r := spansFrom s t pins ls n w; (v :: r.1, r.2)

/-- The largest trip count of a row-pointer level over n indices of the enclosing level. -/
def maxTrips (s : State) (t : Nat) (pins : Map Nat) (l : Level) (n : Nat) : Except Nat Nat :=
  (List.range n).foldl (fun m p => match m, tripsOf s t pins l p with
    | .ok a, .ok b => .ok (Max.max a b)
    | .error e, _ => .error e
    | _, .error e => .error e) (.ok 0)

/-- Pin the pages that n words of an array stand in (R306).
DEDUCED: notes/assumptions/95. -/
def pinPtr (s : State) (t ptr n : Nat) (pins : Map Nat) : Except Nat (Map Nat) :=
  (rangeFrom (ptr / 4096) ((ptr + 4 * n - 1) / 4096 + 1 - ptr / 4096)).foldl (fun m v => match m with
    | .error e => .error e
    | .ok m =>
      match translate s t (4096 * v) false with
      | .error e => .error e
      | .ok pa => .ok (Map.ins m v pa)) (.ok pins)

/-- Every row-pointer entry the walk can read translates, and its page is pinned for the launch (R285, R306); n is the
largest trip count of the enclosing level. -/
def pinPtrs (s : State) (t : Nat) : List Level → Nat → Map Nat → Except Nat (Map Nat)
  | [], _, pins => .ok pins
  | l :: ls, n, pins =>
    if !l.rowptr then pinPtrs s t ls (if n = 0 then 0 else l.trips) pins
    else
      match (if n = 0 then .ok pins else pinPtr s t l.ptr (n + 1) pins) with
      | .error e => .error e
      | .ok m =>
        match maxTrips s t m l n with
        | .error e => .error e
        | .ok k => pinPtrs s t ls k m

/-- Index of the outermost DIE level.
DEDUCED: notes/assumptions/51. -/
def dieIndex : List Level → List Nat → Option Nat
  | l :: ls, i :: is => if l.kind = 2 then some i else dieIndex ls is
  | _, _ => none

/-- Die an iteration is mapped to, of the dies given; none where any die serves it (R289). -/
def spanDie (ls : List Level) (dies : List Nat) (v : List Nat) : Option Nat :=
  match dieIndex (spatial ls) v with
  | some d => if dies.isEmpty then none else dies[d % dies.length]?
  | none => none

/-- Most spans a gang or a pre-emption is counted to: one more than the device has cores. -/
def spanLimit : Nat := 385

/-! ## Caps and partitions (R289, R294, R295) -/

def Tenant.capOf (t : Tenant) (d : Nat) : Nat := Map.get 48 t.cap d
def Tenant.floorOf (t : Tenant) (d : Nat) : Nat := Map.get 0 t.floor d
def Tenant.wantOf (t : Tenant) (d : Nat) : Nat := Map.get 0 t.want d

/-- Cores of a tenant's partition on a die. -/
def State.owned (s : State) (t d : Nat) : Nat := ((s.partition t).filter (fun c => dieOf c = d)).length

/-- A core is free for a launch (R289): it holds no span and no suspended span, or it is lent to that launch. -/
def Core.freeFor (k : Core) (t lid : Nat) : Bool :=
  k.res.isNone && (decide (k.lent = some (t, lid)) || (decide (k.part = some t) && k.lent.isNone && k.sus.isNone))

/-- Free cores of a launch, ascending. -/
def State.freeCores (s : State) (t lid : Nat) : List Nat := (s.cores.filter (fun p => p.2.freeFor t lid)).map (fun p => p.1)

/-- Dies on which the launch's partition, with the cores lent to it, holds cores. -/
def State.partDies (s : State) (t lid : Nat) : List Nat :=
  (List.range 8).filter (fun d => s.cores.any (fun p => decide (dieOf p.1 = d) && (decide (p.2.part = some t) || decide (p.2.lent = some (t, lid)))))

/-- The dies a launch's DIE index selects among (R289). -/
def State.launchDies (s : State) (t lid : Nat) (l : Launch) : List Nat := if l.gang then l.dies else s.partDies t lid

/-- Give each iteration the lowest free core on its die: what was placed, and the dies of those that were not. -/
def assign : List Nat → List (Option Nat × List Nat) → List (Nat × List Nat) × List (Option Nat)
  | _, [] => ([], [])
  | free, (d, v) :: vs =>
    match free.find? (fun c => match d with | some x => decide (dieOf c = x) | none => true) with
    | some c => let r := assign (free.filter (fun k => k ≠ c)) vs; ((c, v) :: r.1, r.2)
    | none => let r := assign free vs; (r.1, d :: r.2)

/-- The iterations a launch has left, at most `spanLimit`, and where the walk of them stops. -/
def State.walkOf (s : State) (t : Nat) (l : Launch) : List (List Nat) × Option Nat :=
  spansFrom s t l.ptrPages (spatial l.levels) spanLimit l.pos

/-- The iterations a launch has left, with their dies. -/
def State.spansLeft (s : State) (t lid : Nat) (l : Launch) : List (Option Nat × List Nat) :=
  (s.walkOf t l).1.map (fun v => (spanDie l.levels (s.launchDies t lid l) v, v))

/-! ## The head of a queue (R285, R287, R288) -/

/-- The last row of R285. -/
def gangBounds (s : State) (t : Nat) (l : Launch) : Bool :=
  let v := s.tenant t
  let dies := (List.range 8).filter (fun d => v.capOf d ≠ 0)
  let spans := (s.walkOf t l).1
  dies.isEmpty
    || (if (spatial l.levels).any (fun k => k.kind = 2)
        then (List.range 8).any (fun d => decide (v.capOf d < (spans.filter (fun w => spanDie l.levels dies w = some d)).length))
        else decide (((List.range 8).map (fun d => v.capOf d)).sum < spans.length))

/-- R285: the launch as read, or the cause recorded. -/
def checkLaunch (s : State) (t : Nat) (l : Launch) : Except Nat Launch :=
  if l.lnr % 256 ≠ 0 then .error cXLATE
  else
    match translate s t l.lnr false with
    | .error e => .error e
    | .ok pa =>
      let d := lnrDwords s pa
      if lnrIllegal d then .error cILLEGAL
      else
        let l1 := parseLnr l d (Map.get 3 (s.tenant t).qcap l.queue)
        match pinPtrs s t (spatial l1.levels) 1 [] with
        | .error e => .error e
        | .ok pins =>
          if lnrQport d then .error cQPORT
          else
            match firstSpan s t pins (spatial l1.levels) 0 with
            | .error e => .error e
            | .ok v =>
              let l2 := { l1 with pos := v, ptrPages := pins, dies := (List.range 8).filter (fun k => (s.tenant t).capOf k ≠ 0) }
              if l2.gang && gangBounds s t l2 then .error cBOUNDS else .ok l2

def State.launch (s : State) (t lid : Nat) : Option Launch := Map.at? (s.tenant t).launches lid

def State.modLaunch (s : State) (t lid : Nat) (f : Launch → Launch) : State :=
  s.modTenant t (fun v => { v with launches := Map.modify v.launches lid f })

/-- The launch leaves its queue: the next one becomes the head. -/
def State.popLaunch (s : State) (t lid : Nat) : State :=
  s.modTenant t (fun v => { v with queues := v.queues.map (fun q => (q.1, q.2.filter (fun i => i ≠ lid))) })

/-- An iteration from a given one on (from the first where none is given), under index p, has an index of the outermost DIE
level that a predicate accepts: none before it in level order is looked at, and no limit is set. -/
def dieLeft (s : State) (t : Nat) (pins : Map Nat) (want : Nat → Bool) : List Level → Nat → Option (List Nat) → Bool
  | [], _, _ => false
  | l :: ls, p, pos =>
    match tripsOf s t pins l p with
    | .error _ => false
    | .ok n =>
      let first := (pos.bind List.head?).getD 0
      (rangeFrom first (n - first)).any (fun i =>
        let rest := if i = first then pos.map (fun v => v.drop 1) else none
        if l.kind = 2 then want i && (rest.isSome || (match firstSpan s t pins ls i with | .ok (some _) => true | _ => false))
        else dieLeft s t pins want ls i rest)

/-- The launch has a span left to place on a core of this die. -/
def State.placesOn (s : State) (t lid d : Nat) : Bool :=
  match s.launch t lid with
  | some l =>
    let dies := s.launchDies t lid l
    l.result.isNone && l.pos.isSome &&
      (!(spatial l.levels).any (fun k => decide (k.kind = 2)) || dies.isEmpty
        || dieLeft s t l.ptrPages (fun i => decide (dies[i % dies.length]? = some d)) (spatial l.levels) 0 l.pos)
  | none => false

/-- A loan ends when its launch has no span left to place there and the core holds no span (R295). -/
def State.endLoans (s : State) (t lid : Nat) : State :=
  { s with cores := s.cores.map (fun p =>
    (p.1, if p.2.res.isNone && decide (p.2.lent = some (t, lid)) && !s.placesOn t lid (dieOf p.1)
      then { p.2 with lent := none, freeAt := s.cycle } else p.2)) }

/-- The launch ends with a state, cause and tval, and hands out no further span. -/
def State.failLaunch (s : State) (t lid st cause : Nat) (tval : Dword) : State :=
  ((s.modLaunch t lid (fun l => { l with result := some (st, cause, tval) })).popLaunch t lid).endLoans t lid

/-- A launch error carries the LNR address (R292). -/
def State.launchError (s : State) (t lid cause : Nat) : State :=
  s.failLaunch t lid 2 cause (BitVec.ofNat 64 (match s.launch t lid with | some l => l.lnr | none => 0))

/-- A prerequisite: met, failed, or neither yet (R288). -/
def prereqMet (v : Tenant) (i : Nat) : Bool :=
  match Map.at? v.launches i with
  | some l => l.completed && (match l.result with | some r => decide (r.1 = 0) | none => false)
  | none => false

def prereqFailed (v : Tenant) (i : Nat) : Bool :=
  match Map.at? v.launches i with
  | some l => l.completed && (match l.result with | some r => decide (r.1 ≠ 0) | none => false)
  | none => false

/-- A checked head: its prerequisites fail it, or make it eligible; a launch without spans leaves its queue.
DEDUCED: notes/assumptions/53. -/
def State.settleHead (s : State) (t q : Nat) : State :=
  match (Map.get [] (s.tenant t).queues q).head? with
  | none => s
  | some lid =>
    match s.launch t lid with
    | none => s
    | some l =>
      if !l.checked then s
      else if l.prereqs.any (prereqFailed (s.tenant t)) then s.failLaunch t lid 3 0 0
      else if !l.prereqs.all (prereqMet (s.tenant t)) then s
      else if l.pos.isNone then s.popLaunch t lid
      else if l.elig.isNone then s.modLaunch t lid (fun m => { m with elig := some s.cycle })
      else s

/-- LAUNCH_HEAD_CHECK (R285, R288): the head is read and checked once, and then waits for its prerequisites. -/
def execLaunchHeadCheck (t q : Nat) (s : State) : Res :=
  .next (
    if s.devstat ≠ 4 || !s.powered then s
    else
      match (Map.get [] (s.tenant t).queues q).head? with
      | none => s
      | some lid =>
        match s.launch t lid with
        | none => s
        | some l =>
          if l.checked then s.settleHead t q
          else
            match checkLaunch s t l with
            | .error cause => s.launchError t lid cause
            | .ok l1 => (s.modLaunch t lid (fun _ => l1)).settleHead t q)

/-! ## Which launch next (R289, R290, R322) -/

/-- An eligible head launch. -/
structure Served where
  tenant : Nat
  queue : Nat
  lid : Nat
  l : Launch
deriving DecidableEq, Repr

/-- A launch of the queue holds its record back (R322). -/
def Tenant.holding (v : Tenant) (q : Nat) : Bool := v.launches.any (fun p => decide (p.2.queue = q) && p.2.completed && !p.2.written)

/-- The head of a queue, when it is eligible. -/
def State.eligible (s : State) (t q : Nat) : Option Served :=
  let v := s.tenant t
  match (Map.get [] v.queues q).head? with
  | none => none
  | some lid =>
    match Map.at? v.launches lid with
    | none => none
    | some l =>
      if s.devstat = 4 && s.powered && v.enabled && l.checked && l.elig.isSome && l.result.isNone && l.pos.isSome
          && !(l.gang && v.b0gang.isSome) && !v.holding q
      then some ⟨t, q, lid, l⟩ else none

/-- Tenants by falling deficit, the lower number first among equals. -/
def State.byDeficit (s : State) : List Nat :=
  (List.range Config.numTenants).insertionSort (fun a b =>
    (s.tenant b).deficit < (s.tenant a).deficit ∨ ((s.tenant a).deficit = (s.tenant b).deficit ∧ a ≤ b))

/-- Queues in round-robin order after the one last served. -/
def robin (last : Nat) : List Nat := (List.range 16).map (fun i => (last + 1 + i) % 16)

/-- Eligible launches in the walker's order. -/
def State.serving (s : State) : List Served :=
  let all := s.byDeficit.flatMap (fun t => (robin (s.tenant t).rrobin).filterMap (fun q => s.eligible t q))
  [3, 2, 1, 0].flatMap (fun k => all.filter (fun v => v.l.cls = k))

/-- A head launch that becomes eligible again is eligible from now on (R289): a gang at the release of its tenant's b0 (R290), and
one whose queue held a record back until now (R322). -/
def State.eligBack (s t : State) : State :=
  t.tenants.foldl (fun q k =>
    (List.range 16).foldl (fun r i => match t.eligible k.1 i with
      | some v => if (s.eligible k.1 i).any (fun o => decide (o.lid = v.lid)) then r
          else r.modLaunch k.1 v.lid (fun l => { l with elig := some t.cycle })
      | none => r) q) t

/-- Another launch may have come to the front of the walker's order: the span it hands out next is assigned its core from
now on (R289). -/
def State.frontMoved (s t : State) : State :=
  let front := fun (u : State) => u.serving.head?.map (fun v => (v.tenant, v.lid))
  let u := s.eligBack t
  if front s = front u then u else { u with served := u.cycle }

/-! ## Handing out spans (R289, R290) -/

/-- How the current format entry is chosen (R84). -/
def fmtSelOf (l : Launch) (v : List Nat) : FmtSel :=
  if !l.fmten then .none
  else
    let before := l.levels.take l.fmtlvl
    match l.levels[l.fmtlvl]? with
    | none => .none
    | some k =>
      if k.kind = 0 then .loop (before.filter (fun m => m.kind = 0)).length
      else .fixed (v.getD (before.filter (fun m => m.kind ≠ 0)).length 0)

/-- The sequencers of a core as the next span finds them: nothing under them is its own, and their numbers go on (R219). -/
def Core.seqCounts (k : Core) : Map Seqr :=
  let held := k.seqs.map (fun q => (q.1, q.2.count)) ++ (match k.sus with | some y => y.seqrs.map (fun q => (q.1, q.2.count)) | none => [])
  held.foldl (fun m q => let n := Max.max (Map.get {} m q.1).count q.2; Map.ins m q.1 { count := n, base := n }) []

/-- A span's context at its start (R90, R289). An index above 65,535 stands modulo 65,536, as the image holds it (R310).
DESIGN CHOICE: notes/assumptions/110. -/
def startCtx (s : State) (c t lid : Nat) (l : Launch) (v : List Nat) (spanid : Nat) : Ctx :=
  let k := s.core c
  { uid := k.nextUid, tenant := t, lid := lid, lnr := l.lnr, spanid := spanid, cls := l.cls, gang := l.gang
    ix := (v.zipIdx.map (fun p => (p.2, p.1 % 65536))).filter (fun p => p.2 ≠ 0)
    pc := l.entry
    chdecl := l.chans
    seqrs := k.seqCounts
    sticky := Map.get 0 k.kept t
    fmtTab := l.fmts, fmtSel := fmtSelOf l v
    useTiles := l.tiles, useSpad := l.spad, budget := l.budget, started := s.cycle }

/-- Units the incoming span needs, by its LNR; the accumulators too where its kernel contains an M word (R267). -/
def neededUnits (s : State) (t : Nat) (l : Launch) : List Nat :=
  List.range l.tiles ++ (List.range (ceilDiv l.spad 64)).map (fun b => 80 + b) ++ (if l.hasM s t then (List.range 16).map (fun i => 64 + i) else [])

/-- Units to spill when a span takes a core that holds a suspended one: those live for it and needed by the incoming span
(R267, R312). -/
def toSpill (s : State) (c t : Nat) (l : Launch) : List Nat :=
  match (s.core c).sus with
  | none => []
  | some y => (liveUnits s c y).filter (fun u => decide (u ∈ neededUnits s t l))

/-- The units to spill are the suspended context's: one without an owner, which holds zeros, or of another tenant's ended
span becomes so first. -/
def State.claimSpill (s : State) (c : Nat) (us : List Nat) : State :=
  match (s.core c).sus with
  | none => s
  | some y => touchUnits s c { tenant := y.tenant, sus := true } (us.filter (fun u => decide (u ∉ (s.core c).savedOf y.tenant)))

/-- The span starts on the core; from its launch's first span on, fetch sees the code as it stands then (R31). -/
def startSpan (s : State) (c t lid : Nat) (l : Launch) (v : List Nat) (spanid : Nat) : State :=
  let us := toSpill s c t l
  let s1 := (s.claimSpill c us).modCore c (fun k => { k with
    res := some (startCtx s c t lid l v spanid)
    ended := none
    nextUid := k.nextUid + 1
    kept := Map.del k.kept t
    spilling := us.filter (fun u => (Map.at? k.owner u).any (fun o => o.sus)) })
  s1.modLaunch t lid (fun m => { m with code := some (m.code.getD s.mem) })

/-- The launch at the front ends with an error, and the next one comes to the front. -/
def State.frontError (s : State) (t lid cause : Nat) : State := { s.launchError t lid cause with served := s.cycle }

/-- The launch has handed out one more span; after the last it leaves its queue. -/
def State.advance (s : State) (t lid : Nat) (l : Launch) (v : List Nat) : State :=
  let s1 := s.modLaunch t lid (fun m => { m with nextSpan := m.nextSpan + 1, live := m.live + 1 })
  match nextSpan s t l.ptrPages (spatial l.levels) 0 v with
  | .error cause => s1.frontError t lid cause
  | .ok none => ((s1.modLaunch t lid (fun m => { m with pos := none })).popLaunch t lid).endLoans t lid
  | .ok w => (s1.modLaunch t lid (fun m => { m with pos := w })).endLoans t lid

/-- The cycle from which a hand-off to a core takes its time: the later of its becoming free and the launch's eligibility. -/
def readyAt (s : State) (l : Launch) (c : Nat) : Nat := Max.max (s.core c).freeAt (l.elig.getD 0)

/-- The cycle at which the next span was assigned a core: that one, or the later one at which the span came to the front. -/
def assignedAt (s : State) (l : Launch) (c : Nat) : Nat := Max.max (readyAt s l c) s.served

/-- The first core assigned among those given; the lowest-numbered among equals: of those free when the span came to the
front, the lowest-numbered. -/
def firstAssigned (s : State) (l : Launch) : List Nat → Option Nat
  | [] => none
  | c :: cs =>
    match firstAssigned s l cs with
    | none => some c
    | some k => if assignedAt s l k < assignedAt s l c then some k else some c

/-- The core the next span of a launch goes to.
DEDUCED: notes/assumptions/52. -/
def State.nextCore (s : State) (v : Served) (pos : List Nat) : Option Nat :=
  let d := spanDie v.l.levels (s.launchDies v.tenant v.lid v.l) pos
  firstAssigned s v.l ((s.freeCores v.tenant v.lid).filter (fun c => match d with | some x => decide (dieOf c = x) | none => true))

/-- A declared channel's peer holds no span of the gang. -/
def peerMissing (l : Launch) (cores : List Nat) : Bool :=
  cores.any (fun c => l.chans.any (fun p => !(cores.any (fun k => decide ((k : Int) = (c : Int) + p.2.1)))))

/-- Every span of a gang with its core, when all of them fit. -/
def State.gangCores (s : State) (v : Served) : Option (List (Nat × List Nat)) :=
  let r := assign (s.freeCores v.tenant v.lid) (s.spansLeft v.tenant v.lid v.l)
  if r.2.isEmpty && !r.1.isEmpty then some r.1 else none

/-- Bits of a participant set. -/
def partBits (cores : List Nat) : BitVec 384 := cores.foldl (fun b c => b ||| (1#384 <<< c)) 0

/-- GANG_PLACEMENT (R290): every span is placed, and then b0 is configured. -/
def placeGang (s : State) (v : Served) (cs : List (Nat × List Nat)) : State :=
  if peerMissing v.l (cs.map (fun p => p.1)) then s.frontError v.tenant v.lid cQPORT
  else
    let s1 := cs.zipIdx.foldl (fun q p => startSpan q p.1.1 v.tenant v.lid v.l p.1.2 p.2) s
    let s2 := s1.modLaunch v.tenant v.lid (fun m => { m with pos := none, nextSpan := cs.length, live := cs.length })
    let s3 := s2.modTenant v.tenant (fun t => { t with
      b0gang := some v.lid
      bars := Map.ins t.bars 0 { parts := partBits (cs.map (fun p => p.1)), conf := true } })
    (s3.popLaunch v.tenant v.lid).endLoans v.tenant v.lid

/-- The launch served first, and the core whose hand-off is next, with the cycle at which it may happen. -/
def State.handoff (s : State) : Option (Served × Nat × Nat) :=
  match s.serving with
  | [] => none
  | v :: _ =>
    if v.l.gang then
      match s.gangCores v with
      | none => none
      | some cs => some (v, (cs.map (fun p => p.1)).headD 0, (cs.map (fun p => readyAt s v.l p.1)).foldl Max.max 0 + 64)
    else
      match v.l.pos with
      | none => none
      | some p =>
        match s.nextCore v p with
        | none => none
        | some c => some (v, c, readyAt s v.l c + 64)

/-- The gang served first meets a row-pointer page that no longer translates (R286). -/
def State.walkError (s : State) : Option (Served × Nat) :=
  match s.serving with
  | [] => none
  | v :: _ =>
    if v.l.gang then (s.walkOf v.tenant v.l).2.map (fun e => (v, e)) else none

/-- A hand-off that is due on a core. -/
def State.handOver (s : State) (c : Nat) : State :=
  match s.handoff with
  | none => s
  | some (v, k, due) =>
    if k ≠ c || s.cycle < due then s
    else
      let s1 := { s.modTenant v.tenant (fun t => { t with rrobin := v.queue }) with served := assignedAt s v.l k }
      if v.l.gang then
        match s.gangCores v with
        | none => s
        | some cs => placeGang { s1 with served := (cs.map (fun p => assignedAt s v.l p.1)).foldl Max.max s.served } v cs
      else
        match v.l.pos with
        | none => s
        | some p => (startSpan s1 c v.tenant v.lid v.l p v.l.nextSpan).advance v.tenant v.lid v.l p

/-- SPAN_HANDOFF (R286, R287, R289, R290): 64 cycles after the core became free or the launch eligible. A launch that finds no
free core keeps every launch behind it waiting. -/
def execSpanHandoff (c : Nat) (s : State) : Res :=
  .next (match s.walkError with
    | some (v, e) => s.frontError v.tenant v.lid e
    | none => s.handOver c)

/-! ## Needing a die, and borders (R294) -/

/-- The dies a launch needs. -/
def State.needs (s : State) (v : Served) : List Nat :=
  let left := s.spansLeft v.tenant v.lid v.l
  let miss := (assign (s.freeCores v.tenant v.lid) (if v.l.gang then left else left.take 1)).2
  if miss.any (fun d => d.isNone) then List.range 8 else (miss.filterMap id).dedup

/-- Pairs of a tenant and a die that an eligible launch of it needs. -/
def State.needMap (s : State) : List (Nat × Nat) := s.serving.flatMap (fun v => (s.needs v).map (fun d => (v.tenant, d)))

/-- The border at a core that holds no span (R294): it stays, or passes to the tenant with the largest deficit. -/
def State.moveBorder (s : State) (need : List (Nat × Nat)) (c : Nat) : State :=
  let k := s.core c
  let d := dieOf c
  if k.res.isSome || k.sus.isSome || k.lent.isSome then s
  else
    let stays := match k.part with
      | some t => decide (s.owned t d ≤ (s.tenant t).wantOf d) && decide ((t, d) ∈ need)
      | none => false
    if stays then s
    else
      match s.byDeficit.find? (fun t => decide (k.part ≠ some t) && decide ((t, d) ∈ need) && decide (s.owned t d < (s.tenant t).wantOf d)) with
      | none => s
      | some t => s.setCore c { k with part := some t, freeAt := s.cycle }

/-! ## The end of a span (R107, R110, R219) -/

/-- Statuses a context's sequencers hold. -/
def Ctx.statuses (x : Ctx) : List (Nat × Nat × Nat × Dword) :=
  x.seqrs.filterMap (fun q => q.2.status.map (fun v => (v.1, x.spanid, v.2.1, v.2.2)))

/-- Lines its sequencers' operations wrote. -/
def Ctx.lines (x : Ctx) : List Nat := x.seqrs.flatMap (fun q => q.2.lines.map (fun l => l.2))

/-- The record of an unhandled trap: the lowest span's (R292, R299). -/
def lowestTrap (old : Option (Nat × Nat × Dword)) (spanid : Nat) (d : Option (Nat × Dword)) : Option (Nat × Nat × Dword) :=
  match d, old with
  | none, _ => old
  | some v, none => some (spanid, v.1, v.2)
  | some v, some o => if spanid < o.1 then some (spanid, v.1, v.2) else some o

/-- What the ended span leaves with its launch. -/
def Launch.spanEnded (l : Launch) (x : Ctx) : Launch :=
  { l with live := l.live - 1, statuses := l.statuses ++ x.statuses, lines := l.lines ++ x.lines, mword := l.mword || x.mword
           trapRec := lowestTrap l.trapRec x.spanid x.dead0 }

/-- The element has been produced, with a value or an error. -/
def Elem.produced (e : Elem) : Bool := e.val.isSome || e.err.isSome

/-- TOKLEFT and Q6LEFT as this end sets them (R110): q6 counts where it holds an element, and one that is produced after `end`
sets none (R107).
DEDUCED: notes/assumptions/54. -/
def endBits (toks : Nat) (q6 : Bool) : BitVec 11 :=
  (if toks = 0 then 0 else 1#11 <<< stTOKLEFT) ||| (if q6 then 1#11 <<< stQ6LEFT else 0)

/-- What the core keeps of the sequencers of an ended span (R219): their numbers, the operations still in flight, the lines
they wrote and how far they were ordered at system scope. -/
def keepSeqrs (old : Map Seqr) (x : Ctx) : Map Seqr :=
  x.seqrs.foldl (fun m q =>
    let o := Map.get {} m q.1
    Map.ins m q.1 { count := Max.max o.count q.2.count, sysMark := Max.max o.sysMark q.2.sysMark
                    opened := (o.opened ++ q.2.opened).dedup, lines := (o.lines ++ q.2.lines).dedup }) old

/-- The context as its end leaves it in the core's registers until the next span starts (R107): no token, no q6 element, no
active loop level, no handle but h0. -/
def Ctx.closed (x : Ctx) : Ctx :=
  { x with tok := [], q6 := [], loops := [], hnd := [(0, 0)], qs := [], fly := [], grp := {}, held := {}, stall := .none }

/-- The gang's last span has ended: b0 is released (R290). -/
def Tenant.releaseB0 (v : Tenant) (lid : Nat) : Tenant :=
  match v.b0gang, Map.at? v.launches lid with
  | some g, some l => if g = lid && l.live = 0 then { v with b0gang := none } else v
  | _, _ => v

/-- Tokens `end` itself signals: pushed after it has completed, they are discarded and counted (R107). -/
def Ctx.endTokens (x : Ctx) : Nat := ((x.fly.filter QWord.isEnd).map (fun w => (maskList w.pfx.signal).length)).sum

/-- `end` has been captured, no queue holds a word, and every other started word has finished. -/
def Ctx.endReady (x : Ctx) : Bool := x.ending && ({ x with fly := x.fly.filter (fun w => !w.isEnd) } : Ctx).quiet

/-- A command of the context has a packet that has not left the core: it has not issued its last block (R107, R260). -/
def State.unissued (s : State) (c : Nat) (x : Ctx) : Bool :=
  s.net.any (fun p => decide (p.2.st = PSt.held) && decide (p.2.src = Leaf.core c) &&
    (match Map.at? s.cmds p.2.cmd with | some m => decide (m.uid = x.uid) && decide (m.core = c) | none => false))

/-- The effects of a span's end on its core. Late tokens set no sticky bit; they are counted when they would be pushed.
The bits kept for the tenant's next span are those set here.
DEDUCED: notes/assumptions/21, 54. -/
def State.endSpan (s : State) (c : Nat) (x : Ctx) : State :=
  let toks := x.tokensDue
  let k := s.core c
  let k1 := { k with
    res := none
    ended := some x.closed
    kept := Map.put 0 k.kept x.tenant (endBits toks (x.q6.any Elem.produced))
    seqs := keepSeqrs k.seqs x
    lent := if k.quiesce.isSome then k.quiesce else k.lent
    quiesce := none
    freeAt := s.cycle }
  let s0 := (x.unsignalled true).foldl (fun q w => q.lateTokens c x.uid w.seq (maskList w.pfx.signal).length) (s.setCore c k1)
  let s1 := (s0.count c evTOKLEFT (toks + x.endTokens)).count c evSPAN 1
  let s2 := (s1.modLaunch x.tenant x.lid (fun l => l.spanEnded x)).modTenant x.tenant (fun v => v.releaseB0 x.lid)
  match k1.lent with
  | some (t, lid) => s2.endLoans t lid
  | none => s2.moveBorder s2.needMap c

/-- SPAN_END_COMPLETE (R107): when no queue holds a word and every started word has finished, X commands that have
issued apart. A gang's last span releases b0 (R290). -/
def execSpanEndComplete (c : Nat) (s : State) : Res :=
  .next (match s.ctx c with
    | none => s
    | some x => if s.powered && x.endReady && !s.unissued c x then s.frontMoved (s.endSpan c x) else s)

/-! ## Completion (R288, R292, R322, R328) -/

/-- Entries of a completion ring. -/
def cqEntries (v : Tenant) (q : Nat) : Nat := 2 ^ (bits (Map.get 0 v.cqbase q).toNat 0 4 + 4)

def cqFull (v : Tenant) (q : Nat) : Bool :=
  decide ((Map.get 0 v.cqtail q + 2 ^ 32 - Map.get 0 v.cqhead q) % 2 ^ 32 = cqEntries v q)

/-- Write a 64-bit word to host memory. -/
def State.hostWrite (s : State) (a : Nat) (v : Dword) : State := { s with hostMem := Map.ins s.hostMem a v }

/-- The completion record of R292. -/
def recordW0 (lid st cause : Nat) : Dword := BitVec.ofNat 64 (lid % 2 ^ 32 + 2 ^ 32 * st + 2 ^ 40 * cause)

/-- Write the record of a completed launch, where its ring has room. -/
def State.writeRecord (s : State) (t lid : Nat) : State :=
  match s.launch t lid with
  | none => s
  | some l =>
    let v := s.tenant t
    if cqFull v l.queue then s
    else
      let r := l.result.getD (0, 0, 0)
      let tail := Map.get 0 v.cqtail l.queue
      let a := (Map.get 0 v.cqbase l.queue).toNat / 4096 * 4096 + 16 * (tail % cqEntries v l.queue)
      let s1 := (s.hostWrite a (recordW0 lid r.1 r.2.1)).hostWrite (a + 8) r.2.2
      let s2 := s1.modTenant t (fun w => { w with cqtail := Map.put 0 w.cqtail l.queue ((tail + 1) % 2 ^ 32) })
      (s2.modLaunch t lid (fun m => { m with written := true })).msixRaise t l.queue

/-- The highest-ranked status, the lowest span's among equals.
DEDUCED: notes/assumptions/54. -/
def worstOf : List (Nat × Nat × Nat × Dword) → Option (Nat × Nat × Nat × Dword)
  | [] => none
  | v :: vs =>
    match worstOf vs with
    | none => some v
    | some u => if u.1 < v.1 || (u.1 = v.1 && u.2.1 < v.2.1) then some u else some v

/-- State, cause and tval of a launch whose spans have ended. -/
def Launch.outcome (l : Launch) : Nat × Nat × Dword :=
  match l.result with
  | some r => r
  | none =>
    match l.trapRec with
    | some t => (1, t.2.1, t.2.2)
    | none =>
      match worstOf l.statuses with
      | some v => (1, v.2.2.1, v.2.2.2)
      | none => (0, 0, 0)

/-- Every span has ended, and every command they issued has finished. -/
def State.launchOver (s : State) (t lid : Nat) (l : Launch) : Bool :=
  !((Map.get [] (s.tenant t).queues l.queue).contains lid) && l.live = 0
    && !(s.cmds.any (fun m => decide (m.2.tenant = t) && decide (m.2.lid = lid)))

/-- Every head of the tenant is looked at again. -/
def State.settleHeads (s : State) (t : Nat) : State := (List.range 16).foldl (fun q k => q.settleHead t k) s

/-- LAUNCH_COMPLETE (R288, R292): once every write is visible at system scope, as the tenant's cap has it. A record that finds
its ring full keeps the queue's next launch from being served (R322). -/
def execLaunchComplete (t lid : Nat) (s : State) : Res :=
  .next (match s.launch t lid with
    | none => s
    | some l =>
      if l.written || !s.powered then s
      else if l.completed then s.frontMoved (s.writeRecord t lid)
      else if !s.launchOver t lid l then s
      else if capScope (s.tenant t).scap 5 = 5 && l.lines.any s.snoop.contains then
        { s with recalls := (s.recalls ++ l.lines.filter s.snoop.contains).dedup }
      else s.frontMoved (((s.modLaunch t lid (fun m => { m with result := some m.outcome, completed := true })).writeRecord t lid).settleHeads t))

/-! ## Barriers (R228, R264) -/

/-- Cycles from the last arrival to the completed phase: 32 within a die, 80 across the package. -/
def Bar.delay (b : Bar) : Nat := if ((b.cores.map dieOf).dedup).length ≤ 1 then 32 else 80

/-- BARRIER_PHASE_COMPLETE (R228, R264). -/
def execBarrierPhaseComplete (t tag : Nat) (s : State) : Res :=
  .next (
    let b := (s.tenant t).bar tag
    match b.full with
    | none => s
    | some t0 =>
      if s.cycle < t0 + b.delay then s
      else s.modTenant t (fun v => { v with bars := Map.ins v.bars tag { b with done := b.done + 1, full := none } }))

end Sys2Proof.Machine
end

