-- ==== Sys2Proof/Machine/Fair.lean ====
section
/-! DEFINITION. The fair-share controller, pre-emption, and the saving and resuming of a span (22_scheduling R294-R297;
23_traps_and_context R309-R312). -/

namespace Sys2Proof.Machine

/-! ## Deficits and wanted cores (R294) -/

/-- Tenants with a resident or suspended span, or an eligible head launch. -/
def State.active (s : State) : List Nat :=
  (List.range Config.numTenants).filter (fun t =>
    s.cores.any (fun p => decide (p.2.res.map Ctx.tenant = some t) || decide (p.2.sus.map Ctx.tenant = some t))
      || (List.range 16).any (fun q => (s.eligible t q).isSome))

/-- Effective weight: 1 for every active tenant when their weights sum to 0. -/
def State.weightOf (s : State) (act : List Nat) (t : Nat) : Nat :=
  if (act.map (fun u => (s.tenant u).weight)).sum = 0 then 1 else (s.tenant t).weight

def State.weightSum (s : State) (act : List Nat) : Nat := (act.map (s.weightOf act)).sum

/-- A value between two bounds; the upper one holds where they cross. -/
def between (v lo hi : Int) : Int := Min.min (Max.max v lo) hi

/-- The deficit after a period. -/
def newDeficit (old : Int) (ew total used : Nat) : Int :=
  between (old + ((4096 * 384 * ew / total : Nat) : Int) - (used : Int)) (-(2 ^ 40)) (2 ^ 40)

/-- Deficits at a controller run; the period's use is spent. -/
def State.settleDeficits (s : State) (act : List Nat) : State :=
  { s with tenants := s.tenants.map (fun p =>
      (p.1, { p.2 with
        deficit := if p.1 ∈ act then newDeficit p.2.deficit (s.weightOf act p.1) (s.weightSum act) p.2.used else 0
        used := 0
        want := [] })) }

/-- Rounds that give one leftover core each to tenants below their cap, in the order given. -/
def leftoverRounds (order : List Nat) (cap : Nat → Nat) : Nat → Nat → Map Nat → Map Nat
  | 0, _, w => w
  | f + 1, left, w =>
    let rx := (order.filter (fun t => decide (Map.get 0 w t < cap t))).take left
    if rx.isEmpty then w
    else leftoverRounds order cap f (left - rx.length) (rx.foldl (fun m t => Map.ins m t (Map.get 0 m t + 1)) w)

/-- Cores wanted on a die, by tenant. -/
def State.wanted (s : State) (act : List Nat) (d : Nat) : Map Nat :=
  let total := s.weightSum act
  let base : Map Nat := act.map (fun t =>
    (t, Min.min (Max.max (48 * s.weightOf act t / total) ((s.tenant t).floorOf d)) ((s.tenant t).capOf d)))
  leftoverRounds (s.byDeficit.filter (fun t => decide (t ∈ act))) (fun t => (s.tenant t).capOf d) 48
    (48 - (base.map (fun p => p.2)).sum) base

/-- Keep the wanted counts of a die with their tenants. -/
def State.setWants (s : State) (act : List Nat) (d : Nat) : State :=
  (s.wanted act d).foldl (fun q p => q.modTenant p.1 (fun t => { t with want := Map.ins t.want d p.2 })) s

/-! ## Pre-emption (R295) -/

/-- Cores a tenant holds on a die: its partition's, and others lent to it or quiescing for it. -/
def State.holds (s : State) (t d : Nat) : Nat :=
  s.owned t d + (s.cores.filter (fun p => decide (dieOf p.1 = d) && decide (p.2.part ≠ some t)
    && (decide (p.2.lent.map Prod.fst = some t) || decide (p.2.quiesce.map Prod.fst = some t)))).length

/-- The tenant's cap lets it hold a core of another. -/
def State.mayHold (s : State) (t c : Nat) : Bool :=
  decide ((s.core c).part = some t) || decide (s.holds t (dieOf c) < (s.tenant t).capOf (dieOf c))

/-- Tenants by falling surplus, the lower number first among equals. -/
def State.bySurplus (s : State) : List Nat :=
  (List.range Config.numTenants).insertionSort (fun a b =>
    (s.tenant a).deficit < (s.tenant b).deficit ∨ ((s.tenant a).deficit = (s.tenant b).deficit ∧ a ≤ b))

/-- A resident span that an urgent launch may pre-empt. -/
def Core.victim (k : Core) (t : Nat) : Bool :=
  match k.res with
  | some x => decide (x.tenant = t) && decide (x.cls < 3) && k.quiesce.isNone && k.lent.isNone
  | none => false

/-- Candidates on the needed dies, in the order of victims. -/
def State.victims (s : State) (dies : List Nat) : List Nat :=
  s.bySurplus.flatMap (fun t => ((s.cores.filter (fun p => p.2.victim t && decide (dieOf p.1 ∈ dies))).map (fun p => p.1)).reverse)

/-- The cores a victim takes with it: every resident span of its gang. -/
def State.victimGroup (s : State) (c : Nat) : List Nat :=
  match s.ctx c with
  | none => []
  | some x =>
    if x.gang then (s.cores.filter (fun p => p.2.quiesce.isNone && (match p.2.res with
      | some y => decide (y.tenant = x.tenant) && decide (y.lid = x.lid)
      | none => false))).map (fun p => p.1)
    else [c]

/-- A missing place that a core of this die fills. -/
def fits (c : Nat) (m : Option Nat) : Bool := match m with | none => true | some d => decide (dieOf c = d)

/-- Take victims in order until nothing is missing. -/
def takeVictims (t lid : Nat) : List Nat → State → List (Option Nat) → State
  | [], s, _ => s
  | c :: cs, s, miss =>
    if (s.core c).quiesce.isSome || !miss.any (fits c) || !s.mayHold t c then takeVictims t lid cs s miss
    else
      let group := s.victimGroup c
      takeVictims t lid cs (group.foldl (fun q k => q.modCore k (fun r => { r with quiesce := some (t, lid) })) s)
        (group.foldl (fun m k => m.eraseP (fits k)) miss)

/-- URGENT_PREEMPTION for one launch: it counts on its free cores and on those already quiescing for it.
DEDUCED: notes/assumptions/56. -/
def State.preemptFor (s : State) (v : Served) : State :=
  let dies := s.needs v
  if v.l.cls ≠ 3 || dies.isEmpty then s
  else
    let pool := (s.cores.filter (fun p => p.2.freeFor v.tenant v.lid || decide (p.2.quiesce = some (v.tenant, v.lid)))).map (fun p => p.1)
    let miss := (assign pool (s.spansLeft v.tenant v.lid v.l)).2.filter (fun m => match m with | none => true | some d => decide (d ∈ dies))
    takeVictims v.tenant v.lid (s.victims dies) s miss

/-! ## The forecast (R297) -/

/-- The horizon of the forecast, in cycles. -/
def horizon : Nat := 4000

/-- The span's budget says that it ends within the horizon. -/
def Ctx.endsSoon (x : Ctx) (now : Nat) : Bool := decide (x.budget ≠ 0) && decide (x.started + x.budget ≤ now + horizon)

/-- Cores a launch could take within the horizon: those free for it, and those whose span ends by then. -/
def State.coresSoon (s : State) (t lid : Nat) : List Nat :=
  (s.cores.filter (fun p => (match p.2.res with
    | some x => { p.2 with res := if x.endsSoon s.cycle then none else p.2.res }
    | none => p.2).freeFor t lid)).map (fun p => p.1)

/-- Places of a queue after the one that its tenant's walker served last. -/
def robinDistance (last queue : Nat) : Nat := (queue + 31 - last) % 16

/-- A launch with the spans it has left to place, each with its die. -/
abbrev Plan := Served × List (Option Nat × List Nat)

/-- The launch served first of some in the walker's order, whose tenants' round robin has gone on since (R289). -/
def planFront (last : Nat → Nat) : List Plan → Option Plan
  | [] => none
  | v :: vs => some (vs.foldl (fun a b =>
      if b.1.tenant = v.1.tenant && b.1.l.cls = v.1.l.cls
          && decide (robinDistance (last b.1.tenant) b.1.queue < robinDistance (last a.1.tenant) a.1.queue) then b else a) v)

/-- Cores that launches take beside those used, span by span in the walker's order: what waits for a core keeps everything
behind it waiting (R289); a gang takes its cores at once and keeps its tenant's other gangs out (R290). The fuel is the number of
hand-offs there can be. -/
def State.planFrom (s : State) : Nat → (Nat → Nat) → List Plan → List Nat → List Nat
  | 0, _, _, used => used
  | n + 1, last, vs, used =>
    match planFront last vs with
    | none => used
    | some (v, left) =>
      let same := fun (p : Plan) => decide (p.1.tenant = v.tenant) && decide (p.1.lid = v.lid)
      let r := assign ((s.coresSoon v.tenant v.lid).filter (fun c => decide (c ∉ used))) (if v.l.gang then left else left.take 1)
      if !r.2.isEmpty then used
      else
        let rest := vs.filterMap (fun p =>
          if !same p then (if v.l.gang && p.1.l.gang && decide (p.1.tenant = v.tenant) then none else some p)
          else if v.l.gang || left.length ≤ 1 then none else some (p.1, left.drop 1))
        s.planFrom n (fun t => if t = v.tenant then v.queue else last t) rest (used ++ r.1.map (fun p => p.1))

/-- Cores the walker would hand spans to within the horizon. -/
def State.planned (s : State) : List Nat :=
  let vs := s.serving.map (fun v => (v, s.spansLeft v.tenant v.lid v.l))
  s.planFrom ((vs.map (fun p => p.2.length)).sum + vs.length) (fun t => (s.tenant t).rrobin) vs []

/-- The register of a die.
DESIGN CHOICE: notes/assumptions/5; DEDUCED: notes/assumptions/57. -/
def State.forecastOf (s : State) (runs d : Nat) : Dword :=
  let here := (s.cores.filter (fun p => decide (dieOf p.1 = d))).filterMap (fun p => p.2.res)
  let now := here.length
  let p := (s.planned.filter (fun c => dieOf c = d)).length
  let e := (here.filter (fun x => x.endsSoon s.cycle)).length
  BitVec.ofNat 64 (now + 2 ^ 8 * Min.min 48 (now + p - e) + 2 ^ 32 * (runs % 2 ^ 32))

/-- CONTROLLER_PERIOD (R294, R295, R297): at every 4,096th cycle; borders first, then pre-emption for what still cannot
be placed, then the forecast.
DEDUCED: notes/assumptions/55. -/
def execControllerPeriod (s : State) : Res :=
  .next (
    if s.cycle < Config.period * (s.ctlRuns + 1) || !s.powered then s
    else
      let act := s.active
      let s1 := s.frontMoved ((List.range 8).foldl (fun q d => q.setWants act d) (s.settleDeficits act))
      let need := s1.needMap
      let s2 := (List.range Config.numCores).foldl (fun q c => q.moveBorder need c) s1
      let s3 := s2.serving.foldl (fun q v => q.preemptFor v) s2
      { s3 with ctlRuns := s.ctlRuns + 1
                forecast := (List.range 8).map (fun d => (d, s3.forecastOf (s.ctlRuns + 1) d)) })

/-! ## Saving (R309-R311) -/

/-- A stall's clock as cycles waited, and back (R235: cycles while not resident do not count). -/
def Stall.turn (st : Stall) (now : Nat) : Stall :=
  match st with
  | .full n => .full (now - n)
  | .q6 n => .q6 (now - n)
  | .chan p i n => .chan p i (now - n)
  | o => o

/-- The context as the image holds it: waiting words are unstarted again, with their tokens (R311 step 2). -/
def Ctx.stopped (x : Ctx) (now : Nat) (kinds : List Nat) : Ctx :=
  let waiters := x.fly.filter (fun w => w.waiting)
  { x with
    qs := (waiters.map (fun w => { w with waiting := false })).foldl (fun l w => insertSeq w l) x.qs
    tok := waiters.foldl returnTokens x.tok
    fly := x.fly.filter (fun w => !w.waiting)
    grp := {}
    stall := x.stall.turn now
    kinds := kinds
    started := now - x.started }

/-- Started V, M, K and S words have completed, and no word is between two of its row accesses (R311 step 2). -/
def Ctx.settled (x : Ctx) : Bool :=
  !x.midRows && x.fly.all (fun w => w.finished || w.waiting || w.eng == Engine.x || w.eng == Engine.y)

/-- Units of a tenant's resident context become its suspended one's, or the other way about. -/
def turnOwners (m : Map Owner) (t : Nat) (sus : Bool) : Map Owner :=
  m.map (fun p => if p.2 = { tenant := t, sus := !sus } then (p.1, { tenant := t, sus := sus }) else p)

/-- The image is written and the core lent (R295, R311 steps 3 and 4); its spill map shows what the tenant has in the slot.
DEDUCED: notes/assumptions/46. -/
def State.saveSpan (s : State) (c : Nat) (x : Ctx) (q : Nat × Nat) : State :=
  let y := x.stopped s.cycle (s.core c).accInt
  let a := slotOf s x.tenant c
  let s1 := writeImage s c y (fun n => (csrRead s c y n).toNat) y.pc ((s.core c).savedOf x.tenant) a
  let s2 := { s1 with images := Map.ins s1.images a y }
  let s3 := s2.modCore c (fun k => { k with
    res := none
    sus := some y
    quiesce := none
    lent := some q
    freeAt := s.cycle
    owner := turnOwners k.owner x.tenant true })
  let s4 := (((s3.count c evPREEMPT 1).modTenant x.tenant (fun t => { t with preempts := t.preempts + 1 })).use x.tenant 17 1).modLaunch
    x.tenant x.lid (fun l => { l with mword := l.mword || x.mword })
  s4.endLoans q.1 q.2

/-- IMMEDIATE_SAVE (R310, R311). -/
def execImmediateSave (c : Nat) (s : State) : Res :=
  .next (match s.ctx c, (s.core c).quiesce with
    | some x, some q => if s.powered && x.settled then s.saveSpan c x q else s
    | _, _ => s)

/-! ## Resuming (R295, R311, R312) -/

/-- An eligible launch of a higher class needs the core. -/
def State.neededAbove (s : State) (c cls : Nat) : Bool :=
  s.serving.any (fun v => decide (cls < v.l.cls) && decide (dieOf c ∈ s.needs v)
    && (decide ((s.core c).part = some v.tenant) || (decide (v.l.cls = 3) && s.mayHold v.tenant c)))

/-- The core holds a suspended span that may resume, for its own part. -/
def State.mayResume (s : State) (c : Nat) : Bool :=
  let k := s.core c
  match k.sus with
  | some y => k.res.isNone && k.lent.isNone && k.quiesce.isNone && !s.neededAbove c y.cls
  | none => false

/-- Cores that resume together: those of a gang.
DEDUCED: notes/assumptions/58. -/
def State.resumeGroup (s : State) (c : Nat) (y : Ctx) : List Nat :=
  if y.gang then (s.cores.filter (fun p => match p.2.sus with
    | some z => decide (z.tenant = y.tenant) && decide (z.lid = y.lid)
    | none => false)).map (fun p => p.1)
  else [c]

/-- A span of the gang still quiesces. -/
def State.gangQuiescing (s : State) (y : Ctx) : Bool :=
  y.gang && s.cores.any (fun p => p.2.quiesce.isSome && (match p.2.res with
    | some z => decide (z.tenant = y.tenant) && decide (z.lid = y.lid)
    | none => false))

/-- Units an ended urgent span of the same tenant left, of which the suspended context has a saved copy, are let go. -/
def Core.dropLeft (k : Core) (t : Nat) : Core :=
  let us := (k.owner.filter (fun p => decide (p.2 = { tenant := t, sus := false }) && decide (p.1 ∈ k.savedOf t))).map (fun p => p.1)
  us.foldl (fun r u => let r1 := r.clearUnit u; { r1 with owner := Map.del r1.owner u }) k

/-- What an ended urgent span of the same tenant had to give up, beside the suspended one, is the tenant's data on the core
again (R312), but for units of which the suspended context has its own. -/
def State.sideBack (s : State) (c t : Nat) : State :=
  (s.core c).side.foldl (fun q u =>
    let k := q.core c
    if u.1 ∈ k.savedOf t || (Map.at? k.owner u.1).any (fun o => decide (o.tenant = t)) then q
    else (spillUnit q c u.1).modCore c (fun r =>
      let r1 := u.2.foldl (fun v w => v.setUnitRow u.1 w) r
      { r1 with owner := Map.ins r1.owner u.1 { tenant := t, sus := false } })) s

/-- The mailbox of an urgent span beside the suspended one goes to the tenant's (R293). -/
def Core.boxBack (k : Core) (t : Nat) : Core :=
  { k with mbox := Map.put [] (Map.put [] k.mbox t ((Map.get [] k.mbox t ++ Map.get [] k.mbox (32 + t)).take 16)) (32 + t) [] }

/-- The context that a suspended span resumes with (R311): reloaded from its image in the slot, as that stands. -/
def State.reload (s : State) (c : Nat) (y : Ctx) : Ctx :=
  let a := slotOf s y.tenant c
  let z := readImage s y a
  { z with pc := imagePc s a, held := { z.held with resume := imagePc s (a + 0x10) } }

/-- The suspended span of a core is resident again, as its image has it, with the units and the mailbox words that the image
names (R310, R311); the numbers of the core's sequencers have gone on (R219). -/
def State.resumeSpan (s : State) (c : Nat) : State :=
  match (s.core c).sus with
  | none => s
  | some y =>
    let a := slotOf s y.tenant c
    let z := s.reload c y
    let put := fun (k : Core) => { k with
      saved := Map.put [] k.saved y.tenant (spilledIn s a)
      mbox := Map.put [] k.mbox y.tenant (imageBox s a (Map.get [] k.mbox y.tenant).length) }
    (((s.modCore c put).modCore c (fun k => k.dropLeft y.tenant)).sideBack c y.tenant).modCore c (fun k =>
      { k.boxBack y.tenant with
        res := some { z with
          stall := y.stall.turn s.cycle, started := s.cycle - y.started, kinds := []
          seqrs := z.seqrs.map (fun q => (q.1, { q.2 with count := Max.max q.2.count (Map.get {} k.seqs q.1).count })) }
        sus := none
        side := []
        ended := none
        accInt := y.kinds
        spilling := []
        owner := turnOwners k.owner y.tenant false })

/-- SPAN_RESUME (R295, R311). -/
def execSpanResume (c : Nat) (s : State) : Res :=
  .next (match (s.core c).sus with
    | none => s
    | some y =>
      let group := s.resumeGroup c y
      if s.powered && group.all s.mayResume && !s.gangQuiescing y then group.foldl State.resumeSpan s else s)

end Sys2Proof.Machine
end

