-- ==== Sys2Proof/Machine/Device.lean ====
section
/-! DEFINITION. The host's side of the device: the registers of the virtual and physical functions, the reset of a
virtual function, host accesses to device memory (24_device_in_system R319-R328, R336; R260, R261, R273, R287, R293, R316). -/

namespace Sys2Proof.Machine

/-! ## Status bits (R322, R327) -/

/-- Set a bit of `qstat`. -/
def State.flag (s : State) (t i : Nat) : State := s.modTenant t (fun v => { v with qstat := v.qstat ||| (1#64 <<< i) })

def qNotReady : Nat := 17
def qBadAccess : Nat := 63

/-- The queues of a tenant are enabled (R327, R331, R336). -/
def State.ready (s : State) (t : Nat) : Bool := s.devstat = 4 && s.powered && (s.tenant t).enabled

/-- Registers answer over CXL.io from state 1 on; in state 0 only configuration does (R331). -/
def State.mmioUp (s : State) : Bool := s.powered && s.devstat ≠ 0

/-! ## Launch queues and mailboxes (R287, R293, R322, R327) -/

/-- A doorbell (R287, R327). -/
def State.doorbell (s : State) (t q : Nat) (v : Dword) : State :=
  if !s.ready t then s.flag t qNotReady
  else if queueFull (s.tenant t) q then (s.flag t q).msixRaise t q
  else s.enqueueLaunch t q v.toNat

/-- QBELL_WRITE. -/
def execQbellWrite (t q : Nat) (v : BitVec 64) (s : State) : Res := .next (if s.mmioUp && q < 16 then s.doorbell t q v else s)

/-- Bits of `qstat` a write of ones clears. -/
def qstatBits : BitVec 64 := 0x800000000003FFFF#64

def State.clearQstat (s : State) (t : Nat) (v : Dword) : State :=
  s.modTenant t (fun k => { k with qstat := k.qstat &&& ~~~ (v &&& qstatBits) })

/-- QSTAT_CLEAR (R322). -/
def execQstatClear (t : Nat) (v : BitVec 64) (s : State) : Res := .next (if s.mmioUp then s.clearQstat t v else s)

/-- Launches whose records a ring holds back, those from before a reset of the function first. -/
def Tenant.heldRecords (k : Tenant) (q : Nat) : List Nat :=
  let ids := (k.launches.filter (fun p => decide (p.2.queue = q) && p.2.completed && !p.2.written)).map (fun p => p.1)
  ids.filter (fun i => decide (2 ^ 32 ≤ i)) ++ ids.filter (fun i => decide (i < 2 ^ 32))

/-- Records of completed launches of a queue are written while the ring has room (R322). -/
def State.releaseRecords (s : State) (t q : Nat) : State :=
  ((s.tenant t).heldRecords q).foldl (fun r i => r.writeRecord t i) s

/-- A new head: records held back are written, and the queue's next launch may be served again. -/
def State.writeHead (s : State) (t q : Nat) (v : Dword) : State :=
  s.frontMoved ((s.modTenant t (fun k => { k with cqhead := Map.put 0 k.cqhead q (v.toNat / 2 ^ 32) })).releaseRecords t q)

/-- CQIDX_HEAD_WRITE: the head is bits 63:32; the tail is read-only (R322). -/
def execCqidxHeadWrite (t q : Nat) (v : BitVec 64) (s : State) : Res := .next (if s.mmioUp && q < 16 then s.writeHead t q v else s)

/-- The bytes of a 64-bit value. -/
def dwordBytes (v : Dword) : List Byte := (List.range 8).map (byteOf v)

/-- A read of `obox` pops the oldest word, and is 0 from an empty mailbox. -/
def State.popObox (s : State) (t : Nat) : State :=
  { s.modTenant t (fun k => { k with obox := k.obox.drop 1 }) with hostRead := dwordBytes ((s.tenant t).obox.headD 0) }

/-- OBOX_READ (R322). -/
def execOboxRead (t : Nat) (s : State) : Res := .next (if s.mmioUp then s.popObox t else s)

/-- A host word for a core's inbound mailbox: dropped, with the overflow bit, when the mailbox is full or the core holds
no context of the tenant (R293, R327, R335).
DEDUCED: notes/assumptions/59. -/
def State.writeIbox (s : State) (t c : Nat) (v : Dword) : State :=
  if !s.ready t then s.flag t qNotReady
  else
    let lost := s.modTenant t (fun k => { k with iboxovf := k.iboxovf ||| (1#384 <<< c) })
    match s.ctxFor c t with
    | none => lost
    | some x => if 16 ≤ ((s.core c).box x).length then lost else s.modCore c (fun k => k.setBox x (k.box x ++ [v]))

/-- IBOX_WRITE. -/
def execIboxWrite (t c : Nat) (v : BitVec 64) (s : State) : Res := .next (if s.mmioUp && c < Config.numCores then s.writeIbox t c v else s)

def State.clearIboxovf (s : State) (t i : Nat) (v : Dword) : State :=
  s.modTenant t (fun k => { k with iboxovf := k.iboxovf &&& ~~~ (v.setWidth 384 <<< (64 * i)) })

/-- IBOXOVF_CLEAR of dword i. -/
def execIboxovfClear (t i : Nat) (v : BitVec 64) (s : State) : Res := .next (if s.mmioUp && i < 6 then s.clearIboxovf t i v else s)

/-! ## Multicast groups (R324) -/

def State.writeMcgrp (s : State) (t g i : Nat) (v : Dword) : State :=
  if (i = 6 && v.toNat / 2 ≠ 0) || (i = 7 && v ≠ 0) then s.flag t qBadAccess
  else s.modTenant t (fun k => { k with mcgrp := Map.put 0 k.mcgrp g (setBits (Map.get 0 k.mcgrp g) (64 * i) 64 v.toNat) })

/-- MCGRP_WRITE of dword i of group g. -/
def execMcgrpWrite (t g i : Nat) (v : BitVec 64) (s : State) : Res :=
  .next (if s.mmioUp && g < 256 && i < 8 then s.writeMcgrp t g i v else s)

/-! ## Reduction groups (R261, R325) -/

def State.selectGroup (s : State) (t : Nat) (v : Dword) : State :=
  s.modTenant t (fun k => { k with rgsel := v.toNat % 64, rgstat := 5 })

/-- RGSEL_WRITE. -/
def execRgselWrite (t : Nat) (v : BitVec 64) (s : State) : Res := .next (if s.mmioUp then s.selectGroup t v else s)

/-- Dword i of the staged copy of a group, counted from offset 0x8800. -/
def Tenant.stagedAt (k : Tenant) (g i : Nat) : Dword := Map.get 0 k.staged (256 * g + i)

/-- The staged record, tree node n, and i-th attach entry. -/
def Tenant.stagedRec (k : Tenant) (g : Nat) : Rec512 :=
  (List.range 8).foldl (fun r i => setBits r (64 * i) 64 (k.stagedAt g i).toNat) 0
def Tenant.stagedNode (k : Tenant) (g n : Nat) : Dword := k.stagedAt g (8 + n)
def Tenant.stagedAttach (k : Tenant) (g i : Nat) : Nat := bits (k.stagedAt g (72 + i / 4)).toNat (16 * (i % 4)) 16

/-- Switches or slices of a kind (R255). -/
def kindCount (k : Nat) : Nat := if k = 0 then 65 else if k = 1 then 32 else if k = 2 then 8 else 128

def treeKind (e : Dword) : Nat := bits e.toNat 30 2

/-- A field breaks its range. -/
def groupRange (r : Rec512) (tree : List Dword) (att : List Nat) : Bool :=
  let n := gcNodes r
  Rec512.f r 0 14 18 ≠ 0 || Rec512.f r 0 1 4 ≠ 0 || decide (5 < gcOp r) || n = 0 || Rec512.f r 1 13 51 ≠ 0
    || gcLength r = 0 || decide (4096 < gcLength r)
    || tree.any (fun e => bits e.toNat 32 6 ≠ 0 || bits e.toNat 8 22 ≠ 0 || (treeParent e ≠ treeRoot && decide (n ≤ treeParent e))
        || decide (kindCount (treeKind e) ≤ bits e.toNat 0 8))
    || att.any (fun a => decide (a / 1024 ≠ 0) || decide (n ≤ bits a 4 6))

/-- The path from a node to the root, within n steps. -/
def reachesRoot (tree : List Dword) : Nat → Nat → Bool
  | 0, _ => false
  | f + 1, i =>
    match tree[i]? with
    | none => false
    | some e => if treeParent e = treeRoot then true else reachesRoot tree f (treeParent e)

/-- Ports of a node that its children and attached members feed, as a mask. -/
def fedPorts (tree : List Dword) (att : List Nat) (n : Nat) : List Nat :=
  (tree.filter (fun e => treeParent e = n)).map treePport ++ (att.filter (fun a => bits a 4 6 = n)).map (fun a => a % 16)

/-- The tree is malformed. -/
def groupTree (tree : List Dword) (att : List Nat) : Bool :=
  (tree.filter (fun e => treeParent e = treeRoot)).length ≠ 1
    || tree.any (fun e => decide (treeParent e = treeRoot) && decide (treeKind e ≠ 3))
    || (List.range tree.length).any (fun i => !reachesRoot tree tree.length i)
    || (tree.zipIdx).any (fun p => (List.range 16).any (fun k => bit (treeInputs p.1) k != decide (k ∈ fedPorts tree att p.2)))

/-- A round of the group is open. -/
def Group.busy (g : Group) : Bool := g.opened.isSome || !g.vals.isEmpty

/-- The commit of R325 by the checks of R261: its `rgstat`, and the group after it.
DEDUCED: notes/assumptions/62. -/
def commitGroup (k : Tenant) (t g : Nat) (v : Group) : Nat × Group :=
  let r := k.stagedRec g
  let tree := (List.range (gcNodes r)).map (k.stagedNode g)
  let live := gcMembers r
  let att := (List.range live.length).map (k.stagedAttach g)
  if v.owner ≠ some t then (1, v)
  else if groupRange r tree att then (2, v)
  else if groupTree tree att then (3, v)
  else if v.busy then (4, v)
  else (0, { v with conf := r, tree := tree.mapIdx (fun i e => (i, e)), attach := live.zip att })

def State.commit (s : State) (t : Nat) : State :=
  let k := s.tenant t
  let r := commitGroup k t k.rgsel (s.group k.rgsel)
  (s.setGroup k.rgsel r.2).modTenant t (fun v => { v with rgstat := r.1 })

/-- RGCOMMIT_WRITE (R325). -/
def execRgcommitWrite (t : Nat) (_v : BitVec 64) (s : State) : Res := .next (if s.mmioUp then s.commit t else s)

/-- A write into the group window stages a dword, if the tenant owns the group (R325). -/
def State.stage (s : State) (t i : Nat) (v : Dword) : State :=
  if (s.group (s.tenant t).rgsel).owner = some t then
    s.modTenant t (fun k => { k with staged := Map.put 0 k.staged (256 * k.rgsel + i) v })
  else s.modTenant t (fun k => { k with rgstat := 1 })

/-! ## The scratchpad window (R326) -/

/-- Store a whole row for a holder of a core's units: into the unit, or the holder's saved copy. -/
def storeRow (s : State) (c : Nat) (me : Owner) (row : Nat) (v : Row) : State :=
  let u := spadUnit row
  if toSlot s c u me then
    let s1 := ensureSaved s c u me
    (s1.writeN (slotRow s1 c row me) 128 v.toNat).cleanMem (slotRow s1 c row me) 128
  else
    (touchUnit s c me u).modCore c (fun k => { k.setSpadRow row v with spadPoison := k.spadPoison.filter (fun r => r ≠ row) })

/-- The staged 128 bytes, the last dword given. -/
def stagedRow (m : Map Dword) (last : Dword) : Row :=
  (List.range 16).foldl (fun r i => setBits r (64 * i) 64 (if i = 15 then last else Map.get 0 m i).toNat) 0

def State.storeSpdata (s : State) (t : Nat) (v : Dword) : State :=
  let k := s.tenant t
  let c := bits k.spsel.toNat 0 9
  let row := bits k.spsel.toNat 16 13
  if Config.numCores ≤ c || 6136 ≤ row then s.flag t qBadAccess
  else
    let me : Owner := match s.ctxFor c t with
      | some x => s.ownerOf c t x.uid
      | none => { tenant := t, sus := false }
    (storeRow s c me row (stagedRow k.spdata v)).modTenant t (fun w => { w with
      spsel := setBits w.spsel 16 13 (row + 1), spdata := Map.put 0 w.spdata 15 v })

/-- SPDATA_STORE (R326). -/
def execSpdataStore (t : Nat) (v : BitVec 64) (s : State) : Res := .next (if s.mmioUp then s.storeSpdata t v else s)

/-! ## Management (R260, R273, R320, R321, R336) -/

/-- Management writes reach the PF (R331).
DEDUCED: notes/assumptions/61. -/
def State.managed (s : State) : Bool := s.powered && decide (2 ≤ s.devstat) && decide (s.devstat ≤ 4)

/-- Pin the pages of the replay region (R273); the fuel is the number of pages. -/
def pinRegion (s : State) (t base : Nat) : Nat → Option (Map Nat)
  | 0 => some []
  | n + 1 =>
    match pinRegion s t base n, translate s t (base + n * 0x10000) true with
    | some m, .ok pa => some (Map.ins m (base / 65536 + n) pa)
    | _, _ => none

/-- A table and every table below it lie in the tenant's windows (R304, R321). The fuel is the levels left, the table's own
included; an entry leads to a table when it is valid and no leaf. -/
def tablesOk (s : State) (k : Tenant) : Nat → Nat → Nat → Bool
  | 0, _, _ => true
  | left + 1, width, table =>
    k.inWindow table (8 * 2 ^ width) && (List.range (2 ^ width)).all (fun i =>
      let e := s.readN (table + 8 * i) 8
      !bit e 0 || bit e 1 || left = 0 || tablesOk s k left (if left = 1 then 5 else 9) (bits e 12 36 * 4096))

/-- A configuration whose tables, save region and replay region lie in the windows (R321, R336): the regions' pages translate, which
no page outside them does (R305). -/
def configOk (s : State) (t : Nat) : Bool :=
  let k := s.tenant t
  decide (k.ptbase ≠ 0) && decide (k.saveBase ≠ 0) && !k.windows.isEmpty
    && tablesOk s k 4 9 k.ptbase && (pinSave s t).isSome
    && (k.sacQuota = 0 || (pinRegion s t k.sacBase (64 * k.sacQuota)).isSome)

/-- The pages of the save region are pinned as the tables stand (R306); where one does not translate, those pinned before stay.
DEDUCED: notes/assumptions/45. -/
def State.pinSaves (s : State) (t : Nat) : State := s.modTenant t (fun k => { k with savePins := (pinSave s t).getD k.savePins })

/-- VF_ENABLE (R260, R306, R336): refused unless the configuration is whole; the buckets start full, and the save region is
pinned. -/
def execVfEnable (t : Nat) (s : State) : Res :=
  .next (if s.managed && t < Config.numTenants && !(s.tenant t).enabled && configOk s t then
    (s.pinSaves t).modTenant t (fun k => { k with
      enabled := true
      bucket := k.bucket.map (fun b => (b.1, b.2.1, b.2.2.1, ((16 * b.2.2.1 : Nat) : Int), s.cycle)) })
  else s)

/-- RATE_LIMIT_CONFIG (R260): the rate is bits 31:0 of the value, the burst bits 63:32. -/
def execRateLimitConfig (t die : Nat) (v : BitVec 64) (s : State) : Res :=
  .next (if s.managed && t < Config.numTenants && die < 8 then
    s.modTenant t (fun k =>
      let b := k.bucketOf die
      let rate := bits v.toNat 0 32
      let burst := bits v.toNat 32 32
      let full : Int := ((16 * burst : Nat) : Int)
      let bal := if b.1 = 0 && rate ≠ 0 then full else Min.min (balanceAt b s.cycle) full
      { k with bucket := Map.ins k.bucket die (rate, burst, bal, s.cycle) })
  else s)

/-- Entries the other tenants' quotas take. -/
def State.quotaOthers (s : State) (t : Nat) : Nat := ((s.tenants.filter (fun p => p.1 ≠ t)).map (fun p => p.2.sacQuota)).sum

/-- SAC_QUOTA_WRITE (R273): the quota is bits 12:0 of the value, the region's virtual base its bits 63:16. A new quota
leaves the tenant no entry.
DESIGN CHOICE: notes/assumptions/60. -/
def execSacQuotaWrite (t : Nat) (v : BitVec 64) (s : State) : Res :=
  .next (
    let n := bits v.toNat 0 13
    let base := v.toNat / 65536 * 65536
    if !s.managed || Config.numTenants ≤ t || 4096 < n || 4096 < s.quotaOthers t + n then s
    else
      match pinRegion s t base (64 * n) with
      | none => s
      | some m => { s.modTenant t (fun k => { k with sacQuota := n, sacBase := base
                                                     pins := Map.put [] k.pins sacTag m }) with
                    sac := s.sac.filter (fun e => e.1 / 4096 % 32 ≠ t) })

/-- A management value takes effect unless it would leave an enabled tenant's regions outside its windows (R321). A save region
elsewhere is pinned with it (R306).
DEDUCED: notes/assumptions/45. -/
def State.manage (s : State) (t : Nat) (f : Tenant → Tenant) : State :=
  let s1 := s.modTenant t f
  if !s.managed || Config.numTenants ≤ t || ((s.tenant t).enabled && !configOk s1 t) then s
  else if (s.tenant t).enabled && (s1.tenant t).saveBase ≠ (s.tenant t).saveBase then s1.pinSaves t else s1

/-- A write to the tenant's page (R322, R327): aligned 64-bit accesses; the registers that are events of their own take
the same effect. -/
def State.vfWrite (s : State) (t off : Nat) (v : Dword) : State :=
  if off < 0x80 then s.doorbell t (off / 8) v
  else if off = 0x80 then s.clearQstat t v
  else if 0x100 ≤ off && off < 0x200 then
    let q := (off - 0x100) / 16
    if off % 16 = 0 then s.modTenant t (fun k => { k with cqbase := Map.put 0 k.cqbase q (v &&& 0xFFFFFFFFFFFFF00F#64) })
    else s.writeHead t q v
  else if off = 0x200 then s.modTenant t (fun k => { k with rlbase := v &&& 0xFFFFFFFFFFFFF00F#64, rlcount := 0 })
  else if 0x1000 ≤ off && off < 0x1C00 then s.writeIbox t ((off - 0x1000) / 8) v
  else if 0x1C00 ≤ off && off < 0x1C30 then s.clearIboxovf t ((off - 0x1C00) / 8) v
  else if 0x3000 ≤ off && off < 0x3C00 then
    s.modCore ((off - 0x3000) / 8) (fun k => { k with tvec := Map.put 0 k.tvec t (v.toNat / 4 * 4) })
  else if 0x4000 ≤ off && off < 0x8000 then s.writeMcgrp t ((off - 0x4000) / 64) ((off - 0x4000) % 64 / 8) v
  else if off = 0x8000 then s.selectGroup t v
  else if off = 0x8008 then s.commit t
  else if 0x8800 ≤ off && off < 0x8D40 && off ≠ 0x8A38 then s.stage t ((off - 0x8800) / 8) v
  else if off = 0xA000 then s.modTenant t (fun k => { k with spsel := v &&& 0x000000001FFF01FF#64 })
  else if off = 0xA0F8 then s.storeSpdata t v
  else if 0xA080 ≤ off && off < 0xA0F8 then
    s.modTenant t (fun k => { k with spdata := Map.put 0 k.spdata ((off - 0xA080) / 8) v })
  else s

/-- What a register of the tenant's page reads as (R322-R325, R327); an offset that is unassigned or not aligned reads 0.
DEDUCED: notes/assumptions/93. -/
def State.vfReg (s : State) (t off : Nat) : Dword :=
  let k := s.tenant t
  if off % 8 ≠ 0 then 0
  else if off = 0x80 then k.qstat
  else if 0x100 ≤ off && off < 0x200 then
    let q := (off - 0x100) / 16
    if off % 16 = 0 then Map.get 0 k.cqbase q
    else BitVec.ofNat 64 (2 ^ 32 * Map.get 0 k.cqhead q + Map.get 0 k.cqtail q % 2 ^ 32)
  else if off = 0x200 then k.rlbase
  else if off = 0x208 then BitVec.ofNat 64 (k.rlcount % 2 ^ 32)
  else if off = 0x300 then k.obox.headD 0
  else if off = 0x308 then BitVec.ofNat 64 k.obox.length
  else if 0x1C00 ≤ off && off < 0x1C30 then k.iboxovf.extractLsb' (8 * (off - 0x1C00)) 64
  else if 0x2000 ≤ off && off < 0x2090 then s.usageAt t ((off - 0x2000) / 8)
  else if 0x3000 ≤ off && off < 0x3C00 then BitVec.ofNat 64 (Map.get 0 (s.core ((off - 0x3000) / 8)).tvec t)
  else if 0x4000 ≤ off && off < 0x8000 then Rec512.w (Map.get 0 k.mcgrp ((off - 0x4000) / 64)) ((off - 0x4000) % 64 / 8)
  else if off = 0x8000 then BitVec.ofNat 64 k.rgsel
  else if off = 0x8010 then BitVec.ofNat 64 k.rgstat
  else if 0x8800 ≤ off && off < 0x8D40 && off ≠ 0x8A38 then k.stagedAt k.rgsel ((off - 0x8800) / 8)
  else if off = 0xA000 then k.spsel
  else 0

/-- The host reads a register of the tenant's page by an access of some bytes (R322): `obox` gives a word up, and a usage counter
stays at what was read (R333). A read that is not of an aligned 64-bit word returns 0 and does nothing (R327). -/
def State.vfRead (s : State) (t off width : Nat) : State :=
  if !s.mmioUp || Config.numTenants ≤ t || 0x10000 ≤ off then s
  else if width ≠ 8 then { s with hostRead := List.replicate width 0 }
  else if off = 0x300 then s.popObox t
  else
    let s1 := if 0x2000 ≤ off && off < 0x2090 && off % 8 = 0 then s.meter t else s
    { s1 with hostRead := dwordBytes (s.vfReg t off) }

/-- The host reads through the physical function (R320, R331, R333, R334): the bring-up state, the public half and the
certificate of the identity key, a record of the lifetime log as last updated. -/
def State.pfRead (s : State) (item : PfItem) : State :=
  if !s.mmioUp then s
  else { s with hostRead := match item with
    | .devstat => dwordBytes (BitVec.ofNat 64 s.devstat)
    | .publicKey i => [Config.publicKey i]
    | .certificate i => [Config.certificate i]
    | .lifeLog r => dwordBytes (BitVec.ofNat 64 (Map.get 0 s.nvLog r)) }

/-- A window of the tenant: base and size multiples of 2 MiB inside device memory; size 0 removes it (R321). -/
def Tenant.setWindow (k : Tenant) (i base size : Nat) : Tenant :=
  if 8 ≤ i || base % 0x200000 ≠ 0 || size % 0x200000 ≠ 0 || Config.memEnd < base + size then k
  else { k with windows := if size = 0 then Map.del k.windows i else Map.ins k.windows i (base, size) }

/-- REGISTER_WRITE (R320-R327, R332, R336). -/
def execRegisterWrite (w : RegWrite) (s : State) : Res :=
  .next (match w with
    | .vf t off width v =>
      if !s.mmioUp || Config.numTenants ≤ t || 0x10000 ≤ off then s
      else if width ≠ 8 || off % 8 ≠ 0 then s.flag t qBadAccess
      else s.vfWrite t off v
    | .ptbase t v => s.manage t (fun k => { k with ptbase := bits v.toNat 12 36 * 4096 })
    | .tenctl t v => s.manage t (fun k => { k with tenctl := v.toNat / 0x400000 * 0x400000 + t % 32 })
    | .scap t v => s.manage t (fun k => { k with scap := v.toNat % 8 })
    | .qmax t v => s.manage t (fun k => { k with qmax := Max.max 2048 (v.toNat % 65536) })
    | .weight t v => s.manage t (fun k => { k with weight := v.toNat % 256 })
    | .floorCap t d lo hi =>
      if 8 ≤ d then s
      else s.manage t (fun k => { k with floor := Map.ins k.floor d (Min.min lo 48), cap := Map.ins k.cap d (Min.min hi 48) })
    | .queueCap t q cap => if 16 ≤ q then s else s.manage t (fun k => { k with qcap := Map.ins k.qcap q (cap % 4) })
    | .endpoint t dev v =>
      if 0x3FF ≤ dev then s else s.manage t (fun k => { k with endpoints := Map.put 0 k.endpoints dev (v &&& 0x000000FFFFE1FFFF#64) })
    | .window t i base size => s.manage t (fun k => k.setWindow i base size)
    | .rgOwner g o => if s.managed && g < 64 then s.setGroup g { owner := o } else s
    | .powerLimit n => if s.managed && 1200 ≤ n && n ≤ 2800 then { s with powerLimit := n } else s
    | .msixMask t vec => if s.mmioUp && vec < 64 then s.modTenant t (fun k => { k with msixMask := k.msixMask ||| (1#64 <<< vec) }) else s)

/-- MSIX_UNMASK (R328): a pending vector is sent once. -/
def execMsixUnmask (t vec : Nat) (s : State) : Res :=
  .next (if s.mmioUp && vec < 64 then
    let k := s.tenant t
    let m : BitVec 64 := 1#64 <<< vec
    let s1 := s.modTenant t (fun k => { k with msixMask := k.msixMask &&& ~~~ m, msixPend := k.msixPend &&& ~~~ m })
    if k.msixPend.getLsbD vec then { s1 with msix := (t, vec) :: s1.msix } else s1
  else s)

/-! ## Host accesses to device memory (R319, R329, R331) -/

/-- Lines a range touches. -/
def linesIn (a n : Nat) : List Nat := if n = 0 then [] else (List.range ((a + n - 1) / 64 + 1 - a / 64)).map (fun i => 64 * (a / 64 + i))

/-- CXL.mem is available (R331). -/
def State.memUp (s : State) : Bool := s.powered && (s.devstat = 3 || s.devstat = 4)

/-- A request of the host that came through the fabric (R258) has arrived. -/
def State.takeHost (s : State) (k : PKind) : State :=
  match s.net.find? (fun p => decide (p.2.kind = k) && decide (p.2.st = PSt.flying)) with
  | some p => s.unsend p.1
  | none => s

/-- HOST_MEM_READ: answered at the home slices and tracked.
DESIGN CHOICE: notes/assumptions/9, 76. -/
def execHostMemRead (pa n : Nat) (s : State) : Res :=
  if !s.memUp then .next s
  else if Config.memEnd < pa + n then .fault .hostAddress
  else .next { s.takeHost (.hostRead pa n) with hostRead := s.readBytes pa n, snoop := (s.snoop ++ linesIn pa n).dedup }

/-- HOST_MEM_WRITE: performed at the home slices; the bytes are whole again.
DEDUCED: notes/assumptions/64. -/
def execHostMemWrite (pa : Nat) (bs : List (BitVec 8)) (s : State) : Res :=
  if !s.memUp then .next s
  else if Config.memEnd < pa + bs.length then .fault .hostAddress
  else .next (((s.takeHost (.hostWrite pa bs)).writeBytes pa bs).cleanMem pa bs.length)

/-- A line's copy is gone: nothing waits for it any more. -/
def dropLine (m : Map Seqr) (l : Nat) : Map Seqr := m.map (fun q => (q.1, { q.2 with lines := q.2.lines.filter (fun e => e.2 ≠ l) }))

/-- The contexts of a core, and what ended spans left of its sequencers, let a line go. -/
def Core.dropLine (k : Core) (l : Nat) : Core :=
  let f := fun (x : Ctx) => { x with seqrs := Sys2Proof.Machine.dropLine x.seqrs l }
  { k with res := k.res.map f, sus := k.sus.map f, seqs := Sys2Proof.Machine.dropLine k.seqs l }

/-- HOST_RECALL_RESPONSE (R319). -/
def execHostRecallResponse (l : Nat) (s : State) : Res :=
  .next (if l ∈ s.recalls then
    { s with
      snoop := s.snoop.filter (fun k => k ≠ l)
      recalls := s.recalls.filter (fun k => k ≠ l)
      cores := s.cores.map (fun p => (p.1, p.2.dropLine l))
      tenants := s.tenants.map (fun p => (p.1, { p.2 with
        launches := p.2.launches.map (fun q => (q.1, { q.2 with lines := q.2.lines.filter (fun k => k ≠ l) })) })) }
  else s)

/-! ## The reset of a virtual function (R316) -/

/-- The block that a beat, or a beat's close marker, belongs to. -/
def PKind.blkOf : PKind → Option Nat
  | .beat h _ | .close h _ _ | .put h _ | .acc h _ _ | .stream _ h _ => some h.blk
  | _ => none

/-- Beats of a command that its core still holds. -/
def State.beatsHeld (s : State) (cmd : Nat) : Nat :=
  ((s.net.filter (fun k => decide (k.2.cmd = cmd) && decide (k.2.st = PSt.held))).map (fun k => k.2.kind.isBeat)).sum

/-- Beats of a command that have left and are not applied: those on their way, each once (R211), and those lost with a path. -/
def State.beatsOut (s : State) (id : Nat) (m : Cmd) : Nat :=
  m.dropped + ((s.net.filter (fun k => decide (k.2.cmd = id) && decide (k.2.kind.isBeat = 1) && decide (k.2.st ≠ PSt.held)
    && !s.delivered k.2)).map (fun k => k.2.seq)).dedup.length

/-- Blocks of a command of which nothing has left its core. -/
def State.blocksHeld (s : State) (cmd : Nat) : Nat :=
  let held := fun (k : Nat) => (Map.at? s.net k).any (fun p => decide (p.st = PSt.held))
  let gone : List Nat := (s.sent.filter (fun k => decide (k.2.cmd = cmd) && !held k.1)).filterMap (fun k => k.2.kind.blkOf)
  ((((s.sent.filter (fun k => decide (k.2.cmd = cmd) && held k.1)).filterMap (fun k => k.2.kind.blkOf)).dedup).filter (fun (b : Nat) => decide (b ∉ gone))).length

/-- The reset record of a command: four words, none if no beat has left. -/
def resetRecord (s : State) (id : Nat) (m : Cmd) : Option (List Dword) :=
  let out := m.sent - s.beatsHeld id
  let lost := s.beatsOut id m
  if out = 0 then none
  else some [BitVec.ofNat 64 (m.core % 512 + 2 ^ 9 * (m.op5 % 32) + 2 ^ 14 * (m.tag % 4096) + 2 ^ 32 * (m.lid % 2 ^ 32)),
             BitVec.ofNat 64 (m.blocks - s.blocksHeld id), BitVec.ofNat 64 (out - lost), BitVec.ofNat 64 lost]

/-- Write a record of 32 bytes to the tenant's reset log (R322, R328). -/
def State.logReset (s : State) (t : Nat) (r : List Dword) : State :=
  let k := s.tenant t
  let a := k.rlbase.toNat / 4096 * 4096 + 32 * (k.rlcount % 2 ^ (k.rlbase.toNat % 16 + 4))
  let s1 := (r.zipIdx).foldl (fun q p => q.hostWrite (a + 8 * p.2) p.1) s
  (s1.modTenant t (fun v => { v with rlcount := (v.rlcount + 1) % 2 ^ 32 })).msixRaise t 17

/-- Step 1: launches that have not completed do so with state 4.
DEDUCED: notes/assumptions/63. -/
def State.resetLaunches (s : State) (t : Nat) : State :=
  let ids := ((s.tenant t).launches.filter (fun p => !p.2.completed)).map (fun p => p.1)
  let s1 := s.modTenant t (fun k => { k with queues := [], b0gang := none })
  ids.foldl (fun q i => (q.modLaunch t i (fun l =>
    { l with result := some (4, 0, 0), completed := true, pos := none, live := 0 })).writeRecord t i) s1

/-- Step 2 on one core: the tenant's contexts are gone, and what belonged to a suspended one, its saved units among it. The
numbers of the core's sequencers go on (R219). A core that loses a context or the tenant's loan becomes free now (R289). -/
def Core.resetTenant (k : Core) (t now : Nat) : Core :=
  let here := k.res.any (fun x => x.tenant = t)
  let out := k.sus.any (fun x => x.tenant = t)
  let gone := (k.res.toList ++ k.sus.toList).filter (fun x => decide (x.tenant = t))
  let us := (k.owner.filter (fun p => decide (p.2 = { tenant := t, sus := true }))).map (fun p => p.1)
  let k1 := us.foldl (fun r u => let r1 := r.clearUnit u; { r1 with owner := Map.del r1.owner u }) k
  { k1 with
    res := k.res.filter (fun x => x.tenant ≠ t)
    sus := k.sus.filter (fun x => x.tenant ≠ t)
    ended := k.ended.filter (fun x => x.tenant ≠ t)
    seqs := gone.foldl (fun m x => keepSeqrs m { x with seqrs := x.seqrs.map (fun q => (q.1, { q.2 with opened := [], lines := [] })) }) k.seqs
    saved := if out then Map.del k.saved t else k.saved
    side := if out then [] else k.side
    quiesce := if here then none else k.quiesce.filter (fun q => q.1 ≠ t)
    lent := k.lent.filter (fun q => q.1 ≠ t)
    freeAt := if here || out || k.lent.any (fun q => decide (q.1 = t)) then now else k.freeAt
    spilling := if here then [] else k.spilling
    blks := k.blks.filter (fun b => b.2.hdr.tenant ≠ t)
    gcache := Map.del k.gcache t
    mbox := Map.del (Map.del k.mbox t) (32 + t)
    tvec := Map.del k.tvec t }

/-- Verdicts under way are discarded, which is their delivery (R280). -/
def State.discardVerdicts (s : State) (t : Nat) : State :=
  s.net.foldl (fun q p => if p.2.tenant = t && (Map.at? q.applied p.2.cmd).isNone then (match p.2.kind with
    | .verdict v _ bytes => { q.countVerdict t v bytes with applied := Map.ins q.applied p.2.cmd p.2.kind }
    | _ => q) else q) s

/-- Steps 3 and 4: commands stop, and each that had sent a beat is logged. -/
def State.resetCommands (s : State) (t : Nat) : State :=
  let mine := s.cmds.filter (fun m => m.2.tenant = t)
  let s1 := mine.foldl (fun q m => match resetRecord s m.1 m.2 with | some r => q.logReset t r | none => q) (s.discardVerdicts t)
  let s2 := mine.foldl (fun q m => q.modCore m.2.core (fun k => k.performed m.2.seqr m.2.opn)) s1
  { s2 with
    cmds := s1.cmds.filter (fun m => m.2.tenant ≠ t)
    net := s1.net.filter (fun p => p.2.tenant ≠ t)
    sent := s1.sent.filter (fun p => p.2.tenant ≠ t) }

/-- Step 5: what the reset clears beside contexts and commands. Launches whose records are held back keep them, under
identities that the queues' new launch ids do not reach (R292, R322). -/
def State.resetShared (s : State) (t : Nat) : State :=
  let clean : Tenant → Tenant := fun k => { k with
    launches := (k.launches.filter (fun p => p.2.completed && !p.2.written)).map (fun p => (p.1 + 2 ^ 32, p.2))
    nextId := []
    bars := []
    gmaps := []
    pins := k.pins.filter (fun p => p.1 = sacTag)
    gslices := []
    mcgrp := []
    obox := [] }
  let s1 : State := s.modTenant t clean
  { s1 with
    sac := s1.sac.filter (fun e => e.1 / 4096 % 32 ≠ t)
    sacBusy := s1.sacBusy.filter (fun b => b.1 ≠ t)
    groups := s1.groups.map (fun g => (g.1, if g.2.owner = some t then g.2.reopen else g.2)) }

/-- Beats that have arrived are applied whole: the rows of the tenant's open blocks that wait to be written are (R134, R316). -/
def State.landParts (s : State) (t : Nat) : State :=
  s.cores.foldl (fun q k => (k.2.blks.filter (fun b => decide (b.2.hdr.tenant = t))).foldl (fun r b =>
    match b.2.bound with
    | some (_, _, uid, _) => (partRows b.2.parts).foldl (fun u i => landRow u k.1 (r.ownerOf k.1 t uid) i (Map.get {} b.2.parts i)) r
    | none => r) q) s

/-- Step 2: every core lets the tenant's contexts go. -/
def State.resetCores (s0 : State) (t : Nat) : State :=
  let s := s0.landParts t
  { s with cores := s.cores.map (fun p => (p.1, p.2.resetTenant t s.cycle)) }

/-- VF_RESET (R306, R316). -/
def execVfReset (t : Nat) (s : State) : Res :=
  .next (if !s.powered || Config.numTenants ≤ t then s
    else s.frontMoved (((((s.resetLaunches t).resetCores t).resetCommands t).resetShared t).pinSaves t))

end Sys2Proof.Machine
end

