-- ==== Sys2Proof/Machine/Power.lean ====
section
/-! DEFINITION. Falard ports, bring-up, power and the logs (24_device_in_system R330-R334; 19_fabric R266; R167, R182,
R212). -/

namespace Sys2Proof.Machine

/-! ## The lifetime log (R334) -/

def logCorrectable (pc : Nat) : Nat := pc
def logUncorrectable (pc : Nat) : Nat := 2000 + pc
def logRetrain (port : Nat) : Nat := 4000 + port
def logTrainFail (port : Nat) : Nat := 4100 + port
def logSram (die : Nat) : Nat := 4200 + die
def logTemp (die bin : Nat) : Nat := 5000 + 16 * die + bin
def logPower (bin : Nat) : Nat := 6000 + bin
def logDroop (die bin : Nat) : Nat := 6100 + 16 * die + bin
def logHours : Nat := 7000
def logCycles : Nat := 7001
def logAbrupt : Nat := 7002
def logThermal : Nat := 7003
/-- Why bring-up failed: 1 firmware, 2 a pseudo-channel (R331). -/
def logFailure : Nat := 7004
/-- Seconds of the current power-on hour. -/
def logSeconds : Nat := 7005

/-- Counts saturate at their maximum. -/
def bump (m : Map Nat) (k n : Nat) : Map Nat := Map.put 0 m k (Min.min (Map.get 0 m k + n) (2 ^ 32 - 1))

def State.log (s : State) (k n : Nat) : State := { s with lifeLog := bump s.lifeLog k n }

/-- A hardware error strikes (R282, R308, R334): a correctable one is corrected and counted, an uncorrectable one marks what it
struck. What is marked in memory is one byte; a wider error is several.
DESIGN CHOICE: notes/assumptions/98. -/
def State.strike (s : State) (e : ErrSite) : State :=
  if !s.powered then s
  else match e with
    | .memFixed pc => if pc < 1280 then s.log (logCorrectable pc) 1 else s
    | .memBad pc a => if pc < 1280 && a < Config.memEnd then (s.poisonMem a 1).log (logUncorrectable pc) 1 else s
    | .sramFixed d => if d < 9 then s.log (logSram d) 1 else s
    | .tileBad c k => if c < Config.numCores && k < 8192 then s.modCore c (fun v => { v with tilePoison := addMark v.tilePoison k }) else s
    | .accBad c k => if c < Config.numCores && k < 2048 then s.modCore c (fun v => { v with accPoison := addMark v.accPoison k }) else s
    | .spadBad c r =>
      if c < Config.numCores && r < 8192 then s.modCore c (fun v => { v with spadPoison := addMark v.spadPoison r }) else s

/-! ## Falard ports (R266, R330) -/

/-- The packet has not left for another device yet: its core holds it (R260), or a switch has evicted it, and it waits to be
sent again (R259). -/
def State.staying (s : State) (id : Nat) : Bool :=
  (Map.at? s.net id).any (fun q => match q.st with | .held | .evicted _ => true | _ => false)

/-- Copies, not acknowledged yet, of the packets that a port may carry go over it again after its retrain (R266); receivers
drop duplicates (R211). What has never crossed is no flit of the port. -/
def State.replayPort (s : State) (p : Nat) : State :=
  (s.sent.filter (fun q => match q.2.device with
      | some d => decide (p ∈ entryPorts (s.endpoint q.2.tenant d)) && !s.staying q.1
      | none => false)).foldl (fun (r : State) (q : Nat × Packet) => r.inject q.2) s

/-- FALARD_FLIT_REPLAY (R330): a failure logged in the current run of 10^6 flits, and the flit replayed.
DESIGN CHOICE: notes/assumptions/67. -/
def execFalardFlitReplay (p : Nat) (s : State) : Res :=
  .next (if p < 16 && (s.port p).up then s.setPort p { s.port p with fails := (s.port p).fails + 1, replays := (s.port p).replays + 1 } else s)

/-- FALARD_RETRAIN (R330): a port that has logged more than 16 failures, or is down, retrains. -/
def execFalardRetrain (p : Nat) (s : State) : Res :=
  .next (
    let v := s.port p
    if p < 16 && s.powered && s.devstat = 4 && !v.training && (!v.up || 16 < v.fails)
    then (s.setPort p { v with training := true, flits := 0, fails := 0 }).log (logRetrain p) 1 else s)

/-- FALARD_RETRAIN_DONE (R266, R330): flits not acknowledged are replayed, and receivers drop duplicates; or the port is
down. -/
def execFalardRetrainDone (p : Nat) (ok : Bool) (s : State) : Res :=
  .next (
    let v := s.port p
    if !v.training then s
    else if ok then (s.setPort p { v with training := false, up := true, flits := 0, fails := 0 }).replayPort p
    else ((s.setPort p { v with training := false, up := false }).log (logTrainFail p) 1).failPaths)

/-- FALARD_PORT_FAIL (R266). -/
def execFalardPortFail (p : Nat) (s : State) : Res :=
  .next (if p < 16 && s.powered then (s.setPort p { s.port p with up := false, training := false }).failPaths else s)

/-! ## Bring-up (R331) -/

/-- What outlasts a device reset: the counters of the secure block (R280, R333) and logs, device memory, what the host has
received, and the model's own fields. The management values of every tenant take those of R336.
DESIGN CHOICE: notes/assumptions/65. -/
def State.restart (s : State) : State :=
  { mem := s.mem, memPoison := s.memPoison, nextId := s.nextId, lifeLog := s.lifeLog, nvLog := s.nvLog
    hostMem := s.hostMem, hostRead := s.hostRead, msix := s.msix
    cur := s.cur, eager := s.eager, agenda := s.agenda, picks := s.picks, freeCtr := s.freeCtr
    powered := s.powered
    tenants := s.tenants.map (fun p => (p.1, {
      usage := p.2.usage, usageNv := p.2.usageNv, gap := p.2.gap, snaps := p.2.snaps
      sacctr := p.2.sacctr, dropped := p.2.dropped, replays := p.2.replays })) }

/-- DEVICE_RESET: dies held, then firmware load; a module that was off is powered up, and its counters resume from the
last flush (R332, R333). -/
def execDeviceReset (s : State) : Res :=
  .next (
    let s1 := s.restart
    if s.powered then { s1 with devstat := 1 }
    else { s1.log logCycles 1 with devstat := 1, powered := true })

/-- Bring-up ends in state 7, and the log records the cause. -/
def State.failBringUp (s : State) (cause : Nat) : State :=
  { s with devstat := 7, lifeLog := Map.put 0 s.lifeLog logFailure cause }

def execFirmwareLoadDone (ok : Bool) (s : State) : Res :=
  .next (if s.powered && s.devstat = 1 then (if ok then { s with devstat := 2 } else s.failBringUp 1) else s)

def execHbmTrainingDone (ok : Bool) (s : State) : Res :=
  .next (if s.powered && s.devstat = 2 then (if ok then { s with devstat := 3 } else s.failBringUp 2) else s)

/-- FALARD_TRAINING_DONE: bit p says port p trained; the others are down and logged. -/
def execFalardTrainingDone (up : BitVec 16) (s : State) : Res :=
  .next (if s.powered && s.devstat = 3 then
    (List.range 16).foldl (fun q p =>
      let r := q.setPort p { up := up.getLsbD p }
      if up.getLsbD p then r else r.log (logTrainFail p) 1) { s with devstat := 4 }
  else s)

/-! ## Power and cooling (R332, R333) -/

/-- POWER_LIMIT_STEP: both clocks one step of 50 MHz down while the module draws more than its limit, one up again
otherwise. -/
def execPowerLimitStep (watts : Nat) (s : State) : Res :=
  .next (if !s.powered then s
    else if s.powerLimit < watts then { s with clockSteps := s.clockSteps + 1 }
    else if s.hotDies.isEmpty then { s with clockSteps := s.clockSteps - 1 } else s)

/-- THERMAL_THROTTLE: a die at 105 degrees steps both clocks down until it cools. -/
def execThermalThrottle (die temp : Nat) (s : State) : Res :=
  .next (if !s.powered || 9 ≤ die then s
    else if 105 ≤ temp then { s with clockSteps := s.clockSteps + 1, hotDies := addMark s.hotDies die }
    else { s with hotDies := s.hotDies.filter (fun d => d ≠ die) })

/-- COUNTER_FLUSH. -/
def State.flush (s : State) : State :=
  { s with tenants := s.tenants.map (fun p => (p.1, { p.2 with usageNv := p.2.usage })) }

def execCounterFlush (s : State) : Res := .next (if s.powered then s.flush else s)

/-- Power is off: what is not in non-volatile storage is lost, and the counters hold the last flush. -/
def State.powerOff (s : State) : State :=
  let s1 := s.restart
  { s1 with
    mem := [], memPoison := [], powered := false, lifeLog := s.nvLog
    tenants := s1.tenants.map (fun p => (p.1, { p.2 with usage := p.2.usageNv })) }

/-- Power is lost abruptly (R333): the next snapshots flag a gap.
DEDUCED: notes/assumptions/66. -/
def State.powerLost (s : State) : State :=
  let s1 := { s with nvLog := bump s.nvLog logAbrupt 1 }.powerOff
  { s1 with tenants := (List.range Config.numTenants).map (fun t => (t, { s1.tenant t with gap := true })) }

def execAbruptPowerLoss (s : State) : Res := .next (if s.powered then s.powerLost else s)

/-- ORDERLY_POWER_OFF: counters and log are flushed first. -/
def execOrderlyPowerOff (s : State) : Res :=
  .next (if s.powered then (let s1 := s.flush; { s1 with nvLog := s1.lifeLog }.powerOff) else s)

/-- THERMAL_SHUTDOWN: at 115 degrees, or below 1,000 ml of coolant a minute, the module shuts down abruptly.
DESIGN CHOICE: notes/assumptions/68. -/
def execThermalShutdown (temp flow : Nat) (s : State) : Res :=
  .next (if s.powered && (115 ≤ temp || flow < 1000) then { s with nvLog := bump s.nvLog logThermal 1 }.powerLost else s)

/-! ## Updates of the lifetime log (R334) -/

/-- Bin of a temperature. -/
def tempBin (t : Nat) : Nat := if t < 40 then 0 else if 110 ≤ t then 15 else 1 + (t - 40) / 5

/-- LIFETIME_LOG_UPDATE: ten more seconds at the dies' temperatures and the module's power, and all of it kept. -/
def execLifetimeLogUpdate (temps : List Nat) (watts : Nat) (s : State) : Res :=
  .next (if !s.powered then s
    else
      let m1 := ((temps.take 9).zipIdx).foldl (fun m p => bump m (logTemp p.2 (tempBin p.1)) 10) s.lifeLog
      let m2 := bump m1 (logPower (Min.min (watts / 200) 15)) 10
      let secs := Map.get 0 m2 logSeconds + 10
      let m3 := if 3600 ≤ secs then bump (Map.put 0 m2 logSeconds (secs - 3600)) logHours 1 else Map.put 0 m2 logSeconds secs
      { s with lifeLog := m3, nvLog := m3 })

/-- SUPPLY_DROOP: counted in the die's histogram, in bins of 10 mV. -/
def execSupplyDroop (die millivolts : Nat) (s : State) : Res :=
  .next (if s.powered && die < 8 then s.log (logDroop die (Min.min (millivolts / 10) 15)) 1 else s)

end Sys2Proof.Machine
end

