-- ==== Sys2Proof/Machine/Dispatch.lean ====
section
/-! DEFINITION. The one dispatch of every step to its meaning. -/

namespace Sys2Proof.Machine

open Host

def exec (i : Instr) (s : State) : Host.Outcome State Fault Refusal :=
  match i with
  | .nop => Sys2Proof.Machine.execNop s
  | .add d a b => Sys2Proof.Machine.execAdd d a b s
  | .sub d a b => Sys2Proof.Machine.execSub d a b s
  | .mul d a b => Sys2Proof.Machine.execMul d a b s
  | .mulh d a b => Sys2Proof.Machine.execMulh d a b s
  | .mulhu d a b => Sys2Proof.Machine.execMulhu d a b s
  | .div d a b => Sys2Proof.Machine.execDiv d a b s
  | .divu d a b => Sys2Proof.Machine.execDivu d a b s
  | .rem d a b => Sys2Proof.Machine.execRem d a b s
  | .remu d a b => Sys2Proof.Machine.execRemu d a b s
  | .and d a b => Sys2Proof.Machine.execAnd d a b s
  | .or d a b => Sys2Proof.Machine.execOr d a b s
  | .xor d a b => Sys2Proof.Machine.execXor d a b s
  | .andn d a b => Sys2Proof.Machine.execAndn d a b s
  | .shl d a b => Sys2Proof.Machine.execShl d a b s
  | .shr d a b => Sys2Proof.Machine.execShr d a b s
  | .sra d a b => Sys2Proof.Machine.execSra d a b s
  | .rotl d a b => Sys2Proof.Machine.execRotl d a b s
  | .min d a b => Sys2Proof.Machine.execMin d a b s
  | .max d a b => Sys2Proof.Machine.execMax d a b s
  | .minu d a b => Sys2Proof.Machine.execMinu d a b s
  | .maxu d a b => Sys2Proof.Machine.execMaxu d a b s
  | .clz d a => Sys2Proof.Machine.execClz d a s
  | .ctz d a => Sys2Proof.Machine.execCtz d a s
  | .popc d a => Sys2Proof.Machine.execPopc d a s
  | .addi d a im => Sys2Proof.Machine.execAddi d a im s
  | .andi d a im => Sys2Proof.Machine.execAndi d a im s
  | .ori d a im => Sys2Proof.Machine.execOri d a im s
  | .xori d a im => Sys2Proof.Machine.execXori d a im s
  | .shli d a im => Sys2Proof.Machine.execShli d a im s
  | .shri d a im => Sys2Proof.Machine.execShri d a im s
  | .srai d a im => Sys2Proof.Machine.execSrai d a im s
  | .muli d a im => Sys2Proof.Machine.execMuli d a im s
  | .li d im => Sys2Proof.Machine.execLi d im s
  | .fadd d a b => Sys2Proof.Machine.execFadd d a b s
  | .fsub d a b => Sys2Proof.Machine.execFsub d a b s
  | .fmul d a b => Sys2Proof.Machine.execFmul d a b s
  | .fdiv d a b => Sys2Proof.Machine.execFdiv d a b s
  | .fmin d a b => Sys2Proof.Machine.execFmin d a b s
  | .fmax d a b => Sys2Proof.Machine.execFmax d a b s
  | .fabs d a => Sys2Proof.Machine.execFabs d a s
  | .fneg d a => Sys2Proof.Machine.execFneg d a s
  | .fsqrt d a => Sys2Proof.Machine.execFsqrt d a s
  | .fcvtFw d a => Sys2Proof.Machine.execFcvtFw d a s
  | .fcvtWf d a => Sys2Proof.Machine.execFcvtWf d a s
  | .cmp p a b c => Sys2Proof.Machine.execCmp p a b c s
  | .pand d a b => Sys2Proof.Machine.execPand d a b s
  | .por d a b => Sys2Proof.Machine.execPor d a b s
  | .pxor d a b => Sys2Proof.Machine.execPxor d a b s
  | .pandn d a b => Sys2Proof.Machine.execPandn d a b s
  | .csel d a b p => Sys2Proof.Machine.execCsel d a b p s
  | .pget sf p h => Sys2Proof.Machine.execPget sf p h s
  | .pput sf p h => Sys2Proof.Machine.execPput sf p h s
  | .tshape sf t => Sys2Proof.Machine.execTshape sf t s
  | .rdshape sf t => Sys2Proof.Machine.execRdshape sf t s
  | .csrr sf c => Sys2Proof.Machine.execCsrr sf c s
  | .csrw sf c => Sys2Proof.Machine.execCsrw sf c s
  | .lds sf b d => Sys2Proof.Machine.execLds sf b d s
  | .sts sf b d => Sys2Proof.Machine.execSts sf b d s
  | .ldg sf b d => Sys2Proof.Machine.execLdg sf b d s
  | .stg sf b d => Sys2Proof.Machine.execStg sf b d s
  | .br p sf d => Sys2Proof.Machine.execBr p sf d s
  | .jmp d => Sys2Proof.Machine.execJmp d s
  | .call d => Sys2Proof.Machine.execCall d s
  | .jr a => Sys2Proof.Machine.execJr a s
  | .loopT l c n => Sys2Proof.Machine.execLoopT l c n s
  | .loopRp l q n => Sys2Proof.Machine.execLoopRp l q n s
  | .endw => Sys2Proof.Machine.execEndw s
  | .vadd d a b w => Sys2Proof.Machine.execVadd d a b w s
  | .vsub d a b w => Sys2Proof.Machine.execVsub d a b w s
  | .vmul d a b w => Sys2Proof.Machine.execVmul d a b w s
  | .vdiv d a b w => Sys2Proof.Machine.execVdiv d a b w s
  | .vmin d a b w => Sys2Proof.Machine.execVmin d a b w s
  | .vmax d a b w => Sys2Proof.Machine.execVmax d a b w s
  | .vand d a b w => Sys2Proof.Machine.execVand d a b w s
  | .vor d a b w => Sys2Proof.Machine.execVor d a b w s
  | .vxor d a b w => Sys2Proof.Machine.execVxor d a b w s
  | .vshl d a b w => Sys2Proof.Machine.execVshl d a b w s
  | .vshr d a b w => Sys2Proof.Machine.execVshr d a b w s
  | .vsra d a b w => Sys2Proof.Machine.execVsra d a b w s
  | .vabs d a => Sys2Proof.Machine.execVabs d a s
  | .vneg d a => Sys2Proof.Machine.execVneg d a s
  | .vrcp d a => Sys2Proof.Machine.execVrcp d a s
  | .vrsqrt d a => Sys2Proof.Machine.execVrsqrt d a s
  | .vsqrt d a => Sys2Proof.Machine.execVsqrt d a s
  | .vexp2 d a => Sys2Proof.Machine.execVexp2 d a s
  | .vlog2 d a => Sys2Proof.Machine.execVlog2 d a s
  | .vtanh d a => Sys2Proof.Machine.execVtanh d a s
  | .vsigm d a => Sys2Proof.Machine.execVsigm d a s
  | .vsilu d a => Sys2Proof.Machine.execVsilu d a s
  | .vfloor d a => Sys2Proof.Machine.execVfloor d a s
  | .vrnd d a => Sys2Proof.Machine.execVrnd d a s
  | .vmov d a => Sys2Proof.Machine.execVmov d a s
  | .vnot d a => Sys2Proof.Machine.execVnot d a s
  | .vcmp d a b c => Sys2Proof.Machine.execVcmp d a b c s
  | .vcvt d a => Sys2Proof.Machine.execVcvt d a s
  | .vredr d a f => Sys2Proof.Machine.execVredr d a f s
  | .vredc d a f => Sys2Proof.Machine.execVredc d a f s
  | .vtrn d a => Sys2Proof.Machine.execVtrn d a s
  | .vbcr d a => Sys2Proof.Machine.execVbcr d a s
  | .vbcc d a => Sys2Proof.Machine.execVbcc d a s
  | .vqnt d a b => Sys2Proof.Machine.execVqnt d a b s
  | .vdqnt d a b => Sys2Proof.Machine.execVdqnt d a b s
  | .vvqd d a b => Sys2Proof.Machine.execVvqd d a b s
  | .vcomp d a b k => Sys2Proof.Machine.execVcomp d a b k s
  | .vscan d a k => Sys2Proof.Machine.execVscan d a k s
  | .vrmg d a sf => Sys2Proof.Machine.execVrmg d a sf s
  | .vfill d a => Sys2Proof.Machine.execVfill d a s
  | .vget t a => Sys2Proof.Machine.execVget t a s
  | .vput d a b => Sys2Proof.Machine.execVput d a b s
  | .tld d a im => Sys2Proof.Machine.execTld d a im s
  | .tst d a im => Sys2Proof.Machine.execTst d a im s
  | .tldX d a im => Sys2Proof.Machine.execTldX d a im s
  | .tkill d => Sys2Proof.Machine.execTkill d s
  | .vcbld sf => Sys2Proof.Machine.execVcbld sf s
  | .vrowm t => Sys2Proof.Machine.execVrowm t s
  | .vfma d a b c => Sys2Proof.Machine.execVfma d a b c s
  | .vfms d a b c => Sys2Proof.Machine.execVfms d a b c s
  | .vsel d a b c => Sys2Proof.Machine.execVsel d a b c s
  | .vclamp d a b c => Sys2Proof.Machine.execVclamp d a b c s
  | .mma c a b x f => Sys2Proof.Machine.execMma c a b x f s
  | .mmaSp c a b x f => Sys2Proof.Machine.execMmaSp c a b x f s
  | .mmaG c a b x f => Sys2Proof.Machine.execMmaG c a b x f s
  | .mrd c d k t => Sys2Proof.Machine.execMrd c d k t s
  | .mwr c sf k t => Sys2Proof.Machine.execMwr c sf k t s
  | .mclr c => Sys2Proof.Machine.execMclr c s
  | .mscl a b => Sys2Proof.Machine.execMscl a b s
  | .msclOff => Sys2Proof.Machine.execMsclOff s
  | .xget d a b m sf => Sys2Proof.Machine.execXget d a b m sf s
  | .xput d a b m sf => Sys2Proof.Machine.execXput d a b m sf s
  | .xsend d a b m sf => Sys2Proof.Machine.execXsend d a b m sf s
  | .xgat d a b m sf => Sys2Proof.Machine.execXgat d a b m sf s
  | .xsca d a b m o sf => Sys2Proof.Machine.execXsca d a b m o sf s
  | .xacc d a b m o sf => Sys2Proof.Machine.execXacc d a b m o sf s
  | .xat o a b c z => Sys2Proof.Machine.execXat o a b c z s
  | .xdesc sf a => Sys2Proof.Machine.execXdesc sf a s
  | .xmap sf a => Sys2Proof.Machine.execXmap sf a s
  | .xswap sf a => Sys2Proof.Machine.execXswap sf a s
  | .xunmap sf => Sys2Proof.Machine.execXunmap sf s
  | .xmw sf a => Sys2Proof.Machine.execXmw sf a s
  | .xrpl d a b => Sys2Proof.Machine.execXrpl d a b s
  | .xrpf d a b => Sys2Proof.Machine.execXrpf d a b s
  | .xred d ab => Sys2Proof.Machine.execXred d ab s
  | .xgmap a => Sys2Proof.Machine.execXgmap a s
  | .xgunmap a => Sys2Proof.Machine.execXgunmap a s
  | .hnew d => Sys2Proof.Machine.execHnew d s
  | .hfork d a => Sys2Proof.Machine.execHfork d a s
  | .hjoin d a b sf => Sys2Proof.Machine.execHjoin d a b sf s
  | .hdrain a sf => Sys2Proof.Machine.execHdrain a sf s
  | .hpass a p => Sys2Proof.Machine.execHpass a p s
  | .hrecv d p => Sys2Proof.Machine.execHrecv d p s
  | .hfree a => Sys2Proof.Machine.execHfree a s
  | .ringInit g a => Sys2Proof.Machine.execRingInit g a s
  | .ringWfree g => Sys2Proof.Machine.execRingWfree g s
  | .ringPub g => Sys2Proof.Machine.execRingPub g s
  | .ringWfill g => Sys2Proof.Machine.execRingWfill g s
  | .ringRel g => Sys2Proof.Machine.execRingRel g s
  | .ringStat g => Sys2Proof.Machine.execRingStat g s
  | .barArr t => Sys2Proof.Machine.execBarArr t s
  | .barWait t => Sys2Proof.Machine.execBarWait t s
  | .flagAdd a b => Sys2Proof.Machine.execFlagAdd a b s
  | .flagSet a b c => Sys2Proof.Machine.execFlagSet a b c s
  | .flagWait a b => Sys2Proof.Machine.execFlagWait a b s
  | .ktopc d a b k => Sys2Proof.Machine.execKtopc d a b k s
  | .ktopr d a b k => Sys2Proof.Machine.execKtopr d a b k s
  | .kmerge d a b n => Sys2Proof.Machine.execKmerge d a b n s
  | .ksort d a b => Sys2Proof.Machine.execKsort d a b s
  | .khist d a n => Sys2Proof.Machine.execKhist d a n s
  | .kmark d a n => Sys2Proof.Machine.execKmark d a n s
  | .trap im => Sys2Proof.Machine.execTrap im s
  | .ebrk im => Sys2Proof.Machine.execEbrk im s
  | .klaunch a q => Sys2Proof.Machine.execKlaunch a q s
  | .eret => Sys2Proof.Machine.execEret s
  | .tinv a => Sys2Proof.Machine.execTinv a s
  | .ctxsave a => Sys2Proof.Machine.execCtxsave a s
  | .ctxload a => Sys2Proof.Machine.execCtxload a s
  | .spflush => Sys2Proof.Machine.execSpflush s
  | .sacinv => Sys2Proof.Machine.execSacinv s
  | .cntsnap a => Sys2Proof.Machine.execCntsnap a s
  | .wfi => Sys2Proof.Machine.execWfi s
  | .barcfg a t => Sys2Proof.Machine.execBarcfg a t s
  | .wordStart core eng => Sys2Proof.Machine.execWordStart core eng s
  | .tokenSignal core eng => Sys2Proof.Machine.execTokenSignal core eng s
  | .spanEndComplete core => Sys2Proof.Machine.execSpanEndComplete core s
  | .beatArrival pkt => Sys2Proof.Machine.execBeatArrival pkt s
  | .blockComplete core blk => Sys2Proof.Machine.execBlockComplete core blk s
  | .ackReceive pkt => Sys2Proof.Machine.execAckReceive pkt s
  | .hdrainComplete core => Sys2Proof.Machine.execHdrainComplete core s
  | .packetEviction arriving victim => Sys2Proof.Machine.execPacketEviction arriving victim s
  | .packetResend pkt => Sys2Proof.Machine.execPacketResend pkt s
  | .ackTimeoutResend pkt => Sys2Proof.Machine.execAckTimeoutResend pkt s
  | .rateLimitRelease pkt => Sys2Proof.Machine.execRateLimitRelease pkt s
  | .sliceBlockRequest pkt => Sys2Proof.Machine.execSliceBlockRequest pkt s
  | .slicePutBeat pkt => Sys2Proof.Machine.execSlicePutBeat pkt s
  | .sliceAccumulate pkt => Sys2Proof.Machine.execSliceAccumulate pkt s
  | .sliceAtomic pkt => Sys2Proof.Machine.execSliceAtomic pkt s
  | .xatReply pkt => Sys2Proof.Machine.execXatReply pkt s
  | .sliceScalarAccess pkt => Sys2Proof.Machine.execSliceScalarAccess pkt s
  | .ldgReply pkt => Sys2Proof.Machine.execLdgReply pkt s
  | .mapCacheFill core tenant tag => Sys2Proof.Machine.execMapCacheFill core tenant tag s
  | .flagAddApply pkt => Sys2Proof.Machine.execFlagAddApply pkt s
  | .flagSetApply pkt => Sys2Proof.Machine.execFlagSetApply pkt s
  | .flagWaitRetest core => Sys2Proof.Machine.execFlagWaitRetest core s
  | .barrierPhaseComplete tenant tag => Sys2Proof.Machine.execBarrierPhaseComplete tenant tag s
  | .channelElementArrive pkt => Sys2Proof.Machine.execChannelElementArrive pkt s
  | .channelCreditReturn pkt => Sys2Proof.Machine.execChannelCreditReturn pkt s
  | .channelPopTimeout core => Sys2Proof.Machine.execChannelPopTimeout core s
  | .mailboxTicketArrive pkt => Sys2Proof.Machine.execMailboxTicketArrive pkt s
  | .ticketConfirm pkt => Sys2Proof.Machine.execTicketConfirm pkt s
  | .reductionContribution pkt => Sys2Proof.Machine.execReductionContribution pkt s
  | .reductionTimeout group => Sys2Proof.Machine.execReductionTimeout group s
  | .reductionStatusDeliver pkt => Sys2Proof.Machine.execReductionStatusDeliver pkt s
  | .sacCheck pkt => Sys2Proof.Machine.execSacCheck pkt s
  | .sacFill pkt => Sys2Proof.Machine.execSacFill pkt s
  | .sacVerdictDeliver pkt => Sys2Proof.Machine.execSacVerdictDeliver pkt s
  | .launchHeadCheck tenant queue => Sys2Proof.Machine.execLaunchHeadCheck tenant queue s
  | .spanHandoff core => Sys2Proof.Machine.execSpanHandoff core s
  | .launchComplete tenant lid => Sys2Proof.Machine.execLaunchComplete tenant lid s
  | .controllerPeriod => Sys2Proof.Machine.execControllerPeriod s
  | .immediateSave core => Sys2Proof.Machine.execImmediateSave core s
  | .spanResume core => Sys2Proof.Machine.execSpanResume core s
  | .unitFirstTouch core unit => Sys2Proof.Machine.execUnitFirstTouch core unit s
  | .trapEntry core => Sys2Proof.Machine.execTrapEntry core s
  | .vfReset tenant => Sys2Proof.Machine.execVfReset tenant s
  | .qbellWrite tenant queue v => Sys2Proof.Machine.execQbellWrite tenant queue v s
  | .qstatClear tenant v => Sys2Proof.Machine.execQstatClear tenant v s
  | .cqidxHeadWrite tenant queue v => Sys2Proof.Machine.execCqidxHeadWrite tenant queue v s
  | .oboxRead tenant => Sys2Proof.Machine.execOboxRead tenant s
  | .iboxWrite tenant core v => Sys2Proof.Machine.execIboxWrite tenant core v s
  | .iboxovfClear tenant idx v => Sys2Proof.Machine.execIboxovfClear tenant idx v s
  | .mcgrpWrite tenant group idx v => Sys2Proof.Machine.execMcgrpWrite tenant group idx v s
  | .rgselWrite tenant v => Sys2Proof.Machine.execRgselWrite tenant v s
  | .rgcommitWrite tenant v => Sys2Proof.Machine.execRgcommitWrite tenant v s
  | .spdataStore tenant v => Sys2Proof.Machine.execSpdataStore tenant v s
  | .vfEnable tenant => Sys2Proof.Machine.execVfEnable tenant s
  | .rateLimitConfig tenant die v => Sys2Proof.Machine.execRateLimitConfig tenant die v s
  | .sacQuotaWrite tenant v => Sys2Proof.Machine.execSacQuotaWrite tenant v s
  | .registerWrite w => Sys2Proof.Machine.execRegisterWrite w s
  | .msixUnmask tenant vec => Sys2Proof.Machine.execMsixUnmask tenant vec s
  | .hostMemRead pa len => Sys2Proof.Machine.execHostMemRead pa len s
  | .hostMemWrite pa bytes => Sys2Proof.Machine.execHostMemWrite pa bytes s
  | .falardFlitReplay port => Sys2Proof.Machine.execFalardFlitReplay port s
  | .falardRetrain port => Sys2Proof.Machine.execFalardRetrain port s
  | .falardPortFail port => Sys2Proof.Machine.execFalardPortFail port s
  | .deviceReset => Sys2Proof.Machine.execDeviceReset s
  | .firmwareLoadDone ok => Sys2Proof.Machine.execFirmwareLoadDone ok s
  | .hbmTrainingDone ok => Sys2Proof.Machine.execHbmTrainingDone ok s
  | .falardTrainingDone up => Sys2Proof.Machine.execFalardTrainingDone up s
  | .powerLimitStep watts => Sys2Proof.Machine.execPowerLimitStep watts s
  | .thermalThrottle die temp => Sys2Proof.Machine.execThermalThrottle die temp s
  | .thermalShutdown temp flow => Sys2Proof.Machine.execThermalShutdown temp flow s
  | .counterFlush => Sys2Proof.Machine.execCounterFlush s
  | .lifetimeLogUpdate temps watts => Sys2Proof.Machine.execLifetimeLogUpdate temps watts s
  | .orderlyPowerOff => Sys2Proof.Machine.execOrderlyPowerOff s
  | .abruptPowerLoss => Sys2Proof.Machine.execAbruptPowerLoss s
  | .unitSpillComplete core unit => Sys2Proof.Machine.execUnitSpillComplete core unit s
  | .globalMapInstallArrive pkt => Sys2Proof.Machine.execGlobalMapInstallArrive pkt s
  | .sacInvalidationArrive pkt => Sys2Proof.Machine.execSacInvalidationArrive pkt s
  | .cntsnapRequestArrive pkt => Sys2Proof.Machine.execCntsnapRequestArrive pkt s
  | .hostRecallResponse line => Sys2Proof.Machine.execHostRecallResponse line s
  | .falardRetrainDone port ok => Sys2Proof.Machine.execFalardRetrainDone port ok s
  | .supplyDroop die millivolts => Sys2Proof.Machine.execSupplyDroop die millivolts s

end Sys2Proof.Machine
end

