-- ==== Sys2Proof/WellFormed.lean ====
section
/-! DEFINITION. Which instructions the encoding admits: the field rules of 04_encoding R41-R53 that a mask and a
pattern do not already state. An ill-formed word is not an instruction; its capture raises ILLEGAL (R53). -/

namespace Sys2Proof

/-- The destination codes R41 allows: 0-32 and 48-55. -/
def destOk (d : BitVec 6) : Bool := decide (d ≤ 32) || (decide (48 ≤ d) && decide (d ≤ 55))

/-- The field rules of each word (R42-R52). Events have no encoding and no field rules. -/
def Instr.wf : Instr → Bool
  | .nop => true
  | .add d _ _ => destOk d
  | .sub d _ _ => destOk d
  | .mul d _ _ => destOk d
  | .mulh d _ _ => destOk d
  | .mulhu d _ _ => destOk d
  | .div d _ _ => destOk d
  | .divu d _ _ => destOk d
  | .rem d _ _ => destOk d
  | .remu d _ _ => destOk d
  | .and d _ _ => destOk d
  | .or d _ _ => destOk d
  | .xor d _ _ => destOk d
  | .andn d _ _ => destOk d
  | .shl d _ _ => destOk d
  | .shr d _ _ => destOk d
  | .sra d _ _ => destOk d
  | .rotl d _ _ => destOk d
  | .min d _ _ => destOk d
  | .max d _ _ => destOk d
  | .minu d _ _ => destOk d
  | .maxu d _ _ => destOk d
  | .clz d _ => destOk d
  | .ctz d _ => destOk d
  | .popc d _ => destOk d
  | .addi d _ _ => destOk d
  | .andi d _ _ => destOk d
  | .ori d _ _ => destOk d
  | .xori d _ _ => destOk d
  | .shli d _ _ => destOk d
  | .shri d _ _ => destOk d
  | .srai d _ _ => destOk d
  | .muli d _ _ => destOk d
  | .li d _ => destOk d
  | .fadd d _ _ => destOk d
  | .fsub d _ _ => destOk d
  | .fmul d _ _ => destOk d
  | .fdiv d _ _ => destOk d
  | .fmin d _ _ => destOk d
  | .fmax d _ _ => destOk d
  | .fabs d _ => destOk d
  | .fneg d _ => destOk d
  | .fsqrt d _ => destOk d
  | .fcvtFw d _ => destOk d
  | .fcvtWf d _ => destOk d
  | .cmp _ _ _ c => decide (c ≤ 9)
  | .pand _ _ _ => true
  | .por _ _ _ => true
  | .pxor _ _ _ => true
  | .pandn _ _ _ => true
  | .csel d _ _ _ => destOk d
  | .pget s _ _ => destOk s
  | .pput _ _ _ => true
  | .tshape _ _ => true
  | .rdshape s _ => destOk s
  | .csrr s _ => destOk s
  | .csrw _ _ => true
  | .lds s _ _ => destOk s
  | .sts _ _ _ => true
  | .ldg s _ _ => destOk s
  | .stg _ _ _ => true
  | .br _ _ _ => true
  | .jmp _ => true
  | .call _ => true
  | .jr _ => true
  | .loopT l _ n => decide (l ≤ 2) && decide (1 ≤ n)
  | .loopRp l q n => decide (l ≤ 2) && decide (1 ≤ n) && decide (48 ≤ q) && decide (q ≤ 53)
  | .endw => true
  | .vadd _ _ _ w => decide (w ≠ 3)
  | .vsub _ _ _ w => decide (w ≠ 3)
  | .vmul _ _ _ w => decide (w ≠ 3)
  | .vdiv _ _ _ w => decide (w ≠ 3)
  | .vmin _ _ _ w => decide (w ≠ 3)
  | .vmax _ _ _ w => decide (w ≠ 3)
  | .vand _ _ _ w => decide (w ≠ 3)
  | .vor _ _ _ w => decide (w ≠ 3)
  | .vxor _ _ _ w => decide (w ≠ 3)
  | .vshl _ _ _ w => decide (w ≠ 3)
  | .vshr _ _ _ w => decide (w ≠ 3)
  | .vsra _ _ _ w => decide (w ≠ 3)
  | .vabs _ _ => true
  | .vneg _ _ => true
  | .vrcp _ _ => true
  | .vrsqrt _ _ => true
  | .vsqrt _ _ => true
  | .vexp2 _ _ => true
  | .vlog2 _ _ => true
  | .vtanh _ _ => true
  | .vsigm _ _ => true
  | .vsilu _ _ => true
  | .vfloor _ _ => true
  | .vrnd _ _ => true
  | .vmov _ _ => true
  | .vnot _ _ => true
  | .vcmp _ _ _ c => decide (c ≤ 9)
  | .vcvt _ _ => true
  | .vredr _ _ f => decide (f ≤ 4)
  | .vredc _ _ f => decide (f ≤ 4)
  | .vtrn _ _ => true
  | .vbcr _ _ => true
  | .vbcc _ _ => true
  | .vqnt _ _ _ => true
  | .vdqnt _ _ _ => true
  | .vvqd _ _ _ => true
  | .vcomp _ _ _ k => decide (k ≤ 1)
  | .vscan _ _ k => decide (k ≤ 1)
  | .vrmg _ _ _ => true
  | .vfill _ _ => true
  | .vget _ _ => true
  | .vput _ _ _ => true
  | .tld _ _ _ => true
  | .tst _ _ _ => true
  | .tldX _ _ _ => true
  | .tkill _ => true
  | .vcbld _ => true
  | .vrowm _ => true
  | .vfma _ _ _ _ => true
  | .vfms _ _ _ _ => true
  | .vsel _ _ _ _ => true
  | .vclamp _ _ _ _ => true
  | .mma _ _ _ _ _ => true
  | .mmaSp _ _ _ _ _ => true
  | .mmaG _ _ _ _ _ => true
  | .mrd _ _ k _ => decide (k < 128)
  | .mwr _ _ k _ => decide (k < 128)
  | .mclr _ => true
  | .mscl _ _ => true
  | .msclOff => true
  | .xget _ _ _ m s => (decide (s = 1) || decide (m = 0))
  | .xput _ _ _ m s => (decide (s = 1) || decide (m = 0))
  | .xsend _ _ _ m s => (decide (s = 1) || decide (m = 0))
  | .xgat _ _ _ m s => (decide (s = 1) || decide (m = 0))
  | .xsca _ _ _ m o s => (decide (s = 1) || decide (m = 0)) && decide (o ≠ 3)
  | .xacc _ _ _ m o s => (decide (s = 1) || decide (m = 0)) && decide (o ≠ 3)
  | .xat o _ _ c z => decide (o ≤ 10) && decide (z ≤ 1) && (decide (o ≠ 10) || decide (z = 0)) && (decide (o = 9) || decide (c = 56))
  | .xdesc _ _ => true
  | .xmap _ _ => true
  | .xswap _ _ => true
  | .xunmap _ => true
  | .xmw _ _ => true
  | .xrpl _ _ _ => true
  | .xrpf _ _ _ => true
  | .xred _ _ => true
  | .xgmap _ => true
  | .xgunmap _ => true
  | .hnew _ => true
  | .hfork _ _ => true
  | .hjoin _ _ _ s => decide (s ≤ 5)
  | .hdrain _ s => decide (s ≤ 5)
  | .hpass _ p => decide (p ≠ 54)
  | .hrecv _ p => ((decide (48 ≤ p) && decide (p ≤ 53)) || decide (p = 55))
  | .hfree _ => true
  | .ringInit _ _ => true
  | .ringWfree _ => true
  | .ringPub _ => true
  | .ringWfill _ => true
  | .ringRel _ => true
  | .ringStat _ => true
  | .barArr _ => true
  | .barWait _ => true
  | .flagAdd _ _ => true
  | .flagSet _ _ _ => true
  | .flagWait _ _ => true
  | .ktopc _ _ _ _ => true
  | .ktopr _ _ _ _ => true
  | .kmerge _ _ _ _ => true
  | .ksort _ _ _ => true
  | .khist _ _ _ => true
  | .kmark _ _ _ => true
  | .trap _ => true
  | .ebrk _ => true
  | .klaunch _ _ => true
  | .eret => true
  | .tinv _ => true
  | .ctxsave _ => true
  | .ctxload _ => true
  | .spflush => true
  | .sacinv => true
  | .cntsnap _ => true
  | .wfi => true
  | .barcfg _ _ => true
  | .wordStart _ _ => true
  | .tokenSignal _ _ => true
  | .spanEndComplete _ => true
  | .beatArrival _ => true
  | .blockComplete _ _ => true
  | .ackReceive _ => true
  | .hdrainComplete _ => true
  | .packetEviction _ _ => true
  | .packetResend _ => true
  | .ackTimeoutResend _ => true
  | .rateLimitRelease _ => true
  | .sliceBlockRequest _ => true
  | .slicePutBeat _ => true
  | .sliceAccumulate _ => true
  | .sliceAtomic _ => true
  | .xatReply _ => true
  | .sliceScalarAccess _ => true
  | .ldgReply _ => true
  | .mapCacheFill _ _ _ => true
  | .flagAddApply _ => true
  | .flagSetApply _ => true
  | .flagWaitRetest _ => true
  | .barrierPhaseComplete _ _ => true
  | .channelElementArrive _ => true
  | .channelCreditReturn _ => true
  | .channelPopTimeout _ => true
  | .mailboxTicketArrive _ => true
  | .ticketConfirm _ => true
  | .reductionContribution _ => true
  | .reductionTimeout _ => true
  | .reductionStatusDeliver _ => true
  | .sacCheck _ => true
  | .sacFill _ => true
  | .sacVerdictDeliver _ => true
  | .launchHeadCheck _ _ => true
  | .spanHandoff _ => true
  | .launchComplete _ _ => true
  | .controllerPeriod => true
  | .immediateSave _ => true
  | .spanResume _ => true
  | .unitFirstTouch _ _ => true
  | .trapEntry _ => true
  | .vfReset _ => true
  | .qbellWrite _ _ _ => true
  | .qstatClear _ _ => true
  | .cqidxHeadWrite _ _ _ => true
  | .oboxRead _ => true
  | .iboxWrite _ _ _ => true
  | .iboxovfClear _ _ _ => true
  | .mcgrpWrite _ _ _ _ => true
  | .rgselWrite _ _ => true
  | .rgcommitWrite _ _ => true
  | .spdataStore _ _ => true
  | .vfEnable _ => true
  | .rateLimitConfig _ _ _ => true
  | .sacQuotaWrite _ _ => true
  | .registerWrite _ => true
  | .msixUnmask _ _ => true
  | .hostMemRead _ _ => true
  | .hostMemWrite _ _ => true
  | .falardFlitReplay _ => true
  | .falardRetrain _ => true
  | .falardPortFail _ => true
  | .deviceReset => true
  | .firmwareLoadDone _ => true
  | .hbmTrainingDone _ => true
  | .falardTrainingDone _ => true
  | .powerLimitStep _ => true
  | .thermalThrottle _ _ => true
  | .thermalShutdown _ _ => true
  | .counterFlush => true
  | .lifetimeLogUpdate _ _ => true
  | .orderlyPowerOff => true
  | .abruptPowerLoss => true
  | .unitSpillComplete _ _ => true
  | .globalMapInstallArrive _ => true
  | .sacInvalidationArrive _ => true
  | .cntsnapRequestArrive _ => true
  | .hostRecallResponse _ => true
  | .falardRetrainDone _ _ => true
  | .supplyDroop _ _ => true

end Sys2Proof
end

