-- ==== Sys2Proof/Decode.lean ====
section
/-! DEFINITION. Decoding and encoding of instruction words, from the tables of 04_encoding (R34, R42-R52) and the
masks and patterns of the opcode table; decoding is total and rejects by name. -/

namespace Sys2Proof

/-- Why a pattern is not an instruction word (R53). -/
inductive Reject where
  /-- fewer than four bytes are given -/
  | short
  /-- engine value 111: a prefix word, which travels with its word (R30) -/
  | pfx
  /-- an unassigned op or sub-operation, or a non-zero field marked zero -/
  | unassigned
  /-- a field holds a value its word does not allow (R41, R43-R52) -/
  | badField
deriving DecidableEq, Repr

/-- One row of the opcode map: the fixed bits of a word, where they stand, and how its fields are read. -/
structure EncRow where
  pat : Word
  mask : Word
  build : Word → Instr


/-- Scalar and control words (000), part 1. -/
def rowsS0 : List EncRow :=
  [⟨0x00000000, 0xFFFFFFFF, fun _ => .nop⟩,
   ⟨0x00800000, 0xFF80001F, fun w => .add (w.extractLsb' 17 6) (w.extractLsb' 11 6) (w.extractLsb' 5 6)⟩,
   ⟨0x00800001, 0xFF80001F, fun w => .sub (w.extractLsb' 17 6) (w.extractLsb' 11 6) (w.extractLsb' 5 6)⟩,
   ⟨0x00800002, 0xFF80001F, fun w => .mul (w.extractLsb' 17 6) (w.extractLsb' 11 6) (w.extractLsb' 5 6)⟩,
   ⟨0x00800003, 0xFF80001F, fun w => .mulh (w.extractLsb' 17 6) (w.extractLsb' 11 6) (w.extractLsb' 5 6)⟩,
   ⟨0x00800004, 0xFF80001F, fun w => .mulhu (w.extractLsb' 17 6) (w.extractLsb' 11 6) (w.extractLsb' 5 6)⟩,
   ⟨0x00800005, 0xFF80001F, fun w => .div (w.extractLsb' 17 6) (w.extractLsb' 11 6) (w.extractLsb' 5 6)⟩,
   ⟨0x00800006, 0xFF80001F, fun w => .divu (w.extractLsb' 17 6) (w.extractLsb' 11 6) (w.extractLsb' 5 6)⟩,
   ⟨0x00800007, 0xFF80001F, fun w => .rem (w.extractLsb' 17 6) (w.extractLsb' 11 6) (w.extractLsb' 5 6)⟩,
   ⟨0x00800008, 0xFF80001F, fun w => .remu (w.extractLsb' 17 6) (w.extractLsb' 11 6) (w.extractLsb' 5 6)⟩,
   ⟨0x00800009, 0xFF80001F, fun w => .and (w.extractLsb' 17 6) (w.extractLsb' 11 6) (w.extractLsb' 5 6)⟩,
   ⟨0x0080000A, 0xFF80001F, fun w => .or (w.extractLsb' 17 6) (w.extractLsb' 11 6) (w.extractLsb' 5 6)⟩,
   ⟨0x0080000B, 0xFF80001F, fun w => .xor (w.extractLsb' 17 6) (w.extractLsb' 11 6) (w.extractLsb' 5 6)⟩,
   ⟨0x0080000C, 0xFF80001F, fun w => .andn (w.extractLsb' 17 6) (w.extractLsb' 11 6) (w.extractLsb' 5 6)⟩,
   ⟨0x0080000D, 0xFF80001F, fun w => .shl (w.extractLsb' 17 6) (w.extractLsb' 11 6) (w.extractLsb' 5 6)⟩,
   ⟨0x0080000E, 0xFF80001F, fun w => .shr (w.extractLsb' 17 6) (w.extractLsb' 11 6) (w.extractLsb' 5 6)⟩,
   ⟨0x0080000F, 0xFF80001F, fun w => .sra (w.extractLsb' 17 6) (w.extractLsb' 11 6) (w.extractLsb' 5 6)⟩,
   ⟨0x00800010, 0xFF80001F, fun w => .rotl (w.extractLsb' 17 6) (w.extractLsb' 11 6) (w.extractLsb' 5 6)⟩,
   ⟨0x00800011, 0xFF80001F, fun w => .min (w.extractLsb' 17 6) (w.extractLsb' 11 6) (w.extractLsb' 5 6)⟩,
   ⟨0x00800012, 0xFF80001F, fun w => .max (w.extractLsb' 17 6) (w.extractLsb' 11 6) (w.extractLsb' 5 6)⟩,
   ⟨0x00800013, 0xFF80001F, fun w => .minu (w.extractLsb' 17 6) (w.extractLsb' 11 6) (w.extractLsb' 5 6)⟩,
   ⟨0x00800014, 0xFF80001F, fun w => .maxu (w.extractLsb' 17 6) (w.extractLsb' 11 6) (w.extractLsb' 5 6)⟩,
   ⟨0x00800015, 0xFF8007FF, fun w => .clz (w.extractLsb' 17 6) (w.extractLsb' 11 6)⟩,
   ⟨0x00800016, 0xFF8007FF, fun w => .ctz (w.extractLsb' 17 6) (w.extractLsb' 11 6)⟩,
   ⟨0x00800017, 0xFF8007FF, fun w => .popc (w.extractLsb' 17 6) (w.extractLsb' 11 6)⟩,
   ⟨0x01000000, 0xFF800000, fun w => .addi (w.extractLsb' 17 6) (w.extractLsb' 11 6) (w.extractLsb' 0 11)⟩,
   ⟨0x01800000, 0xFF800000, fun w => .andi (w.extractLsb' 17 6) (w.extractLsb' 11 6) (w.extractLsb' 0 11)⟩,
   ⟨0x02000000, 0xFF800000, fun w => .ori (w.extractLsb' 17 6) (w.extractLsb' 11 6) (w.extractLsb' 0 11)⟩,
   ⟨0x02800000, 0xFF800000, fun w => .xori (w.extractLsb' 17 6) (w.extractLsb' 11 6) (w.extractLsb' 0 11)⟩,
   ⟨0x03000000, 0xFF800000, fun w => .shli (w.extractLsb' 17 6) (w.extractLsb' 11 6) (w.extractLsb' 0 11)⟩,
   ⟨0x03800000, 0xFF800000, fun w => .shri (w.extractLsb' 17 6) (w.extractLsb' 11 6) (w.extractLsb' 0 11)⟩,
   ⟨0x04000000, 0xFF800000, fun w => .srai (w.extractLsb' 17 6) (w.extractLsb' 11 6) (w.extractLsb' 0 11)⟩,
   ⟨0x04800000, 0xFF800000, fun w => .muli (w.extractLsb' 17 6) (w.extractLsb' 11 6) (w.extractLsb' 0 11)⟩,
   ⟨0x05000000, 0xFF81F800, fun w => .li (w.extractLsb' 17 6) (w.extractLsb' 0 11)⟩,
   ⟨0x05800000, 0xFF80001F, fun w => .fadd (w.extractLsb' 17 6) (w.extractLsb' 11 6) (w.extractLsb' 5 6)⟩,
   ⟨0x05800001, 0xFF80001F, fun w => .fsub (w.extractLsb' 17 6) (w.extractLsb' 11 6) (w.extractLsb' 5 6)⟩,
   ⟨0x05800002, 0xFF80001F, fun w => .fmul (w.extractLsb' 17 6) (w.extractLsb' 11 6) (w.extractLsb' 5 6)⟩,
   ⟨0x05800003, 0xFF80001F, fun w => .fdiv (w.extractLsb' 17 6) (w.extractLsb' 11 6) (w.extractLsb' 5 6)⟩,
   ⟨0x05800004, 0xFF80001F, fun w => .fmin (w.extractLsb' 17 6) (w.extractLsb' 11 6) (w.extractLsb' 5 6)⟩,
   ⟨0x05800005, 0xFF80001F, fun w => .fmax (w.extractLsb' 17 6) (w.extractLsb' 11 6) (w.extractLsb' 5 6)⟩]

/-- Scalar and control words (000), part 2. -/
def rowsS1 : List EncRow :=
  [⟨0x05800006, 0xFF8007FF, fun w => .fabs (w.extractLsb' 17 6) (w.extractLsb' 11 6)⟩,
   ⟨0x05800007, 0xFF8007FF, fun w => .fneg (w.extractLsb' 17 6) (w.extractLsb' 11 6)⟩,
   ⟨0x05800008, 0xFF8007FF, fun w => .fsqrt (w.extractLsb' 17 6) (w.extractLsb' 11 6)⟩,
   ⟨0x05800009, 0xFF8007FF, fun w => .fcvtFw (w.extractLsb' 17 6) (w.extractLsb' 11 6)⟩,
   ⟨0x0580000A, 0xFF8007FF, fun w => .fcvtWf (w.extractLsb' 17 6) (w.extractLsb' 11 6)⟩,
   ⟨0x06000000, 0xFF800000, fun w => .cmp (w.extractLsb' 16 7) (w.extractLsb' 10 6) (w.extractLsb' 4 6) (w.extractLsb' 0 4)⟩,
   ⟨0x06800000, 0xFF800003, fun w => .pand (w.extractLsb' 16 7) (w.extractLsb' 9 7) (w.extractLsb' 2 7)⟩,
   ⟨0x06800001, 0xFF800003, fun w => .por (w.extractLsb' 16 7) (w.extractLsb' 9 7) (w.extractLsb' 2 7)⟩,
   ⟨0x06800002, 0xFF800003, fun w => .pxor (w.extractLsb' 16 7) (w.extractLsb' 9 7) (w.extractLsb' 2 7)⟩,
   ⟨0x06800003, 0xFF800003, fun w => .pandn (w.extractLsb' 16 7) (w.extractLsb' 9 7) (w.extractLsb' 2 7)⟩,
   ⟨0x07000000, 0xFF800000, fun w => .csel (w.extractLsb' 17 6) (w.extractLsb' 11 6) (w.extractLsb' 5 6) (w.extractLsb' 0 5)⟩,
   ⟨0x07800000, 0xFF8002FF, fun w => .pget (w.extractLsb' 17 6) (w.extractLsb' 10 7) (w.extractLsb' 8 1)⟩,
   ⟨0x07800200, 0xFF8002FF, fun w => .pput (w.extractLsb' 17 6) (w.extractLsb' 10 7) (w.extractLsb' 8 1)⟩,
   ⟨0x08000000, 0xFF8007FF, fun w => .tshape (w.extractLsb' 17 6) (w.extractLsb' 11 6)⟩,
   ⟨0x08800000, 0xFF8007FF, fun w => .rdshape (w.extractLsb' 17 6) (w.extractLsb' 11 6)⟩,
   ⟨0x09000000, 0xFF80001F, fun w => .csrr (w.extractLsb' 17 6) (w.extractLsb' 5 12)⟩,
   ⟨0x09800000, 0xFF80001F, fun w => .csrw (w.extractLsb' 17 6) (w.extractLsb' 5 12)⟩,
   ⟨0x0A000000, 0xFF800000, fun w => .lds (w.extractLsb' 17 6) (w.extractLsb' 11 6) (w.extractLsb' 0 11)⟩,
   ⟨0x0A800000, 0xFF800000, fun w => .sts (w.extractLsb' 17 6) (w.extractLsb' 11 6) (w.extractLsb' 0 11)⟩,
   ⟨0x0B000000, 0xFF800000, fun w => .ldg (w.extractLsb' 17 6) (w.extractLsb' 11 6) (w.extractLsb' 0 11)⟩,
   ⟨0x0B800000, 0xFF800000, fun w => .stg (w.extractLsb' 17 6) (w.extractLsb' 11 6) (w.extractLsb' 0 11)⟩,
   ⟨0x0C000000, 0xFF800000, fun w => .br (w.extractLsb' 16 7) (w.extractLsb' 15 1) (w.extractLsb' 0 15)⟩,
   ⟨0x0C800000, 0xFF800000, fun w => .jmp (w.extractLsb' 0 23)⟩,
   ⟨0x0D000000, 0xFF800000, fun w => .call (w.extractLsb' 0 23)⟩,
   ⟨0x0D800000, 0xFFFE07FF, fun w => .jr (w.extractLsb' 11 6)⟩,
   ⟨0x0E000000, 0xFF800000, fun w => .loopT (w.extractLsb' 21 2) (w.extractLsb' 15 6) (w.extractLsb' 0 15)⟩,
   ⟨0x0E800000, 0xFF800000, fun w => .loopRp (w.extractLsb' 21 2) (w.extractLsb' 15 6) (w.extractLsb' 0 15)⟩,
   ⟨0x0F000000, 0xFFFFFFFF, fun _ => .endw⟩]

/-- Vector words (001), part 1. -/
def rowsV0 : List EncRow :=
  [⟨0x20400000, 0xFFC0000C, fun w => .vadd (w.extractLsb' 16 6) (w.extractLsb' 10 6) (w.extractLsb' 4 6) (w.extractLsb' 0 2)⟩,
   ⟨0x20800000, 0xFFC0000C, fun w => .vsub (w.extractLsb' 16 6) (w.extractLsb' 10 6) (w.extractLsb' 4 6) (w.extractLsb' 0 2)⟩,
   ⟨0x20C00000, 0xFFC0000C, fun w => .vmul (w.extractLsb' 16 6) (w.extractLsb' 10 6) (w.extractLsb' 4 6) (w.extractLsb' 0 2)⟩,
   ⟨0x21000000, 0xFFC0000C, fun w => .vdiv (w.extractLsb' 16 6) (w.extractLsb' 10 6) (w.extractLsb' 4 6) (w.extractLsb' 0 2)⟩,
   ⟨0x21400000, 0xFFC0000C, fun w => .vmin (w.extractLsb' 16 6) (w.extractLsb' 10 6) (w.extractLsb' 4 6) (w.extractLsb' 0 2)⟩,
   ⟨0x21800000, 0xFFC0000C, fun w => .vmax (w.extractLsb' 16 6) (w.extractLsb' 10 6) (w.extractLsb' 4 6) (w.extractLsb' 0 2)⟩,
   ⟨0x21C00000, 0xFFC0000C, fun w => .vand (w.extractLsb' 16 6) (w.extractLsb' 10 6) (w.extractLsb' 4 6) (w.extractLsb' 0 2)⟩,
   ⟨0x22000000, 0xFFC0000C, fun w => .vor (w.extractLsb' 16 6) (w.extractLsb' 10 6) (w.extractLsb' 4 6) (w.extractLsb' 0 2)⟩,
   ⟨0x22400000, 0xFFC0000C, fun w => .vxor (w.extractLsb' 16 6) (w.extractLsb' 10 6) (w.extractLsb' 4 6) (w.extractLsb' 0 2)⟩,
   ⟨0x22800000, 0xFFC0000C, fun w => .vshl (w.extractLsb' 16 6) (w.extractLsb' 10 6) (w.extractLsb' 4 6) (w.extractLsb' 0 2)⟩,
   ⟨0x22C00000, 0xFFC0000C, fun w => .vshr (w.extractLsb' 16 6) (w.extractLsb' 10 6) (w.extractLsb' 4 6) (w.extractLsb' 0 2)⟩,
   ⟨0x23000000, 0xFFC0000C, fun w => .vsra (w.extractLsb' 16 6) (w.extractLsb' 10 6) (w.extractLsb' 4 6) (w.extractLsb' 0 2)⟩,
   ⟨0x24000000, 0xFFC003FF, fun w => .vabs (w.extractLsb' 16 6) (w.extractLsb' 10 6)⟩,
   ⟨0x24000001, 0xFFC003FF, fun w => .vneg (w.extractLsb' 16 6) (w.extractLsb' 10 6)⟩,
   ⟨0x24000002, 0xFFC003FF, fun w => .vrcp (w.extractLsb' 16 6) (w.extractLsb' 10 6)⟩,
   ⟨0x24000003, 0xFFC003FF, fun w => .vrsqrt (w.extractLsb' 16 6) (w.extractLsb' 10 6)⟩,
   ⟨0x24000004, 0xFFC003FF, fun w => .vsqrt (w.extractLsb' 16 6) (w.extractLsb' 10 6)⟩,
   ⟨0x24000005, 0xFFC003FF, fun w => .vexp2 (w.extractLsb' 16 6) (w.extractLsb' 10 6)⟩,
   ⟨0x24000006, 0xFFC003FF, fun w => .vlog2 (w.extractLsb' 16 6) (w.extractLsb' 10 6)⟩,
   ⟨0x24000007, 0xFFC003FF, fun w => .vtanh (w.extractLsb' 16 6) (w.extractLsb' 10 6)⟩,
   ⟨0x24000008, 0xFFC003FF, fun w => .vsigm (w.extractLsb' 16 6) (w.extractLsb' 10 6)⟩,
   ⟨0x24000009, 0xFFC003FF, fun w => .vsilu (w.extractLsb' 16 6) (w.extractLsb' 10 6)⟩,
   ⟨0x2400000A, 0xFFC003FF, fun w => .vfloor (w.extractLsb' 16 6) (w.extractLsb' 10 6)⟩,
   ⟨0x2400000B, 0xFFC003FF, fun w => .vrnd (w.extractLsb' 16 6) (w.extractLsb' 10 6)⟩,
   ⟨0x2400000C, 0xFFC003FF, fun w => .vmov (w.extractLsb' 16 6) (w.extractLsb' 10 6)⟩,
   ⟨0x2400000D, 0xFFC003FF, fun w => .vnot (w.extractLsb' 16 6) (w.extractLsb' 10 6)⟩,
   ⟨0x24400000, 0xFFC00000, fun w => .vcmp (w.extractLsb' 16 6) (w.extractLsb' 10 6) (w.extractLsb' 4 6) (w.extractLsb' 0 4)⟩,
   ⟨0x24800000, 0xFFC003FF, fun w => .vcvt (w.extractLsb' 16 6) (w.extractLsb' 10 6)⟩,
   ⟨0x24C00000, 0xFFC003F0, fun w => .vredr (w.extractLsb' 16 6) (w.extractLsb' 10 6) (w.extractLsb' 0 4)⟩,
   ⟨0x25000000, 0xFFC003F0, fun w => .vredc (w.extractLsb' 16 6) (w.extractLsb' 10 6) (w.extractLsb' 0 4)⟩,
   ⟨0x25400000, 0xFFC003FF, fun w => .vtrn (w.extractLsb' 16 6) (w.extractLsb' 10 6)⟩,
   ⟨0x25800000, 0xFFC003FF, fun w => .vbcr (w.extractLsb' 16 6) (w.extractLsb' 10 6)⟩,
   ⟨0x25C00000, 0xFFC003FF, fun w => .vbcc (w.extractLsb' 16 6) (w.extractLsb' 10 6)⟩,
   ⟨0x26000000, 0xFFC0000F, fun w => .vqnt (w.extractLsb' 16 6) (w.extractLsb' 10 6) (w.extractLsb' 4 6)⟩,
   ⟨0x26400000, 0xFFC0000F, fun w => .vdqnt (w.extractLsb' 16 6) (w.extractLsb' 10 6) (w.extractLsb' 4 6)⟩,
   ⟨0x26800000, 0xFFC0000F, fun w => .vvqd (w.extractLsb' 16 6) (w.extractLsb' 10 6) (w.extractLsb' 4 6)⟩,
   ⟨0x26C00000, 0xFFC00000, fun w => .vcomp (w.extractLsb' 16 6) (w.extractLsb' 10 6) (w.extractLsb' 4 6) (w.extractLsb' 0 4)⟩,
   ⟨0x27000000, 0xFFC003F0, fun w => .vscan (w.extractLsb' 16 6) (w.extractLsb' 10 6) (w.extractLsb' 0 4)⟩,
   ⟨0x27400000, 0xFFC003C0, fun w => .vrmg (w.extractLsb' 16 6) (w.extractLsb' 10 6) (w.extractLsb' 0 6)⟩,
   ⟨0x27800000, 0xFFC003FF, fun w => .vfill (w.extractLsb' 16 6) (w.extractLsb' 10 6)⟩]

/-- Vector words (001), part 2. -/
def rowsV1 : List EncRow :=
  [⟨0x27C00000, 0xFFC003FF, fun w => .vget (w.extractLsb' 16 6) (w.extractLsb' 10 6)⟩,
   ⟨0x28000000, 0xFFC0000F, fun w => .vput (w.extractLsb' 16 6) (w.extractLsb' 10 6) (w.extractLsb' 4 6)⟩,
   ⟨0x28400000, 0xFFC00000, fun w => .tld (w.extractLsb' 16 6) (w.extractLsb' 10 6) (w.extractLsb' 0 10)⟩,
   ⟨0x28800000, 0xFFC00000, fun w => .tst (w.extractLsb' 16 6) (w.extractLsb' 10 6) (w.extractLsb' 0 10)⟩,
   ⟨0x28C00000, 0xFFC00000, fun w => .tldX (w.extractLsb' 16 6) (w.extractLsb' 10 6) (w.extractLsb' 0 10)⟩,
   ⟨0x29000000, 0xFFC0FFFF, fun w => .tkill (w.extractLsb' 16 6)⟩,
   ⟨0x29400000, 0xFFC0FFFF, fun w => .vcbld (w.extractLsb' 16 6)⟩,
   ⟨0x29800000, 0xFFC0FFFF, fun w => .vrowm (w.extractLsb' 16 6)⟩,
   ⟨0x38000000, 0xFF000000, fun w => .vfma (w.extractLsb' 18 6) (w.extractLsb' 12 6) (w.extractLsb' 6 6) (w.extractLsb' 0 6)⟩,
   ⟨0x39000000, 0xFF000000, fun w => .vfms (w.extractLsb' 18 6) (w.extractLsb' 12 6) (w.extractLsb' 6 6) (w.extractLsb' 0 6)⟩,
   ⟨0x3A000000, 0xFF000000, fun w => .vsel (w.extractLsb' 18 6) (w.extractLsb' 12 6) (w.extractLsb' 6 6) (w.extractLsb' 0 6)⟩,
   ⟨0x3B000000, 0xFF000000, fun w => .vclamp (w.extractLsb' 18 6) (w.extractLsb' 12 6) (w.extractLsb' 6 6) (w.extractLsb' 0 6)⟩]

/-- Matrix words (010), part 1. -/
def rowsM0 : List EncRow :=
  [⟨0x41000000, 0xFF000008, fun w => .mma (w.extractLsb' 22 2) (w.extractLsb' 16 6) (w.extractLsb' 10 6) (w.extractLsb' 4 6) (w.extractLsb' 0 3)⟩,
   ⟨0x42000000, 0xFF000008, fun w => .mmaSp (w.extractLsb' 22 2) (w.extractLsb' 16 6) (w.extractLsb' 10 6) (w.extractLsb' 4 6) (w.extractLsb' 0 3)⟩,
   ⟨0x43000000, 0xFF000008, fun w => .mmaG (w.extractLsb' 22 2) (w.extractLsb' 16 6) (w.extractLsb' 10 6) (w.extractLsb' 4 6) (w.extractLsb' 0 3)⟩,
   ⟨0x44000000, 0xFF0000F7, fun w => .mrd (w.extractLsb' 22 2) (w.extractLsb' 16 6) (w.extractLsb' 8 8) (w.extractLsb' 3 1)⟩,
   ⟨0x45000000, 0xFF0000F7, fun w => .mwr (w.extractLsb' 22 2) (w.extractLsb' 16 6) (w.extractLsb' 8 8) (w.extractLsb' 3 1)⟩,
   ⟨0x46000000, 0xFF3FFFFF, fun w => .mclr (w.extractLsb' 22 2)⟩,
   ⟨0x47000000, 0xFFC003FF, fun w => .mscl (w.extractLsb' 16 6) (w.extractLsb' 10 6)⟩,
   ⟨0x47000001, 0xFFFFFFFF, fun _ => .msclOff⟩]

/-- Transfer words (011), part 1. -/
def rowsX0 : List EncRow :=
  [⟨0x61000000, 0xFF00000E, fun w => .xget (w.extractLsb' 20 4) (w.extractLsb' 14 6) (w.extractLsb' 8 6) (w.extractLsb' 4 4) (w.extractLsb' 0 1)⟩,
   ⟨0x62000000, 0xFF00000E, fun w => .xput (w.extractLsb' 20 4) (w.extractLsb' 14 6) (w.extractLsb' 8 6) (w.extractLsb' 4 4) (w.extractLsb' 0 1)⟩,
   ⟨0x63000000, 0xFF00000E, fun w => .xsend (w.extractLsb' 20 4) (w.extractLsb' 14 6) (w.extractLsb' 8 6) (w.extractLsb' 4 4) (w.extractLsb' 0 1)⟩,
   ⟨0x64000000, 0xFF00000E, fun w => .xgat (w.extractLsb' 20 4) (w.extractLsb' 14 6) (w.extractLsb' 8 6) (w.extractLsb' 4 4) (w.extractLsb' 0 1)⟩,
   ⟨0x65000000, 0xFF000008, fun w => .xsca (w.extractLsb' 20 4) (w.extractLsb' 14 6) (w.extractLsb' 8 6) (w.extractLsb' 4 4) (w.extractLsb' 1 2) (w.extractLsb' 0 1)⟩,
   ⟨0x66000000, 0xFF000008, fun w => .xacc (w.extractLsb' 20 4) (w.extractLsb' 14 6) (w.extractLsb' 8 6) (w.extractLsb' 4 4) (w.extractLsb' 1 2) (w.extractLsb' 0 1)⟩,
   ⟨0x67000000, 0xFF000000, fun w => .xat (w.extractLsb' 20 4) (w.extractLsb' 14 6) (w.extractLsb' 8 6) (w.extractLsb' 2 6) (w.extractLsb' 0 2)⟩,
   ⟨0x68000000, 0xFF003FFF, fun w => .xdesc (w.extractLsb' 20 4) (w.extractLsb' 14 6)⟩,
   ⟨0x69000000, 0xFF003FFF, fun w => .xmap (w.extractLsb' 20 4) (w.extractLsb' 14 6)⟩,
   ⟨0x6A000000, 0xFF003FFF, fun w => .xswap (w.extractLsb' 20 4) (w.extractLsb' 14 6)⟩,
   ⟨0x6B000000, 0xFF0FFFFF, fun w => .xunmap (w.extractLsb' 20 4)⟩,
   ⟨0x6C000000, 0xFF003FFF, fun w => .xmw (w.extractLsb' 20 4) (w.extractLsb' 14 6)⟩,
   ⟨0x6D000000, 0xFF0000FF, fun w => .xrpl (w.extractLsb' 20 4) (w.extractLsb' 14 6) (w.extractLsb' 8 6)⟩,
   ⟨0x6E000000, 0xFF0000FF, fun w => .xrpf (w.extractLsb' 20 4) (w.extractLsb' 14 6) (w.extractLsb' 8 6)⟩,
   ⟨0x6F000000, 0xFF0000FF, fun w => .xred (w.extractLsb' 20 4) (w.extractLsb' 14 6, w.extractLsb' 8 6)⟩,
   ⟨0x70000000, 0xFFF03FFF, fun w => .xgmap (w.extractLsb' 14 6)⟩,
   ⟨0x71000000, 0xFFF03FFF, fun w => .xgunmap (w.extractLsb' 14 6)⟩]

/-- Synchronisation words (100), part 1. -/
def rowsY0 : List EncRow :=
  [⟨0x81000000, 0xFF07FFFF, fun w => .hnew (w.extractLsb' 19 5)⟩,
   ⟨0x82000000, 0xFF003FFF, fun w => .hfork (w.extractLsb' 19 5) (w.extractLsb' 14 5)⟩,
   ⟨0x83000000, 0xFF00003F, fun w => .hjoin (w.extractLsb' 19 5) (w.extractLsb' 14 5) (w.extractLsb' 9 5) (w.extractLsb' 6 3)⟩,
   ⟨0x84000000, 0xFFF83E3F, fun w => .hdrain (w.extractLsb' 14 5) (w.extractLsb' 6 3)⟩,
   ⟨0x85000000, 0xFFF83FC0, fun w => .hpass (w.extractLsb' 14 5) (w.extractLsb' 0 6)⟩,
   ⟨0x86000000, 0xFF07FFC0, fun w => .hrecv (w.extractLsb' 19 5) (w.extractLsb' 0 6)⟩,
   ⟨0x87000000, 0xFFF83FFF, fun w => .hfree (w.extractLsb' 14 5)⟩,
   ⟨0x88000000, 0xFF003FFF, fun w => .ringInit (w.extractLsb' 20 4) (w.extractLsb' 14 6)⟩,
   ⟨0x89000000, 0xFF0FFFFF, fun w => .ringWfree (w.extractLsb' 20 4)⟩,
   ⟨0x8A000000, 0xFF0FFFFF, fun w => .ringPub (w.extractLsb' 20 4)⟩,
   ⟨0x8B000000, 0xFF0FFFFF, fun w => .ringWfill (w.extractLsb' 20 4)⟩,
   ⟨0x8C000000, 0xFF0FFFFF, fun w => .ringRel (w.extractLsb' 20 4)⟩,
   ⟨0x8D000000, 0xFF0FFFFF, fun w => .ringStat (w.extractLsb' 20 4)⟩,
   ⟨0x8E000000, 0xFF1FFFFF, fun w => .barArr (w.extractLsb' 21 3)⟩,
   ⟨0x8F000000, 0xFF1FFFFF, fun w => .barWait (w.extractLsb' 21 3)⟩,
   ⟨0x90000000, 0xFF000FFF, fun w => .flagAdd (w.extractLsb' 18 6) (w.extractLsb' 12 6)⟩,
   ⟨0x91000000, 0xFF00003F, fun w => .flagSet (w.extractLsb' 18 6) (w.extractLsb' 12 6) (w.extractLsb' 6 6)⟩,
   ⟨0x92000000, 0xFF000FFF, fun w => .flagWait (w.extractLsb' 18 6) (w.extractLsb' 12 6)⟩]

/-- Selection words (101), part 1. -/
def rowsK0 : List EncRow :=
  [⟨0xA1000000, 0xFF000000, fun w => .ktopc (w.extractLsb' 18 6) (w.extractLsb' 12 6) (w.extractLsb' 6 6) (w.extractLsb' 0 6)⟩,
   ⟨0xA2000000, 0xFF000000, fun w => .ktopr (w.extractLsb' 18 6) (w.extractLsb' 12 6) (w.extractLsb' 6 6) (w.extractLsb' 0 6)⟩,
   ⟨0xA3000000, 0xFF000000, fun w => .kmerge (w.extractLsb' 18 6) (w.extractLsb' 12 6) (w.extractLsb' 6 6) (w.extractLsb' 0 6)⟩,
   ⟨0xA4000000, 0xFF00003F, fun w => .ksort (w.extractLsb' 18 6) (w.extractLsb' 12 6) (w.extractLsb' 6 6)⟩,
   ⟨0xA5000000, 0xFF000FC0, fun w => .khist (w.extractLsb' 18 6) (w.extractLsb' 12 6) (w.extractLsb' 0 6)⟩,
   ⟨0xA6000000, 0xFF000FC0, fun w => .kmark (w.extractLsb' 18 6) (w.extractLsb' 12 6) (w.extractLsb' 0 6)⟩]

/-- System words (110), part 1. -/
def rowsSystem0 : List EncRow :=
  [⟨0xC0800000, 0xFFFE0000, fun w => .trap (w.extractLsb' 0 17)⟩,
   ⟨0xC1000000, 0xFFFE0000, fun w => .ebrk (w.extractLsb' 0 17)⟩,
   ⟨0xC1800000, 0xFF81FFF0, fun w => .klaunch (w.extractLsb' 17 6) (w.extractLsb' 0 4)⟩,
   ⟨0xC2000000, 0xFFFFFFFF, fun _ => .eret⟩,
   ⟨0xC2800000, 0xFF81FFFF, fun w => .tinv (w.extractLsb' 17 6)⟩,
   ⟨0xC3000000, 0xFF81FFFF, fun w => .ctxsave (w.extractLsb' 17 6)⟩,
   ⟨0xC3800000, 0xFF81FFFF, fun w => .ctxload (w.extractLsb' 17 6)⟩,
   ⟨0xC4000000, 0xFFFFFFFF, fun _ => .spflush⟩,
   ⟨0xC4800000, 0xFFFFFFFF, fun _ => .sacinv⟩,
   ⟨0xC5000000, 0xFF81FFFF, fun w => .cntsnap (w.extractLsb' 17 6)⟩,
   ⟨0xC5800000, 0xFFFFFFFF, fun _ => .wfi⟩,
   ⟨0xC6000000, 0xFF81FFF8, fun w => .barcfg (w.extractLsb' 17 6) (w.extractLsb' 0 3)⟩]

/-- The opcode map (R43-R52): every assigned pattern. -/
def encRows : List EncRow :=
  rowsS0 ++ rowsS1 ++ rowsV0 ++ rowsV1 ++ rowsM0 ++ rowsX0 ++ rowsY0 ++ rowsK0 ++ rowsSystem0

/-- The first row of a list whose fixed bits a word has. -/
def findRow (w : Word) : List EncRow → Option EncRow
  | [] => none
  | r :: rs => if w &&& r.mask = r.pat then some r else findRow w rs

/-- The instruction a 32-bit word stands for (R30, R43-R53). -/
def decode (w : Word) : Except Reject Instr :=
  if w.extractLsb' 29 3 = 7#3 then .error .pfx
  else
    match findRow w encRows with
    | none => .error .unassigned
    | some r => if (r.build w).wf then .ok (r.build w) else .error .badField

/-- A little-endian word from four bytes (R4). -/
def word32 (b0 b1 b2 b3 : Byte) : Word := b3 ++ b2 ++ b1 ++ b0

/-- Decoding of stored bytes: the instruction and the bytes after it. -/
def decodeBytes : List Byte → Except Reject (Instr × List Byte)
  | b0 :: b1 :: b2 :: b3 :: rest => (decode (word32 b0 b1 b2 b3)).map (fun i => (i, rest))
  | _ => .error .short

/-- The four bytes of a word, lowest address first (R4). -/
def bytes32 (w : Word) : List Byte :=
  [w.extractLsb' 0 8, w.extractLsb' 8 8, w.extractLsb' 16 8, w.extractLsb' 24 8]

/-- What the decoder reads from a row's bits, as the opcode table numbers them: every instruction of this hardware
is one 32-bit little-endian word, and an event row has no bits. -/
def decodeTableWord (nbits w : Nat) : Option Instr :=
  if nbits = 0 then none
  else
    match decodeBytes (bytes32 (BitVec.ofNat 32 w)) with
    | .ok (i, _) => some i
    | .error _ => none


/-- The word of an instruction (R42-R52); an event has none. -/
def encode : Instr → Option Word
  | .nop => some (0x00000000#32)
  | .add d a b => some (0x00800000#32 ||| (d.setWidth 32 <<< 17) ||| (a.setWidth 32 <<< 11) ||| (b.setWidth 32 <<< 5))
  | .sub d a b => some (0x00800001#32 ||| (d.setWidth 32 <<< 17) ||| (a.setWidth 32 <<< 11) ||| (b.setWidth 32 <<< 5))
  | .mul d a b => some (0x00800002#32 ||| (d.setWidth 32 <<< 17) ||| (a.setWidth 32 <<< 11) ||| (b.setWidth 32 <<< 5))
  | .mulh d a b => some (0x00800003#32 ||| (d.setWidth 32 <<< 17) ||| (a.setWidth 32 <<< 11) ||| (b.setWidth 32 <<< 5))
  | .mulhu d a b => some (0x00800004#32 ||| (d.setWidth 32 <<< 17) ||| (a.setWidth 32 <<< 11) ||| (b.setWidth 32 <<< 5))
  | .div d a b => some (0x00800005#32 ||| (d.setWidth 32 <<< 17) ||| (a.setWidth 32 <<< 11) ||| (b.setWidth 32 <<< 5))
  | .divu d a b => some (0x00800006#32 ||| (d.setWidth 32 <<< 17) ||| (a.setWidth 32 <<< 11) ||| (b.setWidth 32 <<< 5))
  | .rem d a b => some (0x00800007#32 ||| (d.setWidth 32 <<< 17) ||| (a.setWidth 32 <<< 11) ||| (b.setWidth 32 <<< 5))
  | .remu d a b => some (0x00800008#32 ||| (d.setWidth 32 <<< 17) ||| (a.setWidth 32 <<< 11) ||| (b.setWidth 32 <<< 5))
  | .and d a b => some (0x00800009#32 ||| (d.setWidth 32 <<< 17) ||| (a.setWidth 32 <<< 11) ||| (b.setWidth 32 <<< 5))
  | .or d a b => some (0x0080000A#32 ||| (d.setWidth 32 <<< 17) ||| (a.setWidth 32 <<< 11) ||| (b.setWidth 32 <<< 5))
  | .xor d a b => some (0x0080000B#32 ||| (d.setWidth 32 <<< 17) ||| (a.setWidth 32 <<< 11) ||| (b.setWidth 32 <<< 5))
  | .andn d a b => some (0x0080000C#32 ||| (d.setWidth 32 <<< 17) ||| (a.setWidth 32 <<< 11) ||| (b.setWidth 32 <<< 5))
  | .shl d a b => some (0x0080000D#32 ||| (d.setWidth 32 <<< 17) ||| (a.setWidth 32 <<< 11) ||| (b.setWidth 32 <<< 5))
  | .shr d a b => some (0x0080000E#32 ||| (d.setWidth 32 <<< 17) ||| (a.setWidth 32 <<< 11) ||| (b.setWidth 32 <<< 5))
  | .sra d a b => some (0x0080000F#32 ||| (d.setWidth 32 <<< 17) ||| (a.setWidth 32 <<< 11) ||| (b.setWidth 32 <<< 5))
  | .rotl d a b => some (0x00800010#32 ||| (d.setWidth 32 <<< 17) ||| (a.setWidth 32 <<< 11) ||| (b.setWidth 32 <<< 5))
  | .min d a b => some (0x00800011#32 ||| (d.setWidth 32 <<< 17) ||| (a.setWidth 32 <<< 11) ||| (b.setWidth 32 <<< 5))
  | .max d a b => some (0x00800012#32 ||| (d.setWidth 32 <<< 17) ||| (a.setWidth 32 <<< 11) ||| (b.setWidth 32 <<< 5))
  | .minu d a b => some (0x00800013#32 ||| (d.setWidth 32 <<< 17) ||| (a.setWidth 32 <<< 11) ||| (b.setWidth 32 <<< 5))
  | .maxu d a b => some (0x00800014#32 ||| (d.setWidth 32 <<< 17) ||| (a.setWidth 32 <<< 11) ||| (b.setWidth 32 <<< 5))
  | .clz d a => some (0x00800015#32 ||| (d.setWidth 32 <<< 17) ||| (a.setWidth 32 <<< 11))
  | .ctz d a => some (0x00800016#32 ||| (d.setWidth 32 <<< 17) ||| (a.setWidth 32 <<< 11))
  | .popc d a => some (0x00800017#32 ||| (d.setWidth 32 <<< 17) ||| (a.setWidth 32 <<< 11))
  | .addi d a i => some (0x01000000#32 ||| (d.setWidth 32 <<< 17) ||| (a.setWidth 32 <<< 11) ||| i.setWidth 32)
  | .andi d a i => some (0x01800000#32 ||| (d.setWidth 32 <<< 17) ||| (a.setWidth 32 <<< 11) ||| i.setWidth 32)
  | .ori d a i => some (0x02000000#32 ||| (d.setWidth 32 <<< 17) ||| (a.setWidth 32 <<< 11) ||| i.setWidth 32)
  | .xori d a i => some (0x02800000#32 ||| (d.setWidth 32 <<< 17) ||| (a.setWidth 32 <<< 11) ||| i.setWidth 32)
  | .shli d a i => some (0x03000000#32 ||| (d.setWidth 32 <<< 17) ||| (a.setWidth 32 <<< 11) ||| i.setWidth 32)
  | .shri d a i => some (0x03800000#32 ||| (d.setWidth 32 <<< 17) ||| (a.setWidth 32 <<< 11) ||| i.setWidth 32)
  | .srai d a i => some (0x04000000#32 ||| (d.setWidth 32 <<< 17) ||| (a.setWidth 32 <<< 11) ||| i.setWidth 32)
  | .muli d a i => some (0x04800000#32 ||| (d.setWidth 32 <<< 17) ||| (a.setWidth 32 <<< 11) ||| i.setWidth 32)
  | .li d i => some (0x05000000#32 ||| (d.setWidth 32 <<< 17) ||| i.setWidth 32)
  | .fadd d a b => some (0x05800000#32 ||| (d.setWidth 32 <<< 17) ||| (a.setWidth 32 <<< 11) ||| (b.setWidth 32 <<< 5))
  | .fsub d a b => some (0x05800001#32 ||| (d.setWidth 32 <<< 17) ||| (a.setWidth 32 <<< 11) ||| (b.setWidth 32 <<< 5))
  | .fmul d a b => some (0x05800002#32 ||| (d.setWidth 32 <<< 17) ||| (a.setWidth 32 <<< 11) ||| (b.setWidth 32 <<< 5))
  | .fdiv d a b => some (0x05800003#32 ||| (d.setWidth 32 <<< 17) ||| (a.setWidth 32 <<< 11) ||| (b.setWidth 32 <<< 5))
  | .fmin d a b => some (0x05800004#32 ||| (d.setWidth 32 <<< 17) ||| (a.setWidth 32 <<< 11) ||| (b.setWidth 32 <<< 5))
  | .fmax d a b => some (0x05800005#32 ||| (d.setWidth 32 <<< 17) ||| (a.setWidth 32 <<< 11) ||| (b.setWidth 32 <<< 5))
  | .fabs d a => some (0x05800006#32 ||| (d.setWidth 32 <<< 17) ||| (a.setWidth 32 <<< 11))
  | .fneg d a => some (0x05800007#32 ||| (d.setWidth 32 <<< 17) ||| (a.setWidth 32 <<< 11))
  | .fsqrt d a => some (0x05800008#32 ||| (d.setWidth 32 <<< 17) ||| (a.setWidth 32 <<< 11))
  | .fcvtFw d a => some (0x05800009#32 ||| (d.setWidth 32 <<< 17) ||| (a.setWidth 32 <<< 11))
  | .fcvtWf d a => some (0x0580000A#32 ||| (d.setWidth 32 <<< 17) ||| (a.setWidth 32 <<< 11))
  | .cmp p a b c => some (0x06000000#32 ||| (p.setWidth 32 <<< 16) ||| (a.setWidth 32 <<< 10) ||| (b.setWidth 32 <<< 4) ||| c.setWidth 32)
  | .pand d a b => some (0x06800000#32 ||| (d.setWidth 32 <<< 16) ||| (a.setWidth 32 <<< 9) ||| (b.setWidth 32 <<< 2))
  | .por d a b => some (0x06800001#32 ||| (d.setWidth 32 <<< 16) ||| (a.setWidth 32 <<< 9) ||| (b.setWidth 32 <<< 2))
  | .pxor d a b => some (0x06800002#32 ||| (d.setWidth 32 <<< 16) ||| (a.setWidth 32 <<< 9) ||| (b.setWidth 32 <<< 2))
  | .pandn d a b => some (0x06800003#32 ||| (d.setWidth 32 <<< 16) ||| (a.setWidth 32 <<< 9) ||| (b.setWidth 32 <<< 2))
  | .csel d a b p => some (0x07000000#32 ||| (d.setWidth 32 <<< 17) ||| (a.setWidth 32 <<< 11) ||| (b.setWidth 32 <<< 5) ||| p.setWidth 32)
  | .pget s p h => some (0x07800000#32 ||| (s.setWidth 32 <<< 17) ||| (p.setWidth 32 <<< 10) ||| (h.setWidth 32 <<< 8))
  | .pput s p h => some (0x07800200#32 ||| (s.setWidth 32 <<< 17) ||| (p.setWidth 32 <<< 10) ||| (h.setWidth 32 <<< 8))
  | .tshape s t => some (0x08000000#32 ||| (s.setWidth 32 <<< 17) ||| (t.setWidth 32 <<< 11))
  | .rdshape s t => some (0x08800000#32 ||| (s.setWidth 32 <<< 17) ||| (t.setWidth 32 <<< 11))
  | .csrr s c => some (0x09000000#32 ||| (s.setWidth 32 <<< 17) ||| (c.setWidth 32 <<< 5))
  | .csrw s c => some (0x09800000#32 ||| (s.setWidth 32 <<< 17) ||| (c.setWidth 32 <<< 5))
  | .lds s b d => some (0x0A000000#32 ||| (s.setWidth 32 <<< 17) ||| (b.setWidth 32 <<< 11) ||| d.setWidth 32)
  | .sts s b d => some (0x0A800000#32 ||| (s.setWidth 32 <<< 17) ||| (b.setWidth 32 <<< 11) ||| d.setWidth 32)
  | .ldg s b d => some (0x0B000000#32 ||| (s.setWidth 32 <<< 17) ||| (b.setWidth 32 <<< 11) ||| d.setWidth 32)
  | .stg s b d => some (0x0B800000#32 ||| (s.setWidth 32 <<< 17) ||| (b.setWidth 32 <<< 11) ||| d.setWidth 32)
  | .br p s d => some (0x0C000000#32 ||| (p.setWidth 32 <<< 16) ||| (s.setWidth 32 <<< 15) ||| d.setWidth 32)
  | .jmp d => some (0x0C800000#32 ||| d.setWidth 32)
  | .call d => some (0x0D000000#32 ||| d.setWidth 32)
  | .jr a => some (0x0D800000#32 ||| (a.setWidth 32 <<< 11))
  | .loopT l c n => some (0x0E000000#32 ||| (l.setWidth 32 <<< 21) ||| (c.setWidth 32 <<< 15) ||| n.setWidth 32)
  | .loopRp l q n => some (0x0E800000#32 ||| (l.setWidth 32 <<< 21) ||| (q.setWidth 32 <<< 15) ||| n.setWidth 32)
  | .endw => some (0x0F000000#32)
  | .vadd d a b w => some (0x20400000#32 ||| (d.setWidth 32 <<< 16) ||| (a.setWidth 32 <<< 10) ||| (b.setWidth 32 <<< 4) ||| w.setWidth 32)
  | .vsub d a b w => some (0x20800000#32 ||| (d.setWidth 32 <<< 16) ||| (a.setWidth 32 <<< 10) ||| (b.setWidth 32 <<< 4) ||| w.setWidth 32)
  | .vmul d a b w => some (0x20C00000#32 ||| (d.setWidth 32 <<< 16) ||| (a.setWidth 32 <<< 10) ||| (b.setWidth 32 <<< 4) ||| w.setWidth 32)
  | .vdiv d a b w => some (0x21000000#32 ||| (d.setWidth 32 <<< 16) ||| (a.setWidth 32 <<< 10) ||| (b.setWidth 32 <<< 4) ||| w.setWidth 32)
  | .vmin d a b w => some (0x21400000#32 ||| (d.setWidth 32 <<< 16) ||| (a.setWidth 32 <<< 10) ||| (b.setWidth 32 <<< 4) ||| w.setWidth 32)
  | .vmax d a b w => some (0x21800000#32 ||| (d.setWidth 32 <<< 16) ||| (a.setWidth 32 <<< 10) ||| (b.setWidth 32 <<< 4) ||| w.setWidth 32)
  | .vand d a b w => some (0x21C00000#32 ||| (d.setWidth 32 <<< 16) ||| (a.setWidth 32 <<< 10) ||| (b.setWidth 32 <<< 4) ||| w.setWidth 32)
  | .vor d a b w => some (0x22000000#32 ||| (d.setWidth 32 <<< 16) ||| (a.setWidth 32 <<< 10) ||| (b.setWidth 32 <<< 4) ||| w.setWidth 32)
  | .vxor d a b w => some (0x22400000#32 ||| (d.setWidth 32 <<< 16) ||| (a.setWidth 32 <<< 10) ||| (b.setWidth 32 <<< 4) ||| w.setWidth 32)
  | .vshl d a b w => some (0x22800000#32 ||| (d.setWidth 32 <<< 16) ||| (a.setWidth 32 <<< 10) ||| (b.setWidth 32 <<< 4) ||| w.setWidth 32)
  | .vshr d a b w => some (0x22C00000#32 ||| (d.setWidth 32 <<< 16) ||| (a.setWidth 32 <<< 10) ||| (b.setWidth 32 <<< 4) ||| w.setWidth 32)
  | .vsra d a b w => some (0x23000000#32 ||| (d.setWidth 32 <<< 16) ||| (a.setWidth 32 <<< 10) ||| (b.setWidth 32 <<< 4) ||| w.setWidth 32)
  | .vabs d a => some (0x24000000#32 ||| (d.setWidth 32 <<< 16) ||| (a.setWidth 32 <<< 10))
  | .vneg d a => some (0x24000001#32 ||| (d.setWidth 32 <<< 16) ||| (a.setWidth 32 <<< 10))
  | .vrcp d a => some (0x24000002#32 ||| (d.setWidth 32 <<< 16) ||| (a.setWidth 32 <<< 10))
  | .vrsqrt d a => some (0x24000003#32 ||| (d.setWidth 32 <<< 16) ||| (a.setWidth 32 <<< 10))
  | .vsqrt d a => some (0x24000004#32 ||| (d.setWidth 32 <<< 16) ||| (a.setWidth 32 <<< 10))
  | .vexp2 d a => some (0x24000005#32 ||| (d.setWidth 32 <<< 16) ||| (a.setWidth 32 <<< 10))
  | .vlog2 d a => some (0x24000006#32 ||| (d.setWidth 32 <<< 16) ||| (a.setWidth 32 <<< 10))
  | .vtanh d a => some (0x24000007#32 ||| (d.setWidth 32 <<< 16) ||| (a.setWidth 32 <<< 10))
  | .vsigm d a => some (0x24000008#32 ||| (d.setWidth 32 <<< 16) ||| (a.setWidth 32 <<< 10))
  | .vsilu d a => some (0x24000009#32 ||| (d.setWidth 32 <<< 16) ||| (a.setWidth 32 <<< 10))
  | .vfloor d a => some (0x2400000A#32 ||| (d.setWidth 32 <<< 16) ||| (a.setWidth 32 <<< 10))
  | .vrnd d a => some (0x2400000B#32 ||| (d.setWidth 32 <<< 16) ||| (a.setWidth 32 <<< 10))
  | .vmov d a => some (0x2400000C#32 ||| (d.setWidth 32 <<< 16) ||| (a.setWidth 32 <<< 10))
  | .vnot d a => some (0x2400000D#32 ||| (d.setWidth 32 <<< 16) ||| (a.setWidth 32 <<< 10))
  | .vcmp d a b c => some (0x24400000#32 ||| (d.setWidth 32 <<< 16) ||| (a.setWidth 32 <<< 10) ||| (b.setWidth 32 <<< 4) ||| c.setWidth 32)
  | .vcvt d a => some (0x24800000#32 ||| (d.setWidth 32 <<< 16) ||| (a.setWidth 32 <<< 10))
  | .vredr d a f => some (0x24C00000#32 ||| (d.setWidth 32 <<< 16) ||| (a.setWidth 32 <<< 10) ||| f.setWidth 32)
  | .vredc d a f => some (0x25000000#32 ||| (d.setWidth 32 <<< 16) ||| (a.setWidth 32 <<< 10) ||| f.setWidth 32)
  | .vtrn d a => some (0x25400000#32 ||| (d.setWidth 32 <<< 16) ||| (a.setWidth 32 <<< 10))
  | .vbcr d a => some (0x25800000#32 ||| (d.setWidth 32 <<< 16) ||| (a.setWidth 32 <<< 10))
  | .vbcc d a => some (0x25C00000#32 ||| (d.setWidth 32 <<< 16) ||| (a.setWidth 32 <<< 10))
  | .vqnt d a b => some (0x26000000#32 ||| (d.setWidth 32 <<< 16) ||| (a.setWidth 32 <<< 10) ||| (b.setWidth 32 <<< 4))
  | .vdqnt d a b => some (0x26400000#32 ||| (d.setWidth 32 <<< 16) ||| (a.setWidth 32 <<< 10) ||| (b.setWidth 32 <<< 4))
  | .vvqd d a b => some (0x26800000#32 ||| (d.setWidth 32 <<< 16) ||| (a.setWidth 32 <<< 10) ||| (b.setWidth 32 <<< 4))
  | .vcomp d a b k => some (0x26C00000#32 ||| (d.setWidth 32 <<< 16) ||| (a.setWidth 32 <<< 10) ||| (b.setWidth 32 <<< 4) ||| k.setWidth 32)
  | .vscan d a k => some (0x27000000#32 ||| (d.setWidth 32 <<< 16) ||| (a.setWidth 32 <<< 10) ||| k.setWidth 32)
  | .vrmg d a s => some (0x27400000#32 ||| (d.setWidth 32 <<< 16) ||| (a.setWidth 32 <<< 10) ||| s.setWidth 32)
  | .vfill d a => some (0x27800000#32 ||| (d.setWidth 32 <<< 16) ||| (a.setWidth 32 <<< 10))
  | .vget t a => some (0x27C00000#32 ||| (t.setWidth 32 <<< 16) ||| (a.setWidth 32 <<< 10))
  | .vput d a b => some (0x28000000#32 ||| (d.setWidth 32 <<< 16) ||| (a.setWidth 32 <<< 10) ||| (b.setWidth 32 <<< 4))
  | .tld d a i => some (0x28400000#32 ||| (d.setWidth 32 <<< 16) ||| (a.setWidth 32 <<< 10) ||| i.setWidth 32)
  | .tst d a i => some (0x28800000#32 ||| (d.setWidth 32 <<< 16) ||| (a.setWidth 32 <<< 10) ||| i.setWidth 32)
  | .tldX d a i => some (0x28C00000#32 ||| (d.setWidth 32 <<< 16) ||| (a.setWidth 32 <<< 10) ||| i.setWidth 32)
  | .tkill d => some (0x29000000#32 ||| (d.setWidth 32 <<< 16))
  | .vcbld s => some (0x29400000#32 ||| (s.setWidth 32 <<< 16))
  | .vrowm t => some (0x29800000#32 ||| (t.setWidth 32 <<< 16))
  | .vfma d a b c => some (0x38000000#32 ||| (d.setWidth 32 <<< 18) ||| (a.setWidth 32 <<< 12) ||| (b.setWidth 32 <<< 6) ||| c.setWidth 32)
  | .vfms d a b c => some (0x39000000#32 ||| (d.setWidth 32 <<< 18) ||| (a.setWidth 32 <<< 12) ||| (b.setWidth 32 <<< 6) ||| c.setWidth 32)
  | .vsel d a b c => some (0x3A000000#32 ||| (d.setWidth 32 <<< 18) ||| (a.setWidth 32 <<< 12) ||| (b.setWidth 32 <<< 6) ||| c.setWidth 32)
  | .vclamp d a b c => some (0x3B000000#32 ||| (d.setWidth 32 <<< 18) ||| (a.setWidth 32 <<< 12) ||| (b.setWidth 32 <<< 6) ||| c.setWidth 32)
  | .mma c a b x f => some (0x41000000#32 ||| (c.setWidth 32 <<< 22) ||| (a.setWidth 32 <<< 16) ||| (b.setWidth 32 <<< 10) ||| (x.setWidth 32 <<< 4) ||| f.setWidth 32)
  | .mmaSp c a b x f => some (0x42000000#32 ||| (c.setWidth 32 <<< 22) ||| (a.setWidth 32 <<< 16) ||| (b.setWidth 32 <<< 10) ||| (x.setWidth 32 <<< 4) ||| f.setWidth 32)
  | .mmaG c a b x f => some (0x43000000#32 ||| (c.setWidth 32 <<< 22) ||| (a.setWidth 32 <<< 16) ||| (b.setWidth 32 <<< 10) ||| (x.setWidth 32 <<< 4) ||| f.setWidth 32)
  | .mrd c d k t => some (0x44000000#32 ||| (c.setWidth 32 <<< 22) ||| (d.setWidth 32 <<< 16) ||| (k.setWidth 32 <<< 8) ||| (t.setWidth 32 <<< 3))
  | .mwr c s k t => some (0x45000000#32 ||| (c.setWidth 32 <<< 22) ||| (s.setWidth 32 <<< 16) ||| (k.setWidth 32 <<< 8) ||| (t.setWidth 32 <<< 3))
  | .mclr c => some (0x46000000#32 ||| (c.setWidth 32 <<< 22))
  | .mscl a b => some (0x47000000#32 ||| (a.setWidth 32 <<< 16) ||| (b.setWidth 32 <<< 10))
  | .msclOff => some (0x47000001#32)
  | .xget d a b m s => some (0x61000000#32 ||| (d.setWidth 32 <<< 20) ||| (a.setWidth 32 <<< 14) ||| (b.setWidth 32 <<< 8) ||| (m.setWidth 32 <<< 4) ||| s.setWidth 32)
  | .xput d a b m s => some (0x62000000#32 ||| (d.setWidth 32 <<< 20) ||| (a.setWidth 32 <<< 14) ||| (b.setWidth 32 <<< 8) ||| (m.setWidth 32 <<< 4) ||| s.setWidth 32)
  | .xsend d a b m s => some (0x63000000#32 ||| (d.setWidth 32 <<< 20) ||| (a.setWidth 32 <<< 14) ||| (b.setWidth 32 <<< 8) ||| (m.setWidth 32 <<< 4) ||| s.setWidth 32)
  | .xgat d a b m s => some (0x64000000#32 ||| (d.setWidth 32 <<< 20) ||| (a.setWidth 32 <<< 14) ||| (b.setWidth 32 <<< 8) ||| (m.setWidth 32 <<< 4) ||| s.setWidth 32)
  | .xsca d a b m o s => some (0x65000000#32 ||| (d.setWidth 32 <<< 20) ||| (a.setWidth 32 <<< 14) ||| (b.setWidth 32 <<< 8) ||| (m.setWidth 32 <<< 4) ||| (o.setWidth 32 <<< 1) ||| s.setWidth 32)
  | .xacc d a b m o s => some (0x66000000#32 ||| (d.setWidth 32 <<< 20) ||| (a.setWidth 32 <<< 14) ||| (b.setWidth 32 <<< 8) ||| (m.setWidth 32 <<< 4) ||| (o.setWidth 32 <<< 1) ||| s.setWidth 32)
  | .xat o a b c z => some (0x67000000#32 ||| (o.setWidth 32 <<< 20) ||| (a.setWidth 32 <<< 14) ||| (b.setWidth 32 <<< 8) ||| (c.setWidth 32 <<< 2) ||| z.setWidth 32)
  | .xdesc s a => some (0x68000000#32 ||| (s.setWidth 32 <<< 20) ||| (a.setWidth 32 <<< 14))
  | .xmap s a => some (0x69000000#32 ||| (s.setWidth 32 <<< 20) ||| (a.setWidth 32 <<< 14))
  | .xswap s a => some (0x6A000000#32 ||| (s.setWidth 32 <<< 20) ||| (a.setWidth 32 <<< 14))
  | .xunmap s => some (0x6B000000#32 ||| (s.setWidth 32 <<< 20))
  | .xmw s a => some (0x6C000000#32 ||| (s.setWidth 32 <<< 20) ||| (a.setWidth 32 <<< 14))
  | .xrpl d a b => some (0x6D000000#32 ||| (d.setWidth 32 <<< 20) ||| (a.setWidth 32 <<< 14) ||| (b.setWidth 32 <<< 8))
  | .xrpf d a b => some (0x6E000000#32 ||| (d.setWidth 32 <<< 20) ||| (a.setWidth 32 <<< 14) ||| (b.setWidth 32 <<< 8))
  | .xred d ab => some (0x6F000000#32 ||| (d.setWidth 32 <<< 20) ||| (ab.1.setWidth 32 <<< 14) ||| (ab.2.setWidth 32 <<< 8))
  | .xgmap a => some (0x70000000#32 ||| (a.setWidth 32 <<< 14))
  | .xgunmap a => some (0x71000000#32 ||| (a.setWidth 32 <<< 14))
  | .hnew d => some (0x81000000#32 ||| (d.setWidth 32 <<< 19))
  | .hfork d a => some (0x82000000#32 ||| (d.setWidth 32 <<< 19) ||| (a.setWidth 32 <<< 14))
  | .hjoin d a b s => some (0x83000000#32 ||| (d.setWidth 32 <<< 19) ||| (a.setWidth 32 <<< 14) ||| (b.setWidth 32 <<< 9) ||| (s.setWidth 32 <<< 6))
  | .hdrain a s => some (0x84000000#32 ||| (a.setWidth 32 <<< 14) ||| (s.setWidth 32 <<< 6))
  | .hpass a p => some (0x85000000#32 ||| (a.setWidth 32 <<< 14) ||| p.setWidth 32)
  | .hrecv d p => some (0x86000000#32 ||| (d.setWidth 32 <<< 19) ||| p.setWidth 32)
  | .hfree a => some (0x87000000#32 ||| (a.setWidth 32 <<< 14))
  | .ringInit g a => some (0x88000000#32 ||| (g.setWidth 32 <<< 20) ||| (a.setWidth 32 <<< 14))
  | .ringWfree g => some (0x89000000#32 ||| (g.setWidth 32 <<< 20))
  | .ringPub g => some (0x8A000000#32 ||| (g.setWidth 32 <<< 20))
  | .ringWfill g => some (0x8B000000#32 ||| (g.setWidth 32 <<< 20))
  | .ringRel g => some (0x8C000000#32 ||| (g.setWidth 32 <<< 20))
  | .ringStat g => some (0x8D000000#32 ||| (g.setWidth 32 <<< 20))
  | .barArr t => some (0x8E000000#32 ||| (t.setWidth 32 <<< 21))
  | .barWait t => some (0x8F000000#32 ||| (t.setWidth 32 <<< 21))
  | .flagAdd a b => some (0x90000000#32 ||| (a.setWidth 32 <<< 18) ||| (b.setWidth 32 <<< 12))
  | .flagSet a b c => some (0x91000000#32 ||| (a.setWidth 32 <<< 18) ||| (b.setWidth 32 <<< 12) ||| (c.setWidth 32 <<< 6))
  | .flagWait a b => some (0x92000000#32 ||| (a.setWidth 32 <<< 18) ||| (b.setWidth 32 <<< 12))
  | .ktopc d a b k => some (0xA1000000#32 ||| (d.setWidth 32 <<< 18) ||| (a.setWidth 32 <<< 12) ||| (b.setWidth 32 <<< 6) ||| k.setWidth 32)
  | .ktopr d a b k => some (0xA2000000#32 ||| (d.setWidth 32 <<< 18) ||| (a.setWidth 32 <<< 12) ||| (b.setWidth 32 <<< 6) ||| k.setWidth 32)
  | .kmerge d a b n => some (0xA3000000#32 ||| (d.setWidth 32 <<< 18) ||| (a.setWidth 32 <<< 12) ||| (b.setWidth 32 <<< 6) ||| n.setWidth 32)
  | .ksort d a b => some (0xA4000000#32 ||| (d.setWidth 32 <<< 18) ||| (a.setWidth 32 <<< 12) ||| (b.setWidth 32 <<< 6))
  | .khist d a n => some (0xA5000000#32 ||| (d.setWidth 32 <<< 18) ||| (a.setWidth 32 <<< 12) ||| n.setWidth 32)
  | .kmark d a n => some (0xA6000000#32 ||| (d.setWidth 32 <<< 18) ||| (a.setWidth 32 <<< 12) ||| n.setWidth 32)
  | .trap i => some (0xC0800000#32 ||| i.setWidth 32)
  | .ebrk i => some (0xC1000000#32 ||| i.setWidth 32)
  | .klaunch a q => some (0xC1800000#32 ||| (a.setWidth 32 <<< 17) ||| q.setWidth 32)
  | .eret => some (0xC2000000#32)
  | .tinv a => some (0xC2800000#32 ||| (a.setWidth 32 <<< 17))
  | .ctxsave a => some (0xC3000000#32 ||| (a.setWidth 32 <<< 17))
  | .ctxload a => some (0xC3800000#32 ||| (a.setWidth 32 <<< 17))
  | .spflush => some (0xC4000000#32)
  | .sacinv => some (0xC4800000#32)
  | .cntsnap a => some (0xC5000000#32 ||| (a.setWidth 32 <<< 17))
  | .wfi => some (0xC5800000#32)
  | .barcfg a t => some (0xC6000000#32 ||| (a.setWidth 32 <<< 17) ||| t.setWidth 32)
  | .wordStart _ _ => none
  | .tokenSignal _ _ => none
  | .spanEndComplete _ => none
  | .beatArrival _ => none
  | .blockComplete _ _ => none
  | .ackReceive _ => none
  | .hdrainComplete _ => none
  | .packetEviction _ _ => none
  | .packetResend _ => none
  | .ackTimeoutResend _ => none
  | .rateLimitRelease _ => none
  | .sliceBlockRequest _ => none
  | .slicePutBeat _ => none
  | .sliceAccumulate _ => none
  | .sliceAtomic _ => none
  | .xatReply _ => none
  | .sliceScalarAccess _ => none
  | .ldgReply _ => none
  | .mapCacheFill _ _ _ => none
  | .flagAddApply _ => none
  | .flagSetApply _ => none
  | .flagWaitRetest _ => none
  | .barrierPhaseComplete _ _ => none
  | .channelElementArrive _ => none
  | .channelCreditReturn _ => none
  | .channelPopTimeout _ => none
  | .mailboxTicketArrive _ => none
  | .ticketConfirm _ => none
  | .reductionContribution _ => none
  | .reductionTimeout _ => none
  | .reductionStatusDeliver _ => none
  | .sacCheck _ => none
  | .sacFill _ => none
  | .sacVerdictDeliver _ => none
  | .launchHeadCheck _ _ => none
  | .spanHandoff _ => none
  | .launchComplete _ _ => none
  | .controllerPeriod => none
  | .immediateSave _ => none
  | .spanResume _ => none
  | .unitFirstTouch _ _ => none
  | .trapEntry _ => none
  | .vfReset _ => none
  | .qbellWrite _ _ _ => none
  | .qstatClear _ _ => none
  | .cqidxHeadWrite _ _ _ => none
  | .oboxRead _ => none
  | .iboxWrite _ _ _ => none
  | .iboxovfClear _ _ _ => none
  | .mcgrpWrite _ _ _ _ => none
  | .rgselWrite _ _ => none
  | .rgcommitWrite _ _ => none
  | .spdataStore _ _ => none
  | .vfEnable _ => none
  | .rateLimitConfig _ _ _ => none
  | .sacQuotaWrite _ _ => none
  | .registerWrite _ => none
  | .msixUnmask _ _ => none
  | .hostMemRead _ _ => none
  | .hostMemWrite _ _ => none
  | .falardFlitReplay _ => none
  | .falardRetrain _ => none
  | .falardPortFail _ => none
  | .deviceReset => none
  | .firmwareLoadDone _ => none
  | .hbmTrainingDone _ => none
  | .falardTrainingDone _ => none
  | .powerLimitStep _ => none
  | .thermalThrottle _ _ => none
  | .thermalShutdown _ _ => none
  | .counterFlush => none
  | .lifetimeLogUpdate _ _ => none
  | .orderlyPowerOff => none
  | .abruptPowerLoss => none
  | .unitSpillComplete _ _ => none
  | .globalMapInstallArrive _ => none
  | .sacInvalidationArrive _ => none
  | .cntsnapRequestArrive _ => none
  | .hostRecallResponse _ => none
  | .falardRetrainDone _ _ => none
  | .supplyDroop _ _ => none

end Sys2Proof
end

