-- ==== Sys2Proof/Machine/Fetch.lean ====
section
/-! DEFINITION. Fetching and gathering a group (04_encoding R30, R31, R34-R39, R53; 23_traps_and_context R306, R307),
time passing, and the moves that a machine left to itself considers. -/

namespace Sys2Proof.Machine

/-! ## Fetch (R31, R306) -/

/-- Translation of an instruction address through the cluster's instruction TLB: its physical address, or a cause.
DEDUCED: notes/assumptions/17. -/
def fetchPa (s : State) (c t va : Nat) : Except Nat (Nat × State) :=
  if 2 ^ 48 ≤ va then .error cXLATE
  else
    match s.itlb.find? (fun e => decide (e.cluster = clusOf c) && decide (e.tenant = t) && coversVa e.vbase e.log va) with
    | some e => if e.exec then .ok (e.frame + va % 2 ^ e.log, s) else .error cXLATE
    | none =>
      match walk s t va with
      | .error e => .error e
      | .ok p =>
        if p.x then
          .ok (p.frame + va % 2 ^ p.log,
            { s with itlb := { cluster := clusOf c, tenant := t, vbase := p.vbase, log := p.log, frame := p.frame, exec := p.x } :: s.itlb })
        else .error cXLATE

/-- Key of a word in an instruction cache. -/
def icKey (t va : Nat) : Nat := 2 ^ 48 * t + va

/-- Memory as the fetch of a core sees it: as it stood when the kernel of the resident context became resident, but for what a
`tinv` has made visible in the core's cluster (R31, R307).
DEDUCED: notes/assumptions/99. -/
def State.codeOf (s : State) (c : Nat) : List Host.Cell :=
  match (s.ctx c).bind (fun x => Map.at? (s.tenant x.tenant).launches x.lid) with
  | none => s.mem
  | some l => (Map.at? l.recode (clusOf c)).getD (l.code.getD s.mem)

/-- Fetch the word at an address: from the cluster's instruction cache, which memory fills.
DESIGN CHOICE: notes/assumptions/18. -/
def fetchWord (s : State) (c t va : Nat) : Except Nat (Word × State) :=
  match fetchPa s c t va with
  | .error e => .error e
  | .ok (pa, s1) =>
    let ic := Map.get [] s1.icache (clusOf c)
    match Map.at? ic (icKey t va) with
    | some w => .ok (w, s1)
    | none =>
      let w := BitVec.ofNat 32 (State.readN { s1 with mem := s.codeOf c } pa 4)
      .ok (w, { s1 with icache := Map.ins s1.icache (clusOf c) (Map.ins ic (icKey t va) w) })

/-! ## Prefixes (R34, R36-R39) -/

/-- Engine value 111. -/
def isPfx (w : Word) : Bool := w.extractLsb' 29 3 = 7#3

/-- Prefix type: 0 TOK, 1 IMM, 2 HND, 3 MOD. -/
def pfxType (w : Word) : Nat := (w.extractLsb' 27 2).toNat

/-- A prefix's own fields break R34 or R38. -/
def pfxBad (w : Word) : Bool :=
  let n := w.toNat
  if pfxType w = 0 then decide (bits n 0 15 ≠ 0)
  else if pfxType w = 1 then false
  else if pfxType w = 2 then decide (6 ≤ bits n 19 3) || decide (bits n 0 17 ≠ 0)
  else decide (6 ≤ bits n 15 3) || decide (bits n 0 14 ≠ 0) || (!bit n 19 && (decide (bits n 20 7 ≠ 0) || bit n 18))

/-- A second prefix of a type (R39). -/
def pfxTwice (p : Pfx) (w : Word) : Bool :=
  if pfxType w = 0 then p.hasTok else if pfxType w = 1 then p.hasImm else if pfxType w = 2 then p.hasHnd else p.hasMod

/-- The prefixes with one more. -/
def addPfx (p : Pfx) (w : Word) : Pfx :=
  let n := w.toNat
  if pfxType w = 0 then { p with hasTok := true, wait := w.extractLsb' 21 6, signal := w.extractLsb' 15 6 }
  else if pfxType w = 1 then { p with hasImm := true, upper := w.extractLsb' 0 27 }
  else if pfxType w = 2 then { p with hasHnd := true, handle := bits n 22 5, scope := bits n 19 3, acq := bit n 18, rel := bit n 17 }
  else { p with hasMod := true, pred := bits n 20 7, maskOn := bit n 19, invert := bit n 18, round := bits n 15 3, sat := bit n 14 }

/-- Words whose immediate field takes an IMM prefix (R24, R36). -/
def immWord : Instr → Bool
  | .addi .. | .andi .. | .ori .. | .xori .. | .shli .. | .shri .. | .srai .. | .muli .. | .li .. => true
  | .lds .. | .sts .. | .ldg .. | .stg .. | .br .. | .jmp .. | .call .. | .loopT .. => true
  | .tld .. | .tst .. | .tldX .. | .trap .. | .ebrk .. => true
  | _ => false

/-- Words that take an HND prefix (R37). -/
def hndWord : Instr → Bool
  | .lds .. | .sts .. | .ldg .. | .stg .. => true
  | .xget .. | .xput .. | .xsend .. | .xgat .. | .xsca .. | .xacc .. | .xat .. | .xrpl .. | .xrpf .. | .xred .. => true
  | .ringInit .. | .ringWfree .. | .ringPub .. | .ringWfill .. | .ringRel .. | .flagAdd .. | .flagSet .. | .flagWait .. => true
  | _ => false

/-- A prefix of a type is not allowed on a word (R36-R39); e is the value of the word's bits 31:29. -/
def pfxMisused (p : Pfx) (i : Instr) (e : Nat) (ty : Nat) : Bool :=
  if ty = 0 then decide (e = 6) || decide (i = .nop) || p.wait.getLsbD e || p.signal.getLsbD e
  else if ty = 1 then !immWord i
  else if ty = 2 then !hndWord i
  else !(e = 1 || e = 2 || e = 5)

/-! ## The group (R30, R32 step 1) -/

/-- What fetch and the check of the encoding give: a group with its instruction, or a trap with the engine named by the
word it concerns. -/
inductive Gather where
  | group (g : Grp) (i : Instr) (s : State)
  | trap (cause : Nat) (tval : Dword) (e : Engine)

def illegal (w : Word) : Gather := .trap cILLEGAL (w.setWidth 64) (engineOf w)

/-- The check of a whole group: its word, the use of its prefixes in address order, and a loop body that ends at one of
them (R39, R53). -/
def checkGroup (s : State) (x : Ctx) (addr waddr : Nat) (p : Pfx) (pre : List Word) (w : Word) : Gather :=
  match decode w with
  | .error _ => illegal w
  | .ok i =>
    match pre.find? (fun v => pfxMisused p i (bits w.toNat 29 3) (pfxType v)) with
    | some v => illegal v
    | none =>
      match x.loops.find? (fun l => decide (addr ≤ l.last) && decide (l.last < waddr)) with
      | some l => illegal (pre.getD ((l.last - addr) / 4) 0)
      | none => .group { addr := addr, waddr := waddr, raw := w, pfx := p } i s

/-- Gather a group: prefixes from address `a` on, then its word. The fuel is the most words a group has.
DEDUCED: notes/assumptions/16. -/
def gather (s : State) (c : Nat) (x : Ctx) (addr : Nat) : Nat → Nat → Pfx → List Word → Gather
  | 0, _, _, pre => illegal (pre.getLastD 0)
  | n + 1, a, p, pre =>
    match fetchWord s c x.tenant a with
    | .error e => .trap e (BitVec.ofNat 64 a) .s
    | .ok (w, s1) =>
      if isPfx w then
        if pfxBad w || pfxTwice p w then illegal w
        else gather s1 c x addr n (a + 4) (addPfx p w) (pre ++ [w])
      else checkGroup s1 x addr a p pre w

/-- The next group of a context. -/
def nextGroup (s : State) (c : Nat) (x : Ctx) : Gather := gather s c x x.pc 5 x.pc {} []

/-- The state with the group in the capture latch of core c, which is the current one. -/
def State.latch (s : State) (c : Nat) (eager : Bool) (g : Grp) : State :=
  { s.modCtx c (fun x => { x with grp := g }) with cur := c, eager := eager }

/-! ## Time -/

/-- Cores that hold a resident span of a tenant. -/
def State.busyCores (s : State) (t : Nat) : Nat := (s.cores.filter (fun p => decide (p.2.res.map Ctx.tenant = some t))).length

/-- n cycles pass: they count in the deficits (R294) and in usage counter 0 (R315) of the tenants that hold cores.
DESIGN CHOICE: notes/assumptions/72. -/
def State.elapse (s : State) (n : Nat) : State :=
  if !s.powered then s
  else
    { s with
      cycle := s.cycle + n
      tenants := s.tenants.map (fun p =>
        let k := n * s.busyCores p.1
        if k = 0 then p
        else (p.1, { p.2 with used := p.2.used + k, usage := Map.put 0 p.2.usage 0 (Map.get 0 p.2.usage 0 + BitVec.ofNat 64 k) })) }

/-! ## Moves of a machine left to itself (notes/assumptions/1) -/

/-- The step that a packet's place and kind ask for. -/
def packetMove (id : Nat) (p : Packet) : State → Res :=
  match p.st with
  | .held => execRateLimitRelease id
  | .evicted _ | .refused _ => execPacketResend id
  | .flying =>
    match p.kind, p.dst with
    | .confirmReq .., _ => execTicketConfirm id
    | _, .remote _ _ => execAckReceive id
    | .blockReq .., _ => execSliceBlockRequest id
    | .beat .., _ | .close .., _ | .stream .., _ | .sacIn .., _ => execBeatArrival id
    | .put .., _ => execSlicePutBeat id
    | .acc .., _ => execSliceAccumulate id
    | .atomic .., _ => execSliceAtomic id
    | .atomicReply .., _ => execXatReply id
    | .load .., _ | .store .., _ => execSliceScalarAccess id
    | .loadReply .., _ => execLdgReply id
    | .ack .., _ => execAckReceive id
    | .flagAdd .., _ => execFlagAddApply id
    | .flagSet .., _ => execFlagSetApply id
    | .chan .., _ => execChannelElementArrive id
    | .credit .., _ => execChannelCreditReturn id
    | .ticket .., _ => execMailboxTicketArrive id
    | .redContrib .., _ => execReductionContribution id
    | .redStatus .., _ => execReductionStatusDeliver id
    | .sacCheck _ _ _ _ _ _ arrived, _ => if arrived then execSacCheck id else execBeatArrival id
    | .sacFill _ _ _ _ arrived, _ => if arrived then execSacFill id else execBeatArrival id
    | .verdict .., _ => execSacVerdictDeliver id
    | .gmapIns .., _ | .gmapDel .., _ => execGlobalMapInstallArrive id
    | .sacInv, _ => execSacInvalidationArrive id
    | .cntsnap .., _ => execCntsnapRequestArrive id
    | .hostRead a n, _ => execHostMemRead a n
    | .hostWrite a bs, _ => execHostMemWrite a bs

/-- The steps a core may take beside capture. -/
def coreMoves (c : Nat) (k : Core) : List (State → Res) :=
  (k.blks.map (fun b => execBlockComplete c b.1))
    ++ [execTrapEntry c, execImmediateSave c, execSpanResume c, execSpanHandoff c, execSpanEndComplete c]
    ++ [Engine.s, .v, .m, .x, .y, .k].flatMap (fun e => [execTokenSignal c e, execWordStart c e])
    ++ [execChannelPopTimeout c]
    ++ (match k.res with
        | some x => (match x.stall with | .gmap tag => [execMapCacheFill c x.tenant tag] | _ => [])
        | none => [])
    ++ k.spilling.map (fun u => execUnitSpillComplete c u)

/-- The steps of a tenant's queues, launches and barriers. -/
def tenantMoves (t : Nat) (v : Tenant) : List (State → Res) :=
  ((List.range 16).filter (fun q => !(Map.get [] v.queues q).isEmpty)).map (fun q => execLaunchHeadCheck t q)
    ++ (v.launches.filter (fun l => !l.2.written)).map (fun l => execLaunchComplete t l.1)
    ++ (v.bars.filter (fun b => b.2.full.isSome)).map (fun b => execBarrierPhaseComplete t b.1)

/-- Every step worth trying, in order. -/
def State.moves (s : State) : List (State → Res) :=
  [execControllerPeriod]
    ++ s.net.map (fun p => packetMove p.1 p.2)
    ++ s.tenants.flatMap (fun t => tenantMoves t.1 t.2)
    ++ s.cores.flatMap (fun k => coreMoves k.1 k.2)
    ++ s.groups.map (fun g => execReductionTimeout g.1)
    ++ s.recalls.map (fun l => execHostRecallResponse l)
    ++ s.sent.map (fun p => execAckTimeoutResend p.1)

/-- Cores that hold a resident span, in turn after the current one. -/
def State.turn (s : State) : List Nat :=
  let cs := (s.cores.filter (fun p => p.2.res.isSome)).map (fun p => p.1)
  cs.filter (fun c => decide (s.cur < c)) ++ cs.filter (fun c => decide (c ≤ s.cur))

end Sys2Proof.Machine
end

