-- ==== Sys2Proof/Machine/Schedule.lean ====
section
/-! DEFINITION. One move of the machine (04_encoding R31, R32; 95_what_each_step_holds): capture of a core's next group,
an event, time, or what a machine left to itself does; and where a word is placed to be fetched next. -/

namespace Sys2Proof.Machine

open Host (Outcome)

/-- Capture of the next group of core c (R31, R32): the group is fetched and gathered, its encoding checked, and its
instruction executed. Nothing is captured where capture is shut. -/
def captureStep (c : Nat) (eager : Bool) (s : State) : Res :=
  match s.ctx c with
  | none => .next s
  | some x =>
    if s.captureShut c x then .next s
    else
      match nextGroup s c x with
      | .group g i s1 => exec i (s1.latch c eager g)
      | .trap cause tval e => .next (captureEarly s c { x with grp := { addr := x.pc } } e cause tval)

/-- Instruction words are captured, never chosen as events. -/
def isWord (i : Instr) : Bool := (encode i).isSome

/-- The move a machine left to itself makes: the first of some steps that changes anything. -/
def firstMove (s : State) : List (State → Res) → Option Res
  | [] => none
  | f :: fs =>
    match f s with
    | .next s1 => if s1 = s then firstMove s fs else some (.next s1)
    | r => some r

/-- What an event has brought for a suspended context stands in its image, too (R312). -/
def noted (s : State) : Res → Res
  | .next t => .next (s.noteImages t)
  | r => r

/-- A cycle passes and then one move is made: an event that is due, or else capture on the next core in turn. -/
def ownMove (s : State) : Res :=
  let s1 := s.elapse 1
  match firstMove s1 s1.moves with
  | some r => noted s1 r
  | none =>
    match firstMove s1 (s1.turn.map (fun c => captureStep c true)) with
    | some r => r
    | none => .next s1

/-- The moves chosen from outside, then the machine's own (notes/assumptions/1). -/
def oneMove (s : State) : Res :=
  match s.agenda with
  | [] => ownMove s
  | .capture c e :: rest => captureStep c e { s with agenda := rest }
  | .event i :: rest => if isWord i then .next { s with agenda := rest } else noted s (exec i { s with agenda := rest })
  | .elapse n :: rest => .next ({ s with agenda := rest }.elapse n)
  | .arrive p :: rest => .next ({ s with agenda := rest }.bringIn p)
  | .crowd ids :: rest => .next { s with agenda := rest, crowd := ids }
  | .vfRead t off n :: rest => .next ({ s with agenda := rest }.vfRead t off n)
  | .pfRead i :: rest => .next ({ s with agenda := rest }.pfRead i)
  | .error e :: rest => .next ({ s with agenda := rest }.strike e)

/-! ## Placing a word where the next capture fetches it -/

/-- Physical address from which the current core fetches next, where it captures at all. -/
def fetchPlace (s : State) : Option (Nat × Nat × Nat) :=
  match s.ctx s.cur with
  | none => none
  | some x =>
    if s.captureShut s.cur x then none
    else
      match fetchPa s s.cur x.tenant x.pc with
      | .ok (pa, _) => some (x.tenant, x.pc, pa)
      | .error _ => none

/-- A span of tenant 0 on the current core, about to fetch at 0x1_0000, which its tables map to the same physical
address; what stands for a launch that the host has made (notes/assumptions/70). -/
def State.install (s : State) : State :=
  let s1 : State := { s with powered := true, itlb := [], icache := [] }
  let s2 := (((s1.writeN 0x1000 8 0x2001).writeN 0x2000 8 0x3001).writeN 0x3000 8 0x4001).writeN 0x4008 8 0x1000F
  let s3 := (s2.cleanMem 0x1000 0x4000).modTenant 0 (fun t => { t with ptbase := 0x1000, windows := [(0, (0, 0x200000))] })
  s3.modCore s.cur (fun k => { k with res := some { uid := k.nextUid, pc := 0x10000 }, nextUid := k.nextUid + 1, quiesce := none })

/-- A launch whose code has the word at an address, too. -/
def Launch.patch (l : Launch) (pa w : Nat) : Launch :=
  let put := fun (m : List Host.Cell) => (State.writeN { mem := m } pa 4 w).mem
  { l with code := l.code.map put, recode := l.recode.map (fun e => (e.1, put e.2)) }

/-- Store a word at the place given, in memory and in the code of the launch that fetches it, and forget a fetched copy. -/
def State.placeWord (s : State) (t va pa w : Nat) : State :=
  let lid := ((s.ctx s.cur).map Ctx.lid).getD 0
  { (s.writeN pa 4 w).modLaunch t lid (fun l => l.patch pa w) with
    icache := Map.modify s.icache (clusOf s.cur) (fun m => Map.del m (icKey t va))
    agenda := .capture s.cur true :: s.agenda }

/-- The state whose next step captures the word w. -/
def State.withWord (s : State) (w : Nat) : State :=
  match fetchPlace s with
  | some (t, va, pa) => s.placeWord t va pa w
  | none => s.install.placeWord 0 0x10000 0x10000 w

end Sys2Proof.Machine
end

