-- ==== Sys2Proof/Machine/Step.lean ====
section
/-! DEFINITION. The step of the whole machine, and where the host places a word to be fetched next. -/

namespace Sys2Proof.Machine

/-- One step: one move of one agent.
DESIGN CHOICE: notes/assumptions/1. -/
def step (s : State) : Host.Outcome State Fault Refusal := oneMove s

/-- The state with an instruction word stored where the next step fetches; every instruction is one 32-bit word, so bits
above `nbits` are already 0.
DESIGN CHOICE: notes/assumptions/70. -/
def State.withFetchWord (s : State) (_nbits w : Nat) : State := s.withWord w

end Sys2Proof.Machine
end

