-- ==== Sys2Proof/Safety.lean ====
section
/-! DEFINITION. What statements about the machine speak of: its reachable states, safe steps, the invariants a step
keeps, and when a word that is captured meets nothing that holds it up. -/

namespace Sys2Proof.Machine

/-! ## Steps and runs -/

/-- The states reached from one state by steps that answer a next state. -/
inductive Reaches (s : State) : State → Prop where
  | refl : Reaches s s
  | tail {t u : State} : Reaches s t → step t = .next u → Reaches s u

/-- A step is safe where it neither faults nor is refused. -/
def SafeStep (s : State) : Prop := ∃ t, step s = .next t

/-- A property of states that every step keeps. -/
def Kept (inv : State → Prop) : Prop := ∀ s t, inv s → step s = .next t → inv t

/-! ## Words that nothing holds up (R32, R33, R35) -/

/-- Core `cur` captures, and its strand has nothing outstanding: no word queued or started, no trap raised, no result
still to come, no limiter or spill in the way, no more q6 elements than it holds; the group waits on no token and signals none; a word starts
as it is captured and makes all its row accesses at once (notes/assumptions/1, 75). -/
structure Idle (s : State) (x : Ctx) : Prop where
  resident : s.ctx s.cur = some x
  powered : s.powered = true
  running : (s.core s.cur).quiesce = none
  noTrap : x.pend = none
  notEnding : x.ending = false
  queues : x.qs = []
  started : x.fly = []
  results : ∀ r ∈ x.rq, r.2.isSome = true
  elems : x.q6.length ≤ Config.q6Depth
  eager : s.eager = true
  picks : s.picks = []
  wait : x.grp.pfx.wait = 0
  signal : x.grp.pfx.signal = 0
  spilling : (s.core s.cur).spilling = []
  limiter : ∀ e, s.limited s.cur x.tenant e = false

/-- The state with the operands' ports popped and the ended stall counted (R32 step 8, R55). -/
def State.popped (s : State) (x : Ctx) (pops : List Nat) : State := popPorts (endStall s s.cur x) s.cur pops

/-- The state once a word of the idle strand has passed capture and left its queue: its operands' ports are popped, the
stall it ended is counted, it has its operation number, its q6 reservations and its place in the result queue, and capture
goes on at the next group. -/
def State.admitted (s : State) (x : Ctx) (sp : CapSpec) (w : QWord) (pops : List Nat) : State :=
  (s.popped x pops).modCtx s.cur (fun y =>
    ((y.enrol sp (s.tenant x.tenant).scap w).1.past (takesSr sp w)).sawM sp.eng)

/-- The same for every word: one that itself says where capture goes on leaves the program counter (R104, R105). -/
def State.entered (s : State) (x : Ctx) (sp : CapSpec) (w : QWord) (pops : List Nat) : State :=
  (s.popped x pops).modCtx s.cur (fun y =>
    let e := (y.enrol sp (s.tenant x.tenant).scap w).1
    (if sp.jump then e.pastAt (takesSr sp w) else e.past (takesSr sp w)).sawM sp.eng)

/-- What a word does as it passes capture, the push slot it reserves included (R87). -/
def passing (sp : CapSpec) (act : State → Nat → QWord → State) (s : State) (c : Nat) (w : QWord) : State :=
  act (match sp.pushed with
    | some d => if 48 ≤ d && d ≤ 53 then reserveChannel s c (d - 48) w.seq else s
    | none => s) c w

/-- The same for a word that takes none of these. -/
def State.past (s : State) (x : Ctx) (pops : List Nat) (e : Engine) (sr : Bool) : State :=
  (s.popped x pops).modCtx s.cur (fun y => (y.past sr).sawM e)

/-- What a scalar result leaves in its context (R41, R86): the newest result-queue position holds it, and so does the
destination register, which no earlier load writes any more, or a new q6 element where the destination is q6 (54). -/
def Ctx.result (x : Ctx) (d : Nat) (v : Dword) : Ctx :=
  let y := if d = 54 then (x.reserve 1).1.produce x.nextElem v else x
  let z := { y with rq := (x.nextSeq, some v) :: x.rq.take 15 }
  if d < 32 then z.writeReg x.nextSeq d v else z

/-- The outbound mailbox takes the result of a word whose destination is q7 (55; R41, R293). -/
def State.outbox (s : State) (d tenant : Nat) (v : Dword) : State := if d = 55 then s.oboxPush tenant v else s

/-- The group's word takes a stochastic-rounding number through its effective mode (R66). -/
def Ctx.stochastic (x : Ctx) : Bool := decide (effRnd x x.grp.pfx = 4)

/-! ## Tile words (R111-R116) -/

/-- The tiles' shape records satisfy R112. -/
def Ctx.legal (x : Ctx) (ts : List Nat) : Prop :=
  ∀ t ∈ ts, etypeOk (shEt (Map.get 0 x.shapes t)) = true ∧ shapeBreach (Map.get 0 x.shapes t) = false

/-- The word as capture snapshots it with the shape records of its tiles (R67, R111). -/
def Ctx.tileWord (x : Ctx) (i : Instr) (e : Engine) (srcs : List Nat) (vals : List Dword) (ts : List Nat) : QWord :=
  { mkWord x i { eng := e, srcs := srcs } vals with shapes := snapShapes x ts, units := ts.map tileUnit }

/-- The state in which a captured word runs: capture has gone on, and the units it names are its context's (R312). -/
def State.readied (s : State) (x : Ctx) (pops : List Nat) (w : QWord) : State :=
  touchUnits (s.past x pops w.eng (takesSr { eng := w.eng } w)) s.cur x.me w.units

/-- The machine with the tile store, the poison marks and the flush count of core c replaced, tiles revived: what a tile
word can change. -/
def State.retile (u : State) (c n : Nat) (tiles : Map Row) (poison : List Nat) (ts : List Nat) : State :=
  ((noteFlush u c n).modCore c (fun k => { k with tiles := tiles, tilePoison := poison })).modCtx c (fun x => x.revive ts)

/-- What a tile word leaves (R113, R115, R137): each tile of `outs` holds its function's patterns in the selected rows of
its active shape, every other bit of every tile is as before, and nothing else of the machine has changed but the poison
marks, the count of n flushed inputs and the liveness of the tiles written. -/
structure TileOut (u t : State) (c n : Nat) (w : QWord) (outs : List (Nat × List Nat × (Nat → Nat → Nat))) : Prop where
  elems : ∀ o ∈ outs, ∀ i ∈ o.2.1, ∀ j < w.cols o.1, (t.core c).elem o.1 (w.et o.1) i j = o.2.2 i j % 2 ^ ewidth (w.et o.1)
  beyond : ∀ o ∈ outs, ∀ i ∈ o.2.1, ∀ p, w.cols o.1 * ewidth (w.et o.1) ≤ p →
    ((t.core c).tileRow o.1 i).getLsbD p = ((u.core c).tileRow o.1 i).getLsbD p
  others : ∀ e i, i < 128 → (∀ o ∈ outs, ¬ (o.1 = e ∧ i ∈ o.2.1)) → (t.core c).tileRow e i = (u.core c).tileRow e i
  rest : ∃ tiles poison, t = u.retile c n tiles poison
    ((outs.map (fun o => o.1)).filter (fun e => !(selRows w (w.rows e)).isEmpty))

/-! ## What the scalar words with a result compute (R91-R99) -/

/-- A scalar word with a result: its destination, its operand codes, and the value as a function of the operands. -/
structure ScalarRow where
  dst : Nat
  srcs : List Nat
  value : List Dword → Dword

/-- A word of two operands. -/
def two (d a b : BitVec 6) (f : Dword → Dword → Dword) : Option ScalarRow :=
  some ⟨d.toNat, [a.toNat, b.toNat], fun v => f (v.getD 0 0) (v.getD 1 0)⟩

def one (d a : BitVec 6) (f : Dword → Dword) : Option ScalarRow := some ⟨d.toNat, [a.toNat], fun v => f (v.getD 0 0)⟩

/-- The integer words (R91, R92) in the context whose group is captured. -/
def intRow (x : Ctx) : Instr → Option ScalarRow
  | .add d a b => two d a b (fun u v => u + v)
  | .sub d a b => two d a b (fun u v => u - v)
  | .mul d a b => two d a b (fun u v => u * v)
  | .mulh d a b => two d a b mulHigh
  | .mulhu d a b => two d a b mulHighU
  | .div d a b => two d a b divS
  | .divu d a b => two d a b divU
  | .rem d a b => two d a b remS
  | .remu d a b => two d a b remU
  | .and d a b => two d a b (fun u v => u &&& v)
  | .or d a b => two d a b (fun u v => u ||| v)
  | .xor d a b => two d a b (fun u v => u ^^^ v)
  | .andn d a b => two d a b (fun u v => u &&& ~~~ v)
  | .shl d a b => two d a b shlD
  | .shr d a b => two d a b shrD
  | .sra d a b => two d a b sraD
  | .rotl d a b => two d a b rotlD
  | .min d a b => two d a b (fun u v => if u.toInt < v.toInt then u else v)
  | .max d a b => two d a b (fun u v => if u.toInt < v.toInt then v else u)
  | .minu d a b => two d a b (fun u v => if u.toNat < v.toNat then u else v)
  | .maxu d a b => two d a b (fun u v => if u.toNat < v.toNat then v else u)
  | .clz d a => one d a (fun u => BitVec.ofNat 64 (clzFrom u 64))
  | .ctz d a => one d a (fun u => BitVec.ofNat 64 (ctzFrom u 64 0))
  | .popc d a => one d a (fun u => BitVec.ofNat 64 (popFrom u 64))
  | .addi d a i => one d a (fun u => u + immOf x.grp.pfx i)
  | .andi d a i => one d a (fun u => u &&& immOf x.grp.pfx i)
  | .ori d a i => one d a (fun u => u ||| immOf x.grp.pfx i)
  | .xori d a i => one d a (fun u => u ^^^ immOf x.grp.pfx i)
  | .shli d a i => one d a (fun u => shlD u (immOf x.grp.pfx i))
  | .shri d a i => one d a (fun u => shrD u (immOf x.grp.pfx i))
  | .srai d a i => one d a (fun u => sraD u (immOf x.grp.pfx i))
  | .muli d a i => one d a (fun u => u * immOf x.grp.pfx i)
  | .li d i => some ⟨d.toNat, [], fun _ => immOf x.grp.pfx i⟩
  | .fabs d a => one d a (fun u => u &&& 0x7FFFFFFF#64)
  | .fneg d a => one d a (fun u => (u &&& 0xFFFFFFFF#64) ^^^ 0x80000000#64)
  | _ => none

/-- The rounding of the captured group's scalar word: the effective mode, element 0 (R65, R66, R93). -/
def Ctx.rnd0 (x : Ctx) : Rnd :=
  { mode := effRnd x x.grp.pfx, r := srValue x.srseed x.srctr 0, sat := false, ftz := x.ftz }

/-- An FP32 operand after input flush, and a value rounded to FP32 (R68, R93). -/
def Ctx.inF32 (x : Ctx) (v : Dword) : Num := floatVal 1 (flushIn x.ftz 1 (v.toNat % 2 ^ 32)).1
def Ctx.outF32 (x : Ctx) (v : Num) : Dword := BitVec.ofNat 64 (roundFloat 1 x.rnd0 v)

/-- The FP32 words (R93). -/
def floatRow (x : Ctx) : Instr → Option ScalarRow
  | .fadd d a b => two d a b (fun u v => x.outF32 (Num.add x.rnd0.mode (x.inF32 u) (x.inF32 v)))
  | .fsub d a b => two d a b (fun u v => x.outF32 (Num.add x.rnd0.mode (x.inF32 u) (x.inF32 v).negate))
  | .fmul d a b => two d a b (fun u v => x.outF32 (Num.mul (x.inF32 u) (x.inF32 v)))
  | .fdiv d a b => two d a b (fun u v => x.outF32 (Num.div (x.inF32 u) (x.inF32 v)))
  | .fmin d a b => two d a b (fun u v => x.outF32 (Num.minN (x.inF32 u) (x.inF32 v)))
  | .fmax d a b => two d a b (fun u v => x.outF32 (Num.maxN (x.inF32 u) (x.inF32 v)))
  | .fsqrt d a => one d a (fun u => x.outF32 (Num.sqrt (x.inF32 u)))
  | .fcvtWf d a => one d a (fun u => BitVec.ofInt 64 (roundInt (-(2 ^ 63)) (2 ^ 63 - 1) x.rnd0.mode x.rnd0.r (x.inF32 u)))
  | _ => none

/-- The words whose value comes from elsewhere than the operand codes alone: a conversion from an integer, a selection, a
predicate half, a shape record, a CSR (R93, R96-R99). -/
def readRow (s : State) (x : Ctx) : Instr → Option ScalarRow
  | .fcvtFw d a => one d a (fun u => x.outF32 (Num.ofInt u.toInt))
  | .csel d a b p => two d a b (fun u v => if (x.pred p.toNat).getLsbD 0 then u else v)
  | .pget d p h => some ⟨d.toNat, [], fun _ => (x.pred p.toNat).extractLsb' (64 * h.toNat) 64⟩
  | .rdshape d t => some ⟨d.toNat, [], fun _ => (Map.get 0 x.shapes t.toNat).setWidth 64⟩
  | .csrr d c => if csrTrap x c.toNat false = none then some ⟨d.toNat, [], fun _ => csrRead (endStall s s.cur x) s.cur x c.toNat⟩ else none
  | _ => none

/-- A destination other than a channel that the strand may write now (R41, R54, R293, R299): q6 has room for an element,
the outbound mailbox for a word. -/
structure DestOk (s : State) (x : Ctx) (pops : List Nat) (d : Nat) : Prop where
  plain : ¬ (48 ≤ d ∧ d ≤ 53)
  q6 : d = 54 → x.priv = false ∧ (x.q6.length - pops.count 54) + 1 ≤ Config.q6Depth
  outbox : d = 55 → (s.tenant x.tenant).obox.length < 256

/-! ## What the tile words compute (07_tiles, 17_selection_engine) -/

/-- A tile word: its operand codes and tiles in the order R112 checks them, its own checks, the rows it reads (R308), the
runs of elements whose flushes it counts (R68), and for each tile it writes the rows and the patterns. -/
structure TileSpec where
  eng : Engine := .v
  srcs : List Nat := []
  tiles : List Nat
  own : Ctx → QWord → Option Nat
  reads : QWord → Core → List (Nat × Nat)
  runs : QWord → Core → List Run
  outs : Ctx → QWord → Core → List (Nat × List Nat × (Nat → Nat → Nat))

/-- Selected rows of a tile's active shape (R115). -/
def QWord.sel (w : QWord) (t : BitVec 6) : List Nat := selRows w (w.rows t.toNat)

/-- A word that writes one tile from whole selected rows of its sources; `raw` where it reads bit for bit. -/
def rowwise (d : BitVec 6) (srcs : List (BitVec 6)) (own : Ctx → QWord → Option Nat) (raw : QWord → Bool)
    (elem : Ctx → QWord → Core → Nat → Nat → Nat) : Option TileSpec :=
  some {
    tiles := (d :: srcs).map BitVec.toNat
    own := own
    reads := fun w _ => srcs.flatMap (fun t => readRows t.toNat (w.sel d))
    runs := fun w _ => if raw w then [] else srcs.flatMap (fun t => runsOf t.toNat (w.cols t.toNat) (w.sel d))
    outs := fun x w k => [(d.toNat, w.sel d, elem x w k)] }

/-- The rounding of element (i, j) of a destination (R66, R115). -/
def QWord.rnd2 (w : QWord) (d : BitVec 6) (i j : Nat) : Rnd := rndAt w (i * w.cols d.toNat + j)

/-- The binary group (R117). -/
def binTile (op : BinOp) (d a b : BitVec 6) (bc : BitVec 2) : Option TileSpec :=
  let brows := fun (w : QWord) => if bc = 1 then (if (w.sel d).isEmpty then [] else [0]) else w.sel d
  let get := fun (w : QWord) (k : Core) (t i j : Nat) => if op.bitwise then k.elem t (w.et t) i j else flushed w k t i j
  some {
    tiles := [d.toNat, a.toNat, b.toNat]
    own := binChk op d.toNat a.toNat b.toNat bc.toNat
    reads := fun w _ => readRows a.toNat (w.sel d) ++ readRows b.toNat (brows w)
    runs := fun w _ => if op.bitwise then [] else runsOf a.toNat (w.cols a.toNat) (w.sel d) ++ runsOf b.toNat (w.cols b.toNat) (brows w)
    outs := fun _ w k => [(d.toNat, w.sel d, fun i j =>
      binElem op (w.et d.toNat) (w.et a.toNat) (w.et b.toNat) (w.rnd2 d i j) (get w k a.toNat i j)
        (get w k b.toNat (if bc = 1 then 0 else i) (if bc = 2 then 0 else j)))] }

def binTiles : Instr → Option TileSpec
  | .vadd d a b w => binTile .add d a b w
  | .vsub d a b w => binTile .sub d a b w
  | .vmul d a b w => binTile .mul d a b w
  | .vdiv d a b w => binTile .div d a b w
  | .vmin d a b w => binTile .min d a b w
  | .vmax d a b w => binTile .max d a b w
  | .vand d a b w => binTile .and d a b w
  | .vor d a b w => binTile .or d a b w
  | .vxor d a b w => binTile .xor d a b w
  | .vshl d a b w => binTile .shl d a b w
  | .vshr d a b w => binTile .shr d a b w
  | .vsra d a b w => binTile .sra d a b w
  | _ => none

/-- The unary group (R118, R119). -/
def unTile (op : UnOp) (d a : BitVec 6) : Option TileSpec :=
  rowwise d [a] (unChk op d.toNat a.toNat) (fun w => op.raw (w.et d.toNat) (w.et a.toNat)) (fun _ w k i j =>
    unElem op (w.et d.toNat) (w.et a.toNat) (w.rnd2 d i j) (k.elem a.toNat (w.et a.toNat) i j) (flushed w k a.toNat i j))

def unTiles : Instr → Option TileSpec
  | .vabs d a => unTile .abs d a
  | .vneg d a => unTile .neg d a
  | .vrcp d a => unTile (.fn (fun _ _ v => v.rcp)) d a
  | .vrsqrt d a => unTile (.fn (fun _ _ v => v.rsqrt)) d a
  | .vsqrt d a => unTile (.fn (fun _ _ v => v.sqrt)) d a
  | .vexp2 d a => unTile (.fn (fun _ _ v => v.exp2)) d a
  | .vlog2 d a => unTile (.fn (fun _ _ v => v.log2)) d a
  | .vtanh d a => unTile (.fn (fun _ _ v => v.tanh)) d a
  | .vsigm d a => unTile (.fn (fun _ _ v => v.sigm)) d a
  | .vsilu d a => unTile (.fn (fun _ _ v => v.silu)) d a
  | .vfloor d a => unTile (.whole (fun _ _ v => v.toInteger 2 0)) d a
  | .vrnd d a => unTile (.whole (fun m r v => v.toInteger m r)) d a
  | .vmov d a => unTile .mov d a
  | .vnot d a => unTile .not d a
  | _ => none

/-- Compare, convert and the words of four operands (R120-R122). -/
def fourTile (op : FourOp) (d a b e : BitVec 6) : Option TileSpec :=
  let runs := fun (w : QWord) (t : BitVec 6) =>
    if op = .sel && w.et t.toNat = w.et d.toNat then [] else runsOf t.toNat (w.cols t.toNat) (w.sel d)
  (rowwise d [a, b, e] (fourChk op d.toNat a.toNat b.toNat e.toNat) (fun _ => false) (fun _ w k i j =>
    fourElem op (w.et d.toNat) (w.et a.toNat) (w.et b.toNat) (w.et e.toNat) (w.rnd2 d i j)
      (k.elem a.toNat (w.et a.toNat) i j) (k.elem b.toNat (w.et b.toNat) i j)
      (flushed w k a.toNat i j) (flushed w k b.toNat i j) (flushed w k e.toNat i j))).map
    (fun r => { r with runs := fun w _ => runs w a ++ runs w b ++ runs w e })

def mixTiles : Instr → Option TileSpec
  | .vcmp d a b c =>
    rowwise d [a, b] (vcmpChk d.toNat a.toNat b.toNat c.toNat) (fun _ => decide (c.toNat < 6)) (fun _ w k i j =>
      let u := k.elem a.toNat (w.et a.toNat) i j
      let v := k.elem b.toNat (w.et b.toNat) i j
      if (if c.toNat < 6 then condInt c.toNat (intVal (w.et a.toNat) u) (intVal (w.et b.toNat) v) u v
          else condFloat c.toNat (tval w k a.toNat i j) (tval w k b.toNat i j)) then 1 else 0)
  | .vcvt d a => rowwise d [a] (vcvtChk d.toNat a.toNat) (fun _ => false) (fun _ w k i j =>
      convert (w.et a.toNat) (w.et d.toNat) (w.rnd2 d i j) (flushed w k a.toNat i j))
  | .vfma d a b c => fourTile .fma d a b c
  | .vfms d a b c => fourTile .fms d a b c
  | .vsel d a b c => fourTile .sel d a b c
  | .vclamp d a b c => fourTile .clamp d a b c
  | _ => none

/-- A word that moves elements (R125): the rows of ta it reads and where element (i, j) comes from. -/
def moveTile (ok : QWord → Bool) (rowsRead : QWord → List Nat → List Nat) (place : Nat → Nat → Nat × Nat) (d a : BitVec 6) :
    Option TileSpec :=
  some {
    tiles := [d.toNat, a.toNat]
    own := moveChk ok d.toNat a.toNat
    reads := fun w _ => readRows a.toNat (rowsRead w (w.sel d))
    runs := fun _ _ => []
    outs := fun _ w k => [(d.toNat, w.sel d, fun i j => k.elem a.toNat (w.et a.toNat) (place i j).1 (place i j).2)] }

/-- Reductions, scans and rearrangement (R123-R125). -/
def foldTiles : Instr → Option TileSpec
  | .vredr d a f => rowwise d [a] (redChk true d.toNat a.toNat) (fun _ => false) (fun _ w k i _ =>
      reduceTo f.toNat w.ftz (w.et d.toNat) (w.et a.toNat) (rndAt w i)
        ((List.range (w.cols a.toNat)).map (fun j => flushed w k a.toNat i j)))
  | .vredc d a f => some {
      tiles := [d.toNat, a.toNat]
      own := redChk false d.toNat a.toNat
      reads := fun w _ => readRows a.toNat (if (selRows w 1).isEmpty then [] else List.range (w.rows a.toNat))
      runs := fun w _ => runsOf a.toNat (w.cols a.toNat) (if (selRows w 1).isEmpty then [] else List.range (w.rows a.toNat))
      outs := fun _ w k => [(d.toNat, selRows w 1, fun _ j =>
        reduceTo f.toNat w.ftz (w.et d.toNat) (w.et a.toNat) (rndAt w j)
          ((List.range (w.rows a.toNat)).map (fun i => flushed w k a.toNat i j)))] }
  | .vscan d a m => rowwise d [a] (scanChk d.toNat a.toNat) (fun _ => false) (fun _ w k i j =>
      (scanRow w k d.toNat a.toNat (m = 1) i).getD j 0)
  | .vtrn d a => moveTile (fun w => w.rows d.toNat = w.cols a.toNat && w.cols d.toNat = w.rows a.toNat)
      (fun w rows => if rows.isEmpty then [] else List.range (w.rows a.toNat)) (fun i j => (j, i)) d a
  | .vbcr d a => moveTile (fun w => w.rows a.toNat = 1 && w.cols a.toNat = w.cols d.toNat)
      (fun _ rows => if rows.isEmpty then [] else [0]) (fun _ j => (0, j)) d a
  | .vbcc d a => moveTile (fun w => w.rows a.toNat = w.rows d.toNat && w.cols a.toNat = 1) (fun _ rows => rows) (fun i _ => (i, 0)) d a
  | _ => none

/-- Quantisation, weight decoding and compression (R74, R75, R126-R128). -/
def quantTiles : Instr → Option TileSpec
  | .vqnt d a b =>
    let q := fun (w : QWord) (k : Core) (i : Nat) =>
      quantRow (w.et d.toNat) (fun j => w.rnd2 d i j) ((List.range (w.cols a.toNat)).map (fun j => tval w k a.toNat i j))
    some {
      tiles := [d.toNat, a.toNat, b.toNat]
      own := vqntChk d.toNat a.toNat b.toNat
      reads := fun w _ => readRows a.toNat (w.sel d)
      runs := fun w _ => runsOf a.toNat (w.cols a.toNat) (w.sel d)
      outs := fun _ w k => [(d.toNat, w.sel d, fun i j => (q w k i).1.getD j 0), (b.toNat, w.sel d, fun i j => (q w k i).2.getD j 0)] }
  | .vdqnt d a b => some {
      tiles := [d.toNat, a.toNat, b.toNat]
      own := vdqntChk d.toNat a.toNat b.toNat
      reads := fun w _ => readRows a.toNat (w.sel d) ++ readRows b.toNat (w.sel d)
      runs := fun w _ => runsOf a.toNat (w.cols a.toNat) (w.sel d)
      outs := fun _ w k => [(d.toNat, w.sel d, fun i j =>
        narrow (w.et d.toNat) (w.rnd2 d i j) (dequant (k.elem b.toNat 0x11 i (j / 32)) (tval w k a.toNat i j)))] }
  | .vvqd d a b => some {
      tiles := [d.toNat, a.toNat, b.toNat]
      own := vvqdChk d.toNat a.toNat b.toNat
      reads := fun w _ => readRows a.toNat (w.sel d) ++ readRows b.toNat (w.sel d)
      runs := fun _ _ => []
      outs := fun x w k => [(d.toNat, w.sel d, fun i j =>
        narrow (w.et d.toNat) (w.rnd2 d i j) (dequant (k.elem b.toNat 0x11 i (j / 32)) (vqElem x.codebook k a.toNat i j)))] }
  | .vcomp d a b m =>
    let r := fun (w : QWord) (k : Core) (i : Nat) =>
      compRow m.toNat (w.et a.toNat) ((List.range (w.cols a.toNat)).map (fun j => flushed w k a.toNat i j))
    some {
      tiles := [d.toNat, a.toNat, b.toNat]
      own := vcompChk m.toNat d.toNat a.toNat b.toNat
      reads := fun w _ => readRows a.toNat (w.sel d)
      runs := fun w _ => runsOf a.toNat (w.cols a.toNat) (w.sel d)
      outs := fun _ w k => [(d.toNat, w.sel d, fun i j => (r w k i).1.getD j 0), (b.toNat, w.sel d, fun i j => (r w k i).2.getD j 0)] }
  | _ => none

/-- The checks of a selection word (R241): types, the count, shapes. -/
def kOwn (types count shapes : QWord → Bool) : Ctx → QWord → Option Nat := fun _ w =>
  if !types w then some cFMT else if !count w then some cBOUNDS else if !shapes w then some cSHAPE else none

/-- A row-wise ranking word: indices into td, values into tb (R242-R244). -/
def rankTile (order : List Num → List Nat) (srcs : List Nat) (count shapes : QWord → Bool) (d a b : BitVec 6) : Option TileSpec :=
  let ix := fun (w : QWord) (k : Core) (i j : Nat) =>
    (order ((List.range (w.cols a.toNat)).map (fun l => tval w k a.toNat i l))).getD j 0
  some {
    eng := .k
    srcs := srcs
    tiles := [d.toNat, a.toNat, b.toNat]
    own := kOwn (rankTypes d.toNat a.toNat b.toNat) count shapes
    reads := fun w _ => readRows a.toNat (List.range (w.rows a.toNat))
    runs := fun w _ => runsOf a.toNat (w.cols a.toNat) (List.range (w.rows a.toNat))
    outs := fun _ w k => [(d.toNat, w.sel d, ix w k), (b.toNat, w.sel d, fun i j => k.elem a.toNat (w.et a.toNat) i (ix w k i j))] }

/-- The selection words (R241-R247). -/
def rankTiles : Instr → Option TileSpec
  | .ktopc d a b k =>
    let ix := fun (w : QWord) (c : Core) (r j : Nat) =>
      (orderDown ((List.range (w.rows a.toNat)).map (fun i => tval w c a.toNat i j))).getD r 0
    some {
      eng := .k
      srcs := [k.toNat]
      tiles := [d.toNat, a.toNat, b.toNat]
      own := kOwn (rankTypes d.toNat a.toNat b.toNat) (fun w => 1 ≤ kCount w && kCount w ≤ w.rows a.toNat)
        (fun w => isDims w b.toNat (kCount w) (w.cols a.toNat) && isDims w d.toNat (kCount w) (w.cols a.toNat) && d ≠ b)
      reads := fun w _ => readRows a.toNat (List.range (w.rows a.toNat))
      runs := fun w _ => runsOf a.toNat (w.cols a.toNat) (List.range (w.rows a.toNat))
      outs := fun _ w c => [(d.toNat, w.sel d, fun r j => ix w c r j),
        (b.toNat, w.sel d, fun r j => c.elem a.toNat (w.et a.toNat) (ix w c r j) j)] }
  | .ktopr d a b k => rankTile orderDown [k.toNat] (fun w => 1 ≤ kCount w && kCount w ≤ Min.min (w.cols a.toNat) 32)
      (fun w => isDims w b.toNat (w.rows a.toNat) (kCount w) && isDims w d.toNat (w.rows a.toNat) (kCount w) && d ≠ b) d a b
  | .ksort d a b => rankTile orderUp [] (fun _ => true)
      (fun w => isDims w b.toNat (w.rows a.toNat) (w.cols a.toNat) && isDims w d.toNat (w.rows a.toNat) (w.cols a.toNat) && d ≠ b) d a b
  | .kmerge d a b n =>
    let fs := fun (w : QWord) (k : Core) => (List.range (kCount w)).map (fibre w k a.toNat b.toNat)
    let out := fun (w : QWord) (k : Core) => mergeList w (w.et b.toNat) (((fs w k).map List.length).sum) 0 (fs w k)
    some {
      eng := .k
      srcs := [n.toNat]
      tiles := if d.toNat % 2 = 0 then [d.toNat, a.toNat, b.toNat, d.toNat + 1] else [d.toNat, a.toNat, b.toNat]
      own := kOwn (fun w => w.et a.toNat = 0x09 && (w.et b.toNat = 0x01 || w.et b.toNat = 0x09) && w.et d.toNat = 0x09
          && (d.toNat % 2 = 1 || w.et (d.toNat + 1) = w.et b.toNat))
        (fun w => 1 ≤ kCount w && kCount w ≤ w.rows a.toNat)
        (fun w => d.toNat % 2 = 0 && sameDims w b.toNat a.toNat && kCount w * w.cols a.toNat ≤ w.rows d.toNat * w.cols d.toNat
          && sameDims w (d.toNat + 1) d.toNat)
      reads := fun w _ => readRows a.toNat (List.range (w.rows a.toNat)) ++ readRows b.toNat (List.range (w.rows b.toNat))
      runs := fun w k => (fs w k).mapIdx (fun f l => (b.toNat, f, l.length))
      outs := fun _ w k => [
        (d.toNat, w.sel d, fun i j => match (out w k)[i * w.cols d.toNat + j]? with | some p => wrapNat p.1 32 | none => 0xFFFFFFFF),
        (d.toNat + 1, w.sel d, fun i j => match (out w k)[i * w.cols d.toNat + j]? with | some p => p.2 | none => 0)] }
  | .khist d a n => some {
      eng := .k
      srcs := [n.toNat]
      tiles := [d.toNat, a.toNat]
      own := kOwn (fun w => isIntT (w.et a.toNat) && w.et d.toNat = 0x09)
        (fun w => 1 ≤ kCount w && kCount w ≤ w.rows d.toNat * w.cols d.toNat) (fun _ => true)
      reads := fun w _ => readRows a.toNat (List.range (w.rows a.toNat))
      runs := fun _ _ => []
      outs := fun _ w k => [(d.toNat, w.sel d, fun i j =>
        if i * w.cols d.toNat + j < kCount w then
          ((List.range (w.rows a.toNat)).flatMap (fun r => (List.range (w.cols a.toNat)).map (fun c =>
            intVal (w.et a.toNat) (k.elem a.toNat (w.et a.toNat) r c)))).countP (fun v => decide (v = ((i * w.cols d.toNat + j : Nat) : Int)))
        else 0)] }
  | .kmark d a n => some {
      eng := .k
      srcs := [n.toNat]
      tiles := [d.toNat, a.toNat]
      own := kOwn (fun w => w.et a.toNat = 0x09 && w.et d.toNat = 0x12) (fun w => 1 ≤ kCount w && kCount w ≤ 128)
        (fun w => isDims w d.toNat (kCount w) (w.cols a.toNat))
      reads := fun w _ => readRows a.toNat (List.range (w.rows a.toNat))
      runs := fun _ _ => []
      outs := fun _ w k => [(d.toNat, w.sel d, fun i j =>
        if (List.range (w.rows a.toNat)).any (fun r => decide (intVal 0x09 (k.elem a.toNat 0x09 r j) = (i : Int))) then 1 else 0)] }
  | _ => none

/-- A word of a table of tile words completes: where the strand is idle, the operands are readable, the shape records
satisfy R112, the word's own checks pass and no row it reads is poisoned, it leaves exactly its tiles written. -/
def TileWordsComplete (table : Instr → Option TileSpec) : Prop :=
  ∀ (s u : State) (x : Ctx) (i : Instr) (r : TileSpec) (vals : List Dword) (pops : List Nat) (w : QWord) (k : Core),
    table i = some r → w = x.tileWord i r.eng r.srcs vals r.tiles → u = s.readied x pops w → k = u.core s.cur →
    Idle s x → readAll s s.cur x r.srcs [] [] = .ok vals pops → x.legal r.tiles → r.own x w = none →
    poisonedTile k (r.reads w k) = none →
    ∃ t, exec i s = .next t ∧ TileOut u t s.cur (flushedIn w k (r.runs w k)) w (r.outs x w k)

/-! ## Words of every other shape -/

/-- Capture of a word on an idle strand goes through (R32): privilege, destination, a free slot of the channel it pushes into,
operands, handle, the word's own checks, q6 room; what its handle orders before it has performed (R198); no word that a trap holds
names a byte of its, wherever the tables stand (R196); no gate holds it. That words a trap holds come before a handler's is the
model's reading (notes/assumptions/104). -/
structure Passes (s : State) (x : Ctx) (i : Instr) (sp : CapSpec) (chk : State → Nat → Ctx → QWord → Chk) (vals : List Dword)
    (pops : List Nat) (w : QWord) : Prop where
  priv : sp.priv = true → x.priv = true
  dest : ∀ d, sp.pushed = some d → destTrap x d = false
  credit : creditStall s s.cur x sp = false
  read : readAll s s.cur x sp.srcs [] [] = .ok vals pops
  handle : sp.mem = true → x.grp.pfx.hasHnd = true → (Map.at? x.hnd x.grp.pfx.handle).isSome = true
  check : chk s s.cur x (mkWord x i sp vals) = .ok w
  room : (x.q6.length - pops.count 54) + q6Need sp ≤ Config.q6Depth
  order : s.orderOk s.cur (x.enrol sp (s.tenant x.tenant).scap w).1 (x.enrol sp (s.tenant x.tenant).scap w).2 = true
  apart : ∀ t : State, t.clashesBefore s.cur x (x.enrol sp (s.tenant x.tenant).scap w).2 = false
  gate : w.gate = .none ∨ (s.cmds = [] ∧ x.held.words.any w.gate.names = false)
  same : w.instr = i ∧ w.pfx = x.grp.pfx ∧ w.blocked = false ∧ w.seqr = none ∧ w.q6 = []

/-- A word: what capture checks, what it does as it passes capture, when its start finds what it needs, and the state it
leaves. The last two are given the state in which it starts, its core, its context and itself. -/
structure WordSpec where
  sp : CapSpec
  chk : State → Nat → Ctx → QWord → Chk := noChk
  act : State → Nat → QWord → State := noAct
  ok : State → Nat → Ctx → QWord → Prop := fun _ _ _ _ => True
  out : State → Nat → Ctx → QWord → State

/-- Every word of a table completes: captured on an idle strand that it passes, it leaves the state its row gives, in which
it has finished, or is under way, or waits as the row says. -/
def WordsComplete (table : Instr → Option WordSpec) : Prop :=
  ∀ (s u : State) (x y : Ctx) (i : Instr) (r : WordSpec) (vals : List Dword) (pops : List Nat) (w v : QWord),
    table i = some r → Idle s x → Passes s x i r.sp r.chk vals pops w → v = (x.enrol r.sp (s.tenant x.tenant).scap w).2 →
    u = touchUnits (passing r.sp r.act (s.entered x r.sp w pops) s.cur v) s.cur x.me w.units → u.ctx s.cur = some y → r.ok u s.cur y v →
    exec i s = .next (r.out u s.cur y v)

/-- A word that has finished: its operation, if it is one, has performed (R177, R198). -/
def State.performed (u : State) (c : Nat) (v : QWord) : State :=
  if v.seqr.isNone then u else u.modCtx c (fun y => y.perform v.seqr v.opn)

/-- A word under way whose named accesses have not performed (R196). -/
def State.goes (u : State) (c : Nat) (v : QWord) : State := u.addFly c { v with waiting := false }

/-- A word under way whose local accesses are over (R177). -/
def State.sent1 (u : State) (c : Nat) (v : QWord) : State := u.addFly c { v with waiting := false, foot := [] }

/-- The same, its queue standing until it has finished (R186, R281). -/
def State.shuts (u : State) (c : Nat) (v : QWord) : State := u.addFly c { v with waiting := false, holds := true, foot := [] }

/-- A started word that waits. -/
def State.waits (u : State) (c : Nat) (v : QWord) : State := u.addFly c { v with waiting := true }

/-- An S word without a result. -/
def sSpec (srcs : List (BitVec 6)) : CapSpec := { eng := .s, srcs := srcs.map BitVec.toNat }

/-! ### Predicates, shape records, CSRs (R94-R99) -/

def predRow (d a b : BitVec 7) (f : Pred → Pred → Pred) : Option WordSpec :=
  some { sp := predSpec d a b, out := fun u c y _ => u.modCtx c (fun z => z.setPred d.toNat (f (y.pred a.toNat) (y.pred b.toNat))) }

def stateWords : Instr → Option WordSpec
  | .nop => some { sp := sSpec [], out := fun u _ _ _ => u }
  | .cmp p a b k => some {
      sp := { eng := .s, srcs := [a.toNat, b.toNat], dstP := some p.toNat }
      out := fun u c _ v => (noteFlush u c (if k.toNat < 6 then 0 else flushCount v.ftz v.ops)).modCtx c (fun z =>
        z.setPred p.toNat (if condHolds k.toNat v.ftz (op0 v) (op1 v) then BitVec.allOnes 128 else 0)) }
  | .pand d a b => predRow d a b (fun p q => p &&& q)
  | .por d a b => predRow d a b (fun p q => p ||| q)
  | .pxor d a b => predRow d a b (fun p q => p ^^^ q)
  | .pandn d a b => predRow d a b (fun p q => p &&& ~~~ q)
  | .pput a p h => some {
      sp := { eng := .s, srcs := [a.toNat], dstP := some p.toNat, preds := [p.toNat] }
      out := fun u c y v => u.modCtx c (fun z => z.setPred p.toNat (setBits (y.pred p.toNat) (64 * h.toNat) 64 (op0 v).toNat)) }
  | .tshape a t => some {
      sp := sSpec [a]
      act := fun u c v => u.modCtx c (fun z => { z with shapes := Map.put 0 z.shapes t.toNat ((op0 v).setWidth 32) })
      out := fun u _ _ _ => u }
  | .csrw a n => some {
      sp := { eng := .s, srcs := [a.toNat], sys := n.toNat = 0x011 }
      chk := fun _ _ x w => match csrTrap x n.toNat true with | some cause => .trap cause (x.grp.raw.setWidth 64) | none => .ok w
      act := fun u c v => csrWrite u c n.toNat (op0 v)
      out := fun u _ _ _ => u }
  | .mscl a b => some {
      sp := { eng := .m }
      act := fun u c _ => u.modCtx c (fun z => { z with mscl := some (a.toNat, b.toNat) })
      out := fun u _ _ _ => u }
  | .msclOff => some {
      sp := { eng := .m }
      act := fun u c _ => u.modCtx c (fun z => { z with mscl := none })
      out := fun u _ _ _ => u }
  | _ => none

/-! ### Control flow (R104-R107) -/

/-- Trips of `loop_t` (R105): a count that is not positive gives none. -/
def tripsT (n : BitVec 6) (w : QWord) : Nat := if 0 < (immOf w.pfx n).toInt then (immOf w.pfx n).toNat else 0

/-- Trips of `loop_rp` (R105): the pointer less `rpbase`. -/
def tripsRp (x : Ctx) (w : QWord) : Nat := (op0 w).toNat - x.rpbase.toNat

/-- Where a branch of the group goes (R104). -/
def jumpTo (v : QWord) (disp : Dword) : State → Nat → State :=
  fun u c => u.modCtx c (fun z => z.goTo (BitVec.ofNat 64 v.waddr + 4 * disp).toNat)

def flowWords : Instr → Option WordSpec
  | .br p t d => some {
      sp := jumpSpec [] [p.toNat]
      chk := fun _ _ x w => .ok { w with cap := if (x.pred p.toNat).getLsbD 0 ≠ t.getLsbD 0 then 1 else 0 }
      act := fun u c v => u.modCtx c (fun z =>
        z.goTo (if v.cap = 1 then (BitVec.ofNat 64 v.waddr + 4 * immOf v.pfx d).toNat else v.waddr + 4))
      out := fun u _ _ _ => u }
  | .jmp d => some { sp := jumpSpec [] [], act := fun u c v => jumpTo v (immOf v.pfx d) u c, out := fun u _ _ _ => u }
  | .call d => some {
      sp := jumpSpec [] []
      act := fun u c v => jumpTo v (immOf v.pfx d) u c
      out := fun u c _ v => u.modCtx c (fun z => z.writeReg v.seq 31 (BitVec.ofNat 64 (v.waddr + 4))) }
  | .jr a => some {
      sp := jumpSpec [a.toNat] []
      act := fun u c v => u.modCtx c (fun z => z.goTo ((op0 v).toNat / 4 * 4))
      out := fun u _ _ _ => u }
  | .loopT l n len => some {
      sp := jumpSpec [] []
      chk := loopChk l.toNat len (fun _ w => tripsT n w)
      act := fun u c v => u.modCtx c (fun z => z.openLoop l.toNat (v.cap.toNat) v.waddr (v.waddr + 4 * len.toNat))
      out := fun u _ _ _ => u }
  | .loopRp l q len => some {
      sp := jumpSpec [q.toNat] []
      chk := loopChk l.toNat len (fun x w => if x.rpbase.toNat ≤ (op0 w).toNat then tripsRp x w else 0)
      act := fun u c v => u.modCtx c (fun z =>
        ({ (if (op0 v).toNat < z.rpbase.toNat then z.stick stRPNEG else z) with rpbase := op0 v } : Ctx).openLoop l.toNat v.cap.toNat
          v.waddr (v.waddr + 4 * len.toNat))
      out := fun u _ _ _ => u }
  | .endw => some {
      sp := { eng := .s, jump := true }
      act := fun u c _ => u.modCtx c (fun z => { z with ending := true })
      out := fun u c _ v => u.waits c v }
  | _ => none

/-! ### Scalar memory access (R100-R103) -/

/-- One packet under the word's sequencer, with the command that awaits its answer (R177, R210). -/
def State.asks (u : State) (c : Nat) (y : Ctx) (v : QWord) (op5 : Nat) (kind : PKind) (dst : Leaf) : State :=
  (sendCmd u c y v op5 kind dst).goes c v

def memoryWords : Instr → Option WordSpec
  | .lds d b i => some {
      sp := { eng := .s, srcs := [b.toNat], dst := some d.toNat, mem := true }
      chk := chkSpadWord i false
      ok := fun u c y v => v.pa / 128 ∉ (u.core c).spadPoison ∧ (d.toNat = 55 → oboxRoom u y = true)
      out := fun u c _ v => (writeDst u c v ((u.core c).spadWord v.pa)).performed c v }
  | .sts a b i => some {
      sp := { eng := .s, srcs := [a.toNat, b.toNat], mem := true }
      chk := chkSpadWord i true
      out := fun u c _ v => (if Config.flagBase ≤ v.pa then
          ((u.setFlag c ((v.pa - Config.flagBase) / 8) (op0 v)).modCtx c (fun z => z.stick stFLAGCLOB)).count c evFLAGCLOB 1
        else u.modCore c (fun k => k.setSpadWord v.pa (op0 v))).performed c v }
  | .ldg d b i => some {
      sp := { eng := .s, srcs := [b.toNat], dst := some d.toNat, mem := true }
      chk := chkGlobWord i false
      ok := fun u c y v => ∃ pa, stlbTranslate u c y.tenant v.pa false = .ok pa
      out := fun u c y v =>
        let w := u.placed c y.tenant v
        match stlbTranslate u c y.tenant v.pa false with
        | .ok pa => ((sendCmd (stlbFill u c y.tenant v.pa) c y w 0 (.load pa v.pa) (.slice (homeSlice pa))).modCtx c
            (fun z => z.loading w)).goes c w
        | .error _ => u }
  | .stg a b i => some {
      sp := { eng := .s, srcs := [a.toNat, b.toNat], mem := true }
      chk := chkGlobWord i true
      ok := fun u c y v => ∃ pa, stlbTranslate u c y.tenant v.pa true = .ok pa
      out := fun u c y v => match stlbTranslate u c y.tenant v.pa true with
        | .ok pa => (stlbFill u c y.tenant v.pa).asks c y (u.placed c y.tenant v) 0 (.store pa v.pa (op0 v)) (.slice (homeSlice pa))
        | .error _ => u }
  | _ => none

/-! ### Rows and single elements (R129-R138) -/

/-- A tile word's checks with nothing to add. -/
def tileChk (ts : List Nat) (own : Ctx → QWord → Option Nat) : State → Nat → Ctx → QWord → Chk := chkTiles ts own (fun _ w => w)

/-- Rows of a tile replaced, each a function of the row as it stands; a full row loses its mark (R308). -/
def Core.setRows (k : Core) (t : Nat) (rows : List Nat) (full : Bool) (f : Core → Nat → Row) : Core :=
  rows.foldl (fun k1 i => k1.putRow t i full (f k1 i)) k

/-- The tile is live again where a row was written (R137). -/
def State.revived (u : State) (c : Nat) (t : Nat) (rows : List Nat) : State :=
  u.modCtx c (fun z => z.revive (if rows.isEmpty then [] else [t]))

def rowWords : Instr → Option WordSpec
  | .tld d a i => some {
      sp := { eng := .v, srcs := [a.toNat] }
      chk := rowsChk i d.toNat true
      ok := fun u c _ v => ∀ j ∈ v.sel d, (rowBase v).toNat + j ∉ (u.core c).spadPoison
      out := fun u c _ v => (u.modCore c (fun k => k.setRows d.toNat (v.sel d) true (fun k1 j =>
          unswizzle v.swz ((rowBase v).toNat + j) (k1.spadRow ((rowBase v).toNat + j))))).revived c d.toNat (v.sel d) }
  | .tst d a i => some {
      sp := { eng := .v, srcs := [a.toNat] }
      chk := rowsChk i d.toNat false
      ok := fun u c _ v => poisonedTile (u.core c) (readRows d.toNat (v.sel d)) = none
      out := fun u c _ v => (u.modCore c (fun k => (v.sel d).foldl (fun k1 j =>
          { k1.setSpadRow ((rowBase v).toNat + j) (k1.tileRow d.toNat j) with
            spadPoison := k1.spadPoison.filter (fun r => r ≠ (rowBase v).toNat + j) }) k)).revived c d.toNat [] }
  | .tldX d a i => some {
      sp := { eng := .v, srcs := [a.toNat] }
      chk := tldxChk i d.toNat
      ok := fun u c _ _ => (u.core c).spadPoison = []
      out := fun u c _ v => (u.modCore c (putTile v d.toNat (v.sel d) (fun i j =>
          let wd := bfxWidth v.bfx (j % bfxCount v.bfx)
          bfxExtend (v.et d.toNat) wd ((u.core c).spadBits
            ((tldxStart v).toNat + i * bfxRowBits v.bfx (v.cols d.toNat) + bfxPos v.bfx j) wd)))).revived c d.toNat (v.sel d) }
  | .vrmg d a t => some {
      sp := { eng := .v, srcs := [a.toNat] }
      chk := tileChk [d.toNat, t.toNat] (fun _ w =>
        if w.rows t.toNat < w.rows d.toNat then some cSHAPE else if 127 < (op0 w).toNat then some cBOUNDS else none)
      ok := fun u c _ v => poisonedTile (u.core c) (readRows d.toNat (v.sel d) ++ readRows t.toNat (v.sel d)) = none
      out := fun u c _ v => (u.modCore c (fun k => k.setRows d.toNat (v.sel d) true (fun _ i =>
          rotMerge ((u.core c).tileRow d.toNat i) ((u.core c).tileRow t.toNat i) (op0 v).toNat))).revived c d.toNat (v.sel d) }
  | .vfill d a => some {
      sp := { eng := .v, srcs := [a.toNat] }
      chk := tileChk [d.toNat] (fun _ _ => none)
      out := fun u c _ v =>
        ((noteFlush u c (if (fillElemOf v (v.et d.toNat) 0 (op0 v)).2 && !(v.sel d).isEmpty then 1 else 0)).modCore c (fun k =>
          if v.et d.toNat = 0x10 then
            k.setRows d.toNat (v.sel d) (v.cols d.toNat = 512) (fun k1 i =>
              (List.range (v.cols d.toNat / 8)).foldl (fun r j => setVq r j ((op0 v).toNat % 65536)) (k1.tileRow d.toNat i))
          else putTile v d.toNat (v.sel d) (fun i j => (fillElemOf v (v.et d.toNat) (i * v.cols d.toNat + j) (op0 v)).1) k)).revived
          c d.toNat (v.sel d) }
  | .vput t a b => some {
      sp := { eng := .v, srcs := [a.toNat, b.toNat] }
      chk := tileChk [t.toNat] (idxChk t.toNat 1)
      out := fun u c _ v =>
        let i := cRow (op1 v)
        let j := cCol (op1 v)
        let e := fillElemOf v (v.et t.toNat) (i * v.cols t.toNat + j) (op0 v)
        if rowSel v.mask i then
          ((noteFlush u c (if e.2 then 1 else 0)).modCore c (fun k => k.putRow t.toNat i false
            (if v.et t.toNat = 0x10 then setVq (k.tileRow t.toNat i) (j / 8) e.1
             else setBits (k.tileRow t.toNat i) (ewidth (v.et t.toNat) * j) (ewidth (v.et t.toNat)) e.1))).revived c t.toNat
              (v.sel t)
        else u }
  | .vget t a => some {
      sp := { eng := .v, srcs := [a.toNat], q6 := 1 }
      chk := tileChk [t.toNat] (idxChk t.toNat 0)
      ok := fun u c _ v => 128 * t.toNat + cRow (op0 v) ∉ (u.core c).tilePoison
      out := fun u c _ v => u.modCtx c (fun z => z.produceAll v.q6 [getElem (u.core c) t.toNat (v.et t.toNat) (cRow (op0 v)) (cCol (op0 v))]) }
  | .vrowm t => some {
      sp := { eng := .v, q6 := 2 }
      chk := tileChk [t.toNat] (fun _ w => if w.et t.toNat = 0x11 then some cFMT else none)
      ok := fun u c _ v => poisonedTile (u.core c) (readRows t.toNat (List.range (v.rows t.toNat))) = none
      out := fun u c _ v =>
        let m := rowMaskOf v (u.core c) t.toNat
        (((noteFlush u c (flushedIn v (u.core c) (if isFloatT (v.et t.toNat)
            then runsOf t.toNat (v.cols t.toNat) (List.range (v.rows t.toNat)) else []))).modCore c id).revived c t.toNat []).modCtx c
          (fun z => z.produceAll v.q6 [BitVec.ofNat 64 m, BitVec.ofNat 64 (m / 2 ^ 64)]) }
  | .tkill d => some {
      sp := { eng := .v }
      chk := tileChk [d.toNat] (fun _ _ => none)
      out := fun u c _ _ => (u.modCore c (fun k => k.clearUnit (tileUnit d.toNat))).modCtx c (fun z => { z with dead := addMark z.dead d.toNat }) }
  | .vcbld t => some {
      sp := { eng := .v }
      chk := tileChk [t.toNat] (fun _ w => if w.sh t.toNat = mkShape 0x0C 8 128 then none else some cSHAPE)
      ok := fun u c _ _ => poisonedTile (u.core c) (readRows t.toNat (List.range 8)) = none
      out := fun u c _ _ => ((u.modCore c id).revived c t.toNat []).modCtx c (fun z => { z with
        codebook := (List.range 256).foldl (fun m e => Map.put 0 m e (((u.core c).tileRow t.toNat (e / 32)).extractLsb' (32 * (e % 32)) 32)) [] }) }
  | _ => none

/-! ### Accumulators (R140-R151) -/

/-- The new accumulator rows of a multiply word: for each selected row of A, from its old elements or zero, the sums of
R76 to R78 over its groups with each row of B. -/
def mulRows (op : MulOp) (acc a b tx : Nat) (f : BitVec 3) (y : Ctx) (v : QWord) (k : Core) : List (Nat × List Nat) :=
  let sp := mulSparse op f v.fmt
  let mx := mulMx f v.fmt (v.et b)
  let kk := mulK sp v a b
  let int := intPairing (v.et a)
  let bf : List (List (List Num) × ScaleOf) := if int then [] else (List.range (v.rows b)).map (fun n =>
    (bRow sp (.zero false) kk (nibbleAt k tx n) (fun p =>
      if v.et b = 0x10 then vqElem y.codebook k b n p
      else floatVal (v.et b) (flushIn v.ftz (v.et b) (((List.range (v.cols b)).map (k.elem b (v.et b) n)).getD p 0)).1),
     scalesOf k mx (v.mscl.getD (0, 0)).2 n))
  let bi := if int then (List.range (v.rows b)).map (fun n =>
    bRow sp 0 kk (nibbleAt k tx n) (fun p => intVal (v.et b) (k.elem b (v.et b) n p))) else []
  (selRows v (v.rows a)).map (fun i => (i,
    mulRow v (groupSize (v.et a)) int (aPats op (mulPair sp v a b) v k a tx kk i) (v.et a) (scalesOf k mx (v.mscl.getD (0, 0)).1 i) bf bi
      (fun j => if fZ f then 0 else accElem (k.accRow acc i) j)))

/-- Flushed inputs of a multiply word (R68, R152): over every row of its operand tiles, each read once, and over the
scratchpad rows it gathers. -/
def mulFlushes (op : MulOp) (a b : Nat) (f : BitVec 3) (rows : List Nat) (v : QWord) (k : Core) : Nat :=
  let sp := mulSparse op f v.fmt
  if intPairing (v.et a) then 0
  else flushedIn v k (mulRuns op (mulPair sp v a b) v a b) + (rows.map (fun r => ((List.range (mulK sp v a b)).filter (fun p =>
    (flushIn v.ftz (v.et a) (rowElem (unswizzle v.swz r (k.spadRow r)) (ewidth (v.et a)) p)).2)).length)).sum

/-- Groups a multiply word skips (R77, R144): those in which every A element of every selected row is zero, unless NSK. -/
def mulSkips (op : MulOp) (a b tx : Nat) (f : BitVec 3) (v : QWord) (k : Core) : Nat :=
  let sp := mulSparse op f v.fmt
  let zero := fun (e : Nat) => if intPairing (v.et a) then decide (intVal (v.et a) e = 0)
    else (floatVal (v.et a) (flushIn v.ftz (v.et a) e).1).isZero
  if fNsk f then 0
  else skippedGroups (groupSize (v.et a)) (mulK sp v a b) ((selRows v (v.rows a)).map (fun i =>
    (aPats op (mulPair sp v a b) v k a tx (mulK sp v a b) i).map zero))

/-- A multiply word: nothing it reads is poisoned; the selected accumulator rows hold the new sums, the accumulator has
A's kind, and flushes and skipped groups are counted. `rows` are the scratchpad rows it gathers. -/
def mulOut (u : State) (c : Nat) (y : Ctx) (v : QWord) (op : MulOp) (acc a b tx : Nat) (f : BitVec 3) (rows : List Nat) : State :=
  ((noteFlush u c (mulFlushes op a b f rows v (u.core c))).count c evSKIP (mulSkips op a b tx f v (u.core c))).modCore c (fun k =>
    ((mulRows op acc a b tx f y v (u.core c)).foldl (fun k1 p =>
      k1.setAccRow acc p.1 (setAccElems ((u.core c).accRow acc p.1) 0 (v.rows b) (fun j => p.2.getD j 0))) k).setAccKind acc (intPairing (v.et a)))

/-- The multiply words: kind, accumulator, tiles A, B and the third, flags. -/
def mulWords : Instr → Option (MulOp × Nat × Nat × Nat × Nat × BitVec 3)
  | .mma c a b x f => some (.dense, c.toNat, a.toNat, b.toNat, x.toNat, f)
  | .mmaSp c a b x f => some (.sparse, c.toNat, a.toNat, b.toNat, x.toNat, f)
  | .mmaG c a b x f => some (.gather, c.toNat, a.toNat, b.toNat, x.toNat, f)
  | _ => none

/-- No row of the core's tiles, accumulators or scratchpad is marked. -/
def Core.clean (k : Core) : Prop := k.tilePoison = [] ∧ k.accPoison = [] ∧ k.spadPoison = []

def accWords : Instr → Option WordSpec
  | .mrd a d col t => some {
      sp := { eng := .m }
      chk := accMoveChk a.toNat d.toNat col.toNat (t = 1) false
      ok := fun u c _ _ => (u.core c).accPoison = []
      out := fun u c _ v =>
        let k := u.core c
        let get := fun i j => if t = 1 then accElem (k.accRow a.toNat j) (col.toNat + i) else accElem (k.accRow a.toNat i) (col.toNat + j)
        let n := if k.accIsInt a.toNat then 0
          else ((v.sel d).map (fun i => ((List.range (v.cols d.toNat)).filter (fun j => (flushIn v.ftz 1 (get i j)).2)).length)).sum
        ((noteFlush u c n).modCore c (putTile v d.toNat (v.sel d) (fun i j =>
          readOut (k.accIsInt a.toNat) (v.et d.toNat) v.ftz (v.rnd2 d i j) (get i j)))).revived c d.toNat (v.sel d) }
  | .mwr a d col t => some {
      sp := { eng := .m }
      chk := accMoveChk a.toNat d.toNat col.toNat (t = 1) true
      ok := fun u c _ _ => (u.core c).tilePoison = []
      out := fun u c _ v =>
        let k := u.core c
        let m := if t = 1 then v.rows d.toNat else v.cols d.toNat
        let rows := selRows v (if t = 1 then v.cols d.toNat else v.rows d.toNat)
        let get := fun r j => if t = 1 then k.elem d.toNat (v.et d.toNat) j r else k.elem d.toNat (v.et d.toNat) r j
        let n := if v.ftz % 2 = 0 then 0
          else (rows.map (fun r => ((List.range m).filter (fun j => (flushIn v.ftz (v.et d.toNat) (get r j)).2)).length)).sum
        ((noteFlush u c n).modCore c (fun k0 =>
          let k1 := rows.foldl (fun k1 r => k1.setAccRow a.toNat r (setAccElems (k1.accRow a.toNat r) col.toNat m
            (fun j => writeIn v.ftz (v.et d.toNat) (get r j)))) k0
          (if m = 128 then k1.healAcc a.toNat rows else k1).setAccKind a.toNat (!isFloatT (v.et d.toNat)))).revived c d.toNat [] }
  | .mclr a => some {
      sp := { eng := .m }
      chk := fun _ _ _ w => .ok { w with units := ((selRows w 128).map (accUnit a.toNat)).dedup }
      out := fun u c _ v => u.modCore c (fun k =>
        ((selRows v 128).foldl (fun k1 r => k1.setAccRow a.toNat r 0) k).healAcc a.toNat (selRows v 128)) }
  | _ => none

/-! ### Data commands (R174-R183) -/

/-- A command with the packets it sends (R177): it awaits the numbers `pend` of the next n. -/
def State.issues (u : State) (c : Nat) (y : Ctx) (v : QWord) (op5 tag group n : Nat) (pend : List Nat) (ps : Nat → List Packet) : State :=
  let r := openCmd (u.fresh n).1 c y v op5 tag group pend
  r.1.sendAll (ps r.2)

def dataSpec (a b : BitVec 6) : CapSpec := { eng := .x, srcs := [a.toNat, b.toNat], mem := true }

/-- Blocks for slices: each its beats and its close marker, acknowledged once (R158, R180, R181, R210). -/
def State.putsBlocks (u : State) (c : Nat) (y : Ctx) (v : QWord) (op5 : Nat) (kind : Hdr → Beat → PKind) (bs : List SliceOut) : State :=
  if bs.isEmpty then u.performed c v
  else (u.issues c y v op5 (dTag v.desc) 0 bs.length (rangeFrom u.nextId bs.length) (fun cmd =>
    (numbered u.nextId bs).flatMap (fun p => p.1.packets y c cmd kind p.2))).sent1 c v

/-- The element type a command's rows leave with. -/
def QWord.outEt (v : QWord) : Nat := outType v.mw v.fmt (dEt v.desc)

/-- `xput` and `xacc`: the block of the descriptor, and under QNT its scales, go to the slices their maps name. -/
def putOut (op5 : Nat) (kind : Hdr → Beat → PKind) (u : State) (c : Nat) (y : Ctx) (v : QWord) : State :=
  let rows := outRows u c v (op0 v) (rowsOf (dBlock v.desc))
  let so := scaleOrigin (op0 v)
  (noteFlush u c ((rows.map (fun r => r.2.2)).sum)).putsBlocks c y v op5 kind
    (sliceOut y (dTag v.desc) v.outEt (op0 v) (tensorLeaf (op1 v) v.gmap (op0 v)) (rows.map (fun r => r.1))
      :: (if mwQNT v.mw then [sliceOut y ((dTag v.desc + 1) % 4096) 0x11 so (tensorLeaf (op1 v) v.gmap2 so) (rows.map (fun r => r.2.1))] else []))

/-- What a word that goes through an index list leaves (R178): the packets of its batches sent, it is through, or, while the core
may send no more, it stands at its next batch. -/
def RunRes.listed (c : Nat) (v : QWord) : RunRes → State
  | .done t => t.performed c v
  | .again t w keys => t.addFly c { w with waiting := false, mid := some { todo := keys } }
  | .sent t | .going t | .shut t | .hold t | .trap _ _ t => t.sent1 c v

/-- The indices of a list. -/
def Core.indices (k : Core) (a : Dword) : List Int :=
  (List.range (ixCount a)).map (fun i => toSigned (k.spadBits (8 * (ixList a + 4 * i)) 32) 32)

def dataWords : Instr → Option WordSpec
  | .xget d a b m k => some {
      sp := dataSpec a b
      chk := dataChk .get d.toNat m.toNat (k = 1)
      out := fun u c y v =>
        let leaves := destLeaves (u.tenant y.tenant) (op1 v)
        let n := leaves.length
        if leaves.isEmpty then u.performed c v
        else (u.issues c y v 1 (dTag v.desc) 0 (n + 1) (rangeFrom u.nextId (n + 1)) (fun cmd =>
          [requestPacket y c cmd v (op0 v) (op0 v) (numbered u.nextId leaves) (u.nextId + n)])).sent1 c v }
  | .xgat d a b m k => some {
      sp := dataSpec a b
      chk := dataChk .gat d.toNat m.toNat (k = 1)
      out := fun u c y v =>
        let leaves := destLeaves (u.tenant y.tenant) (op1 v)
        if leaves.isEmpty then
          (noteOob u c (((u.core c).indices (op0 v)).countP (outside (cRow (gExt v.gmap))))).performed c v
        else (listRun .gat leaves (leaves.length + 1) (gatBatch c y v) u c y v).listed c v }
  | .xsend d a b m k => some {
      sp := dataSpec a b
      chk := dataChk .send d.toNat m.toNat (k = 1)
      out := fun u c y v =>
        let leaves := destLeaves (u.tenant y.tenant) (op1 v)
        let rows := outRows u c v (op0 v) (rowsOf (dBlock v.desc))
        let u1 := noteFlush u c ((rows.map (fun r => r.2.2)).sum)
        let n := leaves.length
        let all := if mwQNT v.mw then 2 * n else n
        if leaves.isEmpty then u1.performed c v
        else (u1.issues c y v 3 (dTag v.desc) 0 all (rangeFrom u1.nextId all) (fun cmd =>
          blockPackets y c cmd (dTag v.desc) v.outEt (op0 v) (beatsOf v.outEt (rows.map (fun r => r.1))) (numbered u1.nextId leaves)
            ++ (if mwQNT v.mw then blockPackets y c cmd ((dTag v.desc + 1) % 4096) 0x11 (scaleOrigin (op0 v))
                  (beatsOf 0x11 (rows.map (fun r => r.2.1))) (numbered (u1.nextId + n) leaves) else []))).sent1 c v }
  | .xput d a b m k => some { sp := dataSpec a b, chk := dataChk .put d.toNat m.toNat (k = 1), out := putOut 2 PKind.put }
  | .xacc d a b m o k => some {
      sp := dataSpec a b, chk := dataChk .acc d.toNat m.toNat (k = 1), out := putOut 6 (fun h b => .acc h b o.toNat) }
  | .xsca d a b m o k => some {
      sp := dataSpec a b
      chk := dataChk .sca d.toNat m.toNat (k = 1)
      out := fun u c y v => (listRun .sca [] 1 (scaBatch o.toNat c y v) u c y v).listed c v }
  | .xat o a b e z => some {
      sp := { eng := .x, srcs := [a.toNat, b.toNat, e.toNat], q6 := 1, mem := true }
      chk := xatChk z
      out := fun u c y v => u.asks c y v 7
        (.atomic o.toNat (if z = 0 then 4 else 8) v.pa (xatAddr z (op0 v)) (op1 v) (v.ops.getD 2 0)) (.slice (homeSlice v.pa)) }
  | _ => none

/-! ### Records, maps, the step cache, reductions (R161, R184-R189, R262, R274) -/

/-- The record's block is touched as the word passes capture, and the context changes (R184, R312). -/
def recordAct (g : QWord → Ctx → Ctx) : State → Nat → QWord → State := fun u c v => (touchRecord u c v).modCtx c (g v)

def recordWords : Instr → Option WordSpec
  | .xdesc k a => some {
      sp := recSpec [a.toNat]
      chk := fun s c x w => loadRecord s c x w (op0 w).toNat (fun s1 w1 =>
        match descBad (recordAt s1 c w1.pa) with
        | some cause => .trap cause (w.raw.setWidth 64)
        | none => .ok { w1 with desc := recordAt s1 c w1.pa })
      act := recordAct (fun v z => { z with desc := Map.ins z.desc k.toNat v.desc })
      out := fun u _ _ _ => u }
  | .xmap k a => some {
      sp := recSpec [a.toNat], chk := mapChk k.toNat false
      act := recordAct (fun _ z => { z with mapCap := addMark z.mapCap k.toNat })
      out := fun u c _ v => u.modCtx c (fun z => { z with maps := Map.ins z.maps k.toNat v.desc }) }
  | .xswap k a => some {
      sp := recSpec [a.toNat], chk := mapChk k.toNat true
      act := recordAct (fun _ z => { z with mapCap := addMark z.mapCap k.toNat })
      out := fun u c _ v => u.modCtx c (fun z => { z with maps := Map.ins z.maps k.toNat v.desc }) }
  | .xunmap k => some {
      sp := { eng := .x }
      act := fun u c _ => u.modCtx c (fun z => { z with mapCap := z.mapCap.filter (fun m => m ≠ k.toNat) })
      out := fun u c _ _ => u.modCtx c (fun z => { z with maps := Map.del z.maps k.toNat }) }
  | .xmw k a => some {
      sp := recSpec [a.toNat]
      chk := fun s c x w => loadRecord s c x w (op0 w).toNat (fun s1 w1 =>
        if mwInvalid ((s1.core c).spadWord (w1.pa / 8 * 8)) then .trap cFMT (w.raw.setWidth 64)
        else .ok { w1 with cap := (s1.core c).spadWord (w1.pa / 8 * 8) })
      act := recordAct (fun v z => { z with mws := Map.put 0 z.mws k.toNat v.cap })
      out := fun u _ _ _ => u }
  | .xrpl d a b => some {
      sp := { eng := .x, srcs := [a.toNat, b.toNat], q6 := 1, mem := true }
      chk := sacChk d.toNat false
      out := fun u c y v => (u.issues c y v 0x0D 0 0 1 [u.nextId] (fun cmd =>
        (streamBeats (u.core c) v.desc y (some (sacKey v)) u.nextId ++
          [PKind.sacCheck (sacKey v) (blockOf (u.core c) v.desc) ((op1 v).setWidth 32) (bits (op1 v).toNat 32 1) v.step v.sacage false]).map
            (pkt y c cmd (.slice (sacHome (sacKey v) y.tenant)) [u.nextId]))).sent1 c v }
  | .xrpf d a b => some {
      sp := { eng := .x, srcs := [a.toNat, b.toNat], mem := true }
      chk := sacChk d.toNat true
      out := fun u c y v =>
        let i := blockOf (u.core c) v.desc
        (u.issues c y v 0x0E 0 0 2 [u.nextId, u.nextId + 1] (fun cmd =>
          (streamBeats (u.core c) v.desc y (some (sacKey v)) u.nextId ++ [PKind.sacIn (sacKey v) u.nextId i.beats] ++
            streamBeats (u.core c) v.desc2 y (some (sacKey v)) (u.nextId + 1) ++
            [PKind.sacFill (sacKey v) i (blockOf (u.core c) v.desc2) v.step false]).map
              (pkt y c cmd (.slice (sacHome (sacKey v) y.tenant)) [u.nextId, u.nextId + 1]))).sent1 c v }
  | .xred d ab => some {
      sp := { eng := .x, srcs := [ab.1.toNat, ab.2.toNat], q6 := 1, mem := true }
      chk := xredChk d.toNat
      out := fun u c y v =>
        let g := redGroup v
        let b := blockOf (u.core c) v.desc
        if redCount v = 1 then
          let rows := (blockRows (u.core c) v.desc).map (fun r => { r with cells := r.cells.map (fun v => (v.1, false)) })
          (u.issues c y v 0x0F 0 g 2 [u.nextId, u.nextId + 1] (fun cmd =>
            (blockPackets y c cmd b.tag b.etype 0 (beatsOf b.etype rows) [(.core c, u.nextId + 1)] ++
              [pkt y c cmd (.core c) [u.nextId] (.redStatus g (some (redStatusWord g 1)) 0 0 (u.nextId + 1))]).map
                (fun p => { p with cls := 5 }))).sent1 c v
        else
          let grp := Map.get {} u.groups g
          let root := ((List.range 63).find? (fun n => bits (Map.get 0 grp.tree n).toNat 38 6 = 0x3F)).getD 0
          (u.issues c y v 0x0F 0 g 2 [u.nextId] (fun cmd =>
            (streamBeats (u.core c) v.desc y none (u.nextId + 1) ++
              [PKind.redContrib g (bits (Map.get 0 grp.attach c) 4 6) (bits (Map.get 0 grp.attach c) 0 4) c (redCount v) b.tag b.shape b.elems
                true (u.nextId + 1) b.beats]).map (fun k =>
              { pkt y c cmd (.slice (bits (Map.get 0 grp.tree root).toNat 0 8 % 128)) [] k with cls := 5 }))).sent1 c v }
  | .xgmap a => some {
      sp := recSpec [a.toNat]
      chk := fun s c x w => loadRecord s c x w (op0 w).toNat (fun s1 w1 =>
        match gmapBad (s.tenant x.tenant) (Map.get [] (s.core c).gcache x.tenant) (recordAt s1 c w1.pa) with
        | some cause => .trap cause (w.raw.setWidth 64)
        | none =>
          match pinAll s x.tenant (recordAt s1 c w1.pa) (List.range 128) [] with
          | .error e => .trap e.1 (BitVec.ofNat 64 e.2)
          | .ok _ => .ok { w1 with gmap := recordAt s1 c w1.pa })
      act := fun u c v =>
        match u.ctx c with
        | none => u
        | some z =>
          let pins := match pinAll u z.tenant v.gmap (List.range 128) [] with | .ok m => m | .error _ => []
          ((touchRecord u c v).modTenant z.tenant (fun t => { t with
              gmaps := Map.ins t.gmaps (gTag v.gmap) v.gmap, pins := Map.ins t.pins (gTag v.gmap) pins })).modCore c (fun k => { k with
                gcache := Map.ins k.gcache z.tenant (Map.ins (Map.get [] k.gcache z.tenant) (gTag v.gmap) v.gmap) })
      out := fun u c y v => (spreadMap u c y v 0x10 (.gmapIns v.gmap) (u.partition y.tenant)).shuts c v }
  | .xgunmap a => some {
      sp := { eng := .x, srcs := [a.toNat] }
      chk := fun _ _ _ w => .ok { w with gate := .tag ((op0 w).toNat % 4096) }
      act := fun u c v =>
        match u.ctx c with
        | none => u
        | some z => u.modCore c (fun k => { k with
            gcache := Map.ins k.gcache z.tenant (Map.del (Map.get [] k.gcache z.tenant) ((op0 v).toNat % 4096)) })
      out := fun u c y v =>
        let tag := (op0 v).toNat % 4096
        if (Map.at? (u.tenant y.tenant).gmaps tag).isNone then u
        else (spreadMap u c y v 0x11 (.gmapDel tag)
          (u.partition y.tenant ++ (u.cachers y.tenant tag).filter (fun k => k ∉ u.partition y.tenant))).shuts c v }
  | _ => none

/-! ### The Y words (R198, R199, R206, R212, R219-R232) -/

def ySpec (srcs : List (BitVec 6)) : CapSpec := { eng := .y, srcs := srcs.map BitVec.toNat }

def handleWords : Instr → Option WordSpec
  | .hnew d => some {
      sp := ySpec []
      chk := handleChk (fun x => [(decide (d = 0) || x.live d.toNat, d.toNat)]) (fun _ => true)
      act := fun u c _ => u.modCtx c (fun z => z.takeSeqr (u.freeSeqr c z) d.toNat [] [])
      out := fun u _ _ _ => u }
  | .hfork d a => some {
      sp := ySpec []
      chk := handleChk (fun x => [(decide (d = 0) || x.live d.toNat, d.toNat), (!x.live a.toNat, a.toNat)]) (fun _ => true)
      act := fun u c _ => u.modCtx c (fun z => z.takeSeqr (u.freeSeqr c z) d.toNat (z.covered a.toNat 0) (z.seqr (z.seqOf a.toNat)).tix)
      out := fun u _ _ _ => u }
  | .hjoin d a b k => some {
      sp := ySpec []
      chk := handleChk (fun x => [(!x.live a.toNat, a.toNat), (!x.live b.toNat, b.toNat)]) (fun x => !x.live d.toNat)
      act := fun u c _ =>
        match u.ctx c with
        | none => u
        | some z => (noteCap u c k.toNat).modCtx c (fun y =>
            y.join (u.freeSeqr c y) d.toNat a.toNat b.toNat (capScope (u.tenant z.tenant).scap k.toNat))
      out := fun u _ _ _ => u }
  | .hfree a => some {
      sp := ySpec []
      chk := handleChk (fun x => [(decide (a = 0) || !x.live a.toNat, a.toNat)]) (fun _ => false)
      act := fun u c _ => u.modCtx c (fun z => { z with hnd := Map.del z.hnd a.toNat })
      out := fun u _ _ _ => u }
  | .hdrain a k => some {
      sp := ySpec []
      chk := fun s _ x w =>
        if !x.live a.toNat then .trap 0xC (BitVec.ofNat 64 a.toNat)
        else .ok { w with covers := ((x.covered a.toNat (capScope (s.tenant x.tenant).scap k.toNat)).map (fun p =>
          { p with scope := capScope (s.tenant x.tenant).scap k.toNat })).dedup }
      act := fun u c v => (noteCap u c k.toNat).modCtx c (fun z => z.markSys v.covers)
      ok := fun u _ y v => v.covers.all (fun p => u.preOk y p) = true ∧ worstStatus y ((v.covers.map (fun p => p.seqr)).dedup) = none
      out := fun u c y v => u.setCtx c (clearStatus y ((v.covers.map (fun p => p.seqr)).dedup)) }
  | .hpass a p => some {
      sp := { eng := .y, srcs := if isPort p.toNat then [] else [p.toNat], push := if isPort p.toNat then some p.toNat else none }
      chk := fun s c x w =>
        if !x.live a.toNat then .trap 0xC (BitVec.ofNat 64 a.toNat)
        else if !isPort p.toNat && endpointBad (s.tenant x.tenant) (op0 w) then .trap cBOUNDS (w.raw.setWidth 64)
        else .ok { w with cap := mkTicket c 0x3FF (x.seqOf a.toNat) (x.seqr (x.seqOf a.toNat)).count }
      act := fun u c _ => u.modCtx c (fun z =>
        z.setSeqr (z.seqOf a.toNat) { z.seqr (z.seqOf a.toNat) with
          owed := (z.seqr (z.seqOf a.toNat)).owed ++ [(z.seqr (z.seqOf a.toNat)).count] })
      ok := fun u _ y _ => p.toNat = 55 → oboxRoom u y = true
      out := fun u c y v =>
        if 48 ≤ p.toNat && p.toNat ≤ 53 then sendChannel u c y (p.toNat - 48) v.seq v.cap true
        else if p.toNat = 55 then u.oboxPush y.tenant v.cap
        else u.send (loosePkt y c (if epDev (op0 v) = 0x3FF then .core (epCore (op0 v)) else .remote (epDev (op0 v)) (epCore (op0 v)))
          (.ticket v.cap)) }
  | .hrecv d p => some {
      sp := ySpec [p]
      chk := fun s c x w =>
        if bits (op0 w).toNat 25 7 ≠ 0 || 384 ≤ (ticketOf (op0 w)).core || !(s.tenant x.tenant).devOk (ticketOf (op0 w)).device then
          .trap 0xC (BitVec.ofNat 64 d.toNat)
        else if !x.live d.toNat && (s.freeSeqr c x).isNone then .stall .handle
        else .ok w
      act := fun u c v => u.modCtx c (fun z =>
        let z1 := { z with tickets := Map.ins z.tickets v.seq (ticketOf (op0 v)) }
        if z1.live d.toNat then
          z1.setSeqr (z1.seqOf d.toNat) { z1.seqr (z1.seqOf d.toNat) with tix := (z1.seqr (z1.seqOf d.toNat)).tix ++ [v.seq] }
        else z1.takeSeqr (u.freeSeqr c z) d.toNat [] [v.seq])
      out := fun u c y v =>
        let t := ticketOf (op0 v)
        u.send (loosePkt y c (if t.device = 0x3FF then .core t.core else .remote t.device t.core)
          (.confirmReq y.uid c t.seqr t.count v.seq)) }
  | _ => none

/-- A ring word: the initialised bit and the counts at capture, then its change of the ring and the element it gives. -/
def ringRow (g : BitVec 4) (q6 : Nat) (mem : Bool) (okR : Ring → Bool) (book : Ring → Ring) (f : Ring → Option (Ring × List Dword)) : Option WordSpec :=
  some {
    sp := { eng := .y, q6 := q6, mem := mem }
    chk := ringChk g.toNat okR
    act := fun u c _ => u.modCtx c (fun z => z.modRing g.toNat book)
    ok := fun _ _ y _ => (f (y.ring g.toNat)).isSome = true
    out := fun u c y v =>
      match f (y.ring g.toNat) with
      | some r => (u.setCtx c ((y.modRing g.toNat (fun _ => r.1)).produceAll v.q6 r.2)).performed c v
      | none => u }

def ringWords : Instr → Option WordSpec
  | .ringInit g a => some {
      sp := { eng := .y, srcs := [a.toNat], afterS := true, mem := true }
      chk := fun s c x w => loadRecord s c x w (op0 w).toNat (fun s1 w1 =>
        let r : Rec512 := (((s1.core c).spadRow (w1.pa / 128)).extractLsb' (8 * (w1.pa % 128 / 32 * 32)) 256).setWidth 512
        if ringBad r then .trap cBOUNDS (w.raw.setWidth 64) else .ok { w1 with desc := r })
      act := recordAct (fun _ z => z.modRing g.toNat (fun r => { r with init := true, nClaim := 0, nTake := 0 }))
      ok := fun _ _ y _ => (y.ring g.toNat).countOf .landing = 0
      out := fun u c y v => (u.setCtx c (y.modRing g.toNat (fun r => { r with
        up := true, refusing := false, base := Rec512.f v.desc 0 0 20, slots := Rec512.f v.desc 1 32 9
        slotbytes := Rec512.f v.desc 1 0 32, state := [], ptr := 0, fillOrder := [], takeOrder := [], claimOrder := [] }))).performed c v }
  | .ringWfree g => ringRow g 1 true (fun _ => true) (fun r => { r with nClaim := r.nClaim + 1 }) (fun r =>
      if r.slotSt r.ptr = .free then
        some ({ r.set r.ptr .claimed with ptr := (r.ptr + 1) % r.slots, claimOrder := r.claimOrder ++ [r.ptr] }, [r.addr r.ptr])
      else none)
  | .ringPub g => ringRow g 0 true (fun r => decide (0 < r.nClaim)) (fun r => { r with nClaim := r.nClaim - 1 }) (fun r =>
      match r.claimOrder with
      | [] => some (r, [])
      | k :: t => some ({ r.set k .filled with claimOrder := t, fillOrder := r.fillOrder ++ [k] }, []))
  | .ringWfill g => ringRow g 1 true (fun _ => true) (fun r => { r with nTake := r.nTake + 1 }) (fun r =>
      match r.fillOrder with
      | [] => none
      | k :: t => some ({ r.set k .taken with fillOrder := t, takeOrder := r.takeOrder ++ [k] }, [r.addr k]))
  | .ringRel g => ringRow g 0 true (fun r => decide (0 < r.nTake)) (fun r => { r with nTake := r.nTake - 1 }) (fun r =>
      match r.takeOrder with
      | [] => some (r, [])
      | k :: t => some ({ r.set k .free with takeOrder := t }, []))
  | .ringStat g => ringRow g 1 false (fun _ => true) id (fun r => some (r, [r.stat]))
  | _ => none

def syncWords : Instr → Option WordSpec
  | .barArr t => some {
      sp := ySpec []
      chk := barChk t.toNat
      ok := fun u c y _ => Map.get 0 ((u.tenant y.tenant).bar t.toNat).arr c ≤ ((u.tenant y.tenant).bar t.toNat).done
      out := fun u c y _ => u.modTenant y.tenant (fun m => { m with
        bars := Map.ins m.bars t.toNat (((u.tenant y.tenant).bar t.toNat).arrive c u.cycle) }) }
  | .barWait t => some {
      sp := ySpec []
      chk := barChk t.toNat
      ok := fun u c y _ => Map.get 0 ((u.tenant y.tenant).bar t.toNat).arr c ≤ ((u.tenant y.tenant).bar t.toNat).done
      out := fun u _ _ _ => u }
  | .flagAdd a b => some {
      sp := { eng := .y, srcs := [a.toNat, b.toNat], mem := true }
      chk := fun s c x w =>
        if endpointBad (s.tenant x.tenant) (op0 w) then .trap cBOUNDS (w.raw.setWidth 64)
        else .ok { w with foot := [flagFoot c (epCore (op0 w)) (epDev (op0 w)) (bits (op0 w).toNat 32 7)] }
      out := fun u c y v => u.asks c y v 0x20 (.flagAdd (bits (op0 v).toNat 32 7) ((op1 v).toNat % 2 ^ 32))
        (leafOf (epDev (op0 v)) (epCore (op0 v))) }
  | .flagSet a b e => some {
      sp := { eng := .y, srcs := [a.toNat, b.toNat, e.toNat], mem := true }
      chk := fun s c x w =>
        let t := s.tenant x.tenant
        if destBad t (op0 w) || bits (w.ops.getD 2 0).toNat 49 15 ≠ 0 then .trap cBOUNDS (w.raw.setWidth 64)
        else .ok { w with foot := (destLeaves t (op0 w)).map (fun l => match l with
          | .core k => flagFoot c k 0x3FF ((op1 w).toNat % 128)
          | .remote d k => flagFoot c k d ((op1 w).toNat % 128)
          | _ => flagFoot c 0 0 0) }
      out := fun u c y v =>
        let leaves := destLeaves (u.tenant y.tenant) (op0 v)
        if leaves.isEmpty then u.performed c v
        else (u.issues c y v 0x21 0 0 leaves.length (rangeFrom u.nextId leaves.length) (fun cmd =>
          (numbered u.nextId leaves).map (fun p =>
            { pkt y c cmd p.1 [p.2] (.flagSet ((op1 v).toNat % 128) (v.ops.getD 2 0)) with twin := decide (p.2 ≠ u.nextId) }))).goes c v }
  | .flagWait a b => some {
      sp := { eng := .y, srcs := [a.toNat, b.toNat], mem := true }
      chk := fun _ c _ w => .ok { w with foot := [flagFoot c c 0x3FF ((op0 w).toNat % 128)], units := [spadUnitOf (flagAddr ((op0 w).toNat % 128))] }
      out := fun u c _ v => if v.cap = 1 ∨ flagHolds ((u.core c).flag ((op0 v).toNat % 128)) (op1 v) = true then u.performed c v else u.waits c v }
  | _ => none

/-! ### The system words (R281, R287, R300, R307, R313-R315) -/

def systemWords : Instr → Option WordSpec
  | .klaunch a q => some {
      sp := { eng := .s, srcs := [a.toNat], sys := true }
      out := fun u c y v => if queueFull (u.tenant y.tenant) q.toNat then u.waits c v else u.enqueueLaunch y.tenant q.toNat (op0 v).toNat }
  | .tinv a => some {
      sp := { eng := .s, srcs := [a.toNat], priv := true, sys := true }
      out := fun u c y v =>
        let a := (op0 v).toNat
        let hit := fun (vbase log : Nat) => decide (a = 0) || coversVa vbase log a
        let page := match walk u y.tenant a with | .ok p => p.log | .error _ => 16
        let u1 := u.modCore c (fun k => { k with stlb := k.stlb.filter (fun e => !(decide (e.1 = y.tenant) && hit e.2.1 e.2.2.1)) })
        let range := if a = 0 then (0, Config.memEnd) else match walk u y.tenant a with | .ok p => (p.frame, 2 ^ p.log) | .error _ => (0, 0)
        let u2 := u1.modTenant y.tenant (fun t =>
          { t with launches := t.launches.map (fun l => (l.1, l.2.refetch (clusOf c) u.mem range.1 range.2)) })
        { u2 with
          itlb := u1.itlb.filter (fun e => !(decide (e.cluster = clusOf c) && decide (e.tenant = y.tenant) && hit e.vbase e.log))
          icache := Map.modify u1.icache (clusOf c) (fun m => m.filter (fun e =>
            !(decide (e.1 / 2 ^ 48 = y.tenant) && (decide (a = 0) || decide (e.1 % 2 ^ 48 / 2 ^ page = a / 2 ^ page))))) } }
  | .wfi => some {
      sp := { eng := .s, priv := true, sys := true }
      out := fun u c y v => if ((u.core c).box y).isEmpty then u.waits c v else u }
  | .spflush => some {
      sp := { eng := .s, priv := true, sys := true }
      out := fun u c y _ => spillOthers u c y.me (List.range 176) }
  | .ctxsave a => some {
      sp := { eng := .s, srcs := [a.toNat], priv := true, sys := true }
      chk := ctxsaveChk
      out := fun u c y v =>
        let a := v.frames.getD 0 0
        let z := y.interrupted (u.core c).accInt
        let u1 := saveUnits (writeImage u c z (fun n => (csrRead u c y n).toNat) y.epc v.units a) c v.frames v.units
        { u1 with images := Map.ins u1.images a z } }
  | .ctxload a => some {
      sp := { eng := .s, srcs := [a.toNat], priv := true, sys := true }
      chk := ctxloadChk
      out := fun u c y v =>
        let a := v.frames.getD 0 0
        let r := readImage u (imageBase u y a) a
        let z := (y.replace r (imagePc u a) (imagePc u (a + 0x10))).prune u c
        let u1 := (u.setCtx c z).modCore c (fun k => { k.setBox z (imageMbox u a) with accInt := r.kinds })
        (loadUnits (touchUnits u1 c y.me (spilledIn u a)) c v.frames (spilledIn u a)).modCore c (fun k => k.clearDead y.me z.dead) }
  | .sacinv => some {
      sp := { eng := .s, sys := true }
      chk := fun _ _ _ w => .ok { w with gate := .sacDone }
      out := fun u c y v => (u.issues c y v 0x30 0 0 Config.numSlices (rangeFrom u.nextId Config.numSlices) (fun cmd =>
        (numbered u.nextId ((List.range Config.numSlices).map Leaf.slice)).map (fun p => pkt y c cmd p.1 [p.2] .sacInv))).shuts c v }
  | .cntsnap a => some {
      sp := { eng := .s, srcs := [a.toNat], mem := true, sys := true }
      chk := cntsnapChk
      out := fun u c y v => u.asks c y v 0x31 (.cntsnap v.pa (v.frames.getD 0 0)) .io }
  | .barcfg a t => some {
      sp := { eng := .s, srcs := [a.toNat], priv := true, afterS := true, sys := true }
      chk := barcfgChk t.toNat
      act := touchRecord
      out := fun u _ y v => u.modTenant y.tenant (fun m => { m with
        bars := Map.ins m.bars t.toNat { parts := v.desc.setWidth 384, conf := v.desc.getLsbD 384 } }) }
  | _ => none

/-! ## Events and exceptions -/

/-- What entry into the handler leaves of a context (R298, R303): the unstarted words and every token count are held, the
tokens of a started word that waited having returned; the errored element that the trap's pop named leaves its port (R202); `epc`, `cause`, `tval` and `pstat` are written, its bits 5:3 the number
of the trap's engine and bit 7 whether a word or a token is held; capture goes on at the handler, and nothing else changes. -/
structure Entered (x y : Ctx) (p : Pend) (tvec : Nat) : Prop where
  pc : y.pc = tvec
  epc : y.epc = p.addr
  cause : y.cause = p.cause
  tval : y.tval = p.tval
  mode : y.pstat.getLsbD 0 = true
  pmode : y.pstat.getLsbD 1 = x.priv
  engineTrap : y.pstat.getLsbD 2 = p.word.isSome
  engine : y.pstat.extractLsb' 3 3 = BitVec.ofNat 3 p.eng.num
  skip : y.pstat.getLsbD 6 = false
  holds : y.pstat.getLsbD 7 = (!y.held.words.isEmpty || !y.held.toks.isEmpty)
  empty : y.qs = [] ∧ y.tok = [] ∧ y.pend = none
  words : ∀ w ∈ x.qs, { w with blocked := false } ∈ y.held.words
  waiters : ∀ w ∈ x.fly, w.waiting = true → { w with waiting := false, blocked := false } ∈ y.held.words
  toks : y.held.toks = (x.fly.filter (fun w => w.waiting)).foldl returnTokens x.tok
  resume : y.held.resume = if p.word.isSome then x.pc else p.addr
  registers : y.n = x.n ∧ y.p = x.p ∧ y.q6 = (x.dropElem p.elem).q6 ∧ y.rq = x.rq ∧ y.sticky = x.sticky ∧ y.lc = x.lc ∧ y.loops = x.loops ∧
    y.hnd = x.hnd ∧ y.seqrs = x.seqrs ∧ y.shapes = x.shapes ∧ y.maps = x.maps ∧ y.desc = x.desc ∧ y.rings = x.rings

/-- Packet `id` is on its way and has not been applied (R211, R258). -/
structure State.Arriving (s : State) (id : Nat) (p : Packet) : Prop where
  flying : s.flying id = some p
  fresh : p.kind.kept p.cls = true → Map.at? s.applied p.seq = none

/-- Where bit i of an element lands: the bit of the scratchpad at its mapped position, swizzled by bytes (R163, R164). -/
def landBit (m : Rec512) (origin : Dword) (slot row col i : Nat) : Nat :=
  let p := mapPos m origin slot row col + i
  8 * mapSwizzle m (p / 8) + p % 8

/-- What elements (row, column, value) that land in turn leave in bit z of the scratchpad: the bit of the last to reach it. The
flag words take none (R229; notes/assumptions/105). -/
def landedAs (m : Rec512) (origin : Dword) (slot : Nat) (cells : List (Nat × Nat × Nat)) (z : Nat) : Option Bool :=
  if 8 * Config.flagBase ≤ z then none
  else cells.foldl (fun o e => (List.range (cellBits (mEt m))).foldl (fun o i =>
    if landBit m origin slot e.1 e.2.1 i = z then some (e.2.2.testBit i) else o) o) none

/-- Bit z of the scratchpad with the parts an open block has gathered in their places. -/
def Core.gathered (k : Core) (ps : Map RowPart) (z : Nat) : Bool := ((Map.get {} ps (z / 1024)).over (k.spadRow (z / 1024))).getLsbD (z % 1024)

/-- A started load is unstarted again, writes nothing, and does not start before a trap's handler returns (R56, R298); nor does it
write its register then where a later S word has, or is to (R103). -/
def Ctx.unstarted (x : Ctx) (w : QWord) : Ctx :=
  { x.unload w with
    fly := x.fly.filter (fun v => v.seq ≠ w.seq)
    qs := insertSeq { w with blocked := true, lost := w.lost || x.outrun w } x.qs
    tok := returnTokens x.tok w }

/-- A reply has been taken from the fabric and its command ended with it. -/
def State.forgets (s : State) (id : Nat) (p : Packet) : State :=
  { s.unsend id with cmds := Map.del s.cmds p.cmd, sent := s.sent.filter (fun q => q.2.cmd ≠ p.cmd) }

/-- combine of a reduction over two element patterns (R262): FP32 sum to nearest even, INT32 sum modulo 2^32, FP32 maximum and
minimum, INT32 maximum and minimum. -/
def combined (op a b : Nat) : Nat :=
  let u := BitVec.ofNat 32 a
  let v := BitVec.ofNat 32 b
  match op with
  | 0 => roundFloat 1 {} (Num.add 0 (floatVal 1 a) (floatVal 1 b))
  | 1 => (u + v).toNat
  | 2 => roundFloat 1 {} (Num.maxN (floatVal 1 a) (floatVal 1 b))
  | 3 => roundFloat 1 {} (Num.minN (floatVal 1 a) (floatVal 1 b))
  | 4 => (if u.toInt < v.toInt then v else u).toNat
  | _ => (if u.toInt < v.toInt then u else v).toNat

/-- The context is alone on its core and holds the scratchpad units of some rows. -/
structure HoldsRows (s : State) (c : Nat) (x : Ctx) (rows : List Nat) : Prop where
  resident : s.ctx c = some x
  alone : (s.core c).sus = none
  owns : ∀ r ∈ rows, Map.at? (s.core c).owner (spadUnit r) = some x.me

/-- The words HDRAIN_COMPLETE and FLAG_WAIT_RETEST try again. -/
def QWord.drains (w : QWord) : Bool := match w.instr with | .hdrain _ _ => true | _ => false
def QWord.awaitsFlag (w : QWord) : Bool := match w.instr with | .flagWait _ _ => true | _ => false

/-- A management write: the tenant whose value it sets, and the value (R320, R336). -/
def managementWrite : RegWrite → Option (Nat × (Tenant → Tenant))
  | .ptbase t v => some (t, fun k => { k with ptbase := bits v.toNat 12 36 * 4096 })
  | .tenctl t v => some (t, fun k => { k with tenctl := v.toNat / 0x400000 * 0x400000 + t % 32 })
  | .scap t v => some (t, fun k => { k with scap := v.toNat % 8 })
  | .qmax t v => some (t, fun k => { k with qmax := Max.max 2048 (v.toNat % 65536) })
  | .weight t v => some (t, fun k => { k with weight := v.toNat % 256 })
  | .floorCap t d lo hi =>
    if d < 8 then some (t, fun k => { k with floor := Map.ins k.floor d (Min.min lo 48), cap := Map.ins k.cap d (Min.min hi 48) }) else none
  | .queueCap t q cap => if q < 16 then some (t, fun k => { k with qcap := Map.ins k.qcap q (cap % 4) }) else none
  | .endpoint t dev v =>
    if dev < 0x3FF then some (t, fun k => { k with endpoints := Map.put 0 k.endpoints dev (v &&& 0x000000FFFFE1FFFF#64) }) else none
  | .window t i base size => some (t, fun k => k.setWindow i base size)
  | _ => none

end Sys2Proof.Machine
end

