-- ==== Sys2Proof/Certificates/Slice0/Obligations.lean ====
section
/-! DEFINITION. The statements for the provers, each about the machine for every state and operands that meet its
hypotheses. Each cites in OBLIGATIONS.json the rules of spec/ it states. -/

open Sys2Proof Sys2Proof.Machine

/-! ## Scalar words (R86, R91-R99) -/

/-- Every integer scalar word with a result, in every operand and destination form but a channel: the result goes to the
result queue and to the destination, capture goes on at the next group, and nothing else changes (R41, R86, R91, R92). -/
def Obligations.IntegerWords : Prop :=
  ∀ (s : State) (x : Ctx) (i : Instr) (r : ScalarRow) (vals : List Dword) (pops : List Nat),
    intRow x i = some r → Idle s x → readAll s s.cur x r.srcs [] [] = .ok vals pops → DestOk s x pops r.dst →
    exec i s = .next (((s.popped x pops).modCtx s.cur (fun y => (y.result r.dst (r.value vals)).past x.stochastic)).outbox
      r.dst x.tenant (r.value vals))

/-- Every FP32 scalar word with a result: the same, with its flushed inputs counted (R65, R68, R93). That a subnormal register
named in both operand fields counts as two flushed elements is the model's choice (notes/assumptions/83). -/
def Obligations.FloatWords : Prop :=
  ∀ (s : State) (x : Ctx) (i : Instr) (r : ScalarRow) (vals : List Dword) (pops : List Nat),
    floatRow x i = some r → Idle s x → readAll s s.cur x r.srcs [] [] = .ok vals pops → DestOk s x pops r.dst →
    exec i s = .next ((noteFlush ((s.popped x pops).modCtx s.cur (fun y => (y.result r.dst (r.value vals)).past x.stochastic))
      s.cur (flushCount x.ftz vals)).outbox r.dst x.tenant (r.value vals))

/-- The scalar words that read a predicate, a shape record or a CSR, and the conversion from an integer: the same
(R93, R96-R99). A CSR word is meant where R55 and R302 let it read. -/
def Obligations.ReadingWords : Prop :=
  ∀ (s : State) (x : Ctx) (i : Instr) (r : ScalarRow) (vals : List Dword) (pops : List Nat),
    readRow s x i = some r → Idle s x → readAll s s.cur x r.srcs [] [] = .ok vals pops → DestOk s x pops r.dst →
    exec i s = .next (((s.popped x pops).modCtx s.cur (fun y => (y.result r.dst (r.value vals)).past x.stochastic)).outbox
      r.dst x.tenant (r.value vals))

/-! ## Tile words (R111-R128, R241-R247) -/

/-- The binary and unary groups, compare, convert and the words of four operands (R117-R122). The model's choices among their
clauses: how the transcendental functions are computed (notes/assumptions/14), that `vsel` into another type counts the flushes
of both operands (27), and that such a function from an integer tile to an integer tile clamps (87). -/
def Obligations.ElementTileWords : Prop :=
  TileWordsComplete binTiles ∧
  TileWordsComplete unTiles ∧
  TileWordsComplete mixTiles

/-- Reductions, scans, rearrangement, quantisation, weight decoding and compression (R74, R75, R123-R128). That `vqnt` of an
E8M0 or VQ2 tile raises FMT is the model's choice (notes/assumptions/85). -/
def Obligations.FoldTileWords : Prop :=
  TileWordsComplete foldTiles ∧
  TileWordsComplete quantTiles

/-- The selection words (R241-R247). That `kmerge` takes its values after the input flush, and leaves a NaN that stands alone as
the canonical one, is the model's choice (notes/assumptions/28). -/
def Obligations.SelectionWords : Prop := TileWordsComplete rankTiles

/-! ## Words of every other shape -/

/-- Predicates, shape records, CSRs and scale bindings (R94-R99, R109, R147). `cmp` under conditions 6 to 9 counts its flushed
inputs (R65, R68); that a subnormal register named in both operand fields counts as two is the model's choice
(notes/assumptions/83). -/
def Obligations.StateWords : Prop := WordsComplete stateWords

/-- Control flow (R104-R107). -/
def Obligations.FlowWords : Prop := WordsComplete flowWords

/-- Scalar memory access (R100-R103), channels as destinations included. A full scalar TLB gives up its oldest entry
(notes/assumptions/18), a store stays under way until it is acknowledged (74), and a load's register is the last writer's (20):
the model's choices. A load of a scratchpad row that is marked takes the exception ECC in the S engine, tval the row's address,
and stays unstarted (R101, R308). -/
def Obligations.MemoryWords : Prop :=
  WordsComplete memoryWords ∧
  ∀ (s u : State) (x y : Ctx) (d b : BitVec 6) (i : BitVec 11) (sp : CapSpec) (vals : List Dword) (pops : List Nat) (w v : QWord),
    sp = { eng := .s, srcs := [b.toNat], dst := some d.toNat, mem := true } → Idle s x → x.priv = false →
    Map.get 0 (s.core s.cur).tvec x.tenant ≠ 0 → Passes s x (.lds d b i) sp (chkSpadWord i false) vals pops w →
    v = (x.enrol sp (s.tenant x.tenant).scap w).2 →
    u = touchUnits (passing sp noAct (s.entered x sp w pops) s.cur v) s.cur x.me w.units → u.ctx s.cur = some y →
    v.pa / 128 ∈ (u.core s.cur).spadPoison →
    ∃ z, exec (.lds d b i) s = .next (u.setCtx s.cur z) ∧ Entered { y with qs := [v] } z
      { cause := 9, tval := BitVec.ofNat 64 (v.pa / 128 * 128), eng := .s, addr := x.grp.addr, word := some v.seq }
      (Map.get 0 (s.core s.cur).tvec x.tenant)

/-- Rows, single elements, liveness and codebooks (R68, R129-R138). That `vfill` and `vput` count one input flush, and that
`vget` counts none, is the model's choice (notes/assumptions/27); so is that rows the mask leaves out count in the BOUNDS check
of `tld.x` (86). -/
def Obligations.RowWords : Prop := WordsComplete rowWords

/-- Accumulator read-out, write-in and clearing (R149-R151). That `mwr` flushes a subnormal FP32 result under bit 1 of `ftz` is
the model's reading of R68 and R150 (notes/assumptions/88). -/
def Obligations.AccumulatorWords : Prop := WordsComplete accWords

/-- The multiply words, where nothing marked lies in the core: the selected accumulator rows hold the new sums, the flushed
inputs of every row of the operand tiles and of the gathered rows are counted once, and the groups skipped, and nothing else
changes but the accumulator's kind (R68, R76-R78, R144-R148, R152). That the accumulator is read without an input flush, and
not at all under Z, is the model's choice (notes/assumptions/29). -/
def Obligations.MultiplyWords : Prop :=
  ∀ (s u u2 : State) (x y : Ctx) (i : Instr) (op : MulOp) (acc a b tx : Nat) (f : BitVec 3) (vals : List Dword) (pops rows : List Nat)
    (w : QWord),
    mulWords i = some (op, acc, a, b, tx, f) → Idle s x → Passes s x i { eng := .m } (mulChk op acc a b tx f) vals pops w →
    u = touchUnits (s.entered x { eng := .m } w pops) s.cur x.me w.units → u.ctx s.cur = some y →
    rows = ((gathered op w (u.core s.cur) tx (List.range (w.rows a))).map Prod.snd).dedup → u2 = touchUnits u s.cur y.me ((rows.map spadUnit).dedup) →
    (u2.core s.cur).clean → exec i s = .next (mulOut u2 s.cur y w op acc a b tx f rows)

/-- The data commands and word atomics (R174-R183, R187, R188). The model's choices among their clauses: the pitch of rows under
EXP, the map of QNT's scales, the flush of a factor (notes/assumptions/30), index lists read as stored (31), what a remote
destination skips (32), when a stochastic number is taken (78), no check of the rank (79), and the number of a row that `xsca`
sends (84). -/
def Obligations.DataWords : Prop := WordsComplete dataWords

/-- Descriptors, maps, microwords, the step cache, reductions of several contributions, global maps
(R173, R161, R184-R189, R262, R274). The model's choices among their clauses: the poisoned rows of an `xred` block are read as
stored (notes/assumptions/31), the close marker of a check's, a fill's or a contribution's block carries its values (35), the
kinds and zero bits a map record is checked for (89), where a bit-packed `xred` block raises FMT (90), and which commands name the
tag of `xgunmap`, which holds its queue (113). -/
def Obligations.RecordWords : Prop := WordsComplete recordWords

/-- Handles and tickets, rings, barriers and flags (R198, R199, R206, R212, R219-R232). The model's choices among their clauses:
predecessors are copied transitively, and a ticket names this device as 0x3FF (notes/assumptions/33); a release is capped at
capture, and system scope waits for the host's copies (47); of several free sequencers the lowest-numbered is taken (115), and a
waiting `ring.init` leaves the ring refusing (116). -/
def Obligations.SyncWords : Prop :=
  WordsComplete handleWords ∧
  WordsComplete ringWords ∧
  WordsComplete syncWords

/-- The system words that return to the strand (R281, R287, R300, R307, R313-R315). The model's choices among their clauses:
what an image holds beside the bytes R310 lays out (notes/assumptions/42), and what `ctxsave`, `ctxload`, `barcfg` and `cntsnap`
wait for and check (43). -/
def Obligations.SystemWords : Prop := WordsComplete systemWords

/-! ## Traps and return (R298-R303) -/

/-- `trap` and `ebrk` take their exception (R301): with a handler installed, user mode and an idle strand, capture goes on in
the handler with `epc` at the word's own group and tval its immediate; no other core, tenant or byte of memory changes. A
trap that no handler takes ends the span and discards the held words (R299), whose operations are then no longer open (R219), here
for `trap` and `ebrk`. -/
def Obligations.TrapWords : Prop :=
  (∀ (s : State) (x : Ctx) (i : BitVec 17), Idle s x → x.priv = false → Map.get 0 (s.core s.cur).tvec x.tenant ≠ 0 →
    (∃ y, exec (.trap i) s = .next ((endStall s s.cur x).setCtx s.cur y) ∧ Entered { x with grp := {}, stall := .none } y
      { cause := 0x10, tval := immZ x.grp.pfx i, eng := .s, addr := x.grp.addr, word := none } (Map.get 0 (s.core s.cur).tvec x.tenant)) ∧
    (∃ y, exec (.ebrk i) s = .next ((endStall s s.cur x).setCtx s.cur y) ∧ Entered { x with grp := {}, stall := .none } y
      { cause := 0x11, tval := immZ x.grp.pfx i, eng := .s, addr := x.grp.addr, word := none } (Map.get 0 (s.core s.cur).tvec x.tenant))) ∧
  (∀ (s : State) (x : Ctx) (i : BitVec 17), Idle s x → (x.priv = true ∨ Map.get 0 (s.core s.cur).tvec x.tenant = 0) →
    (∃ y, exec (.trap i) s = .next ((endStall s s.cur x).setCtx s.cur y) ∧ y.ending = true ∧ y.qs = [] ∧ y.held = {} ∧
      y.dead0 = some (0x10, immZ x.grp.pfx i) ∧ y.epc = x.epc ∧ y.pc = x.pc ∧
      ∀ w ∈ x.held.words, ∀ j, w.seqr = some j → w.opn ∉ (y.seqr j).opened) ∧
    (∃ y, exec (.ebrk i) s = .next ((endStall s s.cur x).setCtx s.cur y) ∧ y.ending = true ∧ y.qs = [] ∧ y.held = {} ∧
      y.dead0 = some (0x11, immZ x.grp.pfx i) ∧ y.epc = x.epc ∧ y.pc = x.pc ∧
      ∀ w ∈ x.held.words, ∀ j, w.seqr = some j → w.opn ∉ (y.seqr j).opened))

/-- `eret` on an idle strand in privileged mode, no token left in a queue (R300): the held token counts stand again, the
mode is the one before entry, pstat bits 7:1 are 0, and capture goes on as the case of R300 says; the registers stay. -/
def Obligations.ReturnWord : Prop :=
  ∀ (s : State) (x : Ctx), Idle s x → x.priv = true → x.tok = [] → (∀ w ∈ x.held.words, w.seq ≠ x.nextSeq) →
    ∃ t y, exec .eret s = .next t ∧ t.ctx s.cur = some y ∧ y.tok = x.held.toks ∧
      y.pstat = (if x.pstat.getLsbD 1 then 1#8 else 0#8) ∧ y.held = {} ∧ y.n = x.n ∧ y.p = x.p ∧
      (x.pstat.getLsbD 2 = false → y.qs = x.held.words ∧ y.pc = x.epc) ∧
      (x.pstat.getLsbD 2 = true → x.epc = x.held.epc0 → x.pstat.getLsbD 6 = false → y.qs = x.held.words ∧ y.pc = x.held.resume) ∧
      (x.pstat.getLsbD 2 = true → x.epc = x.held.epc0 → x.pstat.getLsbD 6 = true →
        y.qs = x.held.words.filter (fun w => some w.seq ≠ x.held.trapped) ∧ y.pc = x.held.resume) ∧
      (x.pstat.getLsbD 2 = true → x.epc ≠ x.held.epc0 → y.qs = [] ∧ y.pc = x.epc)

/-- A privileged word of the system group in user mode takes the exception PRIV with the word as tval (R52, R56). -/
def Obligations.PrivilegedWords : Prop :=
  ∀ (s : State) (x : Ctx) (i : Instr), Idle s x → x.priv = false → Map.get 0 (s.core s.cur).tvec x.tenant ≠ 0 →
    (i = .eret ∨ (∃ a, i = .tinv a) ∨ (∃ a, i = .ctxsave a) ∨ (∃ a, i = .ctxload a) ∨ i = .spflush ∨ i = .wfi ∨ ∃ a n, i = .barcfg a n) →
    ∃ y, exec i s = .next ((endStall s s.cur x).setCtx s.cur y) ∧ Entered { x with grp := {}, stall := .none } y
      { cause := 5, tval := x.grp.raw.setWidth 64, eng := .s, addr := x.grp.addr, word := none } (Map.get 0 (s.core s.cur).tvec x.tenant)

/-! ## Channels as destinations (R41, R87, R234, R235) -/

/-- A scalar word whose destination is a declared channel with a free slot sends its result to the peer core (R87): a word
with a result, and `lds`, as it runs; `ldg` has its slot from its capture and sends when its value comes (Replies). `hpass` to
a channel sends its ticket, which is marked as one (R222, R260); that it names its own device 0x3FF is the model's choice
(notes/assumptions/33). -/
def Obligations.ChannelResults : Prop :=
  (∀ (s : State) (x : Ctx) (i : Instr) (r : ScalarRow) (vals : List Dword) (pops : List Nat) (p : Nat),
    (intRow x i = some r ∨ floatRow x i = some r ∨ readRow s x i = some r) → Idle s x →
    readAll s s.cur x r.srcs [] [] = .ok vals pops → 48 ≤ r.dst → r.dst ≤ 53 → destTrap x r.dst = false →
    channelCredit s s.cur x (r.dst - 48) = true → peerOf x s.cur (r.dst - 48) = some p → p ≠ s.cur →
    ∃ t n q, exec i s = .next t ∧ Map.at? t.net n = some q ∧ q.src = .core s.cur ∧ q.dst = .core p ∧ q.tenant = x.tenant ∧
      q.kind = .chan (r.dst - 48) x.uid x.nextSeq (r.value vals) false) ∧
  (∀ (s u : State) (x : Ctx) (d b : BitVec 6) (i : BitVec 11) (sp : CapSpec) (vals : List Dword) (pops : List Nat) (w v : QWord) (p : Nat),
    sp = { eng := .s, srcs := [b.toNat], dst := some d.toNat, mem := true } → Idle s x → 48 ≤ d.toNat → d.toNat ≤ 53 →
    v = (x.enrol sp (s.tenant x.tenant).scap w).2 → u = touchUnits (passing sp noAct (s.entered x sp w pops) s.cur v) s.cur x.me w.units →
    peerOf x s.cur (d.toNat - 48) = some p → p ≠ s.cur →
    (Passes s x (.lds d b i) sp (chkSpadWord i false) vals pops w → v.pa / 128 ∉ (u.core s.cur).spadPoison →
      ∃ t n q, exec (.lds d b i) s = .next t ∧ Map.at? t.net n = some q ∧ q.src = .core s.cur ∧ q.dst = .core p ∧ q.tenant = x.tenant ∧
        q.kind = .chan (d.toNat - 48) x.uid x.nextSeq ((u.core s.cur).spadWord v.pa) false) ∧
    (∀ pa, Passes s x (.ldg d b i) sp (chkGlobWord i false) vals pops w → stlbTranslate u s.cur x.tenant v.pa false = .ok pa →
      ∃ t y n q, exec (.ldg d b i) s = .next t ∧ t.ctx s.cur = some y ∧
        Map.get [] y.chout (d.toNat - 48) = Map.get [] x.chout (d.toNat - 48) ++ [x.nextSeq] ∧
        Map.at? t.net n = some q ∧ q.src = .core s.cur ∧ q.dst = .slice (homeSlice pa) ∧ q.kind = .load pa v.pa)) ∧
  (∀ (s : State) (x : Ctx) (a : BitVec 5) (k : BitVec 6) (r : WordSpec) (vals : List Dword) (pops : List Nat) (w : QWord) (p : Nat),
    handleWords (.hpass a k) = some r → Idle s x → 48 ≤ k.toNat → k.toNat ≤ 53 → Passes s x (.hpass a k) r.sp r.chk vals pops w →
    peerOf x s.cur (k.toNat - 48) = some p → p ≠ s.cur →
    ∃ t n q, exec (.hpass a k) s = .next t ∧ Map.at? t.net n = some q ∧ q.src = .core s.cur ∧ q.dst = .core p ∧ q.tenant = x.tenant ∧
      q.kind = .chan (k.toNat - 48) x.uid x.nextSeq
        (mkTicket s.cur 0x3FF (x.seqOf a.toNat) (x.seqr (x.seqOf a.toNat)).count) true)

/-! ## Steps of a core's engines (95_what_each_step_holds) -/

/-- WORD_START (R33, R35): a word between two of its row accesses makes the next; else a waiting word of the queue is tried
again; else the head word, where it can start, leaves its queue, pops its tokens, has the units it names touched, and runs,
its row accesses all at once or, where they are chosen one by one, the first of them (R114, R134; notes/assumptions/75), an M
word with the codebook as it then stands (R63); one that goes through a list stands while its core may send no more of its tenant's
(R178, R190, R260).
HDRAIN_COMPLETE (R221): a waiting drain whose operations have all performed takes the statuses of the sequencers it
covers; it finishes, or traps with the worst of them. FLAG_WAIT_RETEST (R232): a waiting `flag.wait` whose flag word holds
what it waits for finishes. -/
def Obligations.WordStart : Prop :=
  (∀ (s : State) (c : Nat) (e : Engine) (x : Ctx) (w : QWord), s.running c = some x → s.midWord c e = none →
    (x.fly.find? (fun v => v.waiting && v.eng == e) = some w →
      exec (.wordStart c e) s = .next (resumeWord (runWord w.instr) s c w)) ∧
    (x.fly.find? (fun v => v.waiting && v.eng == e) = none → x.head e = some w → s.canStart c x w = true → ∀ v u,
      v = s.placed c x.tenant w → u = touchUnits (s.setCtx c ((x.dequeue v.seq).popTokens v)) c x.me v.units →
      (s.picks = [] ∨ v.rowwise = false → exec (.wordStart c e) s = .next (afterRun s c v (runWord w.instr u c v))) ∧
      (s.picks ≠ [] → v.rowwise = true →
        exec (.wordStart c e) s = .next (rowStep (runWord w.instr) s u c { v with book := some x.codebook } { todo := v.rowKeys })))) ∧
  (∀ (s : State) (c : Nat) (e : Engine) (x : Ctx) (w : QWord) (r : Rows), s.ctx c = some x → s.powered = true →
    x.fly.find? (fun v => v.mid.isSome && v.eng == e) = some w → w.mid = some r →
    (w.lst.isSome = true → s.limited c x.tenant w.eng = true → exec (.wordStart c e) s = .next s) ∧
    (w.lst = none ∨ s.limited c x.tenant w.eng = false → exec (.wordStart c e) s = .next (rowStep (runWord w.instr) (s.setCtx c { x with tok := returnTokens x.tok w })
      (touchUnits (s.setCtx c { x with fly := x.fly.filter (fun v => v.seq ≠ w.seq) }) c x.me w.units) c w r))) ∧
  (∀ (s : State) (c : Nat) (x : Ctx) (w : QWord), s.running c = some x → w.mid = none → w.lst = none →
    (∀ a k, w.instr = .hdrain a k → x.fly.find? (fun v => v.waiting && v.drains) = some w →
      w.covers.all (fun p => s.preOk x p) = true →
      ∃ u, u = s.setCtx c (clearStatus { x with fly := x.fly.filter (fun v => v.seq ≠ w.seq) } (w.covers.map (fun p => p.seqr)).dedup) ∧
        exec (.hdrainComplete c) s = .next (afterRun (s.setCtx c { x with tok := returnTokens x.tok w }) c w
          (match worstStatus x (w.covers.map (fun p => p.seqr)).dedup with
           | some st => .trap st.2.1 st.2.2 u
           | none => .done u))) ∧
    (∀ a b, w.instr = .flagWait a b → x.fly.find? (fun v => v.waiting && v.awaitsFlag) = some w →
      flagHolds ((s.core c).flag ((op0 w).toNat % 128)) (op1 w) = true →
      exec (.flagWaitRetest c) s = .next (afterRun (s.setCtx c { x with tok := returnTokens x.tok w }) c w
        (.done (s.setCtx c { x with fly := x.fly.filter (fun v => v.seq ≠ w.seq) })))))

/-- TOKEN_SIGNAL (R35): the oldest finished word of the queue pushes one token to each engine it signals, and is gone. -/
def Obligations.TokenSignal : Prop :=
  ∀ (s : State) (c : Nat) (e : Engine) (x : Ctx) (w : QWord), s.ctx c = some x → x.signaller e = some w →
    ∃ y, exec (.tokenSignal c e) s = .next (s.setCtx c y) ∧ y = { x with tok := y.tok, fly := y.fly } ∧
      y.fly = x.fly.filter (fun v => v.seq ≠ w.seq) ∧
      ∀ f < 6, ∀ g < 6, y.tokens f g = x.tokens f g + if f = w.eng.num ∧ w.pfx.signal.getLsbD g = true then 1 else 0

/-- SPAN_END_COMPLETE (R107): the core holds no context; tokens and q6 elements left are kept as bits for the tenant's next
span, a reservation whose element has not been produced setting none, which is the model's reading of R107 and R110
(notes/assumptions/54); the launch has one span less, and is eligible from now on where it is a gang that b0 kept waiting;
its registers stand as it leaves them until the next span starts (R90), without tokens, q6 elements, loop levels and handles
but h0; memory and every other core's spans stay. -/
def Obligations.SpanEnd : Prop :=
  ∀ (s : State) (c : Nat) (x : Ctx) (l : Launch), s.ctx c = some x → s.powered = true → x.endReady = true → s.unissued c x = false →
    s.launch x.tenant x.lid = some l →
    ∃ t, exec (.spanEndComplete c) s = .next t ∧ t.ctx c = none ∧ (t.core c).quiesce = none ∧ t.mem = s.mem ∧
      (∀ k, k ≠ c → t.ctx k = s.ctx k) ∧
      (∃ m, t.launch x.tenant x.lid = some m ∧ { m with elig := l.elig } = l.spanEnded x ∧ (l.gang = false → m = l.spanEnded x) ∧
        (m.elig = l.elig ∨ m.elig = some s.cycle)) ∧
      Map.get 0 (t.core c).ev evSPAN = Map.get 0 (s.core c).ev evSPAN + 1 ∧
      (∃ y, (t.core c).ended = some y ∧ y.n = x.n ∧ y.p = x.p ∧ y.lc = x.lc ∧ y.shapes = x.shapes ∧ y.dead = x.dead ∧ y.tok = [] ∧
        y.q6 = [] ∧ y.loops = [] ∧ y.hnd = [(0, 0)]) ∧
      (x.fly = [] → Map.get 0 (t.core c).kept x.tenant = endBits x.tokCount (x.q6.any Elem.produced))

/-- TRAP_ENTRY (R56, R298): once no queue can start its head word, and every word that its queue started before the one that
trapped has finished, a raised trap is entered, and not before; CHANNEL_POP_TIMEOUT (R235): a pop stalled longer than `qtmo`, whose element is still not there, takes the exception TIMEOUT with the cycles waited as tval. -/
def Obligations.TrapSteps : Prop :=
  ∀ (s : State) (c : Nat) (x : Ctx), s.running c = some x → s.noneRunsOn c x = true → x.priv = false →
    Map.get 0 (s.core c).tvec x.tenant ≠ 0 →
    (∀ p, x.pend = some p → x.earlierDone p.eng p.word = true →
      ∃ y, exec (.trapEntry c) s = .next (s.setCtx c y) ∧ Entered x y p (Map.get 0 (s.core c).tvec x.tenant)) ∧
    (∀ p, x.pend = some p → x.earlierDone p.eng p.word = false → exec (.trapEntry c) s = .next s) ∧
    (∀ port idx since, x.stall = .chan port idx since → x.grp ≠ {} → x.awaited port idx = true → x.pend = none → x.ending = false → x.qtmo ≠ 0 →
      x.qtmo < s.cycle - since →
      ∃ y, exec (.channelPopTimeout c) s = .next (s.setCtx c y) ∧ Entered { x with grp := {}, stall := .none } y
        { cause := 7, tval := BitVec.ofNat 64 (s.cycle - since), eng := engineOf x.grp.raw, addr := x.grp.addr, word := none }
        (Map.get 0 (s.core c).tvec x.tenant))

/-- UNIT_FIRST_TOUCH and UNIT_SPILL_COMPLETE (R137, R312): a touch leaves the unit with the toucher, taken as it stands where
the toucher already has it, or where nobody has it and no copy of the toucher's is saved; a dead tile's copy is not restored. A
spill leaves the unit with nobody: a dead tile is not saved, a copy goes to its owner's slot, and an urgent span's beside its
own tenant's suspended one to the core's side store (notes/assumptions/80); that the slot stands by the save region's pinned pages
is the model's reading (45). MAP_CACHE_FILL (R186): the core takes the tenant's
map. No other core changes. -/
def Obligations.UnitSteps : Prop :=
  ∀ (s : State) (c u : Nat),
    (∀ x, s.ctx c = some x → u < 176 → ∃ t, exec (.unitFirstTouch c u) s = .next t ∧
      Map.at? (t.core c).owner u = some x.me ∧ (∀ k, k ≠ c → t.core k = s.core k) ∧
      (Map.at? (s.core c).owner u = some x.me → t = s) ∧
      (Map.at? (s.core c).owner u = none → (s.core c).beside x.me = false → u ∉ (s.core c).savedOf x.tenant →
        t = s.modCore c (fun k => { k with owner := Map.ins k.owner u x.me })) ∧
      (Map.at? (s.core c).owner u = none → (s.core c).beside x.me = false → u ∈ (s.core c).savedOf x.tenant → u ∈ x.dead →
        u ∉ (t.core c).savedOf x.tenant ∧ (t.core c).tiles = (s.core c).tiles ∧ t.mem = s.mem) ∧
      (Map.at? (s.core c).owner u = none → (s.core c).beside x.me = false → u ∈ (s.core c).savedOf x.tenant → u ∉ x.dead →
        u ∉ (t.core c).savedOf x.tenant ∧
        (t.core c).tiles = ((loadRows s c u (slotAt s x.tenant c (unitOff u)) (unitRows u)).core c).tiles ∧
        (t.core c).acc = ((loadRows s c u (slotAt s x.tenant c (unitOff u)) (unitRows u)).core c).acc ∧
        (t.core c).spad = ((loadRows s c u (slotAt s x.tenant c (unitOff u)) (unitRows u)).core c).spad)) ∧
    (∀ o, u ∈ (s.core c).spilling → Map.at? (s.core c).owner u = some o → ∃ t, exec (.unitSpillComplete c u) s = .next t ∧
      Map.at? (t.core c).owner u = none ∧ u ∉ (t.core c).spilling ∧ (∀ k, k ≠ c → t.core k = s.core k) ∧
      ((s.core c).deadUnit o u = true → t.mem = s.mem ∧ (t.core c).saved = (s.core c).saved ∧ (t.core c).side = (s.core c).side) ∧
      ((s.core c).deadUnit o u = false → (s.core c).beside o = true →
        t.mem = s.mem ∧ Map.get [] (t.core c).side u = (s.core c).unitVals u ∧ (t.core c).saved = (s.core c).saved) ∧
      ((s.core c).deadUnit o u = false → (s.core c).beside o = false → u ∈ (t.core c).savedOf o.tenant ∧
        t.mem = ((spillRows s c u (slotAt s o.tenant c (unitOff u)) (unitRows u)).spillBit c o u true).mem)) ∧
    (∀ tenant g, s.gmapAt tenant u 0 = some g → ∃ t, exec (.mapCacheFill c tenant u) s = .next t ∧
      Map.at? (Map.get [] (t.core c).gcache tenant) u = some g ∧ (∀ k, k ≠ c → t.core k = s.core k) ∧ t.mem = s.mem ∧
      t.ctx c = s.ctx c)

/-! ## Packets arriving at cores (R158-R168, R182, R210, R211) -/

/-- BEAT_ARRIVAL (R134, R158, R159, R162-R165, R171). A packet reaches the open block it belongs to, or the one its first
arrival opens, a close marker too (`blockFor`). A beat of a block without a map is counted and marks the context the block
met (MAPMISS); a beat of a bound block gathers its elements that lie in the window, and afterwards bit z of the scratchpad
with what the block has gathered is the bit of the last element to reach it, `landBit` being its mapped and swizzled place,
or as before, as it is at the flag words, where no element lands (R229; the model's choice, notes/assumptions/105); no row of
which all 128 bytes are there waits any longer. That rows gather until they are whole or the block completes is the model's
choice (notes/assumptions/91). A close marker says how many beats the block has, and the one that a failed link synthesised stands
(R167); what comes for a block that has completed is acknowledged and lands nowhere. An arrival that finds no room is refused, one
that meets a `ring.wfree` of the same cycle waits for it (R224), and a marker at a slice closes its block there once
every beat it names has been applied. -/
def Obligations.BeatArrival : Prop :=
  (∀ (s u v : State) (id c : Nat) (p : Packet) (h : Hdr) (t : Beat) (b : OpenBlk), s.Arriving id p → p.dst = .core c →
    p.kind = .beat h t → Map.at? s.applied h.blk = none → s.blockFor c p h t.row ((beatCells h t).map (fun e => e.1)) = some (u, b) →
    (Map.at? (s.core c).blks h.blk = none → ∀ g ∈ b.ringOf, s.wfreeReady c g.1 g.2 = false) →
    v = (u.unsend id).noteApplied p (.ack p.seq [] {}) →
    (b.bound = none → exec (.beatArrival id) s = .next ((dropBeat v c b).1.setBlk c h.blk (dropBeat v c b).2) ∧
      ∃ z, exec (.beatArrival id) s = .next z ∧ Map.get 0 (z.core c).ev evMAPMISS = Map.get 0 (u.core c).ev evMAPMISS + 1 ∧
        Map.at? (z.core c).blks h.blk = some { b with beats := b.beats + 1, dropped := b.dropped + 1 } ∧
        (z.core c).spad = (s.core c).spad ∧ ((s.core c).sus = none → z.mem = s.mem) ∧
        (∀ x, u.ctx c = some x → (s.core c).sus = none → z.ctx c = some (if b.ctx = some x.uid then x.stick stMAPMISS else x))) ∧
    (∀ k m uid slot, b.bound = some (k, m, uid, slot) → exec (.beatArrival id) s =
      .next ((landBeat v c b m uid slot h t).1.setBlk c h.blk (landBeat v c b m uid slot h t).2)) ∧
    (∀ k m slot x, b.bound = some (k, m, x.uid, slot) → x.tenant = h.tenant →
      HoldsRows v c x (partRows b.parts ++ (landed m h t).flatMap (fun e => cellRows m h.origin slot t.row e.1)) →
      ∃ z b', exec (.beatArrival id) s = .next z ∧ Map.at? (z.core c).blks h.blk = some b' ∧ b'.beats = b.beats + 1 ∧
        b'.dropped = b.dropped ∧ (∀ r, (Map.get {} b'.parts r).whole = false) ∧
        (∀ i, (z.core c).gathered b'.parts i = ((landedAs m h.origin slot ((landed m h t).map (fun e => (t.row, e.1, e.2))) i).getD
          ((s.core c).gathered b.parts i))))) ∧
  (∀ (s u : State) (id c n : Nat) (p : Packet) (h : Hdr) (link : Bool) (b : OpenBlk), s.Arriving id p → p.dst = .core c →
    p.kind = .close h n link → Map.at? s.applied h.blk = none → s.blockFor c p h 0 [] = some (u, b) →
    (Map.at? (s.core c).blks h.blk = none → ∀ g ∈ b.ringOf, s.wfreeReady c g.1 g.2 = false) →
    exec (.beatArrival id) s = .next (((u.unsend id).noteApplied p (.ack p.seq [] {})).setBlk c h.blk
      (if b.link then b else { b with need := some n, link := link }))) ∧
  (∀ (s : State) (id c row : Nat) (cols : List Nat) (p : Packet) (h : Hdr), s.Arriving id p → p.dst = .core c →
    ((∃ t, p.kind = .beat h t ∧ row = t.row ∧ cols = (beatCells h t).map (fun e => e.1)) ∨
      (∃ n link, p.kind = .close h n link ∧ row = 0 ∧ cols = [])) →
    ((Map.at? s.applied h.blk).isSome = true → exec (.beatArrival id) s = .next (s.answerDup id p)) ∧
    (Map.at? s.applied h.blk = none → s.blockFor c p h row cols = none →
      exec (.beatArrival id) s = .next { s with net := Map.ins s.net id { p with st := .refused s.cycle } }) ∧
    (∀ u b g, Map.at? s.applied h.blk = none → s.blockFor c p h row cols = some (u, b) → Map.at? (s.core c).blks h.blk = none → b.ringOf = some g →
      s.wfreeReady c g.1 g.2 = true → exec (.beatArrival id) s = .next s)) ∧
  (∀ (s v : State) (id sl n : Nat) (p : Packet) (h : Hdr) (link : Bool) (b : SliceBlk), s.Arriving id p → p.dst = .slice sl →
    p.kind = .close h n link → v = (s.unsend id).noteApplied p (.ack p.seq [] {}) → b = v.slcBlk h.blk →
    (b.beats < n → exec (.beatArrival id) s = .next (v.setSlcBlk h.blk { b with need := some n })) ∧
    (n ≤ b.beats → ∃ z k q, exec (.beatArrival id) s = .next z ∧ Map.at? z.slcBlks h.blk = none ∧
      Map.at? z.applied h.blk = some (.ack h.blk [h.blk] b.info) ∧ Map.at? z.net k = some q ∧ q.kind = .ack h.blk [h.blk] b.info ∧
      q.dst = p.src ∧ q.cmd = p.cmd ∧ z.mem = s.mem ∧ z.cores = s.cores))

/-- A packet that has already been applied is answered again with the recorded reply and not applied again (R211): memory,
tenants, groups, the directory, the window and every core are untouched. -/
def Obligations.DuplicatesAnswered : Prop :=
  ∀ (s : State) (id : Nat) (p : Packet) (i : Instr), s.flying id = some p → p.kind.kept p.cls = true →
    (Map.at? s.applied p.seq).isSome = true →
    i ∈ [Instr.beatArrival id, .sliceBlockRequest id, .slicePutBeat id, .sliceAccumulate id, .sliceAtomic id, .sliceScalarAccess id,
      .flagAddApply id, .flagSetApply id, .channelElementArrive id, .mailboxTicketArrive id, .reductionContribution id, .sacCheck id,
      .sacFill id, .globalMapInstallArrive id, .sacInvalidationArrive id, .cntsnapRequestArrive id] →
    ∃ t, exec i s = .next t ∧ t.mem = s.mem ∧ t.tenants = s.tenants ∧ t.cores = s.cores ∧ t.groups = s.groups ∧ t.sac = s.sac ∧
      t.applied = s.applied ∧
      (∀ r, s.replyFor p = some r → p.cmd ≠ 0 → ∃ n q, Map.at? t.net n = some q ∧ q.kind = r ∧ q.src = p.dst ∧ q.dst = p.src ∧
        q.cmd = p.cmd)

/-- BLOCK_COMPLETE (R159, R165, R166): once every beat the marker names has arrived, the block is closed, a ring slot it
landed in counts as filled, and what it found is acknowledged to the core whose command it belongs to. Every position of the
map's footprint that no beat wrote takes the fill value of modes 0 to 2, and what the block had gathered is in its rows; each
position filled counts in evFILL, and the context is marked FILL. -/
def Obligations.BlockComplete : Prop :=
  ∀ (s : State) (c k : Nat) (b : OpenBlk), Map.at? (s.core c).blks k = some b → b.whole = true →
    ∃ t n q, exec (.blockComplete c k) s = .next t ∧ Map.at? (t.core c).blks k = none ∧ Map.at? t.applied k = some (.ack k [k] b.report) ∧
      Map.at? t.net n = some q ∧ q.kind = .ack k [k] b.report ∧ q.dst = s.ackLeaf b ∧ q.cmd = b.cmd ∧
      (b.bound = none → t.mem = s.mem ∧ t.ctx c = s.ctx c) ∧
      (∀ j m x slot, b.bound = some (j, m, x.uid, slot) → mKind m = 3 → s.ctx c = some x → (s.core c).sus = none →
        (x.ring (mRing m)).slotSt slot = SlotSt.landing →
        ∃ y, t.ctx c = some y ∧ (y.ring (mRing m)).slotSt slot = SlotSt.filled ∧
          (y.ring (mRing m)).fillOrder = (x.ring (mRing m)).fillOrder ++ [slot]) ∧
      (∀ j m x slot ps, b.bound = some (j, m, x.uid, slot) → x.tenant = b.hdr.tenant →
        ps = (if mFill m = 3 then [] else unwritten b m) →
        HoldsRows s c x (partRows b.parts ++ ps.flatMap (fun e => cellRows m b.hdr.origin slot e.1 e.2)) →
        (∀ i, ((t.core c).spadRow (i / 1024)).getLsbD (i % 1024) =
          (landedAs m b.hdr.origin slot (ps.map (fun e => (e.1, e.2, fillBits m))) i).getD ((s.core c).gathered b.parts i)) ∧
        Map.get 0 (t.core c).ev evFILL = Map.get 0 (s.core c).ev evFILL + BitVec.ofNat 64 ps.length ∧
        (ps ≠ [] → ∃ y, t.ctx c = some y ∧ y.sticky.getLsbD stFILL = true))

/-- ACK_RECEIVE (R182, R210): the acknowledged numbers of the command are settled with what they report; once none is left
the command has finished. XAT_REPLY (R54, R183) and LDG_REPLY (R102): the element, or the destination, takes the value, and
the command finishes; poisoned data of an atomic makes its element carry ECC and gives ECC to its handle. A load's register
takes the value where no later word has written it (R103), the model's choice where the two overlap (notes/assumptions/20);
to a channel the value is sent to the peer core (R87); into a full outbound mailbox it waits (R293). Poisoned data of a load
is the exception ECC of the S engine with the address as tval, the word unstarted again, taken once every earlier S word has
finished (R56, R102). -/
def Obligations.Replies : Prop :=
  (∀ (s : State) (id c q : Nat) (p : Packet) (ids : List Nat) (info : AckInfo), s.flying id = some p → p.kind = .ack q ids info →
    p.dst = .core c →
    exec (.ackReceive id) s = .next ((s.unsend id).settle p.cmd ids info) ∧
    (∀ m, Map.at? s.cmds p.cmd = some m → m.pend ≠ [] → (∀ a ∈ m.pend, a ∈ ids) →
      Map.at? ((s.unsend id).settle p.cmd ids info).cmds p.cmd = none)) ∧
  (∀ (s : State) (id va : Nat) (p : Packet) (m : Cmd) (v : Dword), s.flying id = some p → Map.at? s.cmds p.cmd = some m →
    (∀ i rest bad, p.kind = .atomicReply v bad va → m.q6 = i :: rest → exec (.xatReply id) s = .next
      (((s.unsend id).modCtxOf m.core m.uid (fun x => if bad then x.produceErr i 9 (BitVec.ofNat 64 va) else x.produce i v)).settle
        p.cmd m.pend (if bad then { cause := 9, tval := BitVec.ofNat 64 va } else {}))) ∧
    (∀ x w, p.kind = .loadReply v false va → s.ctxOf m.core m.uid = some x → x.fly.find? (fun u => decide (u.seq = m.word)) = some w →
      (w.dst = some 55 → oboxRoom s x = true) →
      exec (.ldgReply id) s = .next ((writeLate (s.unsend id) m.core w v).settle p.cmd m.pend {})) ∧
    (∀ x w, p.kind = .loadReply v false va → s.ctxOf m.core m.uid = some x → x.fly.find? (fun u => decide (u.seq = m.word)) = some w →
      w.dst = some 55 → oboxRoom s x = false → exec (.ldgReply id) s = .next s) ∧
    (∀ x w d, p.kind = .loadReply v false va → s.ctx m.core = some x → m.uid = x.uid →
      x.fly.find? (fun u => decide (u.seq = m.word)) = some w → w.dst = some d →
      (d < 32 → ∃ t y, exec (.ldgReply id) s = .next t ∧ t.ctx m.core = some y ∧
        ∀ k, y.reg k = if k = d ∧ w.seq ∈ Map.get [] x.late d then v else x.reg k) ∧
      (∀ k, 48 ≤ d → d ≤ 53 → peerOf x m.core (d - 48) = some k → ∃ t n q, exec (.ldgReply id) s = .next t ∧ Map.at? t.net n = some q ∧
        q.src = .core m.core ∧ q.dst = .core k ∧ q.tenant = x.tenant ∧ q.kind = .chan (d - 48) x.uid w.seq v false)) ∧
    (∀ x y w u, p.kind = .loadReply v true va → s.ctx m.core = some x → m.uid = x.uid → x.pend = none →
      x.fly.find? (fun u => decide (u.seq = m.word)) = some w → y = x.unstarted w → u = (s.forgets id p).modCtxOf m.core m.uid (fun z => z.unstarted w) →
      (u.noneRunsOn m.core y = true → y.earlierDone .s (some w.seq) = true → (s.core m.core).quiesce = none → x.priv = false → Map.get 0 (s.core m.core).tvec x.tenant ≠ 0 →
        ∃ z, exec (.ldgReply id) s = .next ((endStall u m.core y).setCtx m.core z) ∧ Entered y z
          { cause := 9, tval := BitVec.ofNat 64 va, eng := .s, addr := w.addr, word := some w.seq } (Map.get 0 (s.core m.core).tvec x.tenant)) ∧
      (u.noneRunsOn m.core y = false ∨ y.earlierDone .s (some w.seq) = false ∨ (s.core m.core).quiesce ≠ none → ∃ o, exec (.ldgReply id) s =
        .next ((endStall u m.core y).setCtx m.core { y with pend := some o, stall := .none }) ∧ o.cause = 9 ∧
          o.tval = BitVec.ofNat 64 va ∧ o.eng = .s ∧ o.word = some w.seq)))

/-! ## Evictions, resends, limiters (R211, R259, R260) -/

/-- PACKET_EVICTION (R259): a class 0-3 request that meets the full buffer of a switch takes the place of the newest buffered
packet of the lowest class below its own, and waits where there is none. PACKET_RESEND: the victim is sent again 64 cycles
after its notice, one class higher after every third eviction, and counts in evretx; a refused first arrival 64 cycles after
its refusal, uncounted. ACK_TIMEOUT_RESEND (R211): a request that has left its core and is not acknowledged within 65,536
cycles is sent again. RATE_LIMIT_RELEASE (R190, R260): the oldest held packet of a tenant's engine leaves when its core has room for
another outstanding request and the balance is not negative, and its bytes are paid for once for all copies. Which resends
count, and from when the 65,536 cycles run, is the model's choice (notes/assumptions/36). R190 says only that issue stalls at the
limit of outstanding requests; that a packet beyond it is held in its core, and that RATE_LIMIT_RELEASE lets it go when there is
room, is the model's choice too (92), and so is which packets stand in a full buffer (94). -/
def Obligations.ResendSteps : Prop :=
  ∀ (s : State) (id : Nat) (p : Packet),
    (∀ a v k, s.flying id = some a → s.flying k = some v → a.cls ≤ 3 → id ∉ s.crowd →
      (s.victim a.cls = some k → exec (.packetEviction id k) s = .next { s with
        net := Map.ins s.net k { v with st := .evicted s.cycle, evicts := v.evicts + 1 }
        crowd := s.crowd.filter (fun i => i ≠ k) ++ [id] }) ∧
      (s.victim a.cls ≠ some k → exec (.packetEviction id k) s = .next s)) ∧
    (∀ cls k, s.victim cls = some k → ∃ as bs v, s.crowd = as ++ k :: bs ∧ s.flying k = some v ∧ v.cls < cls ∧
      (∀ j ∈ as, ∀ q, s.flying j = some q → q.cls < cls → v.cls ≤ q.cls) ∧
      (∀ j ∈ bs, ∀ q, s.flying j = some q → q.cls < cls → v.cls < q.cls)) ∧
    (∀ n, Map.at? s.net id = some p → p.st = .evicted n → n + 64 ≤ s.cycle → ∃ t, exec (.packetResend id) s = .next t ∧
      t.net = Map.ins s.net id { p with st := .flying, cls := if p.evicts % 3 = 0 then Min.min 3 (p.cls + 1) else p.cls } ∧
      (∀ c, p.src = .core c → t.core c = (s.core c).count evRETX 1) ∧ t.mem = s.mem ∧ t.sent = s.sent) ∧
    (∀ n, Map.at? s.net id = some p → p.st = .refused n → n + 64 ≤ s.cycle →
      exec (.packetResend id) s = .next { s with net := Map.ins s.net id { p with st := .flying } }) ∧
    (Map.at? s.sent id = some p → p.sentAt + 65536 ≤ s.cycle → (∀ q, Map.at? s.net id = some q → q.st ≠ .held) →
      exec (.ackTimeoutResend id) s = .next { s with
        sent := Map.ins s.sent id { p with sentAt := s.cycle, st := .flying }
        net := Map.ins s.net s.nextId { p with sentAt := s.cycle, st := .flying }, nextId := s.nextId + 1 }) ∧
    (∀ c, Map.at? s.net id = some p → p.st = .held → p.src = .core c →
      (∀ q ∈ s.net, q.1 < id → q.2.st = .held → q.2.src = p.src → q.2.tenant = p.tenant → q.2.kind.engine ≠ p.kind.engine) →
      ((s.requestFull c p.kind = true ∨ (p.twin = false ∧ ((s.tenant p.tenant).bucketOf (dieOf c)).1 ≠ 0 ∧
          balanceAt ((s.tenant p.tenant).bucketOf (dieOf c)) s.cycle < 0)) → exec (.rateLimitRelease id) s = .next s) ∧
      (s.requestFull c p.kind = false → (p.twin = true ∨ ((s.tenant p.tenant).bucketOf (dieOf c)).1 = 0 ∨
          0 ≤ balanceAt ((s.tenant p.tenant).bucketOf (dieOf c)) s.cycle) → ∃ t, exec (.rateLimitRelease id) s = .next t ∧
        t.net = Map.ins s.net id { p with st := .flying, sentAt := s.cycle } ∧ t.mem = s.mem ∧ t.cores = s.cores ∧
        (∀ r, Map.at? s.sent id = some r → Map.at? t.sent id = some { r with sentAt := s.cycle }) ∧
        (p.twin = false → ((s.tenant p.tenant).bucketOf (dieOf c)).1 ≠ 0 → (t.tenant p.tenant).bucketOf (dieOf c) =
          debit ((s.tenant p.tenant).bucketOf (dieOf c)) s.cycle p.kind.bytes) ∧
        (p.twin = true ∨ ((s.tenant p.tenant).bucketOf (dieOf c)).1 = 0 → t.tenants = s.tenants)))

/-! ## Requests at slices (R170, R177-R183, R205) -/

/-- SLICE_PUT_BEAT and SLICE_ACCUMULATE (R158, R170, R171, R181, R282): the elements of a sound beat inside the tensor's extents
are written, or combined, in place, whole bytes written losing their marks; a poisoned beat leaves its bytes marked and reports
ECC with the first of their addresses (R182); that one of a put writes its data all the same is the model's choice
(notes/assumptions/37). A beat without a map of its tag and etype is dropped with MAP, a block counting once; that a map of another etype counts
as none is the model's choice (notes/assumptions/39). The block is acknowledged with what all its beats report once its marker
and every beat it names are there. SLICE_BLOCK_REQUEST (R170, R177, R179, R188): the request is acknowledged and every
destination receives a copy of the block's rows that lie inside both extents, its close marker naming the beats sent; without a
map, none. The pitch of rows under EXP is the model's choice (notes/assumptions/30). -/
def Obligations.SliceWrites : Prop :=
  (∀ (s : State) (id sl : Nat) (p : Packet) (h : Hdr) (b : Beat), s.Arriving id p → p.dst = .slice sl →
    (∀ g cells lines, p.kind = .put h b → sliceMap s p h = some g → cells = sliceCells g h b →
      lines = linesOf (cells.flatMap (fun e => globBytes s p.tenant h.tag e.1 (cellBits h.etype))) →
      (b.poison = false → exec (.slicePutBeat id) s = .next
        ((cleanGlob (cells.foldl (fun q e => putGlob q p.tenant h.tag e.1 (cellBits h.etype) e.2) s) p.tenant h.tag
          (cells.map (fun e => (e.1, cellBits h.etype)))).sliceBeat id p h { lines := lines } false)) ∧
      (b.poison = true → exec (.slicePutBeat id) s = .next
        ((cells.foldl (fun q e => poisonGlob q p.tenant h.tag e.1 (cellBits h.etype))
          (cleanGlob (cells.foldl (fun q e => putGlob q p.tenant h.tag e.1 (cellBits h.etype) e.2) s) p.tenant h.tag
            (cells.map (fun e => (e.1, cellBits h.etype))))).sliceBeat id p h
          (match cells with | e :: _ => { cause := 9, tval := BitVec.ofNat 64 (e.1 / 8), lines := lines } | [] => { lines := lines })
          false))) ∧
    (∀ g op r, p.kind = .acc h b op → accWaits s p h b = false → sliceMap s p h = some g →
      r = accumCells s p.tenant h op (sliceCells g h b) none [] →
      (b.poison = false → exec (.sliceAccumulate id) s = .next (r.1.sliceBeat id p h (match r.2.1 with
        | some a => { cause := 9, tval := BitVec.ofNat 64 a, lines := linesOf r.2.2 }
        | none => { lines := linesOf r.2.2 }) false)) ∧
      (b.poison = true → exec (.sliceAccumulate id) s = .next
        (((sliceCells g h b).foldl (fun q e => poisonGlob q p.tenant h.tag e.1 (cellBits h.etype)) s).sliceBeat id p h
          (match sliceCells g h b with | e :: _ => { cause := 9, tval := BitVec.ofNat 64 (e.1 / 8) } | [] => {}) false))) ∧
    (∀ i, (i = .slicePutBeat id ∧ p.kind = .put h b ∨ ∃ op, i = .sliceAccumulate id ∧ p.kind = .acc h b op ∧ accWaits s p h b = false) →
      sliceMap s p h = none → ∃ t, exec i s = .next t ∧ t.mem = s.mem ∧ t.memPoison = s.memPoison ∧
        (t.tenant p.tenant).dropped = (s.tenant p.tenant).dropped + (if (s.slcBlk h.blk).dropped then 0 else 1) ∧
        (∀ n, (s.slcBlk h.blk).need = some n → n ≤ (s.slcBlk h.blk).beats + 1 → ∃ k q, Map.at? t.net k = some q ∧ q.dst = p.src ∧
          q.cmd = p.cmd ∧ q.kind = .ack h.blk [h.blk] ((s.slcBlk h.blk).info.merge { cause := 0xA, tval := 1 })) ∧
        ((∀ n, (s.slcBlk h.blk).need = some n → (s.slcBlk h.blk).beats + 1 < n) →
          t.slcBlk h.blk = { s.slcBlk h.blk with
            beats := (s.slcBlk h.blk).beats + 1
            info := (s.slcBlk h.blk).info.merge { cause := 0xA, tval := 1 }
            dropped := true }))) ∧
  (∀ (s : State) (id sl : Nat) (p : Packet) (d : Rec512) (mw src origin : Dword) (outT : Nat) (dests : List (Leaf × Nat)) (ftz : Nat)
    (seed srq : BitVec 32) (bfx : List Dword) (rid : Nat), s.Arriving id p → p.dst = .slice sl →
    p.kind = .blockReq d mw src origin outT dests ftz seed srq bfx rid →
    (∀ g rows, s.gmapAt p.tenant (dTag d) sl = some g →
      rows = (requestRows g d src).map (requestRow s p.tenant g (((s.gmapAt p.tenant ((dTag d + 1) % 4096) sl)).getD 0) d mw bfx src
        origin outT ftz seed srq) →
      exec (.sliceBlockRequest id) s = .next ((s.answer id p (.ack p.seq [rid] { flushes := (rows.map (fun r => r.2)).sum })).sendAll
        (sliceBlock p (dTag d) outT origin (beatsOf outT (rows.map (fun r => r.1))) dests))) ∧
    (s.gmapAt p.tenant (dTag d) sl = none → exec (.sliceBlockRequest id) s =
      .next (((s.modTenant p.tenant (fun v => { v with dropped := v.dropped + 1 })).answer id p
        (.ack p.seq [rid] { cause := 0xA, tval := 1 })).sendAll (sliceBlock p (dTag d) outT origin [] dests))))

/-- SLICE_ATOMIC and SLICE_SCALAR_ACCESS (R102, R183, R205): a word atomic replaces the word by its operation's result and
answers the old value; a store writes its eight bytes; a load answers them and writes nothing. Every other byte stays. -/
def Obligations.SliceWords : Prop :=
  ∀ (s : State) (id sl pa va : Nat) (p : Packet), s.Arriving id p → p.dst = .slice sl →
    (∀ op size b c, p.kind = .atomic op size pa va b c → s.poisoned pa size = false → ∃ t n q, exec (.sliceAtomic id) s = .next t ∧
      t.readN pa size = atomicNew op size (s.readN pa size) (b.toNat % 2 ^ (8 * size)) (c.toNat % 2 ^ (8 * size)) % 2 ^ (8 * size) ∧
      (∀ a, (a < pa ∨ pa + size ≤ a) → t.byte a = s.byte a) ∧ Map.at? t.net n = some q ∧
      q.kind = .atomicReply (BitVec.ofNat 64 (s.readN pa size)) false va ∧ q.dst = p.src ∧ q.cmd = p.cmd) ∧
    (∀ v, p.kind = .store pa va v → ∃ t, exec (.sliceScalarAccess id) s = .next t ∧ t.readN pa 8 = v.toNat ∧
      (∀ a, (a < pa ∨ pa + 8 ≤ a) → t.byte a = s.byte a) ∧ t.cores = s.cores) ∧
    (p.kind = .load pa va → ∃ t n q, exec (.sliceScalarAccess id) s = .next t ∧ t.mem = s.mem ∧ Map.at? t.net n = some q ∧
      q.kind = .loadReply (BitVec.ofNat 64 (s.readN pa 8)) (s.poisoned pa 8) va ∧ q.dst = p.src ∧ q.cmd = p.cmd)

/-! ## Flags, barriers, channels, tickets (R212, R222, R228-R235) -/

/-- FLAG_ADD_APPLY and FLAG_SET_APPLY (R230, R231, R232): the flag word of the tenant's context takes the sum, or the value,
and the packet is acknowledged; where the tenant has no context the change is dropped and acknowledged with MAP (R233).
BARRIER_PHASE_COMPLETE (R228, R264): 32 cycles after the last arrival within a die, 80 across the package, the phase
completes for every participant. The sum of `flag.add` (R230): expected and bits 63:49 as R229 keeps them; the count grows by
n modulo 2^32 while it does not reach a non-zero expected; else it loses expected and the phase flips. -/
def Obligations.FlagSteps : Prop :=
  ((∀ (s : State) (id c w : Nat) (p : Packet), s.Arriving id p → p.dst = .core c →
    (∀ x n, p.kind = .flagAdd w n → s.ctxFor c p.tenant = some x → exec (.flagAddApply id) s =
      .next ((s.putFlag c x w (flagSum (s.flagAt c (s.ownerOf c x.tenant x.uid) w) n)).ackPkt id p {})) ∧
    (∀ x v, p.kind = .flagSet w v → s.ctxFor c p.tenant = some x → exec (.flagSetApply id) s =
      .next ((s.putFlag c x w v).ackPkt id p {})) ∧
    (∀ n, p.kind = .flagAdd w n → s.ctxFor c p.tenant = none → exec (.flagAddApply id) s =
      .next (s.ackPkt id p { cause := 0xA, tval := 1 })) ∧
    (∀ v, p.kind = .flagSet w v → s.ctxFor c p.tenant = none → exec (.flagSetApply id) s =
      .next (s.ackPkt id p { cause := 0xA, tval := 1 })) ∧
    (∀ x, s.ctx c = some x → x.tenant = p.tenant → (s.core c).sus = none → Map.at? (s.core c).owner 175 = some x.me → w < 128 →
      (∀ n, p.kind = .flagAdd w n → ∃ t, exec (.flagAddApply id) s = .next t ∧ (t.core c).flag w = flagSum ((s.core c).flag w) n ∧
        ∀ j < 128, j ≠ w → (t.core c).flag j = (s.core c).flag j) ∧
      (∀ v, p.kind = .flagSet w v → ∃ t, exec (.flagSetApply id) s = .next t ∧ (t.core c).flag w = v ∧
        ∀ j < 128, j ≠ w → (t.core c).flag j = (s.core c).flag j))) ∧
  (∀ (s : State) (tenant tag n : Nat), ((s.tenant tenant).bar tag).full = some n → n + ((s.tenant tenant).bar tag).delay ≤ s.cycle →
    ∃ t, exec (.barrierPhaseComplete tenant tag) s = .next t ∧
      ((t.tenant tenant).bar tag) = { (s.tenant tenant).bar tag with done := ((s.tenant tenant).bar tag).done + 1, full := none } ∧
      (∀ k, k ≠ tenant → t.tenant k = s.tenant k) ∧ t.cores = s.cores ∧ t.mem = s.mem)) ∧
  (∀ (v : Dword) (n : Nat), n < 2 ^ 32 → ∀ e c, e = bits v.toNat 32 16 → c = v.toNat % 2 ^ 32 + n →
    bits (flagSum v n).toNat 32 16 = e ∧ bits (flagSum v n).toNat 49 15 = 0 ∧
    (e = 0 ∨ c < e → (flagSum v n).toNat % 2 ^ 32 = c % 2 ^ 32 ∧ bit (flagSum v n).toNat 48 = bit v.toNat 48) ∧
    (e ≠ 0 → e ≤ c → (flagSum v n).toNat % 2 ^ 32 = (c - e) % 2 ^ 32 ∧ bit (flagSum v n).toNat 48 = !bit v.toNat 48))

/-- CHANNEL_ELEMENT_ARRIVE and CHANNEL_CREDIT_RETURN (R234, R235): the oldest push of its sender joins the end of the
receiver's buffer, a later one waits for it; a credit frees one slot of it. MAILBOX_TICKET_ARRIVE (R222, R293): a ticket joins
the mailbox of the tenant's context there, one from another device naming that device and acknowledged to it, or is refused while the mailbox holds
16 words. TICKET_CONFIRM (R212): once the sender's operations below the count are visible at system scope the receiver's ticket
is confirmed and the sender's sequencer owes it no more; until then, at system scope, the host's copies are recalled; a request
to a device whose path has failed leaves the ticket lost, with LINK (R266). R212 has the sender's sequencer confirm; that the
confirmation of a ticket from another device is given by TICKET_CONFIRM itself, over a path that is up, is the model's choice
(notes/assumptions/32), and so is that every context of the tenant on the sender's core confirms (114). -/
def Obligations.ChannelSteps : Prop :=
  (∀ (s : State) (id k c q uid slot : Nat) (p : Packet) (v : Dword) (tk : Bool) (y : Ctx),
    (s.Arriving id p → p.kind = .chan q uid slot v tk → p.src = .core k → p.dst = .core c →
      (c ≠ k → chanFirst s p k q uid slot = true → (s.core c).res = some y → (s.core c).sus = none → y.tenant = p.tenant →
        (Map.at? y.chdecl q).isSome = true →
        ∃ t z, exec (.channelElementArrive id) s = .next t ∧ t.ctx c = some z ∧
          (Map.get {} z.chans q).elems = (Map.get {} y.chans q).elems ++ [v] ∧ (∀ j, j ≠ q → Map.get {} z.chans j = Map.get {} y.chans j) ∧
          z = { y with chans := z.chans } ∧ Map.at? t.net id = none) ∧
      (chanFirst s p k q uid slot = false → exec (.channelElementArrive id) s = .next s)) ∧
    (s.flying id = some p → p.kind = .credit q y.uid → p.dst = .core c → s.ctx c = some y →
      ∃ t z, exec (.channelCreditReturn id) s = .next t ∧ t.ctx c = some z ∧
        (Map.get {} z.chans q).reserved = (Map.get {} y.chans q).reserved - 1 ∧
        (Map.get {} z.chans q).elems = (Map.get {} y.chans q).elems ∧ z = { y with chans := z.chans })) ∧
  (∀ (s : State) (id c : Nat) (p : Packet) (v : Dword) (x : Ctx), s.Arriving id p → p.kind = .ticket v → p.dst = .core c →
    s.ctxFor c p.tenant = some x →
    (((s.core c).box x).length < 16 → ∃ t, exec (.mailboxTicketArrive id) s = .next t ∧
      (t.core c).box x = (s.core c).box x ++ [match p.src with | .remote d _ => setBits v 9 10 d | _ => v] ∧
      (∀ y, (s.core c).boxKey y ≠ (s.core c).boxKey x → (t.core c).box y = (s.core c).box y) ∧ t.ctx c = s.ctx c ∧ t.mem = s.mem ∧
      (∀ d k, p.src = .remote d k → ∃ n q, Map.at? t.net n = some q ∧ q.kind = .ack p.seq [] {} ∧ q.dst = p.src)) ∧
    (16 ≤ ((s.core c).box x).length → exec (.mailboxTicketArrive id) s =
      .next { s with net := Map.ins s.net id { p with st := .refused s.cycle } })) ∧
  (∀ (s : State) (id c k q count i : Nat) (p : Packet) (x y : Ctx) (v : Ticket), s.flying id = some p →
    p.kind = .confirmReq y.uid c q count i →
    (p.dst = .core k → (∀ d e, p.src ≠ .remote d e) → Map.at? s.applied p.seq = none → ticketDone s k p.tenant q count = true →
      s.ctx k = some x → x.tenant = p.tenant → s.ctx c = some y → Map.at? y.tickets i = some v →
      ∃ t a b, exec (.ticketConfirm id) s = .next t ∧ t.ctx k = some a ∧ t.ctx c = some b ∧
        (a.seqr q).owed = (x.seqr q).owed.erase count ∧ Map.at? b.tickets i = some { v with confirmed := true } ∧
        (∀ j, j ≠ i → Map.at? b.tickets j = Map.at? y.tickets j) ∧ (k ≠ c → b = { y with tickets := b.tickets }) ∧ t.mem = s.mem) ∧
    (p.dst = .core k → Map.at? s.applied p.seq = none → ticketDone s k p.tenant q count = false →
      exec (.ticketConfirm id) s = .next (if capScope (s.tenant p.tenant).scap 5 = 5 then
        { s with recalls := (s.recalls ++ (s.seqrsOf k p.tenant q).flatMap (fun r => s.copiesBelow r count)).dedup } else s)) ∧
    (∀ d e, p.dst = .remote d e → s.pathFailed (s.endpoint p.tenant d) = false → s.ctx c = some y → Map.at? y.tickets i = some v →
      ∃ t b, exec (.ticketConfirm id) s = .next t ∧ t.ctx c = some b ∧ Map.at? b.tickets i = some { v with confirmed := true } ∧
        b = { y with tickets := b.tickets }) ∧
    (∀ d e, p.dst = .remote d e → s.pathFailed (s.endpoint p.tenant d) = true → s.ctx c = some y → Map.at? y.tickets i = some v →
      v.confirmed = false → ∃ t b, exec (.ticketConfirm id) s = .next t ∧ t.ctx c = some b ∧
        (∀ r ∈ y.seqrs, i ∈ r.2.tix → (r.1, { r.2 with status := mergeStatus r.2.status 8 0 }) ∈ b.seqrs)))

/-! ## Reductions and the step cache (R261-R263, R272-R282) -/

/-- REDUCTION_CONTRIBUTION (R262, R263): a value is taken once every beat of its block is there; a second value for a port is
refused; the node that then lacks a port only keeps it. A complete node combines its ports' values element by element,
ascending by port (`combined`), and sends the sum to its parent's port as a block of its own, or at the root closes the
round: with equal counts every live member receives the result as a block and its status after that block; else every
contributor's status is COUNT with the number of live members. REDUCTION_TIMEOUT: a round open for its timeout with a
contribution missing is discarded at every node, its partial values with it, and each contributor told how many are missing;
that a contribution arriving after the time is up waits until the round has ended is the model's choice
(notes/assumptions/41). REDUCTION_STATUS_DELIVER: a status waits for its result's landing; then it is produced and the
command finishes. -/
def Obligations.ReductionSteps : Prop :=
  (∀ (s : State) (id g node port core count tag : Nat) (shape e : Dword) (vals : List Nat) (leaf : Bool) (blk beats : Nat) (p : Packet)
    (gr : Group), s.Arriving id p → p.kind = .redContrib g node port core count tag shape vals leaf blk beats → gr = s.group g →
    e = Map.get 0 gr.tree node →
    (gr.expired s.cycle = true → exec (.reductionContribution id) s = .next s) ∧ (gr.expired s.cycle = false →
    ((s.slcBlk blk).beats < beats → exec (.reductionContribution id) s = .next s) ∧
    (beats ≤ (s.slcBlk blk).beats → (Map.at? gr.vals (portKey node port)).isSome = true → exec (.reductionContribution id) s =
      .next { s with net := Map.ins s.net id { p with st := .refused s.cycle } }) ∧
    (beats ≤ (s.slcBlk blk).beats → Map.at? gr.vals (portKey node port) = none →
      ((∃ k ∈ portsOf e, k ≠ port ∧ Map.at? gr.vals (portKey node k) = none) → ∃ t, exec (.reductionContribution id) s = .next t ∧
        Map.at? (t.group g).vals (portKey node port) = some vals ∧
        (∀ j, j ≠ portKey node port → Map.at? (t.group g).vals j = Map.at? gr.vals j) ∧ t.mem = s.mem ∧ t.cores = s.cores ∧
        (t.group g).opened = (if gr.opened.isNone then some s.cycle else gr.opened) ∧
        (leaf = true → Map.get 0 (t.group g).counts core = count ∧ Map.get 0 (t.group g).cmds core = p.cmd)) ∧
      (∀ v0 rest acc tag1 shape1, port ∈ portsOf e → (∀ k ∈ portsOf e, k ≠ port → (Map.at? gr.vals (portKey node k)).isSome = true) →
        (portsOf e).map (fun k => if k = port then vals else Map.get [] gr.vals (portKey node k)) = v0 :: rest →
        acc = rest.foldl (fun u w => List.zipWith (combined (gcOp gr.conf)) u w) v0 →
        tag1 = Map.get 0 (Map.ins gr.tags (portKey node port) tag) (portKey node ((portsOf e).headD 0)) →
        shape1 = Map.get 0 (Map.ins gr.shapes (portKey node port) shape) (portKey node ((portsOf e).headD 0)) →
        (treeParent e ≠ treeRoot → ∃ t n q b m, exec (.reductionContribution id) s = .next t ∧ Map.at? t.net n = some q ∧
          q.dst = .slice (bits (Map.get 0 gr.tree (treeParent e)).toNat 0 8 % 128) ∧
          q.kind = .redContrib g (treeParent e) (treePport e) core 0 tag1 shape1 acc false b m ∧ t.mem = s.mem ∧ t.cores = s.cores) ∧
        (treeParent e = treeRoot →
          (∀ k ∈ (if leaf then Map.ins gr.counts core count else gr.counts), k.2 = (gcMembers gr.conf).length) →
          ∃ t, exec (.reductionContribution id) s = .next t ∧ t.mem = s.mem ∧ t.cores = s.cores ∧
            t.group g = gr.reopen ∧
            ∀ c ∈ gcMembers gr.conf,
              ∀ cmd m bts, Map.at? (if leaf then Map.ins gr.cmds core p.cmd else gr.cmds) c = some cmd → Map.at? s.cmds cmd = some m →
                bts = beatsOf (if gcFloat (gcOp gr.conf) then 0x01 else 0x09) (resultRows (cCol shape1) (cRow shape1) acc 0) →
                ∃ h : Hdr, h.tag = tag1 ∧ h.tenant = gr.owner.getD 0 ∧ h.origin = 0 ∧
                  h.etype = (if gcFloat (gcOp gr.conf) then 0x01 else 0x09) ∧
                  (∀ b ∈ bts, ∃ n q, Map.at? t.net n = some q ∧ q.dst = .core c ∧ q.cmd = cmd ∧ q.kind = .beat h b) ∧
                  (∃ n q, Map.at? t.net n = some q ∧ q.dst = .core c ∧ q.cmd = cmd ∧ q.kind = .close h bts.length false) ∧
                  (∃ n q, Map.at? t.net n = some q ∧ q.dst = .core c ∧ q.cmd = cmd ∧
                    q.kind = .redStatus g (some (redStatusWord g (gcMembers gr.conf).length)) 0 0 h.blk)) ∧
        (treeParent e = treeRoot →
          (∃ k ∈ (if leaf then Map.ins gr.counts core count else gr.counts), k.2 ≠ (gcMembers gr.conf).length) →
          ∃ t, exec (.reductionContribution id) s = .next t ∧ t.mem = s.mem ∧ t.cores = s.cores ∧ t.group g = gr.reopen ∧
            ∀ k ∈ (if leaf then Map.ins gr.cmds core p.cmd else gr.cmds), ∃ n q, Map.at? t.net n = some q ∧ q.dst = .core k.1 ∧
              q.cmd = k.2 ∧ q.kind = .redStatus g none 4 (BitVec.ofNat 64 (gcMembers gr.conf).length) 0))))) ∧
  (∀ (s : State) (g : Nat), (s.group g).missing = 0 → exec (.reductionTimeout g) s = .next s) ∧
  (∀ (s : State) (g n : Nat), (s.group g).opened = some n → gcTimeout (s.group g).conf ≠ 0 → n + gcTimeout (s.group g).conf ≤ s.cycle →
    (s.group g).cmds.length < (gcMembers (s.group g).conf).length →
    ∃ t, exec (.reductionTimeout g) s = .next t ∧ t.group g = (s.group g).reopen ∧ t.mem = s.mem ∧ t.cores = s.cores ∧
      (∀ i q nd pt c m tg sh vs bl bt, Map.at? t.net i = some q ∨ Map.at? t.sent i = some q →
        q.kind ≠ .redContrib g nd pt c m tg sh vs false bl bt) ∧
      ∀ k ∈ (s.group g).cmds, ∃ i q, Map.at? t.net i = some q ∧ q.dst = .core k.1 ∧ q.cmd = k.2 ∧
        q.kind = .redStatus g none 7 (BitVec.ofNat 64 ((gcMembers (s.group g).conf).length - (s.group g).cmds.length)) 0) ∧
  (∀ (s : State) (id g cause after : Nat) (p : Packet) (elem : Option Dword) (tval : Dword) (m : Cmd), s.flying id = some p →
    p.kind = .redStatus g elem cause tval after → Map.at? s.cmds p.cmd = some m →
    (after ∈ m.pend → exec (.reductionStatusDeliver id) s = .next s) ∧
    (∀ i rest, after ∉ m.pend → m.q6 = i :: rest → exec (.reductionStatusDeliver id) s =
      .next (((s.unsend id).modCtxOf m.core m.uid (fun x => match elem with
        | some v => x.produce i v
        | none => x.produceErr i cause tval)).settle p.cmd p.acks {})))

/-- SAC_CHECK (R275-R277, R280): a check is decided once its whole block is there. It hits where the key has an entry, neither
block of the entry reads an error, its tag is the step before, the reference has the input's type and shape, its age is below
the limit, if there is one, and the distance of R276 is not above the threshold; the entry then takes the step and is one
older, the stored output leaves for the core under one more acknowledgement of the command, and the verdict is delivered after
it. Any other check answers its verdict, an entry that reads an error being dropped. SAC_FILL (R277, R278): once both blocks are
there, a sound fill writes reference and output and lists the entry; a poisoned one drops it. SAC_VERDICT_DELIVER: a verdict is
produced at the command's element and counted once (R17, R280). -/
def Obligations.StepCacheSteps : Prop :=
  (∀ (s : State) (id sl : Nat) (p : Packet) (key step metric age : Nat) (thr : Word) (a : Blk), s.Arriving id p → p.dst = .slice sl →
    p.kind = .sacCheck key a thr metric step age true →
    ((s.slcBlk (p.acks.headD 0)).beats < a.beats → exec (.sacCheck id) s = .next s) ∧
    (a.beats ≤ (s.slcBlk (p.acks.headD 0)).beats →
      (∀ n, (n = 2 ∧ a.poison.isSome = true ∨ n = 0 ∧ a.poison = none ∧ sacFind s sl p.tenant key = none) →
        exec (.sacCheck id) s = .next ((s.unbusy p).answer id p (.verdict (BitVec.ofNat 64 n) 0 0))) ∧
      (∀ e v ref out dist, a.poison = none → sacFind s sl p.tenant key = some (e, v) →
        ref = sacRead s p.tenant (sacAddr (s.tenant p.tenant) sl e) v.refEtype v.refShape →
        out = sacRead s p.tenant (sacAddr (s.tenant p.tenant) sl e + 0x4000) v.outEtype v.outShape →
        dist = sacDistance metric a.etype (cCol a.shape) a.elems ref.1 →
        ((ref.2 = true ∨ out.2 = true) → exec (.sacCheck id) s = .next
          (({ s with sac := Map.del s.sac (sacSlot sl p.tenant e) }.unbusy p).answer id p (.verdict 2 0 0))) ∧
        (ref.2 = false → out.2 = false →
          (∀ n, (v.tag ≠ (step + 65535) % 65536 ∨ v.refEtype ≠ a.etype ∨ v.refShape ≠ a.shape) ∧ n = ageBit age v.age ∨
              (v.tag = (step + 65535) % 65536 ∧ v.refEtype = a.etype ∧ v.refShape = a.shape ∧ n = ageBit age v.age + 2 ^ 32 * dist ∧
                ((age ≠ 0 ∧ age ≤ v.age) ∨ (Num.lt (floatVal 1 dist) (floatVal 1 thr.toNat) = false ∧
                  Num.eq (floatVal 1 dist) (floatVal 1 thr.toNat) = false))) →
            exec (.sacCheck id) s = .next ((s.unbusy p).answer id p (.verdict (BitVec.ofNat 64 n) 0 0))) ∧
          (v.tag = (step + 65535) % 65536 → v.refEtype = a.etype → v.refShape = a.shape → (age = 0 ∨ v.age < age) →
            (Num.lt (floatVal 1 dist) (floatVal 1 thr.toNat) = true ∨ Num.eq (floatVal 1 dist) (floatVal 1 thr.toNat) = true) →
            ∃ t n q, exec (.sacCheck id) s = .next t ∧ t.mem = s.mem ∧ t.cores = s.cores ∧
              Map.at? t.sac (sacSlot sl p.tenant e) = some { v with tag := step, age := Min.min (v.age + 1) 0xFFFF } ∧
              Map.at? t.net n = some q ∧ q.dst = p.src ∧ q.cmd = p.cmd ∧
              q.kind = .verdict (BitVec.ofNat 64 (1 + ageBit age (Min.min (v.age + 1) 0xFFFF) + 2 ^ 32 * dist)) s.nextId
                (ceilDiv (volume v.outShape * ewidth v.outEtype) 8) ∧
              (∃ i r h n, Map.at? t.net i = some r ∧ r.dst = p.src ∧ r.cmd = p.cmd ∧ r.kind = .close h n false ∧ h.tag = v.outTag ∧
                h.etype = v.outEtype ∧ h.blk = s.nextId ∧ h.origin = replayOrigin key v.outShape ∧
                n = (beatsOf v.outEtype (storedRows v.outEtype v.outShape (replayOrigin key v.outShape) out.1)).length) ∧
              (∀ b ∈ beatsOf v.outEtype (storedRows v.outEtype v.outShape (replayOrigin key v.outShape) out.1), ∃ i r h,
                Map.at? t.net i = some r ∧ r.dst = p.src ∧ r.cmd = p.cmd ∧ r.kind = .beat h b ∧ h.blk = s.nextId) ∧
              (∀ m, Map.at? s.cmds p.cmd = some m → ∃ m', Map.at? t.cmds p.cmd = some m' ∧ m'.pend = m.pend ++ [s.nextId])))))) ∧
  (∀ (s : State) (id sl : Nat) (p : Packet) (key step k : Nat) (a b : Blk), s.Arriving id p → p.dst = .slice sl →
    p.kind = .sacFill key a b step true →
    (s.slcBlk (p.acks.headD 0)).need = some k → k ≤ (s.slcBlk (p.acks.headD 0)).beats → b.beats ≤ (s.slcBlk (p.acks.getD 1 0)).beats →
    (a.poison = none → b.poison = none → ∀ e evict, fillEntry s sl p.tenant key step = some (e, evict) →
      ∃ t, exec (.sacFill id) s = .next t ∧ Map.at? t.sac (sacSlot sl p.tenant e) =
        some { key := key, tag := step, age := 0, refEtype := a.etype, refShape := a.shape, outTag := b.tag, outEtype := b.etype, outShape := b.shape } ∧
        (∀ j, j ≠ sacSlot sl p.tenant e → Map.at? t.sac j = Map.at? s.sac j) ∧
        t.mem = (sacWrite (sacWrite (s.unbusy p) p.tenant (sacAddr (s.tenant p.tenant) sl e) a.etype a.elems) p.tenant
          (sacAddr (s.tenant p.tenant) sl e + 0x4000) b.etype b.elems).mem) ∧
    (a.poison = none → b.poison = none → fillEntry s sl p.tenant key step = none →
      ∃ t, exec (.sacFill id) s = .next t ∧ t.sac = s.sac ∧ t.mem = s.mem) ∧
    ((a.poison.isSome = true ∨ b.poison.isSome = true) → ∃ t n q, exec (.sacFill id) s = .next t ∧ t.mem = s.mem ∧
      (∀ e v, sacFind s sl p.tenant key = some (e, v) → Map.at? t.sac (sacSlot sl p.tenant e) = none) ∧
      Map.at? t.net n = some q ∧ q.dst = p.src ∧ q.cmd = p.cmd ∧
      q.kind = .ack p.seq p.acks { cause := 9, tval := BitVec.ofNat 64 ((a.poison.or b.poison).getD 0) })) ∧
  (∀ (s : State) (id : Nat) (p : Packet) (v : Dword) (after bytes i : Nat) (rest : List Nat) (m : Cmd) (x : Ctx), s.flying id = some p →
    p.kind = .verdict v after bytes →
    (Map.at? s.cmds p.cmd = some m → after ∈ m.pend → exec (.sacVerdictDeliver id) s = .next s) ∧
    (Map.at? s.cmds p.cmd = none → (Map.at? s.applied p.cmd).isSome = true → exec (.sacVerdictDeliver id) s = .next (s.unsend id)) ∧
    (Map.at? s.cmds p.cmd = some m → after ∉ m.pend → Map.at? s.applied p.cmd = none → m.q6 = i :: rest → s.ctx m.core = some x →
      m.uid = x.uid →
      ∃ t y, exec (.sacVerdictDeliver id) s = .next t ∧ t.ctx m.core = some y ∧ y.q6 = fillElem x.q6 i (some v) none ∧ t.mem = s.mem ∧
        Map.get 0 (t.tenant p.tenant).sacctr 0 = Map.get 0 (s.tenant p.tenant).sacctr 0 + 1 ∧
        Map.get 0 (t.tenant p.tenant).sacctr (if v.getLsbD 0 then 1 else 2) =
          Map.get 0 (s.tenant p.tenant).sacctr (if v.getLsbD 0 then 1 else 2) + 1 ∧
        Map.get 0 (t.tenant p.tenant).sacctr 3 = Map.get 0 (s.tenant p.tenant).sacctr 3 + (if v.getLsbD 1 then 1 else 0) ∧
        Map.get 0 (t.tenant p.tenant).sacctr 7 = Map.get 0 (s.tenant p.tenant).sacctr 7 +
          (if v.getLsbD 0 then BitVec.ofNat 64 bytes else 0) ∧
        (t.tenant p.tenant).replays = (s.tenant p.tenant).replays + (if v.getLsbD 0 then 1 else 0) ∧
        Map.get 0 (t.core m.core).ev (if v.getLsbD 0 then evSACHIT else evSACMISS) =
          Map.get 0 (s.core m.core).ev (if v.getLsbD 0 then evSACHIT else evSACMISS) + 1))

/-! ## Launches, spans, the controller (R90, R284-R297, R309-R312) -/

/-- LAUNCH_HEAD_CHECK (R285, R288): the head of a queue is read and checked once; an error ends the launch in state 2 with
its cause and the record's address; a sound head whose prerequisites have completed becomes eligible; a failed
prerequisite ends it in state 3. -/
def Obligations.LaunchHead : Prop :=
  ∀ (s : State) (k q lid : Nat) (rest : List Nat) (l : Launch), s.devstat = 4 → s.powered = true →
    Map.get [] (s.tenant k).queues q = lid :: rest → s.launch k lid = some l →
    (∀ cause, l.checked = false → checkLaunch s k l = .error cause → ∃ t m, exec (.launchHeadCheck k q) s = .next t ∧
      t.launch k lid = some m ∧ m.result = some (2, cause, BitVec.ofNat 64 l.lnr) ∧ lid ∉ Map.get [] (t.tenant k).queues q ∧ t.mem = s.mem) ∧
    (∀ m, l.checked = false → checkLaunch s k l = .ok m → m.checked = true → m.prereqs = [] → m.pos.isSome = true → m.elig = none →
      ∃ t, exec (.launchHeadCheck k q) s = .next t ∧ t.launch k lid = some { m with elig := some s.cycle } ∧
        Map.get [] (t.tenant k).queues q = lid :: rest ∧ t.cores = s.cores ∧ t.mem = s.mem) ∧
    (l.checked = true → l.prereqs.any (prereqFailed (s.tenant k)) = true → ∃ t m, exec (.launchHeadCheck k q) s = .next t ∧
      t.launch k lid = some m ∧ m.result = some (3, 0, 0) ∧ lid ∉ Map.get [] (t.tenant k).queues q)

/-- SPAN_HANDOFF (R90, R289, R290): a hand-off that is due starts the span, its context as R90 gives it, and every other
core's span stays; a gang whose spans all fit starts on all of its cores, with barrier b0 configured for them. Memory is
written only for a core lent by a suspended span, whose units are claimed for it before they spill (R267, R312). An index above
65,535 stands modulo 65,536, the model's choice (notes/assumptions/110). -/
def Obligations.SpanHandoff : Prop :=
  ∀ (s : State) (c due : Nat) (v : Served), s.walkError = none → s.handoff = some (v, c, due) → due ≤ s.cycle →
    (∀ p, v.l.gang = false → v.l.pos = some p → ∃ t y, exec (.spanHandoff c) s = .next t ∧ t.ctx c = some y ∧
      ((s.core c).sus = none → t.mem = s.mem) ∧
      (y.pc = v.l.entry ∧ y.tenant = v.tenant ∧ y.lid = v.lid ∧ y.spanid = v.l.nextSpan ∧ y.cls = v.l.cls ∧ y.lnr = v.l.lnr) ∧
      (y.n = [] ∧ y.p = [] ∧ y.rq = [] ∧ y.lc = [] ∧ y.shapes = [] ∧ y.tok = [] ∧ y.q6 = [] ∧ y.qs = [] ∧ y.fly = [] ∧ y.pstat = 0 ∧
        y.rnd = 0 ∧ y.ftz = 0 ∧ y.epc = 0 ∧ y.hnd = [(0, 0)] ∧ y.srctr = 0) ∧
      (∀ k, k ≠ c → t.ctx k = s.ctx k) ∧ (t.tenant v.tenant).rrobin = v.queue) ∧
    (∀ cs, v.l.gang = true → s.gangCores v = some cs → peerMissing v.l (cs.map (fun p => p.1)) = false → ∃ t, exec (.spanHandoff c) s = .next t ∧
      (∀ p ∈ cs, ∃ y, t.ctx p.1 = some y ∧ y.pc = v.l.entry ∧ y.tenant = v.tenant ∧ y.lid = v.lid ∧ y.gang = true ∧ y.n = []) ∧
      (t.tenant v.tenant).b0gang = some v.lid ∧ (t.tenant v.tenant).bar 0 = { parts := partBits (cs.map (fun p => p.1)), conf := true } ∧
      ((∀ p ∈ cs, (s.core p.1).sus = none) → t.mem = s.mem))

/-- LAUNCH_COMPLETE (R288, R292): with every span ended, every command finished and every host copy recalled, the record is
written at the tail of the completion ring, and the launch has completed with its outcome. -/
def Obligations.LaunchComplete : Prop :=
  ∀ (s : State) (k lid a : Nat) (l : Launch), s.launch k lid = some l → l.written = false → l.completed = false → s.powered = true →
    s.launchOver k lid l = true → l.lines = [] → (∀ q, lid ∉ Map.get [] (s.tenant k).queues q) → cqFull (s.tenant k) l.queue = false →
    a = (Map.get 0 (s.tenant k).cqbase l.queue).toNat / 4096 * 4096 + 16 * (Map.get 0 (s.tenant k).cqtail l.queue % cqEntries (s.tenant k) l.queue) →
    ∃ t m, exec (.launchComplete k lid) s = .next t ∧ t.launch k lid = some m ∧ m.completed = true ∧ m.written = true ∧
      m.result = some l.outcome ∧ Map.at? t.hostMem a = some (recordW0 lid l.outcome.1 l.outcome.2.1) ∧
      Map.at? t.hostMem (a + 8) = some l.outcome.2.2 ∧
      Map.get 0 (t.tenant k).cqtail l.queue = (Map.get 0 (s.tenant k).cqtail l.queue + 1) % 2 ^ 32 ∧ t.mem = s.mem

/-- CONTROLLER_PERIOD (R294, R297): at its cycle every active tenant's deficit gains its share and loses its use, any other
listed tenant's is 0, the runs and the forecasts are counted up, and no span starts, ends or moves. -/
def Obligations.ControllerPeriod : Prop :=
  ∀ (s : State), s.powered = true → Config.period * (s.ctlRuns + 1) ≤ s.cycle → ∃ t, exec .controllerPeriod s = .next t ∧
    t.ctlRuns = s.ctlRuns + 1 ∧ t.mem = s.mem ∧ t.cycle = s.cycle ∧ (∀ c, t.ctx c = s.ctx c) ∧
    (∀ c, (t.core c).sus = (s.core c).sus) ∧ (∀ d < 8, (Map.at? t.forecast d).isSome = true) ∧
    (∀ k, (Map.at? s.tenants k).isSome = true → (t.tenant k).used = 0 ∧ (t.tenant k).deficit =
      if k ∈ s.active then newDeficit (s.tenant k).deficit (s.weightOf s.active k) (s.weightSum s.active) (s.tenant k).used else 0)

/-- IMMEDIATE_SAVE and SPAN_RESUME (R295, R309-R312): a quiescing span whose started words have completed is suspended
with its context, and the core lent; a suspended span that nothing above it needs is resident again with it, reloaded from its
slot (what of a context the image does not hold is the model's choice, notes/assumptions/42, 46), the numbers of its core's
sequencers having gone on (R219). That its clocks stand still while it is suspended, its span's and its stall's, is
the model's choice (notes/assumptions/57); so is what an urgent span of its own tenant kept beside it (80). -/
def Obligations.SaveResume : Prop :=
  ∀ (s : State) (c : Nat),
    (∀ x q, s.ctx c = some x → (s.core c).quiesce = some q → s.powered = true → x.settled = true → ∃ t, exec (.immediateSave c) s = .next t ∧
      t.ctx c = none ∧ (t.core c).sus = some (x.stopped s.cycle (s.core c).accInt) ∧ (t.core c).quiesce = none ∧
      ((t.core c).lent = some q ∨ (t.core c).lent = none) ∧ (∀ k, k ≠ c → t.ctx k = s.ctx k) ∧
      Map.get 0 (t.core c).ev evPREEMPT = Map.get 0 (s.core c).ev evPREEMPT + 1 ∧
      (t.tenant x.tenant).preempts = (s.tenant x.tenant).preempts + 1) ∧
    (∀ y, (s.core c).sus = some y → y.gang = false → s.powered = true → s.mayResume c = true → ∃ t, exec (.spanResume c) s = .next t ∧
      t.ctx c = some { s.reload c y with
        stall := y.stall.turn s.cycle, started := s.cycle - y.started, kinds := []
        seqrs := (s.reload c y).seqrs.map (fun q => (q.1, { q.2 with count := Max.max q.2.count (Map.get {} (s.core c).seqs q.1).count })) } ∧
      (t.core c).sus = none ∧ (t.core c).accInt = y.kinds ∧ (∀ k, k ≠ c → t.core k = s.core k) ∧ t.tenants = s.tenants ∧
      ((s.core c).side = [] → t.mem = s.mem))

/-! ## Registers of a virtual function (R287, R293, R322-R328) -/

/-- QBELL_WRITE, QSTAT_CLEAR, CQIDX_HEAD_WRITE, OBOX_READ, IBOX_WRITE, IBOXOVF_CLEAR (R287, R293, R322, R327): a word for a
core goes to the mailbox of the tenant's context there, or is dropped with the core's overflow bit where it is full or there
is none (the model's choice for the latter, notes/assumptions/59). MCGRP_WRITE, RGSEL_WRITE, RGCOMMIT_WRITE, SPDATA_STORE
(R261, R324-R326): a group dword with a bit beyond its members is refused with `qstat` bit 63; a commit answers in `rgstat`
by the first of its checks that fails, ownership, ranges, tree, an open round, and puts the staged group in force only where
it is 0 (the order and the range checks are the model's reading, notes/assumptions/62); the last dword of a row stores all of
it and the selected row goes on by one. A host's read gives what the register holds, and 0 where none is assigned or the
access is not of an aligned 64-bit word (R322, R327). -/
def Obligations.FunctionRegisters : Prop :=
  (∀ (s : State) (k : Nat) (v : BitVec 64), s.mmioUp = true →
    (∀ q, q < 16 → s.ready k = true → queueFull (s.tenant k) q = false → exec (.qbellWrite k q v) s = .next (s.enqueueLaunch k q v.toNat)) ∧
    (∀ q, q < 16 → s.ready k = true → queueFull (s.tenant k) q = true → exec (.qbellWrite k q v) s =
      .next ((s.modTenant k (fun w => { w with qstat := w.qstat ||| (1#64 <<< q) })).msixRaise k q)) ∧
    (∀ q, q < 16 → s.ready k = false → exec (.qbellWrite k q v) s =
      .next (s.modTenant k (fun w => { w with qstat := w.qstat ||| (1#64 <<< 17) }))) ∧
    exec (.qstatClear k v) s = .next (s.modTenant k (fun w => { w with qstat := w.qstat &&& ~~~ (v &&& 0x800000000003FFFF#64) })) ∧
    (∀ q, q < 16 → (∀ p ∈ (s.tenant k).launches, p.2.queue = q → p.2.completed = true → p.2.written = true) →
      exec (.cqidxHeadWrite k q v) s = .next (s.modTenant k (fun w => { w with cqhead := Map.put 0 w.cqhead q (v.toNat / 2 ^ 32) }))) ∧
    exec (.oboxRead k) s = .next { s.modTenant k (fun w => { w with obox := w.obox.drop 1 }) with
      hostRead := dwordBytes ((s.tenant k).obox.headD 0) } ∧
    (∀ c x, c < 384 → s.ready k = true → s.ctxFor c k = some x → ((s.core c).box x).length < 16 →
      exec (.iboxWrite k c v) s = .next (s.modCore c (fun r => r.setBox x (r.box x ++ [v])))) ∧
    (∀ c, c < 384 → s.ready k = true → (∀ x, s.ctxFor c k = some x → 16 ≤ ((s.core c).box x).length) →
      exec (.iboxWrite k c v) s = .next (s.modTenant k (fun w => { w with iboxovf := w.iboxovf ||| (1#384 <<< c) }))) ∧
    (∀ i, i < 6 → exec (.iboxovfClear k i v) s = .next (s.modTenant k (fun w => { w with iboxovf := w.iboxovf &&& ~~~ (v.setWidth 384 <<< (64 * i)) })))) ∧
  (∀ (s : State) (k : Nat) (v : BitVec 64), s.mmioUp = true →
    (∀ g i, g < 256 → i < 8 → ¬ (i = 6 ∧ v.toNat / 2 ≠ 0) → ¬ (i = 7 ∧ v ≠ 0) → ∃ t, exec (.mcgrpWrite k g i v) s = .next t ∧
      Rec512.w (Map.get 0 (t.tenant k).mcgrp g) i = v ∧
      (∀ j, j < 8 → j ≠ i → Rec512.w (Map.get 0 (t.tenant k).mcgrp g) j = Rec512.w (Map.get 0 (s.tenant k).mcgrp g) j) ∧
      (∀ j, j ≠ g → Map.get 0 (t.tenant k).mcgrp j = Map.get 0 (s.tenant k).mcgrp j) ∧ t.cores = s.cores ∧ t.mem = s.mem) ∧
    (∀ g i, g < 256 → (i = 6 ∧ v.toNat / 2 ≠ 0) ∨ (i = 7 ∧ v ≠ 0) → exec (.mcgrpWrite k g i v) s =
      .next (s.modTenant k (fun w => { w with qstat := w.qstat ||| (1#64 <<< 63) }))) ∧
    exec (.rgselWrite k v) s = .next (s.modTenant k (fun w => { w with rgsel := v.toNat % 64, rgstat := 5 })) ∧
    (∀ g gr r tree live att bad shape, g = (s.tenant k).rgsel → gr = s.group g → r = (s.tenant k).stagedRec g →
      tree = (List.range (gcNodes r)).map ((s.tenant k).stagedNode g) → live = gcMembers r →
      att = (List.range live.length).map ((s.tenant k).stagedAttach g) → bad = groupRange r tree att → shape = groupTree tree att →
      ∃ t, exec (.rgcommitWrite k v) s = .next t ∧
        (t.tenant k).rgstat = (if gr.owner ≠ some k then 1 else if bad then 2 else if shape then 3
          else if gr.opened.isSome || !gr.vals.isEmpty then 4 else 0) ∧
        ((t.tenant k).rgstat ≠ 0 → t.group g = gr) ∧
        ((t.tenant k).rgstat = 0 → t.group g = { gr with conf := r, tree := tree.mapIdx (fun i e => (i, e)), attach := live.zip att }) ∧
        (∀ j, j ≠ g → t.group j = s.group j) ∧ t.cores = s.cores ∧ t.mem = s.mem) ∧
    (∀ c row x, bits (s.tenant k).spsel.toNat 0 9 = c → c < 384 → bits (s.tenant k).spsel.toNat 16 13 = row → row < 6136 →
      s.ctx c = some x → x.tenant = k → (s.core c).sus = none → Map.at? (s.core c).owner (spadUnit row) = some x.me →
      ∃ t, exec (.spdataStore k v) s = .next t ∧ (t.core c).spadRow row = stagedRow (s.tenant k).spdata v ∧
        (∀ r, r ≠ row → (t.core c).spadRow r = (s.core c).spadRow r) ∧ row ∉ (t.core c).spadPoison ∧
        bits (t.tenant k).spsel.toNat 16 13 = (row + 1) % 2 ^ 13 ∧ t.ctx c = s.ctx c ∧ t.mem = s.mem)) ∧
  (∀ (s : State) (rest : List Action) (k off : Nat), s.mmioUp = true → k < 32 → off < 0x10000 → s.agenda = .vfRead k off 8 :: rest →
    (off ≠ 0x300 → (off < 0x2000 ∨ 0x2090 ≤ off ∨ off % 8 ≠ 0) →
      step s = .next { s with agenda := rest, hostRead := dwordBytes (s.vfReg k off) }) ∧
    (off = 0x80 → s.vfReg k off = (s.tenant k).qstat) ∧ (off = 0x8010 → s.vfReg k off = BitVec.ofNat 64 (s.tenant k).rgstat) ∧
    (off % 8 ≠ 0 ∨ 0xB000 ≤ off → s.vfReg k off = 0)) ∧
  (∀ (s : State) (rest : List Action) (k off n : Nat), s.mmioUp = true → k < 32 → off < 0x10000 → n ≠ 8 →
    s.agenda = .vfRead k off n :: rest → step s = .next { s with agenda := rest, hostRead := List.replicate n 0 })

/-- VF_RESET (R316): no core, command or packet of the tenant is left, of its launches only those that have completed and
whose records wait for room, and no other tenant's context or values change; memory is written only where beats that have
arrived still wait to be written. -/
def Obligations.VfReset : Prop :=
  ∀ (s : State) (k : Nat), s.powered = true → k < 32 → ∃ t, exec (.vfReset k) s = .next t ∧
    (∀ c, t.ctx c = (s.ctx c).filter (fun x => x.tenant ≠ k)) ∧
    (∀ c, (t.core c).sus = (s.core c).sus.filter (fun x => x.tenant ≠ k)) ∧
    (∀ m ∈ t.cmds, m.2.tenant ≠ k) ∧ (∀ p ∈ t.net, p.2.tenant ≠ k) ∧ (∀ j, j ≠ k → t.tenant j = s.tenant j) ∧
    ((∀ p ∈ s.cores, ∀ b ∈ p.2.blks, b.2.hdr.tenant = k → b.2.parts = []) → t.mem = s.mem) ∧
    (t.tenant k).queues = [] ∧ (t.tenant k).obox = [] ∧ (t.tenant k).gmaps = [] ∧ (t.tenant k).bars = [] ∧
    (∀ p ∈ (t.tenant k).launches, p.2.completed = true ∧ p.2.written = false)

/-! ## Management and the host (R260, R273, R319-R321, R328, R336) -/

/-- VF_ENABLE, RATE_LIMIT_CONFIG, SAC_QUOTA_WRITE, REGISTER_WRITE, MSIX_UNMASK: a management write takes effect where it is
allowed, and the pages of the save region are pinned as the function is enabled (R306; which pages, the model's reading,
notes/assumptions/45); a misaligned or narrow access to a tenant's page sets `qstat` bit 63 and nothing else. -/
def Obligations.Management : Prop :=
  ∀ (s : State) (k : Nat) (v : BitVec 64), s.managed = true → k < 32 →
    ((s.tenant k).enabled = false → configOk s k = true → ∃ t, exec (.vfEnable k) s = .next t ∧ (t.tenant k).enabled = true ∧
      (∀ d b, Map.at? (s.tenant k).bucket d = some b → Map.at? (t.tenant k).bucket d = some (b.1, b.2.1, ((16 * b.2.1 : Nat) : Int), s.cycle)) ∧
      (∃ ps, pinSave s k = some ps ∧ (t.tenant k).savePins = ps) ∧
      (∀ j, j ≠ k → t.tenant j = s.tenant j) ∧ t.cores = s.cores ∧ t.mem = s.mem) ∧
    (∀ d, d < 8 → ((s.tenant k).bucketOf d).1 = 0 → bits v.toNat 0 32 ≠ 0 → ∃ t, exec (.rateLimitConfig k d v) s = .next t ∧
      (t.tenant k).bucketOf d = (bits v.toNat 0 32, bits v.toNat 32 32, ((16 * bits v.toNat 32 32 : Nat) : Int), s.cycle) ∧
      (∀ j, j ≠ k → t.tenant j = s.tenant j) ∧ t.cores = s.cores ∧ t.mem = s.mem) ∧
    (∀ m, bits v.toNat 0 13 ≤ 4096 → s.quotaOthers k + bits v.toNat 0 13 ≤ 4096 →
      pinRegion s k (v.toNat / 65536 * 65536) (64 * bits v.toNat 0 13) = some m → ∃ t, exec (.sacQuotaWrite k v) s = .next t ∧
        (t.tenant k).sacQuota = bits v.toNat 0 13 ∧ (t.tenant k).sacBase = v.toNat / 65536 * 65536 ∧ (∀ e ∈ t.sac, e.1 / 4096 % 32 ≠ k) ∧
        (∀ j, j ≠ k → t.tenant j = s.tenant j) ∧ t.mem = s.mem) ∧
    (∀ w f, managementWrite w = some (k, f) → (s.tenant k).enabled = false → exec (.registerWrite w) s = .next (s.modTenant k f)) ∧
    (∀ off width, off < 0x10000 → (width ≠ 8 ∨ off % 8 ≠ 0) → exec (.registerWrite (.vf k off width v)) s =
      .next (s.modTenant k (fun w => { w with qstat := w.qstat ||| (1#64 <<< 63) }))) ∧
    (∀ c, c < 384 → ∃ t, exec (.registerWrite (.vf k (0x3000 + 8 * c) 8 v)) s = .next t ∧ Map.get 0 (t.core c).tvec k = v.toNat / 4 * 4 ∧
      (∀ j, j ≠ c → t.core j = s.core j) ∧ t.tenants = s.tenants ∧ t.mem = s.mem) ∧
    (∀ n, n < 64 → ∃ t, exec (.msixUnmask k n) s = .next t ∧ (t.tenant k).msixMask.getLsbD n = false ∧ (t.tenant k).msixPend.getLsbD n = false ∧
      t.msix = (if (s.tenant k).msixPend.getLsbD n then (k, n) :: s.msix else s.msix) ∧ t.mem = s.mem)

/-- HOST_MEM_READ, HOST_MEM_WRITE, HOST_RECALL_RESPONSE (R258, R318, R319, R331): the host reads device memory, its lines
tracked; it writes bytes in place; an address beyond device memory faults; a recalled line is tracked no more. That a request of it that
came in as a packet leaves the fabric when the access acts, the clauses on `t.net`, is the model's choice (notes/assumptions/97):
R258 gives such requests their class alone. -/
def Obligations.HostAccess : Prop :=
  ∀ (s : State) (pa : Nat), s.powered = true → (s.devstat = 3 ∨ s.devstat = 4) →
    (∀ n, pa + n ≤ 0xC000000000 → ∃ t, exec (.hostMemRead pa n) s = .next t ∧ t.hostRead = s.readBytes pa n ∧
      (∀ l ∈ linesIn pa n, l ∈ t.snoop) ∧ t.mem = s.mem ∧ t.cores = s.cores ∧
      t.net = (match s.net.find? (fun p => decide (p.2.kind = .hostRead pa n) && decide (p.2.st = PSt.flying)) with
        | some p => Map.del s.net p.1
        | none => s.net)) ∧
    (∀ bs, pa + bs.length ≤ 0xC000000000 → ∃ t, exec (.hostMemWrite pa bs) s = .next t ∧
      (∀ i (h : i < bs.length), t.byte (pa + i) = bs[i]) ∧ (∀ a, (a < pa ∨ pa + bs.length ≤ a) → t.byte a = s.byte a) ∧
      t.poisoned pa bs.length = false ∧ t.cores = s.cores ∧
      t.net = (match s.net.find? (fun p => decide (p.2.kind = .hostWrite pa bs) && decide (p.2.st = PSt.flying)) with
        | some p => Map.del s.net p.1
        | none => s.net)) ∧
    (∀ n, 0xC000000000 < pa + n → exec (.hostMemRead pa n) s = .fault .hostAddress) ∧
    (∀ bs, 0xC000000000 < pa + bs.length → exec (.hostMemWrite pa bs) s = .fault .hostAddress) ∧
    (pa ∈ s.recalls → ∃ t, exec (.hostRecallResponse pa) s = .next t ∧ pa ∉ t.snoop ∧ pa ∉ t.recalls ∧ t.mem = s.mem ∧
      (∀ c x, t.ctx c = some x → ∀ q ∈ x.seqrs, ∀ e ∈ q.2.lines, e.2 ≠ pa) ∧
      ∀ c, ∀ q ∈ (t.core c).seqs, ∀ e ∈ q.2.lines, e.2 ≠ pa)

/-! ## Links, bring-up, power, logs (R266, R330-R334) -/

/-- FALARD_FLIT_REPLAY, FALARD_RETRAIN, FALARD_RETRAIN_DONE, FALARD_PORT_FAIL (R266, R330): a failure is logged in the current
run of 10^6 flits, and after more than 16 of them the port retrains; then what has left and is not acknowledged goes over it again; a port
that fails is down. That a packet is one flit is the model's choice (notes/assumptions/67). -/
def Obligations.PortSteps : Prop :=
  ∀ (s : State) (p : Nat) (v : Port), v = s.port p → p < 16 → s.powered = true →
    (v.up = true → exec (.falardFlitReplay p) s = .next { s with ports := Map.ins s.ports p { v with fails := v.fails + 1, replays := v.replays + 1 } }) ∧
    (s.devstat = 4 → v.training = false → (v.up = false ∨ 16 < v.fails) → ∃ t, exec (.falardRetrain p) s = .next t ∧
      t.port p = { v with training := true, flits := 0, fails := 0 } ∧ t.mem = s.mem ∧ t.cores = s.cores) ∧
    (v.training = true → ∃ t, exec (.falardRetrainDone p true) s = .next t ∧
      t.port p = { v with training := false, up := true, flits := 0, fails := 0 } ∧ t.mem = s.mem ∧ t.cores = s.cores ∧
      (∀ k q d, (k, q) ∈ s.sent → s.staying k = false → q.device = some d → p ∈ entryPorts (s.endpoint q.tenant d) →
        ∃ n, Map.at? t.net n = some { q with st := .flying, sentAt := s.cycle })) ∧
    (v.training = true → ∃ t, exec (.falardRetrainDone p false) s = .next t ∧ (t.port p).up = false ∧ (t.port p).training = false ∧ t.mem = s.mem) ∧
    (∃ t, exec (.falardPortFail p) s = .next t ∧ (t.port p).up = false ∧ t.mem = s.mem ∧ ∀ j, j ≠ p → t.port j = s.port j)

/-- FIRMWARE_LOAD_DONE, HBM_TRAINING_DONE, FALARD_TRAINING_DONE, DEVICE_RESET (R331): bring-up goes state by state, or ends
in state 7; a reset goes back to state 1 with no core holding a span. -/
def Obligations.BringUp : Prop :=
  ∀ (s : State), s.powered = true →
    (s.devstat = 1 → exec (.firmwareLoadDone true) s = .next { s with devstat := 2 }) ∧
    (s.devstat = 1 → ∃ t, exec (.firmwareLoadDone false) s = .next t ∧ t.devstat = 7 ∧ t.mem = s.mem) ∧
    (s.devstat = 2 → exec (.hbmTrainingDone true) s = .next { s with devstat := 3 }) ∧
    (s.devstat = 2 → ∃ t, exec (.hbmTrainingDone false) s = .next t ∧ t.devstat = 7 ∧ t.mem = s.mem) ∧
    (∀ up, s.devstat = 3 → ∃ t, exec (.falardTrainingDone up) s = .next t ∧ t.devstat = 4 ∧ (∀ p < 16, (t.port p).up = up.getLsbD p) ∧
      t.mem = s.mem ∧ t.cores = s.cores) ∧
    (∃ t, exec .deviceReset s = .next t ∧ t.devstat = 1 ∧ t.powered = true ∧ t.cycle = 0 ∧ (∀ c, t.core c = {}) ∧ t.net = [] ∧ t.cmds = [] ∧
      t.mem = s.mem ∧ ∀ k, (t.tenant k).enabled = false)

/-- POWER_LIMIT_STEP, THERMAL_THROTTLE, SUPPLY_DROOP, COUNTER_FLUSH, LIFETIME_LOG_UPDATE, ORDERLY_POWER_OFF,
ABRUPT_POWER_LOSS, THERMAL_SHUTDOWN (R332-R334). -/
def Obligations.PowerSteps : Prop :=
  ∀ (s : State), s.powered = true →
    (∀ w, s.powerLimit < w → exec (.powerLimitStep w) s = .next { s with clockSteps := s.clockSteps + 1 }) ∧
    (∀ d n, d < 9 → 105 ≤ n → ∃ t, exec (.thermalThrottle d n) s = .next t ∧ t.clockSteps = s.clockSteps + 1 ∧ d ∈ t.hotDies ∧ t.cores = s.cores) ∧
    (∀ d mv, d < 8 → ∃ t, exec (.supplyDroop d mv) s = .next t ∧ Map.get 0 t.lifeLog (logDroop d (Min.min (mv / 10) 15)) =
      Min.min (Map.get 0 s.lifeLog (logDroop d (Min.min (mv / 10) 15)) + 1) (2 ^ 32 - 1) ∧ t.cores = s.cores ∧ t.mem = s.mem) ∧
    (∃ t, exec .counterFlush s = .next t ∧ (∀ k, (t.tenant k).usageNv = (s.tenant k).usage) ∧ t.cores = s.cores ∧ t.mem = s.mem) ∧
    (∀ temps w, ∃ t, exec (.lifetimeLogUpdate temps w) s = .next t ∧ t.nvLog = t.lifeLog ∧ t.cores = s.cores ∧ t.mem = s.mem ∧
      Map.get 0 t.lifeLog (logPower (Min.min (w / 200) 15)) = Min.min (Map.get 0 s.lifeLog (logPower (Min.min (w / 200) 15)) + 10) (2 ^ 32 - 1)) ∧
    (∃ t, exec .orderlyPowerOff s = .next t ∧ t.powered = false ∧ t.lifeLog = s.lifeLog ∧ (∀ k, (t.tenant k).usage = (s.tenant k).usage) ∧
      ∀ c, t.ctx c = none) ∧
    (∃ t, exec .abruptPowerLoss s = .next t ∧ t.powered = false ∧ (∀ k < 32, (t.tenant k).usage = (s.tenant k).usageNv ∧ (t.tenant k).gap = true) ∧
      ∀ c, t.ctx c = none) ∧
    (∀ n flow, (115 ≤ n ∨ flow < 1000) → ∃ t, exec (.thermalShutdown n flow) s = .next t ∧ t.powered = false ∧
      (∀ k < 32, (t.tenant k).gap = true) ∧ ∀ c, t.ctx c = none)

/-- GLOBAL_MAP_INSTALL_ARRIVE, SAC_INVALIDATION_ARRIVE, CNTSNAP_REQUEST_ARRIVE (R186, R281, R315, R333): a slice takes the map,
or lets it go, the last one with the pinned pages and every core's copy; it drops the tenant's entries; the record is written
and acknowledged, the tenant's snapshot number going on and no counter falling. -/
def Obligations.Distribution : Prop :=
  ∀ (s : State) (id sl : Nat) (p : Packet), s.Arriving id p →
    (∀ g, p.kind = .gmapIns g → p.dst = .slice sl → ∃ t, exec (.globalMapInstallArrive id) s = .next t ∧
      sl ∈ Map.get [] (t.tenant p.tenant).gslices (gTag g) ∧ (t.tenant p.tenant).gmaps = (s.tenant p.tenant).gmaps ∧ t.mem = s.mem ∧ t.cores = s.cores) ∧
    (∀ tag, p.kind = .gmapDel tag → p.dst = .slice sl → ∃ t, exec (.globalMapInstallArrive id) s = .next t ∧
      t.gmapAt p.tenant tag sl = none ∧ t.mem = s.mem ∧ (∀ c, ∃ m, t.core c = { s.core c with gcache := m }) ∧
      ((∀ k ∈ Map.get [] (s.tenant p.tenant).gslices tag, k = sl) →
        (t.tenant p.tenant).gmaps = Map.del (s.tenant p.tenant).gmaps tag ∧ Map.at? (t.tenant p.tenant).pins tag = none ∧
        ∀ c, Map.at? (Map.get [] (t.core c).gcache p.tenant) tag = none)) ∧
    (p.kind = .sacInv → p.dst = .slice sl → ∃ t, exec (.sacInvalidationArrive id) s = .next t ∧
      t.sac = s.sac.filter (fun e => e.1 / 4096 ≠ sl * 32 + p.tenant) ∧ t.mem = s.mem ∧ t.cores = s.cores ∧ t.tenants = s.tenants) ∧
    (∀ pa, p.kind = .cntsnap pa 0 → p.dst = .io → ∃ t, exec (.cntsnapRequestArrive id) s = .next t ∧
      (∀ i (h : i < (snapRecord s p.tenant).length), i < 320 → t.byte (pa + i) = (snapRecord s p.tenant)[i]) ∧
      (∀ a, (a < pa ∨ pa + 320 ≤ a) → t.byte a = s.byte a) ∧ (t.tenant p.tenant).snaps = (s.tenant p.tenant).snaps + 1 ∧
      (t.tenant p.tenant).gap = false ∧ t.cores = s.cores ∧
      ∀ k, (Map.get 0 (s.tenant p.tenant).usage k).toNat ≤ (Map.get 0 (t.tenant p.tenant).usage k).toNat)

/-! ## Rules stated whole -/

/-- R95: the four predicate words over all 128 bits, p0 reading as all ones, in every field; their words. -/
def Obligations.PredicateLogic : Prop :=
  (∀ d a b : BitVec 7,
    decode (0x06800000#32 ||| (d.setWidth 32 <<< 16) ||| (a.setWidth 32 <<< 9) ||| (b.setWidth 32 <<< 2)) = .ok (.pand d a b) ∧
    decode (0x06800001#32 ||| (d.setWidth 32 <<< 16) ||| (a.setWidth 32 <<< 9) ||| (b.setWidth 32 <<< 2)) = .ok (.por d a b) ∧
    decode (0x06800002#32 ||| (d.setWidth 32 <<< 16) ||| (a.setWidth 32 <<< 9) ||| (b.setWidth 32 <<< 2)) = .ok (.pxor d a b) ∧
    decode (0x06800003#32 ||| (d.setWidth 32 <<< 16) ||| (a.setWidth 32 <<< 9) ||| (b.setWidth 32 <<< 2)) = .ok (.pandn d a b)) ∧
  ∀ (s : State) (x : Ctx) (d a b : BitVec 7), Idle s x → x.pred 0 = BitVec.allOnes 128 ∧
    (∃ t y, exec (.pand d a b) s = .next t ∧ t.ctx s.cur = some y ∧
      ∀ k, y.pred k = if k = d.toNat ∧ k ≠ 0 then x.pred a.toNat &&& x.pred b.toNat else x.pred k) ∧
    (∃ t y, exec (.por d a b) s = .next t ∧ t.ctx s.cur = some y ∧
      ∀ k, y.pred k = if k = d.toNat ∧ k ≠ 0 then x.pred a.toNat ||| x.pred b.toNat else x.pred k) ∧
    (∃ t y, exec (.pxor d a b) s = .next t ∧ t.ctx s.cur = some y ∧
      ∀ k, y.pred k = if k = d.toNat ∧ k ≠ 0 then x.pred a.toNat ^^^ x.pred b.toNat else x.pred k) ∧
    (∃ t y, exec (.pandn d a b) s = .next t ∧ t.ctx s.cur = some y ∧
      ∀ k, y.pred k = if k = d.toNat ∧ k ≠ 0 then x.pred a.toNat &&& ~~~ x.pred b.toNat else x.pred k) ∧
    (∃ t y, exec (.pandn d 0 a) s = .next t ∧ t.ctx s.cur = some y ∧ (d ≠ 0 → y.pred d.toNat = ~~~ x.pred a.toNat))

/-- R96: `csel` gives a or b by bit 0 of the predicate, reads both operands, and pops a port named by either. -/
def Obligations.SelectWord : Prop :=
  (∀ d a b : BitVec 6, ∀ p : BitVec 5, destOk d = true →
    decode (0x07000000#32 ||| (d.setWidth 32 <<< 17) ||| (a.setWidth 32 <<< 11) ||| (b.setWidth 32 <<< 5) ||| p.setWidth 32) = .ok (.csel d a b p)) ∧
  ∀ (s : State) (x : Ctx) (d a b : BitVec 6) (p : BitVec 5) (vals : List Dword) (pops : List Nat), Idle s x →
    readAll s s.cur x [a.toNat, b.toNat] [] [] = .ok vals pops → DestOk s x pops d.toNat →
    (∀ k, 48 ≤ k → k ≤ 55 → (k = a.toNat ∨ k = b.toNat) → k ∈ pops) ∧
    ∃ v, v = (if (x.pred p.toNat).getLsbD 0 then vals.getD 0 0 else vals.getD 1 0) ∧
      exec (.csel d a b p) s = .next (((s.popped x pops).modCtx s.cur (fun y => (y.result d.toNat v).past x.stochastic)).outbox
        d.toNat x.tenant v)

/-- R151: `mclr` sets every element of the accumulator's selected rows to 0 and leaves its kind; no other row changes. -/
def Obligations.ClearAccumulator : Prop :=
  (∀ c : BitVec 2, decode (0x46000000#32 ||| (c.setWidth 32 <<< 22)) = .ok (.mclr c)) ∧
  ∀ (s u : State) (x : Ctx) (c : BitVec 2) (w : QWord), Idle s x →
    w = { mkWord x (.mclr c) { eng := .m } [] with units := ((selRows w 128).map (accUnit c.toNat)).dedup } →
    u = touchUnits (s.entered x { eng := .m } w []) s.cur x.me w.units →
    ∃ t, exec (.mclr c) s = .next t ∧ (t.core s.cur).accInt = (u.core s.cur).accInt ∧
      (∀ r, r < 128 → (maskOf x x.grp.pfx).getLsbD r = true → (t.core s.cur).accRow c.toNat r = 0) ∧
      (∀ a r, r < 128 → (a ≠ c.toNat ∨ (maskOf x x.grp.pfx).getLsbD r = false) → (t.core s.cur).accRow a r = (u.core s.cur).accRow a r)

/-- The management values at reset and after a device reset, and the refused enable (R336). When an enable is refused, and from
which bring-up state management writes act, is the model's reading (notes/assumptions/61), and so are the pages of the save region (45). -/
def Obligations.ManagementValues : Prop :=
  (∀ (s : State) (k : Nat), (s = State.reset ∨ ∃ r, exec .deviceReset r = .next s) → k < 32 → ∃ v, v = s.tenant k ∧
    v.weight = 1 ∧ (∀ d < 8, v.floorOf d = 0 ∧ v.capOf d = 48 ∧ (v.bucketOf d).1 = 0 ∧ (v.bucketOf d).2.1 = 0) ∧
    (∀ q < 16, Map.get 3 v.qcap q = 3) ∧ v.scap = 5 ∧ v.qmax = 2048 ∧ v.windows = [] ∧ v.ptbase = 0 ∧ v.tenctl = 0 ∧
    (∀ e, (Map.get 0 v.endpoints e).getLsbD 0 = false) ∧ v.sacQuota = 0 ∧ v.enabled = false ∧
    (∀ g < 64, (s.group g).owner = none)) ∧
  (∀ (s : State) (k : Nat), s.managed = true → k < 32 → (s.tenant k).enabled = false →
    ((s.tenant k).ptbase = 0 ∨ (s.tenant k).saveBase = 0 ∨ (s.tenant k).windows = [] ∨ (s.tenant k).inWindow (s.tenant k).ptbase 4096 = false ∨
      pinSave s k = none ∨
      ((s.tenant k).sacQuota ≠ 0 ∧ pinRegion s k (s.tenant k).sacBase (64 * (s.tenant k).sacQuota) = none)) →
    exec (.vfEnable k) s = .next s ∧ s.ready k = false)

/-! ## Encoding and the step -/

/-- Every well-formed instruction's word decodes to it, with every operand at every value its encoding admits. -/
def Obligations.DecodeOfEncode : Prop := ∀ (i : Instr) (w : Word), encode i = some w → i.wf = true → decode w = .ok i

/-- A word that decodes is the word of what it decodes to: no bit of it is dropped, and no two words mean the same. -/
def Obligations.EncodeOfDecode : Prop := ∀ (w : Word) (i : Instr), decode w = .ok i → encode i = some w ∧ i.wf = true

/-- Words written out from the encodings of 04_encoding, one of each engine, and patterns that stand for none (R53). -/
def Obligations.DecodedWords : Prop :=
  decode 0x00000000 = .ok .nop ∧ decode 0x00000001 = .error .unassigned ∧
  decode 0b00000000100001101001011000100000 = .ok (.add 3 18 49) ∧
  decode 0b00001100000001010000000000000011 = .ok (.br 5 0 3) ∧
  decode 0b00100000010000110001000000110000 = .ok (.vadd 3 4 3 0) ∧
  decode 0b01000001010000010000100000110001 = .ok (.mma 1 1 2 3 1) ∧
  decode 0b01100001001000000100000100000000 = .ok (.xget 2 1 1 0 0) ∧
  decode 0b10000001000010000000000000000000 = .ok (.hnew 1) ∧
  decode 0b10100001000001000010000011000100 = .ok (.ktopc 1 2 3 4) ∧
  decode 0xC0800005 = .ok (.trap 5) ∧ decode 0xC101FFFF = .ok (.ebrk 0x1FFFF) ∧ decode 0xC2000000 = .ok .eret ∧
  decode 0xE0000000 = .error .pfx ∧ decode 0x00860000 = .ok (.add 3 0 0) ∧ decode 0x00C20000 = .error .badField

/-- A step runs the decoded instruction (R31, R32): where capture on a core is next and the word at its program counter,
which the cluster's instruction cache holds or else memory as fetch sees it, decodes to an instruction, the step is `exec` of
it, the word in the capture latch; a group with prefixes likewise. An event chosen next is the step, and what it brought for
a suspended context stands in its image too (R312); time chosen next is the step; where nothing is chosen, a cycle passes
first. That fetch sees memory as it stood when the kernel became resident, but for a `tinv`, is the model's reading of R31
(notes/assumptions/18, 99). -/
def Obligations.StepRuns : Prop :=
  ∀ (s : State) (rest : List Action),
    (∀ c e x g i s1, s.agenda = .capture c e :: rest → s.ctx c = some x → s.captureShut c x = false →
      nextGroup { s with agenda := rest } c x = .group g i s1 → step s = exec i (s1.latch c e g)) ∧
    (∀ c e x pa s1 w i, s.agenda = .capture c e :: rest → s.ctx c = some x → s.captureShut c x = false →
      fetchPa { s with agenda := rest } c x.tenant x.pc = .ok (pa, s1) →
      w = (Map.at? (Map.get [] s1.icache (clusOf c)) (icKey x.tenant x.pc)).getD
        (BitVec.ofNat 32 (State.readN { s1 with mem := s.codeOf c } pa 4)) → decode w = .ok i →
      ∃ ic, step s = exec i ({ s1 with icache := ic }.latch c e { addr := x.pc, waddr := x.pc, raw := w })) ∧
    (∀ i, s.agenda = .event i :: rest → encode i = none → step s = noted { s with agenda := rest } (exec i { s with agenda := rest }) ∧
      ((∀ c, (s.core c).sus = none) → step s = exec i { s with agenda := rest })) ∧
    (∀ n, s.agenda = .elapse n :: rest → step s = .next (State.elapse { s with agenda := rest } n)) ∧
    (s.agenda = [] → s.powered = true → (∀ f ∈ (s.elapse 1).moves, f (s.elapse 1) = .next (s.elapse 1)) → (s.elapse 1).turn = [] →
      step s = .next (s.elapse 1) ∧ (s.elapse 1).cycle = s.cycle + 1)

/-- A word that decodes to nothing takes the exception ILLEGAL with the word as tval, at its group's address (R53, R56), once
the word captured before it has its place in its queue (R32). -/
def Obligations.IllegalWords : Prop :=
  ∀ (s u : State) (rest : List Action) (c : Nat) (e : Bool) (x y : Ctx) (pa : Nat) (s1 : State) (w : Word) (r : Reject),
    s.agenda = .capture c e :: rest → s.ctx c = some x → s.captureShut c x = false → x.steering = false →
    x.priv = false → Map.get 0 (s.core c).tvec x.tenant ≠ 0 → fetchPa { s with agenda := rest } c x.tenant x.pc = .ok (pa, s1) →
    w = (Map.at? (Map.get [] s1.icache (clusOf c)) (icKey x.tenant x.pc)).getD
      (BitVec.ofNat 32 (State.readN { s1 with mem := s.codeOf c } pa 4)) → isPfx w = false → decode w = .error r →
    y = { x with grp := {}, stall := .none } → u = (endStall { s with agenda := rest } c x).setCtx c y → u.noneRunsOn c y = true →
    ∃ z, step s = .next (u.setCtx c z) ∧ Entered y z
      { cause := 1, tval := w.setWidth 64, eng := engineOf w, addr := x.pc, word := none } (Map.get 0 (s.core c).tvec x.tenant)

/-- Every step keeps the canonical form of memory: addresses strictly rising, no byte listed that reads as an unlisted one. -/
def Obligations.MemoryKept : Prop := Kept (fun s => s.memWf = true)

/-- The state after reset: memory lists nothing and is in its canonical form, every byte reads as 0 (the model's choice,
notes/assumptions/2), no core holds a span, bring-up is in state 0 (R331), and nothing is in flight. -/
def Obligations.ResetState : Prop :=
  State.reset.memWf = true ∧ (∀ a, State.reset.byte a = 0) ∧ (∀ c, State.reset.ctx c = none ∧ (State.reset.core c).sus = none) ∧
  State.reset.devstat = 0 ∧ State.reset.net = [] ∧ State.reset.cmds = [] ∧ State.reset.sac = [] ∧
  ∀ c k, Map.get 0 (State.reset.core c).tvec k = 0
end

