-- ==== Sys2Proof/Laws/Bits.lean ====
section
/-! SUPPORT. Fields of words: what writing a field leaves of it and of every other one. -/

namespace Sys2Proof.Machine

theorem getLsbD_setBits {w : Nat} (r : BitVec w) (off n v i : Nat) :
    (setBits r off n v).getLsbD i = if off ≤ i ∧ i < off + n then decide (i < w) && v.testBit (i - off) else r.getLsbD i := by
  unfold setBits
  by_cases hi : i < w
  · by_cases h1 : off ≤ i
    · by_cases h2 : i < off + n
      · have a : i - off < w := by omega
        have b : i - off < n := by omega
        have e (n : Nat) : (BitVec.ofNat w n)[i - off] = n.testBit (i - off) := by
          rw [← BitVec.getLsbD_eq_getElem, BitVec.getLsbD_ofNat]; simp [a]
        simp [h1, h2, hi, Nat.not_lt.mpr h1, Nat.testBit_two_pow_sub_one, Nat.testBit_mod_two_pow, a, b, e]
      · have b : ¬ i - off < n := by omega
        have a : i - off < w := by omega
        have e (n : Nat) : (BitVec.ofNat w n)[i - off] = n.testBit (i - off) := by
          rw [← BitVec.getLsbD_eq_getElem, BitVec.getLsbD_ofNat]; simp [a]
        simp [h1, h2, hi, Nat.not_lt.mpr h1, Nat.testBit_two_pow_sub_one, Nat.testBit_mod_two_pow, a, b, e]
    · simp [h1, hi, Nat.lt_of_not_le h1]
  · simp [hi, BitVec.getLsbD_of_ge _ _ (Nat.le_of_not_lt hi)]

theorem extract_setBits_self {w : Nat} (r : BitVec w) (off n v : Nat) (h : off + n ≤ w) :
    BitVec.extractLsb' off n (setBits r off n v) = BitVec.ofNat n v := by
  apply BitVec.eq_of_getLsbD_eq
  intro i hi
  rw [BitVec.getLsbD_extractLsb', getLsbD_setBits, BitVec.getLsbD_ofNat]
  have : off + i < w := by omega
  simp [hi, this]

theorem extract_setBits_out {w : Nat} (r : BitVec w) (off n v o m : Nat) (h : o + m ≤ off ∨ off + n ≤ o) :
    BitVec.extractLsb' o m (setBits r off n v) = BitVec.extractLsb' o m r := by
  apply BitVec.eq_of_getLsbD_eq
  intro i hi
  rw [BitVec.getLsbD_extractLsb', getLsbD_setBits, BitVec.getLsbD_extractLsb']
  have : ¬ (off ≤ o + i ∧ o + i < off + n) := by omega
  simp [this]

theorem bits_toNat {w : Nat} (r : BitVec w) (lo n : Nat) : bits r.toNat lo n = (BitVec.extractLsb' lo n r).toNat := by
  simp [bits, BitVec.extractLsb'_toNat, Nat.shiftRight_eq_div_pow]

theorem bits_setBits_self {w : Nat} (r : BitVec w) (off n v : Nat) (h : off + n ≤ w) :
    bits (setBits r off n v).toNat off n = v % 2 ^ n := by
  rw [bits_toNat, extract_setBits_self r off n v h, BitVec.toNat_ofNat]

theorem bits_setBits_out {w : Nat} (r : BitVec w) (off n v o m : Nat) (h : o + m ≤ off ∨ off + n ≤ o) :
    bits (setBits r off n v).toNat o m = bits r.toNat o m := by
  rw [bits_toNat, extract_setBits_out r off n v o m h, ← bits_toNat]
end Sys2Proof.Machine
end

