-- ==== Sys2Proof/Laws/Map.lean ====
section
/-! SUPPORT. Laws of sparse data: reading after listing, writing and unlisting, and the canonical form kept. -/

namespace Sys2Proof.Machine

variable {α : Type}

@[simp] theorem Map.get_nil (d : α) (k : Nat) : Map.get d [] k = d := rfl
@[simp] theorem Map.at?_nil (k : Nat) : Map.at? ([] : Map α) k = none := rfl

@[simp] theorem Map.get_ins_self (d v : α) (m : Map α) (k : Nat) : Map.get d (Map.ins m k v) k = v := by
  induction m with
  | nil => simp [Map.ins, Map.get]
  | cons p t ih =>
    obtain ⟨j, u⟩ := p
    simp only [Map.ins]
    split
    · simp [Map.get]
    · split
      · simp [Map.get]
      · rename_i h; simp [Map.get, Ne.symm h, ih]

theorem Map.get_ins_ne (d v : α) (m : Map α) {k l : Nat} (h : k ≠ l) : Map.get d (Map.ins m k v) l = Map.get d m l := by
  induction m with
  | nil => simp [Map.ins, Map.get, h]
  | cons p t ih =>
    obtain ⟨j, u⟩ := p
    simp only [Map.ins]
    split
    · simp [Map.get, h]
    · split
      · rename_i hk; subst hk; simp [Map.get, h]
      · simp [Map.get, ih]

theorem Map.get_ins (d v : α) (m : Map α) (k l : Nat) :
    Map.get d (Map.ins m k v) l = if k = l then v else Map.get d m l := by
  split
  · rename_i h; subst h; simp
  · rename_i h; exact Map.get_ins_ne d v m h

@[simp] theorem Map.at?_ins_self (v : α) (m : Map α) (k : Nat) : Map.at? (Map.ins m k v) k = some v := by
  induction m with
  | nil => simp [Map.ins, Map.at?]
  | cons p t ih =>
    obtain ⟨j, u⟩ := p
    simp only [Map.ins]
    split
    · simp [Map.at?]
    · split
      · simp [Map.at?]
      · rename_i h; simp [Map.at?, Ne.symm h, ih]

theorem Map.at?_ins_ne (v : α) (m : Map α) {k l : Nat} (h : k ≠ l) : Map.at? (Map.ins m k v) l = Map.at? m l := by
  induction m with
  | nil => simp [Map.ins, Map.at?, h]
  | cons p t ih =>
    obtain ⟨j, u⟩ := p
    simp only [Map.ins]
    split
    · simp [Map.at?, h]
    · split
      · rename_i hk; subst hk; simp [Map.at?, h]
      · simp [Map.at?, ih]

/-- Listing a key twice keeps the later value. -/
@[simp] theorem Map.ins_ins (m : Map α) (k : Nat) (a b : α) : Map.ins (Map.ins m k a) k b = Map.ins m k b := by
  induction m with
  | nil => simp [Map.ins]
  | cons p t ih =>
    obtain ⟨j, u⟩ := p
    simp only [Map.ins]
    split
    · simp [Map.ins]
    · split
      · simp [Map.ins]
      · rename_i h1 h2; simp [Map.ins, h1, h2, ih]

theorem Map.ins_comm (m : Map α) {k l : Nat} (h : k ≠ l) (a b : α) :
    Map.ins (Map.ins m k a) l b = Map.ins (Map.ins m l b) k a := by
  induction m with
  | nil =>
    simp only [Map.ins]
    rcases Nat.lt_or_gt_of_ne h with g | g
    · simp [Map.ins, g, Nat.lt_asymm g, Ne.symm h]
    · simp [Map.ins, g, Nat.lt_asymm g, h]
  | cons p t ih =>
    obtain ⟨j, u⟩ := p
    rcases Nat.lt_trichotomy k j with g1 | g1 | g1 <;> rcases Nat.lt_trichotomy l j with g2 | g2 | g2 <;>
      rcases Nat.lt_or_gt_of_ne h with g | g <;>
      simp_all [Map.ins, Nat.lt_asymm, Nat.ne_of_gt] <;> (try omega) <;>
      (repeat' (first | split | rfl | omega | (simp_all [Map.ins]; done)))

@[simp] theorem Map.get_del_self (d : α) (m : Map α) (k : Nat) : Map.get d (Map.del m k) k = d := by
  induction m with
  | nil => rfl
  | cons p t ih =>
    obtain ⟨j, u⟩ := p
    simp only [Map.del]
    split
    · exact ih
    · rename_i h; simp [Map.get, h, ih]

theorem Map.get_del_ne (d : α) (m : Map α) {k l : Nat} (h : k ≠ l) : Map.get d (Map.del m k) l = Map.get d m l := by
  induction m with
  | nil => rfl
  | cons p t ih =>
    obtain ⟨j, u⟩ := p
    simp only [Map.del]
    split
    · rename_i hj; subst hj; simp [Map.get, h, ih]
    · simp [Map.get, ih]

/-- A write is read back at its key, and every other key reads as before. -/
theorem Map.get_put [DecidableEq α] (d v : α) (m : Map α) (k l : Nat) :
    Map.get d (Map.put d m k v) l = if k = l then v else Map.get d m l := by
  unfold Map.put
  split
  · rename_i hv; subst hv
    split
    · rename_i h; subst h; simp
    · rename_i h; exact Map.get_del_ne _ m h
  · exact Map.get_ins d v m k l

@[simp] theorem Map.get_put_self [DecidableEq α] (d v : α) (m : Map α) (k : Nat) : Map.get d (Map.put d m k v) k = v := by
  simp [Map.get_put]

theorem Map.get_put_ne [DecidableEq α] (d v : α) (m : Map α) {k l : Nat} (h : k ≠ l) :
    Map.get d (Map.put d m k v) l = Map.get d m l := by
  simp [Map.get_put, h]

/-! ## The canonical form -/

/-- Keys rise strictly and no value is the default, as a proposition over the whole list. -/
theorem Map.wf_iff [DecidableEq α] (d : α) (m : Map α) :
    Map.wf d m = true ↔ m.Pairwise (fun a b => a.1 < b.1) ∧ ∀ p ∈ m, p.2 ≠ d := by
  induction m with
  | nil => simp [Map.wf]
  | cons p t ih =>
    obtain ⟨j, v⟩ := p
    cases t with
    | nil => simp [Map.wf]
    | cons q r =>
      obtain ⟨k, u⟩ := q
      simp only [Map.wf, Bool.and_eq_true, decide_eq_true_eq]
      rw [ih]
      simp only [List.pairwise_cons, List.mem_cons, forall_eq_or_imp]
      constructor
      · rintro ⟨⟨hv, hjk⟩, ⟨hk, hr⟩, hu, hd⟩
        exact ⟨⟨⟨hjk, fun a ha => Nat.lt_trans hjk (hk a ha)⟩, hk, hr⟩, hv, hu, hd⟩
      · rintro ⟨⟨⟨hjk, _⟩, hk, hr⟩, hv, hu, hd⟩
        exact ⟨⟨hv, hjk⟩, ⟨hk, hr⟩, hu, hd⟩

theorem Map.mem_del {m : Map α} {k : Nat} {p : Nat × α} (h : p ∈ Map.del m k) : p ∈ m := by
  induction m with
  | nil => simp [Map.del] at h
  | cons q t ih =>
    obtain ⟨j, u⟩ := q
    simp only [Map.del] at h
    split at h
    · exact List.mem_cons_of_mem _ (ih h)
    · rcases List.mem_cons.1 h with h | h
      · subst h; exact List.mem_cons_self
      · exact List.mem_cons_of_mem _ (ih h)

theorem Map.mem_ins {m : Map α} {k : Nat} {v : α} {p : Nat × α} (h : p ∈ Map.ins m k v) : p = (k, v) ∨ p ∈ m := by
  induction m with
  | nil => simp [Map.ins] at h; exact Or.inl h
  | cons q t ih =>
    obtain ⟨j, u⟩ := q
    simp only [Map.ins] at h
    split at h
    · simpa using h
    · split at h
      · rcases List.mem_cons.1 h with h | h
        · exact Or.inl h
        · exact Or.inr (List.mem_cons_of_mem _ h)
      · rcases List.mem_cons.1 h with h | h
        · subst h; exact Or.inr List.mem_cons_self
        · rcases ih h with h | h
          · exact Or.inl h
          · exact Or.inr (List.mem_cons_of_mem _ h)

theorem Map.wf_del [DecidableEq α] {d : α} {m : Map α} (h : Map.wf d m = true) (k : Nat) : Map.wf d (Map.del m k) = true := by
  rw [Map.wf_iff] at h ⊢
  refine ⟨?_, fun p hp => h.2 p (Map.mem_del hp)⟩
  have hs := h.1
  clear h
  induction m with
  | nil => exact List.Pairwise.nil
  | cons q t ih =>
    obtain ⟨j, u⟩ := q
    rw [List.pairwise_cons] at hs
    simp only [Map.del]
    split
    · exact ih hs.2
    · exact List.pairwise_cons.2 ⟨fun a ha => hs.1 a (Map.mem_del ha), ih hs.2⟩

theorem Map.wf_ins [DecidableEq α] {d : α} {m : Map α} (h : Map.wf d m = true) (k : Nat) {v : α} (hv : v ≠ d) :
    Map.wf d (Map.ins m k v) = true := by
  rw [Map.wf_iff] at h ⊢
  refine ⟨?_, fun p hp => ?_⟩
  · have hs := h.1
    clear h
    induction m with
    | nil => simp [Map.ins]
    | cons q t ih =>
      obtain ⟨j, u⟩ := q
      rw [List.pairwise_cons] at hs
      simp only [Map.ins]
      split
      · rename_i hk
        refine List.pairwise_cons.2 ⟨fun a ha => ?_, List.pairwise_cons.2 hs⟩
        rcases List.mem_cons.1 ha with ha | ha
        · subst ha; exact hk
        · exact Nat.lt_trans hk (hs.1 a ha)
      · split
        · rename_i hk; subst hk; exact List.pairwise_cons.2 ⟨hs.1, hs.2⟩
        · rename_i h1 h2
          refine List.pairwise_cons.2 ⟨fun a ha => ?_, ih hs.2⟩
          rcases Map.mem_ins ha with ha | ha
          · subst ha; simp only; omega
          · exact hs.1 a ha
  · rcases Map.mem_ins hp with hp | hp
    · subst hp; exact hv
    · exact h.2 p hp

/-- A write keeps the canonical form. -/
theorem Map.wf_put [DecidableEq α] {d : α} {m : Map α} (h : Map.wf d m = true) (k : Nat) (v : α) :
    Map.wf d (Map.put d m k v) = true := by
  unfold Map.put
  split
  · exact Map.wf_del h k
  · rename_i hv; exact Map.wf_ins h k hv

end Sys2Proof.Machine
end

