-- ==== Sys2Proof/Laws/State.lean ====
section
/-! SUPPORT. One law per field per update of the state, and reading back what an update wrote. -/

namespace Sys2Proof.Machine

/-! ## Fields an update leaves -/
@[simp] theorem State.setCore_mem (s : State) (c : Nat) (k : Core) : (s.setCore c k).mem = s.mem := rfl
@[simp] theorem State.setCore_memPoison (s : State) (c : Nat) (k : Core) : (s.setCore c k).memPoison = s.memPoison := rfl
@[simp] theorem State.setCore_tenants (s : State) (c : Nat) (k : Core) : (s.setCore c k).tenants = s.tenants := rfl
@[simp] theorem State.setCore_sac (s : State) (c : Nat) (k : Core) : (s.setCore c k).sac = s.sac := rfl
@[simp] theorem State.setCore_sacBusy (s : State) (c : Nat) (k : Core) : (s.setCore c k).sacBusy = s.sacBusy := rfl
@[simp] theorem State.setCore_slcBlks (s : State) (c : Nat) (k : Core) : (s.setCore c k).slcBlks = s.slcBlks := rfl
@[simp] theorem State.setCore_groups (s : State) (c : Nat) (k : Core) : (s.setCore c k).groups = s.groups := rfl
@[simp] theorem State.setCore_net (s : State) (c : Nat) (k : Core) : (s.setCore c k).net = s.net := rfl
@[simp] theorem State.setCore_sent (s : State) (c : Nat) (k : Core) : (s.setCore c k).sent = s.sent := rfl
@[simp] theorem State.setCore_applied (s : State) (c : Nat) (k : Core) : (s.setCore c k).applied = s.applied := rfl
@[simp] theorem State.setCore_crowd (s : State) (c : Nat) (k : Core) : (s.setCore c k).crowd = s.crowd := rfl
@[simp] theorem State.setCore_cmds (s : State) (c : Nat) (k : Core) : (s.setCore c k).cmds = s.cmds := rfl
@[simp] theorem State.setCore_nextId (s : State) (c : Nat) (k : Core) : (s.setCore c k).nextId = s.nextId := rfl
@[simp] theorem State.setCore_cycle (s : State) (c : Nat) (k : Core) : (s.setCore c k).cycle = s.cycle := rfl
@[simp] theorem State.setCore_ctlRuns (s : State) (c : Nat) (k : Core) : (s.setCore c k).ctlRuns = s.ctlRuns := rfl
@[simp] theorem State.setCore_served (s : State) (c : Nat) (k : Core) : (s.setCore c k).served = s.served := rfl
@[simp] theorem State.setCore_forecast (s : State) (c : Nat) (k : Core) : (s.setCore c k).forecast = s.forecast := rfl
@[simp] theorem State.setCore_devstat (s : State) (c : Nat) (k : Core) : (s.setCore c k).devstat = s.devstat := rfl
@[simp] theorem State.setCore_powered (s : State) (c : Nat) (k : Core) : (s.setCore c k).powered = s.powered := rfl
@[simp] theorem State.setCore_powerLimit (s : State) (c : Nat) (k : Core) : (s.setCore c k).powerLimit = s.powerLimit := rfl
@[simp] theorem State.setCore_clockSteps (s : State) (c : Nat) (k : Core) : (s.setCore c k).clockSteps = s.clockSteps := rfl
@[simp] theorem State.setCore_hotDies (s : State) (c : Nat) (k : Core) : (s.setCore c k).hotDies = s.hotDies := rfl
@[simp] theorem State.setCore_ports (s : State) (c : Nat) (k : Core) : (s.setCore c k).ports = s.ports := rfl
@[simp] theorem State.setCore_lifeLog (s : State) (c : Nat) (k : Core) : (s.setCore c k).lifeLog = s.lifeLog := rfl
@[simp] theorem State.setCore_nvLog (s : State) (c : Nat) (k : Core) : (s.setCore c k).nvLog = s.nvLog := rfl
@[simp] theorem State.setCore_icache (s : State) (c : Nat) (k : Core) : (s.setCore c k).icache = s.icache := rfl
@[simp] theorem State.setCore_itlb (s : State) (c : Nat) (k : Core) : (s.setCore c k).itlb = s.itlb := rfl
@[simp] theorem State.setCore_snoop (s : State) (c : Nat) (k : Core) : (s.setCore c k).snoop = s.snoop := rfl
@[simp] theorem State.setCore_recalls (s : State) (c : Nat) (k : Core) : (s.setCore c k).recalls = s.recalls := rfl
@[simp] theorem State.setCore_images (s : State) (c : Nat) (k : Core) : (s.setCore c k).images = s.images := rfl
@[simp] theorem State.setCore_hostMem (s : State) (c : Nat) (k : Core) : (s.setCore c k).hostMem = s.hostMem := rfl
@[simp] theorem State.setCore_hostRead (s : State) (c : Nat) (k : Core) : (s.setCore c k).hostRead = s.hostRead := rfl
@[simp] theorem State.setCore_msix (s : State) (c : Nat) (k : Core) : (s.setCore c k).msix = s.msix := rfl
@[simp] theorem State.setCore_cur (s : State) (c : Nat) (k : Core) : (s.setCore c k).cur = s.cur := rfl
@[simp] theorem State.setCore_eager (s : State) (c : Nat) (k : Core) : (s.setCore c k).eager = s.eager := rfl
@[simp] theorem State.setCore_agenda (s : State) (c : Nat) (k : Core) : (s.setCore c k).agenda = s.agenda := rfl
@[simp] theorem State.setCore_picks (s : State) (c : Nat) (k : Core) : (s.setCore c k).picks = s.picks := rfl
@[simp] theorem State.setCore_freeCtr (s : State) (c : Nat) (k : Core) : (s.setCore c k).freeCtr = s.freeCtr := rfl

@[simp] theorem State.modCore_mem (s : State) (c : Nat) (f : Core → Core) : (s.modCore c f).mem = s.mem := rfl
@[simp] theorem State.modCore_memPoison (s : State) (c : Nat) (f : Core → Core) : (s.modCore c f).memPoison = s.memPoison := rfl
@[simp] theorem State.modCore_tenants (s : State) (c : Nat) (f : Core → Core) : (s.modCore c f).tenants = s.tenants := rfl
@[simp] theorem State.modCore_sac (s : State) (c : Nat) (f : Core → Core) : (s.modCore c f).sac = s.sac := rfl
@[simp] theorem State.modCore_sacBusy (s : State) (c : Nat) (f : Core → Core) : (s.modCore c f).sacBusy = s.sacBusy := rfl
@[simp] theorem State.modCore_slcBlks (s : State) (c : Nat) (f : Core → Core) : (s.modCore c f).slcBlks = s.slcBlks := rfl
@[simp] theorem State.modCore_groups (s : State) (c : Nat) (f : Core → Core) : (s.modCore c f).groups = s.groups := rfl
@[simp] theorem State.modCore_net (s : State) (c : Nat) (f : Core → Core) : (s.modCore c f).net = s.net := rfl
@[simp] theorem State.modCore_sent (s : State) (c : Nat) (f : Core → Core) : (s.modCore c f).sent = s.sent := rfl
@[simp] theorem State.modCore_applied (s : State) (c : Nat) (f : Core → Core) : (s.modCore c f).applied = s.applied := rfl
@[simp] theorem State.modCore_crowd (s : State) (c : Nat) (f : Core → Core) : (s.modCore c f).crowd = s.crowd := rfl
@[simp] theorem State.modCore_cmds (s : State) (c : Nat) (f : Core → Core) : (s.modCore c f).cmds = s.cmds := rfl
@[simp] theorem State.modCore_nextId (s : State) (c : Nat) (f : Core → Core) : (s.modCore c f).nextId = s.nextId := rfl
@[simp] theorem State.modCore_cycle (s : State) (c : Nat) (f : Core → Core) : (s.modCore c f).cycle = s.cycle := rfl
@[simp] theorem State.modCore_ctlRuns (s : State) (c : Nat) (f : Core → Core) : (s.modCore c f).ctlRuns = s.ctlRuns := rfl
@[simp] theorem State.modCore_served (s : State) (c : Nat) (f : Core → Core) : (s.modCore c f).served = s.served := rfl
@[simp] theorem State.modCore_forecast (s : State) (c : Nat) (f : Core → Core) : (s.modCore c f).forecast = s.forecast := rfl
@[simp] theorem State.modCore_devstat (s : State) (c : Nat) (f : Core → Core) : (s.modCore c f).devstat = s.devstat := rfl
@[simp] theorem State.modCore_powered (s : State) (c : Nat) (f : Core → Core) : (s.modCore c f).powered = s.powered := rfl
@[simp] theorem State.modCore_powerLimit (s : State) (c : Nat) (f : Core → Core) : (s.modCore c f).powerLimit = s.powerLimit := rfl
@[simp] theorem State.modCore_clockSteps (s : State) (c : Nat) (f : Core → Core) : (s.modCore c f).clockSteps = s.clockSteps := rfl
@[simp] theorem State.modCore_hotDies (s : State) (c : Nat) (f : Core → Core) : (s.modCore c f).hotDies = s.hotDies := rfl
@[simp] theorem State.modCore_ports (s : State) (c : Nat) (f : Core → Core) : (s.modCore c f).ports = s.ports := rfl
@[simp] theorem State.modCore_lifeLog (s : State) (c : Nat) (f : Core → Core) : (s.modCore c f).lifeLog = s.lifeLog := rfl
@[simp] theorem State.modCore_nvLog (s : State) (c : Nat) (f : Core → Core) : (s.modCore c f).nvLog = s.nvLog := rfl
@[simp] theorem State.modCore_icache (s : State) (c : Nat) (f : Core → Core) : (s.modCore c f).icache = s.icache := rfl
@[simp] theorem State.modCore_itlb (s : State) (c : Nat) (f : Core → Core) : (s.modCore c f).itlb = s.itlb := rfl
@[simp] theorem State.modCore_snoop (s : State) (c : Nat) (f : Core → Core) : (s.modCore c f).snoop = s.snoop := rfl
@[simp] theorem State.modCore_recalls (s : State) (c : Nat) (f : Core → Core) : (s.modCore c f).recalls = s.recalls := rfl
@[simp] theorem State.modCore_images (s : State) (c : Nat) (f : Core → Core) : (s.modCore c f).images = s.images := rfl
@[simp] theorem State.modCore_hostMem (s : State) (c : Nat) (f : Core → Core) : (s.modCore c f).hostMem = s.hostMem := rfl
@[simp] theorem State.modCore_hostRead (s : State) (c : Nat) (f : Core → Core) : (s.modCore c f).hostRead = s.hostRead := rfl
@[simp] theorem State.modCore_msix (s : State) (c : Nat) (f : Core → Core) : (s.modCore c f).msix = s.msix := rfl
@[simp] theorem State.modCore_cur (s : State) (c : Nat) (f : Core → Core) : (s.modCore c f).cur = s.cur := rfl
@[simp] theorem State.modCore_eager (s : State) (c : Nat) (f : Core → Core) : (s.modCore c f).eager = s.eager := rfl
@[simp] theorem State.modCore_agenda (s : State) (c : Nat) (f : Core → Core) : (s.modCore c f).agenda = s.agenda := rfl
@[simp] theorem State.modCore_picks (s : State) (c : Nat) (f : Core → Core) : (s.modCore c f).picks = s.picks := rfl
@[simp] theorem State.modCore_freeCtr (s : State) (c : Nat) (f : Core → Core) : (s.modCore c f).freeCtr = s.freeCtr := rfl

@[simp] theorem State.setCtx_mem (s : State) (c : Nat) (x : Ctx) : (s.setCtx c x).mem = s.mem := rfl
@[simp] theorem State.setCtx_memPoison (s : State) (c : Nat) (x : Ctx) : (s.setCtx c x).memPoison = s.memPoison := rfl
@[simp] theorem State.setCtx_tenants (s : State) (c : Nat) (x : Ctx) : (s.setCtx c x).tenants = s.tenants := rfl
@[simp] theorem State.setCtx_sac (s : State) (c : Nat) (x : Ctx) : (s.setCtx c x).sac = s.sac := rfl
@[simp] theorem State.setCtx_sacBusy (s : State) (c : Nat) (x : Ctx) : (s.setCtx c x).sacBusy = s.sacBusy := rfl
@[simp] theorem State.setCtx_slcBlks (s : State) (c : Nat) (x : Ctx) : (s.setCtx c x).slcBlks = s.slcBlks := rfl
@[simp] theorem State.setCtx_groups (s : State) (c : Nat) (x : Ctx) : (s.setCtx c x).groups = s.groups := rfl
@[simp] theorem State.setCtx_net (s : State) (c : Nat) (x : Ctx) : (s.setCtx c x).net = s.net := rfl
@[simp] theorem State.setCtx_sent (s : State) (c : Nat) (x : Ctx) : (s.setCtx c x).sent = s.sent := rfl
@[simp] theorem State.setCtx_applied (s : State) (c : Nat) (x : Ctx) : (s.setCtx c x).applied = s.applied := rfl
@[simp] theorem State.setCtx_crowd (s : State) (c : Nat) (x : Ctx) : (s.setCtx c x).crowd = s.crowd := rfl
@[simp] theorem State.setCtx_cmds (s : State) (c : Nat) (x : Ctx) : (s.setCtx c x).cmds = s.cmds := rfl
@[simp] theorem State.setCtx_nextId (s : State) (c : Nat) (x : Ctx) : (s.setCtx c x).nextId = s.nextId := rfl
@[simp] theorem State.setCtx_cycle (s : State) (c : Nat) (x : Ctx) : (s.setCtx c x).cycle = s.cycle := rfl
@[simp] theorem State.setCtx_ctlRuns (s : State) (c : Nat) (x : Ctx) : (s.setCtx c x).ctlRuns = s.ctlRuns := rfl
@[simp] theorem State.setCtx_served (s : State) (c : Nat) (x : Ctx) : (s.setCtx c x).served = s.served := rfl
@[simp] theorem State.setCtx_forecast (s : State) (c : Nat) (x : Ctx) : (s.setCtx c x).forecast = s.forecast := rfl
@[simp] theorem State.setCtx_devstat (s : State) (c : Nat) (x : Ctx) : (s.setCtx c x).devstat = s.devstat := rfl
@[simp] theorem State.setCtx_powered (s : State) (c : Nat) (x : Ctx) : (s.setCtx c x).powered = s.powered := rfl
@[simp] theorem State.setCtx_powerLimit (s : State) (c : Nat) (x : Ctx) : (s.setCtx c x).powerLimit = s.powerLimit := rfl
@[simp] theorem State.setCtx_clockSteps (s : State) (c : Nat) (x : Ctx) : (s.setCtx c x).clockSteps = s.clockSteps := rfl
@[simp] theorem State.setCtx_hotDies (s : State) (c : Nat) (x : Ctx) : (s.setCtx c x).hotDies = s.hotDies := rfl
@[simp] theorem State.setCtx_ports (s : State) (c : Nat) (x : Ctx) : (s.setCtx c x).ports = s.ports := rfl
@[simp] theorem State.setCtx_lifeLog (s : State) (c : Nat) (x : Ctx) : (s.setCtx c x).lifeLog = s.lifeLog := rfl
@[simp] theorem State.setCtx_nvLog (s : State) (c : Nat) (x : Ctx) : (s.setCtx c x).nvLog = s.nvLog := rfl
@[simp] theorem State.setCtx_icache (s : State) (c : Nat) (x : Ctx) : (s.setCtx c x).icache = s.icache := rfl
@[simp] theorem State.setCtx_itlb (s : State) (c : Nat) (x : Ctx) : (s.setCtx c x).itlb = s.itlb := rfl
@[simp] theorem State.setCtx_snoop (s : State) (c : Nat) (x : Ctx) : (s.setCtx c x).snoop = s.snoop := rfl
@[simp] theorem State.setCtx_recalls (s : State) (c : Nat) (x : Ctx) : (s.setCtx c x).recalls = s.recalls := rfl
@[simp] theorem State.setCtx_images (s : State) (c : Nat) (x : Ctx) : (s.setCtx c x).images = s.images := rfl
@[simp] theorem State.setCtx_hostMem (s : State) (c : Nat) (x : Ctx) : (s.setCtx c x).hostMem = s.hostMem := rfl
@[simp] theorem State.setCtx_hostRead (s : State) (c : Nat) (x : Ctx) : (s.setCtx c x).hostRead = s.hostRead := rfl
@[simp] theorem State.setCtx_msix (s : State) (c : Nat) (x : Ctx) : (s.setCtx c x).msix = s.msix := rfl
@[simp] theorem State.setCtx_cur (s : State) (c : Nat) (x : Ctx) : (s.setCtx c x).cur = s.cur := rfl
@[simp] theorem State.setCtx_eager (s : State) (c : Nat) (x : Ctx) : (s.setCtx c x).eager = s.eager := rfl
@[simp] theorem State.setCtx_agenda (s : State) (c : Nat) (x : Ctx) : (s.setCtx c x).agenda = s.agenda := rfl
@[simp] theorem State.setCtx_picks (s : State) (c : Nat) (x : Ctx) : (s.setCtx c x).picks = s.picks := rfl
@[simp] theorem State.setCtx_freeCtr (s : State) (c : Nat) (x : Ctx) : (s.setCtx c x).freeCtr = s.freeCtr := rfl

@[simp] theorem State.setTenant_mem (s : State) (t : Nat) (v : Tenant) : (s.setTenant t v).mem = s.mem := rfl
@[simp] theorem State.setTenant_memPoison (s : State) (t : Nat) (v : Tenant) : (s.setTenant t v).memPoison = s.memPoison := rfl
@[simp] theorem State.setTenant_cores (s : State) (t : Nat) (v : Tenant) : (s.setTenant t v).cores = s.cores := rfl
@[simp] theorem State.setTenant_sac (s : State) (t : Nat) (v : Tenant) : (s.setTenant t v).sac = s.sac := rfl
@[simp] theorem State.setTenant_sacBusy (s : State) (t : Nat) (v : Tenant) : (s.setTenant t v).sacBusy = s.sacBusy := rfl
@[simp] theorem State.setTenant_slcBlks (s : State) (t : Nat) (v : Tenant) : (s.setTenant t v).slcBlks = s.slcBlks := rfl
@[simp] theorem State.setTenant_groups (s : State) (t : Nat) (v : Tenant) : (s.setTenant t v).groups = s.groups := rfl
@[simp] theorem State.setTenant_net (s : State) (t : Nat) (v : Tenant) : (s.setTenant t v).net = s.net := rfl
@[simp] theorem State.setTenant_sent (s : State) (t : Nat) (v : Tenant) : (s.setTenant t v).sent = s.sent := rfl
@[simp] theorem State.setTenant_applied (s : State) (t : Nat) (v : Tenant) : (s.setTenant t v).applied = s.applied := rfl
@[simp] theorem State.setTenant_crowd (s : State) (t : Nat) (v : Tenant) : (s.setTenant t v).crowd = s.crowd := rfl
@[simp] theorem State.setTenant_cmds (s : State) (t : Nat) (v : Tenant) : (s.setTenant t v).cmds = s.cmds := rfl
@[simp] theorem State.setTenant_nextId (s : State) (t : Nat) (v : Tenant) : (s.setTenant t v).nextId = s.nextId := rfl
@[simp] theorem State.setTenant_cycle (s : State) (t : Nat) (v : Tenant) : (s.setTenant t v).cycle = s.cycle := rfl
@[simp] theorem State.setTenant_ctlRuns (s : State) (t : Nat) (v : Tenant) : (s.setTenant t v).ctlRuns = s.ctlRuns := rfl
@[simp] theorem State.setTenant_served (s : State) (t : Nat) (v : Tenant) : (s.setTenant t v).served = s.served := rfl
@[simp] theorem State.setTenant_forecast (s : State) (t : Nat) (v : Tenant) : (s.setTenant t v).forecast = s.forecast := rfl
@[simp] theorem State.setTenant_devstat (s : State) (t : Nat) (v : Tenant) : (s.setTenant t v).devstat = s.devstat := rfl
@[simp] theorem State.setTenant_powered (s : State) (t : Nat) (v : Tenant) : (s.setTenant t v).powered = s.powered := rfl
@[simp] theorem State.setTenant_powerLimit (s : State) (t : Nat) (v : Tenant) : (s.setTenant t v).powerLimit = s.powerLimit := rfl
@[simp] theorem State.setTenant_clockSteps (s : State) (t : Nat) (v : Tenant) : (s.setTenant t v).clockSteps = s.clockSteps := rfl
@[simp] theorem State.setTenant_hotDies (s : State) (t : Nat) (v : Tenant) : (s.setTenant t v).hotDies = s.hotDies := rfl
@[simp] theorem State.setTenant_ports (s : State) (t : Nat) (v : Tenant) : (s.setTenant t v).ports = s.ports := rfl
@[simp] theorem State.setTenant_lifeLog (s : State) (t : Nat) (v : Tenant) : (s.setTenant t v).lifeLog = s.lifeLog := rfl
@[simp] theorem State.setTenant_nvLog (s : State) (t : Nat) (v : Tenant) : (s.setTenant t v).nvLog = s.nvLog := rfl
@[simp] theorem State.setTenant_icache (s : State) (t : Nat) (v : Tenant) : (s.setTenant t v).icache = s.icache := rfl
@[simp] theorem State.setTenant_itlb (s : State) (t : Nat) (v : Tenant) : (s.setTenant t v).itlb = s.itlb := rfl
@[simp] theorem State.setTenant_snoop (s : State) (t : Nat) (v : Tenant) : (s.setTenant t v).snoop = s.snoop := rfl
@[simp] theorem State.setTenant_recalls (s : State) (t : Nat) (v : Tenant) : (s.setTenant t v).recalls = s.recalls := rfl
@[simp] theorem State.setTenant_images (s : State) (t : Nat) (v : Tenant) : (s.setTenant t v).images = s.images := rfl
@[simp] theorem State.setTenant_hostMem (s : State) (t : Nat) (v : Tenant) : (s.setTenant t v).hostMem = s.hostMem := rfl
@[simp] theorem State.setTenant_hostRead (s : State) (t : Nat) (v : Tenant) : (s.setTenant t v).hostRead = s.hostRead := rfl
@[simp] theorem State.setTenant_msix (s : State) (t : Nat) (v : Tenant) : (s.setTenant t v).msix = s.msix := rfl
@[simp] theorem State.setTenant_cur (s : State) (t : Nat) (v : Tenant) : (s.setTenant t v).cur = s.cur := rfl
@[simp] theorem State.setTenant_eager (s : State) (t : Nat) (v : Tenant) : (s.setTenant t v).eager = s.eager := rfl
@[simp] theorem State.setTenant_agenda (s : State) (t : Nat) (v : Tenant) : (s.setTenant t v).agenda = s.agenda := rfl
@[simp] theorem State.setTenant_picks (s : State) (t : Nat) (v : Tenant) : (s.setTenant t v).picks = s.picks := rfl
@[simp] theorem State.setTenant_freeCtr (s : State) (t : Nat) (v : Tenant) : (s.setTenant t v).freeCtr = s.freeCtr := rfl

@[simp] theorem State.modTenant_mem (s : State) (t : Nat) (f : Tenant → Tenant) : (s.modTenant t f).mem = s.mem := rfl
@[simp] theorem State.modTenant_memPoison (s : State) (t : Nat) (f : Tenant → Tenant) : (s.modTenant t f).memPoison = s.memPoison := rfl
@[simp] theorem State.modTenant_cores (s : State) (t : Nat) (f : Tenant → Tenant) : (s.modTenant t f).cores = s.cores := rfl
@[simp] theorem State.modTenant_sac (s : State) (t : Nat) (f : Tenant → Tenant) : (s.modTenant t f).sac = s.sac := rfl
@[simp] theorem State.modTenant_sacBusy (s : State) (t : Nat) (f : Tenant → Tenant) : (s.modTenant t f).sacBusy = s.sacBusy := rfl
@[simp] theorem State.modTenant_slcBlks (s : State) (t : Nat) (f : Tenant → Tenant) : (s.modTenant t f).slcBlks = s.slcBlks := rfl
@[simp] theorem State.modTenant_groups (s : State) (t : Nat) (f : Tenant → Tenant) : (s.modTenant t f).groups = s.groups := rfl
@[simp] theorem State.modTenant_net (s : State) (t : Nat) (f : Tenant → Tenant) : (s.modTenant t f).net = s.net := rfl
@[simp] theorem State.modTenant_sent (s : State) (t : Nat) (f : Tenant → Tenant) : (s.modTenant t f).sent = s.sent := rfl
@[simp] theorem State.modTenant_applied (s : State) (t : Nat) (f : Tenant → Tenant) : (s.modTenant t f).applied = s.applied := rfl
@[simp] theorem State.modTenant_crowd (s : State) (t : Nat) (f : Tenant → Tenant) : (s.modTenant t f).crowd = s.crowd := rfl
@[simp] theorem State.modTenant_cmds (s : State) (t : Nat) (f : Tenant → Tenant) : (s.modTenant t f).cmds = s.cmds := rfl
@[simp] theorem State.modTenant_nextId (s : State) (t : Nat) (f : Tenant → Tenant) : (s.modTenant t f).nextId = s.nextId := rfl
@[simp] theorem State.modTenant_cycle (s : State) (t : Nat) (f : Tenant → Tenant) : (s.modTenant t f).cycle = s.cycle := rfl
@[simp] theorem State.modTenant_ctlRuns (s : State) (t : Nat) (f : Tenant → Tenant) : (s.modTenant t f).ctlRuns = s.ctlRuns := rfl
@[simp] theorem State.modTenant_served (s : State) (t : Nat) (f : Tenant → Tenant) : (s.modTenant t f).served = s.served := rfl
@[simp] theorem State.modTenant_forecast (s : State) (t : Nat) (f : Tenant → Tenant) : (s.modTenant t f).forecast = s.forecast := rfl
@[simp] theorem State.modTenant_devstat (s : State) (t : Nat) (f : Tenant → Tenant) : (s.modTenant t f).devstat = s.devstat := rfl
@[simp] theorem State.modTenant_powered (s : State) (t : Nat) (f : Tenant → Tenant) : (s.modTenant t f).powered = s.powered := rfl
@[simp] theorem State.modTenant_powerLimit (s : State) (t : Nat) (f : Tenant → Tenant) : (s.modTenant t f).powerLimit = s.powerLimit := rfl
@[simp] theorem State.modTenant_clockSteps (s : State) (t : Nat) (f : Tenant → Tenant) : (s.modTenant t f).clockSteps = s.clockSteps := rfl
@[simp] theorem State.modTenant_hotDies (s : State) (t : Nat) (f : Tenant → Tenant) : (s.modTenant t f).hotDies = s.hotDies := rfl
@[simp] theorem State.modTenant_ports (s : State) (t : Nat) (f : Tenant → Tenant) : (s.modTenant t f).ports = s.ports := rfl
@[simp] theorem State.modTenant_lifeLog (s : State) (t : Nat) (f : Tenant → Tenant) : (s.modTenant t f).lifeLog = s.lifeLog := rfl
@[simp] theorem State.modTenant_nvLog (s : State) (t : Nat) (f : Tenant → Tenant) : (s.modTenant t f).nvLog = s.nvLog := rfl
@[simp] theorem State.modTenant_icache (s : State) (t : Nat) (f : Tenant → Tenant) : (s.modTenant t f).icache = s.icache := rfl
@[simp] theorem State.modTenant_itlb (s : State) (t : Nat) (f : Tenant → Tenant) : (s.modTenant t f).itlb = s.itlb := rfl
@[simp] theorem State.modTenant_snoop (s : State) (t : Nat) (f : Tenant → Tenant) : (s.modTenant t f).snoop = s.snoop := rfl
@[simp] theorem State.modTenant_recalls (s : State) (t : Nat) (f : Tenant → Tenant) : (s.modTenant t f).recalls = s.recalls := rfl
@[simp] theorem State.modTenant_images (s : State) (t : Nat) (f : Tenant → Tenant) : (s.modTenant t f).images = s.images := rfl
@[simp] theorem State.modTenant_hostMem (s : State) (t : Nat) (f : Tenant → Tenant) : (s.modTenant t f).hostMem = s.hostMem := rfl
@[simp] theorem State.modTenant_hostRead (s : State) (t : Nat) (f : Tenant → Tenant) : (s.modTenant t f).hostRead = s.hostRead := rfl
@[simp] theorem State.modTenant_msix (s : State) (t : Nat) (f : Tenant → Tenant) : (s.modTenant t f).msix = s.msix := rfl
@[simp] theorem State.modTenant_cur (s : State) (t : Nat) (f : Tenant → Tenant) : (s.modTenant t f).cur = s.cur := rfl
@[simp] theorem State.modTenant_eager (s : State) (t : Nat) (f : Tenant → Tenant) : (s.modTenant t f).eager = s.eager := rfl
@[simp] theorem State.modTenant_agenda (s : State) (t : Nat) (f : Tenant → Tenant) : (s.modTenant t f).agenda = s.agenda := rfl
@[simp] theorem State.modTenant_picks (s : State) (t : Nat) (f : Tenant → Tenant) : (s.modTenant t f).picks = s.picks := rfl
@[simp] theorem State.modTenant_freeCtr (s : State) (t : Nat) (f : Tenant → Tenant) : (s.modTenant t f).freeCtr = s.freeCtr := rfl

@[simp] theorem State.putByte_memPoison (s : State) (a : Nat) (b : Byte) : (s.putByte a b).memPoison = s.memPoison := rfl
@[simp] theorem State.putByte_cores (s : State) (a : Nat) (b : Byte) : (s.putByte a b).cores = s.cores := rfl
@[simp] theorem State.putByte_tenants (s : State) (a : Nat) (b : Byte) : (s.putByte a b).tenants = s.tenants := rfl
@[simp] theorem State.putByte_sac (s : State) (a : Nat) (b : Byte) : (s.putByte a b).sac = s.sac := rfl
@[simp] theorem State.putByte_sacBusy (s : State) (a : Nat) (b : Byte) : (s.putByte a b).sacBusy = s.sacBusy := rfl
@[simp] theorem State.putByte_slcBlks (s : State) (a : Nat) (b : Byte) : (s.putByte a b).slcBlks = s.slcBlks := rfl
@[simp] theorem State.putByte_groups (s : State) (a : Nat) (b : Byte) : (s.putByte a b).groups = s.groups := rfl
@[simp] theorem State.putByte_net (s : State) (a : Nat) (b : Byte) : (s.putByte a b).net = s.net := rfl
@[simp] theorem State.putByte_sent (s : State) (a : Nat) (b : Byte) : (s.putByte a b).sent = s.sent := rfl
@[simp] theorem State.putByte_applied (s : State) (a : Nat) (b : Byte) : (s.putByte a b).applied = s.applied := rfl
@[simp] theorem State.putByte_crowd (s : State) (a : Nat) (b : Byte) : (s.putByte a b).crowd = s.crowd := rfl
@[simp] theorem State.putByte_cmds (s : State) (a : Nat) (b : Byte) : (s.putByte a b).cmds = s.cmds := rfl
@[simp] theorem State.putByte_nextId (s : State) (a : Nat) (b : Byte) : (s.putByte a b).nextId = s.nextId := rfl
@[simp] theorem State.putByte_cycle (s : State) (a : Nat) (b : Byte) : (s.putByte a b).cycle = s.cycle := rfl
@[simp] theorem State.putByte_ctlRuns (s : State) (a : Nat) (b : Byte) : (s.putByte a b).ctlRuns = s.ctlRuns := rfl
@[simp] theorem State.putByte_served (s : State) (a : Nat) (b : Byte) : (s.putByte a b).served = s.served := rfl
@[simp] theorem State.putByte_forecast (s : State) (a : Nat) (b : Byte) : (s.putByte a b).forecast = s.forecast := rfl
@[simp] theorem State.putByte_devstat (s : State) (a : Nat) (b : Byte) : (s.putByte a b).devstat = s.devstat := rfl
@[simp] theorem State.putByte_powered (s : State) (a : Nat) (b : Byte) : (s.putByte a b).powered = s.powered := rfl
@[simp] theorem State.putByte_powerLimit (s : State) (a : Nat) (b : Byte) : (s.putByte a b).powerLimit = s.powerLimit := rfl
@[simp] theorem State.putByte_clockSteps (s : State) (a : Nat) (b : Byte) : (s.putByte a b).clockSteps = s.clockSteps := rfl
@[simp] theorem State.putByte_hotDies (s : State) (a : Nat) (b : Byte) : (s.putByte a b).hotDies = s.hotDies := rfl
@[simp] theorem State.putByte_ports (s : State) (a : Nat) (b : Byte) : (s.putByte a b).ports = s.ports := rfl
@[simp] theorem State.putByte_lifeLog (s : State) (a : Nat) (b : Byte) : (s.putByte a b).lifeLog = s.lifeLog := rfl
@[simp] theorem State.putByte_nvLog (s : State) (a : Nat) (b : Byte) : (s.putByte a b).nvLog = s.nvLog := rfl
@[simp] theorem State.putByte_icache (s : State) (a : Nat) (b : Byte) : (s.putByte a b).icache = s.icache := rfl
@[simp] theorem State.putByte_itlb (s : State) (a : Nat) (b : Byte) : (s.putByte a b).itlb = s.itlb := rfl
@[simp] theorem State.putByte_snoop (s : State) (a : Nat) (b : Byte) : (s.putByte a b).snoop = s.snoop := rfl
@[simp] theorem State.putByte_recalls (s : State) (a : Nat) (b : Byte) : (s.putByte a b).recalls = s.recalls := rfl
@[simp] theorem State.putByte_images (s : State) (a : Nat) (b : Byte) : (s.putByte a b).images = s.images := rfl
@[simp] theorem State.putByte_hostMem (s : State) (a : Nat) (b : Byte) : (s.putByte a b).hostMem = s.hostMem := rfl
@[simp] theorem State.putByte_hostRead (s : State) (a : Nat) (b : Byte) : (s.putByte a b).hostRead = s.hostRead := rfl
@[simp] theorem State.putByte_msix (s : State) (a : Nat) (b : Byte) : (s.putByte a b).msix = s.msix := rfl
@[simp] theorem State.putByte_cur (s : State) (a : Nat) (b : Byte) : (s.putByte a b).cur = s.cur := rfl
@[simp] theorem State.putByte_eager (s : State) (a : Nat) (b : Byte) : (s.putByte a b).eager = s.eager := rfl
@[simp] theorem State.putByte_agenda (s : State) (a : Nat) (b : Byte) : (s.putByte a b).agenda = s.agenda := rfl
@[simp] theorem State.putByte_picks (s : State) (a : Nat) (b : Byte) : (s.putByte a b).picks = s.picks := rfl
@[simp] theorem State.putByte_freeCtr (s : State) (a : Nat) (b : Byte) : (s.putByte a b).freeCtr = s.freeCtr := rfl

@[simp] theorem State.cleanMem_mem (s : State) (a n : Nat) : (s.cleanMem a n).mem = s.mem := rfl
@[simp] theorem State.cleanMem_cores (s : State) (a n : Nat) : (s.cleanMem a n).cores = s.cores := rfl
@[simp] theorem State.cleanMem_tenants (s : State) (a n : Nat) : (s.cleanMem a n).tenants = s.tenants := rfl
@[simp] theorem State.cleanMem_sac (s : State) (a n : Nat) : (s.cleanMem a n).sac = s.sac := rfl
@[simp] theorem State.cleanMem_sacBusy (s : State) (a n : Nat) : (s.cleanMem a n).sacBusy = s.sacBusy := rfl
@[simp] theorem State.cleanMem_slcBlks (s : State) (a n : Nat) : (s.cleanMem a n).slcBlks = s.slcBlks := rfl
@[simp] theorem State.cleanMem_groups (s : State) (a n : Nat) : (s.cleanMem a n).groups = s.groups := rfl
@[simp] theorem State.cleanMem_net (s : State) (a n : Nat) : (s.cleanMem a n).net = s.net := rfl
@[simp] theorem State.cleanMem_sent (s : State) (a n : Nat) : (s.cleanMem a n).sent = s.sent := rfl
@[simp] theorem State.cleanMem_applied (s : State) (a n : Nat) : (s.cleanMem a n).applied = s.applied := rfl
@[simp] theorem State.cleanMem_crowd (s : State) (a n : Nat) : (s.cleanMem a n).crowd = s.crowd := rfl
@[simp] theorem State.cleanMem_cmds (s : State) (a n : Nat) : (s.cleanMem a n).cmds = s.cmds := rfl
@[simp] theorem State.cleanMem_nextId (s : State) (a n : Nat) : (s.cleanMem a n).nextId = s.nextId := rfl
@[simp] theorem State.cleanMem_cycle (s : State) (a n : Nat) : (s.cleanMem a n).cycle = s.cycle := rfl
@[simp] theorem State.cleanMem_ctlRuns (s : State) (a n : Nat) : (s.cleanMem a n).ctlRuns = s.ctlRuns := rfl
@[simp] theorem State.cleanMem_served (s : State) (a n : Nat) : (s.cleanMem a n).served = s.served := rfl
@[simp] theorem State.cleanMem_forecast (s : State) (a n : Nat) : (s.cleanMem a n).forecast = s.forecast := rfl
@[simp] theorem State.cleanMem_devstat (s : State) (a n : Nat) : (s.cleanMem a n).devstat = s.devstat := rfl
@[simp] theorem State.cleanMem_powered (s : State) (a n : Nat) : (s.cleanMem a n).powered = s.powered := rfl
@[simp] theorem State.cleanMem_powerLimit (s : State) (a n : Nat) : (s.cleanMem a n).powerLimit = s.powerLimit := rfl
@[simp] theorem State.cleanMem_clockSteps (s : State) (a n : Nat) : (s.cleanMem a n).clockSteps = s.clockSteps := rfl
@[simp] theorem State.cleanMem_hotDies (s : State) (a n : Nat) : (s.cleanMem a n).hotDies = s.hotDies := rfl
@[simp] theorem State.cleanMem_ports (s : State) (a n : Nat) : (s.cleanMem a n).ports = s.ports := rfl
@[simp] theorem State.cleanMem_lifeLog (s : State) (a n : Nat) : (s.cleanMem a n).lifeLog = s.lifeLog := rfl
@[simp] theorem State.cleanMem_nvLog (s : State) (a n : Nat) : (s.cleanMem a n).nvLog = s.nvLog := rfl
@[simp] theorem State.cleanMem_icache (s : State) (a n : Nat) : (s.cleanMem a n).icache = s.icache := rfl
@[simp] theorem State.cleanMem_itlb (s : State) (a n : Nat) : (s.cleanMem a n).itlb = s.itlb := rfl
@[simp] theorem State.cleanMem_snoop (s : State) (a n : Nat) : (s.cleanMem a n).snoop = s.snoop := rfl
@[simp] theorem State.cleanMem_recalls (s : State) (a n : Nat) : (s.cleanMem a n).recalls = s.recalls := rfl
@[simp] theorem State.cleanMem_images (s : State) (a n : Nat) : (s.cleanMem a n).images = s.images := rfl
@[simp] theorem State.cleanMem_hostMem (s : State) (a n : Nat) : (s.cleanMem a n).hostMem = s.hostMem := rfl
@[simp] theorem State.cleanMem_hostRead (s : State) (a n : Nat) : (s.cleanMem a n).hostRead = s.hostRead := rfl
@[simp] theorem State.cleanMem_msix (s : State) (a n : Nat) : (s.cleanMem a n).msix = s.msix := rfl
@[simp] theorem State.cleanMem_cur (s : State) (a n : Nat) : (s.cleanMem a n).cur = s.cur := rfl
@[simp] theorem State.cleanMem_eager (s : State) (a n : Nat) : (s.cleanMem a n).eager = s.eager := rfl
@[simp] theorem State.cleanMem_agenda (s : State) (a n : Nat) : (s.cleanMem a n).agenda = s.agenda := rfl
@[simp] theorem State.cleanMem_picks (s : State) (a n : Nat) : (s.cleanMem a n).picks = s.picks := rfl
@[simp] theorem State.cleanMem_freeCtr (s : State) (a n : Nat) : (s.cleanMem a n).freeCtr = s.freeCtr := rfl

@[simp] theorem State.poisonMem_mem (s : State) (a n : Nat) : (s.poisonMem a n).mem = s.mem := rfl
@[simp] theorem State.poisonMem_cores (s : State) (a n : Nat) : (s.poisonMem a n).cores = s.cores := rfl
@[simp] theorem State.poisonMem_tenants (s : State) (a n : Nat) : (s.poisonMem a n).tenants = s.tenants := rfl
@[simp] theorem State.poisonMem_sac (s : State) (a n : Nat) : (s.poisonMem a n).sac = s.sac := rfl
@[simp] theorem State.poisonMem_sacBusy (s : State) (a n : Nat) : (s.poisonMem a n).sacBusy = s.sacBusy := rfl
@[simp] theorem State.poisonMem_slcBlks (s : State) (a n : Nat) : (s.poisonMem a n).slcBlks = s.slcBlks := rfl
@[simp] theorem State.poisonMem_groups (s : State) (a n : Nat) : (s.poisonMem a n).groups = s.groups := rfl
@[simp] theorem State.poisonMem_net (s : State) (a n : Nat) : (s.poisonMem a n).net = s.net := rfl
@[simp] theorem State.poisonMem_sent (s : State) (a n : Nat) : (s.poisonMem a n).sent = s.sent := rfl
@[simp] theorem State.poisonMem_applied (s : State) (a n : Nat) : (s.poisonMem a n).applied = s.applied := rfl
@[simp] theorem State.poisonMem_crowd (s : State) (a n : Nat) : (s.poisonMem a n).crowd = s.crowd := rfl
@[simp] theorem State.poisonMem_cmds (s : State) (a n : Nat) : (s.poisonMem a n).cmds = s.cmds := rfl
@[simp] theorem State.poisonMem_nextId (s : State) (a n : Nat) : (s.poisonMem a n).nextId = s.nextId := rfl
@[simp] theorem State.poisonMem_cycle (s : State) (a n : Nat) : (s.poisonMem a n).cycle = s.cycle := rfl
@[simp] theorem State.poisonMem_ctlRuns (s : State) (a n : Nat) : (s.poisonMem a n).ctlRuns = s.ctlRuns := rfl
@[simp] theorem State.poisonMem_served (s : State) (a n : Nat) : (s.poisonMem a n).served = s.served := rfl
@[simp] theorem State.poisonMem_forecast (s : State) (a n : Nat) : (s.poisonMem a n).forecast = s.forecast := rfl
@[simp] theorem State.poisonMem_devstat (s : State) (a n : Nat) : (s.poisonMem a n).devstat = s.devstat := rfl
@[simp] theorem State.poisonMem_powered (s : State) (a n : Nat) : (s.poisonMem a n).powered = s.powered := rfl
@[simp] theorem State.poisonMem_powerLimit (s : State) (a n : Nat) : (s.poisonMem a n).powerLimit = s.powerLimit := rfl
@[simp] theorem State.poisonMem_clockSteps (s : State) (a n : Nat) : (s.poisonMem a n).clockSteps = s.clockSteps := rfl
@[simp] theorem State.poisonMem_hotDies (s : State) (a n : Nat) : (s.poisonMem a n).hotDies = s.hotDies := rfl
@[simp] theorem State.poisonMem_ports (s : State) (a n : Nat) : (s.poisonMem a n).ports = s.ports := rfl
@[simp] theorem State.poisonMem_lifeLog (s : State) (a n : Nat) : (s.poisonMem a n).lifeLog = s.lifeLog := rfl
@[simp] theorem State.poisonMem_nvLog (s : State) (a n : Nat) : (s.poisonMem a n).nvLog = s.nvLog := rfl
@[simp] theorem State.poisonMem_icache (s : State) (a n : Nat) : (s.poisonMem a n).icache = s.icache := rfl
@[simp] theorem State.poisonMem_itlb (s : State) (a n : Nat) : (s.poisonMem a n).itlb = s.itlb := rfl
@[simp] theorem State.poisonMem_snoop (s : State) (a n : Nat) : (s.poisonMem a n).snoop = s.snoop := rfl
@[simp] theorem State.poisonMem_recalls (s : State) (a n : Nat) : (s.poisonMem a n).recalls = s.recalls := rfl
@[simp] theorem State.poisonMem_images (s : State) (a n : Nat) : (s.poisonMem a n).images = s.images := rfl
@[simp] theorem State.poisonMem_hostMem (s : State) (a n : Nat) : (s.poisonMem a n).hostMem = s.hostMem := rfl
@[simp] theorem State.poisonMem_hostRead (s : State) (a n : Nat) : (s.poisonMem a n).hostRead = s.hostRead := rfl
@[simp] theorem State.poisonMem_msix (s : State) (a n : Nat) : (s.poisonMem a n).msix = s.msix := rfl
@[simp] theorem State.poisonMem_cur (s : State) (a n : Nat) : (s.poisonMem a n).cur = s.cur := rfl
@[simp] theorem State.poisonMem_eager (s : State) (a n : Nat) : (s.poisonMem a n).eager = s.eager := rfl
@[simp] theorem State.poisonMem_agenda (s : State) (a n : Nat) : (s.poisonMem a n).agenda = s.agenda := rfl
@[simp] theorem State.poisonMem_picks (s : State) (a n : Nat) : (s.poisonMem a n).picks = s.picks := rfl
@[simp] theorem State.poisonMem_freeCtr (s : State) (a n : Nat) : (s.poisonMem a n).freeCtr = s.freeCtr := rfl

@[simp] theorem State.modCtxOf_mem (s : State) (c u : Nat) (f : Ctx → Ctx) : (s.modCtxOf c u f).mem = s.mem := rfl
@[simp] theorem State.modCtxOf_memPoison (s : State) (c u : Nat) (f : Ctx → Ctx) : (s.modCtxOf c u f).memPoison = s.memPoison := rfl
@[simp] theorem State.modCtxOf_tenants (s : State) (c u : Nat) (f : Ctx → Ctx) : (s.modCtxOf c u f).tenants = s.tenants := rfl
@[simp] theorem State.modCtxOf_sac (s : State) (c u : Nat) (f : Ctx → Ctx) : (s.modCtxOf c u f).sac = s.sac := rfl
@[simp] theorem State.modCtxOf_sacBusy (s : State) (c u : Nat) (f : Ctx → Ctx) : (s.modCtxOf c u f).sacBusy = s.sacBusy := rfl
@[simp] theorem State.modCtxOf_slcBlks (s : State) (c u : Nat) (f : Ctx → Ctx) : (s.modCtxOf c u f).slcBlks = s.slcBlks := rfl
@[simp] theorem State.modCtxOf_groups (s : State) (c u : Nat) (f : Ctx → Ctx) : (s.modCtxOf c u f).groups = s.groups := rfl
@[simp] theorem State.modCtxOf_net (s : State) (c u : Nat) (f : Ctx → Ctx) : (s.modCtxOf c u f).net = s.net := rfl
@[simp] theorem State.modCtxOf_sent (s : State) (c u : Nat) (f : Ctx → Ctx) : (s.modCtxOf c u f).sent = s.sent := rfl
@[simp] theorem State.modCtxOf_applied (s : State) (c u : Nat) (f : Ctx → Ctx) : (s.modCtxOf c u f).applied = s.applied := rfl
@[simp] theorem State.modCtxOf_crowd (s : State) (c u : Nat) (f : Ctx → Ctx) : (s.modCtxOf c u f).crowd = s.crowd := rfl
@[simp] theorem State.modCtxOf_cmds (s : State) (c u : Nat) (f : Ctx → Ctx) : (s.modCtxOf c u f).cmds = s.cmds := rfl
@[simp] theorem State.modCtxOf_nextId (s : State) (c u : Nat) (f : Ctx → Ctx) : (s.modCtxOf c u f).nextId = s.nextId := rfl
@[simp] theorem State.modCtxOf_cycle (s : State) (c u : Nat) (f : Ctx → Ctx) : (s.modCtxOf c u f).cycle = s.cycle := rfl
@[simp] theorem State.modCtxOf_ctlRuns (s : State) (c u : Nat) (f : Ctx → Ctx) : (s.modCtxOf c u f).ctlRuns = s.ctlRuns := rfl
@[simp] theorem State.modCtxOf_served (s : State) (c u : Nat) (f : Ctx → Ctx) : (s.modCtxOf c u f).served = s.served := rfl
@[simp] theorem State.modCtxOf_forecast (s : State) (c u : Nat) (f : Ctx → Ctx) : (s.modCtxOf c u f).forecast = s.forecast := rfl
@[simp] theorem State.modCtxOf_devstat (s : State) (c u : Nat) (f : Ctx → Ctx) : (s.modCtxOf c u f).devstat = s.devstat := rfl
@[simp] theorem State.modCtxOf_powered (s : State) (c u : Nat) (f : Ctx → Ctx) : (s.modCtxOf c u f).powered = s.powered := rfl
@[simp] theorem State.modCtxOf_powerLimit (s : State) (c u : Nat) (f : Ctx → Ctx) : (s.modCtxOf c u f).powerLimit = s.powerLimit := rfl
@[simp] theorem State.modCtxOf_clockSteps (s : State) (c u : Nat) (f : Ctx → Ctx) : (s.modCtxOf c u f).clockSteps = s.clockSteps := rfl
@[simp] theorem State.modCtxOf_hotDies (s : State) (c u : Nat) (f : Ctx → Ctx) : (s.modCtxOf c u f).hotDies = s.hotDies := rfl
@[simp] theorem State.modCtxOf_ports (s : State) (c u : Nat) (f : Ctx → Ctx) : (s.modCtxOf c u f).ports = s.ports := rfl
@[simp] theorem State.modCtxOf_lifeLog (s : State) (c u : Nat) (f : Ctx → Ctx) : (s.modCtxOf c u f).lifeLog = s.lifeLog := rfl
@[simp] theorem State.modCtxOf_nvLog (s : State) (c u : Nat) (f : Ctx → Ctx) : (s.modCtxOf c u f).nvLog = s.nvLog := rfl
@[simp] theorem State.modCtxOf_icache (s : State) (c u : Nat) (f : Ctx → Ctx) : (s.modCtxOf c u f).icache = s.icache := rfl
@[simp] theorem State.modCtxOf_itlb (s : State) (c u : Nat) (f : Ctx → Ctx) : (s.modCtxOf c u f).itlb = s.itlb := rfl
@[simp] theorem State.modCtxOf_snoop (s : State) (c u : Nat) (f : Ctx → Ctx) : (s.modCtxOf c u f).snoop = s.snoop := rfl
@[simp] theorem State.modCtxOf_recalls (s : State) (c u : Nat) (f : Ctx → Ctx) : (s.modCtxOf c u f).recalls = s.recalls := rfl
@[simp] theorem State.modCtxOf_images (s : State) (c u : Nat) (f : Ctx → Ctx) : (s.modCtxOf c u f).images = s.images := rfl
@[simp] theorem State.modCtxOf_hostMem (s : State) (c u : Nat) (f : Ctx → Ctx) : (s.modCtxOf c u f).hostMem = s.hostMem := rfl
@[simp] theorem State.modCtxOf_hostRead (s : State) (c u : Nat) (f : Ctx → Ctx) : (s.modCtxOf c u f).hostRead = s.hostRead := rfl
@[simp] theorem State.modCtxOf_msix (s : State) (c u : Nat) (f : Ctx → Ctx) : (s.modCtxOf c u f).msix = s.msix := rfl
@[simp] theorem State.modCtxOf_cur (s : State) (c u : Nat) (f : Ctx → Ctx) : (s.modCtxOf c u f).cur = s.cur := rfl
@[simp] theorem State.modCtxOf_eager (s : State) (c u : Nat) (f : Ctx → Ctx) : (s.modCtxOf c u f).eager = s.eager := rfl
@[simp] theorem State.modCtxOf_agenda (s : State) (c u : Nat) (f : Ctx → Ctx) : (s.modCtxOf c u f).agenda = s.agenda := rfl
@[simp] theorem State.modCtxOf_picks (s : State) (c u : Nat) (f : Ctx → Ctx) : (s.modCtxOf c u f).picks = s.picks := rfl
@[simp] theorem State.modCtxOf_freeCtr (s : State) (c u : Nat) (f : Ctx → Ctx) : (s.modCtxOf c u f).freeCtr = s.freeCtr := rfl

@[simp] theorem State.modCtx_mem (s : State) (c : Nat) (f : Ctx → Ctx) : (s.modCtx c f).mem = s.mem := by unfold State.modCtx; split <;> rfl
@[simp] theorem State.modCtx_memPoison (s : State) (c : Nat) (f : Ctx → Ctx) : (s.modCtx c f).memPoison = s.memPoison := by unfold State.modCtx; split <;> rfl
@[simp] theorem State.modCtx_tenants (s : State) (c : Nat) (f : Ctx → Ctx) : (s.modCtx c f).tenants = s.tenants := by unfold State.modCtx; split <;> rfl
@[simp] theorem State.modCtx_sac (s : State) (c : Nat) (f : Ctx → Ctx) : (s.modCtx c f).sac = s.sac := by unfold State.modCtx; split <;> rfl
@[simp] theorem State.modCtx_sacBusy (s : State) (c : Nat) (f : Ctx → Ctx) : (s.modCtx c f).sacBusy = s.sacBusy := by unfold State.modCtx; split <;> rfl
@[simp] theorem State.modCtx_slcBlks (s : State) (c : Nat) (f : Ctx → Ctx) : (s.modCtx c f).slcBlks = s.slcBlks := by unfold State.modCtx; split <;> rfl
@[simp] theorem State.modCtx_groups (s : State) (c : Nat) (f : Ctx → Ctx) : (s.modCtx c f).groups = s.groups := by unfold State.modCtx; split <;> rfl
@[simp] theorem State.modCtx_net (s : State) (c : Nat) (f : Ctx → Ctx) : (s.modCtx c f).net = s.net := by unfold State.modCtx; split <;> rfl
@[simp] theorem State.modCtx_sent (s : State) (c : Nat) (f : Ctx → Ctx) : (s.modCtx c f).sent = s.sent := by unfold State.modCtx; split <;> rfl
@[simp] theorem State.modCtx_applied (s : State) (c : Nat) (f : Ctx → Ctx) : (s.modCtx c f).applied = s.applied := by unfold State.modCtx; split <;> rfl
@[simp] theorem State.modCtx_crowd (s : State) (c : Nat) (f : Ctx → Ctx) : (s.modCtx c f).crowd = s.crowd := by unfold State.modCtx; split <;> rfl
@[simp] theorem State.modCtx_cmds (s : State) (c : Nat) (f : Ctx → Ctx) : (s.modCtx c f).cmds = s.cmds := by unfold State.modCtx; split <;> rfl
@[simp] theorem State.modCtx_nextId (s : State) (c : Nat) (f : Ctx → Ctx) : (s.modCtx c f).nextId = s.nextId := by unfold State.modCtx; split <;> rfl
@[simp] theorem State.modCtx_cycle (s : State) (c : Nat) (f : Ctx → Ctx) : (s.modCtx c f).cycle = s.cycle := by unfold State.modCtx; split <;> rfl
@[simp] theorem State.modCtx_ctlRuns (s : State) (c : Nat) (f : Ctx → Ctx) : (s.modCtx c f).ctlRuns = s.ctlRuns := by unfold State.modCtx; split <;> rfl
@[simp] theorem State.modCtx_served (s : State) (c : Nat) (f : Ctx → Ctx) : (s.modCtx c f).served = s.served := by unfold State.modCtx; split <;> rfl
@[simp] theorem State.modCtx_forecast (s : State) (c : Nat) (f : Ctx → Ctx) : (s.modCtx c f).forecast = s.forecast := by unfold State.modCtx; split <;> rfl
@[simp] theorem State.modCtx_devstat (s : State) (c : Nat) (f : Ctx → Ctx) : (s.modCtx c f).devstat = s.devstat := by unfold State.modCtx; split <;> rfl
@[simp] theorem State.modCtx_powered (s : State) (c : Nat) (f : Ctx → Ctx) : (s.modCtx c f).powered = s.powered := by unfold State.modCtx; split <;> rfl
@[simp] theorem State.modCtx_powerLimit (s : State) (c : Nat) (f : Ctx → Ctx) : (s.modCtx c f).powerLimit = s.powerLimit := by unfold State.modCtx; split <;> rfl
@[simp] theorem State.modCtx_clockSteps (s : State) (c : Nat) (f : Ctx → Ctx) : (s.modCtx c f).clockSteps = s.clockSteps := by unfold State.modCtx; split <;> rfl
@[simp] theorem State.modCtx_hotDies (s : State) (c : Nat) (f : Ctx → Ctx) : (s.modCtx c f).hotDies = s.hotDies := by unfold State.modCtx; split <;> rfl
@[simp] theorem State.modCtx_ports (s : State) (c : Nat) (f : Ctx → Ctx) : (s.modCtx c f).ports = s.ports := by unfold State.modCtx; split <;> rfl
@[simp] theorem State.modCtx_lifeLog (s : State) (c : Nat) (f : Ctx → Ctx) : (s.modCtx c f).lifeLog = s.lifeLog := by unfold State.modCtx; split <;> rfl
@[simp] theorem State.modCtx_nvLog (s : State) (c : Nat) (f : Ctx → Ctx) : (s.modCtx c f).nvLog = s.nvLog := by unfold State.modCtx; split <;> rfl
@[simp] theorem State.modCtx_icache (s : State) (c : Nat) (f : Ctx → Ctx) : (s.modCtx c f).icache = s.icache := by unfold State.modCtx; split <;> rfl
@[simp] theorem State.modCtx_itlb (s : State) (c : Nat) (f : Ctx → Ctx) : (s.modCtx c f).itlb = s.itlb := by unfold State.modCtx; split <;> rfl
@[simp] theorem State.modCtx_snoop (s : State) (c : Nat) (f : Ctx → Ctx) : (s.modCtx c f).snoop = s.snoop := by unfold State.modCtx; split <;> rfl
@[simp] theorem State.modCtx_recalls (s : State) (c : Nat) (f : Ctx → Ctx) : (s.modCtx c f).recalls = s.recalls := by unfold State.modCtx; split <;> rfl
@[simp] theorem State.modCtx_images (s : State) (c : Nat) (f : Ctx → Ctx) : (s.modCtx c f).images = s.images := by unfold State.modCtx; split <;> rfl
@[simp] theorem State.modCtx_hostMem (s : State) (c : Nat) (f : Ctx → Ctx) : (s.modCtx c f).hostMem = s.hostMem := by unfold State.modCtx; split <;> rfl
@[simp] theorem State.modCtx_hostRead (s : State) (c : Nat) (f : Ctx → Ctx) : (s.modCtx c f).hostRead = s.hostRead := by unfold State.modCtx; split <;> rfl
@[simp] theorem State.modCtx_msix (s : State) (c : Nat) (f : Ctx → Ctx) : (s.modCtx c f).msix = s.msix := by unfold State.modCtx; split <;> rfl
@[simp] theorem State.modCtx_cur (s : State) (c : Nat) (f : Ctx → Ctx) : (s.modCtx c f).cur = s.cur := by unfold State.modCtx; split <;> rfl
@[simp] theorem State.modCtx_eager (s : State) (c : Nat) (f : Ctx → Ctx) : (s.modCtx c f).eager = s.eager := by unfold State.modCtx; split <;> rfl
@[simp] theorem State.modCtx_agenda (s : State) (c : Nat) (f : Ctx → Ctx) : (s.modCtx c f).agenda = s.agenda := by unfold State.modCtx; split <;> rfl
@[simp] theorem State.modCtx_picks (s : State) (c : Nat) (f : Ctx → Ctx) : (s.modCtx c f).picks = s.picks := by unfold State.modCtx; split <;> rfl
@[simp] theorem State.modCtx_freeCtr (s : State) (c : Nat) (f : Ctx → Ctx) : (s.modCtx c f).freeCtr = s.freeCtr := by unfold State.modCtx; split <;> rfl

/-! ## Cores and contexts read back -/

@[simp] theorem State.core_setCore_self (s : State) (c : Nat) (k : Core) : (s.setCore c k).core c = k := by
  simp [State.core, State.setCore]

theorem State.core_setCore_ne (s : State) {c d : Nat} (k : Core) (h : c ≠ d) : (s.setCore c k).core d = s.core d := by
  simp [State.core, State.setCore, Map.get_ins_ne _ _ _ h]

@[simp] theorem State.core_modCore_self (s : State) (c : Nat) (f : Core → Core) : (s.modCore c f).core c = f (s.core c) := by
  simp [State.modCore]

theorem State.core_modCore_ne (s : State) {c d : Nat} (f : Core → Core) (h : c ≠ d) : (s.modCore c f).core d = s.core d := by
  simp [State.modCore, State.core_setCore_ne _ _ h]

@[simp] theorem State.core_setCtx_self (s : State) (c : Nat) (x : Ctx) : (s.setCtx c x).core c = { s.core c with res := some x } := by
  simp [State.setCtx]

theorem State.core_setCtx_ne (s : State) {c d : Nat} (x : Ctx) (h : c ≠ d) : (s.setCtx c x).core d = s.core d := by
  simp [State.setCtx, State.core_setCore_ne _ _ h]

@[simp] theorem State.ctx_setCtx_self (s : State) (c : Nat) (x : Ctx) : (s.setCtx c x).ctx c = some x := by
  simp [State.ctx]

@[simp] theorem State.ctx_setCore_self (s : State) (c : Nat) (k : Core) : (s.setCore c k).ctx c = k.res := by
  simp [State.ctx]

@[simp] theorem State.ctx_modCore_self (s : State) (c : Nat) (f : Core → Core) : (s.modCore c f).ctx c = (f (s.core c)).res := by
  simp [State.ctx]

/-- The later of two writes of a core holds. -/
@[simp] theorem State.setCore_setCore (s : State) (c : Nat) (k l : Core) : (s.setCore c k).setCore c l = s.setCore c l := by
  simp [State.setCore]

@[simp] theorem State.setCtx_setCtx (s : State) (c : Nat) (x y : Ctx) : (s.setCtx c x).setCtx c y = s.setCtx c y := by
  simp [State.setCtx]

@[simp] theorem State.setCtx_setCore (s : State) (c : Nat) (k : Core) (x : Ctx) :
    (s.setCore c k).setCtx c x = s.setCore c { k with res := some x } := by
  simp [State.setCtx]

/-- A change of the resident context, where there is one. -/
theorem State.modCtx_of (s : State) {c : Nat} {x : Ctx} (h : s.ctx c = some x) (f : Ctx → Ctx) : s.modCtx c f = s.setCtx c (f x) := by
  simp [State.modCtx, h]

@[simp] theorem State.modCtx_setCtx (s : State) (c : Nat) (x : Ctx) (f : Ctx → Ctx) : (s.setCtx c x).modCtx c f = s.setCtx c (f x) := by
  rw [State.modCtx_of _ (State.ctx_setCtx_self s c x)]; simp

theorem State.modCtx_modCtx (s : State) (c : Nat) (f g : Ctx → Ctx) : (s.modCtx c f).modCtx c g = s.modCtx c (fun x => g (f x)) := by
  cases h : s.ctx c with
  | none => simp [State.modCtx, h]
  | some x => rw [State.modCtx_of s h, State.modCtx_setCtx, State.modCtx_of s h]

theorem State.ctx_modCtx_self (s : State) (c : Nat) (f : Ctx → Ctx) : (s.modCtx c f).ctx c = (s.ctx c).map f := by
  cases h : s.ctx c with
  | none => simp [State.modCtx, h]
  | some x => rw [State.modCtx_of s h]; simp

theorem State.core_modCtx_ne (s : State) {c d : Nat} (f : Ctx → Ctx) (h : c ≠ d) : (s.modCtx c f).core d = s.core d := by
  unfold State.modCtx; split
  · exact State.core_setCtx_ne _ _ h
  · rfl

/-- A change of a core's resident context leaves the rest of the core. -/
theorem State.core_modCtx_self (s : State) (c : Nat) (f : Ctx → Ctx) : (s.modCtx c f).core c = { s.core c with res := (s.ctx c).map f } := by
  cases h : s.ctx c with
  | none =>
    have hr : (s.core c).res = none := h
    simp only [State.modCtx, h, Option.map_none]
    rw [← hr]
  | some x => rw [State.modCtx_of s h]; simp

/-! ## Tenants read back -/

@[simp] theorem State.tenant_setTenant_self (s : State) (t : Nat) (v : Tenant) : (s.setTenant t v).tenant t = v := by
  simp [State.tenant, State.setTenant]

theorem State.tenant_setTenant_ne (s : State) {t u : Nat} (v : Tenant) (h : t ≠ u) : (s.setTenant t v).tenant u = s.tenant u := by
  simp [State.tenant, State.setTenant, Map.get_ins_ne _ _ _ h]

@[simp] theorem State.tenant_modTenant_self (s : State) (t : Nat) (f : Tenant → Tenant) : (s.modTenant t f).tenant t = f (s.tenant t) := by
  simp [State.modTenant]

@[simp] theorem State.tenant_setCore (s : State) (c : Nat) (k : Core) (t : Nat) : (s.setCore c k).tenant t = s.tenant t := rfl
@[simp] theorem State.tenant_modCore (s : State) (c : Nat) (f : Core → Core) (t : Nat) : (s.modCore c f).tenant t = s.tenant t := rfl
@[simp] theorem State.tenant_setCtx (s : State) (c : Nat) (x : Ctx) (t : Nat) : (s.setCtx c x).tenant t = s.tenant t := rfl
@[simp] theorem State.tenant_modCtx (s : State) (c : Nat) (f : Ctx → Ctx) (t : Nat) : (s.modCtx c f).tenant t = s.tenant t := by
  simp [State.tenant]
@[simp] theorem State.core_setTenant (s : State) (t : Nat) (v : Tenant) (c : Nat) : (s.setTenant t v).core c = s.core c := rfl
@[simp] theorem State.core_modTenant (s : State) (t : Nat) (f : Tenant → Tenant) (c : Nat) : (s.modTenant t f).core c = s.core c := rfl
@[simp] theorem State.ctx_modTenant (s : State) (t : Nat) (f : Tenant → Tenant) (c : Nat) : (s.modTenant t f).ctx c = s.ctx c := rfl

/-! ## Registers and predicates (R86, R89) -/

/-- A register written is read back, and every other one reads as before. -/
theorem Ctx.reg_setReg (x : Ctx) (k l : Nat) (v : Dword) : (x.setReg k v).reg l = if k = l then v else x.reg l := by
  simp [Ctx.reg, Ctx.setReg, Map.get_put]

/-- A predicate but p0 is read back; p0 reads as all ones. -/
theorem Ctx.pred_setPred (x : Ctx) (k l : Nat) (v : Pred) :
    (x.setPred k v).pred l = if k = l ∧ k ≠ 0 then v else x.pred l := by
  by_cases hk : k = 0
  · simp [Ctx.setPred, hk]
  · by_cases hl : l = 0
    · subst hl; simp [Ctx.pred, hk]
    · simp [Ctx.setPred, Ctx.pred, hk, hl, Map.get_put]

/-! ## Memory (R4) -/

@[simp] theorem State.byte_putByte (s : State) (a b : Nat) (v : Byte) : (s.putByte a v).byte b = if a = b then v else s.byte b := by
  simp [State.byte, State.putByte, Map.get_put]

@[simp] theorem State.byte_setCore (s : State) (c : Nat) (k : Core) (a : Nat) : (s.setCore c k).byte a = s.byte a := rfl
@[simp] theorem State.byte_setCtx (s : State) (c : Nat) (x : Ctx) (a : Nat) : (s.setCtx c x).byte a = s.byte a := rfl
@[simp] theorem State.byte_modCore (s : State) (c : Nat) (f : Core → Core) (a : Nat) : (s.modCore c f).byte a = s.byte a := rfl
@[simp] theorem State.byte_modCtx (s : State) (c : Nat) (f : Ctx → Ctx) (a : Nat) : (s.modCtx c f).byte a = s.byte a := by
  simp [State.byte]
@[simp] theorem State.byte_modTenant (s : State) (t : Nat) (f : Tenant → Tenant) (a : Nat) : (s.modTenant t f).byte a = s.byte a := rfl
@[simp] theorem State.byte_cleanMem (s : State) (a n b : Nat) : (s.cleanMem a n).byte b = s.byte b := rfl

/-- A store leaves every byte outside it. -/
theorem State.byte_writeN_out (n : Nat) : ∀ (s : State) (a v b : Nat), b < a ∨ a + n ≤ b → (s.writeN a n v).byte b = s.byte b := by
  induction n with
  | zero => intro s a v b _; rfl
  | succ n ih =>
    intro s a v b h
    rw [State.writeN, ih _ _ _ _ (by omega), State.byte_putByte, if_neg (by omega)]

/-- A store is read back (R4). -/
theorem State.readN_writeN (n : Nat) : ∀ (s : State) (a v : Nat), (s.writeN a n v).readN a n = v % 256 ^ n := by
  induction n with
  | zero => intro s a v; simp [State.readN, Nat.mod_one]
  | succ n ih =>
    intro s a v
    rw [State.writeN, State.readN, ih, State.byte_writeN_out _ _ _ _ _ (by omega), State.byte_putByte, if_pos rfl]
    simp only [BitVec.toNat_ofNat]
    rw [show 2 ^ 8 = 256 from rfl, Nat.pow_succ, Nat.mul_comm (256 ^ n) 256, Nat.mod_mul]

/-- Memory kept in its canonical form by a byte write, and by every longer one. -/
theorem State.memWf_putByte {s : State} (h : s.memWf = true) (a : Nat) (b : Byte) : (s.putByte a b).memWf = true :=
  Map.wf_put h a b

theorem State.memWf_writeN (n : Nat) : ∀ {s : State} (_ : s.memWf = true) (a v : Nat), (s.writeN a n v).memWf = true := by
  induction n with
  | zero => intro s h a v; exact h
  | succ n ih => intro s h a v; exact ih (State.memWf_putByte h a _) _ _

theorem State.memWf_writeBytes (bs : List Byte) : ∀ {s : State} (_ : s.memWf = true) (a : Nat), (s.writeBytes a bs).memWf = true := by
  induction bs with
  | nil => intro s h a; exact h
  | cons b t ih => intro s h a; exact ih (State.memWf_putByte h a b) _

end Sys2Proof.Machine
end

