-- ==== Sys2Proof/Laws/Capture.lean ====
section
/-! SUPPORT. What capture and the start of a word do where nothing holds the word up (R32, R33, R35), stated once for
every word. -/

namespace Sys2Proof

/-- The instructions whose named accesses stand from their capture on: all but `ldg` and `stg` (R102). -/
def Instr.still : Instr → Bool
  | .ldg .. | .stg .. => false
  | _ => true

end Sys2Proof

namespace Sys2Proof.Machine

/-! ## Ports popped and stalls ended -/

theorem endStall_ctx (s : State) (c : Nat) (x : Ctx) (d : Nat) : (endStall s c x).ctx d = s.ctx d := by
  have h : ∀ k n, (s.count c k n).ctx d = s.ctx d := by
    intro k n
    unfold State.count
    split
    · rfl
    · by_cases hd : c = d
      · subst hd; simp [State.ctx, Core.count]
      · simp [State.ctx, State.core_modCore_ne _ _ hd]
  unfold endStall
  split <;> simp [h]

theorem endStall_open (s : State) (c : Nat) (x : Ctx) : (endStall s c x).snoop = s.snoop ∧ (endStall s c x).picks = s.picks := by
  have h : ∀ k n, (s.count c k n).snoop = s.snoop ∧ (s.count c k n).picks = s.picks := by
    intro k n; unfold State.count; split <;> exact ⟨rfl, rfl⟩
  unfold endStall
  split <;> simp [h]

/-- What popping leaves of the popping context: all but its q6 and its channels. -/
def PopLeft (x y : Ctx) : Prop := ∃ q ch, y = { x with q6 := q, chans := ch }

theorem PopLeft.refl (x : Ctx) : PopLeft x x := ⟨x.q6, x.chans, rfl⟩

theorem PopLeft.trans {x y z : Ctx} : PopLeft x y → PopLeft y z → PopLeft x z := by
  rintro ⟨q, ch, rfl⟩ ⟨q2, ch2, rfl⟩
  exact ⟨q2, ch2, rfl⟩

/-- Paying for a packet changes its tenant's buckets alone. -/
theorem State.pay_eq (s : State) (c : Nat) (p : Packet) : ∃ m, s.pay c p = { s with tenants := m } := by
  unfold State.pay
  simp only
  split
  · exact ⟨s.tenants, rfl⟩
  · exact ⟨_, rfl⟩

/-- Sending a packet lists it, keeps its copy, counts it with its command, and charges its tenant: nothing else changes. -/
theorem State.send_eq (s : State) (p : Packet) : ∃ n m k t, s.send p =
    { s with net := n, sent := m, cmds := k, tenants := t, nextId := s.nextId + 1 } := by
  unfold State.send
  simp only
  split
  · split
    · split
      · exact ⟨_, _, _, _, rfl⟩
      · rename_i c _ _ _
        obtain ⟨t, h⟩ := State.pay_eq { s with
          nextId := s.nextId + 1
          cmds := Map.modify s.cmds p.cmd (fun m => { m with sent := m.sent + p.kind.isBeat, blocks := m.blocks + p.kind.isBlock, rows := m.rows + p.kind.isRow })
          sent := if p.kind.kept p.cls then Map.ins s.sent s.nextId { p with seq := s.nextId, sentAt := s.cycle } else s.sent } c p
        rw [h]
        exact ⟨_, _, _, _, rfl⟩
    · exact ⟨_, _, _, _, rfl⟩
  · exact ⟨_, _, _, _, rfl⟩

theorem State.core_send (s : State) (p : Packet) (c : Nat) : (s.send p).core c = s.core c := by
  obtain ⟨n, m, k, t, h⟩ := State.send_eq s p; rw [h]; rfl

theorem State.ctx_send (s : State) (p : Packet) (c : Nat) : (s.send p).ctx c = s.ctx c := by
  unfold State.ctx; rw [State.core_send]

theorem popPorts_ctx (c : Nat) (ks : List Nat) : ∀ (s : State) (x : Ctx), s.ctx c = some x →
    ∃ y, (popPorts s c ks).ctx c = some y ∧ PopLeft x y := by
  induction ks with
  | nil => intro s x h; exact ⟨x, h, PopLeft.refl x⟩
  | cons k ks ih =>
    intro s x h
    simp only [popPorts]
    split
    · rw [State.modCtx_of s h]
      obtain ⟨y, hy, hp⟩ := ih _ _ (State.ctx_setCtx_self s c _)
      exact ⟨y, hy, PopLeft.trans ⟨x.q6.drop 1, x.chans, rfl⟩ hp⟩
    · split
      · simp only [h]
        exact ih _ x (by rw [State.ctx_modCore_self]; exact h)
      · rw [State.modCtx_of s h]
        simp only [State.ctx_setCtx_self]
        obtain ⟨y, hy, hp⟩ := ih _ _ ((State.ctx_send _ _ c).trans (State.ctx_setCtx_self s c _))
        exact ⟨y, hy, PopLeft.trans ⟨x.q6, _, rfl⟩ hp⟩

theorem popPorts_open (c : Nat) (ks : List Nat) : ∀ (s : State),
    (popPorts s c ks).snoop = s.snoop ∧ (popPorts s c ks).picks = s.picks := by
  induction ks with
  | nil => intro s; exact ⟨rfl, rfl⟩
  | cons k ks ih =>
    intro s
    simp only [popPorts]
    split
    · rw [(ih _).1, (ih _).2]; simp
    · split
      · split <;> rw [(ih _).1, (ih _).2] <;> simp
      · split
        · rw [(ih _).1, (ih _).2]
          generalize hp : Packet.mk .. = p
          obtain ⟨_, _, _, _, h⟩ := State.send_eq (s.modCtx c _) p
          rw [h]; simp
        · rw [(ih _).1, (ih _).2]; simp

/-! ## What popping and the end of a stall leave of the machine -/

/-- The parts of a core that capture's pops do not touch. -/
def SameCore (k l : Core) : Prop :=
  l.tiles = k.tiles ∧ l.tilePoison = k.tilePoison ∧ l.acc = k.acc ∧ l.accPoison = k.accPoison ∧ l.accInt = k.accInt
    ∧ l.spad = k.spad ∧ l.spadPoison = k.spadPoison ∧ l.owner = k.owner ∧ l.spilling = k.spilling ∧ l.saved = k.saved
    ∧ l.quiesce = k.quiesce ∧ l.sus = k.sus ∧ l.stlb = k.stlb ∧ l.gcache = k.gcache

theorem SameCore.refl (k : Core) : SameCore k k := by simp [SameCore]

theorem SameCore.trans {k l m : Core} (h : SameCore k l) (g : SameCore l m) : SameCore k m := by
  simp only [SameCore] at *
  obtain ⟨a1, a2, a3, a4, a5, a6, a7, a8, a9, a10, a11, a12, a13, a14⟩ := h
  obtain ⟨b1, b2, b3, b4, b5, b6, b7, b8, b9, b10, b11, b12, b13, b14⟩ := g
  exact ⟨b1.trans a1, b2.trans a2, b3.trans a3, b4.trans a4, b5.trans a5, b6.trans a6, b7.trans a7, b8.trans a8, b9.trans a9,
    b10.trans a10, b11.trans a11, b12.trans a12, b13.trans a13, b14.trans a14⟩

theorem endStall_core (s : State) (c : Nat) (x : Ctx) : SameCore (s.core c) ((endStall s c x).core c) := by
  have h : ∀ k n, SameCore (s.core c) ((s.count c k n).core c) := by
    intro k n
    unfold State.count
    split
    · exact SameCore.refl _
    · rw [State.core_modCore_self]; simp [SameCore, Core.count]
  unfold endStall
  split
  · exact h _ _
  · exact h _ _
  · exact SameCore.refl _

theorem SameCore.modCtx (s : State) (c : Nat) (f : Ctx → Ctx) : SameCore (s.core c) ((s.modCtx c f).core c) := by
  rw [State.core_modCtx_self]; simp [SameCore]

theorem popPorts_core (c : Nat) (ks : List Nat) : ∀ (s : State), SameCore (s.core c) ((popPorts s c ks).core c) := by
  induction ks with
  | nil => intro s; exact SameCore.refl _
  | cons k ks ih =>
    intro s
    simp only [popPorts]
    split
    · exact (SameCore.modCtx s c _).trans (ih _)
    · split
      · split
        · refine SameCore.trans ?_ (ih _)
          rw [State.core_modCore_self]; simp [SameCore, Core.setBox]
        · exact ih s
      · generalize ht : s.modCtx c _ = t
        have h1 : SameCore (s.core c) (t.core c) := by rw [← ht]; exact SameCore.modCtx s c _
        refine SameCore.trans h1 (SameCore.trans (l := State.core _ c) ?_ (ih _))
        split
        · rw [State.core_send]; exact SameCore.refl _
        · exact SameCore.refl _

/-- No packet of the tenant's is held for the core's engine. -/
theorem State.limited_false {s : State} {c k : Nat} {e : Engine} :
    s.limited c k e = false ↔ ∀ p ∈ s.net, p.2.st = PSt.held → p.2.src = Leaf.core c → p.2.tenant = k → p.2.kind.engine ≠ e := by
  simp [State.limited, List.any_eq_false]

theorem State.limited_credit {s : State} {c k : Nat} {e : Engine} (h : s.limited c k e = false) (p : Packet) (hc : p.cls = 4)
    (hs : p.st = PSt.flying) : (s.send p).limited c k e = false := by
  have key : ∀ (t : State) (q : Packet), q.st = PSt.flying → t.net = Map.ins s.net s.nextId q → t.limited c k e = false := by
    intro t q0 hf ht
    rw [State.limited_false] at h ⊢
    intro q hq
    rw [ht] at hq
    rcases Map.mem_ins hq with hq | hq
    · subst hq; simp [hf]
    · exact h q hq
  unfold State.send
  simp only [hc]
  split
  · rw [if_neg (by decide)]; refine key _ _ ?_ rfl; exact hs
  · refine key _ _ ?_ rfl; exact hs

theorem State.limited_net {s t : State} (h : t.net = s.net) (c k : Nat) (e : Engine) : t.limited c k e = s.limited c k e := by
  simp [State.limited, h]

theorem endStall_net (s : State) (c : Nat) (x : Ctx) : (endStall s c x).net = s.net := by
  have h : ∀ k n, (s.count c k n).net = s.net := by
    intro k n; unfold State.count; split <;> rfl
  unfold endStall; split <;> simp [h]

theorem popPorts_limited (c t : Nat) (ks : List Nat) : ∀ (s : State) (e : Engine), s.limited c t e = false →
    (popPorts s c ks).limited c t e = false := by
  induction ks with
  | nil => intro s e h; exact h
  | cons k ks ih =>
    intro s e h
    simp only [popPorts]
    split
    · exact ih _ _ (by rw [State.limited_net (State.modCtx_net _ _ _)]; exact h)
    · split
      · split
        · exact ih _ _ (by rw [State.limited_net (State.modCore_net _ _ _)]; exact h)
        · exact ih _ _ h
      · refine ih _ _ ?_
        have h2 : (s.modCtx c (fun x =>
            let ch := Map.get {} x.chans (k - 48)
            { x with chans := Map.ins x.chans (k - 48) { ch with elems := ch.elems.drop 1 } })).limited c t e = false := by
          rw [State.limited_net (State.modCtx_net _ _ _)]; exact h
        split
        · exact State.limited_credit h2 _ rfl rfl
        · exact h2

/-! ## Capture of an idle strand -/

theorem srcPending_idle {s : State} {x : Ctx} (h : Idle s x) (k : Nat) : srcPending x k = false := by
  unfold srcPending
  split
  · simp [h.queues, h.started]
  · split
    · split
      · rename_i i hr
        have := h.results _ (List.mem_of_getElem? hr)
        simp at this
      · rfl
    · rfl

theorem predPending_idle {s : State} {x : Ctx} (h : Idle s x) (p : Nat) : predPending x p = false := by
  simp [predPending, h.queues, h.started]

theorem sBusy_idle {s : State} {x : Ctx} (h : Idle s x) : x.sBusy = false := by
  simp [Ctx.sBusy, h.queues, h.started]

theorem csrPending_idle {s : State} {x : Ctx} (h : Idle s x) (e : Engine) : x.csrPending e = false := by
  simp [Ctx.csrPending, h.queues, h.started]

theorem captureShut_idle {s : State} {x : Ctx} (h : Idle s x) : s.captureShut s.cur x = false := by
  simp [State.captureShut, h.noTrap, h.notEnding, h.running, h.powered]

/-- A word of an idle strand that passes its checks is committed, does what it does as it passes capture, and is tried. -/
theorem issue_idle {i : Instr} {sp : CapSpec} {chk : State → Nat → Ctx → QWord → Chk} {act : State → Nat → QWord → State}
    {run : RunFn} {s : State} {x : Ctx} {vals : List Dword} {pops : List Nat} {w : QWord} (h : Idle s x)
    (hpriv : sp.priv = true → x.priv = true)
    (hdest : ∀ d, sp.pushed = some d → destTrap x d = false)
    (hread : readAll s s.cur x sp.srcs [] [] = .ok vals pops)
    (hhnd : sp.mem = true → x.grp.pfx.hasHnd = true → (Map.at? x.hnd x.grp.pfx.handle).isSome = true)
    (hchk : chk s s.cur x (mkWord x i sp vals) = .ok w)
    (hroom : (x.q6.length - pops.count 54) + q6Need sp ≤ Config.q6Depth)
    (hcred : creditStall s s.cur x sp = false) :
    issue i sp chk act run s =
      .next (tryStart run (act (commit s s.cur sp x w pops).1 s.cur (commit s s.cur sp x w pops).2) s.cur (commit s s.cur sp x w pops).2.seq) := by
  have hp : (sp.priv && !x.priv) = false := by
    cases hb : sp.priv with
    | false => rfl
    | true => simp [hpriv hb]
  have hs : (sp.srcs.any (fun k => srcPending x k) || sp.preds.any (fun p => predPending x p)
      || (x.grp.pfx.hasMod && x.grp.pfx.maskOn && predPending x x.grp.pfx.pred) || (sp.afterS && x.sBusy)
      || x.csrPending sp.eng) = false := by
    simp [srcPending_idle h, predPending_idle h, sBusy_idle h, csrPending_idle h]
  have hh : (sp.mem && x.grp.pfx.hasHnd && (Map.at? x.hnd x.grp.pfx.handle).isNone) = false := by
    cases hm : sp.mem with
    | false => rfl
    | true =>
      cases hb : x.grp.pfx.hasHnd with
      | false => simp
      | true =>
        have := hhnd hm hb
        simp only [Option.isSome_iff_exists] at this
        obtain ⟨v, hv⟩ := this
        simp [hv]
  unfold issue
  rw [h.resident]
  simp only [captureShut_idle h, Bool.false_eq_true, if_false]
  unfold capture
  have hst : x.steering = false := by simp [Ctx.steering, Ctx.queued, h.queues]
  rw [if_neg (by rw [hst]; decide), if_neg (by rw [hp]; decide), if_neg (by rw [hs]; decide), if_neg (by
    split
    · rename_i d hpd; rw [hdest d hpd]; decide
    · decide)]
  simp only [hread, hh, hchk, hcred, h.eager]
  have hq : ¬ (Config.q6Depth < (x.q6.length - pops.count 54) + q6Need sp) := Nat.not_lt.2 hroom
  rw [if_neg hq]
  simp

@[simp] theorem maskList_zero : maskList 0#6 = [] := by decide

/-- A word's named accesses follow the tables, not its context. -/
theorem State.placed_setCtx (s : State) (c d tid : Nat) (x : Ctx) (w : QWord) : (s.setCtx c x).placed d tid w = s.placed d tid w := by
  have hk : stlbLookup ((s.setCtx c x).core d) = stlbLookup (s.core d) := by
    by_cases h : c = d
    · subst h; rw [State.core_setCtx_self]; rfl
    · rw [State.core_setCtx_ne _ _ h]
  have hn : ∀ n a, State.readN (s.setCtx c x) a n = State.readN s a n := by
    intro n; induction n with
    | zero => intro a; rfl
    | succ n ih => intro a; simp only [State.readN]; rw [ih]; rfl
  have hw : ∀ l sh wd t va ta, walkFrom (s.setCtx c x) t va ta l sh wd = walkFrom s t va ta l sh wd := by
    intro l; induction l with
    | zero => intros; rfl
    | succ l ih => intro sh wd t va ta; simp only [walkFrom, hn, ih]; rfl
  have ht : ∀ va wr, stlbTranslate (s.setCtx c x) d tid va wr = stlbTranslate s d tid va wr := by
    intro va wr
    simp only [stlbTranslate, hk, translate, walk, hw]
    rfl
  unfold State.placed globFoot
  simp only [ht]

/-- Of a word its named accesses alone. -/
theorem State.placed_eq (s : State) (c tid : Nat) (w : QWord) : ∃ f, s.placed c tid w = { w with foot := f } := by
  unfold State.placed
  split
  · exact ⟨_, rfl⟩
  · exact ⟨_, rfl⟩
  · exact ⟨w.foot, rfl⟩

/-- A word other than `ldg` and `stg` has its named accesses from its capture on. -/
theorem State.placed_still (s : State) (c tid : Nat) {w : QWord} (h : w.instr.still = true) : s.placed c tid w = w := by
  unfold State.placed
  split
  · rename_i hi; rw [hi] at h; cases h
  · rename_i hi; rw [hi] at h; cases h
  · rfl

/-- The one word of a strand, which nothing holds up, starts. -/
theorem tryStart_alone {run : RunFn} {s : State} {c : Nat} {y : Ctx} {w : QWord} (hc : s.ctx c = some y) (hq : y.qs = [w])
    (hf : y.fly = []) (hb : w.blocked = false) (hw : w.pfx.wait = 0) (ho : s.orderOk c y w = true)
    (hl : s.limited c y.tenant w.eng = false) (hg : s.gateOk c y w = true) (hs : (s.core c).spilling = []) (hp : s.picks = []) :
    tryStart run s c w.seq =
      afterRun s c (s.placed c y.tenant w)
        (run (touchUnits (s.setCtx c { y with qs := [] }) c y.me w.units) c (s.placed c y.tenant w)) := by
  have hstart : s.canStart c y w = true := by
    simp [State.canStart, Ctx.head, hq, hf, hb, Ctx.holding, Ctx.tokensReady, hw, ho, hl, hg, hs]
  simp only [tryStart, hc, hq, List.find?_cons, decide_true, hstart, if_true]
  unfold startWord
  simp only [hc, hp, List.isEmpty_nil, Bool.true_or, if_true]
  obtain ⟨f, hf⟩ := s.placed_eq c y.tenant w
  rw [hf]
  have e1 : ((y.dequeue w.seq).popTokens { w with foot := f }) = { y with qs := [] } := by
    simp [Ctx.dequeue, Ctx.popTokens, hq, hw]
  simp only
  rw [e1]

/-- A word that has finished, with no token to push and no sequencer, leaves nothing. -/
theorem afterRun_done {s0 s : State} {c : Nat} {w : QWord} (hs : w.pfx.signal = 0) (hq : w.seqr = none) :
    afterRun s0 c w (.done s) = s := by
  simp [afterRun, hs, hq]

/-- A finished memory operation has performed (R198). -/
theorem afterRun_performed {s0 s : State} {c i : Nat} {w : QWord} (hs : w.pfx.signal = 0) (hq : w.seqr = some i) :
    afterRun s0 c w (.done s) = s.modCtx c (fun x => x.perform (some i) w.opn) := by
  simp [afterRun, hs, hq]

/-! ## What a word takes of its context -/

@[simp] theorem Ctx.goTo_qs (x : Ctx) (t : Nat) : (x.goTo t).qs = x.qs := rfl
@[simp] theorem Ctx.goTo_fly (x : Ctx) (t : Nat) : (x.goTo t).fly = x.fly := rfl
@[simp] theorem Ctx.past_qs (x : Ctx) (b : Bool) : (x.past b).qs = x.qs := rfl
@[simp] theorem Ctx.past_fly (x : Ctx) (b : Bool) : (x.past b).fly = x.fly := rfl
@[simp] theorem Ctx.past_me (x : Ctx) (b : Bool) : (x.past b).me = x.me := rfl
@[simp] theorem Ctx.past_seqrs (x : Ctx) (b : Bool) : (x.past b).seqrs = x.seqrs := rfl
@[simp] theorem Ctx.past_tickets (x : Ctx) (b : Bool) : (x.past b).tickets = x.tickets := rfl
@[simp] theorem Ctx.past_held (x : Ctx) (b : Bool) : (x.past b).held = x.held := rfl
@[simp] theorem Ctx.pastAt_qs (x : Ctx) (b : Bool) : (x.pastAt b).qs = x.qs := rfl
@[simp] theorem Ctx.pastAt_fly (x : Ctx) (b : Bool) : (x.pastAt b).fly = x.fly := rfl
@[simp] theorem Ctx.pastAt_me (x : Ctx) (b : Bool) : (x.pastAt b).me = x.me := rfl
@[simp] theorem Ctx.pastAt_seqrs (x : Ctx) (b : Bool) : (x.pastAt b).seqrs = x.seqrs := rfl
/-- Only an M word marks its kernel. -/
theorem Ctx.sawM_of_ne (x : Ctx) {e : Engine} (h : e ≠ .m) : x.sawM e = x := by
  have : (e == Engine.m) = false := by simpa using h
  simp [Ctx.sawM, this]
@[simp] theorem Ctx.sawM_qs (x : Ctx) (e : Engine) : (x.sawM e).qs = x.qs := rfl
@[simp] theorem Ctx.sawM_fly (x : Ctx) (e : Engine) : (x.sawM e).fly = x.fly := rfl
@[simp] theorem Ctx.sawM_me (x : Ctx) (e : Engine) : (x.sawM e).me = x.me := rfl
@[simp] theorem Ctx.sawM_tenant (x : Ctx) (e : Engine) : (x.sawM e).tenant = x.tenant := rfl
@[simp] theorem Ctx.sawM_seqrs (x : Ctx) (e : Engine) : (x.sawM e).seqrs = x.seqrs := rfl
@[simp] theorem Ctx.sawM_tickets (x : Ctx) (e : Engine) : (x.sawM e).tickets = x.tickets := rfl
@[simp] theorem Ctx.sawM_held (x : Ctx) (e : Engine) : (x.sawM e).held = x.held := rfl
@[simp] theorem Ctx.past_tenant (x : Ctx) (b : Bool) : (x.past b).tenant = x.tenant := rfl
@[simp] theorem Ctx.pastAt_tenant (x : Ctx) (b : Bool) : (x.pastAt b).tenant = x.tenant := rfl
@[simp] theorem Ctx.pastAt_tickets (x : Ctx) (b : Bool) : (x.pastAt b).tickets = x.tickets := rfl
@[simp] theorem Ctx.pastAt_held (x : Ctx) (b : Bool) : (x.pastAt b).held = x.held := rfl

theorem Ctx.past_with_qs (x : Ctx) (b : Bool) (q : List QWord) : ({ x with qs := q } : Ctx).past b = { x.past b with qs := q } := rfl
theorem Ctx.pastAt_with_qs (x : Ctx) (b : Bool) (q : List QWord) : ({ x with qs := q } : Ctx).pastAt b = { x.pastAt b with qs := q } := rfl

/-- Reservations change the q6 alone. -/
theorem Ctx.reserve_eq (n : Nat) : ∀ (x : Ctx), ∃ q e, (x.reserve n).1 = { x with q6 := q, nextElem := e } := by
  induction n with
  | zero => intro x; exact ⟨x.q6, x.nextElem, rfl⟩
  | succ n ih =>
    intro x
    obtain ⟨q, e, h⟩ := ih { x with q6 := x.q6 ++ [{ id := x.nextElem }], nextElem := x.nextElem + 1 }
    exact ⟨q, e, by simp only [Ctx.reserve]; rw [h]⟩

theorem Ctx.reserve_ids (n : Nat) : ∀ (x y : Ctx), x.nextElem = y.nextElem → (x.reserve n).2 = (y.reserve n).2 := by
  induction n with
  | zero => intro x y _; rfl
  | succ n ih =>
    intro x y h
    simp only [Ctx.reserve]
    rw [h]
    congr 1
    exact ih _ _ rfl

/-- Marking sequencers for the host's copies changes them alone, and follows them alone. -/
theorem Ctx.markSys_eq (ps : List Pre) (x : Ctx) : ∃ sq, x.markSys ps = { x with seqrs := sq } := by
  unfold Ctx.markSys
  induction ps.filter (fun p => decide (5 ≤ p.scope)) generalizing x with
  | nil => exact ⟨x.seqrs, rfl⟩
  | cons p ps ih => obtain ⟨sq, h⟩ := ih (x.setSeqr p.seqr _); exact ⟨sq, h⟩

theorem Ctx.markSys_seqrs (ps : List Pre) {x y : Ctx} (h : x.seqrs = y.seqrs) : (x.markSys ps).seqrs = (y.markSys ps).seqrs := by
  unfold Ctx.markSys
  induction ps.filter (fun p => decide (5 ≤ p.scope)) generalizing x y with
  | nil => exact h
  | cons p ps ih => exact ih (by simp [Ctx.setSeqr, Ctx.seqr, h])

/-- Taking an operation number changes a context's sequencers alone. -/
theorem Ctx.enlist_eq (x : Ctx) (k : Nat) (w : QWord) : ∃ sq, (x.enlist k w).1 = { x with seqrs := sq } :=
  let ⟨sq, h⟩ := Ctx.markSys_eq _ _
  ⟨sq, h⟩

/-- The parts of a context that admission does not touch. -/
theorem Ctx.enrol_eq (x : Ctx) (sp : CapSpec) (k : Nat) (w : QWord) :
    ∃ q e r sq, (x.enrol sp k w).1 = { x with q6 := q, nextElem := e, rq := r, seqrs := sq } := by
  unfold Ctx.enrol
  simp only
  generalize he : (if sp.mem = true then x.enlist k w else (x, w)) = e
  have h1 : ∃ sq, e.1 = { x with seqrs := sq } := by
    subst he
    split
    · exact Ctx.enlist_eq x k w
    · exact ⟨x.seqrs, rfl⟩
  obtain ⟨sq, h1⟩ := h1
  obtain ⟨q, n, h2⟩ := Ctx.reserve_eq (q6Need sp) e.1
  rw [h2, h1]
  split
  · exact ⟨q, n, _, sq, rfl⟩
  · exact ⟨q, n, x.rq, sq, rfl⟩

@[simp] theorem Ctx.enrol_qs (x : Ctx) (sp : CapSpec) (k : Nat) (w : QWord) : (x.enrol sp k w).1.qs = x.qs := by
  obtain ⟨_, _, _, _, h⟩ := Ctx.enrol_eq x sp k w; rw [h]
@[simp] theorem Ctx.enrol_fly (x : Ctx) (sp : CapSpec) (k : Nat) (w : QWord) : (x.enrol sp k w).1.fly = x.fly := by
  obtain ⟨_, _, _, _, h⟩ := Ctx.enrol_eq x sp k w; rw [h]
@[simp] theorem Ctx.enrol_me (x : Ctx) (sp : CapSpec) (k : Nat) (w : QWord) : (x.enrol sp k w).1.me = x.me := by
  obtain ⟨_, _, _, _, h⟩ := Ctx.enrol_eq x sp k w; rw [h]; rfl
@[simp] theorem Ctx.enrol_tenant (x : Ctx) (sp : CapSpec) (k : Nat) (w : QWord) : (x.enrol sp k w).1.tenant = x.tenant := by
  obtain ⟨_, _, _, _, h⟩ := Ctx.enrol_eq x sp k w; rw [h]
@[simp] theorem Ctx.enrol_tickets (x : Ctx) (sp : CapSpec) (k : Nat) (w : QWord) : (x.enrol sp k w).1.tickets = x.tickets := by
  obtain ⟨_, _, _, _, h⟩ := Ctx.enrol_eq x sp k w; rw [h]
@[simp] theorem Ctx.enrol_held (x : Ctx) (sp : CapSpec) (k : Nat) (w : QWord) : (x.enrol sp k w).1.held = x.held := by
  obtain ⟨_, _, _, _, h⟩ := Ctx.enrol_eq x sp k w; rw [h]

/-- The operation number and the reservations of a word do not depend on the ports popped with it. -/
theorem Ctx.enrol_word {x y : Ctx} (h : PopLeft x y) (sp : CapSpec) (k : Nat) (w : QWord) : (y.enrol sp k w).2 = (x.enrol sp k w).2 := by
  obtain ⟨q, ch, rfl⟩ := h
  unfold Ctx.enrol
  simp only
  split
  · obtain ⟨s1, h1⟩ := Ctx.enlist_eq { x with q6 := q, chans := ch } k w
    obtain ⟨s2, h2⟩ := Ctx.enlist_eq x k w
    rw [Ctx.reserve_ids (q6Need sp) (Ctx.enlist { x with q6 := q, chans := ch } k w).1 (Ctx.enlist x k w).1 (by rw [h1, h2])]
    rfl
  · rw [Ctx.reserve_ids (q6Need sp) { x with q6 := q, chans := ch } x rfl]

theorem Ctx.reserve_seqrs (x : Ctx) (n : Nat) : (x.reserve n).1.seqrs = x.seqrs := by
  obtain ⟨_, _, h⟩ := Ctx.reserve_eq n x; rw [h]

theorem Ctx.enrol_seqrs_eq (x : Ctx) (sp : CapSpec) (k : Nat) (w : QWord) :
    (x.enrol sp k w).1.seqrs = (if sp.mem = true then x.enlist k w else (x, w)).1.seqrs := by
  unfold Ctx.enrol
  by_cases hd : sp.dst.isSome = true
  · simp only [hd, if_true]; exact Ctx.reserve_seqrs _ _
  · simp only [hd, Bool.false_eq_true, if_false]; exact Ctx.reserve_seqrs _ _

theorem Ctx.enrol_seqrs {x y : Ctx} (h : PopLeft x y) (sp : CapSpec) (k : Nat) (w : QWord) :
    (y.enrol sp k w).1.seqrs = (x.enrol sp k w).1.seqrs := by
  obtain ⟨q, ch, rfl⟩ := h
  rw [Ctx.enrol_seqrs_eq, Ctx.enrol_seqrs_eq]
  cases sp.mem
  · rfl
  · exact Ctx.markSys_seqrs _ rfl

/-- What the captured word is beside its operation number and its reservations. -/
theorem Ctx.enrol_fields (x : Ctx) (sp : CapSpec) (k : Nat) (w : QWord) :
    (x.enrol sp k w).2.seq = w.seq ∧ (x.enrol sp k w).2.pfx = w.pfx ∧ (x.enrol sp k w).2.blocked = w.blocked
      ∧ (x.enrol sp k w).2.units = w.units ∧ (x.enrol sp k w).2.gate = w.gate ∧ (x.enrol sp k w).2.eng = w.eng
      ∧ (x.enrol sp k w).2.ops = w.ops ∧ (x.enrol sp k w).2.instr = w.instr := by
  unfold Ctx.enrol
  simp only
  split
  · exact ⟨rfl, rfl, rfl, rfl, rfl, rfl, rfl, rfl⟩
  · exact ⟨rfl, rfl, rfl, rfl, rfl, rfl, rfl, rfl⟩

/-- A word that takes no operation number, reservation or result-queue place leaves its context as it is. -/
theorem Ctx.enrol_plain (x : Ctx) {sp : CapSpec} (k : Nat) (w : QWord) (hm : sp.mem = false) (hd : sp.dst = none) (hq : sp.q6 = 0) :
    x.enrol sp k w = (x, { w with q6 := [] }) := by
  simp [Ctx.enrol, hm, hd, hq, q6Need, Ctx.reserve]

theorem State.admitted_plain (s : State) (x : Ctx) {sp : CapSpec} (w : QWord) (pops : List Nat) (hm : sp.mem = false)
    (hd : sp.dst = none) (hq : sp.q6 = 0) : s.admitted x sp w pops = s.past x pops sp.eng (takesSr sp w) := by
  simp [State.admitted, State.past, Ctx.enrol_plain _ _ _ hm hd hq]

/-! ## The word commits, starts and runs -/

/-- The commitment of a word that pushes into no channel. -/
theorem commit_eq {s : State} {x : Ctx} (hx : s.ctx s.cur = some x) (sp : CapSpec) (w : QWord) (pops : List Nat)
    (hch : ∀ d, sp.pushed = some d → ¬ (48 ≤ d ∧ d ≤ 53)) :
    ∃ y, (s.popped x pops).ctx s.cur = some y ∧ PopLeft x y ∧
      commit s s.cur sp x w pops =
        ((s.popped x pops).setCtx s.cur
          { (if sp.jump then (y.enrol sp (s.tenant x.tenant).scap w).1.pastAt (takesSr sp w)
             else (y.enrol sp (s.tenant x.tenant).scap w).1.past (takesSr sp w)).sawM sp.eng with
            qs := y.qs ++ [(x.enrol sp (s.tenant x.tenant).scap w).2] },
         (x.enrol sp (s.tenant x.tenant).scap w).2) := by
  obtain ⟨y, hy, hp⟩ := popPorts_ctx s.cur pops (endStall s s.cur x) x (by rw [endStall_ctx]; exact hx)
  refine ⟨y, hy, hp, ?_⟩
  unfold commit State.popped
  simp only [hy]
  rw [Ctx.enrol_word hp]
  refine Prod.ext ?_ rfl
  have hqs : ((if sp.jump = true then (y.enrol sp (s.tenant x.tenant).scap w).1.pastAt (takesSr sp w)
      else (y.enrol sp (s.tenant x.tenant).scap w).1.past (takesSr sp w)).sawM sp.eng).qs = y.qs := by
    cases sp.jump <;> simp
  rw [hqs]
  simp only
  split
  · rename_i d hd
    have := hch d hd
    rw [if_neg]
    simp only [Bool.and_eq_true, decide_eq_true_eq]
    exact this
  · rfl

/-- A word without a gate waits behind none. -/
theorem Ctx.gatedBefore_none {x : Ctx} {w : QWord} (h : w.gate = .none) : x.gatedBefore w = false := by
  simp [Ctx.gatedBefore, Gate.names, h]

theorem State.gateOk_none {s : State} {c : Nat} {x : Ctx} {w : QWord} (h : w.gate = .none) : s.gateOk c x w = true := by
  simp [State.gateOk, Ctx.gatedBefore_none h, h]

/-- Earlier words that have not started are those a trap holds, where the queues hold none or the word alone. -/
theorem State.clashesBefore_held {t : State} {c : Nat} {y z : Ctx} {w : QWord} (hq : y.qs = [w] ∨ y.qs = []) (hh : y.held = z.held)
    (ht : y.tenant = z.tenant) (h : t.clashesBefore c z w = false) : t.clashesBefore c y w = false := by
  simp only [State.clashesBefore, Ctx.notStarted, List.any_append, Bool.or_eq_false_iff] at h ⊢
  rw [hh, ht]
  refine ⟨h.1, ?_⟩
  rcases hq with hq | hq <;> simp [hq]

/-- Order follows the sequencers, the tickets and the host's copies; beside a word no other of its strand stands but those that a
trap holds. -/
theorem State.orderOk_alone {s t : State} {c : Nat} {x y z : Ctx} {w : QWord} (hs : t.snoop = s.snoop)
    (hq : y.qs = [w] ∨ y.qs = []) (hf : y.fly = []) (ht : y.tenant = x.tenant)
    (ho : w.seqr = none ∨ (s.orderOk c z w = true ∧ y.seqrs = z.seqrs ∧ y.tickets = z.tickets ∧ y.held = x.held ∧
      t.clashesBefore c x w = false)) : t.orderOk c y w = true := by
  rcases ho with ho | ⟨ho, h1, h2, hh, ha⟩
  · simp [State.orderOk, ho]
  unfold State.orderOk at *
  split
  · rfl
  · rename_i i hi
    have hp : ∀ p, t.preOk y p = s.preOk z p := fun p => by simp [State.preOk, Ctx.seqr, h1, hs]
    simp only [hi, Bool.and_eq_true, List.all_eq_true, Bool.not_eq_true'] at ho ⊢
    obtain ⟨⟨⟨a, b⟩, d⟩, -⟩ := ho
    refine ⟨⟨⟨?_, ?_⟩, ?_⟩, ?_⟩
    · rw [hp]; simpa [Ctx.seqr, h1] using a
    · intro p hm; rw [hp]; exact b p hm
    · intro i ht; simpa [Ctx.ticketOk, h2] using d i ht
    · simp [State.footBlocked, hf, State.clashesBefore_held hq hh ht ha]

/-- Popping and the end of a stall change neither the host's copies nor the choices of row accesses. -/
theorem popped_open (s : State) (x : Ctx) (pops : List Nat) :
    (s.popped x pops).snoop = s.snoop ∧ (s.popped x pops).picks = s.picks :=
  ⟨(popPorts_open _ _ _).1.trans (endStall_open s s.cur x).1, (popPorts_open _ _ _).2.trans (endStall_open s s.cur x).2⟩

theorem popped_limited {s : State} {x : Ctx} (h : Idle s x) (pops : List Nat) (e : Engine) :
    (s.popped x pops).limited s.cur x.tenant e = false :=
  popPorts_limited _ _ _ _ _ (by rw [State.limited_net (endStall_net s s.cur x)]; exact h.limiter e)

theorem popped_core (s : State) (x : Ctx) (pops : List Nat) : SameCore (s.core s.cur) ((s.popped x pops).core s.cur) :=
  (endStall_core s s.cur x).trans (popPorts_core _ _ _)

/-- A word of an idle strand that only commits as it passes capture runs in the state that admits it. -/
theorem issue_runs {i : Instr} {sp : CapSpec} {chk : State → Nat → Ctx → QWord → Chk}
    {run : RunFn} {s : State} {x : Ctx} {vals : List Dword} {pops : List Nat} {w : QWord} (h : Idle s x)
    (hpriv : sp.priv = true → x.priv = true) (hjump : sp.jump = false)
    (hdest : ∀ d, sp.pushed = some d → destTrap x d = false ∧ ¬ (48 ≤ d ∧ d ≤ 53))
    (hread : readAll s s.cur x sp.srcs [] [] = .ok vals pops)
    (hhnd : sp.mem = true → x.grp.pfx.hasHnd = true → (Map.at? x.hnd x.grp.pfx.handle).isSome = true)
    (hchk : chk s s.cur x (mkWord x i sp vals) = .ok w)
    (hroom : (x.q6.length - pops.count 54) + q6Need sp ≤ Config.q6Depth)
    (hw : w.pfx = x.grp.pfx ∧ w.blocked = false)
    (hord : (x.enrol sp (s.tenant x.tenant).scap w).2.seqr = none ∨
      (s.orderOk s.cur (x.enrol sp (s.tenant x.tenant).scap w).1 (x.enrol sp (s.tenant x.tenant).scap w).2 = true ∧
        ∀ t : State, t.clashesBefore s.cur x (x.enrol sp (s.tenant x.tenant).scap w).2 = false))
    (hpl : ∀ t : State, t.placed s.cur x.tenant (x.enrol sp (s.tenant x.tenant).scap w).2 = (x.enrol sp (s.tenant x.tenant).scap w).2)
    (hgate : ∀ (t : State) (y : Ctx), t.ctx s.cur = some y → y.qs = [(x.enrol sp (s.tenant x.tenant).scap w).2] → t.cmds = (s.popped x pops).cmds →
      t.net = (s.popped x pops).net → t.gateOk s.cur y (x.enrol sp (s.tenant x.tenant).scap w).2 = true) :
    ∃ s0, issue i sp chk noAct run s =
      .next (afterRun s0 s.cur (x.enrol sp (s.tenant x.tenant).scap w).2
        (run (touchUnits (s.admitted x sp w pops) s.cur x.me w.units) s.cur (x.enrol sp (s.tenant x.tenant).scap w).2)) := by
  have hcred : creditStall s s.cur x sp = false := by
    unfold creditStall
    split
    · rename_i d hd
      have := (hdest d hd).2
      by_cases h1 : 48 ≤ d
      · by_cases h2 : d ≤ 53
        · exact absurd ⟨h1, h2⟩ this
        · simp [h2]
      · simp [h1]
    · rfl
  have hi := issue_idle (act := noAct) (run := run) h hpriv (fun d hd => (hdest d hd).1) hread hhnd hchk hroom hcred
  obtain ⟨y, hy, hp, hcom⟩ := commit_eq h.resident sp w pops (fun d hd => (hdest d hd).2)
  have hyq : y.qs = [] := by obtain ⟨q, ch, rfl⟩ := hp; exact h.queues
  have hyf : y.fly = [] := by obtain ⟨q, ch, rfl⟩ := hp; exact h.started
  have hyme : y.me = x.me := by obtain ⟨q, ch, rfl⟩ := hp; rfl
  have hyt : y.tickets = x.tickets := by obtain ⟨q, ch, rfl⟩ := hp; rfl
  have hyn : y.tenant = x.tenant := by obtain ⟨q, ch, rfl⟩ := hp; rfl
  have hyh : y.held = x.held := by obtain ⟨q, ch, rfl⟩ := hp; rfl
  generalize hadm : (x.enrol sp (s.tenant x.tenant).scap w).2 = v at *
  obtain ⟨fseq, fpfx, fblk, funits, fgate, feng, -, -⟩ := Ctx.enrol_fields x sp (s.tenant x.tenant).scap w
  rw [hadm] at fseq fpfx fblk funits fgate feng
  rw [hcom] at hi
  simp only [noAct, hjump, Bool.false_eq_true, if_false, hyq, List.nil_append] at hi
  generalize hN : ((y.enrol sp (s.tenant x.tenant).scap w).1.past (takesSr sp w)).sawM sp.eng = N at hi
  have hNq : N.qs = [] := by rw [← hN]; simp [hyq]
  have hNf : N.fly = [] := by rw [← hN]; simp [hyf]
  have hNme : N.me = x.me := by rw [← hN]; simp [hyme]
  have hNt : N.tickets = x.tickets := by rw [← hN]; simp [hyt]
  have hNn : N.tenant = x.tenant := by rw [← hN]; simp [hyn]
  have hNh : N.held = x.held := by rw [← hN]; simp [hyh]
  have hNs : N.seqrs = (x.enrol sp (s.tenant x.tenant).scap w).1.seqrs := by rw [← hN]; simp [Ctx.enrol_seqrs hp]
  generalize hS : (s.popped x pops).setCtx s.cur { N with qs := [v] } = S at hi
  have hSc : S.ctx s.cur = some { N with qs := [v] } := by rw [← hS]; simp
  have hstart := tryStart_alone (run := run) hSc rfl hNf (by rw [fblk]; exact hw.2) (by rw [fpfx, hw.1]; exact h.wait)
    (State.orderOk_alone (s := s) (x := x) (z := (x.enrol sp (s.tenant x.tenant).scap w).1) (by rw [← hS]; exact (popped_open s x pops).1)
      (.inl rfl) hNf hNn (hord.imp id fun ho => ⟨ho.1, hNs, by simp [hNt], hNh, ho.2 S⟩))
    (by rw [← hS, State.limited_net (State.setCtx_net _ _ _)]; exact hNn ▸ popped_limited h pops _)
    (hgate S _ hSc rfl (by rw [← hS]; rfl) (by rw [← hS]; rfl))
    (by
      rw [← hS, State.core_setCtx_self]
      have := popped_core s x pops
      simp only [SameCore] at this
      exact this.2.2.2.2.2.2.2.2.1.trans h.spilling)
    (by rw [← hS]; exact (popped_open s x pops).2.trans h.picks)
  have hpl2 : S.placed s.cur (Ctx.tenant { N with qs := [v] }) v = v := (congrArg (fun t => S.placed s.cur t v) hNn).trans (hpl S)
  rw [hpl2] at hstart
  rw [hstart] at hi
  refine ⟨S, ?_⟩
  rw [hi]
  have e1 : S.setCtx s.cur { N with qs := [] } = s.admitted x sp w pops := by
    rw [← hS, State.setCtx_setCtx, State.admitted, State.modCtx_of _ hy, hN]
    congr 1
    rw [← hNq]
  show Host.Outcome.next (afterRun S s.cur v (run (touchUnits (S.setCtx s.cur { N with qs := [] }) s.cur N.me v.units) s.cur v)) = _
  rw [e1, funits, hNme]

/-! ## Words that act as they pass capture -/

theorem State.entered_admitted (s : State) (x : Ctx) {sp : CapSpec} (w : QWord) (pops : List Nat) (hj : sp.jump = false) :
    s.entered x sp w pops = s.admitted x sp w pops := by
  simp [State.entered, State.admitted, hj]

theorem commit_enters {s : State} {x : Ctx} (hx : s.ctx s.cur = some x) (sp : CapSpec) (w : QWord) (pops : List Nat)
    (act : State → Nat → QWord → State) (hq : x.qs = []) (hf : x.fly = []) :
    ∃ y, (s.entered x sp w pops).ctx s.cur = some y ∧ y.qs = [] ∧ y.fly = [] ∧ y.me = x.me ∧
      (commit s s.cur sp x w pops).2 = (x.enrol sp (s.tenant x.tenant).scap w).2 ∧
      act (commit s s.cur sp x w pops).1 s.cur (commit s s.cur sp x w pops).2 =
        passing sp act ((s.entered x sp w pops).setCtx s.cur { y with qs := [(x.enrol sp (s.tenant x.tenant).scap w).2] }) s.cur
          (x.enrol sp (s.tenant x.tenant).scap w).2 := by
  obtain ⟨y, hy, hp⟩ := popPorts_ctx s.cur pops (endStall s s.cur x) x (by rw [endStall_ctx]; exact hx)
  have hyq : y.qs = [] := by obtain ⟨q, ch, rfl⟩ := hp; exact hq
  have hyf : y.fly = [] := by obtain ⟨q, ch, rfl⟩ := hp; exact hf
  have hyme : y.me = x.me := by obtain ⟨q, ch, rfl⟩ := hp; rfl
  have hy2 : (s.popped x pops).ctx s.cur = some y := hy
  have hseq := (Ctx.enrol_fields x sp (s.tenant x.tenant).scap w).1
  have hytn : y.tenant = x.tenant := by obtain ⟨q, ch, rfl⟩ := hp; rfl
  generalize hz : (if sp.jump = true then (y.enrol sp (s.tenant x.tenant).scap w).1.pastAt (takesSr sp w)
      else (y.enrol sp (s.tenant x.tenant).scap w).1.past (takesSr sp w)).sawM sp.eng = z
  have hzq : z.qs = [] := by rw [← hz]; cases sp.jump <;> simp [hyq]
  have hzf : z.fly = [] := by rw [← hz]; cases sp.jump <;> simp [hyf]
  have hzme : z.me = x.me := by rw [← hz]; cases sp.jump <;> simp [hyme]
  refine ⟨z, ?_, hzq, hzf, hzme, ?_, ?_⟩
  · rw [State.entered, State.modCtx_of _ hy2]; simp [hz]
  · unfold commit; simp only [hy]; rw [Ctx.enrol_word hp]
  · have he : s.entered x sp w pops = (s.popped x pops).setCtx s.cur z := by
      rw [State.entered, State.modCtx_of _ hy2]; simp [hz]
    rw [he, State.setCtx_setCtx]
    unfold commit passing
    simp only [hy]
    rw [hz, Ctx.enrol_word hp, hzq, List.nil_append, hseq]
    rfl

/-- A word of an idle strand that passes its checks does what it does as it passes capture, starts, and runs. -/
theorem issue_acts {i : Instr} {sp : CapSpec} {chk : State → Nat → Ctx → QWord → Chk} {act : State → Nat → QWord → State}
    {run : RunFn} {s : State} {x : Ctx} {vals : List Dword} {pops : List Nat} {w v : QWord} {z : Ctx} (h : Idle s x)
    (hpriv : sp.priv = true → x.priv = true)
    (hdest : ∀ d, sp.pushed = some d → destTrap x d = false)
    (hcred : creditStall s s.cur x sp = false)
    (hread : readAll s s.cur x sp.srcs [] [] = .ok vals pops)
    (hhnd : sp.mem = true → x.grp.pfx.hasHnd = true → (Map.at? x.hnd x.grp.pfx.handle).isSome = true)
    (hchk : chk s s.cur x (mkWord x i sp vals) = .ok w)
    (hroom : (x.q6.length - pops.count 54) + q6Need sp ≤ Config.q6Depth)
    (hw : w.pfx = x.grp.pfx ∧ w.blocked = false)
    (hv : (x.enrol sp (s.tenant x.tenant).scap w).2 = v)
    (hact : ∀ y, (s.entered x sp w pops).ctx s.cur = some y → y.qs = [] → y.fly = [] → y.me = x.me →
      passing sp act ((s.entered x sp w pops).setCtx s.cur { y with qs := [v] }) s.cur v =
        (passing sp act (s.entered x sp w pops) s.cur v).setCtx s.cur { z with qs := [v] })
    (hsame : (passing sp act (s.entered x sp w pops) s.cur v).setCtx s.cur z = passing sp act (s.entered x sp w pops) s.cur v)
    (hzq : z.qs = []) (hzf : z.fly = []) (hzn : z.tenant = x.tenant)
    (hord : v.seqr = none ∨ (s.orderOk s.cur (x.enrol sp (s.tenant x.tenant).scap w).1 v = true ∧
      z.seqrs = (x.enrol sp (s.tenant x.tenant).scap w).1.seqrs ∧ z.tickets = (x.enrol sp (s.tenant x.tenant).scap w).1.tickets ∧
      z.held = x.held ∧ ∀ t : State, t.clashesBefore s.cur x v = false))
    (hopen : (passing sp act (s.entered x sp w pops) s.cur v).snoop = s.snoop ∧ (passing sp act (s.entered x sp w pops) s.cur v).picks = [])
    (hlim : (passing sp act (s.entered x sp w pops) s.cur v).limited s.cur x.tenant v.eng = false)
    (hgate : ((passing sp act (s.entered x sp w pops) s.cur v).setCtx s.cur { z with qs := [v] }).gateOk s.cur { z with qs := [v] } v = true)
    (hspill : ((passing sp act (s.entered x sp w pops) s.cur v).core s.cur).spilling = []) :
    ∃ s0, issue i sp chk act run s =
      .next (afterRun s0 s.cur ((passing sp act (s.entered x sp w pops) s.cur v).placed s.cur z.tenant v)
        (run (touchUnits (passing sp act (s.entered x sp w pops) s.cur v) s.cur z.me v.units) s.cur
          ((passing sp act (s.entered x sp w pops) s.cur v).placed s.cur z.tenant v))) := by
  obtain ⟨y, hy, hyq, hyf, hyme, hc2, hc1⟩ := commit_enters h.resident sp w pops act h.queues h.started
  obtain ⟨fseq, fpfx, fblk, -, -, -, -, -⟩ := Ctx.enrol_fields x sp (s.tenant x.tenant).scap w
  have hi := issue_idle (act := act) (run := run) h hpriv hdest hread hhnd hchk hroom hcred
  rw [hc1, hc2, hv] at hi
  rw [hv] at fseq fpfx fblk
  rw [hact y hy hyq hyf hyme] at hi
  generalize passing sp act (s.entered x sp w pops) s.cur v = P at *
  have hstart := tryStart_alone (run := run) (s := P.setCtx s.cur { z with qs := [v] }) (State.ctx_setCtx_self _ _ _) rfl hzf
    (by rw [fblk]; exact hw.2) (by rw [fpfx, hw.1]; exact h.wait)
    (State.orderOk_alone (s := s) (x := x) hopen.1 (.inl rfl) hzf hzn
      (hord.imp id fun ho => ⟨ho.1, ho.2.1, ho.2.2.1, ho.2.2.2.1, ho.2.2.2.2 _⟩))
    (by rw [State.limited_net (State.setCtx_net _ _ _)]; exact hzn ▸ hlim) hgate
    (by rw [State.core_setCtx_self]; exact hspill) hopen.2
  rw [hstart, State.setCtx_setCtx, State.placed_setCtx] at hi
  refine ⟨P.setCtx s.cur { z with qs := [v] }, ?_⟩
  have e1 : P.setCtx s.cur { ({ z with qs := [v] } : Ctx) with qs := [] } = P := by
    refine Eq.trans ?_ hsame
    congr 1
    rw [show ({ ({ z with qs := [v] } : Ctx) with qs := [] } : Ctx) = { z with qs := [] } from rfl, ← hzq]
  rw [hi, e1]
  rfl

end Sys2Proof.Machine
end

