-- ==== Sys2Proof/Laws/Decode.lean ====
section
/-! SUPPORT. The opcode map's rows are disjoint: a word has the fixed bits of at most one, so decoding is what that row
says whatever its place in the map. -/

namespace Sys2Proof

/-- Two rows differ in a bit that both fix. -/
def EncRow.clash (r q : EncRow) : Bool := (r.pat ^^^ q.pat) &&& (r.mask &&& q.mask) != 0#32

/-- Every row of a list clashes with every later one. -/
def allClash : List EncRow → Bool
  | [] => true
  | r :: rs => rs.all (fun q => r.clash q) && allClash rs

theorem encRows_clash : allClash encRows = true := by decide +kernel

/-- No pattern has a bit outside its mask. -/
theorem encRows_pat : encRows.all (fun r => r.pat &&& r.mask == r.pat) = true := by decide +kernel

theorem EncRow.clash_absurd {w : Word} {r q : EncRow} (h : r.clash q = true) (hr : w &&& r.mask = r.pat) (hq : w &&& q.mask = q.pat) : False := by
  have : (r.pat ^^^ q.pat) &&& (r.mask &&& q.mask) = 0#32 := by
    rw [← hr, ← hq]
    ext i hi
    simp only [BitVec.getElem_and, BitVec.getElem_xor, BitVec.getElem_zero]
    cases w[i] <;> cases r.mask[i] <;> cases q.mask[i] <;> rfl
  simp [EncRow.clash, this] at h

theorem findRow_of_mem {w : Word} {r : EncRow} (hw : w &&& r.mask = r.pat) : ∀ {l : List EncRow}, allClash l = true → r ∈ l → findRow w l = some r := by
  intro l
  induction l with
  | nil => intro _ h; exact absurd h (List.not_mem_nil)
  | cons q l ih =>
    intro hc hm
    simp only [allClash, Bool.and_eq_true, List.all_eq_true] at hc
    simp only [findRow]
    rcases List.mem_cons.mp hm with h | h
    · subst h; rw [if_pos hw]
    · rw [if_neg (fun hq => EncRow.clash_absurd (hc.1 r h) hq hw)]
      exact ih hc.2 h

theorem findRow_some {w : Word} : ∀ {l : List EncRow} {r : EncRow}, findRow w l = some r → r ∈ l ∧ w &&& r.mask = r.pat := by
  intro l
  induction l with
  | nil => intro r h; simp [findRow] at h
  | cons q l ih =>
    intro r h
    simp only [findRow] at h
    split at h
    · next hq => cases h; exact ⟨List.mem_cons_self, hq⟩
    · exact ⟨List.mem_cons_of_mem _ (ih h).1, (ih h).2⟩

/-- A word with the fixed bits of a row, and no prefix, decodes to what the row builds. -/
theorem decode_of_row {w : Word} {r : EncRow} (hm : r ∈ encRows) (hw : w &&& r.mask = r.pat) (hp : w.extractLsb' 29 3 ≠ 7#3)
    (hwf : (r.build w).wf = true) : decode w = .ok (r.build w) := by
  unfold decode
  rw [if_neg hp, findRow_of_mem hw encRows_clash hm]
  simp only [hwf, if_true]

/-- A word that decodes has the fixed bits of the row whose instruction it is. -/
theorem row_of_decode {w : Word} {i : Instr} (h : decode w = .ok i) : ∃ r ∈ encRows, w &&& r.mask = r.pat ∧ i = r.build w ∧ i.wf = true := by
  unfold decode at h
  split at h
  · cases h
  · split at h
    · cases h
    · next r hr =>
      split at h
      · next hwf => cases h; exact ⟨r, (findRow_some hr).1, (findRow_some hr).2, rfl, hwf⟩
      · cases h

end Sys2Proof
end

