-- ==== Sys2Proof/Laws/Fabric.lean ====
section
/-! SUPPORT. What sending, taking and answering packets leaves of the state. -/

namespace Sys2Proof.Machine

/-- What sending and taking packets leaves of the state: memory, cores, groups, the directory, and of a tenant all but its
buckets. -/
structure Fabric (s t : State) : Prop where
  rest : t = { s with net := t.net, sent := t.sent, cmds := t.cmds, nextId := t.nextId, applied := t.applied, tenants := t.tenants }
  tenant : ∀ k, t.tenant k = { s.tenant k with bucket := (t.tenant k).bucket }

theorem Fabric.refl (s : State) : Fabric s s := ⟨rfl, fun _ => rfl⟩

theorem Fabric.trans {s t u : State} (h : Fabric s t) (g : Fabric t u) : Fabric s u := by
  refine ⟨?_, fun k => ?_⟩
  · have a := h.rest; have b := g.rest
    rw [a] at b; exact b
  · have a := h.tenant k; have b := g.tenant k
    rw [a] at b; exact b

theorem Fabric.pay (s : State) (c : Nat) (p : Packet) : Fabric s (s.pay c p) := by
  unfold State.pay
  simp only
  split
  · exact .refl s
  · refine ⟨rfl, fun k => ?_⟩
    by_cases h : p.tenant = k
    · subst h; simp [State.tenant, State.modTenant, State.setTenant]
    · simp [State.tenant, State.modTenant, State.setTenant, Map.get_ins_ne _ _ _ h]

theorem Fabric.send (s : State) (p : Packet) : Fabric s (s.send p) := by
  have hn : ∀ (t : State) n, Fabric t { t with net := n } := fun t n => ⟨rfl, fun _ => rfl⟩
  have h1 : ∀ n m k, Fabric s { s with nextId := n, cmds := m, sent := k } := fun n m k => ⟨rfl, fun _ => rfl⟩
  unfold State.send
  simp only
  split
  · split
    · split
      · exact ⟨rfl, fun _ => rfl⟩
      · exact ((h1 _ _ _).trans (Fabric.pay _ _ p)).trans (hn _ _)
    · exact ⟨rfl, fun _ => rfl⟩
  · exact ⟨rfl, fun _ => rfl⟩

theorem Fabric.sendAll (ps : List Packet) : ∀ (s : State), Fabric s (s.sendAll ps) := by
  induction ps with
  | nil => exact fun s => .refl s
  | cons p ps ih => exact fun s => (Fabric.send s p).trans (ih _)

theorem Fabric.unsend (s : State) (id : Nat) : Fabric s (s.unsend id) := ⟨rfl, fun _ => rfl⟩
theorem Fabric.noteApplied (s : State) (p : Packet) (r : PKind) : Fabric s (s.noteApplied p r) := by
  unfold State.noteApplied; split <;> exact ⟨rfl, fun _ => rfl⟩
theorem Fabric.answer (s : State) (id : Nat) (p : Packet) (r : PKind) : Fabric s (s.answer id p r) :=
  ((Fabric.unsend s id).trans (.noteApplied _ _ _)).trans (.send _ _)
theorem Fabric.ackPkt (s : State) (id : Nat) (p : Packet) (i : AckInfo) : Fabric s (s.ackPkt id p i) := .answer _ _ _ _
theorem Fabric.consume (s : State) (id : Nat) (p : Packet) : Fabric s (s.consume id p) := by
  refine ((Fabric.unsend s id).trans (.noteApplied _ p (.ack p.seq [] {}))).trans ?_
  exact ⟨rfl, fun _ => rfl⟩
theorem Fabric.ackRemote (s : State) (p : Packet) : Fabric s (s.ackRemote p) := by
  unfold State.ackRemote
  split
  · exact .send _ _
  · exact .refl s
theorem Fabric.answerDup (s : State) (id : Nat) (p : Packet) : Fabric s (s.answerDup id p) := by
  unfold State.answerDup
  simp only []
  split
  · split
    · exact (Fabric.unsend s id).trans (.ackRemote _ _)
    · exact (Fabric.unsend s id).trans (.send _ _)
  · exact .unsend _ _

section
variable {s t : State} (h : Fabric s t)
include h
theorem Fabric.mem : t.mem = s.mem := by rw [h.rest]
theorem Fabric.memPoison : t.memPoison = s.memPoison := by rw [h.rest]
theorem Fabric.cores : t.cores = s.cores := by rw [h.rest]
theorem Fabric.groups : t.groups = s.groups := by rw [h.rest]
theorem Fabric.sac : t.sac = s.sac := by rw [h.rest]
theorem Fabric.cycle : t.cycle = s.cycle := by rw [h.rest]
theorem Fabric.ports : t.ports = s.ports := by rw [h.rest]
theorem Fabric.core (c : Nat) : t.core c = s.core c := by unfold State.core; rw [h.cores]
theorem Fabric.ctx (c : Nat) : t.ctx c = s.ctx c := by unfold State.ctx; rw [h.core]
theorem Fabric.ctxFor (c k : Nat) : t.ctxFor c k = s.ctxFor c k := by unfold State.ctxFor; rw [h.core]
theorem Fabric.group (g : Nat) : t.group g = s.group g := by unfold State.group; rw [h.groups]
theorem Fabric.byte (a : Nat) : t.byte a = s.byte a := by unfold State.byte; rw [h.mem]
theorem Fabric.poisoned (a n : Nat) : t.poisoned a n = s.poisoned a n := by unfold State.poisoned; rw [h.memPoison]
theorem Fabric.readN (n : Nat) : ∀ a, t.readN a n = s.readN a n := by
  induction n with
  | zero => exact fun _ => rfl
  | succ n ih => intro a; simp only [State.readN, h.byte, ih]
end

/-- A packet that no limiter concerns is in the fabric after it is sent, under the next identity; a kept one in its
source's window. -/
theorem State.send_free (s : State) (p : Packet) (h : 3 < p.cls ∨ ∀ c, p.src ≠ .core c) :
    (s.send p).net = Map.ins s.net s.nextId { p with seq := s.nextId, sentAt := s.cycle } ∧ (s.send p).nextId = s.nextId + 1 ∧
    (s.send p).sent = (if p.kind.kept p.cls then Map.ins s.sent s.nextId { p with seq := s.nextId, sentAt := s.cycle } else s.sent) ∧ (s.send p).tenants = s.tenants ∧ (s.send p).applied = s.applied := by
  unfold State.send
  cases hs : p.src with
  | core c =>
    have : ¬ p.cls ≤ 3 := by rcases h with h | h; omega; exact absurd hs (h c)
    simp [this]
  | _ => simp

/-- An answer is in the fabric, its packet is not, and the window holds the reply of a request. -/
theorem State.answer_facts (s : State) (id : Nat) (p : Packet) (r : PKind) (hr : r.kept 4 = false) :
    Map.at? (s.answer id p r).net s.nextId = some { seq := s.nextId, kind := r, src := p.dst, dst := p.src, tenant := p.tenant, cls := 4, cmd := p.cmd, sentAt := s.cycle } ∧
    (p.kind.kept p.cls = true → Map.at? (s.answer id p r).applied p.seq = some r) ∧ (s.answer id p r).tenants = s.tenants ∧ (s.answer id p r).sent = s.sent := by
  unfold State.answer State.noteApplied
  split
  · obtain ⟨a, b, c, d, e⟩ := State.send_free { s.unsend id with applied := Map.ins (s.unsend id).applied p.seq r } { seq := 0, kind := r, src := p.dst, dst := p.src, tenant := p.tenant, cls := 4, cmd := p.cmd } (.inl (Nat.lt_succ_self 3))
    rw [a, c, d, e]
    simp [State.unsend, hr]
  · next h =>
    obtain ⟨a, b, c, d, e⟩ := State.send_free (s.unsend id) { seq := 0, kind := r, src := p.dst, dst := p.src, tenant := p.tenant, cls := 4, cmd := p.cmd } (.inl (Nat.lt_succ_self 3))
    rw [a, c, d, e]
    simp [State.unsend, h, hr]
end Sys2Proof.Machine
end

