-- ==== Sys2Proof/Laws/Settle.lean ====
section
/-! SUPPORT. What settling an acknowledgement leaves of the state. -/

namespace Sys2Proof.Machine

/-- What an acknowledgement leaves of the state: everything but packets, commands, the contexts' tables, the counts and the
sequencers of ended spans. -/
structure Settled (s t : State) : Prop where
  rest : t = { s with net := t.net, sent := t.sent, cmds := t.cmds, nextId := t.nextId, applied := t.applied, tenants := t.tenants, cores := t.cores }
  core : ∀ c, t.core c = { s.core c with ev := (t.core c).ev, res := (t.core c).res, sus := (t.core c).sus, seqs := (t.core c).seqs }

theorem Settled.refl (s : State) : Settled s s := ⟨rfl, fun _ => rfl⟩
theorem Settled.trans {s t u : State} (h : Settled s t) (g : Settled t u) : Settled s u := by
  refine ⟨?_, fun k => ?_⟩
  · have a := h.rest; have b := g.rest
    rw [a] at b; exact b
  · have a := h.core k; have b := g.core k
    rw [a] at b; exact b

theorem Fabric.settled {s t : State} (h : Fabric s t) : Settled s t := by
  refine ⟨?_, fun c => ?_⟩
  · have a := h.rest
    have e := h.cores
    generalize t.cores = k at a e ⊢
    rw [e]; exact a
  · rw [h.core c]

theorem Settled.modCore (s : State) (c : Nat) (f : Core → Core)
    (hf : ∀ k, f k = { k with ev := (f k).ev, res := (f k).res, sus := (f k).sus, seqs := (f k).seqs }) : Settled s (s.modCore c f) := by
  refine ⟨rfl, fun d => ?_⟩
  by_cases h : c = d
  · subst h; rw [State.core_modCore_self]; exact hf _
  · rw [State.core_modCore_ne _ _ h]

theorem Settled.modCtxOf (s : State) (c uid : Nat) (f : Ctx → Ctx) : Settled s (s.modCtxOf c uid f) := .modCore _ _ _ (fun _ => rfl)
theorem Settled.modTenant (s : State) (t : Nat) (f : Tenant → Tenant) : Settled s (s.modTenant t f) := ⟨rfl, fun _ => rfl⟩
theorem Settled.count (s : State) (c k n : Nat) : Settled s (s.count c k n) := by
  unfold State.count
  split
  · exact .refl _
  · exact .modCore _ _ _ (fun _ => rfl)
theorem Settled.cmdStatus (s : State) (m : Cmd) (a : Nat) (b : Dword) : Settled s (s.cmdStatus m a b) := by
  unfold State.cmdStatus State.launchStatus
  split
  · exact .refl _
  · split
    · exact .modCtxOf _ _ _ _
    · exact .modTenant _ _ _
theorem Settled.performed (s : State) (c : Nat) (q : Option Nat) (n : Nat) : Settled s (s.modCore c (fun k => k.performed q n)) := by
  refine .modCore _ _ _ (fun k => ?_)
  unfold Core.performed
  split <;> rfl
theorem Settled.lateTokens (s : State) (c u w n : Nat) : Settled s (s.lateTokens c u w n) := by
  unfold State.lateTokens
  split
  · exact ⟨rfl, fun _ => rfl⟩
  · exact .count _ _ _ _
theorem Settled.finishCmd (s : State) (i : Nat) : Settled s (s.finishCmd i) := by
  unfold State.finishCmd
  split
  · exact .refl _
  · simp only []
    have h0 : Settled s { s with cmds := Map.del s.cmds i, sent := s.sent.filter (fun p => p.2.cmd ≠ i) } := ⟨rfl, fun _ => rfl⟩
    split
    · exact h0.trans (.modCtxOf _ _ _ _)
    · exact (h0.trans (.performed _ _ _ _)).trans (.lateTokens _ _ _ _ _)
theorem Settled.noteLines (s : State) (i : Nat) (l : List Nat) : Settled s (s.noteLines i l) := by
  unfold State.noteLines
  split
  · exact .refl _
  · split
    · exact .refl _
    · split
      · exact .modCtxOf _ _ _ _
      · simp only
        split
        · exact (Settled.modTenant _ _ _).trans (.modCore _ _ _ (fun _ => rfl))
        · exact .modTenant _ _ _
theorem Settled.settle (s : State) (i : Nat) (l : List Nat) (info : AckInfo) : Settled s (s.settle i l info) := by
  unfold State.settle
  split
  · exact .refl _
  · next m _ =>
    split
    · simp only []
      have h1 : ∀ u : State, Settled u (if info.flushes = 0 then u else (u.count m.core 9 info.flushes).modCtxOf m.core m.uid (fun x => x.stick 4)) := by
        intro u; split
        · exact .refl _
        · exact (Settled.count _ _ _ _).trans (.modCtxOf _ _ _ _)
      have h2 : ∀ (b : Bool) (u : State), Settled u (if b = true then u.finishCmd i else u) := by
        intro b u; split
        · exact .finishCmd _ _
        · exact .refl _
      refine Settled.trans ?_ (h2 _ _)
      refine Settled.trans ?_ (.noteLines _ _ _)
      refine Settled.trans ?_ (h1 _)
      have h0 : Settled s { s with
        cmds := Map.ins s.cmds i { m with pend := m.pend.filter (fun a => a ∉ l) }
        sent := s.sent.filter (fun p => p.2.cmd ≠ i || p.2.acks.any (fun a => decide (a ∈ m.pend.filter (fun a => a ∉ l)))) } :=
        ⟨rfl, fun _ => rfl⟩
      exact h0.trans (.cmdStatus _ _ _ _)
    · exact .refl _
section
variable {s t : State} (h : Settled s t)
include h
theorem Settled.mem : t.mem = s.mem := by rw [h.rest]
theorem Settled.memPoison : t.memPoison = s.memPoison := by rw [h.rest]
theorem Settled.groups : t.groups = s.groups := by rw [h.rest]
theorem Settled.sac : t.sac = s.sac := by rw [h.rest]
theorem Settled.cycle : t.cycle = s.cycle := by rw [h.rest]
theorem Settled.ports : t.ports = s.ports := by rw [h.rest]
theorem Settled.byte (a : Nat) : t.byte a = s.byte a := by unfold State.byte; rw [h.mem]
end
end Sys2Proof.Machine
end

