-- ==== Sys2Proof/Laws/Units.lean ====
section
/-! SUPPORT. What touching and spilling units leaves of the machine (R312): memory, its marks, and the rows, marks and
owners of the core's units are all they change. -/

namespace Sys2Proof.Machine

/-- The parts of the machine that touching and spilling units of core c leaves as they are. -/
structure Kept1 (c : Nat) (s t : State) : Prop where
  rest : t = { s with cores := t.cores, mem := t.mem, memPoison := t.memPoison }
  core : ∃ ti tp ac ap sp pp ow sg sv sd, t.core c = { s.core c with
    tiles := ti, tilePoison := tp, acc := ac, accPoison := ap, spad := sp, spadPoison := pp, owner := ow, spilling := sg, saved := sv, side := sd }
  others : ∀ d, c ≠ d → t.core d = s.core d

theorem Kept1.refl (c : Nat) (s : State) : Kept1 c s s :=
  ⟨rfl, ⟨_, _, _, _, _, _, _, _, _, _, rfl⟩, fun _ _ => rfl⟩

theorem Kept1.trans {c : Nat} {s t u : State} (h : Kept1 c s t) (g : Kept1 c t u) : Kept1 c s u := by
  constructor
  · rw [g.rest, h.rest]
  · obtain ⟨_, _, _, _, _, _, _, _, _, _, e1⟩ := h.core
    obtain ⟨_, _, _, _, _, _, _, _, _, _, e2⟩ := g.core
    rw [e1] at e2
    exact ⟨_, _, _, _, _, _, _, _, _, _, e2⟩
  · intro d hd; rw [g.others d hd, h.others d hd]

theorem Kept1.modCore (s : State) (c : Nat) (f : Core → Core)
    (hf : ∃ ti tp ac ap sp pp ow sg sv sd, f (s.core c) = { s.core c with
      tiles := ti, tilePoison := tp, acc := ac, accPoison := ap, spad := sp, spadPoison := pp, owner := ow, spilling := sg, saved := sv, side := sd }) :
    Kept1 c s (s.modCore c f) := by
  refine ⟨rfl, ?_, fun d hd => State.core_modCore_ne s f hd⟩
  rw [State.core_modCore_self]
  exact hf

theorem Kept1.putByte (c : Nat) (s : State) (a : Nat) (b : Byte) : Kept1 c s (s.putByte a b) :=
  ⟨rfl, ⟨_, _, _, _, _, _, _, _, _, _, rfl⟩, fun _ _ => rfl⟩

theorem Kept1.writeN (c n : Nat) : ∀ (s : State) (a v : Nat), Kept1 c s (s.writeN a n v) := by
  induction n with
  | zero => intro s a v; exact Kept1.refl c s
  | succ n ih =>
    intro s a v
    exact Kept1.trans (Kept1.putByte c s a _) (ih (s.putByte a (BitVec.ofNat 8 v)) (a + 1) (v / 256))

theorem Kept1.cleanMem (c : Nat) (s : State) (a n : Nat) : Kept1 c s (s.cleanMem a n) :=
  ⟨rfl, ⟨_, _, _, _, _, _, _, _, _, _, rfl⟩, fun _ _ => rfl⟩

theorem Kept1.poisonMem (c : Nat) (s : State) (a n : Nat) : Kept1 c s (s.poisonMem a n) :=
  ⟨rfl, ⟨_, _, _, _, _, _, _, _, _, _, rfl⟩, fun _ _ => rfl⟩

theorem Kept1.spillRows (c u : Nat) (rs : List Nat) : ∀ (s : State) (a : Nat), Kept1 c s (spillRows s c u a rs) := by
  induction rs with
  | nil => intro s a; exact Kept1.refl c s
  | cons r rs ih =>
    intro s a
    simp only [Machine.spillRows]
    refine Kept1.trans ?_ (ih _ _)
    generalize (if (64 ≤ u && u < 80) = true then 512 else 128) = n
    have h : ∀ v, Kept1 c s ((s.writeN a n v).cleanMem a n) := fun v =>
      Kept1.trans (Kept1.writeN c n s a v) (Kept1.cleanMem c (s.writeN a n v) a n)
    have g : ∀ (v : Nat) (b : Bool), Kept1 c s (if b = true then ((s.writeN a n v).cleanMem a n).poisonMem a n
        else (s.writeN a n v).cleanMem a n) := by
      intro v b
      cases b
      · exact h v
      · exact Kept1.trans (h v) (Kept1.poisonMem c _ a n)
    exact g _ _

/-- Rows of a unit set: its rows and marks alone change. -/
theorem Core.setUnitRows_eq (u : Nat) (vs : List (Nat × Nat × Bool)) : ∀ (k : Core), ∃ ti tp ac ap sp pp,
    vs.foldl (fun r v => r.setUnitRow u v) k = { k with
      tiles := ti, tilePoison := tp, acc := ac, accPoison := ap, spad := sp, spadPoison := pp } := by
  induction vs with
  | nil => intro k; exact ⟨_, _, _, _, _, _, rfl⟩
  | cons v vs ih =>
    intro k
    obtain ⟨_, _, _, _, _, _, h⟩ := ih (k.setUnitRow u v)
    rw [List.foldl_cons, h]
    simp only [Core.setUnitRow]
    split
    · exact ⟨_, _, _, _, _, _, rfl⟩
    · split
      · exact ⟨_, _, _, _, _, _, rfl⟩
      · exact ⟨_, _, _, _, _, _, rfl⟩

theorem Kept1.loadRows (c u : Nat) (rs : List Nat) : ∀ (s : State) (a : Nat), Kept1 c s (loadRows s c u a rs) := by
  induction rs with
  | nil => intro s a; exact Kept1.refl c s
  | cons r rs ih =>
    intro s a
    simp only [Machine.loadRows]
    refine Kept1.trans (Kept1.modCore s c _ ?_) (ih _ _)
    generalize (r, _, _) = v
    obtain ⟨_, _, _, _, _, _, h⟩ := Core.setUnitRows_eq u [v] (s.core c)
    exact ⟨_, _, _, _, _, _, _, _, _, _, h⟩

/-- A unit freed of its owner: its rows, marks and owner alone change. -/
theorem Core.freeUnit_eq (k : Core) (u : Nat) : ∃ ti tp ac ap sp pp ow sg, k.freeUnit u = { k with
    tiles := ti, tilePoison := tp, acc := ac, accPoison := ap, spad := sp, spadPoison := pp, owner := ow, spilling := sg } := by
  simp only [Core.freeUnit, Core.clearUnit]
  split
  · exact ⟨_, _, _, _, _, _, _, _, rfl⟩
  · split
    · exact ⟨_, _, _, _, _, _, _, _, rfl⟩
    · exact ⟨_, _, _, _, _, _, _, _, rfl⟩

theorem Kept1.spillBit (s : State) (c d : Nat) (o : Owner) (u : Nat) (b : Bool) : Kept1 d s (s.spillBit c o u b) := by
  unfold State.spillBit
  simp only
  split
  · exact Kept1.putByte d s _ _
  · exact Kept1.refl d s

theorem Kept1.spillUnit (s : State) (c u : Nat) : Kept1 c s (spillUnit s c u) := by
  have hfree : ∀ k : Core, ∃ ti tp ac ap sp pp ow sg sv sd, k.freeUnit u = { k with
      tiles := ti, tilePoison := tp, acc := ac, accPoison := ap, spad := sp, spadPoison := pp, owner := ow, spilling := sg,
      saved := sv, side := sd } := by
    intro k
    obtain ⟨_, _, _, _, _, _, _, _, h⟩ := k.freeUnit_eq u
    exact ⟨_, _, _, _, _, _, _, _, _, _, h⟩
  unfold Machine.spillUnit
  split
  · exact Kept1.refl c s
  · split
    · exact Kept1.modCore s c _ (hfree _)
    · split
      · refine Kept1.modCore s c _ ?_
        obtain ⟨_, _, _, _, _, _, _, _, _, _, h⟩ := hfree (s.core c)
        rw [h]
        exact ⟨_, _, _, _, _, _, _, _, _, _, rfl⟩
      · simp only
        refine Kept1.trans ((Kept1.spillRows c u _ s _).trans (Kept1.spillBit _ c c _ u true)) (Kept1.modCore _ c _ ?_)
        obtain ⟨_, _, _, _, _, _, _, _, _, _, h⟩ := hfree _
        rw [h]
        exact ⟨_, _, _, _, _, _, _, _, _, _, rfl⟩

theorem Kept1.takeUnit (s : State) (c : Nat) (me : Owner) (u : Nat) : Kept1 c s (takeUnit s c me u) := by
  unfold Machine.takeUnit
  simp only
  refine Kept1.trans ?_ (Kept1.modCore _ c _ ⟨_, _, _, _, _, _, _, _, _, _, rfl⟩)
  split
  · refine Kept1.modCore s c _ ?_
    obtain ⟨_, _, _, _, _, _, h⟩ := Core.setUnitRows_eq u (Map.get [] (s.core c).side u) (s.core c)
    rw [h]
    exact ⟨_, _, _, _, _, _, _, _, _, _, rfl⟩
  · split
    · refine Kept1.trans (Kept1.trans ?_ (Kept1.spillBit _ c c _ u false)) (Kept1.modCore _ c _ ⟨_, _, _, _, _, _, _, _, _, _, rfl⟩)
      split
      · exact Kept1.refl c s
      · exact Kept1.loadRows c u _ s _
    · exact Kept1.refl c s

theorem Kept1.touchUnit (s : State) (c : Nat) (me : Owner) (u : Nat) : Kept1 c s (touchUnit s c me u) := by
  unfold Machine.touchUnit
  split
  · split
    · exact Kept1.refl c s
    · exact (Kept1.spillUnit s c u).trans (Kept1.takeUnit _ c me u)
  · exact Kept1.takeUnit s c me u

/-- All that touching units changes. -/
theorem Kept1.touchUnits (c : Nat) (me : Owner) (us : List Nat) : ∀ (s : State), Kept1 c s (touchUnits s c me us) := by
  induction us with
  | nil => intro s; exact Kept1.refl c s
  | cons u us ih => intro s; exact (Kept1.touchUnit s c me u).trans (ih _)

theorem Kept1.ctx {c : Nat} {s t : State} (h : Kept1 c s t) (d : Nat) : t.ctx d = s.ctx d := by
  by_cases hd : c = d
  · subst hd
    obtain ⟨_, _, _, _, _, _, _, _, _, _, e⟩ := h.core
    unfold State.ctx; rw [e]
  · unfold State.ctx; rw [h.others d hd]

theorem Kept1.snoop {c : Nat} {s t : State} (h : Kept1 c s t) : t.snoop = s.snoop := by rw [h.rest]
theorem Kept1.picks {c : Nat} {s t : State} (h : Kept1 c s t) : t.picks = s.picks := by rw [h.rest]
theorem Kept1.net {c : Nat} {s t : State} (h : Kept1 c s t) : t.net = s.net := by rw [h.rest]
theorem Kept1.cmds {c : Nat} {s t : State} (h : Kept1 c s t) : t.cmds = s.cmds := by rw [h.rest]
theorem Kept1.tenants {c : Nat} {s t : State} (h : Kept1 c s t) : t.tenants = s.tenants := by rw [h.rest]
theorem Kept1.nextId {c : Nat} {s t : State} (h : Kept1 c s t) : t.nextId = s.nextId := by rw [h.rest]

theorem touchUnits_ctx (s : State) (c : Nat) (me : Owner) (us : List Nat) (d : Nat) : (touchUnits s c me us).ctx d = s.ctx d :=
  (Kept1.touchUnits c me us s).ctx d

/-- Units that are already the toucher's stay as they are. -/
theorem touchUnits_own {s : State} {c : Nat} {me : Owner} {us : List Nat} (h : ∀ u ∈ us, Map.at? (s.core c).owner u = some me) :
    touchUnits s c me us = s := by
  induction us with
  | nil => rfl
  | cons u us ih =>
    have hu : touchUnit s c me u = s := by simp [touchUnit, h u (List.mem_cons_self ..)]
    rw [touchUnits, hu]
    exact ih (fun v hv => h v (List.mem_cons_of_mem _ hv))

/-! ## Words that change their context as they pass capture -/

/-- A change of the context that leaves the words waiting and started apart. -/
structure Blind (g : Ctx → Ctx) : Prop where
  qs : ∀ y, (g y).qs = y.qs
  fly : ∀ y, (g y).fly = y.fly
  me : ∀ y, (g y).me = y.me
  held : ∀ y, (g y).held = y.held
  apart : ∀ y q, g { y with qs := q } = { g y with qs := q }

theorem Blind.ite {p : Prop} [Decidable p] {f g : Ctx → Ctx} (hf : Blind f) (hg : Blind g) : Blind (fun x => if p then f x else g x) := by
  by_cases h : p
  · simpa only [h, if_true] using hf
  · simpa only [h, if_false] using hg

theorem SameCore.spilling {k l : Core} (h : SameCore k l) : l.spilling = k.spilling := by
  simp only [SameCore] at h; exact h.2.2.2.2.2.2.2.2.1

theorem popped_spilling {s : State} {x : Ctx} (h : Idle s x) (pops : List Nat) : ((s.popped x pops).core s.cur).spilling = [] :=
  (SameCore.spilling (popped_core s x pops)).trans h.spilling

/-- A word without an operation number, a result or q6 elements, that changes its context as it passes capture. -/
theorem issue_ctx {i : Instr} {sp : CapSpec} {chk : State → Nat → Ctx → QWord → Chk} {g : QWord → Ctx → Ctx} {run : RunFn}
    {s : State} {x : Ctx} {vals : List Dword} {pops : List Nat} {w : QWord} (h : Idle s x) (hpriv : sp.priv = true → x.priv = true)
    (hm : sp.mem = false) (hd : sp.dst = none) (hpu : sp.push = none) (hq : sp.q6 = 0)
    (hread : readAll s s.cur x sp.srcs [] [] = .ok vals pops)
    (hchk : chk s s.cur x (mkWord x i sp vals) = .ok w)
    (hw : w.pfx = x.grp.pfx ∧ w.blocked = false ∧ w.q6 = [] ∧ w.seqr = none ∧ w.gate = .none) (hg : Blind (g w))
    (hst : w.instr.still = true) :
    ∃ s0, issue i sp chk (fun s c v => s.modCtx c (g v)) run s =
      .next (afterRun s0 s.cur w (run (touchUnits ((s.popped x pops).modCtx s.cur
        (fun y => g w ((if sp.jump then y.pastAt (takesSr sp w) else y.past (takesSr sp w)).sawM sp.eng))) s.cur x.me w.units) s.cur w)) := by
  have hpush : sp.pushed = none := by simp [CapSpec.pushed, hd, hpu]
  obtain ⟨y, hy, hp⟩ := popPorts_ctx s.cur pops (endStall s s.cur x) x (by rw [endStall_ctx]; exact h.resident)
  have hy2 : (s.popped x pops).ctx s.cur = some y := hy
  have hyq : y.qs = [] := by obtain ⟨q, ch, rfl⟩ := hp; exact h.queues
  have hyf : y.fly = [] := by obtain ⟨q, ch, rfl⟩ := hp; exact h.started
  have hyme : y.me = x.me := by obtain ⟨q, ch, rfl⟩ := hp; rfl
  have hadm := Ctx.enrol_plain x (s.tenant x.tenant).scap w hm hd hq
  have hadmy := Ctx.enrol_plain y (s.tenant x.tenant).scap w hm hd hq
  have hv : (x.enrol sp (s.tenant x.tenant).scap w).2 = w := by
    rw [hadm]; show ({ w with q6 := [] } : QWord) = w; rw [← hw.2.2.1]
  generalize hz : (if sp.jump = true then y.pastAt (takesSr sp w) else y.past (takesSr sp w)).sawM sp.eng = z
  have hzq : z.qs = [] := by rw [← hz]; cases sp.jump <;> simp [hyq]
  have hzf : z.fly = [] := by rw [← hz]; cases sp.jump <;> simp [hyf]
  have hzme : z.me = x.me := by rw [← hz]; cases sp.jump <;> simp [hyme]
  have hent : s.entered x sp w pops = (s.popped x pops).setCtx s.cur z := by
    rw [State.entered, State.modCtx_of _ hy2]; simp only [hadmy, hz]
  have hpass : ∀ t : State, passing sp (fun s c v => s.modCtx c (g v)) t s.cur w = t.modCtx s.cur (g w) := by
    intro t; simp [passing, hpush]
  have hP : passing sp (fun s c v => s.modCtx c (g v)) (s.entered x sp w pops) s.cur w = (s.popped x pops).setCtx s.cur (g w z) := by
    rw [hpass, hent, State.modCtx_setCtx]
  obtain ⟨s0, hi⟩ := issue_acts (act := fun s c v => s.modCtx c (g v)) (run := run) (z := g w z) (v := w) h hpriv
    (by intro d hd2; rw [hpush] at hd2; cases hd2) (by simp [creditStall, hpush]) hread (by simp [hm]) hchk
    (by have := h.elems; simp only [q6Need, hq, hd]; simp; omega) ⟨hw.1, hw.2.1⟩ hv
    (by
      intro y2 hy3 _ _ _
      rw [hent, State.ctx_setCtx_self, Option.some.injEq] at hy3
      subst hy3
      rw [hpass, hent, State.setCtx_setCtx, State.modCtx_setCtx, hg.apart, hpass, State.modCtx_setCtx, State.setCtx_setCtx])
    (by rw [hP, State.setCtx_setCtx]) (by rw [hg.qs, hzq]) (by rw [hg.fly, hzf]) (congrArg Owner.tenant ((hg.me z).trans hzme)) (.inl hw.2.2.2.1)
    (by rw [hP]; exact ⟨(popped_open s x pops).1, (popped_open s x pops).2.trans h.picks⟩)
    (by rw [hP, State.limited_net (State.setCtx_net _ _ _)]; exact popped_limited h pops _)
    (State.gateOk_none (by simp [hw.2.2.2.2]))
    (by rw [hP, State.core_setCtx_self]; exact popped_spilling h pops)
  refine ⟨s0, ?_⟩
  rw [hi, State.placed_still _ _ _ hst, hP, hg.me, hzme, State.modCtx_of _ hy2, hz]

end Sys2Proof.Machine
end

