-- ==== Sys2Proof/Laws/Memory.lean ====
section
/-! SUPPORT. Every operation on memory keeps its canonical form: one lemma per shared operation, and what a word's run and
its passing capture must keep for `issue` to keep it. -/

namespace Sys2Proof.Machine

/-- The canonical form of memory is kept from one state to the next. -/
def KeepsMem (s t : State) : Prop := s.memWf = true → t.memWf = true

theorem KeepsMem.refl (s : State) : KeepsMem s s := id
theorem KeepsMem.trans {s t u : State} (h : KeepsMem s t) (g : KeepsMem t u) : KeepsMem s u := g ∘ h
theorem KeepsMem.of_eq {s t : State} (h : t.mem = s.mem) : KeepsMem s t := by
  intro hs; unfold State.memWf at *; rw [h]; exact hs

theorem KeepsMem.foldl {α : Type} (f : State → α → State) (hf : ∀ s a, KeepsMem s (f s a)) (l : List α) :
    ∀ s, KeepsMem s (l.foldl f s) := by
  induction l with
  | nil => exact fun s => .refl s
  | cons a l ih => exact fun s => (hf s a).trans (ih _)

/-! ## Bytes -/

theorem KeepsMem.putByte (s : State) (a : Nat) (b : Byte) : KeepsMem s (s.putByte a b) := fun h => State.memWf_putByte h a b
theorem KeepsMem.writeN (s : State) (a n v : Nat) : KeepsMem s (s.writeN a n v) := fun h => State.memWf_writeN n h a v
theorem KeepsMem.writeBytes (s : State) (a : Nat) (bs : List Byte) : KeepsMem s (s.writeBytes a bs) := fun h => State.memWf_writeBytes bs h a
theorem KeepsMem.cleanMem (s : State) (a n : Nat) : KeepsMem s (s.cleanMem a n) := .of_eq rfl
theorem KeepsMem.poisonMem (s : State) (a n : Nat) : KeepsMem s (s.poisonMem a n) := .of_eq rfl
theorem KeepsMem.zeroMem (s : State) (a n : Nat) : KeepsMem s (s.zeroMem a n) := by
  intro h
  obtain ⟨h1, h2⟩ := (Map.wf_iff _ _).1 h
  exact (Map.wf_iff _ _).2 ⟨h1.filter _, fun p hp => h2 p (List.mem_of_mem_filter hp)⟩
theorem KeepsMem.modCore (s : State) (c : Nat) (f : Core → Core) : KeepsMem s (s.modCore c f) := .of_eq rfl
theorem KeepsMem.setCtx (s : State) (c : Nat) (x : Ctx) : KeepsMem s (s.setCtx c x) := .of_eq rfl
theorem KeepsMem.modCtx (s : State) (c : Nat) (f : Ctx → Ctx) : KeepsMem s (s.modCtx c f) := .of_eq (by simp)
theorem KeepsMem.modCtxOf (s : State) (c uid : Nat) (f : Ctx → Ctx) : KeepsMem s (s.modCtxOf c uid f) := .of_eq rfl
theorem KeepsMem.modTenant (s : State) (t : Nat) (f : Tenant → Tenant) : KeepsMem s (s.modTenant t f) := .of_eq rfl
theorem KeepsMem.count (s : State) (c k n : Nat) : KeepsMem s (s.count c k n) := .of_eq (Settled.count s c k n).mem
theorem Fabric.keepsMem {s t : State} (h : Fabric s t) : KeepsMem s t := .of_eq h.mem
theorem Settled.keepsMem {s t : State} (h : Settled s t) : KeepsMem s t := .of_eq h.mem

/-- Bytes after a list of bytes is written: those in the list's place, and every other as before. -/
theorem State.byte_writeBytes_out (bs : List Byte) : ∀ (s : State) (a c : Nat), c < a ∨ a + bs.length ≤ c →
    (s.writeBytes a bs).byte c = s.byte c := by
  induction bs with
  | nil => intros; rfl
  | cons b t ih =>
    intro s a c h
    simp only [List.length_cons] at h
    simp only [State.writeBytes]
    rw [ih _ _ _ (by omega), State.byte_putByte, if_neg (by omega)]

theorem State.byte_writeBytes_in (bs : List Byte) : ∀ (s : State) (a i : Nat) (h : i < bs.length), (s.writeBytes a bs).byte (a + i) = bs[i] := by
  induction bs with
  | nil => intro s a i h; exact absurd h (Nat.not_lt_zero i)
  | cons b t ih =>
    intro s a i h
    simp only [State.writeBytes]
    cases i with
    | zero => rw [byte_writeBytes_out _ _ _ _ (by omega), State.byte_putByte, if_pos (by omega), List.getElem_cons_zero]
    | succ i => rw [show a + (i + 1) = a + 1 + i by omega, ih _ _ i (by simpa using h), List.getElem_cons_succ]

/-! ## Units, scratchpads and saved copies -/

theorem KeepsMem.spillRows (c u : Nat) (rs : List Nat) : ∀ (s : State) (a : Nat), KeepsMem s (spillRows s c u a rs) := by
  induction rs with
  | nil => exact fun s _ => .refl s
  | cons r rs ih =>
    intro s a
    have h : ∀ (bad : Bool) (n v : Nat), KeepsMem s (if bad = true then ((s.writeN a n v).cleanMem a n).poisonMem a n
        else (s.writeN a n v).cleanMem a n) := by
      intro bad n v
      split
      · exact ((KeepsMem.writeN s a n v).trans (.cleanMem _ _ _)).trans (.poisonMem _ _ _)
      · exact (KeepsMem.writeN s a n v).trans (.cleanMem _ _ _)
    exact (h _ _ _).trans (ih _ _)

theorem KeepsMem.loadRows (c u : Nat) (rs : List Nat) : ∀ (s : State) (a : Nat), KeepsMem s (loadRows s c u a rs) := by
  induction rs with
  | nil => exact fun s _ => .refl s
  | cons r rs ih => exact fun s a => (KeepsMem.modCore s c _).trans (ih _ _)

theorem KeepsMem.spillBit (s : State) (c : Nat) (o : Owner) (u : Nat) (b : Bool) : KeepsMem s (s.spillBit c o u b) := by
  unfold State.spillBit
  simp only
  split
  · exact .putByte _ _ _
  · exact .refl s

theorem KeepsMem.spillUnit (s : State) (c u : Nat) : KeepsMem s (spillUnit s c u) := by
  unfold Sys2Proof.Machine.spillUnit
  split
  · exact .refl s
  · split
    · exact .modCore _ _ _
    · split
      · exact .modCore _ _ _
      · exact ((KeepsMem.spillRows _ _ _ _ _).trans (.spillBit _ _ _ _ _)).trans (.modCore _ _ _)

theorem KeepsMem.takeUnit (s : State) (c : Nat) (me : Owner) (u : Nat) : KeepsMem s (takeUnit s c me u) := by
  unfold Sys2Proof.Machine.takeUnit
  simp only
  refine KeepsMem.trans ?_ (.modCore _ _ _)
  split
  · exact .modCore _ _ _
  · split
    · refine KeepsMem.trans (KeepsMem.trans ?_ (.spillBit _ _ _ _ _)) (.modCore _ _ _)
      split
      · exact .refl s
      · exact .loadRows _ _ _ _ _
    · exact .refl s

theorem KeepsMem.touchUnit (s : State) (c : Nat) (me : Owner) (u : Nat) : KeepsMem s (touchUnit s c me u) := by
  unfold Sys2Proof.Machine.touchUnit
  split
  · split
    · exact .refl s
    · exact (KeepsMem.spillUnit _ _ _).trans (.takeUnit _ _ _ _)
  · exact .takeUnit _ _ _ _

theorem KeepsMem.touchUnits (c : Nat) (me : Owner) (us : List Nat) : ∀ (s : State), KeepsMem s (touchUnits s c me us) := by
  induction us with
  | nil => exact fun s => .refl s
  | cons u us ih => exact fun s => (KeepsMem.touchUnit s c me u).trans (ih _)

theorem KeepsMem.ensureSaved (s : State) (c u : Nat) (me : Owner) : KeepsMem s (ensureSaved s c u me) := by
  unfold Sys2Proof.Machine.ensureSaved
  split
  · exact .refl s
  · exact (((KeepsMem.writeN _ _ _ _).trans (.cleanMem _ _ _)).trans (.spillBit _ _ _ _ _)).trans (.modCore _ _ _)

theorem KeepsMem.storeRow (s : State) (c : Nat) (me : Owner) (row : Nat) (v : Row) : KeepsMem s (storeRow s c me row v) := by
  unfold Sys2Proof.Machine.storeRow
  simp only
  split
  · exact ((KeepsMem.ensureSaved _ _ _ _).trans (.writeN _ _ _ _)).trans (.cleanMem _ _ _)
  · exact (KeepsMem.touchUnit _ _ _ _).trans (.modCore _ _ _)

theorem KeepsMem.saveUnits (c : Nat) (fs us : List Nat) : ∀ (s : State), KeepsMem s (saveUnits s c fs us) := by
  induction us with
  | nil => exact fun s => .refl s
  | cons u us ih => exact fun s => (KeepsMem.spillRows _ _ _ s _).trans (ih _)

theorem KeepsMem.loadUnits (c : Nat) (fs us : List Nat) : ∀ (s : State), KeepsMem s (loadUnits s c fs us) := by
  induction us with
  | nil => exact fun s => .refl s
  | cons u us ih => exact fun s => ((KeepsMem.modCore s c _).trans (.loadRows _ _ _ _ _)).trans (ih _)

theorem KeepsMem.writeRegions (a : Nat) (rs : List Region) : ∀ (s : State), KeepsMem s (writeRegions s a rs) := by
  induction rs with
  | nil => exact fun s => .refl s
  | cons r rs ih =>
    intro s
    simp only [Sys2Proof.Machine.writeRegions]
    split
    · exact ih s
    · split
      · exact (KeepsMem.writeN _ _ _ _).trans (ih _)
      · have h : ∀ t : State, KeepsMem t { t with freeCtr := s.freeCtr + r.len } := fun _ => .of_eq rfl
        exact KeepsMem.trans (KeepsMem.trans (.writeBytes _ _ _) (h _)) (ih _)

theorem KeepsMem.writeImage (s : State) (c : Nat) (x : Ctx) (f : Nat → Nat) (n : Nat) (l : List Nat) (a : Nat) :
    KeepsMem s (writeImage s c x f n l a) :=
  (((KeepsMem.cleanMem _ _ _).trans (.zeroMem _ _ _)).trans (.writeRegions _ _ _)).trans (.writeN _ _ _ _)

/-! ## Landing -/

theorem KeepsMem.stickAt (s : State) (c uid i : Nat) : KeepsMem s (s.stickAt c uid i) := by
  unfold State.stickAt
  simp only
  split
  · exact .modCtxOf _ _ _ _
  · exact (KeepsMem.modCtxOf _ _ _ _).trans (.putByte _ _ _)

theorem KeepsMem.landRow (s : State) (c : Nat) (me : Owner) (row : Nat) (p : RowPart) : KeepsMem s (landRow s c me row p) := by
  unfold Sys2Proof.Machine.landRow
  simp only
  split
  · have h := fun v => (KeepsMem.ensureSaved s c (spadUnit row) me).trans
      (.writeN _ (slotRow (Sys2Proof.Machine.ensureSaved s c (spadUnit row) me) c row me) 128 v)
    split
    · exact (h _).trans (.poisonMem _ _ _)
    · split
      · exact (h _).trans (.cleanMem _ _ _)
      · exact h _
  · exact (KeepsMem.touchUnit _ _ _ _).trans (.modCore _ _ _)

theorem KeepsMem.landRows (s : State) (c : Nat) (me : Owner) (uid : Nat) (ps : Map RowPart) (rows : List Nat) :
    KeepsMem s (landRows s c me uid ps rows) := by
  have h := KeepsMem.foldl (fun q r => Sys2Proof.Machine.landRow q c me r (Map.get {} ps r)) (fun _ _ => .landRow _ _ _ _ _) rows s
  unfold Sys2Proof.Machine.landRows
  simp only
  split
  · exact h.trans (.stickAt _ _ _ _)
  · exact h

theorem KeepsMem.landBeat (s : State) (c : Nat) (b : OpenBlk) (m : Rec512) (uid slot : Nat) (h : Hdr) (t : Beat) :
    KeepsMem s (landBeat s c b m uid slot h t).1 := .landRows _ _ _ _ _ _

theorem KeepsMem.dropBeat (s : State) (c : Nat) (b : OpenBlk) : KeepsMem s (dropBeat s c b).1 := by
  unfold Sys2Proof.Machine.dropBeat
  simp only
  split
  · exact (KeepsMem.count _ _ _ _).trans (.stickAt _ _ _ _)
  · exact .count _ _ _ _

theorem KeepsMem.fillBlock (s : State) (c : Nat) (b : OpenBlk) (m : Rec512) (uid slot : Nat) : KeepsMem s (fillBlock s c b m uid slot) := by
  unfold Sys2Proof.Machine.fillBlock
  simp only
  generalize (if mFill m = 3 then [] else unwritten b m) = ps
  split
  · exact .landRows _ _ _ _ _ _
  · exact ((KeepsMem.landRows _ _ _ _ _ _).trans (.count _ _ _ _)).trans (.stickAt _ _ _ _)

theorem KeepsMem.completeBlock (s : State) (c k : Nat) (b : OpenBlk) : KeepsMem s (completeBlock s c k b) := by
  unfold Sys2Proof.Machine.completeBlock
  simp only
  refine KeepsMem.trans ?_ (Fabric.send _ _).keepsMem
  split
  · exact .of_eq rfl
  · next m uid slot _ =>
    have h := KeepsMem.fillBlock s c b m uid slot
    have h2 : ∀ t : State, KeepsMem s t → KeepsMem s { t.modCore c (fun q => { q with blks := Map.del q.blks k }) with
        applied := Map.ins (t.modCore c (fun q => { q with blks := Map.del q.blks k })).applied k (.ack k [k] b.report) } := fun t ht => ht
    apply h2
    split
    · exact h.trans (.modCtxOf _ _ _ _)
    · exact h

theorem KeepsMem.putFlag (s : State) (c : Nat) (x : Ctx) (w : Nat) (v : Dword) : KeepsMem s (s.putFlag c x w v) := by
  unfold State.putFlag
  simp only
  split
  · exact (KeepsMem.ensureSaved _ _ _ _).trans (.writeN _ _ _ _)
  · exact ((KeepsMem.touchUnit _ _ _ _).trans (.modCore _ _ _)).trans (.modCtxOf _ _ _ _)

/-! ## Global tensors and the step cache -/

theorem KeepsMem.putGlob (s : State) (t tag pos n v : Nat) : KeepsMem s (putGlob s t tag pos n v) := by
  unfold Sys2Proof.Machine.putGlob
  refine KeepsMem.foldl _ (fun q p => ?_) _ _
  split
  · exact .refl _
  · exact .putByte _ _ _

theorem KeepsMem.cleanGlob (s : State) (t tag : Nat) (cells : List (Nat × Nat)) : KeepsMem s (cleanGlob s t tag cells) := by
  refine KeepsMem.foldl _ (fun q p => ?_) _ _
  split
  · exact .cleanMem _ _ _
  · exact .refl _

theorem KeepsMem.poisonGlob (s : State) (t tag pos n : Nat) : KeepsMem s (poisonGlob s t tag pos n) :=
  KeepsMem.foldl _ (fun _ _ => .poisonMem _ _ _) _ _

theorem KeepsMem.accumCells (t : Nat) (h : Hdr) (op : Nat) (cs : List (Nat × Nat)) : ∀ (s : State) (bad : Option Nat) (bytes : List Nat),
    KeepsMem s (accumCells s t h op cs bad bytes).1 := by
  induction cs with
  | nil => exact fun s _ _ => .refl s
  | cons p cs ih =>
    intro s bad bytes
    obtain ⟨pos, v⟩ := p
    simp only [Sys2Proof.Machine.accumCells]
    split
    · exact ih _ _ _
    · exact (KeepsMem.putGlob _ _ _ _ _ _).trans (ih _ _ _)

theorem KeepsMem.sacWrite (s : State) (t a et : Nat) (vs : List Nat) : KeepsMem s (sacWrite s t a et vs) :=
  KeepsMem.trans (KeepsMem.foldl _ (fun _ _ => .putGlob _ _ _ _ _ _) _ _) (KeepsMem.foldl _ (fun _ _ => .cleanMem _ _ _) _ _)

/-! ## Words -/

/-- The state a run leaves. -/
def RunRes.state : RunRes → State
  | .done s | .sent s | .shut s | .going s | .hold s | .again s _ _ | .trap _ _ s => s

theorem KeepsMem.enterTrap (s : State) (c : Nat) (p : Pend) : KeepsMem s (s.enterTrap c p) := by
  unfold State.enterTrap
  split
  · exact .refl s
  · simp only; split <;> exact .setCtx _ _ _

theorem KeepsMem.endStall (s : State) (c : Nat) (x : Ctx) : KeepsMem s (endStall s c x) := by
  unfold Sys2Proof.Machine.endStall
  split
  · exact .count _ _ _ _
  · exact .count _ _ _ _
  · exact .refl s

theorem KeepsMem.unstall (s : State) (c : Nat) (x : Ctx) : KeepsMem s (s.unstall c x) := by
  unfold State.unstall
  split
  · exact .refl s
  · exact (KeepsMem.endStall _ _ _).trans (.setCtx _ _ _)

theorem KeepsMem.raise (s : State) (c : Nat) (p : Pend) : KeepsMem s (s.raise c p) := by
  unfold State.raise
  split
  · exact .refl s
  · simp only
    split
    · split <;> exact .setCtx _ _ _
    · split
      · exact (KeepsMem.unstall _ _ _).trans (.enterTrap _ _ _)
      · exact (KeepsMem.unstall _ _ _).trans (.setCtx _ _ _)

theorem KeepsMem.setStall (s : State) (c : Nat) (x : Ctx) (t : Stall) : KeepsMem s (s.setStall c x t) := by
  unfold State.setStall
  split
  · exact .refl s
  · exact (KeepsMem.endStall _ _ _).trans (.setCtx _ _ _)

theorem KeepsMem.captureTrap (s : State) (c : Nat) (x : Ctx) (e : Engine) (cause : Nat) (v : Dword) (d : Option Nat) :
    KeepsMem s (captureTrap s c x e cause v d) :=
  ((KeepsMem.endStall _ _ _).trans (.setCtx _ _ _)).trans (.raise _ _ _)

theorem KeepsMem.addFly (s : State) (c : Nat) (w : QWord) : KeepsMem s (s.addFly c w) := .modCtx _ _ _

theorem KeepsMem.afterRun {s : State} (s0 : State) (c : Nat) (w : QWord) {r : RunRes} (h : KeepsMem s r.state) : KeepsMem s (afterRun s0 c w r) := by
  cases r with
  | done t =>
    simp only [Sys2Proof.Machine.afterRun]
    have h1 : KeepsMem s (if w.seqr.isNone = true then t else t.modCtx c (fun x => x.perform w.seqr w.opn)) := by
      split
      · exact h
      · exact h.trans (.modCtx _ _ _)
    split
    · exact h1
    · exact h1.trans (.addFly _ _ _)
  | sent t => exact h.trans (.addFly _ _ _)
  | shut t => exact h.trans (.addFly _ _ _)
  | going t => exact h.trans (.addFly _ _ _)
  | hold t => exact h.trans (.addFly _ _ _)
  | again t v ks => exact h.trans (.addFly _ _ _)
  | trap a b t => exact (h.trans (.modCtx _ _ _)).trans (.raise _ _ _)

/-! ## Row accesses chosen one by one -/

/-- The state of a run, its context of rows put back, keeps the form where the run does. -/
theorem KeepsMem.res {s t : State} (a : After) (h : KeepsMem s t) : KeepsMem s (a.res t).state := by
  cases a <;> exact h

theorem KeepsMem.writeRows {s : State} (s0 t : State) (c : Nat) (w : QWord) (outs : List RowVal) (a : After) (h : KeepsMem s t) :
    KeepsMem s (writeRows s0 t c w outs a) := by
  unfold Sys2Proof.Machine.writeRows
  simp only
  have h1 : KeepsMem s { t.modCore c (fun k => k.setRowVals (pick outs t.picks).1) with picks := (pick outs t.picks).2.2 } := fun hs => h hs
  split
  · exact .afterRun _ _ _ (.res a h1)
  · exact h1.trans (.addFly _ _ _)

/-- A run on rows as they were read keeps the form where the run does. -/
theorem KeepsMem.runOnRows {run : RunFn} (hr : ∀ s c w, KeepsMem s (run s c w).state) (s0 s : State) (c : Nat) (w : QWord) (reads : List RowVal) :
    KeepsMem s (runOnRows run s0 s c w reads) := by
  unfold Sys2Proof.Machine.runOnRows
  simp only
  generalize reads.filter (fun v => !v.gathered) = snap
  generalize reads.filter RowVal.gathered = gs
  have h := (KeepsMem.modCore s c (fun k => k.setRowVals snap)).trans (hr _ c { w with mid := none, gath := gs })
  have hb : ∀ t : State, KeepsMem s t → KeepsMem s (t.modCore c (fun k => k.setRowVals (snap.map (fun v => (s.core c).rowVal v.key)))) :=
    fun t ht => ht.trans (.modCore _ _ _)
  generalize run (s.modCore c (fun k => k.setRowVals snap)) c { w with mid := none, gath := gs } = r at h
  have go : ∀ (t : State) (a : After) (outs : List RowVal), KeepsMem s t →
      KeepsMem s (if outs.isEmpty = true then
        Sys2Proof.Machine.afterRun s0 c { w with mid := none }
          (a.res (t.modCore c (fun k => k.setRowVals (snap.map (fun v => (s.core c).rowVal v.key)))))
        else Sys2Proof.Machine.writeRows s0 (t.modCore c (fun k => k.setRowVals (snap.map (fun v => (s.core c).rowVal v.key)))) c w outs a) := by
    intro t a outs ht
    split
    · exact .afterRun _ _ _ (.res a (hb t ht))
    · exact .writeRows _ _ _ _ _ _ (hb t ht)
  cases r with
  | done t => exact go t .done _ h
  | sent t => exact go t .sent _ h
  | shut t => exact go t .shut _ h
  | going t => exact go t .going _ h
  | hold t => exact .afterRun _ _ _ (hb t h)
  | again t v ks => exact .afterRun _ _ _ (hb t h)
  | trap a b t => exact .afterRun _ _ _ (hb t h)

theorem KeepsMem.rowStep {run : RunFn} (hr : ∀ s c w, KeepsMem s (run s c w).state) (s0 s : State) (c : Nat) (w : QWord) (r : Rows) :
    KeepsMem s (rowStep run s0 s c w r) := by
  have hp : KeepsMem s { s with picks := (pick r.todo s.picks).2.2 } := .of_eq rfl
  unfold Sys2Proof.Machine.rowStep
  split
  · exact .writeRows _ _ _ _ _ _ (.refl s)
  · split
    · exact .refl s
    · simp only
      split
      · exact (hp.trans (.touchUnits _ _ _ _)).trans (.runOnRows hr _ _ _ _ _)
      · exact (hp.trans (.touchUnits _ _ _ _)).trans (.addFly _ _ _)

/-- A run that keeps the form keeps it through the word's start. -/
theorem KeepsMem.startWord {run : RunFn} (hr : ∀ s c w, KeepsMem s (run s c w).state) (s : State) (c : Nat) (w : QWord) :
    KeepsMem s (startWord run s c w) := by
  unfold Sys2Proof.Machine.startWord
  split
  · exact .refl s
  · simp only
    split
    · exact .afterRun _ _ _ (((KeepsMem.setCtx _ _ _).trans (.touchUnits _ _ _ _)).trans (hr _ _ _))
    · exact ((KeepsMem.setCtx _ _ _).trans (.touchUnits _ _ _ _)).trans (.rowStep hr _ _ _ _ _)

theorem KeepsMem.resumeWord {run : RunFn} (hr : ∀ s c w, KeepsMem s (run s c w).state) (s : State) (c : Nat) (w : QWord) :
    KeepsMem s (resumeWord run s c w) := by
  unfold Sys2Proof.Machine.resumeWord
  split
  · exact .refl s
  · simp only
    split
    · exact .refl s
    split
    · exact .afterRun _ _ _ ((KeepsMem.setCtx _ _ _).trans (hr _ _ _))
    · exact ((KeepsMem.setCtx _ _ _).trans (.touchUnits _ _ _ _)).trans (.rowStep hr _ _ _ _ _)

theorem KeepsMem.tryStart {run : RunFn} (hr : ∀ s c w, KeepsMem s (run s c w).state) (s : State) (c n : Nat) : KeepsMem s (tryStart run s c n) := by
  unfold Sys2Proof.Machine.tryStart
  split
  · exact .refl s
  · split
    · exact .refl s
    · split
      · exact .startWord hr _ _ _
      · exact .refl s

theorem KeepsMem.popPorts (c : Nat) (ks : List Nat) : ∀ (s : State), KeepsMem s (popPorts s c ks) := by
  induction ks with
  | nil => exact fun s => .refl s
  | cons k ks ih =>
    intro s
    simp only [Sys2Proof.Machine.popPorts]
    refine KeepsMem.trans ?_ (ih _)
    split
    · exact .modCtx _ _ _
    · split
      · split
        · exact .modCore _ _ _
        · exact .refl s
      · generalize ht : s.modCtx c _ = t
        have h : KeepsMem s t := by rw [← ht]; exact .modCtx _ _ _
        split
        · exact h.trans (Fabric.send _ _).keepsMem
        · exact h

theorem KeepsMem.reserveChannel (s : State) (c q n : Nat) : KeepsMem s (reserveChannel s c q n) := by
  unfold Sys2Proof.Machine.reserveChannel
  split
  · exact .refl s
  · simp only
    split
    · exact .setCtx _ _ _
    · split
      · exact .setCtx _ _ _
      · exact (KeepsMem.setCtx _ _ _).trans (.modCtxOf _ _ _ _)

theorem KeepsMem.commit (s : State) (c : Nat) (sp : CapSpec) (x : Ctx) (w : QWord) (pops : List Nat) : KeepsMem s (commit s c sp x w pops).1 := by
  unfold Sys2Proof.Machine.commit
  simp only
  have h := (KeepsMem.endStall s c x).trans (.popPorts c pops _)
  split
  · exact h
  · simp only
    split
    · split
      · exact (h.trans (.setCtx _ _ _)).trans (.reserveChannel _ _ _ _)
      · exact h.trans (.setCtx _ _ _)
    · exact h.trans (.setCtx _ _ _)

theorem KeepsMem.capture {i : Instr} {sp : CapSpec} {chk : State → Nat → Ctx → QWord → Chk} {act : State → Nat → QWord → State} {run : RunFn}
    (ha : ∀ s c w, KeepsMem s (act s c w)) (hr : ∀ s c w, KeepsMem s (run s c w).state) (s : State) (c : Nat) (x : Ctx) :
    KeepsMem s (capture i sp chk act run s c x) := by
  unfold Sys2Proof.Machine.capture
  repeat' split
  all_goals first
    | exact .captureTrap _ _ _ _ _ _ _
    | exact .setStall _ _ _ _
    | exact ((KeepsMem.commit _ _ _ _ _ _).trans (ha _ _ _)).trans (.tryStart hr _ _ _)
    | exact (KeepsMem.commit _ _ _ _ _ _).trans (ha _ _ _)

/-- A word keeps the form where its passing capture and its run do. -/
theorem KeepsMem.issue {i : Instr} {sp : CapSpec} {chk : State → Nat → Ctx → QWord → Chk} {act : State → Nat → QWord → State} {run : RunFn}
    (ha : ∀ s c w, KeepsMem s (act s c w)) (hr : ∀ s c w, KeepsMem s (run s c w).state) {s t : State}
    (h : issue i sp chk act run s = .next t) : KeepsMem s t := by
  unfold Sys2Proof.Machine.issue at h
  split at h
  · cases h; exact .refl s
  · split at h
    · cases h; exact .refl s
    · cases h; exact .capture ha hr _ _ _

end Sys2Proof.Machine
end

