-- ==== Sys2Proof/Laws/PerInstr.lean ====
section
/-! SUPPORT. Family F, one lemma per constructor: the word of an instruction never has engine value 111, so the fetch
never takes an instruction for a prefix (R30, R34). -/

namespace Sys2Proof.Laws

/-- A field below bit 29 leaves the engine bits alone. -/
theorem field_engine (n k : Nat) (x : BitVec n) (h : n + k ≤ 29) : (x.setWidth 32 <<< k).extractLsb' 29 3 = 0#3 := by
  apply BitVec.eq_of_getLsbD_eq
  intro i hi
  simp only [BitVec.getLsbD_extractLsb', BitVec.getLsbD_shiftLeft, BitVec.getLsbD_setWidth, BitVec.getLsbD_zero, hi]
  have : x.getLsbD (29 + i - k) = false := BitVec.getLsbD_of_ge _ _ (by omega)
  simp [this]

/-- The same for a field at bit 0. -/
theorem field_engine0 (n : Nat) (x : BitVec n) (h : n ≤ 29) : (x.setWidth 32).extractLsb' 29 3 = 0#3 := by
  have := field_engine n 0 x (by omega)
  simpa using this

/-- The family's statement: no word of the instruction reads as a prefix. -/
def F.Statement (i : Instr) : Prop := ∀ w, encode i = some w → w.extractLsb' 29 3 ≠ 7#3

theorem F.nop : F.Statement (.nop) := by intro w h; cases h; decide
theorem F.add (d a b : BitVec 6) : F.Statement (.add d a b) := by
  intro w h; cases h; simp [BitVec.extractLsb'_or, field_engine, field_engine0]
theorem F.sub (d a b : BitVec 6) : F.Statement (.sub d a b) := by
  intro w h; cases h; simp [BitVec.extractLsb'_or, field_engine, field_engine0]
theorem F.mul (d a b : BitVec 6) : F.Statement (.mul d a b) := by
  intro w h; cases h; simp [BitVec.extractLsb'_or, field_engine, field_engine0]
theorem F.mulh (d a b : BitVec 6) : F.Statement (.mulh d a b) := by
  intro w h; cases h; simp [BitVec.extractLsb'_or, field_engine, field_engine0]
theorem F.mulhu (d a b : BitVec 6) : F.Statement (.mulhu d a b) := by
  intro w h; cases h; simp [BitVec.extractLsb'_or, field_engine, field_engine0]
theorem F.div (d a b : BitVec 6) : F.Statement (.div d a b) := by
  intro w h; cases h; simp [BitVec.extractLsb'_or, field_engine, field_engine0]
theorem F.divu (d a b : BitVec 6) : F.Statement (.divu d a b) := by
  intro w h; cases h; simp [BitVec.extractLsb'_or, field_engine, field_engine0]
theorem F.rem (d a b : BitVec 6) : F.Statement (.rem d a b) := by
  intro w h; cases h; simp [BitVec.extractLsb'_or, field_engine, field_engine0]
theorem F.remu (d a b : BitVec 6) : F.Statement (.remu d a b) := by
  intro w h; cases h; simp [BitVec.extractLsb'_or, field_engine, field_engine0]
theorem F.and (d a b : BitVec 6) : F.Statement (.and d a b) := by
  intro w h; cases h; simp [BitVec.extractLsb'_or, field_engine, field_engine0]
theorem F.or (d a b : BitVec 6) : F.Statement (.or d a b) := by
  intro w h; cases h; simp [BitVec.extractLsb'_or, field_engine, field_engine0]
theorem F.xor (d a b : BitVec 6) : F.Statement (.xor d a b) := by
  intro w h; cases h; simp [BitVec.extractLsb'_or, field_engine, field_engine0]
theorem F.andn (d a b : BitVec 6) : F.Statement (.andn d a b) := by
  intro w h; cases h; simp [BitVec.extractLsb'_or, field_engine, field_engine0]
theorem F.shl (d a b : BitVec 6) : F.Statement (.shl d a b) := by
  intro w h; cases h; simp [BitVec.extractLsb'_or, field_engine, field_engine0]
theorem F.shr (d a b : BitVec 6) : F.Statement (.shr d a b) := by
  intro w h; cases h; simp [BitVec.extractLsb'_or, field_engine, field_engine0]
theorem F.sra (d a b : BitVec 6) : F.Statement (.sra d a b) := by
  intro w h; cases h; simp [BitVec.extractLsb'_or, field_engine, field_engine0]
theorem F.rotl (d a b : BitVec 6) : F.Statement (.rotl d a b) := by
  intro w h; cases h; simp [BitVec.extractLsb'_or, field_engine, field_engine0]
theorem F.min (d a b : BitVec 6) : F.Statement (.min d a b) := by
  intro w h; cases h; simp [BitVec.extractLsb'_or, field_engine, field_engine0]
theorem F.max (d a b : BitVec 6) : F.Statement (.max d a b) := by
  intro w h; cases h; simp [BitVec.extractLsb'_or, field_engine, field_engine0]
theorem F.minu (d a b : BitVec 6) : F.Statement (.minu d a b) := by
  intro w h; cases h; simp [BitVec.extractLsb'_or, field_engine, field_engine0]
theorem F.maxu (d a b : BitVec 6) : F.Statement (.maxu d a b) := by
  intro w h; cases h; simp [BitVec.extractLsb'_or, field_engine, field_engine0]
theorem F.clz (d a : BitVec 6) : F.Statement (.clz d a) := by
  intro w h; cases h; simp [BitVec.extractLsb'_or, field_engine, field_engine0]
theorem F.ctz (d a : BitVec 6) : F.Statement (.ctz d a) := by
  intro w h; cases h; simp [BitVec.extractLsb'_or, field_engine, field_engine0]
theorem F.popc (d a : BitVec 6) : F.Statement (.popc d a) := by
  intro w h; cases h; simp [BitVec.extractLsb'_or, field_engine, field_engine0]
theorem F.addi (d a : BitVec 6) (i : BitVec 11) : F.Statement (.addi d a i) := by
  intro w h; cases h; simp [BitVec.extractLsb'_or, field_engine, field_engine0]
theorem F.andi (d a : BitVec 6) (i : BitVec 11) : F.Statement (.andi d a i) := by
  intro w h; cases h; simp [BitVec.extractLsb'_or, field_engine, field_engine0]
theorem F.ori (d a : BitVec 6) (i : BitVec 11) : F.Statement (.ori d a i) := by
  intro w h; cases h; simp [BitVec.extractLsb'_or, field_engine, field_engine0]
theorem F.xori (d a : BitVec 6) (i : BitVec 11) : F.Statement (.xori d a i) := by
  intro w h; cases h; simp [BitVec.extractLsb'_or, field_engine, field_engine0]
theorem F.shli (d a : BitVec 6) (i : BitVec 11) : F.Statement (.shli d a i) := by
  intro w h; cases h; simp [BitVec.extractLsb'_or, field_engine, field_engine0]
theorem F.shri (d a : BitVec 6) (i : BitVec 11) : F.Statement (.shri d a i) := by
  intro w h; cases h; simp [BitVec.extractLsb'_or, field_engine, field_engine0]
theorem F.srai (d a : BitVec 6) (i : BitVec 11) : F.Statement (.srai d a i) := by
  intro w h; cases h; simp [BitVec.extractLsb'_or, field_engine, field_engine0]
theorem F.muli (d a : BitVec 6) (i : BitVec 11) : F.Statement (.muli d a i) := by
  intro w h; cases h; simp [BitVec.extractLsb'_or, field_engine, field_engine0]
theorem F.li (d : BitVec 6) (i : BitVec 11) : F.Statement (.li d i) := by
  intro w h; cases h; simp [BitVec.extractLsb'_or, field_engine, field_engine0]
theorem F.fadd (d a b : BitVec 6) : F.Statement (.fadd d a b) := by
  intro w h; cases h; simp [BitVec.extractLsb'_or, field_engine, field_engine0]
theorem F.fsub (d a b : BitVec 6) : F.Statement (.fsub d a b) := by
  intro w h; cases h; simp [BitVec.extractLsb'_or, field_engine, field_engine0]
theorem F.fmul (d a b : BitVec 6) : F.Statement (.fmul d a b) := by
  intro w h; cases h; simp [BitVec.extractLsb'_or, field_engine, field_engine0]
theorem F.fdiv (d a b : BitVec 6) : F.Statement (.fdiv d a b) := by
  intro w h; cases h; simp [BitVec.extractLsb'_or, field_engine, field_engine0]
theorem F.fmin (d a b : BitVec 6) : F.Statement (.fmin d a b) := by
  intro w h; cases h; simp [BitVec.extractLsb'_or, field_engine, field_engine0]
theorem F.fmax (d a b : BitVec 6) : F.Statement (.fmax d a b) := by
  intro w h; cases h; simp [BitVec.extractLsb'_or, field_engine, field_engine0]
theorem F.fabs (d a : BitVec 6) : F.Statement (.fabs d a) := by
  intro w h; cases h; simp [BitVec.extractLsb'_or, field_engine, field_engine0]
theorem F.fneg (d a : BitVec 6) : F.Statement (.fneg d a) := by
  intro w h; cases h; simp [BitVec.extractLsb'_or, field_engine, field_engine0]
theorem F.fsqrt (d a : BitVec 6) : F.Statement (.fsqrt d a) := by
  intro w h; cases h; simp [BitVec.extractLsb'_or, field_engine, field_engine0]
theorem F.fcvtFw (d a : BitVec 6) : F.Statement (.fcvtFw d a) := by
  intro w h; cases h; simp [BitVec.extractLsb'_or, field_engine, field_engine0]
theorem F.fcvtWf (d a : BitVec 6) : F.Statement (.fcvtWf d a) := by
  intro w h; cases h; simp [BitVec.extractLsb'_or, field_engine, field_engine0]
theorem F.cmp (p : BitVec 7) (a b : BitVec 6) (c : BitVec 4) : F.Statement (.cmp p a b c) := by
  intro w h; cases h; simp [BitVec.extractLsb'_or, field_engine, field_engine0]
theorem F.pand (d a b : BitVec 7) : F.Statement (.pand d a b) := by
  intro w h; cases h; simp [BitVec.extractLsb'_or, field_engine, field_engine0]
theorem F.por (d a b : BitVec 7) : F.Statement (.por d a b) := by
  intro w h; cases h; simp [BitVec.extractLsb'_or, field_engine, field_engine0]
theorem F.pxor (d a b : BitVec 7) : F.Statement (.pxor d a b) := by
  intro w h; cases h; simp [BitVec.extractLsb'_or, field_engine, field_engine0]
theorem F.pandn (d a b : BitVec 7) : F.Statement (.pandn d a b) := by
  intro w h; cases h; simp [BitVec.extractLsb'_or, field_engine, field_engine0]
theorem F.csel (d a b : BitVec 6) (p : BitVec 5) : F.Statement (.csel d a b p) := by
  intro w h; cases h; simp [BitVec.extractLsb'_or, field_engine, field_engine0]
theorem F.pget (s : BitVec 6) (p : BitVec 7) (h : BitVec 1) : F.Statement (.pget s p h) := by
  intro w h; cases h; simp [BitVec.extractLsb'_or, field_engine, field_engine0]
theorem F.pput (s : BitVec 6) (p : BitVec 7) (h : BitVec 1) : F.Statement (.pput s p h) := by
  intro w h; cases h; simp [BitVec.extractLsb'_or, field_engine, field_engine0]
theorem F.tshape (s t : BitVec 6) : F.Statement (.tshape s t) := by
  intro w h; cases h; simp [BitVec.extractLsb'_or, field_engine, field_engine0]
theorem F.rdshape (s t : BitVec 6) : F.Statement (.rdshape s t) := by
  intro w h; cases h; simp [BitVec.extractLsb'_or, field_engine, field_engine0]
theorem F.csrr (s : BitVec 6) (c : BitVec 12) : F.Statement (.csrr s c) := by
  intro w h; cases h; simp [BitVec.extractLsb'_or, field_engine, field_engine0]
theorem F.csrw (s : BitVec 6) (c : BitVec 12) : F.Statement (.csrw s c) := by
  intro w h; cases h; simp [BitVec.extractLsb'_or, field_engine, field_engine0]
theorem F.lds (s b : BitVec 6) (d : BitVec 11) : F.Statement (.lds s b d) := by
  intro w h; cases h; simp [BitVec.extractLsb'_or, field_engine, field_engine0]
theorem F.sts (s b : BitVec 6) (d : BitVec 11) : F.Statement (.sts s b d) := by
  intro w h; cases h; simp [BitVec.extractLsb'_or, field_engine, field_engine0]
theorem F.ldg (s b : BitVec 6) (d : BitVec 11) : F.Statement (.ldg s b d) := by
  intro w h; cases h; simp [BitVec.extractLsb'_or, field_engine, field_engine0]
theorem F.stg (s b : BitVec 6) (d : BitVec 11) : F.Statement (.stg s b d) := by
  intro w h; cases h; simp [BitVec.extractLsb'_or, field_engine, field_engine0]
theorem F.br (p : BitVec 7) (s : BitVec 1) (d : BitVec 15) : F.Statement (.br p s d) := by
  intro w h; cases h; simp [BitVec.extractLsb'_or, field_engine, field_engine0]
theorem F.jmp (d : BitVec 23) : F.Statement (.jmp d) := by
  intro w h; cases h; simp [BitVec.extractLsb'_or, field_engine, field_engine0]
theorem F.call (d : BitVec 23) : F.Statement (.call d) := by
  intro w h; cases h; simp [BitVec.extractLsb'_or, field_engine, field_engine0]
theorem F.jr (a : BitVec 6) : F.Statement (.jr a) := by
  intro w h; cases h; simp [BitVec.extractLsb'_or, field_engine, field_engine0]
theorem F.loopT (l : BitVec 2) (c : BitVec 6) (n : BitVec 15) : F.Statement (.loopT l c n) := by
  intro w h; cases h; simp [BitVec.extractLsb'_or, field_engine, field_engine0]
theorem F.loopRp (l : BitVec 2) (q : BitVec 6) (n : BitVec 15) : F.Statement (.loopRp l q n) := by
  intro w h; cases h; simp [BitVec.extractLsb'_or, field_engine, field_engine0]
theorem F.endw : F.Statement (.endw) := by intro w h; cases h; decide
theorem F.vadd (d a b : BitVec 6) (w : BitVec 2) : F.Statement (.vadd d a b w) := by
  intro w h; cases h; simp [BitVec.extractLsb'_or, field_engine, field_engine0]
theorem F.vsub (d a b : BitVec 6) (w : BitVec 2) : F.Statement (.vsub d a b w) := by
  intro w h; cases h; simp [BitVec.extractLsb'_or, field_engine, field_engine0]
theorem F.vmul (d a b : BitVec 6) (w : BitVec 2) : F.Statement (.vmul d a b w) := by
  intro w h; cases h; simp [BitVec.extractLsb'_or, field_engine, field_engine0]
theorem F.vdiv (d a b : BitVec 6) (w : BitVec 2) : F.Statement (.vdiv d a b w) := by
  intro w h; cases h; simp [BitVec.extractLsb'_or, field_engine, field_engine0]
theorem F.vmin (d a b : BitVec 6) (w : BitVec 2) : F.Statement (.vmin d a b w) := by
  intro w h; cases h; simp [BitVec.extractLsb'_or, field_engine, field_engine0]
theorem F.vmax (d a b : BitVec 6) (w : BitVec 2) : F.Statement (.vmax d a b w) := by
  intro w h; cases h; simp [BitVec.extractLsb'_or, field_engine, field_engine0]
theorem F.vand (d a b : BitVec 6) (w : BitVec 2) : F.Statement (.vand d a b w) := by
  intro w h; cases h; simp [BitVec.extractLsb'_or, field_engine, field_engine0]
theorem F.vor (d a b : BitVec 6) (w : BitVec 2) : F.Statement (.vor d a b w) := by
  intro w h; cases h; simp [BitVec.extractLsb'_or, field_engine, field_engine0]
theorem F.vxor (d a b : BitVec 6) (w : BitVec 2) : F.Statement (.vxor d a b w) := by
  intro w h; cases h; simp [BitVec.extractLsb'_or, field_engine, field_engine0]
theorem F.vshl (d a b : BitVec 6) (w : BitVec 2) : F.Statement (.vshl d a b w) := by
  intro w h; cases h; simp [BitVec.extractLsb'_or, field_engine, field_engine0]
theorem F.vshr (d a b : BitVec 6) (w : BitVec 2) : F.Statement (.vshr d a b w) := by
  intro w h; cases h; simp [BitVec.extractLsb'_or, field_engine, field_engine0]
theorem F.vsra (d a b : BitVec 6) (w : BitVec 2) : F.Statement (.vsra d a b w) := by
  intro w h; cases h; simp [BitVec.extractLsb'_or, field_engine, field_engine0]
theorem F.vabs (d a : BitVec 6) : F.Statement (.vabs d a) := by
  intro w h; cases h; simp [BitVec.extractLsb'_or, field_engine, field_engine0]
theorem F.vneg (d a : BitVec 6) : F.Statement (.vneg d a) := by
  intro w h; cases h; simp [BitVec.extractLsb'_or, field_engine, field_engine0]
theorem F.vrcp (d a : BitVec 6) : F.Statement (.vrcp d a) := by
  intro w h; cases h; simp [BitVec.extractLsb'_or, field_engine, field_engine0]
theorem F.vrsqrt (d a : BitVec 6) : F.Statement (.vrsqrt d a) := by
  intro w h; cases h; simp [BitVec.extractLsb'_or, field_engine, field_engine0]
theorem F.vsqrt (d a : BitVec 6) : F.Statement (.vsqrt d a) := by
  intro w h; cases h; simp [BitVec.extractLsb'_or, field_engine, field_engine0]
theorem F.vexp2 (d a : BitVec 6) : F.Statement (.vexp2 d a) := by
  intro w h; cases h; simp [BitVec.extractLsb'_or, field_engine, field_engine0]
theorem F.vlog2 (d a : BitVec 6) : F.Statement (.vlog2 d a) := by
  intro w h; cases h; simp [BitVec.extractLsb'_or, field_engine, field_engine0]
theorem F.vtanh (d a : BitVec 6) : F.Statement (.vtanh d a) := by
  intro w h; cases h; simp [BitVec.extractLsb'_or, field_engine, field_engine0]
theorem F.vsigm (d a : BitVec 6) : F.Statement (.vsigm d a) := by
  intro w h; cases h; simp [BitVec.extractLsb'_or, field_engine, field_engine0]
theorem F.vsilu (d a : BitVec 6) : F.Statement (.vsilu d a) := by
  intro w h; cases h; simp [BitVec.extractLsb'_or, field_engine, field_engine0]
theorem F.vfloor (d a : BitVec 6) : F.Statement (.vfloor d a) := by
  intro w h; cases h; simp [BitVec.extractLsb'_or, field_engine, field_engine0]
theorem F.vrnd (d a : BitVec 6) : F.Statement (.vrnd d a) := by
  intro w h; cases h; simp [BitVec.extractLsb'_or, field_engine, field_engine0]
theorem F.vmov (d a : BitVec 6) : F.Statement (.vmov d a) := by
  intro w h; cases h; simp [BitVec.extractLsb'_or, field_engine, field_engine0]
theorem F.vnot (d a : BitVec 6) : F.Statement (.vnot d a) := by
  intro w h; cases h; simp [BitVec.extractLsb'_or, field_engine, field_engine0]
theorem F.vcmp (d a b : BitVec 6) (c : BitVec 4) : F.Statement (.vcmp d a b c) := by
  intro w h; cases h; simp [BitVec.extractLsb'_or, field_engine, field_engine0]
theorem F.vcvt (d a : BitVec 6) : F.Statement (.vcvt d a) := by
  intro w h; cases h; simp [BitVec.extractLsb'_or, field_engine, field_engine0]
theorem F.vredr (d a : BitVec 6) (f : BitVec 4) : F.Statement (.vredr d a f) := by
  intro w h; cases h; simp [BitVec.extractLsb'_or, field_engine, field_engine0]
theorem F.vredc (d a : BitVec 6) (f : BitVec 4) : F.Statement (.vredc d a f) := by
  intro w h; cases h; simp [BitVec.extractLsb'_or, field_engine, field_engine0]
theorem F.vtrn (d a : BitVec 6) : F.Statement (.vtrn d a) := by
  intro w h; cases h; simp [BitVec.extractLsb'_or, field_engine, field_engine0]
theorem F.vbcr (d a : BitVec 6) : F.Statement (.vbcr d a) := by
  intro w h; cases h; simp [BitVec.extractLsb'_or, field_engine, field_engine0]
theorem F.vbcc (d a : BitVec 6) : F.Statement (.vbcc d a) := by
  intro w h; cases h; simp [BitVec.extractLsb'_or, field_engine, field_engine0]
theorem F.vqnt (d a b : BitVec 6) : F.Statement (.vqnt d a b) := by
  intro w h; cases h; simp [BitVec.extractLsb'_or, field_engine, field_engine0]
theorem F.vdqnt (d a b : BitVec 6) : F.Statement (.vdqnt d a b) := by
  intro w h; cases h; simp [BitVec.extractLsb'_or, field_engine, field_engine0]
theorem F.vvqd (d a b : BitVec 6) : F.Statement (.vvqd d a b) := by
  intro w h; cases h; simp [BitVec.extractLsb'_or, field_engine, field_engine0]
theorem F.vcomp (d a b : BitVec 6) (k : BitVec 4) : F.Statement (.vcomp d a b k) := by
  intro w h; cases h; simp [BitVec.extractLsb'_or, field_engine, field_engine0]
theorem F.vscan (d a : BitVec 6) (k : BitVec 4) : F.Statement (.vscan d a k) := by
  intro w h; cases h; simp [BitVec.extractLsb'_or, field_engine, field_engine0]
theorem F.vrmg (d a s : BitVec 6) : F.Statement (.vrmg d a s) := by
  intro w h; cases h; simp [BitVec.extractLsb'_or, field_engine, field_engine0]
theorem F.vfill (d a : BitVec 6) : F.Statement (.vfill d a) := by
  intro w h; cases h; simp [BitVec.extractLsb'_or, field_engine, field_engine0]
theorem F.vget (t a : BitVec 6) : F.Statement (.vget t a) := by
  intro w h; cases h; simp [BitVec.extractLsb'_or, field_engine, field_engine0]
theorem F.vput (d a b : BitVec 6) : F.Statement (.vput d a b) := by
  intro w h; cases h; simp [BitVec.extractLsb'_or, field_engine, field_engine0]
theorem F.tld (d a : BitVec 6) (i : BitVec 10) : F.Statement (.tld d a i) := by
  intro w h; cases h; simp [BitVec.extractLsb'_or, field_engine, field_engine0]
theorem F.tst (d a : BitVec 6) (i : BitVec 10) : F.Statement (.tst d a i) := by
  intro w h; cases h; simp [BitVec.extractLsb'_or, field_engine, field_engine0]
theorem F.tldX (d a : BitVec 6) (i : BitVec 10) : F.Statement (.tldX d a i) := by
  intro w h; cases h; simp [BitVec.extractLsb'_or, field_engine, field_engine0]
theorem F.tkill (d : BitVec 6) : F.Statement (.tkill d) := by
  intro w h; cases h; simp [BitVec.extractLsb'_or, field_engine, field_engine0]
theorem F.vcbld (s : BitVec 6) : F.Statement (.vcbld s) := by
  intro w h; cases h; simp [BitVec.extractLsb'_or, field_engine, field_engine0]
theorem F.vrowm (t : BitVec 6) : F.Statement (.vrowm t) := by
  intro w h; cases h; simp [BitVec.extractLsb'_or, field_engine, field_engine0]
theorem F.vfma (d a b c : BitVec 6) : F.Statement (.vfma d a b c) := by
  intro w h; cases h; simp [BitVec.extractLsb'_or, field_engine, field_engine0]
theorem F.vfms (d a b c : BitVec 6) : F.Statement (.vfms d a b c) := by
  intro w h; cases h; simp [BitVec.extractLsb'_or, field_engine, field_engine0]
theorem F.vsel (d a b c : BitVec 6) : F.Statement (.vsel d a b c) := by
  intro w h; cases h; simp [BitVec.extractLsb'_or, field_engine, field_engine0]
theorem F.vclamp (d a b c : BitVec 6) : F.Statement (.vclamp d a b c) := by
  intro w h; cases h; simp [BitVec.extractLsb'_or, field_engine, field_engine0]
theorem F.mma (c : BitVec 2) (a b x : BitVec 6) (f : BitVec 3) : F.Statement (.mma c a b x f) := by
  intro w h; cases h; simp [BitVec.extractLsb'_or, field_engine, field_engine0]
theorem F.mmaSp (c : BitVec 2) (a b x : BitVec 6) (f : BitVec 3) : F.Statement (.mmaSp c a b x f) := by
  intro w h; cases h; simp [BitVec.extractLsb'_or, field_engine, field_engine0]
theorem F.mmaG (c : BitVec 2) (a b x : BitVec 6) (f : BitVec 3) : F.Statement (.mmaG c a b x f) := by
  intro w h; cases h; simp [BitVec.extractLsb'_or, field_engine, field_engine0]
theorem F.mrd (c : BitVec 2) (d : BitVec 6) (k : BitVec 8) (t : BitVec 1) : F.Statement (.mrd c d k t) := by
  intro w h; cases h; simp [BitVec.extractLsb'_or, field_engine, field_engine0]
theorem F.mwr (c : BitVec 2) (s : BitVec 6) (k : BitVec 8) (t : BitVec 1) : F.Statement (.mwr c s k t) := by
  intro w h; cases h; simp [BitVec.extractLsb'_or, field_engine, field_engine0]
theorem F.mclr (c : BitVec 2) : F.Statement (.mclr c) := by
  intro w h; cases h; simp [BitVec.extractLsb'_or, field_engine, field_engine0]
theorem F.mscl (a b : BitVec 6) : F.Statement (.mscl a b) := by
  intro w h; cases h; simp [BitVec.extractLsb'_or, field_engine, field_engine0]
theorem F.msclOff : F.Statement (.msclOff) := by intro w h; cases h; decide
theorem F.xget (d : BitVec 4) (a b : BitVec 6) (m : BitVec 4) (s : BitVec 1) : F.Statement (.xget d a b m s) := by
  intro w h; cases h; simp [BitVec.extractLsb'_or, field_engine, field_engine0]
theorem F.xput (d : BitVec 4) (a b : BitVec 6) (m : BitVec 4) (s : BitVec 1) : F.Statement (.xput d a b m s) := by
  intro w h; cases h; simp [BitVec.extractLsb'_or, field_engine, field_engine0]
theorem F.xsend (d : BitVec 4) (a b : BitVec 6) (m : BitVec 4) (s : BitVec 1) : F.Statement (.xsend d a b m s) := by
  intro w h; cases h; simp [BitVec.extractLsb'_or, field_engine, field_engine0]
theorem F.xgat (d : BitVec 4) (a b : BitVec 6) (m : BitVec 4) (s : BitVec 1) : F.Statement (.xgat d a b m s) := by
  intro w h; cases h; simp [BitVec.extractLsb'_or, field_engine, field_engine0]
theorem F.xsca (d : BitVec 4) (a b : BitVec 6) (m : BitVec 4) (o : BitVec 2) (s : BitVec 1) : F.Statement (.xsca d a b m o s) := by
  intro w h; cases h; simp [BitVec.extractLsb'_or, field_engine, field_engine0]
theorem F.xacc (d : BitVec 4) (a b : BitVec 6) (m : BitVec 4) (o : BitVec 2) (s : BitVec 1) : F.Statement (.xacc d a b m o s) := by
  intro w h; cases h; simp [BitVec.extractLsb'_or, field_engine, field_engine0]
theorem F.xat (o : BitVec 4) (a b c : BitVec 6) (z : BitVec 2) : F.Statement (.xat o a b c z) := by
  intro w h; cases h; simp [BitVec.extractLsb'_or, field_engine, field_engine0]
theorem F.xdesc (s : BitVec 4) (a : BitVec 6) : F.Statement (.xdesc s a) := by
  intro w h; cases h; simp [BitVec.extractLsb'_or, field_engine, field_engine0]
theorem F.xmap (s : BitVec 4) (a : BitVec 6) : F.Statement (.xmap s a) := by
  intro w h; cases h; simp [BitVec.extractLsb'_or, field_engine, field_engine0]
theorem F.xswap (s : BitVec 4) (a : BitVec 6) : F.Statement (.xswap s a) := by
  intro w h; cases h; simp [BitVec.extractLsb'_or, field_engine, field_engine0]
theorem F.xunmap (s : BitVec 4) : F.Statement (.xunmap s) := by
  intro w h; cases h; simp [BitVec.extractLsb'_or, field_engine, field_engine0]
theorem F.xmw (s : BitVec 4) (a : BitVec 6) : F.Statement (.xmw s a) := by
  intro w h; cases h; simp [BitVec.extractLsb'_or, field_engine, field_engine0]
theorem F.xrpl (d : BitVec 4) (a b : BitVec 6) : F.Statement (.xrpl d a b) := by
  intro w h; cases h; simp [BitVec.extractLsb'_or, field_engine, field_engine0]
theorem F.xrpf (d : BitVec 4) (a b : BitVec 6) : F.Statement (.xrpf d a b) := by
  intro w h; cases h; simp [BitVec.extractLsb'_or, field_engine, field_engine0]
theorem F.xred (d : BitVec 4) (ab : BitVec 6 × BitVec 6) : F.Statement (.xred d ab) := by
  intro w h; cases h; simp [BitVec.extractLsb'_or, field_engine, field_engine0]
theorem F.xgmap (a : BitVec 6) : F.Statement (.xgmap a) := by
  intro w h; cases h; simp [BitVec.extractLsb'_or, field_engine, field_engine0]
theorem F.xgunmap (a : BitVec 6) : F.Statement (.xgunmap a) := by
  intro w h; cases h; simp [BitVec.extractLsb'_or, field_engine, field_engine0]
theorem F.hnew (d : BitVec 5) : F.Statement (.hnew d) := by
  intro w h; cases h; simp [BitVec.extractLsb'_or, field_engine, field_engine0]
theorem F.hfork (d a : BitVec 5) : F.Statement (.hfork d a) := by
  intro w h; cases h; simp [BitVec.extractLsb'_or, field_engine, field_engine0]
theorem F.hjoin (d a b : BitVec 5) (s : BitVec 3) : F.Statement (.hjoin d a b s) := by
  intro w h; cases h; simp [BitVec.extractLsb'_or, field_engine, field_engine0]
theorem F.hdrain (a : BitVec 5) (s : BitVec 3) : F.Statement (.hdrain a s) := by
  intro w h; cases h; simp [BitVec.extractLsb'_or, field_engine, field_engine0]
theorem F.hpass (a : BitVec 5) (p : BitVec 6) : F.Statement (.hpass a p) := by
  intro w h; cases h; simp [BitVec.extractLsb'_or, field_engine, field_engine0]
theorem F.hrecv (d : BitVec 5) (p : BitVec 6) : F.Statement (.hrecv d p) := by
  intro w h; cases h; simp [BitVec.extractLsb'_or, field_engine, field_engine0]
theorem F.hfree (a : BitVec 5) : F.Statement (.hfree a) := by
  intro w h; cases h; simp [BitVec.extractLsb'_or, field_engine, field_engine0]
theorem F.ringInit (g : BitVec 4) (a : BitVec 6) : F.Statement (.ringInit g a) := by
  intro w h; cases h; simp [BitVec.extractLsb'_or, field_engine, field_engine0]
theorem F.ringWfree (g : BitVec 4) : F.Statement (.ringWfree g) := by
  intro w h; cases h; simp [BitVec.extractLsb'_or, field_engine, field_engine0]
theorem F.ringPub (g : BitVec 4) : F.Statement (.ringPub g) := by
  intro w h; cases h; simp [BitVec.extractLsb'_or, field_engine, field_engine0]
theorem F.ringWfill (g : BitVec 4) : F.Statement (.ringWfill g) := by
  intro w h; cases h; simp [BitVec.extractLsb'_or, field_engine, field_engine0]
theorem F.ringRel (g : BitVec 4) : F.Statement (.ringRel g) := by
  intro w h; cases h; simp [BitVec.extractLsb'_or, field_engine, field_engine0]
theorem F.ringStat (g : BitVec 4) : F.Statement (.ringStat g) := by
  intro w h; cases h; simp [BitVec.extractLsb'_or, field_engine, field_engine0]
theorem F.barArr (t : BitVec 3) : F.Statement (.barArr t) := by
  intro w h; cases h; simp [BitVec.extractLsb'_or, field_engine, field_engine0]
theorem F.barWait (t : BitVec 3) : F.Statement (.barWait t) := by
  intro w h; cases h; simp [BitVec.extractLsb'_or, field_engine, field_engine0]
theorem F.flagAdd (a b : BitVec 6) : F.Statement (.flagAdd a b) := by
  intro w h; cases h; simp [BitVec.extractLsb'_or, field_engine, field_engine0]
theorem F.flagSet (a b c : BitVec 6) : F.Statement (.flagSet a b c) := by
  intro w h; cases h; simp [BitVec.extractLsb'_or, field_engine, field_engine0]
theorem F.flagWait (a b : BitVec 6) : F.Statement (.flagWait a b) := by
  intro w h; cases h; simp [BitVec.extractLsb'_or, field_engine, field_engine0]
theorem F.ktopc (d a b k : BitVec 6) : F.Statement (.ktopc d a b k) := by
  intro w h; cases h; simp [BitVec.extractLsb'_or, field_engine, field_engine0]
theorem F.ktopr (d a b k : BitVec 6) : F.Statement (.ktopr d a b k) := by
  intro w h; cases h; simp [BitVec.extractLsb'_or, field_engine, field_engine0]
theorem F.kmerge (d a b n : BitVec 6) : F.Statement (.kmerge d a b n) := by
  intro w h; cases h; simp [BitVec.extractLsb'_or, field_engine, field_engine0]
theorem F.ksort (d a b : BitVec 6) : F.Statement (.ksort d a b) := by
  intro w h; cases h; simp [BitVec.extractLsb'_or, field_engine, field_engine0]
theorem F.khist (d a n : BitVec 6) : F.Statement (.khist d a n) := by
  intro w h; cases h; simp [BitVec.extractLsb'_or, field_engine, field_engine0]
theorem F.kmark (d a n : BitVec 6) : F.Statement (.kmark d a n) := by
  intro w h; cases h; simp [BitVec.extractLsb'_or, field_engine, field_engine0]
theorem F.trap (i : BitVec 17) : F.Statement (.trap i) := by
  intro w h; cases h; simp [BitVec.extractLsb'_or, field_engine, field_engine0]
theorem F.ebrk (i : BitVec 17) : F.Statement (.ebrk i) := by
  intro w h; cases h; simp [BitVec.extractLsb'_or, field_engine, field_engine0]
theorem F.klaunch (a : BitVec 6) (q : BitVec 4) : F.Statement (.klaunch a q) := by
  intro w h; cases h; simp [BitVec.extractLsb'_or, field_engine, field_engine0]
theorem F.eret : F.Statement (.eret) := by intro w h; cases h; decide
theorem F.tinv (a : BitVec 6) : F.Statement (.tinv a) := by
  intro w h; cases h; simp [BitVec.extractLsb'_or, field_engine, field_engine0]
theorem F.ctxsave (a : BitVec 6) : F.Statement (.ctxsave a) := by
  intro w h; cases h; simp [BitVec.extractLsb'_or, field_engine, field_engine0]
theorem F.ctxload (a : BitVec 6) : F.Statement (.ctxload a) := by
  intro w h; cases h; simp [BitVec.extractLsb'_or, field_engine, field_engine0]
theorem F.spflush : F.Statement (.spflush) := by intro w h; cases h; decide
theorem F.sacinv : F.Statement (.sacinv) := by intro w h; cases h; decide
theorem F.cntsnap (a : BitVec 6) : F.Statement (.cntsnap a) := by
  intro w h; cases h; simp [BitVec.extractLsb'_or, field_engine, field_engine0]
theorem F.wfi : F.Statement (.wfi) := by intro w h; cases h; decide
theorem F.barcfg (a : BitVec 6) (t : BitVec 3) : F.Statement (.barcfg a t) := by
  intro w h; cases h; simp [BitVec.extractLsb'_or, field_engine, field_engine0]
theorem F.wordStart (core : Nat) (eng : Engine) : F.Statement (.wordStart core eng) := by intro w h; cases h
theorem F.tokenSignal (core : Nat) (eng : Engine) : F.Statement (.tokenSignal core eng) := by intro w h; cases h
theorem F.spanEndComplete (core : Nat) : F.Statement (.spanEndComplete core) := by intro w h; cases h
theorem F.beatArrival (pkt : Nat) : F.Statement (.beatArrival pkt) := by intro w h; cases h
theorem F.blockComplete (core blk : Nat) : F.Statement (.blockComplete core blk) := by intro w h; cases h
theorem F.ackReceive (pkt : Nat) : F.Statement (.ackReceive pkt) := by intro w h; cases h
theorem F.hdrainComplete (core : Nat) : F.Statement (.hdrainComplete core) := by intro w h; cases h
theorem F.packetEviction (arriving victim : Nat) : F.Statement (.packetEviction arriving victim) := by intro w h; cases h
theorem F.packetResend (pkt : Nat) : F.Statement (.packetResend pkt) := by intro w h; cases h
theorem F.ackTimeoutResend (pkt : Nat) : F.Statement (.ackTimeoutResend pkt) := by intro w h; cases h
theorem F.rateLimitRelease (pkt : Nat) : F.Statement (.rateLimitRelease pkt) := by intro w h; cases h
theorem F.sliceBlockRequest (pkt : Nat) : F.Statement (.sliceBlockRequest pkt) := by intro w h; cases h
theorem F.slicePutBeat (pkt : Nat) : F.Statement (.slicePutBeat pkt) := by intro w h; cases h
theorem F.sliceAccumulate (pkt : Nat) : F.Statement (.sliceAccumulate pkt) := by intro w h; cases h
theorem F.sliceAtomic (pkt : Nat) : F.Statement (.sliceAtomic pkt) := by intro w h; cases h
theorem F.xatReply (pkt : Nat) : F.Statement (.xatReply pkt) := by intro w h; cases h
theorem F.sliceScalarAccess (pkt : Nat) : F.Statement (.sliceScalarAccess pkt) := by intro w h; cases h
theorem F.ldgReply (pkt : Nat) : F.Statement (.ldgReply pkt) := by intro w h; cases h
theorem F.mapCacheFill (core tenant tag : Nat) : F.Statement (.mapCacheFill core tenant tag) := by intro w h; cases h
theorem F.flagAddApply (pkt : Nat) : F.Statement (.flagAddApply pkt) := by intro w h; cases h
theorem F.flagSetApply (pkt : Nat) : F.Statement (.flagSetApply pkt) := by intro w h; cases h
theorem F.flagWaitRetest (core : Nat) : F.Statement (.flagWaitRetest core) := by intro w h; cases h
theorem F.barrierPhaseComplete (tenant tag : Nat) : F.Statement (.barrierPhaseComplete tenant tag) := by intro w h; cases h
theorem F.channelElementArrive (pkt : Nat) : F.Statement (.channelElementArrive pkt) := by intro w h; cases h
theorem F.channelCreditReturn (pkt : Nat) : F.Statement (.channelCreditReturn pkt) := by intro w h; cases h
theorem F.channelPopTimeout (core : Nat) : F.Statement (.channelPopTimeout core) := by intro w h; cases h
theorem F.mailboxTicketArrive (pkt : Nat) : F.Statement (.mailboxTicketArrive pkt) := by intro w h; cases h
theorem F.ticketConfirm (pkt : Nat) : F.Statement (.ticketConfirm pkt) := by intro w h; cases h
theorem F.reductionContribution (pkt : Nat) : F.Statement (.reductionContribution pkt) := by intro w h; cases h
theorem F.reductionTimeout (group : Nat) : F.Statement (.reductionTimeout group) := by intro w h; cases h
theorem F.reductionStatusDeliver (pkt : Nat) : F.Statement (.reductionStatusDeliver pkt) := by intro w h; cases h
theorem F.sacCheck (pkt : Nat) : F.Statement (.sacCheck pkt) := by intro w h; cases h
theorem F.sacFill (pkt : Nat) : F.Statement (.sacFill pkt) := by intro w h; cases h
theorem F.sacVerdictDeliver (pkt : Nat) : F.Statement (.sacVerdictDeliver pkt) := by intro w h; cases h
theorem F.launchHeadCheck (tenant queue : Nat) : F.Statement (.launchHeadCheck tenant queue) := by intro w h; cases h
theorem F.spanHandoff (core : Nat) : F.Statement (.spanHandoff core) := by intro w h; cases h
theorem F.launchComplete (tenant lid : Nat) : F.Statement (.launchComplete tenant lid) := by intro w h; cases h
theorem F.controllerPeriod : F.Statement (.controllerPeriod) := by intro w h; cases h
theorem F.immediateSave (core : Nat) : F.Statement (.immediateSave core) := by intro w h; cases h
theorem F.spanResume (core : Nat) : F.Statement (.spanResume core) := by intro w h; cases h
theorem F.unitFirstTouch (core unit : Nat) : F.Statement (.unitFirstTouch core unit) := by intro w h; cases h
theorem F.trapEntry (core : Nat) : F.Statement (.trapEntry core) := by intro w h; cases h
theorem F.vfReset (tenant : Nat) : F.Statement (.vfReset tenant) := by intro w h; cases h
theorem F.qbellWrite (tenant queue : Nat) (v : BitVec 64) : F.Statement (.qbellWrite tenant queue v) := by intro w h; cases h
theorem F.qstatClear (tenant : Nat) (v : BitVec 64) : F.Statement (.qstatClear tenant v) := by intro w h; cases h
theorem F.cqidxHeadWrite (tenant queue : Nat) (v : BitVec 64) : F.Statement (.cqidxHeadWrite tenant queue v) := by intro w h; cases h
theorem F.oboxRead (tenant : Nat) : F.Statement (.oboxRead tenant) := by intro w h; cases h
theorem F.iboxWrite (tenant core : Nat) (v : BitVec 64) : F.Statement (.iboxWrite tenant core v) := by intro w h; cases h
theorem F.iboxovfClear (tenant idx : Nat) (v : BitVec 64) : F.Statement (.iboxovfClear tenant idx v) := by intro w h; cases h
theorem F.mcgrpWrite (tenant group idx : Nat) (v : BitVec 64) : F.Statement (.mcgrpWrite tenant group idx v) := by intro w h; cases h
theorem F.rgselWrite (tenant : Nat) (v : BitVec 64) : F.Statement (.rgselWrite tenant v) := by intro w h; cases h
theorem F.rgcommitWrite (tenant : Nat) (v : BitVec 64) : F.Statement (.rgcommitWrite tenant v) := by intro w h; cases h
theorem F.spdataStore (tenant : Nat) (v : BitVec 64) : F.Statement (.spdataStore tenant v) := by intro w h; cases h
theorem F.vfEnable (tenant : Nat) : F.Statement (.vfEnable tenant) := by intro w h; cases h
theorem F.rateLimitConfig (tenant die : Nat) (v : BitVec 64) : F.Statement (.rateLimitConfig tenant die v) := by intro w h; cases h
theorem F.sacQuotaWrite (tenant : Nat) (v : BitVec 64) : F.Statement (.sacQuotaWrite tenant v) := by intro w h; cases h
theorem F.registerWrite (w : RegWrite) : F.Statement (.registerWrite w) := by intro w h; cases h
theorem F.msixUnmask (tenant vec : Nat) : F.Statement (.msixUnmask tenant vec) := by intro w h; cases h
theorem F.hostMemRead (pa len : Nat) : F.Statement (.hostMemRead pa len) := by intro w h; cases h
theorem F.hostMemWrite (pa : Nat) (bytes : List (BitVec 8)) : F.Statement (.hostMemWrite pa bytes) := by intro w h; cases h
theorem F.falardFlitReplay (port : Nat) : F.Statement (.falardFlitReplay port) := by intro w h; cases h
theorem F.falardRetrain (port : Nat) : F.Statement (.falardRetrain port) := by intro w h; cases h
theorem F.falardPortFail (port : Nat) : F.Statement (.falardPortFail port) := by intro w h; cases h
theorem F.deviceReset : F.Statement (.deviceReset) := by intro w h; cases h
theorem F.firmwareLoadDone (ok : Bool) : F.Statement (.firmwareLoadDone ok) := by intro w h; cases h
theorem F.hbmTrainingDone (ok : Bool) : F.Statement (.hbmTrainingDone ok) := by intro w h; cases h
theorem F.falardTrainingDone (up : BitVec 16) : F.Statement (.falardTrainingDone up) := by intro w h; cases h
theorem F.powerLimitStep (watts : Nat) : F.Statement (.powerLimitStep watts) := by intro w h; cases h
theorem F.thermalThrottle (die temp : Nat) : F.Statement (.thermalThrottle die temp) := by intro w h; cases h
theorem F.thermalShutdown (temp flow : Nat) : F.Statement (.thermalShutdown temp flow) := by intro w h; cases h
theorem F.counterFlush : F.Statement (.counterFlush) := by intro w h; cases h
theorem F.lifetimeLogUpdate (temps : List Nat) (watts : Nat) : F.Statement (.lifetimeLogUpdate temps watts) := by intro w h; cases h
theorem F.orderlyPowerOff : F.Statement (.orderlyPowerOff) := by intro w h; cases h
theorem F.abruptPowerLoss : F.Statement (.abruptPowerLoss) := by intro w h; cases h
theorem F.unitSpillComplete (core unit : Nat) : F.Statement (.unitSpillComplete core unit) := by intro w h; cases h
theorem F.globalMapInstallArrive (pkt : Nat) : F.Statement (.globalMapInstallArrive pkt) := by intro w h; cases h
theorem F.sacInvalidationArrive (pkt : Nat) : F.Statement (.sacInvalidationArrive pkt) := by intro w h; cases h
theorem F.cntsnapRequestArrive (pkt : Nat) : F.Statement (.cntsnapRequestArrive pkt) := by intro w h; cases h
theorem F.hostRecallResponse (line : Nat) : F.Statement (.hostRecallResponse line) := by intro w h; cases h
theorem F.falardRetrainDone (port : Nat) (ok : Bool) : F.Statement (.falardRetrainDone port ok) := by intro w h; cases h
theorem F.supplyDroop (die millivolts : Nat) : F.Statement (.supplyDroop die millivolts) := by intro w h; cases h

end Sys2Proof.Laws
end

