-- ==== Sys2Proof/Laws/Scalar.lean ====
section
/-! SUPPORT. What a scalar word with a result leaves (R41, R86, R91, R93), stated once for every word of that shape. -/

namespace Sys2Proof.Machine

/-- Counting flushes and changing the context commute where the change leaves the sticky bits apart. -/
theorem noteFlush_modCtx (s : State) (c n : Nat) (f : Ctx → Ctx) (hf : ∀ x, f (x.stick stFTZHIT) = (f x).stick stFTZHIT) :
    (noteFlush s c n).modCtx c f = noteFlush (s.modCtx c f) c n := by
  unfold noteFlush
  split
  · rfl
  · rename_i hn
    cases hx : s.ctx c with
    | none =>
      have e1 : s.modCtx c f = s := by simp [State.modCtx, hx]
      have e2 : (s.count c evFTZ n).ctx c = none := by
        rw [State.count, if_neg hn, State.ctx_modCore_self]; exact hx
      have e3 : (s.count c evFTZ n).modCtx c (fun x => x.stick stFTZHIT) = s.count c evFTZ n := by simp [State.modCtx, e2]
      rw [e1, e3]; simp [State.modCtx, e2]
    | some x =>
      have e2 : (s.count c evFTZ n).ctx c = some x := by
        rw [State.count, if_neg hn, State.ctx_modCore_self]; exact hx
      rw [State.modCtx_of _ e2, State.modCtx_setCtx, State.modCtx_of _ hx, hf]
      simp only [State.count, if_neg hn]
      have e3 : (((s.setCtx c (f x)).modCore c (fun q => q.count evFTZ n)).ctx c) = some (f x) := by
        rw [State.ctx_modCore_self]; simp [Core.count]
      rw [State.modCtx_of _ e3]
      simp [State.modCore, State.setCtx, Core.count]

theorem fillRq_head (l : List (Nat × Option Dword)) (k : Nat) (v : Dword) : fillRq ((k, none) :: l) k v = (k, some v) :: l := by
  simp [fillRq]

/-- A captured word that only takes a result-queue place and, where its destination is q6, an element. -/
theorem Ctx.enrol_result (x : Ctx) {sp : CapSpec} (k d : Nat) (w : QWord) (hm : sp.mem = false) (hd : sp.dst = some d)
    (hq : sp.q6 = 0) :
    x.enrol sp k w = (((x.reserve (if d = 54 then 1 else 0)).1).pushRq w.seq,
      { w with q6 := (x.reserve (if d = 54 then 1 else 0)).2 }) := by
  have : q6Need sp = if d = 54 then 1 else 0 := by simp [q6Need, hq, hd]
  simp [Ctx.enrol, hm, hd, this]

theorem Ctx.wrote_tenant (x : Ctx) (w : QWord) (d : Nat) (v : Dword) : (x.wrote w d v).tenant = x.tenant := by
  unfold Ctx.wrote
  simp only
  split
  · rfl
  · split
    · split <;> rfl
    · rfl

/-- The result of a scalar word goes where its destination says. -/
theorem writeDst_eq {s : State} {c : Nat} {y : Ctx} {w : QWord} {d : Nat} (v : Dword) (hy : s.ctx c = some y)
    (hwd : w.dst = some d) (hch : ¬ (48 ≤ d ∧ d ≤ 53)) :
    writeDst s c w v = (s.modCtx c (fun x => x.wrote w d v)).outbox d y.tenant v := by
  have hc : (decide (48 ≤ d) && decide (d ≤ 53)) = false := by
    rw [← Bool.decide_and, decide_eq_false_iff_not]; exact hch
  unfold writeDst
  simp only [hwd]
  rw [State.modCtx_of _ hy]
  simp only [State.ctx_setCtx_self, hc, Bool.false_eq_true, if_false, Ctx.wrote_tenant]
  rfl

/-- A captured scalar word's context once it holds its result. -/
theorem admitted_result {s : State} {x y : Ctx} {sp : CapSpec} {pops : List Nat} {w : QWord} {d : Nat} (v : Dword)
    (hy : (s.popped x pops).ctx s.cur = some y) (hp : PopLeft x y) (hm : sp.mem = false) (hd : sp.dst = some d)
    (hq : sp.q6 = 0) (he : sp.eng = .s) (hws : w.seq = x.nextSeq) :
    (s.admitted x sp w pops).modCtx s.cur (fun z => z.wrote (x.enrol sp (s.tenant x.tenant).scap w).2 d v) =
      (s.popped x pops).modCtx s.cur (fun y => (y.result d v).past (takesSr sp w)) := by
  have hns : y.nextSeq = x.nextSeq := by obtain ⟨q, ch, rfl⟩ := hp; rfl
  rw [State.admitted, State.modCtx_of _ hy, State.modCtx_of _ hy, ← Ctx.enrol_word hp,
    Ctx.enrol_result y (s.tenant x.tenant).scap d w hm hd hq, State.modCtx_setCtx, he, Ctx.sawM_of_ne _ (by decide)]
  congr 1
  unfold Ctx.wrote
  by_cases h54 : d = 54
  · subst h54
    simp only [if_true, Ctx.reserve, show ¬ (54 < 32) by decide, if_false]
    simp only [Ctx.past, Ctx.pastAt, Ctx.goTo, Ctx.pushRq, hws, ← hns, fillRq_head, Ctx.result, Ctx.produce, Ctx.reserve, if_true,
      show ¬ (54 < 32) by decide, if_false]
  · simp only [if_neg h54, Ctx.reserve]
    by_cases h32 : d < 32
    · simp only [if_pos h32]
      simp only [Ctx.past, Ctx.pastAt, Ctx.goTo, Ctx.pushRq, hws, ← hns, fillRq_head, Ctx.result, if_neg h54, if_pos h32, Ctx.writeReg, Ctx.setReg]
    · simp only [if_neg h32]
      simp only [Ctx.past, Ctx.pastAt, Ctx.goTo, Ctx.pushRq, hws, ← hns, fillRq_head, Ctx.result, if_neg h54, if_neg h32]

theorem noteFlush_ctx {s : State} {c : Nat} {y : Ctx} (n : Nat) (hy : s.ctx c = some y) :
    (noteFlush s c n).ctx c = some (if n = 0 then y else y.stick stFTZHIT) := by
  unfold noteFlush
  split
  · exact hy
  · rename_i hn
    have e : (s.count c evFTZ n).ctx c = some y := by rw [State.count, if_neg hn, State.ctx_modCore_self]; exact hy
    rw [State.modCtx_of _ e]; simp

theorem noteFlush_tenant (s : State) (c n t : Nat) : (noteFlush s c n).tenant t = s.tenant t := by
  unfold noteFlush
  split
  · rfl
  · rename_i hn; simp [State.tenant, State.count, hn]

theorem popPorts_tenants (c : Nat) (ks : List Nat) : ∀ (s : State), (popPorts s c ks).tenants = s.tenants := by
  induction ks with
  | nil => intro s; rfl
  | cons k ks ih =>
    intro s
    simp only [popPorts]
    split
    · rw [ih]; simp
    · split
      · split
        · rw [ih]; simp
        · rw [ih]
      · rw [ih]
        generalize ht : s.modCtx c _ = t
        have h1 : t.tenants = s.tenants := by rw [← ht]; simp
        rw [← h1]
        split
        · simp [State.send]
        · rfl

theorem popped_tenant (s : State) (x : Ctx) (pops : List Nat) (t : Nat) : (s.popped x pops).tenant t = s.tenant t := by
  have h : (endStall s s.cur x).tenants = s.tenants := by
    have h : ∀ k n, (s.count s.cur k n).tenants = s.tenants := by intro k n; unfold State.count; split <;> simp
    unfold endStall; split <;> simp [h]
  simp [State.tenant, State.popped, popPorts_tenants, h]

/-- A scalar word of an idle strand leaves its result. -/
theorem issue_result {i : Instr} {sp : CapSpec} {chk : State → Nat → Ctx → QWord → Chk} {n : QWord → Nat} {f : QWord → Dword}
    {s : State} {x : Ctx} {vals : List Dword} {pops : List Nat} {w : QWord} {d : Nat} (h : Idle s x)
    (hm : sp.mem = false) (hjump : sp.jump = false) (hpr : sp.priv = false) (hd : sp.dst = some d) (hq : sp.q6 = 0)
    (hdest : destTrap x d = false) (hch : ¬ (48 ≤ d ∧ d ≤ 53))
    (hread : readAll s s.cur x sp.srcs [] [] = .ok vals pops)
    (hchk : chk s s.cur x (mkWord x i sp vals) = .ok w)
    (hw : ∃ (a b : Dword), w = { mkWord x i sp vals with cap := a, imm := b })
    (hroom : d = 54 → (x.q6.length - pops.count 54) + 1 ≤ Config.q6Depth)
    (hout : d = 55 → (s.tenant x.tenant).obox.length < 256)
    (heng : sp.eng = .s) (hplace : ∀ (t : State) (c k : Nat) (l : List Nat), t.placed c k { w with q6 := l } = { w with q6 := l })
    (hf : ∀ l, f { w with q6 := l } = f w) (hn : ∀ l, n { w with q6 := l } = n w) :
    issue i sp chk noAct (fun s c w => finishFlushed s c w (n w) (f w)) s =
      .next ((noteFlush ((s.popped x pops).modCtx s.cur (fun y => (y.result d (f w)).past (takesSr sp w))) s.cur (n w)).outbox d
        x.tenant (f w)) := by
  obtain ⟨a, b, hu⟩ := hw
  have hp : sp.pushed = some d := by simp [CapSpec.pushed, hd]
  obtain ⟨y, hy, hpl⟩ := popPorts_ctx s.cur pops (endStall s s.cur x) x (by rw [endStall_ctx]; exact h.resident)
  have hy2 : (s.popped x pops).ctx s.cur = some y := hy
  have hws : w.seq = x.nextSeq := by rw [hu]; rfl
  have hwd : w.dst = some d := by rw [hu]; exact hd
  have hwu : w.units = [] := by rw [hu]; rfl
  have hv : ∃ l, (x.enrol sp (s.tenant x.tenant).scap w).2 = { w with q6 := l } := by
    rw [Ctx.enrol_result x (s.tenant x.tenant).scap d w hm hd hq]; exact ⟨_, rfl⟩
  obtain ⟨l, hv⟩ := hv
  have hsq : (x.enrol sp (s.tenant x.tenant).scap w).2.seqr = none := by rw [hv]; show w.seqr = none; rw [hu]; rfl
  obtain ⟨s0, hi⟩ := issue_runs (run := fun s c w => finishFlushed s c w (n w) (f w)) h (by simp [hpr]) hjump
    (by intro e he; rw [hp] at he; cases he; exact ⟨hdest, hch⟩) hread (by simp [hm]) hchk
    (by
      have := h.elems
      simp only [q6Need, hq, hd, Nat.zero_add]
      split
      · rename_i he; cases he; exact hroom rfl
      · omega)
    (by rw [hu]; exact ⟨rfl, rfl⟩) (.inl hsq)
    (by intro t; rw [hv]; exact hplace _ _ _ _)
    (by
      intro t z _ _ _ _
      have : (x.enrol sp (s.tenant x.tenant).scap w).2.gate = .none := by rw [hv]; show w.gate = .none; rw [hu]; rfl
      exact State.gateOk_none this)
  have hadm := admitted_result (f w) hy2 hpl hm hd hq heng hws
  obtain ⟨z, hz⟩ : ∃ z, (s.admitted x sp w pops).ctx s.cur = some z := by
    rw [State.admitted, State.modCtx_of _ hy2]; exact ⟨_, State.ctx_setCtx_self _ _ _⟩
  have hzt : z.tenant = x.tenant := by
    rw [State.admitted, State.modCtx_of _ hy2, State.ctx_setCtx_self, Option.some.injEq] at hz
    rw [← hz]
    obtain ⟨_, _, _, _, e⟩ := Ctx.enrol_eq y sp (s.tenant x.tenant).scap w
    rw [e]
    obtain ⟨q, ch, rfl⟩ := hpl
    rfl
  have hten : (s.admitted x sp w pops).tenant x.tenant = s.tenant x.tenant := by
    have : (s.admitted x sp w pops).tenant x.tenant = (s.popped x pops).tenant x.tenant := by simp [State.tenant, State.admitted]
    rw [this, popped_tenant]
  rw [hi, hwu, hv]
  rw [hv] at hadm
  simp only [touchUnits, hf, hn]
  unfold finishFlushed
  rw [hz]
  generalize hz2 : (if n w = 0 then z else z.stick stFTZHIT) = z2
  have hz2t : z2.tenant = x.tenant := by
    rw [← hz2]; split
    · exact hzt
    · exact hzt
  have hroomy : (decide (({ w with q6 := l } : QWord).dst = some 55) && !oboxRoom (s.admitted x sp w pops) z) = false := by
    rw [show ({ w with q6 := l } : QWord).dst = some d from hwd]
    by_cases h55 : d = 55
    · have := hout h55
      simp [oboxRoom, hzt, hten, this]
    · simp [h55]
  simp only [hroomy, Bool.false_eq_true, if_false]
  have hz3 : (noteFlush (s.admitted x sp w pops) s.cur (n w)).ctx s.cur = some z2 := by rw [noteFlush_ctx _ hz, hz2]
  rw [writeDst_eq (w := { w with q6 := l }) (d := d) (f w) hz3 hwd hch, hz2t]
  have hcm : ∀ y : Ctx, (y.stick stFTZHIT).wrote { w with q6 := l } d (f w) = (y.wrote { w with q6 := l } d (f w)).stick stFTZHIT := by
    intro y
    unfold Ctx.wrote
    simp only
    split
    · rfl
    · split
      · split <;> rfl
      · rfl
  rw [noteFlush_modCtx _ _ _ _ hcm, hadm]
  have hsig : ({ w with q6 := l } : QWord).pfx.signal = 0 := by
    show w.pfx.signal = 0; rw [hu]; exact h.signal
  have hsq2 : ({ w with q6 := l } : QWord).seqr = none := by
    show w.seqr = none; rw [hu]; rfl
  rw [afterRun_done hsig hsq2]

/-- A word without a microword takes a stochastic number by its effective mode alone (R66). -/
theorem takesSr_plain {sp : CapSpec} {w : QWord} (hs : sp.sys = false) (hm : w.mw = 0) : takesSr sp w = decide (w.rnd = 4) := by
  have : mwSr 0#64 = false := by decide
  simp [takesSr, hs, hm, this]

/-- A destination that may be written is none that traps (R41). -/
theorem destTrap_ok {s : State} {x : Ctx} {pops : List Nat} {d : Nat} (h : DestOk s x pops d) : destTrap x d = false := by
  have hp := h.plain
  unfold destTrap
  rw [Bool.or_eq_false_iff]
  constructor
  · by_cases h1 : 48 ≤ d ∧ d ≤ 54
    · have : d = 54 := by omega
      simp [(h.q6 this).1]
    · by_cases a : 48 ≤ d
      · have : ¬ d ≤ 54 := fun b => h1 ⟨a, b⟩
        simp [this]
      · simp [a]
  · by_cases a : 48 ≤ d
    · have : ¬ d ≤ 53 := fun b => hp ⟨a, b⟩
      simp [this]
    · simp [a]

end Sys2Proof.Machine
end

