-- ==== Sys2Proof/Laws/Tile.lean ====
section
/-! SUPPORT. What tile words do (07_tiles R111-R116): elements written are read back, every other bit stays. -/

namespace Sys2Proof.Machine

/-! ## Rows of elements (R58, R113) -/

/-- The number whose base-2^wd digits are given. -/
theorem digits_sum (wd n : Nat) (f : Nat → Nat) (h : ∀ j, f j < 2 ^ wd) :
    (List.range n).foldl (fun acc j => acc + f j * 2 ^ (wd * j)) 0 < 2 ^ (wd * n) ∧
      ∀ j < n, (List.range n).foldl (fun acc j => acc + f j * 2 ^ (wd * j)) 0 / 2 ^ (wd * j) % 2 ^ wd = f j := by
  induction n with
  | zero => simp
  | succ n ih =>
    obtain ⟨hlt, hd⟩ := ih
    rw [List.range_succ, List.foldl_append]
    simp only [List.foldl_cons, List.foldl_nil]
    generalize (List.range n).foldl (fun acc j => acc + f j * 2 ^ (wd * j)) 0 = A at *
    have hp : 0 < 2 ^ (wd * n) := Nat.two_pow_pos _
    constructor
    · have := h n
      rw [Nat.mul_add, Nat.pow_add, Nat.mul_one]
      calc A + f n * 2 ^ (wd * n) < 2 ^ (wd * n) + f n * 2 ^ (wd * n) := by omega
        _ = (1 + f n) * 2 ^ (wd * n) := by ring
        _ ≤ 2 ^ wd * 2 ^ (wd * n) := Nat.mul_le_mul_right _ (by omega)
        _ = 2 ^ (wd * n) * 2 ^ wd := Nat.mul_comm _ _
    · intro j hj
      by_cases e : j = n
      · subst e
        rw [Nat.add_mul_div_right _ _ hp, Nat.div_eq_of_lt hlt, Nat.zero_add, Nat.mod_eq_of_lt (h j)]
      · have hjn : j < n := by omega
        have e1 : f n * 2 ^ (wd * n) = 2 ^ (wd * j) * (2 ^ wd * (f n * 2 ^ (wd * (n - j - 1)))) := by
          rw [show wd * n = wd * j + wd + wd * (n - j - 1) by
            have : n = j + 1 + (n - j - 1) := by omega
            conv_lhs => rw [this]
            ring, Nat.pow_add, Nat.pow_add]
          ring
        rw [e1, Nat.add_mul_div_left _ _ (Nat.two_pow_pos _), Nat.add_mul_mod_self_left]
        exact hd j hjn

/-- The elements written of a row, and its bits beyond them. -/
theorem setElems_toNat (r : Row) (wd n : Nat) (f : Nat → Nat) (hn : wd * n ≤ 1024) :
    (setElems r wd n f).toNat =
      (List.range n).foldl (fun acc j => acc + f j % 2 ^ wd * 2 ^ (wd * j)) 0 + r.toNat / 2 ^ (wd * n) * 2 ^ (wd * n) := by
  have hlt := (digits_sum wd n (fun j => f j % 2 ^ wd) (fun j => Nat.mod_lt _ (Nat.two_pow_pos _))).1
  unfold setElems
  simp only [BitVec.toNat_ofNat]
  apply Nat.mod_eq_of_lt
  generalize (List.range n).foldl (fun acc j => acc + f j % 2 ^ wd * 2 ^ (wd * j)) 0 = A at *
  have hr := r.isLt
  have hp : 0 < 2 ^ (wd * n) := Nat.two_pow_pos _
  have h1 : r.toNat / 2 ^ (wd * n) < 2 ^ (1024 - wd * n) := by
    rw [Nat.div_lt_iff_lt_mul hp, ← Nat.pow_add]
    have : 1024 - wd * n + wd * n = 1024 := by omega
    rw [this]; exact hr
  calc A + r.toNat / 2 ^ (wd * n) * 2 ^ (wd * n) < 2 ^ (wd * n) + r.toNat / 2 ^ (wd * n) * 2 ^ (wd * n) := by omega
    _ = (1 + r.toNat / 2 ^ (wd * n)) * 2 ^ (wd * n) := by ring
    _ ≤ 2 ^ (1024 - wd * n) * 2 ^ (wd * n) := Nat.mul_le_mul_right _ (by omega)
    _ = 2 ^ 1024 := by rw [← Nat.pow_add]; congr 1; omega

theorem rowElem_setElems (r : Row) (wd n : Nat) (f : Nat → Nat) (hn : wd * n ≤ 1024) {j : Nat} (hj : j < n) :
    rowElem (setElems r wd n f) wd j = f j % 2 ^ wd := by
  have hd := (digits_sum wd n (fun j => f j % 2 ^ wd) (fun j => Nat.mod_lt _ (Nat.two_pow_pos _))).2 j hj
  unfold rowElem
  rw [BitVec.extractLsb'_toNat, setElems_toNat r wd n f hn, Nat.shiftRight_eq_div_pow, Nat.mul_comm j wd]
  generalize (List.range n).foldl (fun acc j => acc + f j % 2 ^ wd * 2 ^ (wd * j)) 0 = A at *
  generalize r.toNat / 2 ^ (wd * n) = Q
  have e1 : Q * 2 ^ (wd * n) = 2 ^ (wd * j) * (2 ^ wd * (Q * 2 ^ (wd * (n - j - 1)))) := by
    have e0 : 2 ^ (wd * n) = 2 ^ (wd * j) * 2 ^ wd * 2 ^ (wd * (n - j - 1)) := by
      rw [← Nat.pow_add, ← Nat.pow_add]
      congr 1
      have : n = j + 1 + (n - j - 1) := by omega
      conv_lhs => rw [this]
      ring
    rw [e0]
    ring
  rw [e1, Nat.add_mul_div_left _ _ (Nat.two_pow_pos _), Nat.add_mul_mod_self_left]
  exact hd

theorem setElems_beyond (r : Row) (wd n : Nat) (f : Nat → Nat) (hn : wd * n ≤ 1024) {p : Nat} (hp : n * wd ≤ p) :
    (setElems r wd n f).getLsbD p = r.getLsbD p := by
  have hlt := (digits_sum wd n (fun j => f j % 2 ^ wd) (fun j => Nat.mod_lt _ (Nat.two_pow_pos _))).1
  rw [BitVec.getLsbD, BitVec.getLsbD, setElems_toNat r wd n f hn]
  generalize (List.range n).foldl (fun acc j => acc + f j % 2 ^ wd * 2 ^ (wd * j)) 0 = A at *
  rw [Nat.mul_comm n wd] at hp
  obtain ⟨q, rfl⟩ : ∃ q, p = wd * n + q := ⟨p - wd * n, by omega⟩
  rw [Nat.add_comm (wd * n) q]
  simp only [Nat.testBit_add]
  congr 1
  rw [Nat.add_mul_div_right _ _ (Nat.two_pow_pos _), Nat.div_eq_of_lt hlt, Nat.zero_add]

/-! ## Rows of tiles (R111) -/

/-- A row write changes the tile store and the marks of a core. -/
theorem Core.putRow_eq (k : Core) (t i : Nat) (full : Bool) (r : Row) :
    k.putRow t i full r = { k with
      tiles := Map.put 0 k.tiles (128 * t + i) r
      tilePoison := if full then k.tilePoison.filter (fun p => p ≠ 128 * t + i) else k.tilePoison } := by
  cases full <;> rfl

theorem Core.tileRow_putRow (k : Core) (t i : Nat) (full : Bool) (r : Row) (e j : Nat) :
    (k.putRow t i full r).tileRow e j = if 128 * t + i = 128 * e + j then r else k.tileRow e j := by
  rw [Core.putRow_eq]; simp [Core.tileRow, Map.get_put]

/-- Writing rows of one tile, each a function of the row as it stands. -/
def putRows (t : Nat) (full : Bool) (g : Nat → Row → Row) (rows : List Nat) (k : Core) : Core :=
  rows.foldl (fun k i => k.putRow t i full (g i (k.tileRow t i))) k

theorem putTile_putRows (w : QWord) (t : Nat) (rows : List Nat) (f : Nat → Nat → Nat) (k : Core) :
    putTile w t rows f k = putRows t (w.cols t * ewidth (w.et t) = 1024) (fun i r => setElems r (ewidth (w.et t)) (w.cols t) (f i)) rows k :=
  rfl

theorem putRows_eq (t : Nat) (full : Bool) (g : Nat → Row → Row) (rows : List Nat) : ∀ (k : Core),
    ∃ ti po, putRows t full g rows k = { k with tiles := ti, tilePoison := po } := by
  induction rows with
  | nil => intro k; exact ⟨k.tiles, k.tilePoison, rfl⟩
  | cons i rows ih =>
    intro k
    obtain ⟨ti, po, h⟩ := ih (k.putRow t i full (g i (k.tileRow t i)))
    refine ⟨ti, po, ?_⟩
    rw [putRows, List.foldl_cons, ← putRows, h, Core.putRow_eq]

theorem tileRow_putRows (t : Nat) (full : Bool) (g : Nat → Row → Row) (rows : List Nat) : ∀ (k : Core), rows.Nodup →
    (∀ i ∈ rows, i < 128) → ∀ e j, j < 128 →
      (putRows t full g rows k).tileRow e j = if t = e ∧ j ∈ rows then g j (k.tileRow t j) else k.tileRow e j := by
  induction rows with
  | nil => intro k _ _ e j _; simp [putRows]
  | cons i rows ih =>
    intro k hn hr e j hj
    rw [putRows, List.foldl_cons, ← putRows]
    rw [ih _ (List.nodup_cons.1 hn).2 (fun a ha => hr a (List.mem_cons_of_mem _ ha)) e j hj]
    have hi := hr i (List.mem_cons_self ..)
    have hnot : i ∉ rows := (List.nodup_cons.1 hn).1
    rw [Core.tileRow_putRow, Core.tileRow_putRow]
    by_cases h1 : t = e
    · subst h1
      by_cases h2 : j ∈ rows
      · have hne : i ≠ j := fun h => hnot (h ▸ h2)
        simp [h2, hne]
      · by_cases h3 : i = j
        · subst h3; simp [h2]
        · simp [h2, h3, Ne.symm h3]
    · have hne : 128 * t + i ≠ 128 * e + j := by omega
      simp [h1, hne]

/-! ## Tiles written (R113, R115) -/

/-- The tile store of a core with tiles written: `outs` gives for each tile its rows and its patterns. -/
structure Put (w : QWord) (outs : List (Nat × List Nat × (Nat → Nat → Nat))) (k l : Core) : Prop where
  rest : ∃ ti po, l = { k with tiles := ti, tilePoison := po }
  elems : ∀ o ∈ outs, ∀ i ∈ o.2.1, ∀ j < w.cols o.1, l.elem o.1 (w.et o.1) i j = o.2.2 i j % 2 ^ ewidth (w.et o.1)
  beyond : ∀ o ∈ outs, ∀ i ∈ o.2.1, ∀ p, w.cols o.1 * ewidth (w.et o.1) ≤ p → (l.tileRow o.1 i).getLsbD p = (k.tileRow o.1 i).getLsbD p
  others : ∀ e i, i < 128 → (∀ o ∈ outs, ¬ (o.1 = e ∧ i ∈ o.2.1)) → l.tileRow e i = k.tileRow e i

theorem putTile_put (w : QWord) (t : Nat) (rows : List Nat) (f : Nat → Nat → Nat) (k : Core) (hn : rows.Nodup)
    (hr : ∀ i ∈ rows, i < 128) (hw : w.cols t * ewidth (w.et t) ≤ 1024) : Put w [(t, rows, f)] k (putTile w t rows f k) := by
  rw [putTile_putRows]
  have hrow := fun e j hj => tileRow_putRows t (w.cols t * ewidth (w.et t) = 1024)
    (fun i r => setElems r (ewidth (w.et t)) (w.cols t) (f i)) rows k hn hr e j hj
  have hw2 : ewidth (w.et t) * w.cols t ≤ 1024 := by rw [Nat.mul_comm]; exact hw
  constructor
  · exact putRows_eq _ _ _ _ _
  · intro o ho i hi j hj
    simp only [List.mem_singleton] at ho
    subst ho
    simp only at hi hj ⊢
    rw [Core.elem, hrow _ _ (hr i hi), if_pos ⟨rfl, hi⟩, rowElem_setElems _ _ _ _ hw2 hj]
  · intro o ho i hi p hp
    simp only [List.mem_singleton] at ho
    subst ho
    simp only at hi hp ⊢
    rw [hrow _ _ (hr i hi), if_pos ⟨rfl, hi⟩, setElems_beyond _ _ _ _ hw2 hp]
  · intro e i hi ho
    rw [hrow _ _ hi, if_neg]
    exact ho (t, rows, f) (List.mem_singleton.2 rfl)

theorem Put.tileRow_other {w : QWord} {t : Nat} {rows : List Nat} {f : Nat → Nat → Nat} {k l : Core} (h : Put w [(t, rows, f)] k l)
    {e i : Nat} (hi : i < 128) (he : t ≠ e) : l.tileRow e i = k.tileRow e i :=
  h.others e i hi (by intro o ho; simp only [List.mem_singleton] at ho; subst ho; simp [he])

/-- One tile after another. -/
theorem Put.pair {w : QWord} {a b : Nat} {ra rb : List Nat} {f g : Nat → Nat → Nat} {k l m : Core}
    (h1 : Put w [(a, ra, f)] k l) (h2 : Put w [(b, rb, g)] l m) (hab : a ≠ b) (hra : ∀ i ∈ ra, i < 128) (hrb : ∀ i ∈ rb, i < 128) :
    Put w [(a, ra, f), (b, rb, g)] k m := by
  constructor
  · obtain ⟨t1, p1, e1⟩ := h1.rest
    obtain ⟨t2, p2, e2⟩ := h2.rest
    exact ⟨t2, p2, by rw [e2, e1]⟩
  · intro o ho i hi j hj
    rcases List.mem_cons.1 ho with rfl | ho
    · have := h1.elems _ (List.mem_singleton.2 rfl) i hi j hj
      rw [← this, Core.elem, Core.elem, h2.tileRow_other (hra i hi) (Ne.symm hab)]
    · exact h2.elems o ho i hi j hj
  · intro o ho i hi p hp
    rcases List.mem_cons.1 ho with rfl | ho
    · rw [h2.tileRow_other (hra i hi) (Ne.symm hab)]
      exact h1.beyond _ (List.mem_singleton.2 rfl) i hi p hp
    · rw [h2.beyond o ho i hi p hp]
      simp only [List.mem_singleton] at ho
      subst ho
      rw [h1.tileRow_other (hrb i hi) hab]
  · intro e i hi ho
    rw [h2.others e i hi (fun o h => ho o (List.mem_cons_of_mem _ h)),
      h1.others e i hi (fun o h => ho o (by simp only [List.mem_singleton] at h; subst h; exact List.mem_cons_self ..))]

/-- One row of two tiles after another. -/
theorem Put.rows {w : QWord} {a b : Nat} {f g : Nat → Nat → Nat} (step : Core → Nat → Core)
    (hs : ∀ k i, i < 128 → Put w [(a, [i], f), (b, [i], g)] k (step k i)) (rows : List Nat) : ∀ (k : Core), rows.Nodup →
      (∀ i ∈ rows, i < 128) → Put w [(a, rows, f), (b, rows, g)] k (rows.foldl step k) := by
  induction rows with
  | nil =>
    intro k _ _
    refine ⟨⟨k.tiles, k.tilePoison, rfl⟩, ?_, ?_, fun e i _ _ => rfl⟩
    · intro o ho i hi
      simp only [List.mem_cons, List.not_mem_nil, or_false] at ho
      rcases ho with rfl | rfl <;> simp at hi
    · intro o ho i hi
      simp only [List.mem_cons, List.not_mem_nil, or_false] at ho
      rcases ho with rfl | rfl <;> simp at hi
  | cons r rows ih =>
    intro k hn hr
    have h1 := hs k r (hr r (List.mem_cons_self ..))
    have h2 := ih (step k r) (List.nodup_cons.1 hn).2 (fun i hi => hr i (List.mem_cons_of_mem _ hi))
    have hrn : r ∉ rows := (List.nodup_cons.1 hn).1
    rw [List.foldl_cons]
    generalize step k r = l at *
    generalize rows.foldl step l = m at *
    have hrow : ∀ o ∈ [(a, rows, f), (b, rows, g)], o.2.1 = rows := by
      intro o ho; simp only [List.mem_cons, List.not_mem_nil, or_false] at ho; rcases ho with rfl | rfl <;> rfl
    have keep : ∀ e, m.tileRow e r = l.tileRow e r := fun e =>
      h2.others e r (hr r (List.mem_cons_self ..)) (by intro o ho; rw [hrow o ho]; simp [hrn])
    have hrow1 : ∀ o ∈ [(a, [r], f), (b, [r], g)], o.2.1 = [r] := by
      intro o ho; simp only [List.mem_cons, List.not_mem_nil, or_false] at ho; rcases ho with rfl | rfl <;> rfl
    have keep1 : ∀ e i, i ∈ rows → l.tileRow e i = k.tileRow e i := fun e i hi =>
      h1.others e i (hr i (List.mem_cons_of_mem _ hi)) (by
        intro o ho; rw [hrow1 o ho]; simp only [List.mem_singleton, not_and]
        intro _ h; exact hrn (h ▸ hi))
    have to1 : ∀ o ∈ [(a, r :: rows, f), (b, r :: rows, g)], (o.1, [r], o.2.2) ∈ [(a, [r], f), (b, [r], g)]
        ∧ (o.1, rows, o.2.2) ∈ [(a, rows, f), (b, rows, g)] ∧ o.2.1 = r :: rows := by
      intro o ho
      simp only [List.mem_cons, List.not_mem_nil, or_false] at ho
      rcases ho with rfl | rfl <;> simp
    constructor
    · obtain ⟨t1, p1, e1⟩ := h1.rest
      obtain ⟨t2, p2, e2⟩ := h2.rest
      exact ⟨t2, p2, by rw [e2, e1]⟩
    · intro o ho i hi j hj
      obtain ⟨ha, hb, hc⟩ := to1 o ho
      rw [hc] at hi
      rcases List.mem_cons.1 hi with rfl | hi
      · rw [Core.elem, keep]; exact h1.elems _ ha _ (List.mem_singleton.2 rfl) j hj
      · exact h2.elems _ hb i hi j hj
    · intro o ho i hi p hp
      obtain ⟨ha, hb, hc⟩ := to1 o ho
      rw [hc] at hi
      rcases List.mem_cons.1 hi with rfl | hi
      · rw [keep]; exact h1.beyond _ ha _ (List.mem_singleton.2 rfl) p hp
      · rw [← keep1 o.1 i hi]; exact h2.beyond _ hb i hi p hp
    · intro e i hi ho
      have ho2 : ∀ o ∈ [(a, rows, f), (b, rows, g)], ¬ (o.1 = e ∧ i ∈ o.2.1) := by
        intro o h
        simp only [List.mem_cons, List.not_mem_nil, or_false] at h
        rcases h with rfl | rfl
        · exact fun hh => ho (a, r :: rows, f) (by simp) ⟨hh.1, List.mem_cons_of_mem _ hh.2⟩
        · exact fun hh => ho (b, r :: rows, g) (by simp) ⟨hh.1, List.mem_cons_of_mem _ hh.2⟩
      have ho1 : ∀ o ∈ [(a, [r], f), (b, [r], g)], ¬ (o.1 = e ∧ i ∈ o.2.1) := by
        intro o h
        simp only [List.mem_cons, List.not_mem_nil, or_false] at h
        rcases h with rfl | rfl
        · exact fun hh => ho (a, r :: rows, f) (by simp) ⟨hh.1, by simp at hh; simp [hh.2]⟩
        · exact fun hh => ho (b, r :: rows, g) (by simp) ⟨hh.1, by simp at hh; simp [hh.2]⟩
      rw [h2.others e i hi ho2, h1.others e i hi ho1]

theorem noteFlush_tiles (s : State) (c n : Nat) : ((noteFlush s c n).core c).tiles = (s.core c).tiles := by
  unfold noteFlush
  split
  · rfl
  · rename_i hn
    rw [State.core_modCtx_self]
    simp [State.count, hn, Core.count]

/-- What a tile word's update of the tile store leaves of the machine. -/
theorem tileOut_of {u : State} {c n : Nat} {w : QWord} {outs : List (Nat × List Nat × (Nat → Nat → Nat))} {upd : Core → Core}
    (h : ∀ k, Put w outs k (upd k)) :
    TileOut u (((noteFlush u c n).modCore c upd).modCtx c
      (fun x => x.revive ((outs.map (fun o => o.1)).filter (fun e => !(selRows w (w.rows e)).isEmpty)))) c n w outs := by
  have hp := h ((noteFlush u c n).core c)
  have ht := noteFlush_tiles u c n
  obtain ⟨ti, po, he⟩ := hp.rest
  have hc : ∀ g : Ctx → Ctx, ((((noteFlush u c n).modCore c upd).modCtx c g).core c).tiles = (upd ((noteFlush u c n).core c)).tiles := by
    intro g; rw [State.core_modCtx_self]; simp
  have hrow : ∀ (g : Ctx → Ctx) e i, ((((noteFlush u c n).modCore c upd).modCtx c g).core c).tileRow e i
      = (upd ((noteFlush u c n).core c)).tileRow e i := by
    intro g e i; unfold Core.tileRow; rw [hc]
  have hold : ∀ e i, ((noteFlush u c n).core c).tileRow e i = (u.core c).tileRow e i := by
    intro e i; unfold Core.tileRow; rw [ht]
  constructor
  · intro o ho i hi j hj
    rw [Core.elem, hrow]; exact hp.elems o ho i hi j hj
  · intro o ho i hi p hq
    rw [hrow, hp.beyond o ho i hi p hq, hold]
  · intro e i hi ho
    rw [hrow, hp.others e i hi ho, hold]
  · refine ⟨ti, po, ?_⟩
    unfold State.retile
    congr 1
    rw [State.modCore, he]
    rfl

/-! ## Shape records (R111, R112) -/

theorem snapShapes_get (x : Ctx) (ts : List Nat) {t : Nat} (h : t ∈ ts) : Map.get 0 (snapShapes x ts) t = Map.get 0 x.shapes t := by
  unfold snapShapes
  have key : ∀ (l : List Nat) (m : Map Word), (t ∈ l ∨ Map.get 0 m t = Map.get 0 x.shapes t) →
      Map.get 0 (l.foldl (fun m t => Map.ins m t (Map.get 0 x.shapes t)) m) t = Map.get 0 x.shapes t := by
    intro l
    induction l with
    | nil => intro m h; simpa using h
    | cons a l ih =>
      intro m h
      rw [List.foldl_cons]
      apply ih
      rw [Map.get_ins]
      by_cases e : a = t
      · subst e; right; simp
      · rw [if_neg e]
        rcases h with h | h
        · rcases List.mem_cons.1 h with h | h
          · exact absurd h.symm e
          · exact Or.inl h
        · exact Or.inr h
  exact key ts [] (Or.inl h)

theorem selRows_nodup (w : QWord) (n : Nat) : (selRows w n).Nodup := List.Nodup.filter _ List.nodup_range

theorem selRows_lt {w : QWord} {n i : Nat} (h : i ∈ selRows w n) : i < n := by
  simp only [selRows, List.mem_filter, List.mem_range] at h; exact h.1

/-- A legal tile has at most 128 rows of at most 1,024 bits. -/
theorem legal_dims {x : Ctx} {ts : List Nat} (h : x.legal ts) {t : Nat} (ht : t ∈ ts) {w : QWord} (hw : w.shapes = snapShapes x ts) :
    w.rows t ≤ 128 ∧ w.cols t * ewidth (w.et t) ≤ 1024 := by
  have hs : w.sh t = Map.get 0 x.shapes t := by rw [QWord.sh, hw, snapShapes_get x ts ht]
  obtain ⟨-, hb⟩ := h t ht
  rw [← hs] at hb
  simp only [shapeBreach, Bool.or_eq_false_iff, decide_eq_false_iff_not, Nat.not_lt] at hb
  exact ⟨hb.1.2, hb.1.1.2⟩

theorem chkTiles_ok {x : Ctx} {ts : List Nat} (h : x.legal ts) (own : Ctx → QWord → Option Nat) (more : Ctx → QWord → QWord)
    (s : State) (c : Nat) (w : QWord) (ho : own x { w with shapes := snapShapes x ts, units := ts.map tileUnit } = none) :
    chkTiles ts own more s c x w = .ok (more x { w with shapes := snapShapes x ts, units := ts.map tileUnit }) := by
  unfold chkTiles
  simp only [List.any_map]
  rw [if_neg, if_neg]
  · simp only [ho]
  · rw [Bool.not_eq_true, List.any_eq_false]
    intro t ht; simpa using (h t ht).2
  · rw [Bool.not_eq_true, List.any_eq_false]
    intro t ht; simpa using (h t ht).1

/-! ## Words that only take operands -/

/-- A word without an operation number, a result or q6 elements, which only commits as it passes capture, runs in the
state that lies past it. -/
theorem issue_plain {i : Instr} {sp : CapSpec} {chk : State → Nat → Ctx → QWord → Chk} {run : RunFn} {s : State} {x : Ctx}
    {vals : List Dword} {pops : List Nat} {w : QWord} (h : Idle s x) (hpriv : sp.priv = true → x.priv = true)
    (hm : sp.mem = false) (hjump : sp.jump = false) (hd : sp.dst = none) (hpu : sp.push = none) (hq : sp.q6 = 0)
    (hread : readAll s s.cur x sp.srcs [] [] = .ok vals pops)
    (hchk : chk s s.cur x (mkWord x i sp vals) = .ok w)
    (hw : w.pfx = x.grp.pfx ∧ w.blocked = false ∧ w.q6 = [] ∧ w.seqr = none ∧ w.gate = .none) (hst : w.instr.still = true) :
    ∃ s0, issue i sp chk noAct run s =
      .next (afterRun s0 s.cur w (run (touchUnits (s.past x pops sp.eng (takesSr sp w)) s.cur x.me w.units) s.cur w)) := by
  have hadm := Ctx.enrol_plain x (s.tenant x.tenant).scap w hm hd hq
  have hv : (x.enrol sp (s.tenant x.tenant).scap w).2 = w := by
    rw [hadm]; show ({ w with q6 := [] } : QWord) = w; rw [← hw.2.2.1]
  obtain ⟨s0, hi⟩ := issue_runs (run := run) h hpriv hjump (by intro d hd2; simp [CapSpec.pushed, hd, hpu] at hd2) hread
    (by simp [hm]) hchk (by have := h.elems; simp only [q6Need, hq, hd]; simp; omega) ⟨hw.1, hw.2.1⟩
    (.inl (by rw [hv]; exact hw.2.2.2.1)) (by intro t; rw [hv]; exact t.placed_still _ _ hst)
    (by intro t y _ _ _ _; exact State.gateOk_none (by rw [hv]; simp [hw.2.2.2.2]))
  rw [hv, State.admitted_plain s x w pops hm hd hq] at hi
  exact ⟨s0, hi⟩

/-- A tile word of an idle strand that passes its checks runs. -/
theorem issue_tile {i : Instr} {e : Engine} {srcs ts : List Nat} {own : Ctx → QWord → Option Nat} {run : RunFn} {s : State} {x : Ctx}
    {vals : List Dword} {pops : List Nat} (h : Idle s x) (hst : i.still = true) (hread : readAll s s.cur x srcs [] [] = .ok vals pops)
    (hleg : x.legal ts) (hown : own x (x.tileWord i e srcs vals ts) = none) :
    ∃ s0, issue i { eng := e, srcs := srcs } (chkTiles ts own (fun _ w => w)) noAct run s =
      .next (afterRun s0 s.cur (x.tileWord i e srcs vals ts)
        (run (s.readied x pops (x.tileWord i e srcs vals ts)) s.cur (x.tileWord i e srcs vals ts))) := by
  obtain ⟨s0, hi⟩ := issue_plain (i := i) (sp := { eng := e, srcs := srcs }) (run := run) h (by simp) rfl rfl rfl rfl rfl hread
    (chkTiles_ok hleg own (fun _ w => w) s s.cur (mkWord x i { eng := e, srcs := srcs } vals) hown) ⟨rfl, rfl, rfl, rfl, rfl⟩ hst
  exact ⟨s0, hi⟩

/-- The run of a tile word that reads no poisoned row, of an idle strand. -/
theorem tileRun_done {u s0 : State} {c : Nat} {w : QWord} {reads : List (Nat × Nat)} {runs : List Run} {writes : List Nat}
    {upd : Core → Core} (hp : poisonedTile (u.core c) reads = none) (hs : w.pfx.signal = 0) (hq : w.seqr = none) :
    afterRun s0 c w (tileRun u c w reads runs writes upd) =
      (((noteFlush u c (flushedIn w (u.core c) runs)).modCore c upd).modCtx c
        (fun x => x.revive (writes.filter (fun t => !(selRows w (w.rows t)).isEmpty)))) := by
  unfold tileRun tileRunOf
  rw [hp]
  exact afterRun_done hs hq

/-- A tile word of an idle strand leaves its tiles written. -/
theorem tile_done {s u : State} {x : Ctx} {i : Instr} {e : Engine} {srcs ts : List Nat} {own : Ctx → QWord → Option Nat}
    {vals : List Dword} {pops : List Nat} {run : RunFn} {w : QWord} {k : Core} {reads : List (Nat × Nat)} {runs : List Run}
    {writes : List Nat} {outs : List (Nat × List Nat × (Nat → Nat → Nat))} {upd : Core → Core}
    (hw : w = x.tileWord i e srcs vals ts) (hu : u = s.readied x pops w) (hk : k = u.core s.cur)
    (h : Idle s x) (hst : i.still = true) (hread : readAll s s.cur x srcs [] [] = .ok vals pops) (hleg : x.legal ts)
    (hown : own x w = none) (hp : poisonedTile k reads = none)
    (hrun : run u s.cur w = tileRun u s.cur w reads runs writes upd)
    (hwr : writes = outs.map (fun o => o.1)) (hput : ∀ k, Put w outs k (upd k)) :
    ∃ t, issue i { eng := e, srcs := srcs } (chkTiles ts own (fun _ w => w)) noAct run s = .next t ∧
      TileOut u t s.cur (flushedIn w k runs) w outs := by
  obtain ⟨s0, hi⟩ := issue_tile (i := i) (e := e) (own := own) (run := run) h hst hread hleg (by rw [← hw]; exact hown)
  rw [← hw, ← hu, hrun, tileRun_done (by rw [← hk]; exact hp) (by rw [hw]; exact h.signal) (by rw [hw]; rfl)] at hi
  refine ⟨_, hi, ?_⟩
  rw [hwr, hk]
  exact tileOut_of hput

/-- Writing the selected rows of a legal tile. -/
theorem put_sel {x : Ctx} {ts : List Nat} {i : Instr} {e : Engine} {srcs : List Nat} {vals : List Dword} {w : QWord}
    (hw : w = x.tileWord i e srcs vals ts) (hleg : x.legal ts) {d : Nat} (hd : d ∈ ts) (f : Nat → Nat → Nat) (k : Core) :
    Put w [(d, selRows w (w.rows d), f)] k (putTile w d (selRows w (w.rows d)) f k) := by
  obtain ⟨h1, h2⟩ := legal_dims (w := w) hleg hd (by rw [hw]; rfl)
  exact putTile_put _ _ _ _ _ (selRows_nodup _ _) (fun i hi => Nat.lt_of_lt_of_le (selRows_lt hi) h1) h2

/-- Writing the same rows of two legal tiles, one after another. -/
theorem put_two {x : Ctx} {ts : List Nat} {i : Instr} {e : Engine} {srcs : List Nat} {vals : List Dword} {w : QWord}
    (hw : w = x.tileWord i e srcs vals ts) (hleg : x.legal ts) {d b : Nat} (hd : d ∈ ts) (hb : b ∈ ts) (hdb : d ≠ b)
    {rows : List Nat} (hn : rows.Nodup) (hr : ∀ i ∈ rows, i < 128) (f g : Nat → Nat → Nat) (k : Core) :
    Put w [(d, rows, f), (b, rows, g)] k (putTile w b rows g (putTile w d rows f k)) := by
  obtain ⟨-, h2⟩ := legal_dims (w := w) hleg hd (by rw [hw]; rfl)
  obtain ⟨-, h3⟩ := legal_dims (w := w) hleg hb (by rw [hw]; rfl)
  exact Put.pair (putTile_put _ _ _ _ _ hn hr h2) (putTile_put _ _ _ _ _ hn hr h3) hdb hr hr

/-- A value computed once for each row is found at its row. -/
theorem Map.get_rows {α : Type} (d : α) (F : Nat → α) {rows : List Nat} {i : Nat} (h : i ∈ rows) :
    Map.get d (rows.map (fun j => (j, F j))) i = F i := by
  induction rows with
  | nil => simp at h
  | cons a t ih =>
    simp only [List.map_cons, Map.get]
    by_cases e : a = i
    · rw [if_pos e, e]
    · rw [if_neg e]
      rcases List.mem_cons.1 h with h | h
      · exact absurd h.symm e
      · exact ih h

/-- Patterns that agree on the rows written. -/
theorem Put.congr {w : QWord} {k l : Core} {a b : Nat} {rows : List Nat}
    {f g f' g' : Nat → Nat → Nat} (h : Put w [(a, rows, f), (b, rows, g)] k l) (hf : ∀ i ∈ rows, ∀ j, f i j = f' i j)
    (hg : ∀ i ∈ rows, ∀ j, g i j = g' i j) : Put w [(a, rows, f'), (b, rows, g')] k l := by
  constructor
  · exact h.rest
  · intro o ho i hi j hj
    simp only [List.mem_cons, List.not_mem_nil, or_false] at ho
    rcases ho with rfl | rfl
    · rw [h.elems (a, rows, f) (by simp) i hi j hj]; simp only; rw [hf i hi]
    · rw [h.elems (b, rows, g) (by simp) i hi j hj]; simp only; rw [hg i hi]
  · intro o ho i hi p hp
    simp only [List.mem_cons, List.not_mem_nil, or_false] at ho
    rcases ho with rfl | rfl
    · exact h.beyond (a, rows, f) (by simp) i hi p hp
    · exact h.beyond (b, rows, g) (by simp) i hi p hp
  · intro e i hi ho
    refine h.others e i hi ?_
    intro o hm
    simp only [List.mem_cons, List.not_mem_nil, or_false] at hm
    rcases hm with rfl | rfl
    · exact ho (a, rows, f') (by simp)
    · exact ho (b, rows, g') (by simp)

end Sys2Proof.Machine
end

