-- ==== Sys2Proof/Laws/Words.lean ====
section
/-! SUPPORT. A word of an idle strand that passes capture runs, whatever it takes and does as it passes (R32, R33, R35):
the one law the completion statements of Safety's tables cite. -/

namespace Sys2Proof.Machine

theorem spillRows_spilling (c u : Nat) (rs : List Nat) : ∀ (s : State) (a : Nat), ((spillRows s c u a rs).core c).spilling = (s.core c).spilling := by
  have hb : ∀ (n : Nat) (s : State) (a v : Nat), ((s.writeN a n v).core c).spilling = (s.core c).spilling := by
    intro n
    induction n with
    | zero => intro s a v; rfl
    | succ n ih => intro s a v; exact ih (s.putByte a (BitVec.ofNat 8 v)) (a + 1) (v / 256)
  induction rs with
  | nil => intro s a; rfl
  | cons r rs ih =>
    intro s a
    simp only [Machine.spillRows]
    refine (ih _ _).trans ?_
    generalize (if (64 ≤ u && u < 80) = true then 512 else 128) = n
    have g : ∀ (v : Nat) (b : Bool), ((if b = true then ((s.writeN a n v).cleanMem a n).poisonMem a n
        else (s.writeN a n v).cleanMem a n).core c).spilling = (s.core c).spilling := by
      intro v b
      cases b
      · exact hb n s a v
      · exact hb n s a v
    exact g _ _

theorem Core.setUnitRow_spilling (k : Core) (u : Nat) (v : Nat × Nat × Bool) : (k.setUnitRow u v).spilling = k.spilling := by
  simp only [Core.setUnitRow]
  split
  · rfl
  · split <;> rfl

theorem loadRows_spilling (c u : Nat) (rs : List Nat) : ∀ (s : State) (a : Nat), ((loadRows s c u a rs).core c).spilling = (s.core c).spilling := by
  induction rs with
  | nil => intro s a; rfl
  | cons r rs ih =>
    intro s a
    simp only [Machine.loadRows]
    refine (ih _ _).trans ?_
    rw [State.core_modCore_self]
    exact Core.setUnitRow_spilling _ _ _

theorem State.spillBit_core (s : State) (c d : Nat) (o : Owner) (u : Nat) (b : Bool) : (s.spillBit c o u b).core d = s.core d := by
  unfold State.spillBit
  simp only
  split <;> rfl

theorem Core.freeUnit_spilling {k : Core} (u : Nat) (h : k.spilling = []) : (k.freeUnit u).spilling = [] := by
  simp only [Core.freeUnit, Core.clearUnit]
  split
  · simp [h]
  · split <;> simp [h]

theorem touchUnit_spilling {s : State} {c : Nat} (me : Owner) (u : Nat) (h : (s.core c).spilling = []) :
    ((touchUnit s c me u).core c).spilling = [] := by
  have ht : ∀ {s : State}, (s.core c).spilling = [] → ((takeUnit s c me u).core c).spilling = [] := by
    intro s h
    unfold takeUnit
    simp only [State.core_modCore_self]
    split
    · rw [State.core_modCore_self]
      obtain ⟨_, _, _, _, _, _, e⟩ := Core.setUnitRows_eq u (Map.get [] (s.core c).side u) (s.core c)
      rw [e]; exact h
    · split
      · rw [State.core_modCore_self, State.spillBit_core]
        split
        · exact h
        · rw [loadRows_spilling]; exact h
      · exact h
  have hs : ((spillUnit s c u).core c).spilling = [] := by
    unfold spillUnit
    split
    · exact h
    · split
      · rw [State.core_modCore_self]; exact Core.freeUnit_spilling u h
      · split
        · rw [State.core_modCore_self]; exact Core.freeUnit_spilling u h
        · simp only [State.core_modCore_self]
          exact Core.freeUnit_spilling u (by rw [State.spillBit_core, spillRows_spilling]; exact h)
  unfold touchUnit
  split
  · split
    · exact h
    · exact ht hs
  · exact ht h

theorem touchUnits_spilling {c : Nat} (me : Owner) (us : List Nat) : ∀ {s : State}, (s.core c).spilling = [] →
    ((touchUnits s c me us).core c).spilling = [] := by
  induction us with
  | nil => intro s h; exact h
  | cons u us ih => intro s h; exact ih (touchUnit_spilling me u h)

theorem State.send_cmds {s : State} (h : s.cmds = []) (p : Packet) : (s.send p).cmds = [] := by
  have e : ∀ f, Map.modify s.cmds p.cmd f = [] := by intro f; simp [h, Map.modify, Map.at?]
  have hpay : ∀ (t : State) (c : Nat), (t.pay c p).cmds = t.cmds := by
    intro t c; obtain ⟨m, hm⟩ := State.pay_eq t c p; rw [hm]
  unfold State.send
  simp only
  rw [e]
  split
  · split
    · split
      · rfl
      · exact (hpay _ _).trans rfl
    · rfl
  · rfl

theorem popPorts_cmds (c : Nat) (ks : List Nat) : ∀ {s : State}, s.cmds = [] → (popPorts s c ks).cmds = [] := by
  induction ks with
  | nil => intro s h; exact h
  | cons k ks ih =>
    intro s h
    simp only [popPorts]
    split
    · exact ih ((State.modCtx_cmds _ _ _).trans h)
    · split
      · split
        · exact ih h
        · exact ih h
      · refine ih ?_
        split
        · exact State.send_cmds ((State.modCtx_cmds _ _ _).trans h) _
        · exact (State.modCtx_cmds _ _ _).trans h

theorem popped_cmds {s : State} (h : s.cmds = []) (x : Ctx) (pops : List Nat) : (s.popped x pops).cmds = [] := by
  have hc : ∀ k n, (s.count s.cur k n).cmds = [] := by intro k n; unfold State.count; split <;> exact h
  refine popPorts_cmds _ _ ?_
  unfold endStall
  split
  · exact hc _ _
  · exact hc _ _
  · exact h

/-- No gate holds the one word of a core without commands. -/
theorem gateOk_quiet {s : State} {c : Nat} {x : Ctx} {w : QWord} (h : s.cmds = []) (hq : x.qs = [w]) (hf : x.fly = [])
    (hh : x.held.words.any w.gate.names = false) :
    s.gateOk c x w = true := by
  have hb : x.gatedBefore w = false := by
    have := List.any_eq_false.1 hh
    simp_all [Ctx.gatedBefore, Ctx.notStarted]
  unfold State.gateOk
  split <;> simp [hb, h, hf, Map.at?]

/-! ## The push slot that a word reserves as it passes (R87) -/

/-- What a reservation leaves of the sender's context. -/
def PushLeft (x y : Ctx) : Prop := ∃ o ch, y = { x with chout := o, chans := ch }

theorem State.setCtx_comm (s : State) {c d : Nat} (h : c ≠ d) (x : Ctx) (k : Core) :
    (s.setCtx c x).setCore d k = (s.setCore d k).setCtx c x := by
  unfold State.setCtx
  rw [State.core_setCore_ne s k (Ne.symm h)]
  unfold State.setCore
  simp only [Map.ins_comm _ h]

/-- What a reservation leaves of the machine beside cores and contexts. -/
structure Reserved (c : Nat) (s t : State) : Prop where
  net : t.net = s.net
  cmds : t.cmds = s.cmds
  opens : t.snoop = s.snoop ∧ t.picks = s.picks
  spilling : (t.core c).spilling = (s.core c).spilling

theorem Reserved.refl (c : Nat) (s : State) : Reserved c s s := ⟨rfl, rfl, ⟨rfl, rfl⟩, rfl⟩

theorem State.modCtxOf_setCtx_self (s : State) (c : Nat) (x : Ctx) (f : Ctx → Ctx) : (s.setCtx c x).modCtxOf c x.uid f =
    (s.modCore c (fun k => { k with sus := k.sus.map (fun y => if y.uid = x.uid then f y else y) })).setCtx c (f x) := by
  unfold State.modCtxOf State.modCore
  rw [State.core_setCtx_self, State.setCtx_setCore]
  unfold State.setCtx
  rw [State.setCore_setCore]
  simp

theorem State.modCtxOf_setCtx_ne (s : State) {c d : Nat} (h : c ≠ d) (x : Ctx) (u : Nat) (f : Ctx → Ctx) :
    (s.setCtx c x).modCtxOf d u f = (s.modCtxOf d u f).setCtx c x := by
  unfold State.modCtxOf State.modCore
  rw [State.core_setCtx_ne s x h, State.setCtx_comm s h]

theorem gangCtx_self (s : State) (c : Nat) (x : Ctx) : gangCtx (s.setCtx c x) c x.tenant x.lid = some x := by
  simp [gangCtx, State.core_setCtx_self, Option.filter]

/-- A reservation leaves the words of the sender apart, and leaves its context but for its pushes and buffers. -/
theorem reserveChannel_setCtx {s : State} {c : Nat} {y : Ctx} (hy : s.ctx c = some y) (k n : Nat) :
    ∃ z t, PushLeft y z ∧ Reserved c s t ∧ ∀ q, reserveChannel (s.setCtx c { y with qs := q }) c k n = t.setCtx c { z with qs := q } := by
  unfold reserveChannel
  simp only [State.ctx_setCtx_self, State.setCtx_setCtx]
  generalize hY : ({ y with chout := Map.ins y.chout k (Map.get [] y.chout k ++ [n]) } : Ctx) = Y
  have hq : ∀ q, ({ y with qs := q, chout := Map.ins y.chout k (Map.get [] y.chout k ++ [n]) } : Ctx) = { Y with qs := q } := by
    intro q; rw [← hY]
  have ht : ∀ q, y.tenant = Ctx.tenant { Y with qs := q } ∧ y.lid = Ctx.lid { Y with qs := q } := by intro q; rw [← hY]; exact ⟨rfl, rfl⟩
  simp only [hq, show ∀ q, peerOf ({ y with qs := q } : Ctx) c k = peerOf y c k from fun q => rfl]
  have hleft : PushLeft y Y := ⟨_, y.chans, hY.symm⟩
  cases hpeer : peerOf y c k with
  | none => exact ⟨Y, s, hleft, Reserved.refl c s, fun q => rfl⟩
  | some p =>
    simp only
    by_cases hpc : c = p
    · subst hpc
      let g : Ctx → Ctx := fun z => { z with chans := Map.ins z.chans k { Map.get {} z.chans k with reserved := (Map.get {} z.chans k).reserved + 1 } }
      refine ⟨g Y, s.modCore c (fun r => { r with sus := r.sus.map (fun y => if y.uid = Y.uid then g y else y) }),
        ⟨_, _, by rw [← hY]⟩, ⟨rfl, rfl, ⟨rfl, rfl⟩, by rw [State.core_modCore_self]⟩, fun q => ?_⟩
      rw [(ht q).1, (ht q).2, gangCtx_self]
      exact State.modCtxOf_setCtx_self s c { Y with qs := q } g
    · have hg : ∀ q, gangCtx (s.setCtx c { Y with qs := q }) p y.tenant y.lid = gangCtx s p y.tenant y.lid := by
        intro q; unfold gangCtx; rw [State.core_setCtx_ne s _ hpc]
      simp only [hg]
      cases gangCtx s p y.tenant y.lid with
      | none => exact ⟨Y, s, hleft, Reserved.refl c s, fun q => rfl⟩
      | some g =>
        refine ⟨Y, s.modCtxOf p g.uid _, hleft, ⟨rfl, rfl, ⟨rfl, rfl⟩, ?_⟩, fun q => State.modCtxOf_setCtx_ne s hpc _ _ _⟩
        unfold State.modCtxOf
        rw [State.core_modCore_ne _ _ (Ne.symm hpc)]

/-- The state in which a word has reserved its push slot. -/
def reserving (sp : CapSpec) (s : State) (c : Nat) (w : QWord) : State :=
  match sp.pushed with
  | some d => if 48 ≤ d && d ≤ 53 then reserveChannel s c (d - 48) w.seq else s
  | none => s

theorem passing_eq (sp : CapSpec) (act : State → Nat → QWord → State) (s : State) (c : Nat) (w : QWord) :
    passing sp act s c w = act (reserving sp s c w) c w := rfl

theorem reserving_setCtx {s : State} {c : Nat} {y : Ctx} (hy : s.ctx c = some y) (sp : CapSpec) (w : QWord) :
    ∃ z t, PushLeft y z ∧ Reserved c s t ∧ ∀ q, reserving sp (s.setCtx c { y with qs := q }) c w = t.setCtx c { z with qs := q } := by
  unfold reserving
  split
  · split
    · exact reserveChannel_setCtx hy _ _
    · exact ⟨y, s, ⟨y.chout, y.chans, rfl⟩, Reserved.refl c s, fun q => rfl⟩
  · exact ⟨y, s, ⟨y.chout, y.chans, rfl⟩, Reserved.refl c s, fun q => rfl⟩

/-- A word that pushes into no channel reserves none. -/
theorem reserving_none {sp : CapSpec} (h : ∀ d, sp.pushed = some d → ¬ (48 ≤ d ∧ d ≤ 53)) (s : State) (c : Nat) (w : QWord) :
    reserving sp s c w = s := by
  unfold reserving
  split
  · rename_i d hd
    rw [if_neg]
    simp only [Bool.and_eq_true, decide_eq_true_eq]
    exact h d hd
  · rfl

/-- What a word does as it passes capture leaves its place in the queue to it: the act works on the context whatever words
wait in it, and leaves the queue, the limiters, the commands, what is being spilled and the order of the word as they are. -/
structure Acts (act : State → Nat → QWord → State) (t : State) (c : Nat) (v : QWord) (y z : Ctx) : Prop where
  sets : act (t.setCtx c { y with qs := [v] }) c v = (act t c v).setCtx c { z with qs := [v] }
  same : (act t c v).setCtx c z = act t c v
  qs : z.qs = y.qs
  fly : z.fly = y.fly
  me : z.me = y.me
  held : z.held = y.held
  order : v.seqr = none ∨ (z.seqrs = y.seqrs ∧ z.tickets = y.tickets)
  net : (act t c v).net = t.net
  cmds : (act t c v).cmds = t.cmds
  opens : (act t c v).snoop = t.snoop ∧ (act t c v).picks = t.picks
  spilling : (t.core c).spilling = [] → ((act t c v).core c).spilling = []

theorem Acts.ctx {act : State → Nat → QWord → State} {t : State} {c : Nat} {v : QWord} {y z : Ctx} (h : Acts act t c v y z) :
    (act t c v).ctx c = some z := by
  rw [← h.same]; exact State.ctx_setCtx_self _ _ _

/-- A word that only changes its context as it passes. -/
theorem Acts.change {g : QWord → Ctx → Ctx} {t : State} {c : Nat} {v : QWord} {y : Ctx} (hy : t.ctx c = some y)
    (hs : g v { y with qs := [v] } = { g v y with qs := [v] }) (hq : (g v y).qs = y.qs) (hf : (g v y).fly = y.fly) (hm : (g v y).me = y.me)
    (hh : (g v y).held = y.held)
    (ho : v.seqr = none ∨ ((g v y).seqrs = y.seqrs ∧ (g v y).tickets = y.tickets)) :
    Acts (fun s c v => s.modCtx c (g v)) t c v y (g v y) := by
  refine ⟨?_, ?_, hq, hf, hm, hh, ho, State.modCtx_net _ _ _, State.modCtx_cmds _ _ _, ⟨State.modCtx_snoop _ _ _, State.modCtx_picks _ _ _⟩, ?_⟩
  · show (t.setCtx c { y with qs := [v] }).modCtx c (g v) = (t.modCtx c (g v)).setCtx c { g v y with qs := [v] }
    rw [State.modCtx_setCtx, State.modCtx_of _ hy, State.setCtx_setCtx, hs]
  · show (t.modCtx c (g v)).setCtx c (g v y) = t.modCtx c (g v)
    rw [State.modCtx_of _ hy, State.setCtx_setCtx]
  · intro h; rw [State.core_modCtx_self]; exact h

theorem Acts.modCtx {g : QWord → Ctx → Ctx} {t : State} {c : Nat} {v : QWord} {y : Ctx} (hy : t.ctx c = some y) (hg : Blind (g v))
    (ho : v.seqr = none ∨ ((g v y).seqrs = y.seqrs ∧ (g v y).tickets = y.tickets)) :
    Acts (fun s c v => s.modCtx c (g v)) t c v y (g v y) :=
  Acts.change hy (hg.apart _ _) (hg.qs y) (hg.fly y) (hg.me y) (hg.held y) ho

theorem entered_same {s : State} {x y : Ctx} {sp : CapSpec} {w : QWord} {pops : List Nat} (hx : s.ctx s.cur = some x)
    (hy : (s.entered x sp w pops).ctx s.cur = some y) : (s.entered x sp w pops).setCtx s.cur y = s.entered x sp w pops := by
  obtain ⟨y0, hy0, -⟩ := popPorts_ctx s.cur pops (endStall s s.cur x) x (by rw [endStall_ctx]; exact hx)
  have e : s.entered x sp w pops = (s.popped x pops).setCtx s.cur _ := State.modCtx_of _ hy0 _
  rw [e] at hy
  rw [State.ctx_setCtx_self, Option.some.injEq] at hy
  rw [e, hy, State.setCtx_setCtx]

/-- The context in which a word acts as it passes, its push slot reserved: it can be set with any words waiting. -/
theorem reserved_ctx {s : State} {x y : Ctx} {sp : CapSpec} {w v : QWord} {pops : List Nat} (hx : s.ctx s.cur = some x)
    (hy : (s.entered x sp w pops).ctx s.cur = some y) :
    ∃ z, PushLeft y z ∧ (reserving sp (s.entered x sp w pops) s.cur v).ctx s.cur = some z ∧
      Reserved s.cur (s.entered x sp w pops) (reserving sp (s.entered x sp w pops) s.cur v) ∧
      (reserving sp (s.entered x sp w pops) s.cur v).setCtx s.cur z = reserving sp (s.entered x sp w pops) s.cur v ∧
      ∀ q, reserving sp ((s.entered x sp w pops).setCtx s.cur { y with qs := q }) s.cur v =
        (reserving sp (s.entered x sp w pops) s.cur v).setCtx s.cur { z with qs := q } := by
  obtain ⟨z, t, hl, hr, hq⟩ := reserving_setCtx hy sp v
  have hzq : z.qs = y.qs := by obtain ⟨_, _, rfl⟩ := hl; rfl
  have e := hq y.qs
  rw [show ({ y with qs := y.qs } : Ctx) = y from rfl, entered_same hx hy, ← hzq, show ({ z with qs := z.qs } : Ctx) = z from rfl] at e
  refine ⟨z, hl, by rw [e]; exact State.ctx_setCtx_self _ _ _, ?_, by rw [e, State.setCtx_setCtx], fun q => ?_⟩
  · rw [e]; exact ⟨hr.net, hr.cmds, hr.opens, by rw [State.core_setCtx_self]; exact hr.spilling⟩
  · rw [hq, e, State.setCtx_setCtx]

theorem reserving_same {s : State} {x y : Ctx} {sp : CapSpec} {w v : QWord} {pops : List Nat} (hx : s.ctx s.cur = some x)
    (hy : (reserving sp (s.entered x sp w pops) s.cur v).ctx s.cur = some y) :
    (reserving sp (s.entered x sp w pops) s.cur v).setCtx s.cur y = reserving sp (s.entered x sp w pops) s.cur v := by
  obtain ⟨y0, hy0, hp⟩ := popPorts_ctx s.cur pops (endStall s s.cur x) x (by rw [endStall_ctx]; exact hx)
  have he : (s.entered x sp w pops).ctx s.cur = some _ :=
    (congrArg (fun t => State.ctx t s.cur) (State.modCtx_of (s.popped x pops) hy0 _)).trans (State.ctx_setCtx_self _ _ _)
  obtain ⟨z, -, hz, -, hs, -⟩ := reserved_ctx (v := v) hx he
  rw [hy] at hz; cases hz
  exact hs

/-- A word of an idle strand that passes its checks starts, and runs in the state it has left. -/
theorem issue_passes {i : Instr} {sp : CapSpec} {chk : State → Nat → Ctx → QWord → Chk} {act : State → Nat → QWord → State}
    {run : RunFn} {s u : State} {x y z : Ctx} {vals : List Dword} {pops : List Nat} {w v : QWord} (h : Idle s x)
    (hp : Passes s x i sp chk vals pops w) (hv : v = (x.enrol sp (s.tenant x.tenant).scap w).2)
    (hu : u = touchUnits (passing sp act (s.entered x sp w pops) s.cur v) s.cur x.me w.units)
    (hy : (reserving sp (s.entered x sp w pops) s.cur v).ctx s.cur = some y)
    (hA : Acts act (reserving sp (s.entered x sp w pops) s.cur v) s.cur v y z) :
    ∃ s0, issue i sp chk act run s =
      .next (afterRun s0 s.cur ((passing sp act (s.entered x sp w pops) s.cur v).placed s.cur x.tenant v)
        (run u s.cur ((passing sp act (s.entered x sp w pops) s.cur v).placed s.cur x.tenant v))) := by
  obtain ⟨y1, hy1, hyq, hyf, hyme, -, -⟩ := commit_enters h.resident sp w pops act h.queues h.started
  obtain ⟨y2, hleft, hy2, hres, -, hset⟩ := reserved_ctx (v := v) h.resident hy1
  rw [hy] at hy2; cases hy2
  obtain ⟨-, fpfx, fblk, funits, fgate, -, -, -⟩ := Ctx.enrol_fields x sp (s.tenant x.tenant).scap w
  rw [← hv] at fpfx fblk funits fgate
  obtain ⟨y0, hy0, hpl⟩ := popPorts_ctx s.cur pops (endStall s s.cur x) x (by rw [endStall_ctx]; exact h.resident)
  have hent : s.entered x sp w pops = (s.popped x pops).setCtx s.cur y1 := by
    have e : s.entered x sp w pops = (s.popped x pops).setCtx s.cur _ := State.modCtx_of _ hy0 _
    rw [e, State.ctx_setCtx_self, Option.some.injEq] at hy1
    rw [e, hy1]
  have hyeq : y1 = (if sp.jump then (y0.enrol sp (s.tenant x.tenant).scap w).1.pastAt (takesSr sp w)
      else (y0.enrol sp (s.tenant x.tenant).scap w).1.past (takesSr sp w)).sawM sp.eng := by
    have e : s.entered x sp w pops = (s.popped x pops).setCtx s.cur _ := State.modCtx_of _ hy0 _
    rw [e, State.ctx_setCtx_self, Option.some.injEq] at hy1
    exact hy1.symm
  have hys : y.seqrs = (x.enrol sp (s.tenant x.tenant).scap w).1.seqrs := by
    obtain ⟨_, _, rfl⟩ := hleft
    show y1.seqrs = _
    rw [hyeq]; cases sp.jump <;> simp [Ctx.enrol_seqrs hpl]
  have hyt : y.tickets = (x.enrol sp (s.tenant x.tenant).scap w).1.tickets := by
    have : y0.tickets = x.tickets := by obtain ⟨q, ch, rfl⟩ := hpl; rfl
    obtain ⟨_, _, rfl⟩ := hleft
    show y1.tickets = _
    rw [hyeq]; cases sp.jump <;> simp [this]
  have hyh : y.held = x.held := by
    have : y0.held = x.held := by obtain ⟨q, ch, rfl⟩ := hpl; rfl
    obtain ⟨_, _, rfl⟩ := hleft
    show y1.held = _
    rw [hyeq]; cases sp.jump <;> simp [this]
  have hq0 : y.qs = [] ∧ y.fly = [] ∧ y.me = x.me := by obtain ⟨_, _, rfl⟩ := hleft; exact ⟨hyq, hyf, hyme⟩
  have hzt : z.tenant = x.tenant := congrArg Owner.tenant (hA.me.trans hq0.2.2)
  have hopn : (s.entered x sp w pops).snoop = s.snoop ∧ (s.entered x sp w pops).picks = s.picks := by
    rw [hent]; exact popped_open s x pops
  obtain ⟨s0, hi⟩ := issue_acts (act := act) (run := run) (z := z) (v := v) h hp.priv hp.dest hp.credit hp.read
    hp.handle hp.check hp.room ⟨hp.same.2.1, hp.same.2.2.1⟩ hv.symm
    (by
      intro y3 hy3 _ _ _
      rw [hy1] at hy3; cases hy3
      rw [passing_eq, hset, hA.sets]
      rfl)
    hA.same (by rw [hA.qs, hq0.1]) (by rw [hA.fly, hq0.2.1]) hzt
    (by
      have ho := hp.order
      have ha := hp.apart
      rw [← hv] at ho ha
      exact hA.order.imp id fun o => ⟨ho, o.1.trans hys, o.2.trans hyt, hA.held.trans hyh, ha⟩)
    ⟨hA.opens.1.trans (hres.opens.1.trans hopn.1), hA.opens.2.trans (hres.opens.2.trans (hopn.2.trans h.picks))⟩
    (by
      rw [passing_eq, State.limited_net (hA.net.trans hres.net), hent, State.limited_net (State.setCtx_net _ _ _)]
      exact popped_limited h pops _)
    (by
      rcases hp.gate with hg | hg
      · exact State.gateOk_none (fgate.trans hg)
      · have hc : ((passing sp act (s.entered x sp w pops) s.cur v).setCtx s.cur { z with qs := [v] }).cmds = [] := by
          rw [State.setCtx_cmds, passing_eq, hA.cmds, hres.cmds, hent, State.setCtx_cmds]
          exact popped_cmds hg.1 x pops
        exact gateOk_quiet hc rfl (hA.fly.trans hq0.2.1)
          (by rw [show ({ z with qs := [v] } : Ctx).held = x.held from hA.held.trans hyh, fgate]; exact hg.2))
    (by exact hA.spilling (hres.spilling.trans (by rw [hent, State.core_setCtx_self]; exact popped_spilling h pops)))
  refine ⟨s0, ?_⟩
  rw [hi, hu, hA.me, hq0.2.2, funits, hzt]

/-- What the captured word carries (R35, R198). -/
theorem Passes.word {s : State} {x : Ctx} {i : Instr} {sp : CapSpec} {chk : State → Nat → Ctx → QWord → Chk} {vals : List Dword}
    {pops : List Nat} {w v : QWord} (h : Idle s x) (hp : Passes s x i sp chk vals pops w)
    (hv : v = (x.enrol sp (s.tenant x.tenant).scap w).2) :
    v.pfx.signal = 0 ∧ (sp.mem = false → v.seqr = none) ∧ (sp.mem = true → ∃ j, v.seqr = some j) := by
  obtain ⟨-, fpfx, -, -, -, -, -, -⟩ := Ctx.enrol_fields x sp (s.tenant x.tenant).scap w
  rw [← hv] at fpfx
  refine ⟨by rw [fpfx, hp.same.2.1]; exact h.signal, ?_, ?_⟩
  · intro hm; rw [hv]; unfold Ctx.enrol; simp only [hm, Bool.false_eq_true, if_false]; exact hp.same.2.2.2.1
  · intro hm; rw [hv]; unfold Ctx.enrol; simp only [hm, if_true]; exact ⟨_, rfl⟩

/-- The law of the tables of words: where the run leaves what the row says, the word completes. -/
theorem word_done {r : WordSpec} {run : RunFn} {i : Instr} {s u : State} {x y : Ctx} {vals : List Dword} {pops : List Nat}
    {w v : QWord} (h : Idle s x) (hp : Passes s x i r.sp r.chk vals pops w) (hv : v = (x.enrol r.sp (s.tenant x.tenant).scap w).2)
    (hu : u = touchUnits (passing r.sp r.act (s.entered x r.sp w pops) s.cur v) s.cur x.me w.units)
    (hA : ∀ y0, (reserving r.sp (s.entered x r.sp w pops) s.cur v).ctx s.cur = some y0 →
      ∃ z, Acts r.act (reserving r.sp (s.entered x r.sp w pops) s.cur v) s.cur v y0 z)
    (hr : ∀ s0 f, v.pfx.signal = 0 → f = (passing r.sp r.act (s.entered x r.sp w pops) s.cur v).placed s.cur x.tenant v →
      afterRun s0 s.cur f (run u s.cur f) = r.out u s.cur y v) :
    issue i r.sp r.chk r.act run s = .next (r.out u s.cur y v) := by
  obtain ⟨y1, hy1, -⟩ := commit_enters h.resident r.sp w pops r.act h.queues h.started
  obtain ⟨y0, -, hy0, -⟩ := reserved_ctx (v := v) h.resident hy1
  obtain ⟨z, hz⟩ := hA y0 hy0
  obtain ⟨s0, hi⟩ := issue_passes (run := run) h hp hv hu hy0 hz
  rw [hi, hr s0 _ (Passes.word h hp hv).1 rfl]

/-- The same for a word other than `ldg` and `stg`, whose named accesses stand at its capture. -/
theorem word_still {r : WordSpec} {run : RunFn} {i : Instr} {s u : State} {x y : Ctx} {vals : List Dword} {pops : List Nat}
    {w v : QWord} (h : Idle s x) (hp : Passes s x i r.sp r.chk vals pops w) (hv : v = (x.enrol r.sp (s.tenant x.tenant).scap w).2)
    (hu : u = touchUnits (passing r.sp r.act (s.entered x r.sp w pops) s.cur v) s.cur x.me w.units)
    (hA : ∀ y0, (reserving r.sp (s.entered x r.sp w pops) s.cur v).ctx s.cur = some y0 →
      ∃ z, Acts r.act (reserving r.sp (s.entered x r.sp w pops) s.cur v) s.cur v y0 z)
    (hst : i.still = true)
    (hr : ∀ s0, v.pfx.signal = 0 → afterRun s0 s.cur v (run u s.cur v) = r.out u s.cur y v) :
    issue i r.sp r.chk r.act run s = .next (r.out u s.cur y v) := by
  refine word_done h hp hv hu hA (fun s0 f hs hf => ?_)
  have hi : v.instr.still = true := by
    obtain ⟨-, -, -, -, -, -, -, fi⟩ := Ctx.enrol_fields x r.sp (s.tenant x.tenant).scap w
    rw [hv, fi, hp.same.1]; exact hst
  rw [hf, State.placed_still _ _ _ hi]
  exact hr s0 hs

theorem Acts.idle {t : State} {c : Nat} {v : QWord} {y : Ctx} (ht : t.setCtx c y = t) : Acts noAct t c v y y :=
  ⟨rfl, ht, rfl, rfl, rfl, rfl, .inr ⟨rfl, rfl⟩, rfl, rfl, ⟨rfl, rfl⟩, fun h => h⟩

/-- A word that does nothing as it passes capture. -/
theorem acts_none {s : State} {x : Ctx} {sp : CapSpec} {w v : QWord} {pops : List Nat} (h : Idle s x) (y0 : Ctx)
    (hy : (reserving sp (s.entered x sp w pops) s.cur v).ctx s.cur = some y0) :
    ∃ z, Acts noAct (reserving sp (s.entered x sp w pops) s.cur v) s.cur v y0 z :=
  ⟨y0, Acts.idle (reserving_same h.resident hy)⟩

/-- A word without an operation number that changes its context as it passes capture. -/
theorem acts_ctx {t : State} {c : Nat} {v : QWord} {g : QWord → Ctx → Ctx} (hg : Blind (g v)) (ho : v.seqr = none) (y0 : Ctx)
    (hy : t.ctx c = some y0) : ∃ z, Acts (fun s c v => s.modCtx c (g v)) t c v y0 z :=
  ⟨_, Acts.modCtx hy hg (.inl ho)⟩

theorem State.modCore_setCtx (s : State) (c : Nat) (x : Ctx) {f : Core → Core} (hf : ∀ k r, f { k with res := r } = { f k with res := r }) :
    (s.setCtx c x).modCore c f = (s.modCore c f).setCtx c x := by
  unfold State.modCore State.setCtx
  rw [State.setCore_setCore, State.setCore_setCore, State.core_setCore_self, State.core_setCore_self, hf]

/-- A word that only changes its core, beside its context, as it passes. -/
theorem acts_core {t : State} {c : Nat} {v : QWord} {act : State → Nat → QWord → State} {y : Ctx} {f : Core → Core}
    (ht : t.setCtx c y = t) (ha : ∀ q, act (t.setCtx c { y with qs := q }) c v = (t.setCtx c { y with qs := q }).modCore c f)
    (hf : ∀ k r, f { k with res := r } = { f k with res := r }) (hs : ∀ k, k.spilling = [] → (f k).spilling = []) :
    Acts act t c v y y := by
  have h0 : act t c v = t.modCore c f := by have := ha y.qs; rwa [show ({ y with qs := y.qs } : Ctx) = y from rfl, ht] at this
  refine ⟨?_, ?_, rfl, rfl, rfl, rfl, .inr ⟨rfl, rfl⟩, by rw [h0]; rfl, by rw [h0]; rfl, by rw [h0]; exact ⟨rfl, rfl⟩, ?_⟩
  · rw [ha, h0, State.modCore_setCtx t c _ hf]
  · rw [h0]
    conv => rhs; rw [← ht]
    exact (State.modCore_setCtx t c y hf).symm
  · intro h; rw [h0, State.core_modCore_self]; exact hs _ h

/-! ## Units touched as a word passes -/

theorem State.putByte_setCtx (s : State) (c a : Nat) (x : Ctx) (b : Byte) : (s.setCtx c x).putByte a b = (s.putByte a b).setCtx c x := rfl

theorem State.writeN_setCtx (c n : Nat) (x : Ctx) : ∀ (s : State) (a v : Nat), (s.setCtx c x).writeN a n v = (s.writeN a n v).setCtx c x := by
  induction n with
  | zero => intro s a v; rfl
  | succ n ih => intro s a v; exact ih (s.putByte a (BitVec.ofNat 8 v)) (a + 1) (v / 256)

theorem spillRows_setCtx (c u : Nat) (x : Ctx) (rs : List Nat) : ∀ (s : State) (a : Nat),
    spillRows (s.setCtx c x) c u a rs = (spillRows s c u a rs).setCtx c x := by
  induction rs with
  | nil => intro s a; rfl
  | cons r rs ih =>
    intro s a
    simp only [Machine.spillRows, State.core_setCtx_self]
    generalize (if (64 ≤ u && u < 80) = true then 512 else 128) = n
    have g : ∀ (v m : Nat) (b : Bool), (if b = true then (((s.setCtx c x).writeN a n v).cleanMem a n).poisonMem a n
        else ((s.setCtx c x).writeN a n v).cleanMem a n) = (if b = true then ((s.writeN a n v).cleanMem a n).poisonMem a n
        else (s.writeN a n v).cleanMem a n).setCtx c x := by
      intro v m b
      rw [State.writeN_setCtx]
      cases b <;> rfl
    refine Eq.trans (congrArg (fun t => spillRows t c u _ rs) ?_) (ih _ _)
    exact g _ 0 _

theorem State.readN_setCtx (s : State) (c : Nat) (x : Ctx) (n : Nat) : ∀ a, (s.setCtx c x).readN a n = s.readN a n := by
  induction n with
  | zero => intro a; rfl
  | succ n ih => intro a; simp only [State.readN]; rw [ih]; rfl

theorem Core.setUnitRow_res (k : Core) (u : Nat) (v : Nat × Nat × Bool) (r : Option Ctx) :
    Core.setUnitRow { k with res := r } u v = { k.setUnitRow u v with res := r } := by
  simp only [Core.setUnitRow]
  split
  · rfl
  · split <;> rfl

theorem Core.setUnitRows_res (u : Nat) (r : Option Ctx) (vs : List (Nat × Nat × Bool)) : ∀ (k : Core),
    vs.foldl (fun r v => r.setUnitRow u v) { k with res := r } = { vs.foldl (fun r v => r.setUnitRow u v) k with res := r } := by
  induction vs with
  | nil => intro k; rfl
  | cons v vs ih => intro k; rw [List.foldl_cons, List.foldl_cons, Core.setUnitRow_res, ih]

theorem loadRows_setCtx (c u : Nat) (x : Ctx) (rs : List Nat) : ∀ (s : State) (a : Nat),
    loadRows (s.setCtx c x) c u a rs = (loadRows s c u a rs).setCtx c x := by
  induction rs with
  | nil => intro s a; rfl
  | cons r rs ih =>
    intro s a
    simp only [Machine.loadRows]
    refine Eq.trans (congrArg (fun t => loadRows t c u _ rs) ?_) (ih _ _)
    rw [State.readN_setCtx, show (s.setCtx c x).poisoned a = s.poisoned a from rfl]
    exact State.modCore_setCtx s c x (fun k _ => Core.setUnitRow_res k u _ _)

theorem Core.freeUnit_res (k : Core) (u : Nat) (r : Option Ctx) : Core.freeUnit { k with res := r } u = { k.freeUnit u with res := r } := by
  simp only [Core.freeUnit, Core.clearUnit]
  split
  · rfl
  · split <;> rfl

/-- Whether a unit is dead depends on the dead tiles and the tenant alone of the context that runs. -/
theorem Core.deadUnit_res {k : Core} {x y : Ctx} (hk : k.res = some y) (hd : x.dead = y.dead) (ht : x.tenant = y.tenant)
    (o : Owner) (u : Nat) : Core.deadUnit { k with res := some x } o u = k.deadUnit o u := by
  unfold Core.deadUnit Core.ctxFor
  cases o.sus
  · by_cases h : y.tenant = o.tenant <;> simp [hk, Option.filter, ht, h, hd]
  · rfl

theorem State.spillBit_setCtx (s : State) (c d : Nat) (x : Ctx) (o : Owner) (u : Nat) (b : Bool) :
    (s.setCtx d x).spillBit c o u b = (s.spillBit c o u b).setCtx d x := by
  unfold State.spillBit
  simp only
  split <;> rfl

/-- Touching a unit sees of the context that runs only its tenant and its dead tiles. -/
theorem touchUnit_setCtx {s : State} {c : Nat} {x y : Ctx} (hy : s.ctx c = some y) (hd : x.dead = y.dead) (hn : x.tenant = y.tenant)
    (me : Owner) (u : Nat) : touchUnit (s.setCtx c x) c me u = (touchUnit s c me u).setCtx c x := by
  have ht : ∀ {s : State}, s.ctx c = some y → takeUnit (s.setCtx c x) c me u = (takeUnit s c me u).setCtx c x := by
    intro s hy
    unfold takeUnit
    simp only [State.core_setCtx_self, Core.deadUnit_res hy hd hn]
    rw [show Core.beside { s.core c with res := some x } me = (s.core c).beside me from rfl,
      show Core.savedOf { s.core c with res := some x } me.tenant = (s.core c).savedOf me.tenant from rfl]
    split
    · rw [State.modCore_setCtx s c x (fun k r => by rw [Core.setUnitRows_res]), State.modCore_setCtx _ c x (fun _ _ => rfl)]
    · split
      · rw [show slotAt (s.setCtx c x) me.tenant c (unitOff u) = slotAt s me.tenant c (unitOff u) from rfl]
        split
        · rw [State.spillBit_setCtx, State.modCore_setCtx _ c x (fun _ _ => rfl), State.modCore_setCtx _ c x (fun _ _ => rfl)]
        · rw [loadRows_setCtx, State.spillBit_setCtx, State.modCore_setCtx _ c x (fun _ _ => rfl),
            State.modCore_setCtx _ c x (fun _ _ => rfl)]
      · rw [State.modCore_setCtx _ c x (fun _ _ => rfl)]
  have hsp : spillUnit (s.setCtx c x) c u = (spillUnit s c u).setCtx c x := by
    unfold spillUnit
    simp only [State.core_setCtx_self, Core.deadUnit_res hy hd hn]
    split
    · rfl
    · rename_i o _
      rw [show Core.beside { s.core c with res := some x } o = (s.core c).beside o from rfl]
      split
      · exact State.modCore_setCtx s c x (fun k r => Core.freeUnit_res k u r)
      · split
        · exact State.modCore_setCtx s c x (fun k r => by rw [Core.freeUnit_res]; rfl)
        · rw [show slotAt (s.setCtx c x) o.tenant c (unitOff u) = slotAt s o.tenant c (unitOff u) from rfl, spillRows_setCtx, State.spillBit_setCtx]
          exact State.modCore_setCtx _ c x (fun k r => by rw [Core.freeUnit_res]; rfl)
  unfold touchUnit
  simp only [State.core_setCtx_self]
  split
  · split
    · rfl
    · rw [hsp]
      exact ht (((Kept1.spillUnit s c u).ctx c).trans hy)
  · exact ht hy

theorem touchUnits_setCtx {c : Nat} {x y : Ctx} (hd : x.dead = y.dead) (hn : x.tenant = y.tenant) (me : Owner) (us : List Nat) :
    ∀ {s : State}, s.ctx c = some y → touchUnits (s.setCtx c x) c me us = (touchUnits s c me us).setCtx c x := by
  induction us with
  | nil => intro s _; rfl
  | cons u us ih =>
    intro s hy
    simp only [touchUnits]
    rw [touchUnit_setCtx hy hd hn, ih (((Kept1.touchUnit s c me u).ctx c).trans hy)]

/-- A word that touches units and then changes its context as it passes (R184, R312). -/
theorem acts_record {t : State} {c : Nat} {v : QWord} {y : Ctx} {g : QWord → Ctx → Ctx} (hg : Blind (g v)) (hy : t.ctx c = some y)
    (ho : v.seqr = none ∨ ((g v y).seqrs = y.seqrs ∧ (g v y).tickets = y.tickets)) :
    ∃ z, Acts (recordAct g) t c v y z := by
  have e : ∀ (z : Ctx), z.me = y.me → z.dead = y.dead → recordAct g (t.setCtx c z) c v =
      (touchUnits t c y.me [spadUnitOf v.pa]).setCtx c (g v z) := by
    intro z hz hd
    unfold recordAct touchRecord
    simp only [State.ctx_setCtx_self]
    rw [hz, touchUnits_setCtx hd (congrArg Owner.tenant hz) _ _ hy, State.modCtx_setCtx]
  have e0 : recordAct g t c v = (touchUnits t c y.me [spadUnitOf v.pa]).setCtx c (g v y) := by
    unfold recordAct touchRecord
    simp only [hy]
    exact State.modCtx_of _ (by rw [touchUnits_ctx]; exact hy) _
  have k := Kept1.touchUnits c y.me [spadUnitOf v.pa] t
  refine ⟨g v y, ?_, ?_, hg.qs y, hg.fly y, hg.me y, hg.held y, ho, ?_, ?_, ?_, ?_⟩
  · rw [e { y with qs := [v] } rfl rfl, e0, State.setCtx_setCtx, hg.apart]
  · rw [e0, State.setCtx_setCtx]
  · rw [e0, State.setCtx_net, k.net]
  · rw [e0, State.setCtx_cmds, k.cmds]
  · rw [e0]; exact ⟨k.snoop, by rw [State.setCtx_picks, k.picks]⟩
  · intro h; rw [e0, State.core_setCtx_self]; exact touchUnits_spilling _ _ h

/-- A CSR write as it passes (R99). -/
theorem acts_csr {t : State} {c n : Nat} {v : QWord} {y : Ctx} (hy : t.ctx c = some y) (ht : t.setCtx c y = t) (ho : v.seqr = none) :
    ∃ z, Acts (fun s k w => csrWrite s k n (op0 w)) t c v y z := by
  have hb : ∀ (u : Nat) (d : Dword), Blind (fun x : Ctx =>
      if n = 0x000 then { x with rnd := if 5 ≤ u % 8 then 0 else u % 8 }
      else if n = 0x001 then { x with ftz := u % 4 }
      else if n = 0x002 then { x with step := u % 65536 }
      else if n = 0x003 then { x with sacage := u % 65536 }
      else if n = 0x004 then { x with gbase := bits u 7 13 * 128 }
      else if n = 0x005 then { x with gpitch := bits u 7 13 * 128 }
      else if n = 0x006 then { x with swz := u % 2 ^ 18 }
      else if n = 0x007 then { x with bfxsel := bits u 4 3 * 16 + u % 8 }
      else if n ≤ 0x00F then { x with bfx := Map.put 0 x.bfx (8 * (x.bfxsel % 8) + (n - 8)) (bfxKeep (n - 8) d) }
      else if n = 0x010 then { x with rpbase := d }
      else if n = 0x011 then { x with srseed := d.setWidth 32, srctr := 0 }
      else if n = 0x012 then { x with qtmo := u % 2 ^ 32 }
      else if n = 0x800 then { x with epc := u / 4 * 4 }
      else if n = 0x801 then { x with cause := u % 256 }
      else if n = 0x802 then { x with tval := d }
      else { x with pstat := setBits x.pstat 6 1 (bits u 6 1) }) := by
    intro u d
    repeat' apply Blind.ite
    all_goals exact ⟨fun _ => rfl, fun _ => rfl, fun _ => rfl, fun _ => rfl, fun _ _ => rfl⟩
  by_cases hn : n = 0x804
  · subst hn
    refine ⟨y, acts_core (f := fun k => { k with tvec := Map.put 0 k.tvec y.tenant ((op0 v).toNat / 4 * 4) }) ht ?_ (fun _ _ => rfl)
      (fun _ h => h)⟩
    intro q
    simp only [csrWrite, if_true, State.ctx_setCtx_self]
  · have e : ∀ u : State, csrWrite u c n (op0 v) = u.modCtx c _ := fun u => if_neg hn
    obtain ⟨z, a1, a2, a3, a4, a5, ah, a6, a7, a8, a0, a9⟩ := acts_ctx (t := t) (v := v) (g := fun v => _) (hb (op0 v).toNat (op0 v)) ho y hy
    have a := e t
    refine ⟨z, ?_, ?_, a3, a4, a5, ah, a6, ?_, ?_, ?_, fun h => ?_⟩
    · show csrWrite _ c n (op0 v) = (csrWrite t c n (op0 v)).setCtx c _
      rw [a]; exact (e _).trans a1
    · show (csrWrite t c n (op0 v)).setCtx c z = csrWrite t c n (op0 v)
      rw [a]; exact a2
    · show (csrWrite t c n (op0 v)).net = t.net
      rw [a]; exact a7
    · show (csrWrite t c n (op0 v)).cmds = t.cmds
      rw [a]; exact a8
    · show (csrWrite t c n (op0 v)).snoop = t.snoop ∧ (csrWrite t c n (op0 v)).picks = t.picks
      rw [a]; exact a0
    · show ((csrWrite t c n (op0 v)).core c).spilling = []
      rw [a]; exact a9 h

/-- How a word's act is shown to leave the queue to it: one change of the machine beside the context, one of the context. -/
theorem Acts.build {act : State → Nat → QWord → State} {t u : State} {c : Nat} {v : QWord} {y : Ctx} {g : Ctx → Ctx}
    (ht : t.setCtx c y = t) (ha : ∀ q, act (t.setCtx c { y with qs := q }) c v = u.setCtx c (g { y with qs := q }))
    (hs : g { y with qs := [v] } = { g y with qs := [v] }) (hq : (g y).qs = y.qs) (hf : (g y).fly = y.fly) (hm : (g y).me = y.me)
    (hh : (g y).held = y.held)
    (ho : v.seqr = none ∨ ((g y).seqrs = y.seqrs ∧ (g y).tickets = y.tickets)) (hn : u.net = t.net) (hc : u.cmds = t.cmds)
    (hw : u.snoop = t.snoop ∧ u.picks = t.picks) (hp : (t.core c).spilling = [] → (u.core c).spilling = []) : Acts act t c v y (g y) := by
  have h0 := ha y.qs
  rw [show ({ y with qs := y.qs } : Ctx) = y from rfl, ht] at h0
  refine ⟨?_, ?_, hq, hf, hm, hh, ho, ?_, ?_, ?_, ?_⟩
  · rw [ha, hs, h0, State.setCtx_setCtx]
  · rw [h0, State.setCtx_setCtx]
  · rw [h0]; exact hn
  · rw [h0]; exact hc
  · rw [h0]; exact hw
  · intro h; rw [h0, State.core_setCtx_self]; exact hp h

/-- Nothing waits or is under way where a word of an idle strand acts as it passes. -/
theorem reserving_empty {s : State} {x y : Ctx} {sp : CapSpec} {w v : QWord} {pops : List Nat} (h : Idle s x)
    (hy : (reserving sp (s.entered x sp w pops) s.cur v).ctx s.cur = some y) : y.qs = [] ∧ y.fly = [] := by
  obtain ⟨y0, hy0, h1, h2, -⟩ := commit_enters h.resident sp w pops noAct h.queues h.started
  obtain ⟨z, hl, hz, -⟩ := reserved_ctx (sp := sp) (v := v) h.resident hy0
  rw [hy] at hz; cases hz
  obtain ⟨_, _, rfl⟩ := hl
  exact ⟨h1, h2⟩

/-- Which sequencer is free does not depend on a word without covers (R219). -/
theorem State.freeSeqr_qs {s : State} {c : Nat} {y : Ctx} {v : QWord} (h : y.qs = []) (hv : v.covers = []) :
    (s.setCtx c { y with qs := [v] }).freeSeqr c { y with qs := [v] } = s.freeSeqr c y := by
  unfold State.freeSeqr State.seqrFree
  simp only [h, List.any_cons, List.any_nil, hv, Bool.or_false, State.core_setCtx_self]
  rfl

theorem Ctx.takeSeqr_with_qs (y : Ctx) (q : List QWord) (i : Option Nat) (d : Nat) (pre : List Pre) (tix : List Nat) :
    Ctx.takeSeqr { y with qs := q } i d pre tix = { y.takeSeqr i d pre tix with qs := q } := by
  unfold Ctx.takeSeqr
  split <;> rfl

theorem Ctx.takeSeqr_kept (y : Ctx) (i : Option Nat) (d : Nat) (pre : List Pre) (tix : List Nat) :
    (y.takeSeqr i d pre tix).qs = y.qs ∧ (y.takeSeqr i d pre tix).fly = y.fly ∧ (y.takeSeqr i d pre tix).me = y.me := by
  unfold Ctx.takeSeqr
  split <;> exact ⟨rfl, rfl, rfl⟩

/-- A capped scope is noted beside the context's sticky bit (R213). -/
theorem noteCap_setCtx (t : State) (c k : Nat) (x : Ctx) : noteCap (t.setCtx c x) c k =
    (if capped t x k then t.count c evSCOPECAP 1 else t).setCtx c (if capped t x k then x.stick stSCOPECAP else x) := by
  unfold noteCap
  simp only [State.ctx_setCtx_self]
  rw [show capped (t.setCtx c x) x k = capped t x k from rfl]
  split
  · rw [State.modCtx_setCtx]
    exact State.modCore_setCtx t c _ (f := fun q => q.count evSCOPECAP 1) (fun _ _ => rfl)
  · rfl

/-! ## Translation does not look at the context that runs -/

theorem walkFrom_setCtx (s : State) (c : Nat) (x : Ctx) (t : Tenant) (va : Nat) : ∀ (left table shift width : Nat),
    walkFrom (s.setCtx c x) t va table left shift width = walkFrom s t va table left shift width := by
  intro left
  induction left with
  | zero => intro table shift width; rfl
  | succ n ih =>
    intro table shift width
    simp only [walkFrom, State.readN_setCtx, ih]
    rfl

theorem translate_setCtx (s : State) (c : Nat) (x : Ctx) (tid va : Nat) (write : Bool) :
    translate (s.setCtx c x) tid va write = translate s tid va write := by
  have h : walk (s.setCtx c x) tid va = walk s tid va := by unfold walk; rw [walkFrom_setCtx]; rfl
  unfold translate; rw [h]

theorem pinRange_setCtx (s : State) (c : Nat) (x : Ctx) (tid sl hi n : Nat) : ∀ (a : Nat) (m : Map Nat),
    pinRange (s.setCtx c x) tid sl hi n a m = pinRange s tid sl hi n a m := by
  induction n with
  | zero => intro a m; rfl
  | succ n ih => intro a m; simp only [pinRange, translate_setCtx, ih]

theorem pinAll_setCtx (s : State) (c : Nat) (x : Ctx) (tid : Nat) (g : Rec512) (sls : List Nat) : ∀ (m : Map Nat),
    pinAll (s.setCtx c x) tid g sls m = pinAll s tid g sls m := by
  induction sls with
  | nil => intro m; rfl
  | cons a l ih => intro m; simp only [pinAll, pinRange_setCtx, ih]

/-- A word that touches its record, then changes its tenant and its core, as it passes (R186). -/
theorem acts_global {act : State → Nat → QWord → State} {t : State} {c tid : Nat} {v : QWord} {y : Ctx} {f : Tenant → Tenant}
    {g : Core → Core} (hy : t.ctx c = some y) (ht : t.setCtx c y = t)
    (ha : ∀ q, act (t.setCtx c { y with qs := q }) c v = ((touchRecord (t.setCtx c { y with qs := q }) c v).modTenant tid f).modCore c g)
    (hf : ∀ k r, g { k with res := r } = { g k with res := r }) (hs : ∀ k, k.spilling = [] → (g k).spilling = []) :
    Acts act t c v y y := by
  have e : ∀ q, act (t.setCtx c { y with qs := q }) c v =
      (((touchUnits t c y.me [spadUnitOf v.pa]).modTenant tid f).modCore c g).setCtx c { y with qs := q } := by
    intro q
    rw [ha]
    unfold touchRecord
    simp only [State.ctx_setCtx_self]
    rw [show Ctx.me { y with qs := q } = y.me from rfl, touchUnits_setCtx (x := { y with qs := q }) (y := y) rfl rfl _ _ hy]
    exact State.modCore_setCtx ((touchUnits t c y.me [spadUnitOf v.pa]).modTenant tid f) c _ hf
  have e0 := e y.qs
  rw [show ({ y with qs := y.qs } : Ctx) = y from rfl, ht] at e0
  have k := Kept1.touchUnits c y.me [spadUnitOf v.pa] t
  refine ⟨?_, ?_, rfl, rfl, rfl, rfl, .inr ⟨rfl, rfl⟩, ?_, ?_, ?_, ?_⟩
  · rw [e, e0, State.setCtx_setCtx]
  · rw [e0, State.setCtx_setCtx]
  · rw [e0]; exact k.net
  · rw [e0]; exact k.cmds
  · rw [e0]; exact ⟨k.snoop, k.picks⟩
  · intro h
    rw [e0, State.core_setCtx_self]
    have h1 : (touchUnits t c y.me [spadUnitOf v.pa] |>.core c).spilling = [] := touchUnits_spilling _ _ h
    show ((((touchUnits t c y.me [spadUnitOf v.pa]).modTenant tid f).modCore c g).core c).spilling = []
    rw [State.core_modCore_self]
    exact hs _ h1

/-! ## How a row's run leaves the machine -/

/-- A word that is no operation and finishes. -/
theorem word_plain {r : WordSpec} {run : RunFn} {i : Instr} {s u : State} {x y : Ctx} {vals : List Dword} {pops : List Nat}
    {w v : QWord} (h : Idle s x) (hp : Passes s x i r.sp r.chk vals pops w) (hv : v = (x.enrol r.sp (s.tenant x.tenant).scap w).2)
    (hu : u = touchUnits (passing r.sp r.act (s.entered x r.sp w pops) s.cur v) s.cur x.me w.units)
    (hA : ∀ y0, (reserving r.sp (s.entered x r.sp w pops) s.cur v).ctx s.cur = some y0 →
      ∃ z, Acts r.act (reserving r.sp (s.entered x r.sp w pops) s.cur v) s.cur v y0 z) (hst : i.still = true)
    (hm : r.sp.mem = false) (hr : run u s.cur v = .done (r.out u s.cur y v)) : issue i r.sp r.chk r.act run s = .next (r.out u s.cur y v) :=
  word_still h hp hv hu hA hst (fun s0 hs => by rw [hr]; exact afterRun_done hs ((Passes.word h hp hv).2.1 hm))

/-- A memory operation that finishes has performed. -/
theorem word_mem {r : WordSpec} {run : RunFn} {i : Instr} {s u t : State} {x y : Ctx} {vals : List Dword} {pops : List Nat}
    {w v : QWord} (h : Idle s x) (hp : Passes s x i r.sp r.chk vals pops w) (hv : v = (x.enrol r.sp (s.tenant x.tenant).scap w).2)
    (hu : u = touchUnits (passing r.sp r.act (s.entered x r.sp w pops) s.cur v) s.cur x.me w.units)
    (hA : ∀ y0, (reserving r.sp (s.entered x r.sp w pops) s.cur v).ctx s.cur = some y0 →
      ∃ z, Acts r.act (reserving r.sp (s.entered x r.sp w pops) s.cur v) s.cur v y0 z) (hst : i.still = true)
    (hm : r.sp.mem = true) (hr : run u s.cur v = .done t) (ho : r.out u s.cur y v = t.performed s.cur v) :
    issue i r.sp r.chk r.act run s = .next (r.out u s.cur y v) :=
  word_still h hp hv hu hA hst (fun s0 hs => by
    obtain ⟨j, hj⟩ := (Passes.word h hp hv).2.2 hm
    rw [hr, ho, afterRun_performed hs hj]
    simp [State.performed, hj])

end Sys2Proof.Machine
end

