-- ==== Sys2Proof/Tests/Slice0.lean ====
section
/-! SUPPORT. The modeller's own tests: every constructor's word written out bit by bit from the forms of 04_encoding, the
ill-formed terms that WellFormed refuses, small single steps with results taken from the manual, and for every statement
with hypotheses a witness that meets them. -/

namespace Sys2Proof.Tests

set_option Elab.async false

open Sys2Proof.Machine

/-- `nop` and the integer group (R42-R44): each word is written bit by bit from its form. -/
theorem test_decode_integer : ([
    0b000_000000_00000000000000000000000,
    0b000_000001_000011_010010_110001_00000,
    0b000_000001_000011_010010_110001_00001,
    0b000_000001_000011_010010_110001_00010,
    0b000_000001_000011_010010_110001_00011,
    0b000_000001_000011_010010_110001_00100,
    0b000_000001_000011_010010_110001_00101,
    0b000_000001_000011_010010_110001_00110,
    0b000_000001_000011_010010_110001_00111,
    0b000_000001_000011_010010_110001_01000,
    0b000_000001_000011_010010_110001_01001,
    0b000_000001_000011_010010_110001_01010,
    0b000_000001_000011_010010_110001_01011,
    0b000_000001_000011_010010_110001_01100,
    0b000_000001_000011_010010_110001_01101,
    0b000_000001_000011_010010_110001_01110,
    0b000_000001_000011_010010_110001_01111,
    0b000_000001_000011_010010_110001_10000,
    0b000_000001_000011_010010_110001_10001,
    0b000_000001_000011_010010_110001_10010,
    0b000_000001_000011_010010_110001_10011,
    0b000_000001_000011_010010_110001_10100,
    0b000_000001_100000_101001_000000_10101,
    0b000_000001_100000_101001_000000_10110] : List Word).map decode = [
    .nop, .add 3 18 49, .sub 3 18 49, .mul 3 18 49, .mulh 3 18 49, .mulhu 3 18 49, .div 3 18 49, .divu 3 18 49, .rem 3 18 49, .remu 3 18 49, .and 3 18 49, .or 3 18 49, .xor 3 18 49, .andn 3 18 49, .shl 3 18 49, .shr 3 18 49, .sra 3 18 49, .rotl 3 18 49, .min 3 18 49, .max 3 18 49, .minu 3 18 49, .maxu 3 18 49, .clz 32 41, .ctz 32 41].map Except.ok := by decide +kernel

/-- `nop` and the integer group (R42-R44): each word is written bit by bit from its form. -/
theorem test_decode_integer2 : ([
    0b000_000001_100000_101001_000000_10111,
    0b000_000010_011111_000101_11001010101,
    0b000_000011_011111_000101_11001010101,
    0b000_000100_011111_000101_11001010101,
    0b000_000101_011111_000101_11001010101,
    0b000_000110_011111_000101_11001010101,
    0b000_000111_011111_000101_11001010101,
    0b000_001000_011111_000101_11001010101,
    0b000_001001_011111_000101_11001010101,
    0b000_001010_110110_000000_10000000000] : List Word).map decode = [
    .popc 32 41, .addi 31 5 0x655, .andi 31 5 0x655, .ori 31 5 0x655, .xori 31 5 0x655, .shli 31 5 0x655, .shri 31 5 0x655, .srai 31 5 0x655, .muli 31 5 0x655, .li 54 0x400].map Except.ok := by decide +kernel

/-- The FP32 group (R43, R44): each word is written bit by bit from its form. -/
theorem test_decode_float : ([
    0b000_001011_110111_111100_000111_00000,
    0b000_001011_110111_111100_000111_00001,
    0b000_001011_110111_111100_000111_00010,
    0b000_001011_110111_111100_000111_00011,
    0b000_001011_110111_111100_000111_00100,
    0b000_001011_110111_111100_000111_00101,
    0b000_001011_001001_100001_000000_00110,
    0b000_001011_001001_100001_000000_00111,
    0b000_001011_001001_100001_000000_01000,
    0b000_001011_001001_100001_000000_01001,
    0b000_001011_001001_100001_000000_01010] : List Word).map decode = [
    .fadd 55 60 7, .fsub 55 60 7, .fmul 55 60 7, .fdiv 55 60 7, .fmin 55 60 7, .fmax 55 60 7, .fabs 9 33, .fneg 9 33, .fsqrt 9 33, .fcvtFw 9 33, .fcvtWf 9 33].map Except.ok := by decide +kernel

/-- Compare, predicates, shape records, CSRs (R42-R44): each word is written bit by bit from its form. -/
theorem test_decode_state : ([
    0b000_001100_1100101_010100_101011_1001,
    0b000_001101_1000001_0000010_1111111_00,
    0b000_001101_1000001_0000010_1111111_01,
    0b000_001101_1000001_0000010_1111111_10,
    0b000_001101_1000001_0000010_1111111_11,
    0b000_001110_000001_110000_111000_11110,
    0b000_001111_000010_1100100_0_1_00000000,
    0b000_001111_111101_1100100_1_0_00000000,
    0b000_010000_110010_111111_00000000000,
    0b000_010001_011110_100001_00000000000,
    0b000_010010_011110_101000000001_00000,
    0b000_010011_111110_000000010001_00000] : List Word).map decode = [
    .cmp 101 20 43 9, .pand 65 2 127, .por 65 2 127, .pxor 65 2 127, .pandn 65 2 127, .csel 1 48 56 30, .pget 2 100 1, .pput 61 100 0, .tshape 50 63, .rdshape 30 33, .csrr 30 0xA01, .csrw 62 0x011].map Except.ok := by decide +kernel

/-- Scalar memory access (R42, R43): each word is written bit by bit from its form. -/
theorem test_decode_memory : ([
    0b000_010100_011101_100100_11111111110,
    0b000_010101_011101_100100_11111111110,
    0b000_010110_011101_100100_11111111110,
    0b000_010111_011101_100100_11111111110] : List Word).map decode = [
    .lds 29 36 0x7FE, .sts 29 36 0x7FE, .ldg 29 36 0x7FE, .stg 29 36 0x7FE].map Except.ok := by decide +kernel

/-- Control flow (R42, R43): each word is written bit by bit from its form. -/
theorem test_decode_flow : ([
    0b000_011000_1000010_1_101000000000001,
    0b000_011001_11111111111111111111110,
    0b000_011010_10000000000000000000001,
    0b000_011011_000000_011111_000000_00000,
    0b000_011100_10_100001_100000000000001,
    0b000_011101_01_110101_000000000000001,
    0b000_011110_00000000000000000000000] : List Word).map decode = [
    .br 66 1 0x5001, .jmp 0x7FFFFE, .call 0x400001, .jr 31, .loopT 2 33 0x4001, .loopRp 1 53 1, .endw].map Except.ok := by decide +kernel

/-- Binary, unary, compare, convert and four-operand tile words (R45, R46): each word is written bit by bit from its form. -/
theorem test_decode_tile : ([
    0b001_0000001_100001_000010_111100_0000,
    0b001_0000010_100001_000010_111100_0001,
    0b001_0000011_100001_000010_111100_0010,
    0b001_0000100_100001_000010_111100_0000,
    0b001_0000101_100001_000010_111100_0001,
    0b001_0000110_100001_000010_111100_0010,
    0b001_0000111_100001_000010_111100_0000,
    0b001_0001000_100001_000010_111100_0001,
    0b001_0001001_100001_000010_111100_0010,
    0b001_0001010_100001_000010_111100_0000,
    0b001_0001011_100001_000010_111100_0001,
    0b001_0001100_100001_000010_111100_0010,
    0b001_0010000_100010_000101_000000_0000,
    0b001_0010000_100010_000101_000000_0001,
    0b001_0010000_100010_000101_000000_0010,
    0b001_0010000_100010_000101_000000_0011,
    0b001_0010000_100010_000101_000000_0100,
    0b001_0010000_100010_000101_000000_0101,
    0b001_0010000_100010_000101_000000_0110,
    0b001_0010000_100010_000101_000000_0111,
    0b001_0010000_100010_000101_000000_1000,
    0b001_0010000_100010_000101_000000_1001,
    0b001_0010000_100010_000101_000000_1010,
    0b001_0010000_100010_000101_000000_1011] : List Word).map decode = [
    .vadd 33 2 60 0, .vsub 33 2 60 1, .vmul 33 2 60 2, .vdiv 33 2 60 0, .vmin 33 2 60 1, .vmax 33 2 60 2, .vand 33 2 60 0, .vor 33 2 60 1, .vxor 33 2 60 2, .vshl 33 2 60 0, .vshr 33 2 60 1, .vsra 33 2 60 2, .vabs 34 5, .vneg 34 5, .vrcp 34 5, .vrsqrt 34 5, .vsqrt 34 5, .vexp2 34 5, .vlog2 34 5, .vtanh 34 5, .vsigm 34 5, .vsilu 34 5, .vfloor 34 5, .vrnd 34 5].map Except.ok := by decide +kernel

/-- Binary, unary, compare, convert and four-operand tile words (R45, R46): each word is written bit by bit from its form. -/
theorem test_decode_tile2 : ([
    0b001_0010000_100010_000101_000000_1100,
    0b001_0010000_100010_000101_000000_1101,
    0b001_0010001_100011_000110_111101_1001,
    0b001_0010010_100100_000111_000000_0000,
    0b001_11_000_101000_000001_111110_001101,
    0b001_11_001_101000_000001_111110_001101,
    0b001_11_010_101000_000001_111110_001101,
    0b001_11_011_101000_000001_111110_001101] : List Word).map decode = [
    .vmov 34 5, .vnot 34 5, .vcmp 35 6 61 9, .vcvt 36 7, .vfma 40 1 62 13, .vfms 40 1 62 13, .vsel 40 1 62 13, .vclamp 40 1 62 13].map Except.ok := by decide +kernel

/-- Reductions, rearrangement, quantisation, compression (R45, R46): each word is written bit by bit from its form. -/
theorem test_decode_fold : ([
    0b001_0010011_100101_001000_000000_0100,
    0b001_0010100_100110_001001_000000_0011,
    0b001_0010101_100111_001010_000000_0000,
    0b001_0010110_100111_001010_000000_0000,
    0b001_0010111_100111_001010_000000_0000,
    0b001_0011100_101001_001100_000000_0001,
    0b001_0011000_101010_001101_111111_0000,
    0b001_0011001_101010_001101_111111_0000,
    0b001_0011010_101010_001101_111111_0000,
    0b001_0011011_101011_001110_110111_0001] : List Word).map decode = [
    .vredr 37 8 4, .vredc 38 9 3, .vtrn 39 10, .vbcr 39 10, .vbcc 39 10, .vscan 41 12 1, .vqnt 42 13 63, .vdqnt 42 13 63, .vvqd 42 13 63, .vcomp 43 14 55 1].map Except.ok := by decide +kernel

/-- Rows, single elements, liveness (R45, R46): each word is written bit by bit from its form. -/
theorem test_decode_row : ([
    0b001_0011101_101100_001111_0000101011,
    0b001_0011110_101101_010000_0000000000,
    0b001_0011111_101110_010001_0000000000,
    0b001_0100000_101111_010010_111011_0000,
    0b001_0100001_110000_010011_1001111111,
    0b001_0100010_110000_010011_1001111111,
    0b001_0100011_110000_010011_1001111111,
    0b001_0100100_110001_000000_0000000000,
    0b001_0100101_110010_000000_0000000000,
    0b001_0100110_110011_000000_0000000000] : List Word).map decode = [
    .vrmg 44 15 0x2B, .vfill 45 16, .vget 46 17, .vput 47 18 59, .tld 48 19 0x27F, .tst 48 19 0x27F, .tldX 48 19 0x27F, .tkill 49, .vcbld 50, .vrowm 51].map Except.ok := by decide +kernel

/-- Matrix words (R47): each word is written bit by bit from its form. -/
theorem test_decode_matrix : ([
    0b010_00001_10_100001_010010_001001_0101,
    0b010_00010_10_100001_010010_001001_0101,
    0b010_00011_10_100001_010010_001001_0101,
    0b010_00100_11_010100_01111111_0000_1_000,
    0b010_00101_01_010101_01000000_0000_0_000,
    0b010_00110_10_0000000000000000000000,
    0b010_00111_00_010110_010111_000000_0000,
    0b010_00111_00000000000000000000_0001] : List Word).map decode = [
    .mma 2 33 18 9 5, .mmaSp 2 33 18 9 5, .mmaG 2 33 18 9 5, .mrd 3 20 127 1, .mwr 1 21 64 0, .mclr 2, .mscl 22 23, .msclOff].map Except.ok := by decide +kernel

/-- Transfer words (R48, R49): each word is written bit by bit from its form. -/
theorem test_decode_transfer : ([
    0b011_00001_1001_100001_010010_0110_0_00_1,
    0b011_00010_1001_100001_010010_0110_0_00_1,
    0b011_00011_1001_100001_010010_0110_0_00_1,
    0b011_00100_1001_100001_010010_0110_0_00_1,
    0b011_00101_1001_100001_010010_0000_0_10_0,
    0b011_00110_1001_100001_010010_0000_0_10_0,
    0b011_00111_1001_100001_010010_000101_01,
    0b011_00111_1010_100001_010010_111000_00,
    0b011_01000_1101_100010_00000000000000,
    0b011_01001_1101_100010_00000000000000,
    0b011_01010_1101_100010_00000000000000,
    0b011_01100_1101_100010_00000000000000,
    0b011_01011_1101_000000_00000000000000,
    0b011_01101_1001_100001_010010_0000_0_00_0,
    0b011_01110_1001_100001_010010_0000_0_00_0,
    0b011_01111_1001_100001_010010_0000_0_00_0,
    0b011_10000_0000_100010_00000000000000,
    0b011_10001_0000_100010_00000000000000] : List Word).map decode = [
    .xget 9 33 18 6 1, .xput 9 33 18 6 1, .xsend 9 33 18 6 1, .xgat 9 33 18 6 1, .xsca 9 33 18 0 2 0, .xacc 9 33 18 0 2 0, .xat 9 33 18 5 1, .xat 10 33 18 56 0, .xdesc 13 34, .xmap 13 34, .xswap 13 34, .xmw 13 34, .xunmap 13, .xrpl 9 33 18, .xrpf 9 33 18, .xred 9 (33, 0x12), .xgmap 34, .xgunmap 34].map Except.ok := by decide +kernel

/-- Synchronisation words (R50): each word is written bit by bit from its form. -/
theorem test_decode_sync : ([
    0b100_00001_10001_00000_00000_000_000000,
    0b100_00010_10001_00011_00000_000_000000,
    0b100_00011_10001_00011_11110_101_000000,
    0b100_00100_00000_00011_00000_100_000000,
    0b100_00101_00000_00011_00000_000_110111,
    0b100_00110_10001_00000_00000_000_110000,
    0b100_00111_00000_00011_00000_000_000000,
    0b100_01000_1011_100011_00000000000000,
    0b100_01001_1011_000000_00000000000000,
    0b100_01010_1011_000000_00000000000000,
    0b100_01011_1011_000000_00000000000000,
    0b100_01100_1011_000000_00000000000000,
    0b100_01101_1011_000000_00000000000000,
    0b100_01110_101_000000000000000000000,
    0b100_01111_101_000000000000000000000,
    0b100_10000_100001_010010_000000_000000,
    0b100_10001_100001_010010_000111_000000,
    0b100_10010_100001_010010_000000_000000] : List Word).map decode = [
    .hnew 17, .hfork 17 3, .hjoin 17 3 30 5, .hdrain 3 4, .hpass 3 55, .hrecv 17 48, .hfree 3, .ringInit 11 35, .ringWfree 11, .ringPub 11, .ringWfill 11, .ringRel 11, .ringStat 11, .barArr 5, .barWait 5, .flagAdd 33 18, .flagSet 33 18 7, .flagWait 33 18].map Except.ok := by decide +kernel

/-- Selection words (R51): each word is written bit by bit from its form. -/
theorem test_decode_selection : ([
    0b101_00001_100000_010001_001000_100100,
    0b101_00010_100000_010001_001000_100100,
    0b101_00011_100000_010001_001000_100100,
    0b101_00100_100000_010001_001000_000000,
    0b101_00101_100000_010001_000000_100100,
    0b101_00110_100000_010001_000000_100100] : List Word).map decode = [
    .ktopc 32 17 8 36, .ktopr 32 17 8 36, .kmerge 32 17 8 36, .ksort 32 17 8, .khist 32 17 36, .kmark 32 17 36].map Except.ok := by decide +kernel

/-- System words (R52): each word is written bit by bit from its form. -/
theorem test_decode_system : ([
    0b110_000001_000000_10000000000000001,
    0b110_000010_000000_01111111111111110,
    0b110_000011_100001_00000000000001111,
    0b110_000100_000000_00000000000000000,
    0b110_000101_100001_00000000000000000,
    0b110_000110_100001_00000000000000000,
    0b110_000111_100001_00000000000000000,
    0b110_001000_000000_00000000000000000,
    0b110_001001_000000_00000000000000000,
    0b110_001010_100001_00000000000000000,
    0b110_001011_000000_00000000000000000,
    0b110_001100_100001_00000000000000111] : List Word).map decode = [
    .trap 0x10001, .ebrk 0xFFFE, .klaunch 33 15, .eret, .tinv 33, .ctxsave 33, .ctxload 33, .spflush, .sacinv, .cntsnap 33, .wfi, .barcfg 33 7].map Except.ok := by decide +kernel

/-! ## Ill-formed terms -/

/-- One ill-formed term for each check of WellFormed (R41-R52). -/
theorem test_ill_formed : ([.add 33 0 0, .li 56 0, .fadd 47 0 0, .clz 63 0, .csel 40 0 0 0, .pget 33 0 0, .rdshape 60 0,
    .csrr 34 0, .lds 46 0 0, .ldg 57 0 0, .cmp 0 0 0 10, .loopT 3 0 1, .loopT 0 0 0, .loopRp 3 48 1, .loopRp 0 48 0, .loopRp 0 47 1,
    .loopRp 0 54 1, .vadd 0 0 0 3, .vsra 0 0 0 3, .vcmp 0 0 0 10, .vredr 0 0 5, .vredc 0 0 5, .vcomp 0 0 0 2, .vscan 0 0 2,
    .mrd 0 0 128 0, .mwr 0 0 128 0, .xget 0 0 0 1 0, .xput 0 0 0 1 0, .xsend 0 0 0 1 0, .xgat 0 0 0 1 0, .xsca 0 0 0 1 0 0,
    .xsca 0 0 0 0 3 0, .xacc 0 0 0 1 0 0, .xacc 0 0 0 0 3 0, .xat 11 0 0 56 0, .xat 0 0 0 56 2, .xat 10 0 0 56 1, .xat 0 0 0 55 0,
    .hjoin 0 0 0 6, .hdrain 0 7, .hpass 0 54, .hrecv 0 54, .hrecv 0 47, .hrecv 0 56] : List Instr).all (fun i => !i.wf) = true := by
  decide +kernel

/-- Reserved encodings are refused (R43, R44, R46, R47, R49-R53): unassigned codes, fields marked zero, destination codes and
operand codes a field does not allow. -/
theorem test_reserved_words : ([0x00000001, 0x00800018, 0x0F800000, 0x0580000B, 0x20000000, 0x23400000,
    0x24000010, 0x27000005, 0x40000000, 0x48000000, 0x41000008, 0x44008000, 0x46000001, 0x60000000, 0x72000000, 0x61000008,
    0x6D000008, 0x67000F03, 0x80000000, 0x93000000, 0x83000180, 0x85000036, 0x86000000, 0xA0000000, 0xA7000000, 0xA5000040,
    0xC0000000, 0xC6800000, 0xC2000001, 0xC0820005, 0xE0000000, 0xFFFFFFFF] : List Word).all (fun w => match decode w with
      | .ok _ => false | .error _ => true) = true := by decide +kernel

/-! ## Witnesses: words (R32, R33)

A witness gives a state and a word that meet every hypothesis of the statement about it. -/

/-- The hypotheses of `Idle`, decided. -/
def idleB (s : State) (x : Ctx) : Bool :=
  decide (s.ctx s.cur = some x) && s.powered && (s.core s.cur).quiesce.isNone && x.pend.isNone && !x.ending && x.qs.isEmpty &&
    x.fly.isEmpty && x.rq.all (fun r => r.2.isSome) && decide (x.q6.length ≤ Config.q6Depth) && s.eager && s.picks.isEmpty &&
    decide (x.grp.pfx.wait = 0) && decide (x.grp.pfx.signal = 0) && (s.core s.cur).spilling.isEmpty &&
    [Engine.s, .v, .m, .x, .y, .k].all (fun e => !s.limited s.cur x.tenant e)

theorem idle_of {s : State} {x : Ctx} (h : idleB s x = true) : Idle s x := by
  simp only [idleB, Bool.and_eq_true, decide_eq_true_eq, Option.isNone_iff_eq_none, Bool.not_eq_true', List.isEmpty_iff,
    List.all_eq_true] at h
  obtain ⟨⟨⟨⟨⟨⟨⟨⟨⟨⟨⟨⟨⟨⟨h1, h2⟩, h3⟩, h4⟩, h5⟩, h6⟩, h7⟩, h8⟩, h9⟩, h10⟩, h10b⟩, h11⟩, h12⟩, h13⟩, h14⟩ := h
  exact ⟨h1, h2, h3, h4, h5, h6, h7, h8, h9, h10, h10b, h11, h12, h13, fun e => h14 e (by cases e <;> simp)⟩

/-- The hypotheses of `Passes` but the operands and the word's own checks, decided. -/
def passB (s : State) (x : Ctx) (i : Instr) (sp : CapSpec) (pops : List Nat) (w : QWord) : Bool :=
  (!sp.priv || x.priv) &&
    (match sp.pushed with | some d => !destTrap x d | none => true) && !creditStall s s.cur x sp &&
    (!(sp.mem && x.grp.pfx.hasHnd) || (Map.at? x.hnd x.grp.pfx.handle).isSome) &&
    decide ((x.q6.length - pops.count 54) + q6Need sp ≤ Config.q6Depth) &&
    s.orderOk s.cur (x.enrol sp (s.tenant x.tenant).scap w).1 (x.enrol sp (s.tenant x.tenant).scap w).2 &&
    x.notStarted.isEmpty && (decide (w.gate = .none) || s.cmds.isEmpty) &&
    (decide (w.instr = i) && decide (w.pfx = x.grp.pfx) && !w.blocked && w.seqr.isNone && w.q6.isEmpty)

theorem passes_of {s : State} {x : Ctx} {i : Instr} {sp : CapSpec} {chk : State → Nat → Ctx → QWord → Chk} {vals : List Dword}
    {pops : List Nat} {w : QWord} (hr : readAll s s.cur x sp.srcs [] [] = .ok vals pops)
    (hc : chk s s.cur x (mkWord x i sp vals) = .ok w) (h : passB s x i sp pops w = true) : Passes s x i sp chk vals pops w := by
  simp only [passB, Bool.and_eq_true, decide_eq_true_eq, Bool.or_eq_true, Bool.not_eq_true', List.isEmpty_iff,
    Option.isNone_iff_eq_none] at h
  obtain ⟨⟨⟨⟨⟨⟨⟨⟨h1, h2⟩, h2b⟩, h3⟩, h4⟩, h5⟩, hn⟩, h6⟩, ⟨⟨⟨h7, h8⟩, h9⟩, h10⟩, h11⟩ := h
  have hh : x.held.words = [] := by
    have : x.held.words ++ x.qs = [] := hn
    exact (List.append_eq_nil_iff.mp this).1
  refine ⟨fun hp => ?_, fun d hd => ?_, h2b, hr, fun hm hh => ?_, hc, h4, h5,
    fun t => by simp [State.clashesBefore, hn], h6.imp_right (fun hg => ⟨hg, by simp [hh]⟩), h7, h8, h9, h10, h11⟩
  · simpa [hp] using h1
  · simpa [hd] using h2
  · simpa [hm, hh] using h3

/-- The state in which a word starts, and its context there. -/
def startOf (s : State) (x : Ctx) (r : WordSpec) (w : QWord) (pops : List Nat) : State :=
  touchUnits (passing r.sp r.act (s.entered x r.sp w pops) s.cur (x.enrol r.sp (s.tenant x.tenant).scap w).2) s.cur x.me w.units

/-- All hypotheses of `WordsComplete` about one word, decided; `okB` decides what its row asks at its start. -/
def wordB (s : State) (i : Instr) (r : WordSpec) (okB : State → Nat → Ctx → QWord → Bool) : Bool :=
  match s.ctx s.cur with
  | none => false
  | some x => idleB s x &&
    match readAll s s.cur x r.sp.srcs [] [] with
    | .ok vals pops =>
      (match r.chk s s.cur x (mkWord x i r.sp vals) with
      | .ok w => passB s x i r.sp pops w &&
        (match (startOf s x r w pops).ctx s.cur with
        | some y => okB (startOf s x r w pops) s.cur y (x.enrol r.sp (s.tenant x.tenant).scap w).2
        | none => false)
      | _ => false)
    | _ => false

/-- State s and word i meet every hypothesis of `WordsComplete table`. -/
def WordMeets (table : Instr → Option WordSpec) (s : State) (i : Instr) : Prop :=
  ∃ (u : State) (x y : Ctx) (r : WordSpec) (vals : List Dword) (pops : List Nat) (w v : QWord),
    table i = some r ∧ Idle s x ∧ Passes s x i r.sp r.chk vals pops w ∧ v = (x.enrol r.sp (s.tenant x.tenant).scap w).2 ∧
    u = touchUnits (passing r.sp r.act (s.entered x r.sp w pops) s.cur v) s.cur x.me w.units ∧ u.ctx s.cur = some y ∧ r.ok u s.cur y v

theorem word_meets {table : Instr → Option WordSpec} {s : State} {i : Instr} {r : WordSpec} (ht : table i = some r)
    (okB : State → Nat → Ctx → QWord → Bool) (hok : ∀ u c y v, okB u c y v = true → r.ok u c y v)
    (h : wordB s i r okB = true) : WordMeets table s i := by
  unfold wordB at h
  split at h
  · cases h
  · next x hx =>
    rw [Bool.and_eq_true] at h
    obtain ⟨hi, h⟩ := h
    split at h
    · next vals pops hr =>
      split at h
      · next w hc =>
        rw [Bool.and_eq_true] at h
        obtain ⟨hp, h⟩ := h
        split at h
        · next y hy => exact ⟨_, x, y, r, vals, pops, w, _, ht, idle_of hi, passes_of hr hc hp, rfl, rfl, hy, hok _ _ _ _ h⟩
        · cases h
      · cases h
    · cases h

/-- A word whose row asks nothing at its start. -/
theorem word_meets' {table : Instr → Option WordSpec} {s : State} {i : Instr} {r : WordSpec} (ht : table i = some r)
    (hok : ∀ u c y v, r.ok u c y v) (h : wordB s i r (fun _ _ _ _ => true) = true) : WordMeets table s i :=
  word_meets ht _ (fun u c y v _ => hok u c y v) h

/-- All hypotheses of `TileWordsComplete` about one word, decided. -/
def tileB (s : State) (i : Instr) (r : TileSpec) : Bool :=
  match s.ctx s.cur with
  | none => false
  | some x => idleB s x &&
    match readAll s s.cur x r.srcs [] [] with
    | .ok vals pops =>
      let w := x.tileWord i r.eng r.srcs vals r.tiles
      r.tiles.all (fun t => etypeOk (shEt (Map.get 0 x.shapes t)) && !shapeBreach (Map.get 0 x.shapes t)) &&
        (r.own x w).isNone && (poisonedTile ((s.readied x pops w).core s.cur) (r.reads w ((s.readied x pops w).core s.cur))).isNone
    | _ => false

/-- State s and word i meet every hypothesis of `TileWordsComplete table`. -/
def TileMeets (table : Instr → Option TileSpec) (s : State) (i : Instr) : Prop :=
  ∃ (u : State) (x : Ctx) (r : TileSpec) (vals : List Dword) (pops : List Nat) (w : QWord) (k : Core),
    table i = some r ∧ w = x.tileWord i r.eng r.srcs vals r.tiles ∧ u = s.readied x pops w ∧ k = u.core s.cur ∧
    Idle s x ∧ readAll s s.cur x r.srcs [] [] = .ok vals pops ∧ x.legal r.tiles ∧ r.own x w = none ∧
    poisonedTile k (r.reads w k) = none

theorem tile_meets {table : Instr → Option TileSpec} {s : State} {i : Instr} {r : TileSpec} (ht : table i = some r)
    (h : tileB s i r = true) : TileMeets table s i := by
  unfold tileB at h
  split at h
  · cases h
  · next x hx =>
    rw [Bool.and_eq_true] at h
    obtain ⟨hi, h⟩ := h
    split at h
    · next vals pops hr =>
      simp only [Bool.and_eq_true, List.all_eq_true, Option.isNone_iff_eq_none, Bool.not_eq_true'] at h
      exact ⟨_, x, r, vals, pops, _, _, ht, rfl, rfl, rfl, idle_of hi, hr, h.1.1, h.1.2, h.2⟩
    · cases h

/-- A span of tenant 0 on core 0 that captures at 0x1_0000, in user mode; its tables map the first GiB onto itself. The first
scratchpad block is its own. -/
def base : State :=
  { (State.reset.writeN 0x1000 8 0x2001).writeN 0x2000 8 0xF with
    devstat := 4
    tenants := [(0, { enabled := true, ptbase := 0x1000, windows := [(0, (0, 0x40000000))] })]
    cores := [(0, { res := some { uid := 1, pc := 0x10000 }, owner := [(80, { tenant := 0, sus := false })] })] }

/-- The same with its context changed. -/
def at0 (f : Ctx → Ctx) : State := base.modCtx 0 f

/-- The same in privileged mode. -/
def priv0 (f : Ctx → Ctx) : State := at0 (fun x => { f x with pstat := 1 })

/-- The same with a record of eight dwords at scratchpad address 0. -/
def withRec (s : State) (r : Rec512) : State := s.modCore 0 (fun k => { k with spad := [(0, r.setWidth 1024)] })

/-- A record of eight dwords. -/
def rec8 (l : List Nat) : Rec512 := (l.mapIdx (fun i v => BitVec.ofNat 512 v <<< (64 * i))).foldl (fun u v => u ||| v) 0

/-- Tiles with shape records: number, element type, rows, columns. -/
def tiles0 (l : List (Nat × Nat × Nat × Nat)) : State :=
  at0 (fun x => { x with shapes := l.map (fun t => (t.1, mkShape t.2.1 t.2.2.1 t.2.2.2)), n := [(1, 1), (2, 2)] })

/-- Tiles for the element words: INT32, then FP32; tile 6 is B1. -/
def ti : State := tiles0 [(3, 9, 2, 4), (4, 9, 2, 4), (5, 9, 2, 4)]
def tf : State := tiles0 [(3, 1, 2, 4), (4, 1, 2, 4), (5, 1, 2, 4), (6, 0x12, 2, 4), (7, 1, 2, 4)]
/-- Tiles for reductions and rearrangement, for quantisation and compression, for selection. -/
def tr : State := tiles0 [(3, 1, 2, 1), (4, 1, 2, 4), (5, 1, 1, 4), (6, 1, 4, 2), (7, 1, 2, 4), (8, 1, 2, 1)]
def tq : State := tiles0 [(3, 4, 2, 32), (4, 1, 2, 32), (5, 0x11, 2, 1), (6, 1, 2, 32), (7, 0x10, 2, 32), (8, 1, 2, 16), (9, 12, 2, 4)]
def tk : State := tiles0 [(2, 9, 2, 2), (3, 9, 2, 4), (4, 1, 2, 4), (5, 1, 2, 4), (6, 9, 1, 4), (7, 1, 1, 4), (8, 9, 2, 1), (9, 1, 2, 1),
  (10, 9, 2, 4), (11, 1, 2, 4), (12, 9, 2, 4), (13, 0x12, 2, 4)]
/-- Tiles for rows and single elements; a VQ2 codebook's shape in tile 5. -/
def rows0 : State := tiles0 [(3, 1, 2, 4), (4, 1, 2, 4), (5, 0x0C, 8, 128), (6, 9, 2, 8)]
/-- A gang with channel q0 declared and one element in it. -/
def chan0 : State := at0 (fun x => { x with gang := true, chdecl := [(0, (1, 2))], chans := [(0, { elems := [5] })] })
def n1 : State := at0 (fun x => { x with n := [(1, 0x10000), (2, 128)] })
/-- A 2 x 4 block of FP32 of a 4 x 8 tensor with tag 5: its global map, its descriptors in global memory and in the scratchpad, by
block and by row, and a landing map for it. -/
def dim : Nat × Nat := ((coord 4 8 1 1).toNat, (coord 2 4 1 1).toNat)
def gmap0 : Rec512 := rec8 [5 + 4096, dim.1, dim.2, 0, 65536]
def dG : Rec512 := rec8 [5 + 4096 + 131072 + 524288, dim.1, dim.2]
def dS : Rec512 := rec8 [5 + 4096 + 131072, dim.1, dim.2, 1024]
def dGL : Rec512 := rec8 [5 + 4096 + 131072 + 524288, dim.1, (coord 1 4 1 1).toNat]
def dL : Rec512 := rec8 [5 + 4096 + 131072, dim.1, (coord 1 4 1 1).toNat, 1024]
def landMap : Rec512 := rec8 [5 + 4096 + 65536, 0, dim.1, 2 ^ 32 * 32, 0, 8 + 65536 * 4]
/-- Operand b for core 0 of this device: device 0x3FF in [18:9]. -/
def here : Dword := BitVec.ofNat 64 (0x3FF * 512)
def data0 : State := (at0 (fun x => { x with desc := [(0, dG), (1, dS), (2, dL), (3, dGL)], n := [(1, 0), (2, here)] })).modCore 0
  (fun k => { k with gcache := [(0, [(5, gmap0)])] })
def list0 : State := data0.modCtx 0 (fun x => { x with n := [(1, BitVec.ofNat 64 (2 ^ 32)), (2, here)] })
def sac0 : State := data0.modCtx 0 (fun x => { x with n := [(1, 0), (2, BitVec.ofNat 64 (2 ^ 33))] })
def red0 : State := { at0 (fun x => { x with desc := [(1, dS)], n := [(1, 0x10000)] }) with
  groups := [(0, { owner := some 0, conf := rec8 [1 + 256, 8, 1] })] }
/-- Two handles; n1 names flag word 0 of core 0. -/
def h1 : State := at0 (fun x => { x with hnd := [(0, 0), (1, 1)], n := [(1, here)] })
/-- A ticket of sequencer 0 of core 0 in the mailbox. -/
def mail0 : State := base.modCore 0 (fun k => { k with mbox := [(0, [here])] })
def ring0 : State := withRec (at0 (fun x => { x with
  rings := [(0, { init := true, nClaim := 1, nTake := 1, up := true, base := 1024, slots := 2, slotbytes := 256, fillOrder := [1] })] }))
  (rec8 [1024, 256 + 2 ^ 32 * 2])
def bar0 : State := base.modTenant 0 (fun t => { t with bars := [(1, { parts := 1, conf := true })] })
/-- Privileged mode; n1 is a save image's address. -/
def sys0 : State := priv0 (fun x => { x with n := [(1, 0x400000)] })

theorem witness_binTiles :
    TileMeets binTiles ti (.vadd 3 4 5 0) ∧
    TileMeets binTiles ti (.vsub 3 4 5 0) ∧
    TileMeets binTiles ti (.vmul 3 4 5 0) ∧
    TileMeets binTiles ti (.vdiv 3 4 5 0) ∧
    TileMeets binTiles ti (.vmin 3 4 5 0) ∧
    TileMeets binTiles ti (.vmax 3 4 5 0) ∧
    TileMeets binTiles ti (.vand 3 4 5 0) ∧
    TileMeets binTiles ti (.vor 3 4 5 0) ∧
    TileMeets binTiles ti (.vxor 3 4 5 0) ∧
    TileMeets binTiles ti (.vshl 3 4 5 0) ∧
    TileMeets binTiles ti (.vshr 3 4 5 0) ∧
    TileMeets binTiles ti (.vsra 3 4 5 0) :=
  ⟨tile_meets rfl (by decide +kernel), tile_meets rfl (by decide +kernel), tile_meets rfl (by decide +kernel), tile_meets rfl (by decide +kernel), tile_meets rfl (by decide +kernel), tile_meets rfl (by decide +kernel), tile_meets rfl (by decide +kernel), tile_meets rfl (by decide +kernel), tile_meets rfl (by decide +kernel), tile_meets rfl (by decide +kernel), tile_meets rfl (by decide +kernel), tile_meets rfl (by decide +kernel)⟩

theorem witness_unTiles :
    TileMeets unTiles tf (.vabs 3 4) ∧
    TileMeets unTiles tf (.vneg 3 4) ∧
    TileMeets unTiles tf (.vrcp 3 4) ∧
    TileMeets unTiles tf (.vrsqrt 3 4) ∧
    TileMeets unTiles tf (.vsqrt 3 4) ∧
    TileMeets unTiles tf (.vexp2 3 4) ∧
    TileMeets unTiles tf (.vlog2 3 4) ∧
    TileMeets unTiles tf (.vtanh 3 4) ∧
    TileMeets unTiles tf (.vsigm 3 4) ∧
    TileMeets unTiles tf (.vsilu 3 4) ∧
    TileMeets unTiles tf (.vfloor 3 4) ∧
    TileMeets unTiles tf (.vrnd 3 4) ∧
    TileMeets unTiles tf (.vmov 3 4) ∧
    TileMeets unTiles tf (.vnot 3 4) :=
  ⟨tile_meets rfl (by decide +kernel), tile_meets rfl (by decide +kernel), tile_meets rfl (by decide +kernel), tile_meets rfl (by decide +kernel), tile_meets rfl (by decide +kernel), tile_meets rfl (by decide +kernel), tile_meets rfl (by decide +kernel), tile_meets rfl (by decide +kernel), tile_meets rfl (by decide +kernel), tile_meets rfl (by decide +kernel), tile_meets rfl (by decide +kernel), tile_meets rfl (by decide +kernel), tile_meets rfl (by decide +kernel), tile_meets rfl (by decide +kernel)⟩

theorem witness_mixTiles :
    TileMeets mixTiles tf (.vcmp 6 4 5 6) ∧
    TileMeets mixTiles tf (.vcvt 3 4) ∧
    TileMeets mixTiles tf (.vfma 3 4 5 7) ∧
    TileMeets mixTiles tf (.vfms 3 4 5 7) ∧
    TileMeets mixTiles tf (.vsel 3 4 5 6) ∧
    TileMeets mixTiles tf (.vclamp 3 4 5 7) :=
  ⟨tile_meets rfl (by decide +kernel), tile_meets rfl (by decide +kernel), tile_meets rfl (by decide +kernel), tile_meets rfl (by decide +kernel), tile_meets rfl (by decide +kernel), tile_meets rfl (by decide +kernel)⟩

theorem witness_foldTiles :
    TileMeets foldTiles tr (.vredr 3 4 0) ∧
    TileMeets foldTiles tr (.vredc 5 4 3) ∧
    TileMeets foldTiles tr (.vscan 7 4 1) ∧
    TileMeets foldTiles tr (.vtrn 6 4) ∧
    TileMeets foldTiles tr (.vbcr 7 5) ∧
    TileMeets foldTiles tr (.vbcc 7 8) :=
  ⟨tile_meets rfl (by decide +kernel), tile_meets rfl (by decide +kernel), tile_meets rfl (by decide +kernel), tile_meets rfl (by decide +kernel), tile_meets rfl (by decide +kernel), tile_meets rfl (by decide +kernel)⟩

theorem witness_quantTiles :
    TileMeets quantTiles tq (.vqnt 3 4 5) ∧
    TileMeets quantTiles tq (.vdqnt 6 3 5) ∧
    TileMeets quantTiles tq (.vvqd 6 7 5) ∧
    TileMeets quantTiles tq (.vcomp 8 4 9 0) :=
  ⟨tile_meets rfl (by decide +kernel), tile_meets rfl (by decide +kernel), tile_meets rfl (by decide +kernel), tile_meets rfl (by decide +kernel)⟩

theorem witness_SelectionWords :
    TileMeets rankTiles tk (.ktopc 6 4 7 1) ∧
    TileMeets rankTiles tk (.ktopr 8 4 9 1) ∧
    TileMeets rankTiles tk (.ksort 3 4 5) ∧
    TileMeets rankTiles tk (.kmerge 10 12 4 2) ∧
    TileMeets rankTiles tk (.khist 2 12 2) ∧
    TileMeets rankTiles tk (.kmark 13 12 2) :=
  ⟨tile_meets rfl (by decide +kernel), tile_meets rfl (by decide +kernel), tile_meets rfl (by decide +kernel), tile_meets rfl (by decide +kernel), tile_meets rfl (by decide +kernel), tile_meets rfl (by decide +kernel)⟩

theorem witness_StateWords :
    WordMeets stateWords base (.nop) ∧
    WordMeets stateWords base (.cmp 1 0 1 0) ∧
    WordMeets stateWords base (.pand 1 2 3) ∧
    WordMeets stateWords base (.por 1 2 3) ∧
    WordMeets stateWords base (.pxor 1 2 3) ∧
    WordMeets stateWords base (.pandn 1 2 3) ∧
    WordMeets stateWords base (.pput 1 2 0) ∧
    WordMeets stateWords base (.tshape 1 2) ∧
    WordMeets stateWords base (.csrw 1 0) ∧
    WordMeets stateWords base (.mscl 3 4) ∧
    WordMeets stateWords base (.msclOff) :=
  ⟨word_meets' rfl (fun _ _ _ _ => trivial) (by decide +kernel),
    word_meets' rfl (fun _ _ _ _ => trivial) (by decide +kernel),
    word_meets' rfl (fun _ _ _ _ => trivial) (by decide +kernel),
    word_meets' rfl (fun _ _ _ _ => trivial) (by decide +kernel),
    word_meets' rfl (fun _ _ _ _ => trivial) (by decide +kernel),
    word_meets' rfl (fun _ _ _ _ => trivial) (by decide +kernel),
    word_meets' rfl (fun _ _ _ _ => trivial) (by decide +kernel),
    word_meets' rfl (fun _ _ _ _ => trivial) (by decide +kernel),
    word_meets' rfl (fun _ _ _ _ => trivial) (by decide +kernel),
    word_meets' rfl (fun _ _ _ _ => trivial) (by decide +kernel),
    word_meets' rfl (fun _ _ _ _ => trivial) (by decide +kernel)⟩

theorem witness_FlowWords :
    WordMeets flowWords base (.br 1 0 4) ∧
    WordMeets flowWords base (.jmp 4) ∧
    WordMeets flowWords base (.call 4) ∧
    WordMeets flowWords base (.jr 1) ∧
    WordMeets flowWords base (.loopT 0 3 4) ∧
    WordMeets flowWords base (.endw) ∧
    WordMeets flowWords chan0 (.loopRp 0 48 4) :=
  ⟨word_meets' rfl (fun _ _ _ _ => trivial) (by decide +kernel),
    word_meets' rfl (fun _ _ _ _ => trivial) (by decide +kernel),
    word_meets' rfl (fun _ _ _ _ => trivial) (by decide +kernel),
    word_meets' rfl (fun _ _ _ _ => trivial) (by decide +kernel),
    word_meets' rfl (fun _ _ _ _ => trivial) (by decide +kernel),
    word_meets' rfl (fun _ _ _ _ => trivial) (by decide +kernel),
    word_meets' rfl (fun _ _ _ _ => trivial) (by decide +kernel)⟩

theorem witness_MemoryWords :
    WordMeets memoryWords n1 (.lds 3 2 0) ∧
    WordMeets memoryWords n1 (.sts 1 2 0) ∧
    WordMeets memoryWords n1 (.ldg 3 1 0) ∧
    WordMeets memoryWords n1 (.stg 2 1 0) :=
  ⟨word_meets rfl (fun u c _ v => decide (v.pa / 128 ∉ (u.core c).spadPoison)) (fun _ _ _ _ h => ⟨of_decide_eq_true h, fun e => absurd e (by decide)⟩) (by decide +kernel),
    word_meets' rfl (fun _ _ _ _ => trivial) (by decide +kernel),
    word_meets rfl (fun u c y v => match stlbTranslate u c y.tenant v.pa false with | .ok _ => true | .error _ => false) (fun u c y v h => by split at h; exact ⟨_, ‹_›⟩; cases h) (by decide +kernel),
    word_meets rfl (fun u c y v => match stlbTranslate u c y.tenant v.pa true with | .ok _ => true | .error _ => false) (fun u c y v h => by split at h; exact ⟨_, ‹_›⟩; cases h) (by decide +kernel)⟩

theorem witness_RowWords :
    WordMeets rowWords rows0 (.tld 3 56 1) ∧
    WordMeets rowWords rows0 (.tst 3 56 1) ∧
    WordMeets rowWords (rows0.modCtx 0 (fun x => { x with bfx := [(0, 0x0000000700000380)] })) (.tldX 6 56 1) ∧
    WordMeets rowWords rows0 (.vrmg 3 1 4) ∧
    WordMeets rowWords rows0 (.vfill 3 1) ∧
    WordMeets rowWords rows0 (.vput 3 1 56) ∧
    WordMeets rowWords rows0 (.vget 3 56) ∧
    WordMeets rowWords rows0 (.vrowm 3) ∧
    WordMeets rowWords rows0 (.tkill 3) ∧
    WordMeets rowWords rows0 (.vcbld 5) :=
  ⟨word_meets rfl (fun u c _ v => decide (∀ j ∈ v.sel 3, (rowBase v).toNat + j ∉ (u.core c).spadPoison)) (fun _ _ _ _ h => of_decide_eq_true h) (by decide +kernel),
    word_meets rfl (fun u c _ v => decide (poisonedTile (u.core c) (readRows 3 (v.sel 3)) = none)) (fun _ _ _ _ h => of_decide_eq_true h) (by decide +kernel),
    word_meets rfl (fun u c _ v => decide ((u.core c).spadPoison = [])) (fun _ _ _ _ h => of_decide_eq_true h) (by decide +kernel),
    word_meets rfl (fun u c _ v => decide (poisonedTile (u.core c) (readRows 3 (v.sel 3) ++ readRows 4 (v.sel 3)) = none)) (fun _ _ _ _ h => of_decide_eq_true h) (by decide +kernel),
    word_meets' rfl (fun _ _ _ _ => trivial) (by decide +kernel),
    word_meets' rfl (fun _ _ _ _ => trivial) (by decide +kernel),
    word_meets rfl (fun u c _ v => decide (128 * 3 + cRow (op0 v) ∉ (u.core c).tilePoison)) (fun _ _ _ _ h => of_decide_eq_true h) (by decide +kernel),
    word_meets rfl (fun u c _ v => decide (poisonedTile (u.core c) (readRows 3 (List.range (v.rows 3))) = none)) (fun _ _ _ _ h => of_decide_eq_true h) (by decide +kernel),
    word_meets' rfl (fun _ _ _ _ => trivial) (by decide +kernel),
    word_meets rfl (fun u c _ v => decide (poisonedTile (u.core c) (readRows 5 (List.range 8)) = none)) (fun _ _ _ _ h => of_decide_eq_true h) (by decide +kernel)⟩

theorem witness_AccumulatorWords :
    WordMeets accWords rows0 (.mrd 1 4 0 0) ∧
    WordMeets accWords rows0 (.mwr 1 4 0 1) ∧
    WordMeets accWords rows0 (.mclr 1) :=
  ⟨word_meets rfl (fun u c _ v => decide ((u.core c).accPoison = [])) (fun _ _ _ _ h => of_decide_eq_true h) (by decide +kernel),
    word_meets rfl (fun u c _ v => decide ((u.core c).tilePoison = [])) (fun _ _ _ _ h => of_decide_eq_true h) (by decide +kernel),
    word_meets' rfl (fun _ _ _ _ => trivial) (by decide +kernel)⟩

theorem witness_DataWords :
    WordMeets dataWords data0 (.xget 0 1 2 0 0) ∧
    WordMeets dataWords data0 (.xput 1 1 2 0 0) ∧
    WordMeets dataWords data0 (.xsend 1 1 2 0 0) ∧
    WordMeets dataWords data0 (.xacc 1 1 2 0 0 0) ∧
    WordMeets dataWords data0 (.xat 0 1 1 56 0) ∧
    WordMeets dataWords list0 (.xgat 3 1 2 0 0) ∧
    WordMeets dataWords list0 (.xsca 2 1 2 0 0 0) :=
  ⟨word_meets' rfl (fun _ _ _ _ => trivial) (by decide +kernel),
    word_meets' rfl (fun _ _ _ _ => trivial) (by decide +kernel),
    word_meets' rfl (fun _ _ _ _ => trivial) (by decide +kernel),
    word_meets' rfl (fun _ _ _ _ => trivial) (by decide +kernel),
    word_meets' rfl (fun _ _ _ _ => trivial) (by decide +kernel),
    word_meets' rfl (fun _ _ _ _ => trivial) (by decide +kernel),
    word_meets' rfl (fun _ _ _ _ => trivial) (by decide +kernel)⟩

theorem witness_RecordWords :
    WordMeets recordWords (withRec base dS) (.xdesc 0 56) ∧
    WordMeets recordWords (withRec (at0 (fun x => { x with mapCap := [0] })) landMap) (.xmap 0 56) ∧
    WordMeets recordWords (withRec (at0 (fun x => { x with mapCap := [0] })) landMap) (.xswap 0 56) ∧
    WordMeets recordWords base (.xunmap 0) ∧
    WordMeets recordWords base (.xmw 0 56) ∧
    WordMeets recordWords base (.xgunmap 56) ∧
    WordMeets recordWords sac0 (.xrpl 1 1 2) ∧
    WordMeets recordWords sac0 (.xrpf 1 1 2) ∧
    WordMeets recordWords (withRec base gmap0) (.xgmap 56) ∧
    WordMeets recordWords red0 (.xred 1 (1, 56)) :=
  ⟨word_meets' rfl (fun _ _ _ _ => trivial) (by decide +kernel),
    word_meets' rfl (fun _ _ _ _ => trivial) (by decide +kernel),
    word_meets' rfl (fun _ _ _ _ => trivial) (by decide +kernel),
    word_meets' rfl (fun _ _ _ _ => trivial) (by decide +kernel),
    word_meets' rfl (fun _ _ _ _ => trivial) (by decide +kernel),
    word_meets' rfl (fun _ _ _ _ => trivial) (by decide +kernel),
    word_meets' rfl (fun _ _ _ _ => trivial) (by decide +kernel),
    word_meets' rfl (fun _ _ _ _ => trivial) (by decide +kernel),
    word_meets' rfl (fun _ _ _ _ => trivial) (by decide +kernel),
    word_meets' rfl (fun _ _ _ _ => trivial) (by decide +kernel)⟩

theorem witness_handleWords :
    WordMeets handleWords base (.hnew 1) ∧
    WordMeets handleWords base (.hdrain 0 5) ∧
    WordMeets handleWords base (.hpass 0 55) ∧
    WordMeets handleWords h1 (.hpass 1 1) ∧
    WordMeets handleWords h1 (.hfork 2 1) ∧
    WordMeets handleWords h1 (.hjoin 2 0 1 5) ∧
    WordMeets handleWords h1 (.hfree 1) ∧
    WordMeets handleWords mail0 (.hrecv 1 55) :=
  ⟨word_meets' rfl (fun _ _ _ _ => trivial) (by decide +kernel),
    word_meets rfl (fun u _ y v => v.covers.all (fun p => u.preOk y p) && (worstStatus y ((v.covers.map (fun p => p.seqr)).dedup)).isNone) (fun _ _ _ _ h => by simpa using h) (by decide +kernel),
    word_meets rfl (fun u _ y _ => oboxRoom u y) (fun _ _ _ _ h _ => h) (by decide +kernel),
    word_meets rfl (fun u _ y _ => oboxRoom u y) (fun _ _ _ _ h _ => h) (by decide +kernel),
    word_meets' rfl (fun _ _ _ _ => trivial) (by decide +kernel),
    word_meets' rfl (fun _ _ _ _ => trivial) (by decide +kernel),
    word_meets' rfl (fun _ _ _ _ => trivial) (by decide +kernel),
    word_meets' rfl (fun _ _ _ _ => trivial) (by decide +kernel)⟩

theorem witness_ringWords :
    WordMeets ringWords ring0 (.ringInit 0 56) ∧
    WordMeets ringWords ring0 (.ringWfree 0) ∧
    WordMeets ringWords ring0 (.ringPub 0) ∧
    WordMeets ringWords ring0 (.ringWfill 0) ∧
    WordMeets ringWords ring0 (.ringRel 0) ∧
    WordMeets ringWords ring0 (.ringStat 0) :=
  ⟨word_meets rfl (fun _ _ y _ => decide ((y.ring 0).countOf .landing = 0)) (fun _ _ _ _ h => of_decide_eq_true h) (by decide +kernel),
    word_meets rfl (fun _ _ y _ => decide ((y.ring 0).slotSt (y.ring 0).ptr = .free)) (fun _ _ y _ h => by show Option.isSome (if (y.ring 0).slotSt (y.ring 0).ptr = .free then _ else _) = true; rw [if_pos (of_decide_eq_true h)]; rfl) (by decide +kernel),
    word_meets rfl (fun _ _ _ _ => true) (fun _ _ y _ _ => by show Option.isSome (match (y.ring 0).claimOrder with | [] => _ | k :: t => _) = true; split <;> rfl) (by decide +kernel),
    word_meets rfl (fun _ _ y _ => !(y.ring 0).fillOrder.isEmpty) (fun _ _ y _ h => by show Option.isSome (match (y.ring 0).fillOrder with | [] => _ | k :: t => _) = true; split; simp_all; rfl) (by decide +kernel),
    word_meets rfl (fun _ _ _ _ => true) (fun _ _ y _ _ => by show Option.isSome (match (y.ring 0).takeOrder with | [] => _ | k :: t => _) = true; split <;> rfl) (by decide +kernel),
    word_meets rfl (fun _ _ _ _ => true) (fun _ _ _ _ _ => rfl) (by decide +kernel)⟩

theorem witness_syncWords :
    WordMeets syncWords bar0 (.barArr 1) ∧
    WordMeets syncWords bar0 (.barWait 1) ∧
    WordMeets syncWords h1 (.flagAdd 1 56) ∧
    WordMeets syncWords h1 (.flagSet 1 56 56) ∧
    WordMeets syncWords h1 (.flagWait 56 56) :=
  ⟨word_meets rfl (fun u c y _ => decide (Map.get 0 ((u.tenant y.tenant).bar 1).arr c ≤ ((u.tenant y.tenant).bar 1).done)) (fun _ _ _ _ h => of_decide_eq_true h) (by decide +kernel),
    word_meets rfl (fun u c y _ => decide (Map.get 0 ((u.tenant y.tenant).bar 1).arr c ≤ ((u.tenant y.tenant).bar 1).done)) (fun _ _ _ _ h => of_decide_eq_true h) (by decide +kernel),
    word_meets' rfl (fun _ _ _ _ => trivial) (by decide +kernel),
    word_meets' rfl (fun _ _ _ _ => trivial) (by decide +kernel),
    word_meets' rfl (fun _ _ _ _ => trivial) (by decide +kernel)⟩

theorem witness_SystemWords :
    WordMeets systemWords base (.klaunch 56 0) ∧
    WordMeets systemWords base (.sacinv) ∧
    WordMeets systemWords sys0 (.tinv 56) ∧
    WordMeets systemWords sys0 (.wfi) ∧
    WordMeets systemWords sys0 (.spflush) ∧
    WordMeets systemWords sys0 (.ctxsave 1) ∧
    WordMeets systemWords sys0 (.ctxload 1) ∧
    WordMeets systemWords sys0 (.cntsnap 1) ∧
    WordMeets systemWords (withRec (sys0.modCore 0 (fun k => { k with part := some 0 })) (rec8 [1, 0, 0, 0, 0, 0, 1])) (.barcfg 56 1) :=
  ⟨word_meets' rfl (fun _ _ _ _ => trivial) (by decide +kernel),
    word_meets' rfl (fun _ _ _ _ => trivial) (by decide +kernel),
    word_meets' rfl (fun _ _ _ _ => trivial) (by decide +kernel),
    word_meets' rfl (fun _ _ _ _ => trivial) (by decide +kernel),
    word_meets' rfl (fun _ _ _ _ => trivial) (by decide +kernel),
    word_meets' rfl (fun _ _ _ _ => trivial) (by decide +kernel),
    word_meets' rfl (fun _ _ _ _ => trivial) (by decide +kernel),
    word_meets' rfl (fun _ _ _ _ => trivial) (by decide +kernel),
    word_meets' rfl (fun _ _ _ _ => trivial) (by decide +kernel)⟩

/-! ## Witnesses: scalar results, multiplies, traps -/

/-- A destination that may be written now, decided. -/
def destB (s : State) (x : Ctx) (pops : List Nat) (d : Nat) : Bool :=
  !(decide (48 ≤ d) && decide (d ≤ 53)) && (decide (d ≠ 54) || (!x.priv && decide ((x.q6.length - pops.count 54) + 1 ≤ Config.q6Depth))) &&
    (decide (d ≠ 55) || decide ((s.tenant x.tenant).obox.length < 256))

theorem dest_of {s : State} {x : Ctx} {pops : List Nat} {d : Nat} (h : destB s x pops d = true) : DestOk s x pops d := by
  simp only [destB, Bool.and_eq_true, Bool.or_eq_true, Bool.not_eq_true', Bool.and_eq_false_iff, decide_eq_true_eq,
    decide_eq_false_iff_not] at h
  obtain ⟨⟨h1, h2⟩, h3⟩ := h
  exact ⟨by omega, fun e => by rcases h2 with h2 | h2; exact absurd e h2; exact h2, fun e => by rcases h3 with h3 | h3; exact absurd e h3; exact h3⟩

/-- State s and a row of a scalar table meet every hypothesis of the statements about scalar results. -/
def ScalarMeets (row : Ctx → Option ScalarRow) (s : State) : Prop :=
  ∃ (x : Ctx) (r : ScalarRow) (vals : List Dword) (pops : List Nat),
    row x = some r ∧ Idle s x ∧ readAll s s.cur x r.srcs [] [] = .ok vals pops ∧ DestOk s x pops r.dst

def scalarB (row : Ctx → Option ScalarRow) (s : State) : Bool :=
  match s.ctx s.cur with
  | none => false
  | some x => idleB s x &&
    match row x with
    | none => false
    | some r =>
      match readAll s s.cur x r.srcs [] [] with
      | .ok _ pops => destB s x pops r.dst
      | _ => false

theorem scalar_meets {row : Ctx → Option ScalarRow} {s : State} (h : scalarB row s = true) : ScalarMeets row s := by
  unfold scalarB at h
  split at h
  · cases h
  · next x hx =>
    rw [Bool.and_eq_true] at h
    obtain ⟨hi, h⟩ := h
    split at h
    · cases h
    · next r hr =>
      split at h
      · next vals pops hv => exact ⟨x, r, vals, pops, hr, idle_of hi, hv, dest_of h⟩
      · cases h

/-- Every integer word, and `add` with each kind of destination: a register, the result queue only, q6, the mailbox. -/
theorem witness_IntegerWords : ∀ i ∈ [Instr.add 3 1 2, .add 31 1 2, .add 32 1 2, .add 54 1 2, .add 55 1 2, .sub 3 1 2, .mul 3 1 2, .mulh 3 1 2, .mulhu 3 1 2,
    .div 3 1 2, .divu 3 1 2, .rem 3 1 2, .remu 3 1 2, .and 3 1 2, .or 3 1 2, .xor 3 1 2, .andn 3 1 2, .shl 3 1 2, .shr 3 1 2, .sra 3 1 2,
    .rotl 3 1 2, .min 3 1 2, .max 3 1 2, .minu 3 1 2, .maxu 3 1 2, .clz 3 1, .ctz 3 1, .popc 3 1, .addi 3 1 5, .andi 3 1 5, .ori 3 1 5,
    .xori 3 1 5, .shli 3 1 5, .shri 3 1 5, .srai 3 1 5, .muli 3 1 5, .li 3 5, .fabs 3 1, .fneg 3 1], ScalarMeets (fun x => intRow x i) n1 := by
  intro i hi
  exact scalar_meets (List.all_eq_true.mp (by decide +kernel : List.all _ (fun i => scalarB (fun x => intRow x i) n1) = true) i hi)

theorem witness_FloatWords : ∀ i ∈ [Instr.fadd 3 1 2, .fsub 54 1 2, .fmul 3 1 2, .fdiv 3 1 2, .fmin 3 1 2, .fmax 3 1 2, .fsqrt 3 1, .fcvtWf 3 1],
    ScalarMeets (fun x => floatRow x i) n1 := by
  intro i hi
  exact scalar_meets (List.all_eq_true.mp (by decide +kernel : List.all _ (fun i => scalarB (fun x => floatRow x i) n1) = true) i hi)

theorem witness_ReadingWords : ∀ i ∈ [Instr.fcvtFw 3 1, .csel 3 1 2 1, .pget 3 1 1, .rdshape 3 1, .csrr 3 0],
    ScalarMeets (fun x => readRow n1 x i) n1 := by
  intro i hi
  exact scalar_meets (List.all_eq_true.mp (by decide +kernel : List.all _ (fun i => scalarB (fun x => readRow n1 x i) n1) = true) i hi)

/-- A q-port read by both operands of `csel` (R96). -/
theorem witness_SelectWord : ∃ (x : Ctx) (vals : List Dword) (pops : List Nat), Idle chan0 x ∧
    readAll chan0 chan0.cur x [48, 56] [] [] = .ok vals pops ∧ DestOk chan0 x pops 3 :=
  ⟨(chan0.ctx 0).getD {}, [5, 0], [48], idle_of (by decide +kernel), by decide +kernel, dest_of (by decide +kernel)⟩

/-- The hypotheses of the multiply statement, decided but for the word. -/
def mulB (s : State) (i : Instr) : Bool :=
  match mulWords i, s.ctx s.cur with
  | some (op, acc, a, b, tx, f), some x => idleB s x &&
    (match mulChk op acc a b tx f s s.cur x (mkWord x i { eng := .m } []) with
    | .ok w => passB s x i { eng := .m } [] w &&
      (match (touchUnits (s.entered x { eng := .m } w []) s.cur x.me w.units).ctx s.cur with
      | some y =>
        let u := touchUnits (s.entered x { eng := .m } w []) s.cur x.me w.units
        let k := (touchUnits u s.cur y.me (((((gathered op w (u.core s.cur) tx (List.range (w.rows a))).map Prod.snd).dedup).map spadUnit).dedup)).core s.cur
        k.tilePoison.isEmpty && k.accPoison.isEmpty && k.spadPoison.isEmpty
      | none => false)
    | _ => false)
  | _, _ => false

def MulMeets (s : State) (i : Instr) : Prop :=
  ∃ (u u2 : State) (x y : Ctx) (op : MulOp) (acc a b tx : Nat) (f : BitVec 3) (vals : List Dword) (pops : List Nat) (w : QWord),
    mulWords i = some (op, acc, a, b, tx, f) ∧ Idle s x ∧ Passes s x i { eng := .m } (mulChk op acc a b tx f) vals pops w ∧
    u = touchUnits (s.entered x { eng := .m } w pops) s.cur x.me w.units ∧ u.ctx s.cur = some y ∧
    u2 = touchUnits u s.cur y.me (((((gathered op w (u.core s.cur) tx (List.range (w.rows a))).map Prod.snd).dedup).map spadUnit).dedup) ∧
    (u2.core s.cur).clean

theorem mul_meets {s : State} {i : Instr} (h : mulB s i = true) : MulMeets s i := by
  unfold mulB at h
  split at h
  · next op acc a b tx f x hm hx =>
    rw [Bool.and_eq_true] at h
    obtain ⟨hi, h⟩ := h
    split at h
    · next w hc =>
      rw [Bool.and_eq_true] at h
      obtain ⟨hp, h⟩ := h
      split at h
      · next y hy =>
        simp only [Bool.and_eq_true, List.isEmpty_iff] at h
        exact ⟨_, _, x, y, op, acc, a, b, tx, f, [], [], w, hm, idle_of hi, passes_of rfl hc hp, rfl, hy, rfl, h.1.1, h.1.2, h.2⟩
      · cases h
    · cases h
  · cases h

/-- BF16 operands; for `mma.sp` a 4:2-sparse B with its metadata, for `mma.g` an index tile. -/
def mul0 : State := tiles0 [(3, 2, 2, 8), (4, 2, 4, 8), (5, 0x0C, 4, 1), (6, 2, 4, 4), (7, 9, 8, 2)]

theorem witness_MultiplyWords : MulMeets mul0 (.mma 1 3 4 9 0) ∧ MulMeets mul0 (.mma 3 3 4 9 1) ∧ MulMeets mul0 (.mmaSp 1 3 6 5 0) ∧
    MulMeets mul0 (.mmaG 1 3 4 7 0) :=
  ⟨mul_meets (by decide +kernel), mul_meets (by decide +kernel), mul_meets (by decide +kernel), mul_meets (by decide +kernel)⟩

theorem witness_ClearAccumulator : ∃ (x : Ctx), Idle base x := ⟨(base.ctx 0).getD {}, idle_of (by decide +kernel)⟩

/-- The context that captures. -/
def ctxOf (s : State) : Ctx := (s.ctx s.cur).getD {}

/-- A handler is installed for tenant 0. -/
def handler0 : State := base.modCore 0 (fun k => { k with tvec := [(0, 0x20000)] })

/-- A handler over a held store, the fourth operation of its sequencer. -/
def keeps0 : State := priv0 (fun x => { x with
  held := { words := [{ instr := .nop, eng := .s, seq := 0, seqr := some 2, opn := 3 }] }, seqrs := [(2, { opened := [3] })] })

/-- `trap`, `ebrk` and the privileged words in user mode with a handler; no handler; privileged mode, a word held there. -/
theorem witness_TrapWords :
    (∃ x, Idle handler0 x ∧ x.priv = false ∧ Map.get 0 (handler0.core handler0.cur).tvec x.tenant ≠ 0) ∧
    (∃ x, Idle base x ∧ Map.get 0 (base.core base.cur).tvec x.tenant = 0) ∧ (∃ x, Idle sys0 x ∧ x.priv = true) ∧
    (∃ x, Idle keeps0 x ∧ x.priv = true ∧ ∃ w ∈ x.held.words, w.seqr = some 2 ∧ w.opn ∈ (x.seqr 2).opened) :=
  ⟨⟨ctxOf handler0, idle_of (by decide +kernel), by decide +kernel⟩, ⟨ctxOf base, idle_of (by decide +kernel), by decide +kernel⟩,
    ⟨ctxOf sys0, idle_of (by decide +kernel), by decide +kernel⟩, ⟨ctxOf keeps0, idle_of (by decide +kernel), by decide +kernel⟩⟩

theorem witness_PrivilegedWords :
    ∃ x, Idle handler0 x ∧ x.priv = false ∧ Map.get 0 (handler0.core handler0.cur).tvec x.tenant ≠ 0 := witness_TrapWords.1

/-- A handler about to return: `pstat`, `epc`; a word and tokens held, entry at 0x1_0008, capture point 0x1_0010. -/
def ret0 (k : BitVec 8) (pc : Nat) : State := at0 (fun x => { x with
  pstat := k, epc := pc
  held := { words := [{ instr := .nop, eng := .s, seq := 0 }], toks := [(1, 2)], resume := 0x10010, trapped := some 0, epc0 := 0x10008 } })

/-- The four cases of R300: a capture trap; an engine trap with `epc` as at entry, without and with skip; `epc` changed. -/
theorem witness_ReturnWord :
    (∃ x, Idle (ret0 1 0x10008) x ∧ x.priv = true ∧ x.tok = [] ∧ (∀ w ∈ x.held.words, w.seq ≠ x.nextSeq) ∧ x.pstat.getLsbD 2 = false) ∧
    (∃ x, Idle (ret0 5 0x10008) x ∧ x.priv = true ∧ x.tok = [] ∧ (∀ w ∈ x.held.words, w.seq ≠ x.nextSeq) ∧ x.pstat.getLsbD 2 = true ∧
      x.epc = x.held.epc0 ∧ x.pstat.getLsbD 6 = false) ∧
    (∃ x, Idle (ret0 0x45 0x10008) x ∧ x.priv = true ∧ x.tok = [] ∧ (∀ w ∈ x.held.words, w.seq ≠ x.nextSeq) ∧ x.pstat.getLsbD 2 = true ∧
      x.epc = x.held.epc0 ∧ x.pstat.getLsbD 6 = true) ∧
    (∃ x, Idle (ret0 5 0x10004) x ∧ x.priv = true ∧ x.tok = [] ∧ (∀ w ∈ x.held.words, w.seq ≠ x.nextSeq) ∧ x.pstat.getLsbD 2 = true ∧
      x.epc ≠ x.held.epc0) :=
  ⟨⟨ctxOf (ret0 1 0x10008), idle_of (by decide +kernel), by decide +kernel⟩,
    ⟨ctxOf (ret0 5 0x10008), idle_of (by decide +kernel), by decide +kernel⟩,
    ⟨ctxOf (ret0 0x45 0x10008), idle_of (by decide +kernel), by decide +kernel⟩,
    ⟨ctxOf (ret0 5 0x10004), idle_of (by decide +kernel), by decide +kernel⟩⟩

/-- Two cores of a gang; channel q0 leads to the next core. -/
def chan1 : State := (at0 (fun x => { x with gang := true, lid := 3, chdecl := [(0, (1, 2))], n := [(1, 7), (2, 8)] })).modCore 1
  (fun k => { k with res := some { uid := 1, gang := true, lid := 3, chdecl := [(0, (1, 2))] } })

theorem witness_ChannelResults : ∃ (x : Ctx) (r : ScalarRow) (vals : List Dword) (pops : List Nat),
    intRow x (.add 48 1 2) = some r ∧ Idle chan1 x ∧ readAll chan1 chan1.cur x r.srcs [] [] = .ok vals pops ∧ 48 ≤ r.dst ∧ r.dst ≤ 53 ∧
    destTrap x r.dst = false ∧ channelCredit chan1 chan1.cur x (r.dst - 48) = true ∧ peerOf x chan1.cur (r.dst - 48) = some 1 ∧ 1 ≠ chan1.cur :=
  ⟨ctxOf chan1, _, [7, 8], [], rfl, idle_of (by decide +kernel), by decide +kernel, by decide +kernel, by decide +kernel,
    by decide +kernel, by decide +kernel, by decide +kernel, by decide +kernel⟩


/-- One word by itself, as a table of one row. -/
def only (sp : CapSpec) (chk : State → Nat → Ctx → QWord → Chk) (ok : State → Nat → Ctx → QWord → Prop) : Instr → Option WordSpec :=
  fun _ => some { sp := sp, chk := chk, ok := ok, out := fun u _ _ _ => u }

/-- A load of a marked row, with a handler. -/
def bad0 : State := (n1.modCore 0 (fun k => { k with tvec := [(0, 0x20000)], spadPoison := [1] }))
theorem witness_MemoryWords_ecc :
    WordMeets (only { eng := .s, srcs := [2], dst := some 3, mem := true } (chkSpadWord (0 : BitVec 11) false)
      (fun u c _ v => v.pa / 128 ∈ (u.core c).spadPoison)) bad0 (.lds 3 2 0) ∧
    (ctxOf bad0).priv = false ∧ Map.get 0 (bad0.core bad0.cur).tvec (ctxOf bad0).tenant ≠ 0 :=
  ⟨word_meets rfl (fun u c _ v => decide (v.pa / 128 ∈ (u.core c).spadPoison)) (fun _ _ _ _ h => of_decide_eq_true h)
    (by decide +kernel), by decide +kernel⟩

/-- Channel q0 as the destination of `lds`, `ldg` and `hpass`. -/
def chan2 : State := chan1.modCtx 0 (fun x => { x with n := [(1, 0x10000), (2, 128)] })
theorem witness_ChannelResults_loads :
    WordMeets (only { eng := .s, srcs := [2], dst := some 48, mem := true } (chkSpadWord (0 : BitVec 11) false)
      (fun u c _ v => v.pa / 128 ∉ (u.core c).spadPoison)) chan2 (.lds 48 2 0) ∧
    WordMeets (only { eng := .s, srcs := [1], dst := some 48, mem := true } (chkGlobWord (0 : BitVec 11) false)
      (fun u c y v => ∃ pa, stlbTranslate u c y.tenant v.pa false = .ok pa)) chan2 (.ldg 48 1 0) ∧
    WordMeets (fun i => (handleWords i).map (fun r => { r with ok := fun _ _ _ _ => True })) chan2 (.hpass 0 48) ∧
    peerOf (ctxOf chan2) chan2.cur 0 = some 1 ∧ 1 ≠ chan2.cur :=
  ⟨word_meets rfl (fun u c _ v => decide (v.pa / 128 ∉ (u.core c).spadPoison)) (fun _ _ _ _ h => of_decide_eq_true h) (by decide +kernel),
    word_meets rfl (fun u c y v => match stlbTranslate u c y.tenant v.pa false with | .ok _ => true | .error _ => false)
      (fun u c y v h => by split at h; exact ⟨_, ‹_›⟩; cases h) (by decide +kernel),
    word_meets' rfl (fun _ _ _ _ => trivial) (by decide +kernel), by decide +kernel⟩

/-! ## Witnesses: a core's engines -/

/-- A waiting word; a head word that can start; a drain with nothing left to perform; a flag that holds what is waited for; a
finished word that signals the V engine. -/
def fly0 (w : QWord) : State := at0 (fun x => { x with fly := [w] })
def waitW : QWord := { instr := .wfi, eng := .s, seq := 0, waiting := true }
def headW : QWord := { instr := .nop, eng := .s, seq := 0 }
def drainW : QWord := { instr := .hdrain 0 5, eng := .y, seq := 0, waiting := true, covers := [{ seqr := 0, count := 1, scope := 5 }] }
def flagW : QWord := { instr := .flagWait 1 2, eng := .y, seq := 0, waiting := true, ops := [0, 0] }
def doneW : QWord := { instr := .nop, eng := .s, seq := 0, finished := true, pfx := { hasTok := true, signal := 2 } }
def queued0 : State := at0 (fun x => { x with qs := [headW] })
/-- A tile word whose row accesses are chosen one by one: at its head, and between two of them. -/
def tileW : QWord := { instr := .vadd 3 4 5 0, eng := .v, seq := 0, units := [3, 4, 5] }
def rows1 : State := { at0 (fun x => { x with qs := [tileW] }) with picks := [1, 2] }
def midW : QWord := { tileW with mid := some { todo := [3 * 128] } }
def mid0 : State := { fly0 midW with picks := [1] }
/-- A gather between two rows of its list, its engine holding a packet back. -/
def listW : QWord := { instr := .xgat 0 0 0 0 0, eng := .x, seq := 0, mid := some { todo := [] }
                       lst := some { next := 8, cmd := 9, first := 10, leaves := [.core 0] } }
def gather0 : State := { fly0 listW with net := [(7, { seq := 7, kind := .gmapDel 5, src := .core 0, dst := .slice 0, tenant := 0, cls := 1, st := .held })] }
/-- The same where the packet that the core holds back is another tenant's. -/
def other0 : State := { fly0 listW with net := [(7, { seq := 7, kind := .gmapDel 5, src := .core 0, dst := .slice 0, tenant := 1, cls := 1, st := .held })] }

theorem witness_WordStart :
    ((fly0 waitW).running 0 = some (ctxOf (fly0 waitW)) ∧ (fly0 waitW).midWord 0 .s = none ∧
      (ctxOf (fly0 waitW)).fly.find? (fun v => v.waiting && v.eng == .s) = some waitW) ∧
    (queued0.running 0 = some (ctxOf queued0) ∧ queued0.midWord 0 .s = none ∧ queued0.picks = [] ∧ (ctxOf queued0).fly.find? (fun v => v.waiting && v.eng == .s) = none ∧
      (ctxOf queued0).head .s = some headW ∧ queued0.canStart 0 (ctxOf queued0) headW = true) ∧
    (rows1.running 0 = some (ctxOf rows1) ∧ rows1.midWord 0 .v = none ∧ (ctxOf rows1).fly.find? (fun v => v.waiting && v.eng == .v) = none ∧
      (ctxOf rows1).head .v = some tileW ∧ rows1.canStart 0 (ctxOf rows1) tileW = true ∧ rows1.picks ≠ [] ∧ tileW.rowwise = true) ∧
    (mid0.ctx 0 = some (ctxOf mid0) ∧ mid0.powered = true ∧ (ctxOf mid0).fly.find? (fun v => v.mid.isSome && v.eng == .v) = some midW ∧
      midW.lst = none) ∧
    (∀ s ∈ [gather0, other0], s.ctx 0 = some (ctxOf s) ∧ s.powered = true ∧ (ctxOf s).fly.find? (fun v => v.mid.isSome && v.eng == .x) = some listW) ∧
    (gather0.ctx 0 = some (ctxOf gather0) ∧ listW.lst.isSome = true ∧ gather0.limited 0 0 listW.eng = true ∧ other0.limited 0 0 listW.eng = false) ∧
    (drainW.mid = none ∧ flagW.mid = none ∧ drainW.lst = none ∧ flagW.lst = none ∧ (fly0 drainW).running 0 = some (ctxOf (fly0 drainW)) ∧
      (ctxOf (fly0 drainW)).fly.find? (fun v => v.waiting && v.drains) = some drainW ∧
      drainW.covers.all (fun p => (fly0 drainW).preOk (ctxOf (fly0 drainW)) p) = true) ∧
    ((fly0 flagW).running 0 = some (ctxOf (fly0 flagW)) ∧
      (ctxOf (fly0 flagW)).fly.find? (fun v => v.waiting && v.awaitsFlag) = some flagW ∧
      flagHolds (((fly0 flagW).core 0).flag ((op0 flagW).toNat % 128)) (op1 flagW) = true) := by
  decide +kernel

theorem witness_TokenSignal : (fly0 doneW).ctx 0 = some (ctxOf (fly0 doneW)) ∧ (ctxOf (fly0 doneW)).signaller .s = some doneW := by
  decide +kernel

/-- A span at its end, of a launch with one span left. -/
def end0 : State := (at0 (fun x => { x with ending := true, lid := 1 })).modTenant 0 (fun t => { t with launches := [(1, { live := 1 })] })

theorem witness_SpanEnd : end0.ctx 0 = some (ctxOf end0) ∧ end0.powered = true ∧ (ctxOf end0).endReady = true ∧ end0.unissued 0 (ctxOf end0) = false ∧
    end0.launch (ctxOf end0).tenant (ctxOf end0).lid = some { live := 1 } ∧ (ctxOf end0).fly = [] := by decide +kernel

/-- A raised trap; a pop that has waited 11 cycles where `qtmo` is 10. -/
def pendT : Pend := { cause := 2, tval := 5, eng := .v, addr := 0x10000, word := some 0 }
def trap0 : State := handler0.modCtx 0 (fun x => { x with pend := some pendT })
/-- The same of the second word of a queue whose first is under way. -/
def behind0 : State := handler0.modCtx 0 (fun x => { x with
  pend := some { pendT with word := some 1 }, fly := [{ headW with eng := .v }] })
def pop0 : State := { handler0.modCtx 0 (fun x => { x with stall := .chan 48 0 5, qtmo := 10, grp := { addr := 0x10000 } }) with cycle := 16 }

theorem witness_TrapSteps :
    (trap0.running 0 = some (ctxOf trap0) ∧ trap0.noneRunsOn 0 (ctxOf trap0) = true ∧ (ctxOf trap0).priv = false ∧
      Map.get 0 (trap0.core 0).tvec (ctxOf trap0).tenant ≠ 0 ∧ (ctxOf trap0).pend = some pendT ∧ (ctxOf trap0).earlierDone .v (some 0) = true) ∧
    (behind0.running 0 = some (ctxOf behind0) ∧ behind0.noneRunsOn 0 (ctxOf behind0) = true ∧ (ctxOf behind0).priv = false ∧
      Map.get 0 (behind0.core 0).tvec (ctxOf behind0).tenant ≠ 0 ∧ (ctxOf behind0).pend = some { pendT with word := some 1 } ∧
      (ctxOf behind0).earlierDone .v (some 1) = false) ∧
    (pop0.running 0 = some (ctxOf pop0) ∧ pop0.noneRunsOn 0 (ctxOf pop0) = true ∧ (ctxOf pop0).priv = false ∧
      Map.get 0 (pop0.core 0).tvec (ctxOf pop0).tenant ≠ 0 ∧ (ctxOf pop0).stall = .chan 48 0 5 ∧ (ctxOf pop0).grp ≠ {} ∧ (ctxOf pop0).awaited 48 0 = true ∧ (ctxOf pop0).pend = none ∧
      (ctxOf pop0).ending = false ∧ (ctxOf pop0).qtmo ≠ 0 ∧ (ctxOf pop0).qtmo < pop0.cycle - 5) := by decide +kernel

/-- Units of core 0. Of its resident context: 80 its own, 175 free, 4 and 5 saved, 5 of a dead tile. Spilling: 3 of an urgent span
beside tenant 1's suspended one, 6 of a dead tile of the latter, 7 of a live one. A map at slice 0. -/
def unit0 : State := (base.modCore 0 (fun k => { k with
    res := some { uid := 1, pc := 0x10000, dead := [5] }, sus := some { uid := 2, tenant := 1, dead := [6] }, saved := [(0, [4, 5])]
    owner := [(3, { tenant := 1, sus := false }), (6, { tenant := 1, sus := true }), (7, { tenant := 1, sus := true }), (80, { tenant := 0, sus := false })]
    spilling := [3, 6, 7] })).modTenant 0 (fun t => { t with gmaps := [(5, gmap0)], gslices := [(5, List.range 128)] })

theorem witness_UnitSteps :
    (unit0.ctx 0 = some (ctxOf unit0) ∧ 80 < 176 ∧ Map.at? (unit0.core 0).owner 80 = some (ctxOf unit0).me) ∧
    ((unit0.core 0).beside (ctxOf unit0).me = false ∧ (∀ u ∈ [175, 4, 5], Map.at? (unit0.core 0).owner u = none) ∧
      175 ∉ (unit0.core 0).savedOf 0 ∧ 4 ∈ (unit0.core 0).savedOf 0 ∧ 4 ∉ (ctxOf unit0).dead ∧ 5 ∈ (unit0.core 0).savedOf 0 ∧
      5 ∈ (ctxOf unit0).dead) ∧
    (3 ∈ (unit0.core 0).spilling ∧ Map.at? (unit0.core 0).owner 3 = some { tenant := 1, sus := false } ∧
      (unit0.core 0).deadUnit { tenant := 1, sus := false } 3 = false ∧ (unit0.core 0).beside { tenant := 1, sus := false } = true) ∧
    (6 ∈ (unit0.core 0).spilling ∧ Map.at? (unit0.core 0).owner 6 = some { tenant := 1, sus := true } ∧
      (unit0.core 0).deadUnit { tenant := 1, sus := true } 6 = true) ∧
    (7 ∈ (unit0.core 0).spilling ∧ Map.at? (unit0.core 0).owner 7 = some { tenant := 1, sus := true } ∧
      (unit0.core 0).deadUnit { tenant := 1, sus := true } 7 = false ∧ (unit0.core 0).beside { tenant := 1, sus := true } = false) ∧
    unit0.gmapAt 0 5 0 = some gmap0 := by decide +kernel

/-! ## Witnesses: packets -/

/-- The machine with packet 7 in flight. -/
def net0 (s : State) (p : Packet) : State := { s with net := [(7, p)] }
def toCore (k : PKind) : Packet := { seq := 7, kind := k, src := .slice 0, dst := .core 0, tenant := 0, cls := 1, cmd := 9 }
def toSlice (k : PKind) : Packet := { seq := 7, kind := k, src := .core 0, dst := .slice 0, tenant := 0, cls := 1, cmd := 9 }
def hdr0 : Hdr := { tag := 5, tenant := 0, origin := 0, blk := 4, etype := 1 }
def beat0 : Beat := { row := 0, plane := 0, batch := 0, off := 0, count := 4, pad := 0, poison := false, data := 0 }

theorem arriving_net0 (s : State) (p : Packet) (hs : p.st = .flying) (ha : Map.at? s.applied p.seq = none) : (net0 s p).Arriving 7 p :=
  ⟨by simp [State.flying, net0, Map.at?, hs], fun _ => ha⟩

/-- A context with a landing map for tag 5; the same with a ring map whose ring is not initialised. -/
def land0 : State := at0 (fun x => { x with maps := [(0, landMap)] })
def open0 : OpenBlk := { hdr := hdr0, cmd := 9, src := .slice 0, bound := some (0, landMap, 1, 0), need := some 0 }
def ringMap : Rec512 := rec8 [5 + 4096 + 3 * 8192 + 65536, 0, dim.1, 2 ^ 32 * 32, 256 + 2 ^ 32 * 2, 8 + 65536 * 4]
def refuse0 : State := at0 (fun x => { x with maps := [(0, ringMap)] })
def opened0 : State := land0.modCore 0 (fun k => { k with blks := [(4, open0)] })
/-- Block 4 has completed; it is open with the marker of a failed link. -/
def past0 : State := { land0 with applied := [(4, .ack 4 [4] {})] }
def linked0 : State := land0.modCore 0 (fun k => { k with blks := [(4, { open0 with link := true })] })

/-- What a packet's block is at core 0, and what a clause asks of it, decided. -/
def blockB (s : State) (p : Packet) (row : Nat) (cols : List Nat) (ok : State → OpenBlk → Bool) : Bool :=
  match s.blockFor 0 p hdr0 row cols with
  | some r => ok r.1 r.2 && (decide ((Map.at? (s.core 0).blks 4).isSome) || (match r.2.ringOf with | some g => !s.wfreeReady 0 g.1 g.2 | none => true))
  | none => false

def beatP : Packet := toCore (.beat hdr0 beat0)
def closeP (n : Nat) : Packet := toCore (.close hdr0 n false)
def cols0 : List Nat := (beatCells hdr0 beat0).map (fun e => e.1)

/-- The hypotheses of the clause on landed bits, decided. -/
def landsB (s u : State) (b : OpenBlk) : Bool :=
  match b.bound, u.ctx 0 with
  | some (_, m, i, slot), some x => decide (x.uid = i) && decide (x.tenant = 0) &&
    (let v := (u.unsend 7).noteApplied beatP (.ack 7 [] {})
     decide (v.ctx 0 = some x) && (v.core 0).sus.isNone &&
      (partRows b.parts ++ (landed m hdr0 beat0).flatMap (fun e => cellRows m hdr0.origin slot 0 e.1)).all
        (fun r => decide (Map.at? (v.core 0).owner (spadUnit r) = some x.me))) && !(landed m hdr0 beat0).isEmpty && (s.core 0).sus.isNone
  | _, _ => false

/-- A ring whose next slot is free and for which a `ring.wfree` waits. -/
def wfree0 : State := at0 (fun x => { x with
  maps := [(0, ringMap)], rings := [(0, { init := true, up := true, base := 1024, slots := 2, slotbytes := 256 })]
  fly := [{ instr := .ringWfree 0, eng := .y, seq := 0, waiting := true }] })
def sliceClose (s : State) : State := net0 s (toSlice (.close hdr0 2 false))

/-- Beats of an open block and of one they open, bound and unbound; close markers of the same; a first arrival refused; one that meets
a `ring.wfree`; either for a block that has completed; a marker at a slice before and after its beats. -/
theorem witness_BeatArrival :
    (∀ s ∈ [opened0, land0], (net0 s beatP).Arriving 7 beatP ∧ Map.at? s.applied 4 = none ∧ blockB (net0 s beatP) beatP 0 cols0 (landsB (net0 s beatP)) = true) ∧
    ((net0 base beatP).Arriving 7 beatP ∧ Map.at? base.applied 4 = none ∧ blockB (net0 base beatP) beatP 0 cols0 (fun _ b => b.bound.isNone) = true ∧
      ((net0 base beatP).core 0).sus = none) ∧
    (∀ s ∈ [opened0, linked0, land0, base], (net0 s (closeP 1)).Arriving 7 (closeP 1) ∧ Map.at? s.applied 4 = none ∧ blockB (net0 s (closeP 1)) (closeP 1) 0 [] (fun _ _ => true) = true) ∧
    ((net0 refuse0 beatP).Arriving 7 beatP ∧ Map.at? refuse0.applied 4 = none ∧ (net0 refuse0 beatP).blockFor 0 beatP hdr0 0 cols0 = none ∧
      (net0 refuse0 (closeP 1)).blockFor 0 (closeP 1) hdr0 0 [] = none) ∧
    ((net0 wfree0 beatP).Arriving 7 beatP ∧ Map.at? wfree0.applied 4 = none ∧ ((net0 wfree0 beatP).blockFor 0 beatP hdr0 0 cols0).map (fun r => r.2.ringOf) = some (some (1, 0)) ∧
      Map.at? ((net0 wfree0 beatP).core 0).blks 4 = none ∧ (net0 wfree0 beatP).wfreeReady 0 1 0 = true) ∧
    (∀ p ∈ [beatP, closeP 1], (net0 past0 p).Arriving 7 p ∧ (Map.at? past0.applied 4).isSome = true) ∧
    ((sliceClose base).Arriving 7 (toSlice (.close hdr0 2 false)) ∧ ((sliceClose base).slcBlk 4).beats < 2 ∧
      2 ≤ ((sliceClose { base with slcBlks := [(4, { beats := 2 })] }).slcBlk 4).beats) := by
  refine ⟨fun s hs => ?_, ⟨arriving_net0 _ _ rfl (by decide +kernel), by decide +kernel⟩, fun s hs => ?_,
    ⟨arriving_net0 _ _ rfl (by decide +kernel), by decide +kernel⟩, ⟨arriving_net0 _ _ rfl (by decide +kernel), by decide +kernel⟩, fun p hs => ?_,
    ⟨arriving_net0 _ _ rfl (by decide +kernel), by decide +kernel⟩⟩ <;>
  (simp only [List.mem_cons, List.not_mem_nil, or_false] at hs
   rcases hs with rfl | rfl | rfl | rfl <;> exact ⟨arriving_net0 _ _ rfl (by decide +kernel), by decide +kernel⟩)

theorem witness_DuplicatesAnswered :
    ({ net0 base (toSlice (.put hdr0 beat0)) with applied := [(7, .ack 7 [7] {})] } : State).flying 7 = some (toSlice (.put hdr0 beat0)) ∧
    (toSlice (.put hdr0 beat0)).kind.kept (toSlice (.put hdr0 beat0)).cls = true ∧
    (Map.at? ({ net0 base (toSlice (.put hdr0 beat0)) with applied := [(7, .ack 7 [7] {})] } : State).applied 7).isSome = true := by
  decide +kernel

/-- A whole block that no map took; one that landed in slot 0 of a ring; one with every position to fill. -/
def drop0 : State := base.modCore 0 (fun k => { k with blks := [(4, { open0 with bound := none })] })
def slot0 : State := (at0 (fun x => { x with
  rings := [(0, { init := true, up := true, base := 1024, slots := 2, slotbytes := 256, state := [(0, .landing)], ptr := 1 })] })).modCore 0
  (fun k => { k with blks := [(4, { open0 with bound := some (0, setBits ringMap 21 7 3, 1, 0) })] })

theorem witness_BlockComplete :
    (Map.at? (drop0.core 0).blks 4 = some { open0 with bound := none } ∧ ({ open0 with bound := none } : OpenBlk).whole = true) ∧
    (Map.at? (slot0.core 0).blks 4 = some { open0 with bound := some (0, setBits ringMap 21 7 3, 1, 0) } ∧
      ({ open0 with bound := some (0, setBits ringMap 21 7 3, 1, 0) } : OpenBlk).whole = true ∧ (ctxOf slot0).uid = 1 ∧
      mKind (setBits ringMap 21 7 3) = 3 ∧ mFill (setBits ringMap 21 7 3) = 3 ∧ slot0.ctx 0 = some (ctxOf slot0) ∧ (slot0.core 0).sus = none ∧
      ((ctxOf slot0).ring (mRing (setBits ringMap 21 7 3))).slotSt 0 = .landing) ∧
    (Map.at? (opened0.core 0).blks 4 = some open0 ∧ open0.whole = true ∧ opened0.ctx 0 = some (ctxOf opened0) ∧ (ctxOf opened0).uid = 1 ∧
      (ctxOf opened0).tenant = hdr0.tenant ∧ mFill landMap ≠ 3 ∧ unwritten open0 landMap ≠ [] ∧ (opened0.core 0).sus = none ∧
      ∀ r ∈ (unwritten open0 landMap).flatMap (fun e => cellRows landMap hdr0.origin 0 e.1 e.2),
        Map.at? (opened0.core 0).owner (spadUnit r) = some (ctxOf opened0).me) := by decide +kernel

/-- Command 9 awaits number 7, with a q6 element; an `ldg` under way. -/
def cmd0 : Cmd := { core := 0, uid := 1, tenant := 0, lid := 0, spanid := 0, word := 3, pend := [7], q6 := [1] }
def loadW : QWord := { instr := .ldg 3 1 0, eng := .s, seq := 3, dst := some 3 }
def ask0 (k : PKind) : State := { net0 (at0 (fun x => { x with fly := [loadW], q6 := [{ id := 1 }] })) (toCore k) with cmds := [(9, cmd0)] }

theorem witness_Replies :
    ((ask0 (.ack 7 [7] {})).flying 7 = some (toCore (.ack 7 [7] {})) ∧ Map.at? (ask0 (.ack 7 [7] {})).cmds 9 = some cmd0 ∧
      cmd0.pend ≠ [] ∧ ∀ a ∈ cmd0.pend, a ∈ [7]) ∧
    ((ask0 (.atomicReply 5 false 0x10000)).flying 7 = some (toCore (.atomicReply 5 false 0x10000)) ∧
      Map.at? (ask0 (.atomicReply 5 false 0x10000)).cmds 9 = some cmd0 ∧ cmd0.q6 = [1]) ∧
    ((ask0 (.atomicReply 5 true 0x10000)).flying 7 = some (toCore (.atomicReply 5 true 0x10000))) ∧
    ((ask0 (.loadReply 5 false 0x10000)).flying 7 = some (toCore (.loadReply 5 false 0x10000)) ∧
      Map.at? (ask0 (.loadReply 5 false 0x10000)).cmds 9 = some cmd0 ∧
      (ask0 (.loadReply 5 false 0x10000)).ctxOf cmd0.core cmd0.uid = some (ctxOf (ask0 (.loadReply 5 false 0x10000))) ∧
      (ask0 (.loadReply 5 false 0x10000)).ctx cmd0.core = some (ctxOf (ask0 (.loadReply 5 false 0x10000))) ∧
      (ctxOf (ask0 (.loadReply 5 false 0x10000))).fly.find? (fun u => decide (u.seq = cmd0.word)) = some loadW ∧ loadW.dst = some 3) := by
  decide +kernel

/-- A load whose destination is q0 or the mailbox, the latter full; a poisoned reply, with a handler, and where the core quiesces. -/
def loadTo (d : Nat) : QWord := { loadW with dst := some d }
def loads (d : Nat) (bad : Bool) (s : State) : State :=
  { net0 (s.modCtx 0 (fun x => { x with fly := [loadTo d] })) (toCore (.loadReply 5 bad 0x10000)) with cmds := [(9, { cmd0 with q6 := [] })] }
def fullBox : State := base.modTenant 0 (fun t => { t with obox := List.replicate 256 0 })
def badLoad : State := loads 3 true handler0
/-- The poisoned load behind another under way. -/
def behindLoad : State := badLoad.modCtx 0 (fun x => { x with fly := { loadTo 4 with seq := 2 } :: x.fly })
def badGone : State := (badLoad.forgets 7 (toCore (.loadReply 5 true 0x10000))).modCtxOf 0 1 (fun z => z.unstarted (loadTo 3))

theorem witness_Replies_loads :
    ((loads 55 false fullBox).flying 7 = some (toCore (.loadReply 5 false 0x10000)) ∧
      (ctxOf (loads 55 false fullBox)).fly.find? (fun u => decide (u.seq = 3)) = some (loadTo 55) ∧
      oboxRoom (loads 55 false fullBox) (ctxOf (loads 55 false fullBox)) = false ∧
      oboxRoom (loads 55 false base) (ctxOf (loads 55 false base)) = true) ∧
    ((loads 48 false chan1).flying 7 = some (toCore (.loadReply 5 false 0x10000)) ∧
      (ctxOf (loads 48 false chan1)).fly.find? (fun u => decide (u.seq = 3)) = some (loadTo 48) ∧
      peerOf (ctxOf (loads 48 false chan1)) 0 0 = some 1) ∧
    (badLoad.flying 7 = some (toCore (.loadReply 5 true 0x10000)) ∧ badLoad.ctx 0 = some (ctxOf badLoad) ∧ (ctxOf badLoad).pend = none ∧
      (ctxOf badLoad).uid = 1 ∧ (ctxOf badLoad).fly.find? (fun u => decide (u.seq = 3)) = some (loadTo 3) ∧
      badGone.noneRunsOn 0 ((ctxOf badLoad).unstarted (loadTo 3)) = true ∧ ((ctxOf badLoad).unstarted (loadTo 3)).earlierDone .s (some 3) = true ∧ (badLoad.core 0).quiesce = none ∧ (ctxOf badLoad).priv = false ∧
      Map.get 0 (badLoad.core 0).tvec (ctxOf badLoad).tenant ≠ 0) ∧
    (behindLoad.flying 7 = some (toCore (.loadReply 5 true 0x10000)) ∧ behindLoad.ctx 0 = some (ctxOf behindLoad) ∧
      (ctxOf behindLoad).pend = none ∧ (ctxOf behindLoad).fly.find? (fun u => decide (u.seq = 3)) = some (loadTo 3) ∧
      ((ctxOf behindLoad).unstarted (loadTo 3)).earlierDone .s (some 3) = false) ∧
    ((badLoad.modCore 0 (fun k => { k with quiesce := some (1, 8) })).core 0).quiesce ≠ none := by decide +kernel

/-- A packet of class 2 at a full buffer that holds one of class 1, and one that finds none below it; packets evicted, refused and held
for 64 cycles; a copy unacknowledged for 65,536; a twin copy beside a full request limit and an overdrawn bucket, each alone. -/
def held0 : Packet := { seq := 7, kind := .beat hdr0 beat0, src := .core 0, dst := .slice 0, tenant := 0, cls := 1, st := .held }
def limit0 (n : Int) : State := { base with net := [(6, { held0 with seq := 6, tenant := 1 }), (7, held0)] }.modTenant 0 (fun t => { t with bucket := [(0, (160, 64, n, 0))] })
def crowd0 : State := { base with
  net := [(7, { held0 with st := .flying }), (8, { held0 with seq := 8, st := .flying, cls := 2 }), (9, { held0 with seq := 9, st := .flying })]
  crowd := [7] }
def asked0 : Packet := { held0 with kind := .atomic 0 8 0x20000 0x20000 1 0 }
def busy0 : State := { net0 base asked0 with sent := (List.range 4097).map (fun i => (i + 7, { asked0 with seq := i + 7 })) }
def twin0 : Packet := { held0 with twin := true }

theorem witness_ResendSteps :
    (crowd0.flying 8 = some { held0 with seq := 8, st := .flying, cls := 2 } ∧ crowd0.flying 7 = some { held0 with st := .flying } ∧
      crowd0.flying 9 = some { held0 with seq := 9, st := .flying } ∧ 8 ∉ crowd0.crowd ∧ 9 ∉ crowd0.crowd ∧
      crowd0.victim 2 = some 7 ∧ crowd0.victim 1 ≠ some 7) ∧
    (Map.at? ({ net0 base { held0 with st := .evicted 0, evicts := 3 } with cycle := 64 } : State).net 7 =
      some { held0 with st := .evicted 0, evicts := 3 } ∧ 0 + 64 ≤ 64 ∧ 3 % 3 = 0 ∧ 1 % 3 ≠ 0 ∧
      Map.at? ({ net0 base { held0 with st := .evicted 0, evicts := 1 } with cycle := 64 } : State).net 7 =
        some { held0 with st := .evicted 0, evicts := 1 }) ∧
    (Map.at? ({ net0 base { held0 with st := .refused 0 } with cycle := 64 } : State).net 7 = some { held0 with st := .refused 0 }) ∧
    (Map.at? ({ base with sent := [(7, { held0 with st := .flying })], cycle := 65536 } : State).sent 7 = some { held0 with st := .flying } ∧
      held0.sentAt + 65536 ≤ 65536 ∧ Map.at? ({ base with sent := [(7, { held0 with st := .flying })], cycle := 65536 } : State).net 7 = none) := by
  decide +kernel

theorem witness_ResendSteps_release :
    (∀ n ∈ [(0 : Int), -1], Map.at? (limit0 n).net 7 = some held0 ∧ held0.st = .held ∧ held0.src = .core 0 ∧
      (∀ q ∈ (limit0 n).net, q.1 < 7 → q.2.st = .held → q.2.src = held0.src → q.2.tenant = held0.tenant → q.2.kind.engine ≠ held0.kind.engine) ∧ held0.twin = false ∧
      (((limit0 n).tenant 0).bucketOf (dieOf 0)).1 ≠ 0 ∧ (limit0 n).requestFull 0 held0.kind = false ∧
      (0 ≤ n ↔ 0 ≤ balanceAt (((limit0 n).tenant 0).bucketOf (dieOf 0)) (limit0 n).cycle)) ∧
    (Map.at? busy0.net 7 = some asked0 ∧ busy0.requestFull 0 asked0.kind = true ∧ (net0 base asked0).requestFull 0 asked0.kind = false) ∧
    (let s := { limit0 (-1) with net := [(7, twin0)] }
     Map.at? s.net 7 = some twin0 ∧ s.requestFull 0 twin0.kind = false ∧ ((s.tenant 0).bucketOf (dieOf 0)).1 ≠ 0 ∧
       balanceAt ((s.tenant 0).bucketOf (dieOf 0)) s.cycle < 0) := by
  decide +kernel

/-! ## Witnesses: slices -/

/-- Slice 0 holds the global map of tag 5. -/
def slice0 : State := base.modTenant 0 (fun t => { t with gmaps := [(5, gmap0)], gslices := [(5, List.range 128)] })
def putP : Packet := toSlice (.put hdr0 beat0)
def accP : Packet := toSlice (.acc hdr0 beat0 0)
def reqP : Packet := toSlice (.blockReq dG 0 0 0 1 [(.core 0, 8)] 0 0 0 [] 9)

/-- Put and accumulate beats, sound and poisoned, and a block request, at a slice with the map and at one without; there, with the
block's marker there and without it. -/
theorem witness_SliceWrites :
    ((net0 slice0 putP).Arriving 7 putP ∧ putP.dst = .slice 0 ∧ beat0.poison = false ∧
      sliceMap (net0 slice0 putP) putP hdr0 = some gmap0) ∧
    ((net0 base putP).Arriving 7 putP ∧ sliceMap (net0 base putP) putP hdr0 = none) ∧
    ((net0 slice0 accP).Arriving 7 accP ∧ accP.dst = .slice 0 ∧ accWaits (net0 slice0 accP) accP hdr0 beat0 = false ∧
      sliceMap (net0 slice0 accP) accP hdr0 = some gmap0) ∧
    ((net0 slice0 (toSlice (.put hdr0 { beat0 with poison := true }))).Arriving 7 (toSlice (.put hdr0 { beat0 with poison := true }))) ∧
    ((net0 slice0 (toSlice (.acc hdr0 { beat0 with poison := true } 0))).Arriving 7 (toSlice (.acc hdr0 { beat0 with poison := true } 0)) ∧
      accWaits (net0 slice0 (toSlice (.acc hdr0 { beat0 with poison := true } 0))) (toSlice (.acc hdr0 { beat0 with poison := true } 0)) hdr0
        { beat0 with poison := true } = false) ∧
    ((({ base with slcBlks := [(4, { need := some 1 })] } : State).slcBlk 4).need = some 1 ∧
      1 ≤ (({ base with slcBlks := [(4, { need := some 1 })] } : State).slcBlk 4).beats + 1 ∧ (base.slcBlk 4).need = none) ∧
    ((net0 base accP).Arriving 7 accP ∧ accWaits (net0 base accP) accP hdr0 beat0 = false ∧ sliceMap (net0 base accP) accP hdr0 = none) ∧
    ((net0 slice0 reqP).Arriving 7 reqP ∧ reqP.dst = .slice 0 ∧ (net0 slice0 reqP).gmapAt 0 (dTag dG) 0 = some gmap0) ∧
    ((net0 base reqP).Arriving 7 reqP ∧ (net0 base reqP).gmapAt 0 (dTag dG) 0 = none) :=
  ⟨⟨arriving_net0 _ _ rfl (by decide +kernel), by decide +kernel⟩, ⟨arriving_net0 _ _ rfl (by decide +kernel), by decide +kernel⟩,
    ⟨arriving_net0 _ _ rfl (by decide +kernel), by decide +kernel⟩, arriving_net0 _ _ rfl (by decide +kernel),
    ⟨arriving_net0 _ _ rfl (by decide +kernel), by decide +kernel⟩, by decide +kernel,
    ⟨arriving_net0 _ _ rfl (by decide +kernel), by decide +kernel⟩, ⟨arriving_net0 _ _ rfl (by decide +kernel), by decide +kernel⟩,
    ⟨arriving_net0 _ _ rfl (by decide +kernel), by decide +kernel⟩⟩

theorem witness_SliceWords :
    ((net0 base (toSlice (.atomic 0 8 0x20000 0x20000 1 0))).Arriving 7 (toSlice (.atomic 0 8 0x20000 0x20000 1 0)) ∧
      (net0 base (toSlice (.atomic 0 8 0x20000 0x20000 1 0))).poisoned 0x20000 8 = false) ∧
    (net0 base (toSlice (.store 0x20000 0x20000 5))).Arriving 7 (toSlice (.store 0x20000 0x20000 5)) ∧
    (net0 base (toSlice (.load 0x20000 0x20000))).Arriving 7 (toSlice (.load 0x20000 0x20000)) :=
  ⟨⟨arriving_net0 _ _ rfl (by decide +kernel), by decide +kernel⟩, arriving_net0 _ _ rfl (by decide +kernel),
    arriving_net0 _ _ rfl (by decide +kernel)⟩

/-! ## Witnesses: flags, barriers, channels, tickets -/

/-- Core 0's flag words belong to the resident context; core 5 holds none of tenant 0. -/
def flag0 : State := base.modCore 0 (fun k => { k with owner := [(175, { tenant := 0, sus := false })] })
def addP : Packet := toCore (.flagAdd 127 3)
def setP : Packet := toCore (.flagSet 0 3)
def barF : State := base.modTenant 0 (fun t => { t with bars := [(1, { parts := 1, conf := true, arr := [(0, 1)], full := some 0 })] })

theorem witness_FlagSteps :
    ((net0 flag0 addP).Arriving 7 addP ∧ (net0 flag0 addP).ctxFor 0 0 = some (ctxOf flag0) ∧ (net0 flag0 addP).ctx 0 = some (ctxOf flag0) ∧
      (ctxOf flag0).tenant = addP.tenant ∧ ((net0 flag0 addP).core 0).sus = none ∧
      Map.at? ((net0 flag0 addP).core 0).owner 175 = some (ctxOf flag0).me ∧ 127 < 128) ∧
    ((net0 flag0 setP).Arriving 7 setP ∧ (net0 flag0 setP).ctxFor 0 0 = some (ctxOf flag0)) ∧
    ((net0 base { addP with dst := .core 5 }).Arriving 7 { addP with dst := .core 5 } ∧
      (net0 base { addP with dst := .core 5 }).ctxFor 5 0 = none) ∧
    ((net0 base { setP with dst := .core 5 }).Arriving 7 { setP with dst := .core 5 } ∧
      (net0 base { setP with dst := .core 5 }).ctxFor 5 0 = none) ∧
    ((({ barF with cycle := 32 } : State).tenant 0).bar 1).full = some 0 ∧
      0 + ((({ barF with cycle := 32 } : State).tenant 0).bar 1).delay ≤ 32 :=
  ⟨⟨arriving_net0 _ _ rfl (by decide +kernel), by decide +kernel⟩, ⟨arriving_net0 _ _ rfl (by decide +kernel), by decide +kernel⟩,
    ⟨arriving_net0 _ _ rfl (by decide +kernel), by decide +kernel⟩, ⟨arriving_net0 _ _ rfl (by decide +kernel), by decide +kernel⟩,
    by decide +kernel⟩

/-- The sum of `flag.add` at its edge: 3 of 5 and 2 more reach the expected count, 1 more does not; with no expected count it
wraps. -/
theorem test_flag_sum : flagSum 0x0000000500000003 2 = 0x0001000500000000 ∧ flagSum 0x0000000500000003 1 = 0x0000000500000004 ∧
    flagSum 0x00000000FFFFFFFF 1 = 0 ∧ flagSum 0xFFFE000500000003 0 = 0x0000000500000003 := by decide +kernel

/-- A push of core 1 to core 0, and a later one; a credit back; a ticket for a mailbox with 15 words and for a full one, and from another
device; a confirmation, local, held back by an operation in flight, and by a device that is reached and by one that is not. -/
def pushP : Packet := { seq := 7, kind := .chan 0 1 4 9 false, src := .core 1, dst := .core 0, tenant := 0, cls := 1 }
def push0 : State := net0 (chan0.modCore 1 (fun k => { k with res := some { uid := 1, chout := [(0, [4])] } })) pushP
def creditP : Packet := toCore (.credit 0 1)
def box0 (n : Nat) : State := base.modCore 0 (fun k => { k with mbox := [(0, List.replicate n 1)] })
def tickP : Packet := toCore (.ticket 5)
def ticketFar : Packet := { tickP with src := .remote 2 5 }
def confP : Packet := { seq := 7, kind := .confirmReq 1 0 0 1 6, src := .core 0, dst := .core 1, tenant := 0, cls := 1 }
def conf0 : State := net0 ((at0 (fun x => { x with tickets := [(6, { core := 1, device := 0x3FF, seqr := 0, count := 1, confirmed := false })] })).modCore 1
  (fun k => { k with res := some { uid := 1 } })) confP

def lateP : Packet := { pushP with kind := .chan 0 1 5 9 false }
def farP (d : Nat) : Packet := { confP with dst := .remote d 1 }
def far0 (d : Nat) : State := { net0 ((at0 (fun x => { x with
    tickets := [(6, { core := 1, device := d, seqr := 0, count := 1, confirmed := false })], seqrs := [(0, { tix := [6] })] })).modTenant 0
  (fun t => { t with endpoints := [(2, 1 + 2 ^ 24), (3, 1 + 2 ^ 25)] })) (farP d) with ports := [(0, { up := true })] }
def slow0 : State := conf0.modCtx 1 (fun x => { x with seqrs := [(0, { opened := [0] })] })

theorem witness_ChannelSteps :
    (push0.Arriving 7 pushP ∧ chanFirst push0 pushP 1 0 1 4 = true ∧ (push0.core 0).res = some (ctxOf push0) ∧ (push0.core 0).sus = none ∧
      (ctxOf push0).tenant = pushP.tenant ∧ (Map.at? (ctxOf push0).chdecl 0).isSome = true ∧ 0 ≠ 1) ∧
    ((net0 push0 lateP).Arriving 7 lateP ∧ chanFirst (net0 push0 lateP) lateP 1 0 1 5 = false) ∧
    ((net0 chan0 creditP).flying 7 = some creditP ∧ (net0 chan0 creditP).ctx 0 = some (ctxOf chan0) ∧ (ctxOf chan0).uid = 1) ∧
    ((net0 (box0 15) tickP).Arriving 7 tickP ∧ (net0 (box0 15) tickP).ctxFor 0 0 = some (ctxOf (box0 15)) ∧
      (((net0 (box0 15) tickP).core 0).box (ctxOf (box0 15))).length < 16) ∧
    ((net0 (box0 15) ticketFar).Arriving 7 ticketFar ∧ ticketFar.src = .remote 2 5 ∧ (net0 (box0 15) ticketFar).ctxFor 0 0 = some (ctxOf (box0 15)) ∧
      (((net0 (box0 15) ticketFar).core 0).box (ctxOf (box0 15))).length < 16) ∧
    ((net0 (box0 16) tickP).Arriving 7 tickP ∧ (net0 (box0 16) tickP).ctxFor 0 0 = some (ctxOf (box0 16)) ∧
      16 ≤ (((net0 (box0 16) tickP).core 0).box (ctxOf (box0 16))).length) ∧
    (conf0.flying 7 = some confP ∧ (confP.dst = .core 1 ∧ (match confP.src with | .remote _ _ => false | _ => true) = true ∧
      Map.at? conf0.applied 7 = none) ∧ ticketDone conf0 1 0 0 1 = true ∧ conf0.ctx 1 = some { uid := 1 } ∧ conf0.ctx 0 = some (ctxOf conf0) ∧
      (ctxOf conf0).uid = 1 ∧ Map.at? (ctxOf conf0).tickets 6 = some { core := 1, device := 0x3FF, seqr := 0, count := 1, confirmed := false }) ∧
    (slow0.flying 7 = some confP ∧ Map.at? slow0.applied 7 = none ∧ ticketDone slow0 1 0 0 1 = false) ∧
    (∀ d ∈ [2, 3], (far0 d).flying 7 = some (farP d) ∧ (far0 d).ctx 0 = some (ctxOf (far0 d)) ∧ (ctxOf (far0 d)).uid = 1 ∧
      (Map.at? (ctxOf (far0 d)).tickets 6).isSome = true ∧ (far0 d).pathFailed ((far0 d).endpoint 0 d) = decide (d = 3)) :=
  ⟨⟨arriving_net0 _ _ rfl (by decide +kernel), by decide +kernel⟩, ⟨arriving_net0 _ _ rfl (by decide +kernel), by decide +kernel⟩,
    by decide +kernel,
    ⟨arriving_net0 _ _ rfl (by decide +kernel), by decide +kernel⟩, ⟨arriving_net0 _ _ rfl (by decide +kernel), by decide +kernel⟩,
    ⟨arriving_net0 _ _ rfl (by decide +kernel), by decide +kernel⟩,
    by decide +kernel, by decide +kernel, by decide +kernel⟩

/-! ## Witnesses: reductions, the step cache -/

/-- Group 0, of cores 0 and 64: the root, node 1, expects ports 0 and 1; node 0, its child at port 1, expects ports 1 and 2. Values of
one element stand at port 0 of the root and port 1 of node 0. -/
def treeEntry (inputs pport parent : Nat) : Dword := BitVec.ofNat 64 (inputs * 2 ^ 48 + pport * 2 ^ 44 + parent * 2 ^ 38)
def group0 : Group := { owner := some 0, conf := rec8 [1 + 32 + 2 * 256 + 100 * 2 ^ 32, 1, 1, 1], opened := some 0
                        tree := [(0, treeEntry 6 1 1), (1, treeEntry 3 0 0x3F)], vals := [(1, [4]), (16, [5])]
                        shapes := [(1, coord 1 1 1 1), (16, coord 1 1 1 1)], tags := [(1, 5), (16, 5)]
                        counts := [(64, 2)], cmds := [(64, 9)] }
def treeP (k : PKind) : Packet := { toSlice k with cls := 5 }
def treeWith (g : Group) (k : PKind) : State :=
  { net0 base (treeP k) with groups := [(0, g)], cycle := 99, cmds := [(9, { cmd0 with pend := [] })] }
def tree0 : PKind → State := treeWith group0
def statK : PKind := .redStatus 0 (some 5) 0 0 6
/-- The cycle at which the round's time is up. -/
def late0 (k : PKind) : State := { tree0 k with cycle := 100 }
/-- The value 7 for a port of a node from core 0, which counts n; its block of m beats is in the slice as soon as m is 0. -/
def redK (node port n m : Nat) : PKind := .redContrib 0 node port 0 n 5 (coord 1 1 1 1) [7] true 4 m

theorem tree_arriving (g : Group) (k : PKind) (h : (treeWith g k).flying 7 = some (treeP k)) : (treeWith g k).Arriving 7 (treeP k) :=
  ⟨h, fun _ => rfl⟩

theorem witness_ReductionSteps :
    ((tree0 (redK 1 1 2 1)).Arriving 7 (treeP (redK 1 1 2 1)) ∧ ((tree0 (redK 1 1 2 1)).slcBlk 4).beats < 1) ∧
    ((tree0 (redK 1 0 2 0)).Arriving 7 (treeP (redK 1 0 2 0)) ∧ (Map.at? ((tree0 (redK 1 0 2 0)).group 0).vals (portKey 1 0)).isSome = true) ∧
    ((treeWith { group0 with vals := [] } (redK 1 1 2 0)).Arriving 7 (treeP (redK 1 1 2 0)) ∧ Map.at? ({ group0 with vals := [] } : Group).vals (portKey 1 1) = none ∧
      0 ∈ portsOf (Map.get 0 group0.tree 1) ∧ 0 ≠ 1 ∧ Map.at? ({ group0 with vals := [] } : Group).vals (portKey 1 0) = none) ∧
    ((tree0 (redK 0 2 2 0)).Arriving 7 (treeP (redK 0 2 2 0)) ∧ Map.at? group0.vals (portKey 0 2) = none ∧
      portsOf (Map.get 0 group0.tree 0) = [1, 2] ∧ (Map.at? group0.vals (portKey 0 1)).isSome = true ∧
      treeParent (Map.get 0 group0.tree 0) ≠ treeRoot) ∧
    ((tree0 (redK 1 1 2 0)).Arriving 7 (treeP (redK 1 1 2 0)) ∧ Map.at? group0.vals (portKey 1 1) = none ∧
      portsOf (Map.get 0 group0.tree 1) = [0, 1] ∧ (Map.at? group0.vals (portKey 1 0)).isSome = true ∧
      treeParent (Map.get 0 group0.tree 1) = treeRoot ∧ gcMembers group0.conf = [0, 64] ∧
      (∀ k ∈ Map.ins group0.counts 0 2, k.2 = (gcMembers group0.conf).length) ∧
      (∃ k ∈ Map.ins group0.counts 0 1, k.2 ≠ (gcMembers group0.conf).length)) ∧
    (∀ v ∈ [([] : List (Nat × List Nat)), group0.vals], (treeWith { group0 with vals := v } statK).group 0 = { group0 with vals := v } ∧
      ({ group0 with vals := v } : Group).expired 99 = false) ∧
    ((late0 (redK 1 1 2 0)).flying 7 = some (treeP (redK 1 1 2 0)) ∧ Map.at? (late0 (redK 1 1 2 0)).applied 7 = none ∧
      ((late0 (redK 1 1 2 0)).group 0).expired (late0 (redK 1 1 2 0)).cycle = true) ∧
    ({ group0 with cmds := [(0, 9), (64, 9)] } : Group).missing = 0 ∧
    (((late0 statK).group 0).opened = some 0 ∧ gcTimeout ((late0 statK).group 0).conf ≠ 0 ∧
      0 + gcTimeout ((late0 statK).group 0).conf ≤ (late0 statK).cycle ∧
      ((late0 statK).group 0).cmds.length < (gcMembers ((late0 statK).group 0).conf).length) ∧
    ((tree0 statK).flying 7 = some (treeP statK) ∧ Map.at? (tree0 statK).cmds 9 = some { cmd0 with pend := [] } ∧
      6 ∉ ({ cmd0 with pend := [] } : Cmd).pend ∧ ({ cmd0 with pend := [] } : Cmd).q6 = [1] ∧ 7 ∈ cmd0.pend) :=
  ⟨⟨tree_arriving _ _ (by decide +kernel), by decide +kernel⟩, ⟨tree_arriving _ _ (by decide +kernel), by decide +kernel⟩,
    ⟨tree_arriving _ _ (by decide +kernel), by decide +kernel⟩, ⟨tree_arriving _ _ (by decide +kernel), by decide +kernel⟩,
    ⟨tree_arriving _ _ (by decide +kernel), by decide +kernel⟩, by decide +kernel, by decide +kernel, by decide +kernel, by decide +kernel, by decide +kernel⟩

/-- Tenant 0 has a quota of one entry a slice; entry 0 of slice 0 holds key 1's output of the step before. -/
def blk0 : Blk := { tag := 5, etype := 1, shape := coord 1 2 1 1, elems := [0, 0] }
def sacE : SacEnt := { key := 1, tag := 1, age := 0, refEtype := 1, refShape := coord 1 2 1 1, outTag := 5, outEtype := 1, outShape := coord 1 2 1 1 }
def quota0 : State := base.modTenant 0 (fun t => { t with sacQuota := 1, sacBase := 0x800000, pins := [(sacTag, [(0x80, 0x800000)])] })
def stored0 : State := { quota0 with sac := [(sacSlot 0 0 0, sacE)] }
def blkAt (n : Nat) : Blk := { blk0 with elems := [n, 0] }
def checkOf (b : Blk) : Packet := toSlice (.sacCheck 1 b 0 0 2 0 true)
def checkP : Packet := checkOf blk0
def fillOf (b : Blk) : Packet := toSlice (.sacFill 1 b blk0 2 true)
def fillP : Packet := fillOf blk0
/-- The blocks of a fill are at the slice. -/
def filled (s : State) (p : Packet) : State := { net0 s p with slcBlks := [(0, { need := some 0 })] }
def verdictFor (m : List (Nat × Cmd)) : State := { net0 (at0 (fun x => { x with q6 := [{ id := 1 }] })) (toCore (.verdict 1 6 8)) with cmds := m }
def verdict0 : State := verdictFor [(9, { cmd0 with pend := [] })]

/-- A check whose block is not there, of a poisoned input, without an entry, of an entry that reads an error, of an entry of another
step, beyond the threshold, and a hit; a fill of a free entry, without a quota, and of a poisoned input; a verdict before its replay,
after its command, and delivered. -/
theorem witness_StepCacheSteps :
    ((net0 quota0 (checkOf { blk0 with beats := 1 })).Arriving 7 (checkOf { blk0 with beats := 1 }) ∧
      ((net0 quota0 (checkOf { blk0 with beats := 1 })).slcBlk 0).beats < 1 ∧ ({ blk0 with poison := some 0 } : Blk).poison.isSome = true) ∧
    ((net0 quota0 checkP).Arriving 7 checkP ∧ blk0.poison = none ∧ sacFind (net0 quota0 checkP) 0 0 1 = none) ∧
    ((net0 stored0 checkP).Arriving 7 checkP ∧ sacFind (net0 stored0 checkP) 0 0 1 = some (0, sacE) ∧ sacE.tag = (2 + 65535) % 65536 ∧
      sacE.refEtype = blk0.etype ∧ sacE.refShape = blk0.shape ∧
      sacRead (net0 stored0 checkP) 0 (sacAddr (stored0.tenant 0) 0 0) 1 (coord 1 2 1 1) = ([0, 0], false) ∧
      sacRead (net0 stored0 checkP) 0 (sacAddr (stored0.tenant 0) 0 0 + 0x4000) 1 (coord 1 2 1 1) = ([0, 0], false) ∧
      Num.eq (floatVal 1 (sacDistance 0 1 2 [0, 0] [0, 0])) (floatVal 1 0) = true ∧
      Num.lt (floatVal 1 (sacDistance 0 1 2 [0x3F800000, 0] [0, 0])) (floatVal 1 0) = false ∧
      Num.eq (floatVal 1 (sacDistance 0 1 2 [0x3F800000, 0] [0, 0])) (floatVal 1 0) = false) ∧
    ((net0 stored0 (checkOf (blkAt 0x3F800000))).Arriving 7 (checkOf (blkAt 0x3F800000)) ∧
      sacFind (net0 { stored0 with sac := [(sacSlot 0 0 0, { sacE with tag := 0 })] } checkP) 0 0 1 = some (0, { sacE with tag := 0 }) ∧
      (sacRead { net0 stored0 checkP with memPoison := [0x800000] } 0 (sacAddr (stored0.tenant 0) 0 0) 1 (coord 1 2 1 1)).2 = true) ∧
    (∀ s ∈ [quota0, base], (filled s fillP).flying 7 = some fillP ∧ Map.at? (filled s fillP).applied 7 = none ∧
      ((filled s fillP).slcBlk 0).need = some 0 ∧ fillEntry (filled s fillP) 0 0 1 2 = (if s = base then none else some (0, false))) ∧
    ((filled base (fillOf { blk0 with poison := some 5 })).flying 7 = some (fillOf { blk0 with poison := some 5 })) ∧
    (verdict0.flying 7 = some (toCore (.verdict 1 6 8)) ∧ Map.at? verdict0.cmds 9 = some { cmd0 with pend := [] } ∧
      Map.at? verdict0.applied 9 = none ∧ 6 ∉ ({ cmd0 with pend := [] } : Cmd).pend ∧ ({ cmd0 with pend := [] } : Cmd).q6 = [1] ∧
      verdict0.ctx cmd0.core = some (ctxOf verdict0) ∧ cmd0.uid = (ctxOf verdict0).uid) ∧
    (Map.at? (verdictFor [(9, { cmd0 with pend := [6] })]).cmds 9 = some { cmd0 with pend := [6] } ∧ Map.at? (verdictFor []).cmds 9 = none ∧
      (Map.at? ({ verdictFor [] with applied := [(9, .verdict 1 6 8)] } : State).applied 9).isSome = true) :=
  ⟨⟨arriving_net0 _ _ rfl (by decide +kernel), by decide +kernel⟩, ⟨arriving_net0 _ _ rfl (by decide +kernel), by decide +kernel⟩,
    ⟨arriving_net0 _ _ rfl (by decide +kernel), by decide +kernel⟩, ⟨arriving_net0 _ _ rfl (by decide +kernel), by decide +kernel⟩,
    by decide +kernel, by decide +kernel, by decide +kernel, by decide +kernel⟩

/-! ## Witnesses: launches, spans, the controller -/

/-- Launch 0 of tenant 0 at the head of queue 0. -/
def launch0 (l : Launch) (s : State) : State := s.modTenant 0 (fun t => { t with queues := [(0, [0])], launches := [(0, l)] })
/-- A sound record at 0x2_0000: one spatial level of two trips, one scratchpad row, entry 0x1_0000. -/
def lnr0 (s : State) : State := ((s.writeN 0x20000 8 0x10000).writeN 0x20008 8 (1 + 2 ^ 17 + 1000 * 2 ^ 32)).writeN 0x20010 8 (1 + 2 * 65536)
def head0 : State := launch0 { lnr := 0x20000 } (lnr0 base)
def checked0 : Launch := match checkLaunch head0 0 { lnr := 0x20000 } with | .ok m => m | .error _ => {}

theorem witness_LaunchHead :
    (head0.devstat = 4 ∧ head0.powered = true ∧ Map.get [] (head0.tenant 0).queues 0 = [0] ∧ head0.launch 0 0 = some { lnr := 0x20000 } ∧
      checkLaunch head0 0 { lnr := 0x20000 } = .ok checked0 ∧ checked0.checked = true ∧ checked0.prereqs = [] ∧ checked0.pos.isSome = true ∧
      checked0.elig = none) ∧
    ((launch0 { lnr := 0x20040 } base).launch 0 0 = some { lnr := 0x20040 } ∧
      checkLaunch (launch0 { lnr := 0x20040 } base) 0 { lnr := 0x20040 } = .error 3) ∧
    ((launch0 { checked := true, prereqs := [4] } (base.modTenant 0 (fun t => { t with nextId := [(0, 5)] }))).launch 0 0 =
      some { checked := true, prereqs := [4] } ∧
      (let s := (launch0 { checked := true, prereqs := [4] } base).modTenant 0 (fun t => { t with
        launches := t.launches ++ [(4, { checked := true, completed := true, result := some (2, 1, 0) })] })
      ([4].any (prereqFailed (s.tenant 0))) = true)) := by decide +kernel

/-- The head launch is eligible, core 2 of the partition is free; the same launch as a gang of two on cores 2 and 3. -/
def give0 (gang : Bool) : State :=
  { launch0 { checked := true, entry := 0x10000, gang := gang, levels := [{ kind := 1, rowptr := false, trips := 2, ptr := 0 }], pos := some [0],
              elig := some 0, dies := [0] }
      (base.modTenant 0 (fun t => { t with enabled := true })) with
    cores := [(2, { part := some 0 }), (3, { part := some 0 })], cycle := 64 }
def served0 (gang : Bool) : Served := match (give0 gang).serving with | v :: _ => v | [] => ⟨0, 0, 0, {}⟩

theorem witness_SpanHandoff :
    ((give0 false).walkError = none ∧ (give0 false).handoff = some (served0 false, 2, 64) ∧ 64 ≤ (give0 false).cycle ∧
      (served0 false).l.gang = false ∧ (served0 false).l.pos = some [0]) ∧
    ((give0 true).walkError = none ∧ (give0 true).handoff = some (served0 true, 2, 64) ∧ 64 ≤ (give0 true).cycle ∧
      (served0 true).l.gang = true ∧ (give0 true).gangCores (served0 true) = some [(2, [0]), (3, [1])] ∧
      peerMissing (served0 true).l [2, 3] = false) := by decide +kernel

/-- A launch with no span left, out of its queue. -/
def over0 : State := base.modTenant 0 (fun t => { t with launches := [(0, { checked := true })], cqbase := [(0, 0x100000)] })

theorem witness_LaunchComplete : over0.launch 0 0 = some { checked := true } ∧ over0.powered = true ∧
    over0.launchOver 0 0 { checked := true } = true ∧ (∀ q < 16, 0 ∉ Map.get [] (over0.tenant 0).queues q) ∧
    cqFull (over0.tenant 0) 0 = false := by decide +kernel

theorem witness_ControllerPeriod : ({ base with cycle := 4096 } : State).powered = true ∧
    Config.period * (({ base with cycle := 4096 } : State).ctlRuns + 1) ≤ ({ base with cycle := 4096 } : State).cycle := by decide +kernel

/-- A core that quiesces for launch 8 of tenant 1; a core with a suspended span and nothing above it. -/
def quiet0 : State := base.modCore 0 (fun k => { k with quiesce := some (1, 8) })
def susp0 : State := base.modCore 0 (fun k => { k with res := none, sus := some { uid := 1, pc := 0x10000 } })

theorem witness_SaveResume :
    (quiet0.ctx 0 = some (ctxOf quiet0) ∧ (quiet0.core 0).quiesce = some (1, 8) ∧ quiet0.powered = true ∧ (ctxOf quiet0).settled = true) ∧
    ((susp0.core 0).sus = some { uid := 1, pc := 0x10000 } ∧ ({ uid := 1, pc := 0x10000 } : Ctx).gang = false ∧ susp0.powered = true ∧
      susp0.mayResume 0 = true) := by decide +kernel

/-! ## Witnesses: registers, management, the host -/

def full0 : State := base.modTenant 0 (fun t => { t with queues := [(15, List.replicate 256 0)] })
def staged0 : State := base.modTenant 0 (fun t => { t with rgsel := 63 })
/-- A commit of another's group, of a group without nodes, of a tree with no root, of one with a round open, and of a sound one. -/
def ours0 (words : List (Nat × Nat)) : State :=
  { base.modTenant 0 (fun t => { t with rgsel := 63, staged := words.map (fun w => (256 * 63 + w.1, BitVec.ofNat 64 w.2)) }) with
    groups := [(63, { owner := some 0 })] }
def sound0 : List (Nat × Nat) := [(0, 257), (1, 8), (2, 1), (8, 2 ^ 48 + 0x3F * 2 ^ 38 + 3 * 2 ^ 30)]
def commits0 : List State := [staged0, ours0 [], ours0 [(0, 257), (1, 8), (2, 1), (8, 2 ^ 48 + 0x3F * 2 ^ 38)],
  { ours0 sound0 with groups := [(63, { owner := some 0, opened := some 0 })] }, ours0 sound0]
/-- A device whose registers answer and whose function 0 is not ready. -/
def cold0 : State := { State.reset with devstat := 1 }
/-- A host read of n bytes of the registers of function 0. -/
def read0 (off n : Nat) : State := { base with agenda := [.vfRead 0 off n] }
/-- `spsel` selects the last data row of core 0, which the resident context owns. -/
def row0 : State := (base.modTenant 0 (fun t => { t with spsel := 6135 * 65536 })).modCore 0
  (fun k => { k with owner := [(spadUnit 6135, { tenant := 0, sus := false })] })

theorem witness_FunctionRegisters :
    (base.mmioUp = true ∧ base.ready 0 = true ∧ queueFull (base.tenant 0) 15 = false) ∧
    (full0.ready 0 = true ∧ queueFull (full0.tenant 0) 15 = true) ∧ (cold0.mmioUp = true ∧ cold0.ready 0 = false) ∧
    (∀ p ∈ (base.tenant 0).launches, p.2.queue = 15 → p.2.completed = true → p.2.written = true) ∧
    ((box0 15).ready 0 = true ∧ ((box0 15).ctxFor 0 0).isSome = true ∧ (((box0 15).core 0).box (ctxOf (box0 15))).length < 16) ∧
    ((box0 16).ready 0 = true ∧ 16 ≤ (((box0 16).core 0).box (ctxOf (box0 16))).length) ∧
    (¬ (6 = 6 ∧ (1#64).toNat / 2 ≠ 0) ∧ (2#64).toNat / 2 ≠ 0 ∧ (1#64) ≠ 0) ∧
    (commits0.map (fun s => (commitGroup (s.tenant 0) 0 63 (s.group 63)).1) = [1, 2, 3, 4, 0]) ∧
    (bits (row0.tenant 0).spsel.toNat 0 9 = 0 ∧ bits (row0.tenant 0).spsel.toNat 16 13 = 6135 ∧ row0.ctx 0 = some (ctxOf row0) ∧
      (ctxOf row0).tenant = 0 ∧ (row0.core 0).sus = none ∧ Map.at? (row0.core 0).owner (spadUnit 6135) = some (ctxOf row0).me) ∧
    (∀ off ∈ [0x80, 0x8010, 0x81, 0xB000], ∀ n ∈ [8, 4], (read0 off n).mmioUp = true ∧ (read0 off n).agenda = [.vfRead 0 off n] ∧
      off < 0x10000) := by
  decide +kernel

theorem witness_VfReset : base.powered = true ∧ 31 < 32 ∧ (∀ p ∈ base.cores, ∀ b ∈ p.2.blks, b.2.hdr.tenant = 31 → b.2.parts = []) := by
  decide +kernel

/-- Tenant 3 is configured and not enabled: tables of two pages, a save region over both, a window; tenant 4 has nothing. -/
def conf3 : State := State.setTenant { base.writeN 0x2008 8 0x4000000F with devstat := 2 } 3 { ptbase := 0x1000, tenctl := 0x400000, windows := [(0, (0, 0x100000000))] }

theorem witness_Management :
    (conf3.managed = true ∧ (conf3.tenant 3).enabled = false ∧ configOk conf3 3 = true ∧
      pinSave conf3 3 = some [(0, 30, 0), (0x40000000, 30, 0x40000000)]) ∧
    (((conf3.tenant 3).bucketOf 7).1 = 0 ∧ bits (5#64).toNat 0 32 ≠ 0) ∧
    (bits (1#64).toNat 0 13 ≤ 4096 ∧ conf3.quotaOthers 3 + 1 ≤ 4096 ∧ (pinRegion conf3 3 0 64).isSome = true) ∧
    ((managementWrite (.weight 3 5)).isSome = true ∧ (conf3.tenant 3).enabled = false) ∧
    (conf3.powered = true ∧ conf3.devstat = 2) := by decide +kernel

theorem witness_ManagementValues :
    (∃ r, exec .deviceReset r = .next (match exec .deviceReset base with | .next t => t | _ => base)) ∧
    (conf3.managed = true ∧ (conf3.tenant 4).enabled = false ∧ (conf3.tenant 4).ptbase = 0) ∧
    (conf3.managed = true ∧ ((conf3.modTenant 3 (fun t => { t with windows := [] })).tenant 3).windows = [] ∧
      ((conf3.modTenant 3 (fun t => { t with tenctl := 3 })).tenant 3).saveBase = 0 ∧
      ((conf3.modTenant 3 (fun t => { t with windows := [(0, (0x200000, 0x100000000))] })).tenant 3).inWindow 0x1000 4096 = false ∧
      pinSave (conf3.modTenant 3 (fun t => { t with windows := [(0, (0, 0x40000000))] })) 3 = none ∧
      pinSave (conf3.writeN 0x2000 8 0xB) 3 = none ∧
      pinRegion conf3 3 0x8000000000 64 = none) :=
  ⟨⟨base, rfl⟩, by decide +kernel, by decide +kernel⟩

/-- Host requests on their way through the fabric. -/
def asks0 : State := { base with net := [(7, { seq := 7, kind := .hostRead 0x40 8, src := .io, dst := .io, tenant := 0, cls := 2 }),
  (8, { seq := 8, kind := .hostWrite 0x40 [1, 2], src := .io, dst := .io, tenant := 0, cls := 2 })] }

/-- The last byte of device memory, and one beyond; a line that is recalled; a read and a write whose packets are in flight. -/
theorem witness_HostAccess : base.powered = true ∧ base.devstat = 4 ∧ 0xBFFFFFFFFF + 1 ≤ 0xC000000000 ∧ 0xC000000000 < 0xC000000000 + 1 ∧
    0x40 ∈ ({ base with recalls := [0x40], snoop := [0x40] } : State).recalls ∧
    (asks0.powered = true ∧ asks0.devstat = 4 ∧
      (asks0.net.find? (fun p => decide (p.2.kind = .hostRead 0x40 8) && decide (p.2.st = PSt.flying))).isSome = true ∧
      (asks0.net.find? (fun p => decide (p.2.kind = .hostWrite 0x40 [1, 2]) && decide (p.2.st = PSt.flying))).isSome = true) := by decide +kernel

/-- Port 0 retrains; a copy of a packet to device 2, not acknowledged, that has left its core. -/
def retrain0 : State := { base.modTenant 0 (fun t => { t with endpoints := [(2, 1 + 2 ^ 24)] }) with
  ports := [(0, { training := true })], sent := [(7, { held0 with st := .flying, dst := .remote 2 0 })] }

theorem witness_PortSteps :
    (({ base with ports := [(15, { up := true, fails := 17 })] } : State).port 15).up = true ∧
    (base.devstat = 4 ∧ (({ base with ports := [(15, { up := true, fails := 17 })] } : State).port 15).training = false ∧
      16 < (({ base with ports := [(15, { up := true, fails := 17 })] } : State).port 15).fails) ∧ (base.port 0).up = false ∧
    ((retrain0.port 0).training = true ∧ (7, { held0 with st := .flying, dst := .remote 2 0 }) ∈ retrain0.sent ∧ retrain0.staying 7 = false ∧
      ({ held0 with st := .flying, dst := .remote 2 0 } : Packet).device = some 2 ∧ 0 ∈ entryPorts (retrain0.endpoint 0 2)) := by decide +kernel

theorem witness_BringUp : ({ State.reset with devstat := 1 } : State).powered = true ∧ ({ State.reset with devstat := 1 } : State).devstat = 1 ∧
    ({ State.reset with devstat := 2 } : State).devstat = 2 ∧ ({ State.reset with devstat := 3 } : State).devstat = 3 := by decide +kernel

theorem witness_PowerSteps : base.powered = true ∧ base.powerLimit < 2801 ∧ 8 < 9 ∧ 105 ≤ 105 ∧ 7 < 8 ∧ 115 ≤ 115 ∧ 999 < 1000 := by
  decide +kernel

/-- A map installed and dropped at slice 127, an invalidation, a snapshot at the I/O die. -/
def distP (k : PKind) (d : Leaf) : Packet := { seq := 7, kind := k, src := .core 0, dst := d, tenant := 0, cls := 1, cmd := 9 }

/-- The map of tag 5 is left at slice 127 alone. -/
def last0 : State := slice0.modTenant 0 (fun t => { t with gslices := [(5, [127])] })

theorem witness_Distribution :
    (net0 base (distP (.gmapIns gmap0) (.slice 127))).Arriving 7 (distP (.gmapIns gmap0) (.slice 127)) ∧
    ((net0 slice0 (distP (.gmapDel 5) (.slice 127))).Arriving 7 (distP (.gmapDel 5) (.slice 127)) ∧
      (net0 last0 (distP (.gmapDel 5) (.slice 127))).Arriving 7 (distP (.gmapDel 5) (.slice 127)) ∧
      ∀ k ∈ Map.get [] (last0.tenant 0).gslices 5, k = 127) ∧
    (net0 stored0 (distP .sacInv (.slice 0))).Arriving 7 (distP .sacInv (.slice 0)) ∧
    (net0 base (distP (.cntsnap 0x20000 0) .io)).Arriving 7 (distP (.cntsnap 0x20000 0) .io) :=
  ⟨arriving_net0 _ _ rfl (by decide +kernel),
    ⟨arriving_net0 _ _ rfl (by decide +kernel), arriving_net0 _ _ rfl (by decide +kernel), by decide +kernel⟩,
    arriving_net0 _ _ rfl (by decide +kernel), arriving_net0 _ _ rfl (by decide +kernel)⟩

/-! ## Witnesses: encoding and the step -/

theorem witness_DecodeOfEncode : encode (.add 3 18 49) = some 0x00869620 ∧ (Instr.add 3 18 49).wf = true := by decide +kernel
theorem witness_EncodeOfDecode : decode 0x00869620 = .ok (.add 3 18 49) := by decide +kernel

/-- Capture on core 0 comes next; the word at 0x1_0000 is `add`, and for the second state a pattern that stands for nothing. -/
def code0 (w : Nat) : State := { handler0.writeN 0x10000 4 w with agenda := [.capture 0 true] }
def fetched0 (w : Nat) : State := match fetchPa { code0 w with agenda := [] } 0 0 0x10000 with | .ok r => r.2 | .error _ => code0 w
def group1 : Grp := { addr := 0x10000, waddr := 0x10000, raw := 0x00869620 }
def gathered0 : State := match nextGroup { code0 0x00869620 with agenda := [] } 0 (ctxOf (code0 0x00869620)) with
  | .group _ _ s1 => s1 | _ => base

/-- No context is suspended after reset. -/
theorem witness_StepRuns_events : ∀ c, (State.reset.core c).sus = none := fun _ => rfl

theorem witness_StepRuns :
    ((code0 0x00869620).agenda = [.capture 0 true] ∧ (code0 0x00869620).ctx 0 = some (ctxOf (code0 0x00869620)) ∧
      (code0 0x00869620).captureShut 0 (ctxOf (code0 0x00869620)) = false ∧ (ctxOf (code0 0x00869620)).loops = [] ∧
      fetchPa { code0 0x00869620 with agenda := [] } 0 0 0x10000 = .ok (0x10000, fetched0 0x00869620) ∧
      Map.at? (Map.get [] (fetched0 0x00869620).icache (clusOf 0)) (icKey 0 0x10000) = none ∧
      decode (BitVec.ofNat 32 (State.readN { fetched0 0x00869620 with mem := (code0 0x00869620).codeOf 0 } 0x10000 4)) = .ok (.add 3 18 49)) ∧
    (match nextGroup { code0 0x00869620 with agenda := [] } 0 (ctxOf (code0 0x00869620)) with
      | .group g i _ => decide (g = group1) && decide (i = .add 3 18 49) | _ => false) = true ∧
    (encode .deviceReset = none) ∧
    (State.reset.agenda = [] ∧ State.reset.powered = true ∧ (State.reset.elapse 1).turn = [] ∧
      ((State.reset.elapse 1).moves.all (fun f => match f (State.reset.elapse 1) with
        | .next t => decide (t = State.reset.elapse 1) | _ => false)) = true) := by decide +kernel

def illegal0 : State :=
  (endStall { code0 1 with agenda := [] } 0 (ctxOf (code0 1))).setCtx 0 { ctxOf (code0 1) with grp := {}, stall := .none }

theorem witness_IllegalWords :
    (code0 1).agenda = [.capture 0 true] ∧ (code0 1).ctx 0 = some (ctxOf (code0 1)) ∧ (code0 1).captureShut 0 (ctxOf (code0 1)) = false ∧
    (ctxOf (code0 1)).steering = false ∧ illegal0.noneRunsOn 0 { ctxOf (code0 1) with grp := {}, stall := .none } = true ∧ (ctxOf (code0 1)).priv = false ∧ Map.get 0 ((code0 1).core 0).tvec (ctxOf (code0 1)).tenant ≠ 0 ∧
    fetchPa { code0 1 with agenda := [] } 0 0 0x10000 = .ok (0x10000, fetched0 1) ∧
    Map.at? (Map.get [] (fetched0 1).icache (clusOf 0)) (icKey 0 0x10000) = none ∧ isPfx 1 = false ∧
    BitVec.ofNat 32 (State.readN { fetched0 1 with mem := (code0 1).codeOf 0 } 0x10000 4) = 1 ∧ decode 1 = .error .unassigned := by decide +kernel

theorem witness_MemoryKept : State.reset.memWf = true ∧ base.memWf = true := by decide +kernel

/-! ## Small steps, with results taken from the rules

Each test runs one word on a small state; its value is worked out from the rule it cites. -/

/-- The state after a word, or the state itself where it stops. -/
def after (i : Instr) (s : State) : State := match exec i s with | .next t => t | _ => s

/-- A state whose n1 and n2 hold two values. -/
def regs0 (a b : Dword) : State := at0 (fun x => { x with n := [(1, a), (2, b)] })

/-- n3 after a word on two values. -/
def res3 (i : Instr) (a b : Dword) : Dword := (ctxOf (after i (regs0 a b))).reg 3

/-- Sums wrap, and both corners of division have the results of R92. -/
theorem test_integer_corners :
    res3 (.add 3 1 2) 0xFFFFFFFFFFFFFFFF 2 = 1 ∧ res3 (.mulh 3 1 2) 0xFFFFFFFFFFFFFFFF 2 = 0xFFFFFFFFFFFFFFFF ∧
    res3 (.mulhu 3 1 2) 0xFFFFFFFFFFFFFFFF 2 = 1 ∧ res3 (.div 3 1 2) 7 0 = 0xFFFFFFFFFFFFFFFF ∧ res3 (.rem 3 1 2) 7 0 = 7 ∧
    res3 (.div 3 1 2) 0x8000000000000000 0xFFFFFFFFFFFFFFFF = 0x8000000000000000 ∧
    res3 (.rem 3 1 2) 0x8000000000000000 0xFFFFFFFFFFFFFFFF = 0 ∧ res3 (.div 3 1 2) 0xFFFFFFFFFFFFFFF9 2 = 0xFFFFFFFFFFFFFFFD ∧
    res3 (.rem 3 1 2) 0xFFFFFFFFFFFFFFF9 2 = 0xFFFFFFFFFFFFFFFF := by decide +kernel

/-- A shift count is taken modulo 64 (R91). -/
theorem test_shifts : res3 (.shl 3 1 2) 3 64 = 3 ∧ res3 (.shl 3 1 2) 3 65 = 6 ∧ res3 (.sra 3 1 2) 0x8000000000000000 63 = 0xFFFFFFFFFFFFFFFF ∧
    res3 (.rotl 3 1 2) 0x8000000000000001 1 = 3 ∧ res3 (.clz 3 1) 0 0 = 64 ∧ res3 (.popc 3 1) 0xFF00 0 = 8 := by decide +kernel

/-- FP32: 1.5 + 2.5 = 4, 1 / 0 is infinite, the root of -1 the canonical NaN (R59, R93). -/
theorem test_float : res3 (.fadd 3 1 2) 0x3FC00000 0x40200000 = 0x40800000 ∧ res3 (.fdiv 3 1 2) 0x3F800000 0 = 0x7F800000 ∧
    res3 (.fsqrt 3 1) 0xBF800000 0 = 0x7FC00000 ∧ res3 (.fcvtFw 3 1) 0xFFFFFFFFFFFFFFFF 0 = 0xBF800000 ∧
    res3 (.fcvtWf 3 1) 0xC0200000 0 = 0xFFFFFFFFFFFFFFFE := by decide +kernel

/-- A write to p0 is ignored; `pput` keeps the other half (R89, R97). -/
theorem test_predicates : (ctxOf (after (.pput 1 0 1) (regs0 5 0))).pred 0 = BitVec.allOnes 128 ∧
    (ctxOf (after (.pput 1 2 1) (regs0 5 0))).pred 2 = 0x50000000000000000 ∧
    (ctxOf (after (.cmp 2 1 2 2) (regs0 5 6))).pred 2 = BitVec.allOnes 128 := by decide +kernel

/-- A taken branch goes to its own address plus four times the displacement; a loop of no trips is skipped (R104, R105). -/
def flow0 (w : Nat) : State := at0 (fun x => { x with grp := { addr := 0x10000, waddr := 0x10000, raw := BitVec.ofNat 32 w } })
theorem test_flow : (ctxOf (after (.jmp 0x7FFFFF) (flow0 0))).pc = 0xFFFC ∧ (ctxOf (after (.call 3) (flow0 0))).pc = 0x1000C ∧
    (ctxOf (after (.call 3) (flow0 0))).reg 31 = 0x10004 ∧ (ctxOf (after (.loopT 0 2 5) (flow0 0))).pc = 0x10004 ∧
    (ctxOf (after (.loopT 0 0 5) (flow0 0))).pc = 0x10018 := by decide +kernel

/-- `sts` and `lds` move eight bytes at a multiple of eight (R100). -/
theorem test_scratchpad : ((after (.sts 1 2 1) (regs0 0x0123456789ABCDEF 0x83)).core 0).spadWord 0x88 = 0x0123456789ABCDEF ∧
    (ctxOf (after (.lds 3 56 0) (withRec base (rec8 [7])))).reg 3 = 7 := by decide +kernel

/-- Tile 4 holds 1.0 and 2.0 in its first row, tile 5 0.5 and 2^127 (FP32). -/
def fp0 : State := tf.modCore 0 (fun k => { k with
  owner := [(3, { tenant := 0, sus := false }), (4, { tenant := 0, sus := false }), (5, { tenant := 0, sus := false })]
  tiles := [(4 * 128, 0x400000003F800000), (5 * 128, 0x7F0000003F000000)] })

/-- Sums, comparison of bits, 2^x and the special value of log2 (R117 to R119): row 0, columns 0 and 1. -/
theorem test_tiles : ((after (.vadd 3 4 5 0) fp0).core 0).elem 3 1 0 0 = 0x3FC00000 ∧ ((after (.vmul 3 4 5 0) fp0).core 0).elem 3 1 0 1 = 0x7F800000 ∧
    ((after (.vexp2 3 4) fp0).core 0).elem 3 1 0 1 = 0x40800000 ∧ ((after (.vlog2 3 4) fp0).core 0).elem 3 1 0 2 = 0xFF800000 ∧
    ((after (.vcmp 6 4 5 6) fp0).core 0).elem 6 0x12 0 0 = 0 ∧ ((after (.vcmp 6 4 5 6) fp0).core 0).elem 6 0x12 0 1 = 1 := by decide +kernel

/-- E4M3 saturates at 448 under `!sat` off and on rounds to nearest even (R59, R64, R70). -/
theorem test_narrow : narrow 4 { mode := 0, r := 0, sat := true, ftz := 0 } (floatVal 1 0x7F7FFFFF) = 0x7E ∧
    narrow 4 { mode := 0, r := 0, sat := true, ftz := 0 } (floatVal 1 0x3F880000) = 0x38 ∧
    narrow 4 { mode := 0, r := 0, sat := true, ftz := 0 } (floatVal 1 0x3F980000) = 0x3A := by decide +kernel

/-- One BF16 product: 2 x 3 in the first element, the rest 0 (R76, R144). -/
def mulB0 : State := mul0.modCore 0 (fun k => { k with
  owner := [(3, { tenant := 0, sus := false }), (4, { tenant := 0, sus := false })]
  tiles := [(3 * 128, 0x4000), (4 * 128, 0x4040)] })
theorem test_multiply : accElem (((after (.mma 1 3 4 9 1) mulB0).core 0).accRow 1 0) 0 = 0x40C00000 ∧
    accElem (((after (.mma 1 3 4 9 1) mulB0).core 0).accRow 1 0) 1 = 0 := by decide +kernel

/-- `trap` enters the handler with cause 0x10 in privileged mode; `eret` gives the user mode back (R298, R300). -/
theorem test_trap : (ctxOf (after (.trap 5) handler0)).pc = 0x20000 ∧ (ctxOf (after (.trap 5) handler0)).cause = 0x10 ∧
    (ctxOf (after (.trap 5) handler0)).priv = true ∧ (ctxOf (after .eret (after (.trap 5) handler0))).priv = false := by decide +kernel

/-- The first step after a word is placed runs it (R31). -/
theorem test_first_step :
    (match step (State.reset.withFetchWord 32 0x05060005) with
      | .next t => decide ((ctxOf t).pc = 0x10004 ∧ (ctxOf t).reg 3 = 5) | _ => false) = true := by
  decide +kernel

/-- An INT32 300 in tile 4; `vfloor` into INT8 keeps its low bits without saturation, and clamps with it (R71, R73). -/
def ints0 (sat : Bool) : State := ((tiles0 [(3, 0x0B, 2, 4), (4, 9, 2, 4)]).modCtx 0 (fun x => { x with grp := { pfx := { hasMod := sat, sat := sat } } })).modCore 0
  (fun k => { k with owner := [(3, { tenant := 0, sus := false }), (4, { tenant := 0, sus := false })], tiles := [(4 * 128, 300)] })
theorem test_int_floor : ((after (.vfloor 3 4) (ints0 false)).core 0).elem 3 0x0B 0 0 = 44 ∧
    ((after (.vfloor 3 4) (ints0 true)).core 0).elem 3 0x0B 0 0 = 127 := by decide +kernel

/-- `xred` takes any scalar operand b, which it ignores (R49, R189). -/
theorem test_xred_word : decode 0b011_01111_0001_000001_000010_0000_0_00_0 = .ok (.xred 1 (1, 2)) := by decide +kernel

end Sys2Proof.Tests
end

section
/-! SUPPORT. The step cache's directory (R272-R280): what a check, a fill and a verdict do, from the laws of packets, of the
directory and of a command's end. Settles O36. -/

namespace Sys2Proof.Machine

/-! ## Sparse data -/

@[simp] theorem Map.at?_del_self {α : Type} (m : Map α) (k : Nat) : Map.at? (Map.del m k) k = none := by
  induction m with
  | nil => rfl
  | cons p t ih =>
    obtain ⟨j, u⟩ := p
    by_cases h : j = k
    · simp [Map.del, h, ih]
    · simp [Map.del, Map.at?, h, ih]

/-- A change of a listed value shows at its key alone. -/
theorem Map.at?_modify {α : Type} (m : Map α) (k l : Nat) (f : α → α) :
    Map.at? (Map.modify m k f) l = if k = l then (Map.at? m l).map f else Map.at? m l := by
  unfold Map.modify
  by_cases hkl : k = l
  · subst hkl
    cases h : Map.at? m k with
    | none => simp [h]
    | some v => simp
  · cases h : Map.at? m k with
    | none => simp [hkl]
    | some v => simp [hkl, Map.at?_ins_ne]

/-! ## Packets that arrive, answers and blocks that leave -/

/-- A packet that arrives for the first time is handled. -/
theorem onPacket_of_arriving {s : State} {id : Nat} {p : Packet} (h : s.Arriving id p) (f : Packet → State) :
    onPacket id s f = .next (f p) := by
  unfold onPacket
  rw [h.flying]
  cases hk : p.kind.kept p.cls with
  | false => simp [hk]
  | true => simp [hk, h.fresh hk]

/-- A packet sent changes only what its command has counted. -/
theorem State.send_cmds_eq (s : State) (p : Packet) : (s.send p).cmds = Map.modify s.cmds p.cmd (fun m =>
    { m with sent := m.sent + p.kind.isBeat, blocks := m.blocks + p.kind.isBlock, rows := m.rows + p.kind.isRow }) := by
  have hpay : ∀ (u : State) c, (u.pay c p).cmds = u.cmds := by
    intro u c; obtain ⟨m, hm⟩ := State.pay_eq u c p; rw [hm]
  unfold State.send
  simp only
  split
  · split
    · split
      · rfl
      · exact hpay _ _
    · rfl
  · rfl

/-- What a command awaits is the same after a packet is sent. -/
theorem State.send_pend (s : State) (p : Packet) (k : Nat) :
    (Map.at? (s.send p).cmds k).map Cmd.pend = (Map.at? s.cmds k).map Cmd.pend := by
  rw [State.send_cmds_eq, Map.at?_modify]
  split
  · rw [Option.map_map]; rfl
  · rfl

theorem State.sendAll_pend (ps : List Packet) (k : Nat) :
    ∀ s : State, (Map.at? (s.sendAll ps).cmds k).map Cmd.pend = (Map.at? s.cmds k).map Cmd.pend := by
  induction ps with
  | nil => exact fun _ => rfl
  | cons p ps ih => exact fun s => (ih _).trans (State.send_pend s p k)

theorem State.noteApplied_cmds (s : State) (p : Packet) (r : PKind) : (s.noteApplied p r).cmds = s.cmds := by
  unfold State.noteApplied; split <;> rfl

theorem State.answer_pend (s : State) (id : Nat) (p : Packet) (r : PKind) (k : Nat) :
    (Map.at? (s.answer id p r).cmds k).map Cmd.pend = (Map.at? s.cmds k).map Cmd.pend := by
  unfold State.answer
  rw [State.send_pend, State.noteApplied_cmds]
  rfl

theorem State.answer_nextId (s : State) (id : Nat) (p : Packet) (r : PKind) : (s.answer id p r).nextId = s.nextId + 1 := by
  unfold State.answer
  rw [(State.send_free _ _ (.inl (Nat.lt_succ_self 3))).2.1]
  unfold State.noteApplied
  split <;> rfl

/-- Packets that no limiter concerns leave those under earlier identities where they are. -/
theorem State.sendAll_net_of_lt {k : Nat} (ps : List Packet) :
    ∀ s : State, (∀ p ∈ ps, 3 < p.cls) → k < s.nextId → Map.at? (s.sendAll ps).net k = Map.at? s.net k := by
  induction ps with
  | nil => exact fun _ _ _ => rfl
  | cons p ps ih =>
    intro s hc hk
    obtain ⟨hnet, hnext, -⟩ := State.send_free s p (.inl (hc p List.mem_cons_self))
    rw [State.sendAll, ih _ (fun q hq => hc q (List.mem_cons_of_mem _ hq)) (by omega), hnet, Map.at?_ins_ne _ _ (by omega)]

/-- Every packet sent that no limiter concerns is in the fabric. -/
theorem State.mem_sendAll_net {p : Packet} (ps : List Packet) : ∀ s : State, (∀ q ∈ ps, 3 < q.cls) → p ∈ ps →
    ∃ i r, Map.at? (s.sendAll ps).net i = some r ∧ r.kind = p.kind ∧ r.dst = p.dst ∧ r.cmd = p.cmd := by
  induction ps with
  | nil => intro s _ h; cases h
  | cons q ps ih =>
    intro s hc hp
    have hc' : ∀ r ∈ ps, 3 < r.cls := fun r hr => hc r (List.mem_cons_of_mem _ hr)
    rcases List.mem_cons.1 hp with rfl | hp
    · obtain ⟨hnet, hnext, -⟩ := State.send_free s p (.inl (hc p List.mem_cons_self))
      refine ⟨s.nextId, { p with seq := s.nextId, sentAt := s.cycle }, ?_, rfl, rfl, rfl⟩
      rw [State.sendAll, State.sendAll_net_of_lt _ _ hc' (by omega), hnet, Map.at?_ins_self]
    · exact ih _ hc' hp

section
variable (p : Packet) (tag et : Nat) (o : Dword) (beats : List Beat) (d : Leaf) (blk : Nat)

/-- A block from a slice travels in the response class. -/
theorem cls_of_mem_sliceBlock : ∀ q ∈ sliceBlock p tag et o beats [(d, blk)], 3 < q.cls := by
  intro q hq
  simp only [sliceBlock, List.flatMap_cons, List.flatMap_nil, List.append_nil, List.mem_append, List.mem_map, List.mem_singleton] at hq
  rcases hq with ⟨b, -, rfl⟩ | rfl <;> exact Nat.lt_succ_self 3

theorem exists_beat_mem_sliceBlock {b : Beat} (hb : b ∈ beats) : ∃ q ∈ sliceBlock p tag et o beats [(d, blk)],
    q.kind = .beat { tag := tag, tenant := p.tenant, origin := o, blk := blk, etype := et } b ∧ q.dst = d ∧ q.cmd = p.cmd := by
  simp only [sliceBlock, List.flatMap_cons, List.flatMap_nil, List.append_nil, List.mem_append, List.mem_map]
  exact ⟨_, .inl ⟨b, hb, rfl⟩, rfl, rfl, rfl⟩

theorem exists_close_mem_sliceBlock : ∃ q ∈ sliceBlock p tag et o beats [(d, blk)],
    q.kind = .close { tag := tag, tenant := p.tenant, origin := o, blk := blk, etype := et } beats.length false ∧
      q.dst = d ∧ q.cmd = p.cmd := by
  simp only [sliceBlock, List.flatMap_cons, List.flatMap_nil, List.append_nil, List.mem_append, List.mem_singleton]
  exact ⟨_, .inr rfl, rfl, rfl, rfl⟩
end

/-! ## The directory's own operations -/

/-- The end of a command at its directory frees its key and drops its blocks, and leaves all else. -/
theorem State.unbusy_eq (s : State) (p : Packet) : ∃ b l, s.unbusy p = { s with sacBusy := b, slcBlks := l } := by
  have hdrop : ∀ (l : List Nat) (u : State), ∃ m, l.foldl State.dropSlcBlk u = { u with slcBlks := m } := by
    intro l
    induction l with
    | nil => exact fun u => ⟨u.slcBlks, rfl⟩
    | cons k l ih => exact fun u => ih (u.dropSlcBlk k)
  obtain ⟨m, hm⟩ := hdrop p.acks { s with sacBusy := s.sacBusy.filter (fun b => b.2.2 ≠ p.cmd) }
  exact ⟨_, m, hm⟩

@[simp] theorem State.unbusy_mem (s : State) (p : Packet) : (s.unbusy p).mem = s.mem := by
  obtain ⟨b, l, h⟩ := State.unbusy_eq s p; rw [h]
@[simp] theorem State.unbusy_cores (s : State) (p : Packet) : (s.unbusy p).cores = s.cores := by
  obtain ⟨b, l, h⟩ := State.unbusy_eq s p; rw [h]
@[simp] theorem State.unbusy_sac (s : State) (p : Packet) : (s.unbusy p).sac = s.sac := by
  obtain ⟨b, l, h⟩ := State.unbusy_eq s p; rw [h]
@[simp] theorem State.unbusy_cmds (s : State) (p : Packet) : (s.unbusy p).cmds = s.cmds := by
  obtain ⟨b, l, h⟩ := State.unbusy_eq s p; rw [h]
@[simp] theorem State.unbusy_nextId (s : State) (p : Packet) : (s.unbusy p).nextId = s.nextId := by
  obtain ⟨b, l, h⟩ := State.unbusy_eq s p; rw [h]

theorem State.foldl_sac {α : Type} {f : State → α → State} (hf : ∀ s a, (f s a).sac = s.sac) (l : List α) :
    ∀ s, (l.foldl f s).sac = s.sac := by
  induction l with
  | nil => exact fun _ => rfl
  | cons a l ih => exact fun s => (ih _).trans (hf s a)

/-- Storing a block leaves the directory. -/
@[simp] theorem sacWrite_sac (s : State) (t a et : Nat) (vs : List Nat) : (sacWrite s t a et vs).sac = s.sac := by
  have hput : ∀ (u : State) pos n v, (putGlob u t sacTag pos n v).sac = u.sac := by
    intro u pos n v
    refine State.foldl_sac (fun q e => ?_) _ u
    split <;> rfl
  refine (State.foldl_sac (f := fun q b => q.cleanMem b 1) (fun _ _ => rfl) _ _).trans ?_
  exact State.foldl_sac (fun _ _ => hput _ _ _ _) _ s

/-! ## The counters of R280 -/

theorem State.modTenant_modTenant (s : State) (t : Nat) (f g : Tenant → Tenant) :
    (s.modTenant t f).modTenant t g = s.modTenant t (fun v => g (f v)) := by
  simp [State.modTenant, State.setTenant, State.tenant]

/-- Counting touches its tenant alone. -/
theorem State.sacCount_eq (s : State) (t k n : Nat) : ∃ f, s.sacCount t k n = s.modTenant t f := by
  unfold State.sacCount State.use
  simp only
  split
  · exact ⟨_, rfl⟩
  · exact ⟨_, State.modTenant_modTenant _ _ _ _⟩

@[simp] theorem State.sacCount_mem (s : State) (t k n : Nat) : (s.sacCount t k n).mem = s.mem := by
  obtain ⟨f, hf⟩ := State.sacCount_eq s t k n; rw [hf]; rfl
@[simp] theorem State.sacCount_sac (s : State) (t k n : Nat) : (s.sacCount t k n).sac = s.sac := by
  obtain ⟨f, hf⟩ := State.sacCount_eq s t k n; rw [hf]; rfl

/-- A step-cache counter grows by what is counted, and no other one changes. -/
theorem State.sacCount_counter (s : State) (t k n j : Nat) : Map.get 0 ((s.sacCount t k n).tenant t).sacctr j =
    Map.get 0 (s.tenant t).sacctr j + if k = j then BitVec.ofNat 64 n else 0 := by
  have hput : ((s.sacCount t k n).tenant t).sacctr =
      Map.put 0 (s.tenant t).sacctr k (Map.get 0 (s.tenant t).sacctr k + BitVec.ofNat 64 n) := by
    unfold State.sacCount State.use
    simp only
    split <;> simp
  rw [hput, Map.get_put]
  split
  · next h => rw [h]
  · simp

theorem State.sacCount_replays (s : State) (t k n : Nat) : ((s.sacCount t k n).tenant t).replays = (s.tenant t).replays := by
  unfold State.sacCount State.use
  simp only
  split <;> simp

/-- Counting a verdict touches its tenant alone. -/
theorem State.countVerdict_eq (s : State) (t : Nat) (v : Dword) (bytes : Nat) :
    ∃ f, s.countVerdict t v bytes = s.modTenant t f := by
  have hcount : ∀ f k n, ∃ g, (s.modTenant t f).sacCount t k n = s.modTenant t g := by
    intro f k n
    obtain ⟨g, hg⟩ := State.sacCount_eq (s.modTenant t f) t k n
    exact ⟨_, hg.trans (State.modTenant_modTenant s t f g)⟩
  have herr : ∀ f, ∃ g, (if v.getLsbD 1 then (s.modTenant t f).sacCount t 3 1 else s.modTenant t f) = s.modTenant t g := by
    intro f
    split
    · exact hcount f 3 1
    · exact ⟨f, rfl⟩
  unfold State.countVerdict
  simp only
  obtain ⟨f0, h0⟩ := State.sacCount_eq s t 0 1
  obtain ⟨f1, h1⟩ := hcount f0 (if v.getLsbD 0 then 1 else 2) 1
  obtain ⟨f2, h2⟩ := herr f1
  rw [h0, h1, h2]
  split
  · obtain ⟨f3, h3⟩ := hcount f2 7 bytes
    rw [h3]
    exact ⟨_, State.modTenant_modTenant s t f3 _⟩
  · exact ⟨f2, rfl⟩

/-- What a verdict counts: a check, a hit or a miss, an error, on a hit the bytes replayed and a record of billing (R280). -/
theorem State.countVerdict_counters (s : State) (t : Nat) (v : Dword) (bytes : Nat) :
    Map.get 0 ((s.countVerdict t v bytes).tenant t).sacctr 0 = Map.get 0 (s.tenant t).sacctr 0 + 1 ∧
    Map.get 0 ((s.countVerdict t v bytes).tenant t).sacctr (if v.getLsbD 0 then 1 else 2) =
      Map.get 0 (s.tenant t).sacctr (if v.getLsbD 0 then 1 else 2) + 1 ∧
    Map.get 0 ((s.countVerdict t v bytes).tenant t).sacctr 3 = Map.get 0 (s.tenant t).sacctr 3 + (if v.getLsbD 1 then 1 else 0) ∧
    Map.get 0 ((s.countVerdict t v bytes).tenant t).sacctr 7 =
      Map.get 0 (s.tenant t).sacctr 7 + (if v.getLsbD 0 then BitVec.ofNat 64 bytes else 0) ∧
    ((s.countVerdict t v bytes).tenant t).replays = (s.tenant t).replays + (if v.getLsbD 0 then 1 else 0) := by
  unfold State.countVerdict
  cases hhit : v.getLsbD 0 <;> cases herr : v.getLsbD 1 <;>
    simp only [if_true, if_false, Bool.false_eq_true, State.tenant_modTenant_self, State.sacCount_counter, State.sacCount_replays] <;> simp

/-! ## The end of a command whose context is resident -/

theorem State.ctxOf_of_resident {s : State} {c u : Nat} {x : Ctx} (hx : s.ctx c = some x) (hu : x.uid = u) : s.ctxOf c u = some x := by
  unfold State.ctxOf
  rw [show (s.core c).res = some x from hx]
  simp [hu]

theorem State.ctx_modCtxOf_resident {s : State} {c u : Nat} {x : Ctx} (hx : s.ctx c = some x) (hu : x.uid = u) (f : Ctx → Ctx) :
    (s.modCtxOf c u f).ctx c = some (f x) := by
  unfold State.modCtxOf
  rw [State.ctx_modCore_self]
  simp [show (s.core c).res = some x from hx, hu]

theorem State.core_modCtxOf_ev (s : State) (c u : Nat) (f : Ctx → Ctx) : ((s.modCtxOf c u f).core c).ev = (s.core c).ev := by
  unfold State.modCtxOf
  rw [State.core_modCore_self]

theorem Ctx.perform_q6 (x : Ctx) (sq : Option Nat) (n : Nat) : (x.perform sq n).q6 = x.q6 := by
  cases sq <;> rfl

/-- A command without a fault to report is settled whole: its resident context keeps its q6 elements, and neither a tenant nor
a count changes. -/
theorem State.settle_all_resident {s : State} {id : Nat} {m : Cmd} {x : Ctx} (hm : Map.at? s.cmds id = some m)
    (hx : s.ctx m.core = some x) (hu : x.uid = m.uid) :
    (∃ y, (s.settle id m.pend {}).ctx m.core = some y ∧ y.q6 = x.q6) ∧
    ((s.settle id m.pend {}).core m.core).ev = (s.core m.core).ev ∧ (s.settle id m.pend {}).tenants = s.tenants := by
  unfold State.settle
  simp only [hm]
  split
  · have hleft : m.pend.filter (fun a => decide (a ∉ m.pend)) = [] := by
      simp [List.filter_eq_nil_iff]
    have hx' : ∀ cm sn, State.ctx { s with cmds := cm, sent := sn } m.core = some x := fun _ _ => hx
    simp only [hleft, State.cmdStatus, State.noteLines, if_true, List.isEmpty_nil, State.finishCmd, Map.at?_ins_self,
      State.ctxOf_of_resident (hx' _ _) hu]
    refine ⟨⟨_, State.ctx_modCtxOf_resident (hx' _ _) hu _, ?_⟩, State.core_modCtxOf_ev _ _ _ _, rfl⟩
    exact Ctx.perform_q6 x m.seqr m.opn
  · exact ⟨⟨x, hx, rfl⟩, rfl, rfl⟩

/-! ## SAC_CHECK (R275-R277) -/

/-- A command awaits one acknowledgement more, under the next identity. -/
def State.awaiting (s : State) (cmd : Nat) : State :=
  { s with nextId := s.nextId + 1, cmds := Map.modify s.cmds cmd (fun m => { m with pend := m.pend ++ [s.nextId] }) }

/-- A check that hits is answered by its verdict, and the stored block leaves for the core that asks under a further
acknowledgement of its command (R275). -/
def State.replay (s : State) (id : Nat) (p : Packet) (v : Dword) (tag et bytes : Nat) (o : Dword) (beats : List Beat) : State :=
  ((s.awaiting p.cmd).answer id p (.verdict v s.nextId bytes)).sendAll (sliceBlock p tag et o beats [(p.src, s.nextId)])

/-- What a replay leaves: the verdict, the block's beats and its close marker are on their way to the core under the block's
identity, which the command awaits too. -/
structure Replayed (s t : State) (p : Packet) (v : Dword) (tag et bytes : Nat) (o : Dword) (beats : List Beat) : Prop where
  fabric : Fabric s t
  verdict : ∃ n q, Map.at? t.net n = some q ∧ q.dst = p.src ∧ q.cmd = p.cmd ∧ q.kind = .verdict v s.nextId bytes
  close : ∃ i r, Map.at? t.net i = some r ∧ r.dst = p.src ∧ r.cmd = p.cmd ∧
    r.kind = .close { tag := tag, tenant := p.tenant, origin := o, blk := s.nextId, etype := et } beats.length false
  beat : ∀ b ∈ beats, ∃ i r, Map.at? t.net i = some r ∧ r.dst = p.src ∧ r.cmd = p.cmd ∧
    r.kind = .beat { tag := tag, tenant := p.tenant, origin := o, blk := s.nextId, etype := et } b
  pend : ∀ m, Map.at? s.cmds p.cmd = some m → ∃ m', Map.at? t.cmds p.cmd = some m' ∧ m'.pend = m.pend ++ [s.nextId]

theorem State.replay_replayed (s : State) (id : Nat) (p : Packet) (v : Dword) (tag et bytes : Nat) (o : Dword) (beats : List Beat) :
    Replayed s (s.replay id p v tag et bytes o beats) p v tag et bytes o beats := by
  have hcls := cls_of_mem_sliceBlock p tag et o beats p.src s.nextId
  have hsent : ∀ k, (∃ q ∈ sliceBlock p tag et o beats [(p.src, s.nextId)], q.kind = k ∧ q.dst = p.src ∧ q.cmd = p.cmd) →
      ∃ i r, Map.at? (s.replay id p v tag et bytes o beats).net i = some r ∧ r.dst = p.src ∧ r.cmd = p.cmd ∧ r.kind = k := by
    rintro k ⟨q, hq, hkind, hdst, hcmd⟩
    obtain ⟨i, r, hr, hk, hd, hc⟩ := State.mem_sendAll_net _ ((s.awaiting p.cmd).answer id p (.verdict v s.nextId bytes)) hcls hq
    exact ⟨i, r, hr, hd.trans hdst, hc.trans hcmd, hk.trans hkind⟩
  constructor
  case fabric =>
    have hawait : Fabric s (s.awaiting p.cmd) := ⟨rfl, fun _ => rfl⟩
    exact (hawait.trans (.answer _ _ _ _)).trans (.sendAll _ _)
  case verdict =>
    obtain ⟨hnet, -⟩ := State.answer_facts (s.awaiting p.cmd) id p (.verdict v s.nextId bytes) rfl
    have hkept := State.sendAll_net_of_lt (k := (s.awaiting p.cmd).nextId) _
      ((s.awaiting p.cmd).answer id p (.verdict v s.nextId bytes)) hcls (by rw [State.answer_nextId]; omega)
    exact ⟨_, _, hkept.trans hnet, rfl, rfl, rfl⟩
  case close => exact hsent _ (exists_close_mem_sliceBlock p tag et o beats p.src s.nextId)
  case beat => exact fun b hb => hsent _ (exists_beat_mem_sliceBlock p tag et o beats p.src s.nextId hb)
  case pend =>
    intro m hm
    refine Option.map_eq_some_iff.1 ?_
    unfold State.replay
    rw [State.sendAll_pend, State.answer_pend]
    simp [State.awaiting, Map.at?_modify, hm]

section
variable {s : State} {sl t key metric step age e n : Nat} {a : Blk} {thr : Word} {v : SacEnt}

theorem sacDecide_poisoned (hp : a.poison.isSome = true) : sacDecide s sl t key a thr metric step age = (s, 2, none) := by
  simp [sacDecide, hp]

theorem sacDecide_absent (hp : a.poison = none) (hf : sacFind s sl t key = none) :
    sacDecide s sl t key a thr metric step age = (s, 0, none) := by
  simp [sacDecide, hp, hf]

variable (hp : a.poison = none) (hf : sacFind s sl t key = some (e, v))
include hp hf

/-- An entry that reads an error is dropped (R277). -/
theorem sacDecide_error
    (hbad : (sacRead s t (sacAddr (s.tenant t) sl e) v.refEtype v.refShape).2 = true ∨
      (sacRead s t (sacAddr (s.tenant t) sl e + 0x4000) v.outEtype v.outShape).2 = true) :
    sacDecide s sl t key a thr metric step age = ({ s with sac := Map.del s.sac (sacSlot sl t e) }, 2, none) := by
  simp [sacDecide, hp, hf, hbad]

variable (href : (sacRead s t (sacAddr (s.tenant t) sl e) v.refEtype v.refShape).2 = false)
  (hout : (sacRead s t (sacAddr (s.tenant t) sl e + 0x4000) v.outEtype v.outShape).2 = false)
include href hout

/-- An entry of another step, or of another type or shape, is no hit, and its distance is not taken. -/
theorem sacDecide_unlike (hne : v.tag ≠ (step + 65535) % 65536 ∨ v.refEtype ≠ a.etype ∨ v.refShape ≠ a.shape) :
    sacDecide s sl t key a thr metric step age = (s, ageBit age v.age, none) := by
  unfold sacDecide
  by_cases htag : v.tag = (step + 65535) % 65536
  · have hlike : v.refEtype ≠ a.etype ∨ v.refShape ≠ a.shape := hne.resolve_left (not_not_intro htag)
    simp [hp, hf, href, hout, htag, hlike]
  · simp [hp, hf, href, hout, htag]

variable (htag : v.tag = (step + 65535) % 65536) (het : v.refEtype = a.etype) (hsh : v.refShape = a.shape)
  {dist : Nat} (hdist : dist = sacDistance metric a.etype (cCol a.shape) a.elems
    (sacRead s t (sacAddr (s.tenant t) sl e) v.refEtype v.refShape).1)
include htag het hsh hdist

/-- An entry that is too old, or too far, is no hit; its verdict names the distance. -/
theorem sacDecide_far (hfar : (age ≠ 0 ∧ age ≤ v.age) ∨ (Num.lt (floatVal 1 dist) (floatVal 1 thr.toNat) = false ∧
      Num.eq (floatVal 1 dist) (floatVal 1 thr.toNat) = false)) :
    sacDecide s sl t key a thr metric step age = (s, ageBit age v.age + 2 ^ 32 * dist, none) := by
  have hno : ((age = 0 || v.age < age) && (Num.lt (floatVal 1 dist) (floatVal 1 thr.toNat) ||
      Num.eq (floatVal 1 dist) (floatVal 1 thr.toNat))) = false := by
    rcases hfar with ⟨h0, hle⟩ | ⟨hlt, heq⟩
    · simp [h0, Nat.not_lt.2 hle]
    · simp [hlt, heq]
  unfold sacDecide
  simp only [hp, hf, href, hout, ← hdist]
  simp [htag, het, hsh, hno]

/-- An entry of the step before, young and near enough, is a hit: it takes the step and is one older. -/
theorem sacDecide_hit (hage : age = 0 ∨ v.age < age) (hnear : Num.lt (floatVal 1 dist) (floatVal 1 thr.toNat) = true ∨
      Num.eq (floatVal 1 dist) (floatVal 1 thr.toNat) = true) :
    sacDecide s sl t key a thr metric step age =
      ({ s with sac := Map.ins s.sac (sacSlot sl t e) { v with tag := step, age := Min.min (v.age + 1) 0xFFFF } },
        1 + ageBit age (Min.min (v.age + 1) 0xFFFF) + 2 ^ 32 * dist,
        some (e, { v with tag := step, age := Min.min (v.age + 1) 0xFFFF })) := by
  have hyes : ((age = 0 || v.age < age) && (Num.lt (floatVal 1 dist) (floatVal 1 thr.toNat) ||
      Num.eq (floatVal 1 dist) (floatVal 1 thr.toNat))) = true := by
    simp [hage, hnear]
  unfold sacDecide
  simp only [hp, hf, href, hout, ← hdist]
  simp [htag, het, hsh, hyes]
end

section
variable {s : State} {id sl : Nat} {p : Packet} {key step metric age : Nat} {thr : Word} {a : Blk}
  (ha : s.Arriving id p) (hdst : p.dst = .slice sl) (hkind : p.kind = .sacCheck key a thr metric step age true)
include ha hdst hkind

/-- A check waits for the beats of its block. -/
theorem exec_sacCheck_waits (hlt : (s.slcBlk (p.acks.headD 0)).beats < a.beats) : exec (.sacCheck id) s = .next s := by
  change execSacCheck id s = _
  unfold execSacCheck
  rw [onPacket_of_arriving ha]
  simp only [hkind, hdst, hlt, if_true]

variable (hle : a.beats ≤ (s.slcBlk (p.acks.headD 0)).beats)
include hle

/-- Where the directory names no entry to replay, its verdict is the whole answer. -/
theorem exec_sacCheck_verdict {u : State} {n : Nat} (hd : sacDecide s sl p.tenant key a thr metric step age = (u, n, none)) :
    exec (.sacCheck id) s = .next ((u.unbusy p).answer id p (.verdict (BitVec.ofNat 64 n) 0 0)) := by
  change execSacCheck id s = _
  unfold execSacCheck
  rw [onPacket_of_arriving ha]
  simp only [hkind, hdst, hd, Nat.not_lt.2 hle, if_false]

/-- An entry that hits is replayed. -/
theorem exec_sacCheck_replay {u : State} {n e : Nat} {v : SacEnt}
    (hd : sacDecide s sl p.tenant key a thr metric step age = (u, n, some (e, v))) :
    ∃ t, exec (.sacCheck id) s = .next t ∧ Replayed (u.unbusy p) t p (BitVec.ofNat 64 n) v.outTag v.outEtype
      (ceilDiv (volume v.outShape * ewidth v.outEtype) 8) (replayOrigin key v.outShape)
      (beatsOf v.outEtype (storedRows v.outEtype v.outShape (replayOrigin key v.outShape)
        (sacRead s p.tenant (sacAddr (s.tenant p.tenant) sl e + 0x4000) v.outEtype v.outShape).1)) := by
  refine ⟨_, ?_, State.replay_replayed _ id p _ _ _ _ _ _⟩
  change execSacCheck id s = _
  unfold execSacCheck
  rw [onPacket_of_arriving ha]
  simp only [hkind, hdst, hd, Nat.not_lt.2 hle, if_false, State.fresh, State.replay, State.awaiting, State.unbusy_nextId]
end

/-! ## SAC_FILL (R277, R278) -/

/-- A fill whose blocks are written lists its entry, is counted, with the eviction if it took a victim, and is acknowledged. -/
def State.listFill (s : State) (id : Nat) (p : Packet) (slot : Nat) (ent : SacEnt) (evict : Bool) (info : AckInfo) : State :=
  let u := { s with sac := Map.ins s.sac slot ent }
  ((if evict then u.sacCount p.tenant 5 1 else u).sacCount p.tenant 4 1).ackPkt id p info

section
variable (s : State) (id : Nat) (p : Packet) (slot : Nat) (ent : SacEnt) (evict : Bool) (info : AckInfo)

theorem State.listFill_mem : (s.listFill id p slot ent evict info).mem = s.mem := by
  unfold State.listFill
  rw [(Fabric.ackPkt _ _ _ _).mem, State.sacCount_mem]
  split <;> simp

theorem State.listFill_sac : (s.listFill id p slot ent evict info).sac = Map.ins s.sac slot ent := by
  unfold State.listFill
  rw [(Fabric.ackPkt _ _ _ _).sac, State.sacCount_sac]
  split <;> simp
end

section
variable {s : State} {id sl : Nat} {p : Packet} {key step k : Nat} {a b : Blk}
  (ha : s.Arriving id p) (hdst : p.dst = .slice sl) (hkind : p.kind = .sacFill key a b step true)
  (hneed : (s.slcBlk (p.acks.headD 0)).need = some k) (hin : k ≤ (s.slcBlk (p.acks.headD 0)).beats)
  (hout : b.beats ≤ (s.slcBlk (p.acks.getD 1 0)).beats)
include ha hdst hkind hneed hin hout

/-- A fill of a poisoned block counts an error and is acknowledged with ECC, and the key has no entry after it. -/
theorem exec_sacFill_poisoned (hbad : a.poison.isSome = true ∨ b.poison.isSome = true) :
    ∃ u : State, u.mem = s.mem ∧ (∀ e v, sacFind s sl p.tenant key = some (e, v) → Map.at? u.sac (sacSlot sl p.tenant e) = none) ∧
      exec (.sacFill id) s = .next ((u.sacCount p.tenant 3 1).ackPkt id p
        { cause := 9, tval := BitVec.ofNat 64 ((a.poison.or b.poison).getD 0) }) := by
  change ∃ u : State, _ ∧ _ ∧ execSacFill id s = _
  unfold execSacFill
  rw [onPacket_of_arriving ha]
  simp only [hkind, hdst, hneed, Option.all_some, Nat.not_lt.2 hin, Nat.not_lt.2 hout, decide_false, Bool.or_false]
  cases hf : sacFind s sl p.tenant key with
  | none => exact ⟨s.unbusy p, by simp, by simp, by simp [hbad]⟩
  | some f =>
    refine ⟨{ s.unbusy p with sac := Map.del (s.unbusy p).sac (sacSlot sl p.tenant f.1) }, by simp, ?_, by simp [hbad]⟩
    rintro e v ⟨⟩
    exact Map.at?_del_self _ _

variable (hpa : a.poison = none) (hpb : b.poison = none)
include hpa hpb

/-- A fill that finds no entry, for want of a quota, is refused and counted. -/
theorem exec_sacFill_refused (hf : fillEntry s sl p.tenant key step = none) :
    exec (.sacFill id) s = .next (((s.unbusy p).sacCount p.tenant 6 1).ackPkt id p {}) := by
  change execSacFill id s = _
  unfold execSacFill
  rw [onPacket_of_arriving ha]
  simp only [hkind, hdst, hneed, hpa, hpb, hf, Option.all_some, Nat.not_lt.2 hin, Nat.not_lt.2 hout, decide_false, Bool.or_false,
    Option.isSome_none, Bool.false_eq_true, if_false]

/-- A sound fill writes both blocks and lists its entry. -/
theorem exec_sacFill_listed {e : Nat} {evict : Bool} (hf : fillEntry s sl p.tenant key step = some (e, evict)) :
    ∃ info, exec (.sacFill id) s = .next ((sacWrite (sacWrite (s.unbusy p) p.tenant (sacAddr (s.tenant p.tenant) sl e) a.etype a.elems)
      p.tenant (sacAddr (s.tenant p.tenant) sl e + 0x4000) b.etype b.elems).listFill id p (sacSlot sl p.tenant e)
        { key := key, tag := step, age := 0, refEtype := a.etype, refShape := a.shape, outTag := b.tag, outEtype := b.etype, outShape := b.shape }
        evict info) := by
  change ∃ info, execSacFill id s = _
  unfold execSacFill
  rw [onPacket_of_arriving ha]
  simp only [hkind, hdst, hneed, hpa, hpb, hf, Option.all_some, Nat.not_lt.2 hin, Nat.not_lt.2 hout, decide_false, Bool.or_false,
    Option.isSome_none, Bool.false_eq_true, if_false]
  exact ⟨_, rfl⟩
end

/-! ## SAC_VERDICT_DELIVER (R17, R280) -/

/-- The state in which a verdict has been counted, and noted for its command. -/
def State.noteVerdict (s : State) (id : Nat) (p : Packet) (v : Dword) (bytes : Nat) : State :=
  let u := (s.unsend id).countVerdict p.tenant v bytes
  { u with applied := Map.ins u.applied p.cmd p.kind }

/-- Counting and noting a verdict leaves commands, cores and memory. -/
theorem State.noteVerdict_frame (s : State) (id : Nat) (p : Packet) (v : Dword) (bytes : Nat) :
    (s.noteVerdict id p v bytes).cmds = s.cmds ∧ (∀ c, (s.noteVerdict id p v bytes).core c = s.core c) ∧
    (∀ c, (s.noteVerdict id p v bytes).ctx c = s.ctx c) ∧ (s.noteVerdict id p v bytes).mem = s.mem := by
  obtain ⟨f, hf⟩ := State.countVerdict_eq (s.unsend id) p.tenant v bytes
  simp only [State.noteVerdict, hf]
  exact ⟨rfl, fun _ => rfl, fun _ => rfl, rfl⟩

/-- The verdict in the command's element, and its count at the core. -/
def State.giveVerdict (s : State) (m : Cmd) (i : Nat) (v : Dword) : State :=
  (s.count m.core (if v.getLsbD 0 then evSACHIT else evSACMISS) 1).modCtxOf m.core m.uid (fun x => x.produce i v)

/-- Giving a verdict touches its core alone. -/
theorem State.giveVerdict_frame (s : State) (m : Cmd) (i : Nat) (v : Dword) : (s.giveVerdict m i v).cmds = s.cmds ∧
    (s.giveVerdict m i v).tenants = s.tenants ∧ (s.giveVerdict m i v).mem = s.mem := ⟨rfl, rfl, rfl⟩

theorem State.giveVerdict_ctx {s : State} {m : Cmd} {x : Ctx} (hx : s.ctx m.core = some x) (hu : x.uid = m.uid) (i : Nat) (v : Dword) :
    (s.giveVerdict m i v).ctx m.core = some (x.produce i v) := by
  refine State.ctx_modCtxOf_resident ?_ hu _
  simp only [State.count, Nat.one_ne_zero, if_false, State.ctx_modCore_self]
  exact hx

theorem State.giveVerdict_ev (s : State) (m : Cmd) (i : Nat) (v : Dword) :
    Map.get 0 ((s.giveVerdict m i v).core m.core).ev (if v.getLsbD 0 then evSACHIT else evSACMISS) =
      Map.get 0 (s.core m.core).ev (if v.getLsbD 0 then evSACHIT else evSACMISS) + 1 := by
  unfold State.giveVerdict
  rw [State.core_modCtxOf_ev]
  simp only [State.count, Nat.one_ne_zero, if_false, State.core_modCore_self, Core.count, Map.get_put_self]
  rfl

section
variable {s : State} {id : Nat} {p : Packet} {v : Dword} {after bytes : Nat} {m : Cmd}
  (hfly : s.flying id = some p) (hkind : p.kind = .verdict v after bytes)
include hfly hkind

/-- A verdict waits for the landing of the block it comes after. -/
theorem exec_sacVerdictDeliver_waits (hm : Map.at? s.cmds p.cmd = some m) (hwait : after ∈ m.pend) :
    exec (.sacVerdictDeliver id) s = .next s := by
  change execSacVerdictDeliver id s = _
  unfold execSacVerdictDeliver
  simp [hfly, hkind, hm, hwait]

/-- A verdict of a command that has gone, and has had one, is not delivered again. -/
theorem exec_sacVerdictDeliver_again (hm : Map.at? s.cmds p.cmd = none) (happ : (Map.at? s.applied p.cmd).isSome = true) :
    exec (.sacVerdictDeliver id) s = .next (s.unsend id) := by
  change execSacVerdictDeliver id s = _
  unfold execSacVerdictDeliver
  simp [hfly, hkind, hm, happ]

/-- A command's first verdict is counted, noted and given to its element, and settles the command. -/
theorem exec_sacVerdictDeliver_gives {i : Nat} {rest : List Nat} {x : Ctx} (hm : Map.at? s.cmds p.cmd = some m) (hready : after ∉ m.pend)
    (happ : Map.at? s.applied p.cmd = none) (hq : m.q6 = i :: rest) (hx : s.ctx m.core = some x) (hu : x.uid = m.uid) :
    exec (.sacVerdictDeliver id) s = .next (((s.noteVerdict id p v bytes).giveVerdict m i v).settle p.cmd m.pend {}) := by
  obtain ⟨hcmds, -, hres, -⟩ := State.noteVerdict_frame s id p v bytes
  have hctx : (s.noteVerdict id p v bytes).ctxOf m.core m.uid = some x := State.ctxOf_of_resident ((hres _).trans hx) hu
  have hcmd : Map.at? (s.noteVerdict id p v bytes).cmds p.cmd = some m := by rw [hcmds]; exact hm
  unfold State.noteVerdict at hctx hcmd ⊢
  rw [hkind] at hctx hcmd ⊢
  change execSacVerdictDeliver id s = _
  unfold execSacVerdictDeliver
  simp only [hfly, hkind, hm, hready, decide_false, Bool.false_eq_true, if_false, happ, Option.isSome_none]
  simp only [hcmd, hctx, hq]
  rfl
end

/-! ## Obligation -/

/-- Settles O36: each clause is one case of the directory's decision, of a fill, or of a verdict's delivery. -/
theorem stepCacheSteps : Obligations.StepCacheSteps := by
  unfold Obligations.StepCacheSteps
  refine ⟨?_, ?_, ?_⟩
  · intro s id sl p key step metric age thr a ha hdst hkind
    refine ⟨exec_sacCheck_waits ha hdst hkind, fun hle => ⟨?_, ?_⟩⟩
    · rintro n (⟨rfl, hp⟩ | ⟨rfl, hp, hf⟩)
      · exact exec_sacCheck_verdict ha hdst hkind hle (sacDecide_poisoned hp)
      · exact exec_sacCheck_verdict ha hdst hkind hle (sacDecide_absent hp hf)
    rintro e v ref out dist hp hf rfl rfl hdist
    refine ⟨fun hbad => exec_sacCheck_verdict ha hdst hkind hle (sacDecide_error hp hf hbad), fun href hout => ⟨?_, ?_⟩⟩
    · rintro n (⟨hne, rfl⟩ | ⟨htag, het, hsh, rfl, hfar⟩)
      · exact exec_sacCheck_verdict ha hdst hkind hle (sacDecide_unlike hp hf href hout hne)
      · exact exec_sacCheck_verdict ha hdst hkind hle (sacDecide_far hp hf href hout htag het hsh hdist hfar)
    · intro htag het hsh hage hnear
      obtain ⟨t, hexec, hsent⟩ :=
        exec_sacCheck_replay ha hdst hkind hle (sacDecide_hit hp hf href hout htag het hsh hdist hage hnear)
      obtain ⟨n, q, hq, hqd, hqc, hqk⟩ := hsent.verdict
      obtain ⟨i, r, hr, hrd, hrc, hrk⟩ := hsent.close
      refine ⟨t, n, q, hexec, ?_, ?_, ?_, hq, hqd, hqc, ?_, ?_, ?_, ?_⟩
      · simpa using hsent.fabric.mem
      · simpa using hsent.fabric.cores
      · rw [hsent.fabric.sac]; simp
      · simpa using hqk
      · exact ⟨i, r, _, _, hr, hrd, hrc, hrk, rfl, rfl, State.unbusy_nextId _ _, rfl, rfl⟩
      · intro b hb
        obtain ⟨i, r, hr, hrd, hrc, hrk⟩ := hsent.beat b hb
        exact ⟨i, r, _, hr, hrd, hrc, hrk, State.unbusy_nextId _ _⟩
      · intro m hm
        obtain ⟨m', hm', hpend⟩ := hsent.pend m (by simpa using hm)
        exact ⟨m', hm', by simpa using hpend⟩
  · intro s id sl p key step k a b ha hdst hkind hneed hin hout
    refine ⟨?_, ?_, ?_⟩
    · intro hpa hpb e evict hf
      obtain ⟨info, hexec⟩ := exec_sacFill_listed ha hdst hkind hneed hin hout hpa hpb hf
      refine ⟨_, hexec, ?_, ?_, State.listFill_mem _ _ _ _ _ _ _⟩
      · rw [State.listFill_sac, Map.at?_ins_self]
      · intro j hj
        rw [State.listFill_sac, Map.at?_ins_ne _ _ (Ne.symm hj)]
        simp
    · intro hpa hpb hf
      refine ⟨_, exec_sacFill_refused ha hdst hkind hneed hin hout hpa hpb hf, ?_, ?_⟩
      · rw [(Fabric.ackPkt _ _ _ _).sac]; simp
      · rw [(Fabric.ackPkt _ _ _ _).mem]; simp
    · intro hbad
      obtain ⟨u, hmem, hgone, hexec⟩ := exec_sacFill_poisoned ha hdst hkind hneed hin hout hbad
      obtain ⟨hnet, -⟩ := State.answer_facts (u.sacCount p.tenant 3 1) id p
        (.ack p.seq p.acks { cause := 9, tval := BitVec.ofNat 64 ((a.poison.or b.poison).getD 0) }) rfl
      refine ⟨_, _, _, hexec, ?_, ?_, hnet, rfl, rfl, rfl⟩
      · rw [(Fabric.ackPkt _ _ _ _).mem]; simpa using hmem
      · intro e v hf
        rw [(Fabric.ackPkt _ _ _ _).sac]; simpa using hgone e v hf
  · intro s id p v after bytes i rest m x hfly hkind
    refine ⟨exec_sacVerdictDeliver_waits hfly hkind, exec_sacVerdictDeliver_again hfly hkind, ?_⟩
    intro hm hready happ hq hx hu
    have hexec := exec_sacVerdictDeliver_gives hfly hkind hm hready happ hq hx hu.symm
    obtain ⟨hcmds, hcore, hres, hmem⟩ := State.noteVerdict_frame s id p v bytes
    obtain ⟨gcmds, gtenants, gmem⟩ := State.giveVerdict_frame (s.noteVerdict id p v bytes) m i v
    obtain ⟨⟨y, hy, hyq⟩, hev, htenants⟩ := State.settle_all_resident (by rw [gcmds, hcmds]; exact hm)
      (State.giveVerdict_ctx ((hres _).trans hx) hu.symm i v) hu.symm
    have htenant : ∀ t : State, t.tenants = ((s.noteVerdict id p v bytes).giveVerdict m i v).tenants →
        t.tenant p.tenant = ((s.unsend id).countVerdict p.tenant v bytes).tenant p.tenant := by
      intro t ht; unfold State.tenant; rw [ht, gtenants]; rfl
    obtain ⟨hchecks, hhits, herrors, hbytes, hreplays⟩ := State.countVerdict_counters (s.unsend id) p.tenant v bytes
    refine ⟨_, y, hexec, hy, hyq, ?_, ?_⟩
    · rw [(Settled.settle _ _ _ _).mem, gmem, hmem]
    · rw [htenant _ htenants, hev, State.giveVerdict_ev, hcore]
      exact ⟨hchecks, hhits, herrors, hbytes, hreplays, rfl⟩

end Sys2Proof.Machine
end

section
/-! SUPPORT. Words and the opcode map (R42-R53): the fields of a word, each instruction's row, and what a row reads. Settles
O54, O55 and O56. -/

namespace Sys2Proof

/-! ## Fields of a word -/

theorem extract_field_self {n off : Nat} (v : BitVec n) (h : off + n ≤ 32) :
    (v.setWidth 32 <<< off).extractLsb' off n = v := by
  apply BitVec.eq_of_getLsbD_eq
  intro i hi
  simp [hi, show off + i < 32 by omega]

theorem extract_field_apart {n off o m : Nat} (v : BitVec n) (h : o + m ≤ off ∨ off + n ≤ o) :
    (v.setWidth 32 <<< off).extractLsb' o m = 0#m := by
  apply BitVec.eq_of_getLsbD_eq
  intro i hi
  by_cases hlow : o + i < off
  · simp [hlow]
  · simp [BitVec.getLsbD_of_ge v (o + i - off) (by omega)]

/-- A field has no bit in a mask that is clear where the field stands. -/
theorem field_and_mask {n off : Nat} (v : BitVec n) {m : Word} (h : m.extractLsb' off n = 0#n) :
    (v.setWidth 32 <<< off) &&& m = 0#32 := by
  apply BitVec.eq_of_getLsbD_eq
  intro i hi
  rw [BitVec.getLsbD_and, BitVec.getLsbD_shiftLeft, BitVec.getLsbD_setWidth]
  by_cases hlow : i < off
  · simp [hlow]
  · by_cases hn : i - off < n
    · have hbit := congrArg (fun z => z.getLsbD (i - off)) h
      simp only [BitVec.getLsbD_extractLsb', hn, decide_true, Bool.true_and, BitVec.getLsbD_zero] at hbit
      rw [show off + (i - off) = i by omega] at hbit
      simp [hbit]
    · simp [BitVec.getLsbD_of_ge v (i - off) (by omega)]

/-- A field read from a word and put back are the word's bits under the field's mask. -/
theorem field_extract (w : Word) (off n : Nat) :
    (w.extractLsb' off n).setWidth 32 <<< off = w &&& (BitVec.allOnes n).setWidth 32 <<< off := by
  apply BitVec.eq_of_getLsbD_eq
  intro i hi
  simp only [BitVec.getLsbD_and, BitVec.getLsbD_shiftLeft, BitVec.getLsbD_setWidth, BitVec.getLsbD_extractLsb', BitVec.getLsbD_allOnes, hi,
    decide_true, Bool.true_and]
  by_cases hlow : i < off
  · simp [hlow]
  · rw [show off + (i - off) = i by omega]
    cases w.getLsbD i <;> simp

theorem extract_low_self {n : Nat} (v : BitVec n) (h : n ≤ 32) : (v.setWidth 32).extractLsb' 0 n = v := by
  have := extract_field_self (off := 0) v (by omega)
  rwa [BitVec.shiftLeft_zero] at this

theorem extract_low_apart {n o m : Nat} (v : BitVec n) (h : n ≤ o) : (v.setWidth 32).extractLsb' o m = 0#m := by
  have := extract_field_apart (off := 0) (o := o) (m := m) v (.inr (by omega))
  rwa [BitVec.shiftLeft_zero] at this

theorem low_and_mask {n : Nat} (v : BitVec n) {m : Word} (h : m.extractLsb' 0 n = 0#n) : v.setWidth 32 &&& m = 0#32 := by
  have := field_and_mask (off := 0) v h
  rwa [BitVec.shiftLeft_zero] at this

theorem low_extract (w : Word) (n : Nat) : (w.extractLsb' 0 n).setWidth 32 = w &&& (BitVec.allOnes n).setWidth 32 := by
  have := field_extract w 0 n
  rwa [BitVec.shiftLeft_zero, BitVec.shiftLeft_zero] at this

/-- The row at an instruction's place in the opcode map is its own: its word has the row's fixed bits, and the row reads
the instruction back from the word's fields. -/
theorem row_of_encode {i : Instr} {w : Word} (h : encode i = some w) :
    ∃ r, encRows[i.ctorIdx]? = some r ∧ w &&& r.mask = r.pat ∧ r.build w = i := by
  cases i <;> cases h
  all_goals refine ⟨_, rfl, ?_, ?_⟩
  all_goals
    simp only [BitVec.extractLsb'_or, BitVec.and_or_distrib_right, extract_field_self, extract_field_apart, field_and_mask,
      extract_low_self, extract_low_apart, low_and_mask, BitVec.reduceExtractLsb', BitVec.reduceAnd, BitVec.zero_or, BitVec.or_zero,
      Nat.reduceAdd, Nat.reduceLeDiff, or_true, true_or]
  all_goals rfl

/-- A word's fixed bits and its fields together are the word. -/
theorem fixed_or_fields {w mask pat fields : Word} (h : w &&& mask = pat) (hf : mask ||| fields = BitVec.allOnes 32) :
    pat ||| (w &&& fields) = w := by
  rw [← h, ← BitVec.and_or_distrib_left, hf, BitVec.and_allOnes]

/-- A word all of whose bits are fixed. -/
theorem fixed_word {w pat : Word} (h : w &&& 0xFFFFFFFF = pat) : pat = w := by
  rw [← h]; exact BitVec.and_allOnes

/-- What a row reads from a word with its fixed bits has that word. -/
theorem encode_build : ∀ r ∈ encRows, ∀ w, w &&& r.mask = r.pat → encode (r.build w) = some w := by
  simp only [encRows, rowsS0, rowsS1, rowsV0, rowsV1, rowsM0, rowsX0, rowsY0, rowsK0, rowsSystem0, List.forall_mem_append,
    List.forall_mem_cons, List.not_mem_nil, false_imp_iff, implies_true, and_true]
  and_intros
  all_goals
    intro w h
    refine congrArg some (?_ : _ = w)
  any_goals
    simp only [field_extract, low_extract, BitVec.or_assoc, ← BitVec.and_or_distrib_left]
    exact fixed_or_fields h rfl
  all_goals exact fixed_word h

/-- Every row fixes the engine bits 31:29, and none to 111 (R30). -/
theorem encRows_engine : encRows.all (fun r => decide (r.mask.extractLsb' 29 3 = 7#3) && decide (r.pat.extractLsb' 29 3 ≠ 7#3)) = true := by
  decide +kernel

theorem engine_ne_pfx {w : Word} {r : EncRow} (hm : r ∈ encRows) (hw : w &&& r.mask = r.pat) : w.extractLsb' 29 3 ≠ 7#3 := by
  have h := List.all_eq_true.1 encRows_engine r hm
  simp only [Bool.and_eq_true, decide_eq_true_eq] at h
  obtain ⟨hmask, hpat⟩ := h
  intro hp
  rw [← hw, BitVec.extractLsb'_and, hp, hmask] at hpat
  exact hpat rfl

/-- Settles O54: an instruction's word has the fixed bits of the row at the instruction's place in the opcode map, and no
other row's, since the rows clash. -/
theorem decodeOfEncode : Obligations.DecodeOfEncode := by
  intro i w henc hwf
  obtain ⟨r, hr, hw, rfl⟩ := row_of_encode henc
  have hm := List.mem_of_getElem? hr
  exact decode_of_row hm hw (engine_ne_pfx hm hw) hwf

/-- Settles O55: a word that decodes has the fixed bits of a row, and the fields the row reads are all its other bits. -/
theorem encodeOfDecode : Obligations.EncodeOfDecode := by
  intro w i hdec
  obtain ⟨r, hm, hw, rfl, hwf⟩ := row_of_decode hdec
  exact ⟨encode_build r hm w hw, hwf⟩

/-- Settles O56: the assigned words by O54, each from its instruction; the other patterns by the decoder's own run. -/
theorem decodedWords : Obligations.DecodedWords := by
  refine ⟨decodeOfEncode .nop _ rfl rfl, ?_, decodeOfEncode (.add 3 18 49) _ rfl rfl, decodeOfEncode (.br 5 0 3) _ rfl rfl,
    decodeOfEncode (.vadd 3 4 3 0) _ rfl rfl, decodeOfEncode (.mma 1 1 2 3 1) _ rfl rfl, decodeOfEncode (.xget 2 1 1 0 0) _ rfl rfl,
    decodeOfEncode (.hnew 1) _ rfl rfl, decodeOfEncode (.ktopc 1 2 3 4) _ rfl rfl, decodeOfEncode (.trap 5) _ rfl rfl,
    decodeOfEncode (.ebrk 0x1FFFF) _ rfl rfl, decodeOfEncode .eret _ rfl rfl, ?_, decodeOfEncode (.add 3 0 0) _ rfl rfl, ?_⟩
  · decide +kernel
  · decide +kernel
  · decide +kernel

end Sys2Proof
end

section
/-! SUPPORT. Scalar words with a result (R41, R86, R91-R99): one description that every word of the three tables of rows
meets, and what a word so described leaves. Settles O1, O2 and O3. -/

namespace Sys2Proof.Machine

/-- What capture knows of a scalar word with a result: its operand codes, its destination, and the predicates it reads. -/
def ScalarRow.spec (r : ScalarRow) (preds : List Nat) : CapSpec :=
  { eng := .s, srcs := r.srcs, dst := some r.dst, preds := preds }

/-- The word as its own checks leave it: a captured value, an immediate and q6 reservations filled in. -/
def ScalarRow.word (r : ScalarRow) (x : Ctx) (i : Instr) (preds : List Nat) (vals : List Dword) (cap imm : Dword) (q6 : List Nat) :
    QWord :=
  { mkWord x i (r.spec preds) vals with cap := cap, imm := imm, q6 := q6 }

/-- An instruction is the scalar word of a row: it is captured with the row's operands and destination, its checks pass and fill
in the word, and it runs to finish with the row's value and k flushed inputs. -/
def ResultWord (s : State) (x : Ctx) (i : Instr) (r : ScalarRow) (vals : List Dword) (k : Nat) : Prop :=
  ∃ (preds : List Nat) (chk : State → Nat → Ctx → QWord → Chk) (n : QWord → Nat) (f : QWord → Dword) (cap imm : Dword),
    exec i s = issue i (r.spec preds) chk noAct (fun s c w => finishFlushed s c w (n w) (f w)) s ∧ i.still = true ∧
    chk s s.cur x (mkWord x i (r.spec preds) vals) = .ok (r.word x i preds vals cap imm []) ∧
    ∀ q, n (r.word x i preds vals cap imm q) = k ∧ f (r.word x i preds vals cap imm q) = r.value vals

theorem resultWord_of_intRow {s : State} {x : Ctx} {i : Instr} {r : ScalarRow} (vals : List Dword) (hr : intRow x i = some r) :
    ResultWord s x i r vals 0 := by
  cases i <;> cases hr
  all_goals exact ⟨[], _, fun _ => 0, _, _, _, rfl, rfl, rfl, fun _ => ⟨rfl, rfl⟩⟩

theorem resultWord_of_floatRow {s : State} {x : Ctx} {i : Instr} {r : ScalarRow} (vals : List Dword) (hr : floatRow x i = some r) :
    ResultWord s x i r vals (flushCount x.ftz vals) := by
  cases i <;> cases hr
  all_goals exact ⟨[], _, fun w => flushCount w.ftz w.ops, _, _, _, rfl, rfl, rfl, fun _ => ⟨rfl, rfl⟩⟩

theorem resultWord_of_readRow {s : State} {x : Ctx} {i : Instr} {r : ScalarRow} (vals : List Dword) (hx : s.ctx s.cur = some x)
    (hr : readRow s x i = some r) : ResultWord s x i r vals 0 := by
  cases i
  case fcvtFw d a => cases hr; exact ⟨[], _, fun _ => 0, _, _, _, rfl, rfl, rfl, fun _ => ⟨rfl, rfl⟩⟩
  case csel d a b p =>
    cases hr
    refine ⟨[p.toNat], _, fun _ => 0, _, _, _, rfl, rfl, rfl, fun q => ⟨rfl, ?_⟩⟩
    show (if (if (x.pred p.toNat).getLsbD 0 then (1 : Dword) else 0) = 1 then vals.getD 0 0 else vals.getD 1 0) =
      if (x.pred p.toNat).getLsbD 0 then vals.getD 0 0 else vals.getD 1 0
    cases (x.pred p.toNat).getLsbD 0 <;> rfl
  case pget d p h => cases hr; exact ⟨[p.toNat], _, fun _ => 0, _, _, _, rfl, rfl, rfl, fun _ => ⟨rfl, rfl⟩⟩
  case rdshape d t => cases hr; exact ⟨[], _, fun _ => 0, _, _, _, rfl, rfl, rfl, fun _ => ⟨rfl, rfl⟩⟩
  case csrr d c =>
    simp only [readRow] at hr
    split at hr
    · rename_i hc
      cases hr
      refine ⟨[], fun s k x w => .ok { w with cap := csrRead (endStall s k x) k x c.toNat }, fun _ => 0, QWord.cap, _, _, ?_, rfl, rfl, fun _ => ⟨rfl, rfl⟩⟩
      show execCsrr d c s = _
      unfold execCsrr
      rw [hx]
      simp only [hc]
      rfl
    · cases hr
  all_goals cases hr

/-- A scalar word of an idle strand with a destination that may be written leaves its result there. -/
theorem ResultWord.exec_eq {s : State} {x : Ctx} {i : Instr} {r : ScalarRow} {vals : List Dword} {pops : List Nat} {k : Nat}
    (hw : ResultWord s x i r vals k) (h : Idle s x) (hread : readAll s s.cur x r.srcs [] [] = .ok vals pops)
    (hd : DestOk s x pops r.dst) :
    exec i s = .next ((noteFlush ((s.popped x pops).modCtx s.cur (fun y => (y.result r.dst (r.value vals)).past x.stochastic)) s.cur k).outbox
      r.dst x.tenant (r.value vals)) := by
  obtain ⟨preds, chk, n, f, cap, imm, hexec, hstill, hchk, hval⟩ := hw
  obtain ⟨hn, hf⟩ := hval []
  have hdone := issue_result (n := n) (f := f) h rfl rfl rfl rfl rfl (destTrap_ok hd) hd.plain hread hchk ⟨cap, imm, rfl⟩
    (fun h54 => (hd.q6 h54).2) hd.outbox rfl (fun t c k _ => State.placed_still t c k hstill)
    (fun q => (hval q).2.trans hf.symm) (fun q => (hval q).1.trans hn.symm)
  rw [hexec, hdone, takesSr_plain rfl rfl, hf, hn]
  rfl

/-- Settles O1: every word of the integer rows is a scalar word with a result and no flushed input. -/
theorem integerWords : Obligations.IntegerWords := by
  intro s x i r vals pops hr h hread hd
  exact (resultWord_of_intRow vals hr).exec_eq h hread hd

/-- Settles O2: every word of the FP32 rows is one that counts the flushed inputs of its operands. -/
theorem floatWords : Obligations.FloatWords := by
  intro s x i r vals pops hr h hread hd
  exact (resultWord_of_floatRow vals hr).exec_eq h hread hd

/-- Settles O3: every word of the reading rows is one whose value capture takes from the context. -/
theorem readingWords : Obligations.ReadingWords := by
  intro s x i r vals pops hr h hread hd
  exact (resultWord_of_readRow vals h.resident hr).exec_eq h hread hd

end Sys2Proof.Machine
end

section
/-! SUPPORT. Traps (R56, R298-R303): what entry into the handler leaves of a context, when a raised trap is entered at once, and
what a capture trap of a strand with nothing under way does. Settles O19 and O24. -/

namespace Sys2Proof.Machine

/-! ## Words put in program order -/

theorem mem_insertSeq {v w : QWord} {l : List QWord} : v ∈ insertSeq w l ↔ v = w ∨ v ∈ l := by
  induction l with
  | nil => simp [insertSeq]
  | cons u t ih =>
    unfold insertSeq
    split
    · simp
    · simp only [List.mem_cons, ih]; tauto

theorem mem_foldl_insertSeq {v : QWord} (ws : List QWord) : ∀ {l : List QWord},
    v ∈ ws.foldl (fun l w => insertSeq w l) l ↔ v ∈ ws ∨ v ∈ l := by
  induction ws with
  | nil => simp
  | cons w ws ih => intro l; simp only [List.foldl_cons, ih, mem_insertSeq, List.mem_cons]; tauto

/-! ## Entry into the handler -/

theorem pstatOf_bits (old : BitVec 8) (e : Engine) (engineTrap held : Bool) :
    (pstatOf old e engineTrap held).getLsbD 0 = true ∧ (pstatOf old e engineTrap held).getLsbD 1 = old.getLsbD 0 ∧
      (pstatOf old e engineTrap held).getLsbD 2 = engineTrap ∧ (pstatOf old e engineTrap held).extractLsb' 3 3 = BitVec.ofNat 3 e.num ∧
      (pstatOf old e engineTrap held).getLsbD 6 = false ∧ (pstatOf old e engineTrap held).getLsbD 7 = held := by
  unfold pstatOf
  generalize old.getLsbD 0 = user
  revert user engineTrap held
  cases e <;> decide

/-- The errored element goes out of the q6 alone. -/
theorem Ctx.dropElem_eq (x : Ctx) (e : Option Nat) : ∃ q, x.dropElem e = { x with q6 := q } := by
  cases e with
  | none => exact ⟨x.q6, rfl⟩
  | some i => exact ⟨_, rfl⟩

/-- A handler is entered as R298 and R303 say, whatever cycle and place the trap was raised with. -/
theorem entered_enterHandler (x : Ctx) (tvec : Nat) {p q : Pend} (hq : q = { p with cycle := q.cycle, place := q.place }) :
    Entered x ((x.dropElem q.elem).enterHandler tvec q) p tvec := by
  have helem : q.elem = p.elem := by rw [hq]
  obtain ⟨q6, hx⟩ := Ctx.dropElem_eq x q.elem
  generalize hy : (x.dropElem q.elem).enterHandler tvec q = y
  have hstat : y.pstat = pstatOf x.pstat p.eng p.word.isSome (!y.held.words.isEmpty || !y.held.toks.isEmpty) := by
    rw [← hy, hx, hq]; rfl
  obtain ⟨hmode, hpmode, htrap, heng, hskip, hheld⟩ := pstatOf_bits x.pstat p.eng p.word.isSome (!y.held.words.isEmpty || !y.held.toks.isEmpty)
  rw [← hstat] at hmode hpmode htrap heng hskip hheld
  have hwords : y.held.words = (((x.fly.filter (fun w => w.waiting)).map (fun w => { w with waiting := false })).foldl
      (fun l w => insertSeq w l) x.qs).map (fun w => { w with blocked := false }) := by rw [← hy, hx]; rfl
  constructor
  case mode => exact hmode
  case pmode => exact hpmode
  case engineTrap => exact htrap
  case engine => exact heng
  case skip => exact hskip
  case holds => exact hheld
  case words =>
    intro w hw
    rw [hwords]
    exact List.mem_map_of_mem (mem_foldl_insertSeq _ |>.2 (.inr hw))
  case waiters =>
    intro w hw hwait
    rw [hwords]
    refine List.mem_map.2 ⟨{ w with waiting := false }, (mem_foldl_insertSeq _).2 (.inl ?_), rfl⟩
    exact List.mem_map_of_mem (List.mem_filter.2 ⟨hw, hwait⟩)
  case registers => subst hy; rw [← helem, hx]; exact ⟨rfl, rfl, rfl, rfl, rfl, rfl, rfl, rfl, rfl, rfl, rfl, rfl, rfl⟩
  case empty => subst hy; exact ⟨rfl, rfl, rfl⟩
  all_goals
    subst hy
    rw [hx, hq]
    rfl

/-- The end of a stall changes a core's counters alone. -/
theorem endStall_core_eq (s : State) (c : Nat) (x : Ctx) (d : Nat) : ∃ ev, (endStall s c x).core d = { s.core d with ev := ev } := by
  have hcount : ∀ k n, ∃ ev, (s.count c k n).core d = { s.core d with ev := ev } := by
    intro k n
    unfold State.count
    split
    · exact ⟨_, rfl⟩
    · by_cases hd : c = d
      · subst hd; rw [State.core_modCore_self]; exact ⟨_, rfl⟩
      · rw [State.core_modCore_ne _ _ hd]; exact ⟨_, rfl⟩
  unfold endStall
  split
  · exact hcount _ _
  · exact hcount _ _
  · exact ⟨_, rfl⟩

/-- A trap with a handler is entered. -/
theorem enterTrap_enters {s : State} {c : Nat} {x : Ctx} {p q : Pend} (hq : q = { p with cycle := q.cycle, place := q.place })
    (hx : s.ctx c = some x) (hpriv : x.priv = false) (htvec : Map.get 0 (s.core c).tvec x.tenant ≠ 0) :
    ∃ y, s.enterTrap c q = s.setCtx c y ∧ Entered x y p (Map.get 0 (s.core c).tvec x.tenant) := by
  refine ⟨_, ?_, entered_enterHandler x _ hq⟩
  unfold State.enterTrap
  obtain ⟨q6, hdrop⟩ := Ctx.dropElem_eq x q.elem
  simp only [hx, hdrop]
  rw [if_neg]
  simp only [Bool.or_eq_true, decide_eq_true_eq, not_or]
  exact ⟨by rw [show Ctx.priv { x with q6 := q6 } = x.priv from rfl, hpriv]; decide, htvec⟩

/-- Entry does not look at what capture waited for. -/
theorem Entered.of_stall {x y : Ctx} {p : Pend} {tvec : Nat} (h : Entered { x with stall := .none } y p tvec) : Entered x y p tvec := by
  obtain ⟨h1, h2, h3, h4, h5, h6, h7, h8, h9, h10, h11, h12, h13, h14, h15, hreg⟩ := h
  refine ⟨h1, h2, h3, h4, h5, h6, h7, h8, h9, h10, h11, h12, h13, h14, h15, ?_⟩
  rw [show (x.dropElem p.elem).q6 = (Ctx.dropElem { x with stall := .none } p.elem).q6 by cases p.elem <;> rfl]
  exact hreg

/-- A trap raised where nothing more can start, with a handler, is entered at once (R298). -/
theorem raise_enters {s : State} {c : Nat} {x : Ctx} {p : Pend} (hx : s.ctx c = some x) (hpend : x.pend = none)
    (hnone : s.noneRunsOn c x = true) (hdone : x.earlierDone p.eng p.word = true) (hrun : (s.core c).quiesce = none)
    (hpriv : x.priv = false) (htvec : Map.get 0 (s.core c).tvec x.tenant ≠ 0) :
    ∃ y, s.raise c p = (endStall s c x).setCtx c y ∧ Entered x y p (Map.get 0 (s.core c).tvec x.tenant) := by
  have hmay : s.mayEnter c x (p.raisedIn s x) = true := by
    rw [State.mayEnter, hnone]; exact hdone
  have hraise : s.raise c p = (s.unstall c x).enterTrap c (p.raisedIn s x) := by
    unfold State.raise
    simp only [hx, hpend, hmay, hrun]
    rfl
  rw [hraise]
  unfold State.unstall
  split
  · rename_i hst
    obtain ⟨y, hy, hent⟩ := enterTrap_enters (p := p) (q := p.raisedIn s x) rfl hx hpriv htvec
    exact ⟨y, by rw [hy]; unfold endStall; rw [hst], hent⟩
  · obtain ⟨ev, hev⟩ := endStall_core_eq s c x c
    have htv : Map.get 0 (((endStall s c x).setCtx c { x with stall := .none }).core c).tvec x.tenant = Map.get 0 (s.core c).tvec x.tenant := by
      rw [State.core_setCtx_self, hev]
    obtain ⟨y, hy, hent⟩ := enterTrap_enters (p := p) (q := p.raisedIn s x) rfl
      (State.ctx_setCtx_self (endStall s c x) c { x with stall := .none }) hpriv (by rw [htv]; exact htvec)
    rw [State.setCtx_setCtx, htv] at *
    exact ⟨y, hy, hent.of_stall⟩

/-- A trap of capture, where nothing more can start and with a handler, is entered at once (R32, R56). -/
theorem captureTrap_enters {s : State} {c : Nat} {x : Ctx} (e : Engine) (cause : Nat) (tval : Dword) (hpend : x.pend = none)
    (hnone : ((endStall s c x).setCtx c { x with grp := {}, stall := .none }).noneRunsOn c { x with grp := {}, stall := .none } = true)
    (hrun : (s.core c).quiesce = none) (hpriv : x.priv = false) (htvec : Map.get 0 (s.core c).tvec x.tenant ≠ 0) :
    ∃ y, captureTrap s c x e cause tval = (endStall s c x).setCtx c y ∧ Entered { x with grp := {}, stall := .none } y
      { cause := cause, tval := tval, eng := e, addr := x.grp.addr, word := none } (Map.get 0 (s.core c).tvec x.tenant) := by
  obtain ⟨ev, hev⟩ := endStall_core_eq s c x c
  have hcore : ((endStall s c x).setCtx c { x with grp := {}, stall := .none }).core c =
      { s.core c with ev := ev, res := some { x with grp := {}, stall := .none } } := by rw [State.core_setCtx_self, hev]
  obtain ⟨y, hy, hent⟩ := raise_enters (p := { cause := cause, tval := tval, eng := e, addr := x.grp.addr, word := none })
    (State.ctx_setCtx_self (endStall s c x) c { x with grp := {}, stall := .none }) hpend hnone rfl (by rw [hcore]; exact hrun) hpriv
    (by rw [hcore]; exact htvec)
  rw [hcore] at hent
  exact ⟨y, hy.trans (State.setCtx_setCtx _ _ _ _), hent⟩

/-- Nothing runs on in a strand without words. -/
theorem noneRunsOn_empty (s : State) (c : Nat) {x : Ctx} (hq : x.qs = []) (hf : x.fly = []) : s.noneRunsOn c x = true := by
  simp [State.noneRunsOn, Ctx.midRows, Ctx.signaller, Ctx.head, hq, hf]

/-! ## Privileged words in user mode -/

/-- Capture of a privileged word in user mode traps before it reads anything (R32, R52). -/
theorem issue_priv {i : Instr} {sp : CapSpec} (chk : State → Nat → Ctx → QWord → Chk) (act : State → Nat → QWord → State) (run : RunFn)
    {s : State} {x : Ctx} (h : Idle s x) (hsp : sp.priv = true) (hpriv : x.priv = false) :
    issue i sp chk act run s = .next (captureTrap s s.cur x sp.eng 5 (x.grp.raw.setWidth 64)) := by
  have hsteer : x.steering = false := by simp [Ctx.steering, Ctx.queued, h.queues]
  unfold issue capture
  rw [h.resident]
  simp [captureShut_idle h, hsteer, hsp, hpriv]

/-- Settles O19: each of the words is captured as a privileged S word, and its trap is entered since the strand is idle. -/
theorem privilegedWords : Obligations.PrivilegedWords := by
  intro s x i h hpriv htvec hi
  obtain ⟨y, hy, hent⟩ := captureTrap_enters (s := s) (c := s.cur) .s 5 (x.grp.raw.setWidth 64) h.noTrap
    (noneRunsOn_empty _ _ h.queues h.started) h.running hpriv htvec
  refine ⟨y, ?_, hent⟩
  rw [← hy]
  rcases hi with rfl | ⟨a, rfl⟩ | ⟨a, rfl⟩ | ⟨a, rfl⟩ | rfl | rfl | ⟨a, n, rfl⟩
  all_goals exact issue_priv _ _ _ h rfl hpriv

/-! ## TRAP_ENTRY and CHANNEL_POP_TIMEOUT -/

theorem State.running_some {s : State} {c : Nat} {x : Ctx} (h : s.running c = some x) :
    s.ctx c = some x ∧ s.powered = true ∧ (s.core c).quiesce = none := by
  unfold State.running at h
  split at h
  · rename_i y hy
    split at h
    · rename_i hp
      cases h
      simpa [hy] using hp
    · cases h
  · cases h

/-- Which words run on does not depend on the group in the latch, nor on what capture waits for. -/
theorem noneRunsOn_latch {s : State} {c : Nat} {x : Ctx} (g : Grp) (st : Stall) (h : s.noneRunsOn c x = true) :
    (s.setCtx c { x with grp := g, stall := st }).noneRunsOn c { x with grp := g, stall := st } = true := by
  simp only [State.noneRunsOn, State.runsOn, State.orderFlying, State.clashesBefore, State.placed_setCtx] at h ⊢
  exact h

/-- Settles O24: a raised trap is entered where `noneRunsOn` and `earlierDone` allow it, and the overdue pop raises its own. -/
theorem trapSteps : Obligations.TrapSteps := by
  intro s c x hrunning hnone hpriv htvec
  obtain ⟨hx, hpow, hrun⟩ := State.running_some hrunning
  refine ⟨?_, ?_, ?_⟩
  · intro p hp hdone
    obtain ⟨y, hy, hent⟩ := enterTrap_enters (p := p) (q := p) rfl hx hpriv htvec
    refine ⟨y, ?_, hent⟩
    show execTrapEntry c s = _
    simp [execTrapEntry, hrunning, hp, State.mayEnter, hnone, hdone, hy]
  · intro p hp hdone
    show execTrapEntry c s = _
    simp [execTrapEntry, hrunning, hp, State.mayEnter, hnone, hdone]
  · intro port idx since hst hgrp haw hpend hend hq hlate
    have hends : endStall s c x = s := by unfold endStall; rw [hst]
    obtain ⟨y, hy, hent⟩ := captureTrap_enters (s := s) (c := c) (engineOf x.grp.raw) 7 (BitVec.ofNat 64 (s.cycle - since)) hpend
      (by rw [hends]; exact noneRunsOn_latch _ _ hnone) hrun hpriv htvec
    rw [hends] at hy
    refine ⟨y, ?_, hent⟩
    rw [← hy]
    have hshut : s.captureShut c x = false := by simp [State.captureShut, hpend, hend, hrun, hpow]
    show execChannelPopTimeout c s = _
    unfold execChannelPopTimeout
    simp only [hrunning, hst]
    rw [if_pos]
    simp only [haw, decide_eq_true hgrp, decide_eq_true hq, decide_eq_true hlate, hshut]
    rfl

end Sys2Proof.Machine
end

section
/-! SUPPORT. The step (R31, R32): what capture of a group fetched without PFX words does, and what an event, time and an idle machine
do. Settles O57 and O58. -/

namespace Sys2Proof.Machine

/-! ## Fetch of a group's word -/

/-- The word that fetch finds at an address: the cluster's cached copy, or else memory as the core's fetch sees it. -/
def State.wordAt (s s1 : State) (c t va pa : Nat) : Word :=
  (Map.at? (Map.get [] s1.icache (clusOf c)) (icKey t va)).getD (BitVec.ofNat 32 (State.readN { s1 with mem := s.codeOf c } pa 4))

/-- A fetch that translates answers that word, and changes the cluster's instruction cache alone. -/
theorem fetchWord_of_pa {s s1 : State} {c t va pa : Nat} (h : fetchPa s c t va = .ok (pa, s1)) :
    ∃ ic, fetchWord s c t va = .ok (s.wordAt s1 c t va pa, { s1 with icache := ic }) := by
  unfold fetchWord State.wordAt
  simp only [h]
  cases hw : Map.at? (Map.get [] s1.icache (clusOf c)) (icKey t va) with
  | none => exact ⟨_, rfl⟩
  | some w => exact ⟨s1.icache, rfl⟩

/-- A group that begins with no PFX word is its first word. -/
theorem nextGroup_plain {s s1 : State} {c : Nat} {x : Ctx} {w : Word} (h : fetchWord s c x.tenant x.pc = .ok (w, s1)) (hp : isPfx w = false) :
    nextGroup s c x = checkGroup s1 x x.pc x.pc {} [] w := by
  simp [nextGroup, gather, h, hp]

/-- A group of one word, which decodes, is that word: no PFX word of it can be misused, and no loop body ends within it. -/
theorem checkGroup_single {s : State} {x : Ctx} {w : Word} {i : Instr} (h : decode w = .ok i) :
    checkGroup s x x.pc x.pc {} [] w = .group { addr := x.pc, waddr := x.pc, raw := w } i s := by
  have hloop : x.loops.find? (fun l => decide (x.pc ≤ l.last) && decide (l.last < x.pc)) = none := by
    rw [List.find?_eq_none]
    intro l _
    simp only [Bool.and_eq_true, decide_eq_true_eq]
    omega
  simp only [checkGroup, h, List.find?_nil, hloop]

/-- A word that decodes is no PFX word (R30). -/
theorem isPfx_of_decode {w : Word} {i : Instr} (h : decode w = .ok i) : isPfx w = false := by
  obtain ⟨r, hm, hw, -⟩ := row_of_decode h
  exact decide_eq_false (engine_ne_pfx hm hw)

/-! ## Capture as a step -/

theorem step_capture {s : State} {rest : List Action} {c : Nat} {e : Bool} {x : Ctx} (ha : s.agenda = .capture c e :: rest)
    (hx : s.ctx c = some x) (hshut : s.captureShut c x = false) :
    step s = match nextGroup { s with agenda := rest } c x with
      | .group g i s1 => exec i (s1.latch c e g)
      | .trap cause tval en => .next (captureEarly { s with agenda := rest } c { x with grp := { addr := x.pc } } en cause tval) := by
  have hx' : State.ctx { s with agenda := rest } c = some x := hx
  have hshut' : State.captureShut { s with agenda := rest } c x = false := hshut
  unfold step oneMove
  simp only [ha, captureStep, hx', hshut', Bool.false_eq_true, if_false] <;> rfl

theorem captureShut_false {s : State} {c : Nat} {x : Ctx} (h : s.captureShut c x = false) :
    x.pend = none ∧ x.ending = false ∧ (s.core c).quiesce = none ∧ s.powered = true := by
  simpa [State.captureShut, and_assoc] using h

/-- An early trap of capture is taken where capture is open and its last word is in its queue (R32). -/
theorem captureEarly_open {s : State} {c : Nat} {x : Ctx} (e : Engine) (cause : Nat) (tval : Dword) (hshut : s.captureShut c x = false)
    (hsteer : x.steering = false) : captureEarly s c x e cause tval = captureTrap s c x e cause tval := by
  simp [captureEarly, hshut, hsteer]

/-! ## Events -/

/-- Nothing is noted where no core has a suspended context. -/
theorem noteImages_of_none {s : State} (h : ∀ c, (s.core c).sus = none) (t : State) : s.noteImages t = t := by
  unfold State.noteImages
  generalize t.cores = l
  suffices ∀ u : State, l.foldl _ u = u from this t
  induction l with
  | nil => exact fun _ => rfl
  | cons p l ih => intro u; rw [List.foldl_cons]; simp only [h p.1] at ih ⊢; exact ih u

theorem noted_of_none {s : State} (h : ∀ c, (s.core c).sus = none) (r : Res) : noted s r = r := by
  cases r with
  | next t => exact congrArg Host.Outcome.next (noteImages_of_none h t)
  | _ => rfl

/-- Where no move changes anything, none is made. -/
theorem firstMove_none {s : State} {fs : List (State → Res)} (h : ∀ f ∈ fs, f s = .next s) : firstMove s fs = none := by
  induction fs with
  | nil => rfl
  | cons f fs ih =>
    simp only [firstMove, h f List.mem_cons_self, if_true]
    exact ih (fun g hg => h g (List.mem_cons_of_mem _ hg))

/-- Settles O57: the step is its chosen move, and capture fetches, gathers and checks its group before it executes it. -/
theorem stepRuns : Obligations.StepRuns := by
  intro s rest
  refine ⟨?_, ?_, ?_, ?_, ?_⟩
  · intro c e x g i s1 ha hx hshut hg
    rw [step_capture ha hx hshut, hg]
  · intro c e x pa s1 w i ha hx hshut hpa hw hdec
    obtain ⟨ic, hf⟩ := fetchWord_of_pa hpa
    rw [show State.wordAt { s with agenda := rest } s1 c x.tenant x.pc pa = w from hw.symm] at hf
    refine ⟨ic, ?_⟩
    rw [step_capture ha hx hshut, nextGroup_plain hf (isPfx_of_decode hdec), checkGroup_single hdec]
  · intro i ha henc
    have hstep : step s = noted { s with agenda := rest } (exec i { s with agenda := rest }) := by
      unfold step oneMove
      rw [ha]
      simp only [isWord, henc, Option.isSome_none, Bool.false_eq_true, if_false]
      rfl
    exact ⟨hstep, fun hsus => hstep.trans (noted_of_none hsus _)⟩
  · intro n ha
    unfold step oneMove
    rw [ha]
  · intro ha hpow hmoves hturn
    constructor
    · unfold step oneMove ownMove
      simp only [ha, firstMove_none hmoves, hturn, List.map_nil, firstMove]
    · simp [State.elapse, hpow]

/-- Settles O58: the group is its word, which decodes to nothing, and the trap of capture is entered since nothing more can start. -/
theorem illegalWords : Obligations.IllegalWords := by
  intro s u rest c e x y pa s1 w r ha hx hshut hsteer hpriv htvec hpa hw hp hdec hy hu hnone
  obtain ⟨hpend, -, hrun, -⟩ := captureShut_false hshut
  obtain ⟨ic, hf⟩ := fetchWord_of_pa hpa
  rw [show State.wordAt { s with agenda := rest } s1 c x.tenant x.pc pa = w from hw.symm] at hf
  subst hy hu
  obtain ⟨z, hz, hent⟩ := captureTrap_enters (s := { s with agenda := rest }) (c := c) (x := { x with grp := { addr := x.pc } }) (engineOf w) 1
    (w.setWidth 64) hpend hnone hrun hpriv htvec
  refine ⟨z, ?_, hent⟩
  rw [step_capture ha hx hshut, nextGroup_plain hf hp]
  simp only [checkGroup, hdec, illegal]
  rw [captureEarly_open (s := { s with agenda := rest }) (x := { x with grp := { addr := x.pc } }) _ _ _ hshut hsteer, State.setCtx_setCtx]
  exact congrArg Host.Outcome.next hz

end Sys2Proof.Machine
end

section
/-! SUPPORT. The steps of a core's engines (R33, R35, R221, R232): what a word that starts, goes on or is tried again is run with, and
the tokens a finished word pushes. Settles O21 and O22. -/

namespace Sys2Proof.Machine

/-! ## Tokens -/

theorem mem_maskList {m : BitVec 6} {g : Nat} (hg : g < 6) : g ∈ maskList m ↔ m.getLsbD g = true := by
  simp [maskList, hg]

theorem nodup_maskList (m : BitVec 6) : (maskList m).Nodup := List.nodup_range.filter _

/-- Tokens added from one engine to a list of engines, each named once. -/
theorem get_foldl_addTok (f e : Nat) {g : Nat} (hg : g < 6) (l : List Nat) : ∀ (m : Map Nat), l.Nodup → (∀ i ∈ l, i < 6) →
    Map.get 0 (l.foldl (fun m i => addTok m e i) m) (6 * f + g) = Map.get 0 m (6 * f + g) + if f = e ∧ g ∈ l then 1 else 0 := by
  induction l with
  | nil => simp
  | cons i l ih =>
    intro m hnd hlt
    obtain ⟨hi, hnd⟩ := List.nodup_cons.1 hnd
    obtain ⟨hi6, hlt⟩ := List.forall_mem_cons.1 hlt
    rw [List.foldl_cons, ih _ hnd hlt, addTok, Map.get_put]
    by_cases heq : 6 * e + i = 6 * f + g
    · obtain ⟨rfl, rfl⟩ : f = e ∧ g = i := by omega
      simp [hi]
    · have hne : ¬ (f = e ∧ g = i) := by omega
      have hmem : (f = e ∧ g ∈ i :: l) ↔ (f = e ∧ g ∈ l) := by rw [List.mem_cons]; tauto
      simp only [if_neg heq, hmem]

/-- A word pushes one token to each engine it signals. -/
theorem Ctx.tokens_pushTokens (x : Ctx) (w : QWord) (f : Nat) {g : Nat} (hg : g < 6) :
    (x.pushTokens w).tokens f g = x.tokens f g + if f = w.eng.num ∧ w.pfx.signal.getLsbD g = true then 1 else 0 := by
  unfold Ctx.tokens Ctx.pushTokens
  rw [get_foldl_addTok f w.eng.num hg _ _ (nodup_maskList _) (fun i hi => List.mem_range.1 (List.mem_filter.1 hi).1)]
  simp only [mem_maskList hg]

/-- Settles O22: the word found goes, and its tokens are pushed. -/
theorem tokenSignal : Obligations.TokenSignal := by
  intro s c e x w hx hw
  refine ⟨{ x.pushTokens w with fly := x.fly.filter (fun v => v.seq ≠ w.seq) }, ?_, rfl, rfl, fun f _ g hg => x.tokens_pushTokens w f hg⟩
  show execTokenSignal c e s = _
  simp only [execTokenSignal, hx, hw]

/-! ## Words that start, go on and are tried again -/

theorem State.midWord_eq {s : State} {c : Nat} {e : Engine} {x : Ctx} (hx : s.ctx c = some x) (hp : s.powered = true) :
    s.midWord c e = x.fly.find? (fun v => v.mid.isSome && v.eng == e) := by
  simp [State.midWord, hx, hp]

/-- A word between two row accesses makes its next one on the state that no longer lists it. -/
theorem resumeWord_mid {run : RunFn} {s : State} {c : Nat} {w : QWord} {x : Ctx} {r : Rows} (hx : s.ctx c = some x) (hr : w.mid = some r)
    (hgo : w.lst = none ∨ s.limited c x.tenant w.eng = false) :
    resumeWord run s c w = rowStep run (s.setCtx c { x with tok := returnTokens x.tok w })
      (touchUnits (s.setCtx c { x with fly := x.fly.filter (fun v => v.seq ≠ w.seq) }) c x.me w.units) c w r := by
  have hstand : (w.lst.isSome && s.limited c x.tenant w.eng) = false := by
    rcases hgo with h | h <;> simp [h]
  unfold resumeWord
  simp only [hx, hstand, hr]
  rfl

/-- A waiting word is run on the state that no longer lists it, and goes back to its tokens should it trap. -/
theorem resumeWord_waiting {run : RunFn} {s : State} {c : Nat} {w : QWord} {x : Ctx} (hx : s.ctx c = some x) (hr : w.mid = none) (hl : w.lst = none) :
    resumeWord run s c w = afterRun (s.setCtx c { x with tok := returnTokens x.tok w }) c w
      (run (s.setCtx c { x with fly := x.fly.filter (fun v => v.seq ≠ w.seq) }) c w) := by
  unfold resumeWord
  simp only [hx, hl, hr]
  rfl

theorem resumeWord_limited {run : RunFn} {s : State} {c : Nat} {w : QWord} {x : Ctx} (hx : s.ctx c = some x) (hl : w.lst.isSome = true)
    (hlim : s.limited c x.tenant w.eng = true) : resumeWord run s c w = s := by
  unfold resumeWord
  simp [hx, hl, hlim]

/-- A word that starts with nothing chosen, or of an engine that makes one access, runs at once. -/
theorem startWord_at_once {run : RunFn} {s : State} {c : Nat} {x : Ctx} {v : QWord} (hx : s.ctx c = some x)
    (h : s.picks = [] ∨ (s.placed c x.tenant v).rowwise = false) :
    startWord run s c v = afterRun s c (s.placed c x.tenant v) (run (touchUnits (s.setCtx c ((x.dequeue (s.placed c x.tenant v).seq).popTokens
      (s.placed c x.tenant v))) c x.me (s.placed c x.tenant v).units) c (s.placed c x.tenant v)) := by
  have hat : (s.picks.isEmpty || !(s.placed c x.tenant v).rowwise) = true := by
    rcases h with h | h <;> simp [h]
  unfold startWord
  simp only [hx, hat, if_true]

/-- A word whose row accesses are chosen makes the first of them. -/
theorem startWord_by_rows {run : RunFn} {s : State} {c : Nat} {x : Ctx} {v : QWord} (hx : s.ctx c = some x) (hp : s.picks ≠ [])
    (hr : (s.placed c x.tenant v).rowwise = true) :
    startWord run s c v = rowStep run s (touchUnits (s.setCtx c ((x.dequeue (s.placed c x.tenant v).seq).popTokens (s.placed c x.tenant v))) c x.me
      (s.placed c x.tenant v).units) c { s.placed c x.tenant v with book := some x.codebook } { todo := (s.placed c x.tenant v).rowKeys } := by
  have hat : (s.picks.isEmpty || !(s.placed c x.tenant v).rowwise) = false := by simp [hp, hr]
  unfold startWord
  simp only [hx, hat]
  rfl

theorem State.retry_found {s : State} {c : Nat} {x : Ctx} {w : QWord} {p : QWord → Bool} (hr : s.running c = some x)
    (hw : x.fly.find? (fun v => v.waiting && p v) = some w) : s.retry c p = resumeWord (runWord w.instr) s c w := by
  unfold State.retry
  simp only [hr, hw]

/-- A drain whose operations have all performed takes the statuses (R221). -/
theorem runHdrain_covered {s : State} {c : Nat} {x : Ctx} {w : QWord} (hx : s.ctx c = some x) (hall : w.covers.all (fun p => s.preOk x p) = true) :
    runHdrain s c w = match worstStatus x (w.covers.map (fun p => p.seqr)).dedup with
      | some st => .trap st.2.1 st.2.2 (s.setCtx c (clearStatus x (w.covers.map (fun p => p.seqr)).dedup))
      | none => .done (s.setCtx c (clearStatus x (w.covers.map (fun p => p.seqr)).dedup)) := by
  unfold runHdrain
  simp only [hx, hall, if_true] <;> rfl

/-- A `flag.wait` whose flag word holds what it waits for finishes (R232). -/
theorem runFlagWait_holds {s : State} {c : Nat} {w : QWord} (h : flagHolds ((s.core c).flag ((op0 w).toNat % 128)) (op1 w) = true) :
    runFlagWait s c w = .done s := by
  simp only [runFlagWait, h, Bool.or_true, if_true]

/-- Settles O21: each step finds its word, and the word runs as `resumeWord` and `startWord` say. -/
theorem wordStart : Obligations.WordStart := by
  refine ⟨?_, ?_, ?_⟩
  · intro s c e x w hrun hmid
    obtain ⟨hx, -, -⟩ := State.running_some hrun
    constructor
    · intro hw
      show execWordStart c e s = _
      simp only [execWordStart, hmid, hrun, hw]
    · intro hnone hhead hcan v u hv hu
      have hexec : exec (.wordStart c e) s = .next (startWord (runWord w.instr) s c w) := by
        show execWordStart c e s = _
        simp only [execWordStart, hmid, hrun, hnone, hhead, hcan, if_true]
      subst hv hu
      rw [hexec]
      exact ⟨fun h => congrArg _ (startWord_at_once hx h), fun hp hr => congrArg _ (startWord_by_rows hx hp hr)⟩
  · intro s c e x w r hx hp hw hr
    have hexec : exec (.wordStart c e) s = .next (resumeWord (runWord w.instr) s c w) := by
      show execWordStart c e s = _
      simp only [execWordStart, State.midWord_eq hx hp, hw]
    rw [hexec]
    exact ⟨fun hl hlim => congrArg _ (resumeWord_limited hx hl hlim), fun h => congrArg _ (resumeWord_mid hx hr h)⟩
  · intro s c x w hrun hmid hlst
    obtain ⟨hx, -, -⟩ := State.running_some hrun
    constructor
    · intro a k hi hw hall
      refine ⟨_, rfl, ?_⟩
      have hexec : exec (.hdrainComplete c) s = .next (s.retry c QWord.drains) := rfl
      have hcov := runHdrain_covered (s := s.setCtx c { x with fly := x.fly.filter (fun v => v.seq ≠ w.seq) }) (w := w)
        (State.ctx_setCtx_self _ _ _) hall
      rw [State.setCtx_setCtx] at hcov
      rw [hexec, State.retry_found hrun hw, resumeWord_waiting hx hmid hlst, hi]
      exact congrArg (fun r => Host.Outcome.next (afterRun _ c w r)) hcov
    · intro a b hi hw hflag
      have hexec : exec (.flagWaitRetest c) s = .next (s.retry c QWord.awaitsFlag) := rfl
      rw [hexec, State.retry_found hrun hw, resumeWord_waiting hx hmid hlst, hi]
      refine congrArg (fun r => Host.Outcome.next (afterRun _ c w r)) (runFlagWait_holds ?_)
      rw [State.core_setCtx_self]
      exact hflag

end Sys2Proof.Machine
end

section
/-! SUPPORT. Scalar memory access (R100-R103): what each of its words runs to, and the trap of a load of a marked row. Settles O9. -/

namespace Sys2Proof.Machine

/-! ## The captured word -/

/-- Of a captured word, its order and its reservations alone. -/
theorem Ctx.enrol_word_eq (x : Ctx) (sp : CapSpec) (k : Nat) (w : QWord) : ∃ sq on pr tx rs q,
    (x.enrol sp k w).2 = { w with seqr := sq, opn := on, pre := pr, tix := tx, rscope := rs, q6 := q } := by
  unfold Ctx.enrol
  split
  · exact ⟨_, _, _, _, _, _, rfl⟩
  · exact ⟨_, _, _, _, _, _, rfl⟩

/-- What the checks of a scalar memory word leave of the word as captured: they only place it. -/
structure Located (x : Ctx) (sp : CapSpec) (v : QWord) : Prop where
  dst : v.dst = sp.dst
  eng : v.eng = sp.eng
  seq : v.seq = x.nextSeq
  addr : v.addr = x.grp.addr
  waiting : v.waiting = false

theorem Located.of_word {x : Ctx} {i : Instr} {sp : CapSpec} {vals : List Dword} {w : QWord} {k : Nat}
    (hw : ∃ pa foot units, w = { mkWord x i sp vals with pa := pa, foot := foot, units := units }) :
    Located x sp (x.enrol sp k w).2 := by
  obtain ⟨sq, on, pr, tx, rs, q, he⟩ := Ctx.enrol_word_eq x sp k w
  obtain ⟨pa, foot, units, rfl⟩ := hw
  rw [he]
  exact ⟨rfl, rfl, rfl, rfl, rfl⟩

/-- A word that a scratchpad address admits is located. -/
theorem located_spad {s : State} {x : Ctx} {i : Instr} {sp : CapSpec} {vals : List Dword} {w v : QWord} {k n : Nat} {disp : BitVec n} {store : Bool}
    (hchk : chkSpadWord disp store s s.cur x (mkWord x i sp vals) = .ok w) (hv : v = (x.enrol sp k w).2) : Located x sp v := by
  unfold chkSpadWord at hchk
  simp only at hchk
  generalize smAddr _ _ = a at hchk
  by_cases ha : Config.spadBytes ≤ a
  · rw [if_pos ha] at hchk; cases hchk
  · rw [if_neg ha] at hchk; cases hchk; subst hv; exact Located.of_word ⟨_, _, _, rfl⟩

theorem located_glob {s : State} {x : Ctx} {i : Instr} {sp : CapSpec} {vals : List Dword} {w v : QWord} {k n : Nat} {disp : BitVec n} {store : Bool}
    (hchk : chkGlobWord disp store s s.cur x (mkWord x i sp vals) = .ok w) (hv : v = (x.enrol sp k w).2) :
    Located x sp v ∧ w.units = [] := by
  unfold chkGlobWord at hchk
  cases hchk
  subst hv
  exact ⟨Located.of_word ⟨_, _, _, rfl⟩, rfl⟩

/-! ## The four words -/

@[simp] theorem noteFlush_zero (s : State) (c : Nat) : noteFlush s c 0 = s := by simp [noteFlush]

/-- Only a push into a full mailbox waits (R293). -/
theorem mailbox_open {s : State} {x : Ctx} {w : QWord} (h : w.dst = some 55 → oboxRoom s x = true) :
    (decide (w.dst = some 55) && !oboxRoom s x) = false := by
  by_cases hd : w.dst = some 55
  · simp [h hd]
  · simp [hd]

/-- An S word with a result finishes, but for a push into a full mailbox. -/
theorem finishFlushed_done {s : State} {c : Nat} {w : QWord} {x : Ctx} (n : Nat) (v : Dword) (hx : s.ctx c = some x)
    (hroom : w.dst = some 55 → oboxRoom s x = true) : finishFlushed s c w n v = .done (writeDst (noteFlush s c n) c w v) := by
  unfold finishFlushed
  simp only [hx, mailbox_open hroom, Bool.false_eq_true, if_false]

/-- A load of a row without a mark finishes with its word (R101). -/
theorem runLds_sound {s : State} {c : Nat} {w : QWord} {x : Ctx} (hx : s.ctx c = some x) (hsound : w.pa / 128 ∉ (s.core c).spadPoison)
    (hroom : w.dst = some 55 → oboxRoom s x = true) : runLds s c w = .done (writeDst s c w ((s.core c).spadWord w.pa)) := by
  unfold runLds
  rw [if_neg hsound, finishWith, finishFlushed_done 0 _ hx hroom, noteFlush_zero]

/-- A global access that translates goes to the byte's home (R102, R205). -/
theorem globalRun_goes {store : Bool} {kind : Nat → Nat → QWord → PKind} {s : State} {c pa : Nat} {w : QWord} {x : Ctx} (hx : s.ctx c = some x)
    (ht : stlbTranslate s c x.tenant w.pa store = .ok pa) :
    globalRun store kind s c w = .going (sendCmd (stlbFill s c x.tenant w.pa) c x w 0 (kind pa w.pa w) (.slice (homeSlice pa))) := by
  unfold globalRun
  simp only [hx, ht]

/-- The strand that a word of no act has entered keeps its tenant. -/
theorem entered_me {s u : State} {x y : Ctx} {sp : CapSpec} {w v : QWord} {pops us : List Nat} (h : Idle s x)
    (hu : u = touchUnits (passing sp noAct (s.entered x sp w pops) s.cur v) s.cur x.me us) (hy : u.ctx s.cur = some y) :
    y.me = x.me := by
  obtain ⟨y1, hy1, -, -, hme, -, -⟩ := commit_enters h.resident sp w pops noAct h.queues h.started
  obtain ⟨z, ⟨_, _, hl⟩, hz, -⟩ := reserved_ctx (sp := sp) (v := v) h.resident hy1
  rw [hu, touchUnits_ctx, passing_eq] at hy
  cases hy.symm.trans hz
  rw [hl]
  exact hme

/-- A global access, which touches no unit, has its named accesses as the tables stand where it starts (R102). -/
theorem placed_global {s u : State} {x y : Ctx} {sp : CapSpec} {w v f : QWord} {pops : List Nat} (h : Idle s x)
    (hu : u = touchUnits (passing sp noAct (s.entered x sp w pops) s.cur v) s.cur x.me w.units) (hy : u.ctx s.cur = some y) (hunits : w.units = [])
    (hf : f = (passing sp noAct (s.entered x sp w pops) s.cur v).placed s.cur x.tenant v) :
    f = u.placed s.cur y.tenant v ∧ f.pa = v.pa ∧ f.ops = v.ops := by
  have htenant : y.tenant = x.tenant := congrArg Owner.tenant (entered_me h hu hy)
  rw [hunits] at hu
  obtain ⟨ft, hft⟩ := State.placed_eq (passing sp noAct (s.entered x sp w pops) s.cur v) s.cur x.tenant v
  refine ⟨by rw [hf, hu, htenant]; rfl, ?_, ?_⟩
  · rw [hf, hft]
  · rw [hf, hft]

/-- The first clause of O9: each row's word runs to what the row gives. -/
theorem memoryWords_complete : WordsComplete memoryWords := by
  intro s u x y i r vals pops w v hr h hp hv hu hy hok
  cases i
  case lds d b disp =>
    cases hr
    obtain ⟨hsound, hroom⟩ := hok
    have hloc := located_spad (s := s) hp.check hv
    refine word_mem h hp hv hu (acts_none h) rfl rfl (runLds_sound hy hsound fun h55 => hroom ?_) rfl
    rw [hloc.dst] at h55
    exact Option.some.inj h55
  case sts a b disp =>
    cases hr
    refine word_mem (run := runSts) h hp hv hu (acts_none h) rfl rfl (t := if Config.flagBase ≤ v.pa then _ else _) ?_ rfl
    unfold runSts
    split
    · rfl
    · rfl
  case ldg d b disp =>
    cases hr
    obtain ⟨pa, ht⟩ := hok
    obtain ⟨-, hunits⟩ := located_glob (s := s) hp.check hv
    refine word_done (run := runLdg) h hp hv hu (acts_none h) (fun s0 f _ hf => ?_)
    obtain ⟨hf, hpa, -⟩ := placed_global h hu hy hunits hf
    have hrun : runLdg u s.cur f = .going ((sendCmd (stlbFill u s.cur y.tenant v.pa) s.cur y f 0 (.load pa v.pa) (.slice (homeSlice pa))).modCtx s.cur
        (fun z => z.loading f)) := by
      unfold runLdg
      rw [globalRun_goes hy (hpa.symm ▸ ht), hpa]
    rw [hrun]
    simp only [ht, ← hf]
    rfl
  case stg a b disp =>
    cases hr
    obtain ⟨pa, ht⟩ := hok
    obtain ⟨-, hunits⟩ := located_glob (s := s) hp.check hv
    refine word_done (run := runStg) h hp hv hu (acts_none h) (fun s0 f _ hf => ?_)
    obtain ⟨hf, hpa, hops⟩ := placed_global h hu hy hunits hf
    have hrun : runStg u s.cur f = .going (sendCmd (stlbFill u s.cur y.tenant v.pa) s.cur y f 0 (.store pa v.pa (op0 v)) (.slice (homeSlice pa))) := by
      unfold runStg
      rw [globalRun_goes hy (hpa.symm ▸ ht), hpa, show op0 f = op0 v from congrArg (fun l => l.getD 0 0) hops]
    rw [hrun]
    simp only [ht, ← hf]
    rfl
  all_goals cases hr

/-! ## The strand that a word has entered -/

/-- A context of the same strand, its mode and trap unchanged. -/
structure SameStrand (x y : Ctx) : Prop where
  uid : y.uid = x.uid
  tenant : y.tenant = x.tenant
  chdecl : y.chdecl = x.chdecl
  pend : y.pend = x.pend
  pstat : y.pstat = x.pstat

/-- Entry of a word changes neither its strand's identity nor its pushes, and ends the stall. -/
theorem entered_strand {s : State} {x : Ctx} (hx : s.ctx s.cur = some x) (sp : CapSpec) (w : QWord) (pops : List Nat) :
    ∃ y, (s.entered x sp w pops).ctx s.cur = some y ∧ SameStrand x y ∧ y.stall = .none ∧ y.chout = x.chout := by
  obtain ⟨y0, hy0, q6, ch, rfl⟩ := popPorts_ctx s.cur pops (endStall s s.cur x) x (by rw [endStall_ctx]; exact hx)
  refine ⟨_, (congrArg (fun t => State.ctx t s.cur) (State.modCtx_of (s.popped x pops) hy0 _)).trans (State.ctx_setCtx_self _ _ _), ?_⟩
  obtain ⟨q, e, r, sq, henr⟩ := Ctx.enrol_eq { x with q6 := q6, chans := ch } sp (s.tenant x.tenant).scap w
  rw [henr]
  cases sp.jump
  · exact ⟨⟨rfl, rfl, rfl, rfl, rfl⟩, rfl, rfl⟩
  · exact ⟨⟨rfl, rfl, rfl, rfl, rfl⟩, rfl, rfl⟩

/-- The strand once its word has reserved its push slot, too. -/
theorem reserving_strand {s : State} {x : Ctx} (hx : s.ctx s.cur = some x) (sp : CapSpec) (w v : QWord) (pops : List Nat) :
    ∃ y, (reserving sp (s.entered x sp w pops) s.cur v).ctx s.cur = some y ∧ SameStrand x y ∧ y.stall = .none := by
  obtain ⟨y, hy, ⟨huid, htenant, hdecl, hpend, hpstat⟩, hstall, -⟩ := entered_strand hx sp w pops
  obtain ⟨z, ⟨_, _, rfl⟩, hz, -⟩ := reserved_ctx (v := v) hx hy
  exact ⟨_, hz, ⟨huid, htenant, hdecl, hpend, hpstat⟩, hstall⟩

/-! ## Where a word starts from -/

/-- The state in which a captured word of an idle strand stands in its queue, what it does as it passes capture done. -/
def queuedIn (sp : CapSpec) (act : State → Nat → QWord → State) (s : State) (x : Ctx) (w : QWord) (pops : List Nat) (v : QWord) (z : Ctx) : State :=
  (passing sp act (s.entered x sp w pops) s.cur v).setCtx s.cur { z with qs := [v] }

/-- A word that passes capture is tried in the state in which it stands in its queue. -/
theorem issue_tries {i : Instr} {sp : CapSpec} {chk : State → Nat → Ctx → QWord → Chk} {act : State → Nat → QWord → State} (run : RunFn) {s : State}
    {x y z : Ctx} {vals : List Dword} {pops : List Nat} {w v : QWord} (h : Idle s x) (hp : Passes s x i sp chk vals pops w)
    (hv : v = (x.enrol sp (s.tenant x.tenant).scap w).2) (hy : (reserving sp (s.entered x sp w pops) s.cur v).ctx s.cur = some y)
    (hA : Acts act (reserving sp (s.entered x sp w pops) s.cur v) s.cur v y z) :
    issue i sp chk act run s = .next (tryStart run (queuedIn sp act s x w pops v z) s.cur v.seq) := by
  obtain ⟨y1, hy1, -, -, -, hword, hstate⟩ := commit_enters h.resident sp w pops act h.queues h.started
  obtain ⟨y2, -, hy2, -, -, hset⟩ := reserved_ctx (v := v) h.resident hy1
  cases hy.symm.trans hy2
  have hacted : passing sp act ((s.entered x sp w pops).setCtx s.cur { y1 with qs := [v] }) s.cur v = queuedIn sp act s x w pops v z := by
    rw [passing_eq, hset, hA.sets]; rfl
  rw [issue_idle h hp.priv hp.dest hp.read hp.handle hp.check hp.room hp.credit, hstate, hword, ← hv, hacted]

theorem afterRun_done_picks {s0 s : State} {c : Nat} {w : QWord} (hs : w.pfx.signal = 0) : (afterRun s0 c w (.done s)).picks = s.picks := by
  cases hq : w.seqr with
  | none => rw [afterRun_done hs hq]
  | some i => rw [afterRun_performed hs hq]; exact State.modCtx_picks _ _ _

/-- A run that leaves a mark on its state. -/
def markRun : RunFn := fun s _ _ => .done { s with picks := [0] }

/-- A word that passes capture can start at once: were it left in its queue, no run of it could leave a mark. -/
theorem canStart_of_passes {i : Instr} {sp : CapSpec} {chk : State → Nat → Ctx → QWord → Chk} {act : State → Nat → QWord → State} {s : State}
    {x y z : Ctx} {vals : List Dword} {pops : List Nat} {w v : QWord} (h : Idle s x) (hp : Passes s x i sp chk vals pops w)
    (hv : v = (x.enrol sp (s.tenant x.tenant).scap w).2) (hy : (reserving sp (s.entered x sp w pops) s.cur v).ctx s.cur = some y)
    (hA : Acts act (reserving sp (s.entered x sp w pops) s.cur v) s.cur v y z) :
    (queuedIn sp act s x w pops v z).canStart s.cur { z with qs := [v] } v = true ∧ (queuedIn sp act s x w pops v z).picks = [] := by
  have hpicks : (queuedIn sp act s x w pops v z).picks = [] := by
    obtain ⟨y1, hy1, -⟩ := commit_enters h.resident sp w pops act h.queues h.started
    obtain ⟨-, -, -, hres, -, -⟩ := reserved_ctx (v := v) h.resident hy1
    have hent : (s.entered x sp w pops).picks = (s.popped x pops).picks := State.modCtx_picks _ _ _
    exact hA.opens.2.trans (hres.opens.2.trans (hent.trans ((popped_open s x pops).2.trans h.picks)))
  refine ⟨?_, hpicks⟩
  by_contra hno
  have hstay : tryStart markRun (queuedIn sp act s x w pops v z) s.cur v.seq = queuedIn sp act s x w pops v z := by
    unfold tryStart
    simp only [show (queuedIn sp act s x w pops v z).ctx s.cur = some { z with qs := [v] } from State.ctx_setCtx_self _ _ _, List.find?_cons,
      decide_true, hno, if_false]
  obtain ⟨s0, hmark⟩ := issue_passes (run := markRun) h hp hv rfl hy hA
  rw [issue_tries markRun h hp hv hy hA, hstay] at hmark
  obtain ⟨ft, hft⟩ := State.placed_eq (passing sp act (s.entered x sp w pops) s.cur v) s.cur x.tenant v
  have hsig : ((passing sp act (s.entered x sp w pops) s.cur v).placed s.cur x.tenant v).pfx.signal = 0 := by
    rw [hft]; exact (Passes.word h hp hv).1
  have hmarked := congrArg State.picks (Host.Outcome.next.inj hmark)
  rw [hpicks, markRun, afterRun_done_picks hsig] at hmarked
  cases hmarked

/-- A word of an idle strand that passes its checks runs, and a trap of it goes back to the state in which it stood in its queue. -/
theorem issue_starts {i : Instr} {sp : CapSpec} {chk : State → Nat → Ctx → QWord → Chk} {act : State → Nat → QWord → State} (run : RunFn)
    {s : State} {x y z : Ctx} {vals : List Dword} {pops : List Nat} {w v : QWord} (h : Idle s x) (hp : Passes s x i sp chk vals pops w)
    (hst : i.still = true) (hv : v = (x.enrol sp (s.tenant x.tenant).scap w).2)
    (hy : (reserving sp (s.entered x sp w pops) s.cur v).ctx s.cur = some y)
    (hA : Acts act (reserving sp (s.entered x sp w pops) s.cur v) s.cur v y z) :
    issue i sp chk act run s = .next (afterRun (queuedIn sp act s x w pops v z) s.cur v
      (run (touchUnits (passing sp act (s.entered x sp w pops) s.cur v) s.cur x.me w.units) s.cur v)) := by
  obtain ⟨hcan, hpicks⟩ := canStart_of_passes h hp hv hy hA
  obtain ⟨hq0, -⟩ := reserving_empty h hy
  obtain ⟨-, hpfx, -, hunits, -, -, -, hinstr⟩ := Ctx.enrol_fields x sp (s.tenant x.tenant).scap w
  rw [← hv] at hpfx hunits hinstr
  have hme : z.me = x.me := by
    obtain ⟨y1, hy1, -, -, hme, -⟩ := commit_enters h.resident sp w pops act h.queues h.started
    obtain ⟨y2, ⟨_, _, hl⟩, hy2, -⟩ := reserved_ctx (v := v) h.resident hy1
    cases hy.symm.trans hy2
    rw [hA.me, hl]; exact hme
  have hctx : (queuedIn sp act s x w pops v z).ctx s.cur = some { z with qs := [v] } := State.ctx_setCtx_self _ _ _
  have hplaced : ∀ t : State, ∀ k, t.placed s.cur k v = v := fun t k => State.placed_still t s.cur k (by rw [hinstr, hp.same.1]; exact hst)
  have hleft : (({ z with qs := [v] } : Ctx).dequeue v.seq).popTokens v = z := by
    have hwait : v.pfx.wait = 0 := by rw [hpfx, hp.same.2.1]; exact h.wait
    have hzq : z.qs = [] := hA.qs.trans hq0
    simp only [Ctx.dequeue, Ctx.popTokens, hwait, List.filter_cons, ne_eq, not_true_eq_false, decide_false,
      Bool.false_eq_true, if_false, List.filter_nil]
    exact (congrArg (fun q => ({ z with qs := q } : Ctx)) hzq).symm
  have htry : tryStart run (queuedIn sp act s x w pops v z) s.cur v.seq = startWord run (queuedIn sp act s x w pops v z) s.cur v := by
    unfold tryStart
    simp only [hctx, List.find?_cons, decide_true, hcan, if_true]
  rw [issue_tries run h hp hv hy hA, htry, startWord_at_once hctx (.inl hpicks), hplaced, hleft, hunits,
    show Ctx.me { z with qs := [v] } = x.me from hme]
  congr 4
  exact (State.setCtx_setCtx _ _ _ _).trans hA.same

/-! ## The trap of a load of a marked row -/

/-- A core's trap vectors and its quiescence, which pops, reservations and touched units leave as they are. -/
def SameTraps (c : Nat) (s t : State) : Prop := (t.core c).tvec = (s.core c).tvec ∧ (t.core c).quiesce = (s.core c).quiesce

theorem SameTraps.refl (c : Nat) (s : State) : SameTraps c s s := ⟨rfl, rfl⟩

theorem SameTraps.trans {c : Nat} {s t u : State} (h : SameTraps c s t) (g : SameTraps c t u) : SameTraps c s u :=
  ⟨g.1.trans h.1, g.2.trans h.2⟩

theorem SameTraps.modCtx (s : State) (c : Nat) (f : Ctx → Ctx) : SameTraps c s (s.modCtx c f) := by
  unfold SameTraps; rw [State.core_modCtx_self]; exact ⟨rfl, rfl⟩

theorem SameTraps.setCtx (s : State) (c : Nat) (x : Ctx) : SameTraps c s (s.setCtx c x) := by
  unfold SameTraps; rw [State.core_setCtx_self]; exact ⟨rfl, rfl⟩

theorem SameTraps.modCore (s : State) (c : Nat) {f : Core → Core} (hf : (f (s.core c)).tvec = (s.core c).tvec ∧ (f (s.core c)).quiesce = (s.core c).quiesce) :
    SameTraps c s (s.modCore c f) := by
  unfold SameTraps; rw [State.core_modCore_self]; exact hf

theorem SameTraps.send (s : State) (c : Nat) (p : Packet) : SameTraps c s (s.send p) := by
  unfold SameTraps; rw [State.core_send]; exact ⟨rfl, rfl⟩

theorem SameTraps.endStall (s : State) (c : Nat) (x : Ctx) : SameTraps c s (endStall s c x) := by
  obtain ⟨ev, h⟩ := endStall_core_eq s c x c
  unfold SameTraps; rw [h]; exact ⟨rfl, rfl⟩

theorem SameTraps.modCtxOf (s : State) (c d uid : Nat) (f : Ctx → Ctx) : SameTraps c s (s.modCtxOf d uid f) := by
  by_cases hd : d = c
  · subst hd; exact SameTraps.modCore s d ⟨rfl, rfl⟩
  · unfold SameTraps State.modCtxOf; rw [State.core_modCore_ne _ _ hd]; exact ⟨rfl, rfl⟩

theorem SameTraps.popPorts (c : Nat) (ks : List Nat) : ∀ s : State, SameTraps c s (popPorts s c ks) := by
  induction ks with
  | nil => exact fun s => SameTraps.refl c s
  | cons k ks ih =>
    intro s
    simp only [Machine.popPorts]
    refine SameTraps.trans ?_ (ih _)
    split
    · exact SameTraps.modCtx s c _
    · split
      · split
        · exact SameTraps.modCore s c ⟨rfl, rfl⟩
        · exact SameTraps.refl c s
      · split
        · exact (SameTraps.modCtx s c _).trans (SameTraps.send _ c _)
        · exact SameTraps.modCtx s c _

theorem SameTraps.reserveChannel (s : State) (c k n : Nat) : SameTraps c s (reserveChannel s c k n) := by
  unfold Machine.reserveChannel
  split
  · exact SameTraps.refl c s
  · simp only
    split
    · exact SameTraps.setCtx s c _
    · split
      · exact SameTraps.setCtx s c _
      · exact (SameTraps.setCtx s c _).trans (SameTraps.modCtxOf _ c _ _ _)

theorem SameTraps.touchUnits (s : State) (c : Nat) (me : Owner) (us : List Nat) : SameTraps c s (touchUnits s c me us) := by
  obtain ⟨_, _, _, _, _, _, _, _, _, _, h⟩ := (Kept1.touchUnits c me us s).core
  unfold SameTraps; rw [h]; exact ⟨rfl, rfl⟩

theorem SameTraps.entered (s : State) (x : Ctx) (sp : CapSpec) (w v : QWord) (pops : List Nat) :
    SameTraps s.cur s (passing sp noAct (s.entered x sp w pops) s.cur v) := by
  have hent : SameTraps s.cur s (s.entered x sp w pops) :=
    ((SameTraps.endStall s s.cur x).trans (SameTraps.popPorts s.cur pops _)).trans (SameTraps.modCtx _ s.cur _)
  refine hent.trans ?_
  rw [passing_eq]
  unfold noAct reserving
  split
  · split
    · exact SameTraps.reserveChannel _ _ _ _
    · exact SameTraps.refl _ _
  · exact SameTraps.refl _ _

/-- The context in which a word of no act runs is the one it has entered. -/
theorem reserving_of_touched {s u : State} {x y : Ctx} {sp : CapSpec} {w v : QWord} {pops us : List Nat}
    (hu : u = touchUnits (passing sp noAct (s.entered x sp w pops) s.cur v) s.cur x.me us) (hy : u.ctx s.cur = some y) :
    (reserving sp (s.entered x sp w pops) s.cur v).ctx s.cur = some y := by
  rw [hu, touchUnits_ctx, passing_eq] at hy; exact hy

/-- Nothing runs on where the one word left is blocked. -/
theorem noneRunsOn_blocked (s : State) (c : Nat) {x : Ctx} {w : QWord} (hq : x.qs = [w]) (hb : w.blocked = true) (hf : x.fly = []) :
    s.noneRunsOn c x = true := by
  have hhead : ∀ e, (match x.head e with | none => true | some w => !s.runsOn c x w) = true := by
    intro e
    unfold Ctx.head
    rw [hq]
    by_cases he : (w.eng == e) = true
    · simp [he, State.runsOn, hb]
    · simp [he]
  simp only [State.noneRunsOn, Ctx.midRows, Ctx.signaller, hf, List.any_nil, List.find?_nil, Option.filter, Option.isNone_none, Bool.true_and,
    Bool.not_false, List.all_eq_true]
  exact fun e _ => hhead e

/-- Entry for one cause where the same words, but for their blocks, stand in the queues. -/
theorem Entered.of_unblocked {x z : Ctx} {qs : List QWord} {p q : Pend} {tvec : Nat} (h : Entered { x with qs := qs } z q tvec)
    (hq : ∃ d, q = { p with drained := d }) {ws : List QWord} (hw : ∀ w ∈ ws, ∃ v ∈ qs, { v with blocked := false } = { w with blocked := false }) :
    Entered { x with qs := ws } z p tvec := by
  obtain ⟨d, rfl⟩ := hq
  obtain ⟨h1, h2, h3, h4, h5, h6, h7, h8, h9, h10, h11, hwords, h13, h14, h15, hreg⟩ := h
  refine ⟨h1, h2, h3, h4, h5, h6, h7, h8, h9, h10, h11, ?_, h13, h14, h15, ?_⟩
  · intro w hw'
    obtain ⟨v, hv, he⟩ := hw w hw'
    rw [← he]
    exact hwords v hv
  · rw [show (Ctx.dropElem { x with qs := ws } p.elem).q6 = (Ctx.dropElem { x with qs := qs } p.elem).q6 by cases p.elem <;> rfl]
    exact hreg

/-- A word whose run traps, alone in its strand, is blocked in its queue, and the trap is entered. -/
theorem afterRun_trap_enters {s0 u : State} {c : Nat} {y x0 : Ctx} {v : QWord} (cause : Nat) (tval : Dword) (hy : u.ctx c = some y) (hq : y.qs = [])
    (hf : y.fly = []) (hs0 : s0.ctx c = some x0) (htok : x0.tok = y.tok) (hstall : y.stall = .none) (hpend : y.pend = none) (hpriv : y.priv = false)
    (hrun : (u.core c).quiesce = none) (htvec : Map.get 0 (u.core c).tvec y.tenant ≠ 0) (hwait : v.waiting = false) :
    ∃ z, afterRun s0 c v (.trap cause tval u) = u.setCtx c z ∧ Entered { y with qs := [v] } z
      { cause := cause, tval := tval, eng := v.eng, addr := v.addr, word := some v.seq } (Map.get 0 (u.core c).tvec y.tenant) := by
  have hset : u.modCtx c (fun x => { x with qs := insertSeq { v with blocked := true, waiting := false } x.qs, tok := x0.tok }) =
      u.setCtx c { y with qs := [{ v with blocked := true, waiting := false }] } := by
    rw [State.modCtx_of _ hy, hq, htok]; rfl
  have hcore : (u.setCtx c { y with qs := [{ v with blocked := true, waiting := false }] }).core c =
      { u.core c with res := some { y with qs := [{ v with blocked := true, waiting := false }] } } := State.core_setCtx_self _ _ _
  have hends : endStall (u.setCtx c { y with qs := [{ v with blocked := true, waiting := false }] }) c
      { y with qs := [{ v with blocked := true, waiting := false }] } = u.setCtx c { y with qs := [{ v with blocked := true, waiting := false }] } := by
    unfold endStall; rw [show Ctx.stall { y with qs := [{ v with blocked := true, waiting := false }] } = .none from hstall]
  obtain ⟨z, hz, hent⟩ := raise_enters (p := { cause := cause, tval := tval, eng := v.eng, addr := v.addr, word := some v.seq, drained := v.drainedIn s0 c })
    (State.ctx_setCtx_self u c { y with qs := [{ v with blocked := true, waiting := false }] }) hpend (noneRunsOn_blocked _ _ rfl rfl hf)
    (by simp [Ctx.earlierDone, hf]) (by rw [hcore]; exact hrun) hpriv (by rw [hcore]; exact htvec)
  rw [hcore] at hent
  refine ⟨z, ?_, hent.of_unblocked ⟨v.drainedIn s0 c, rfl⟩ ?_⟩
  · unfold afterRun
    simp only [hs0]
    rw [hset, hz, hends, State.setCtx_setCtx]
  · intro w hw
    obtain rfl := List.mem_singleton.1 hw
    exact ⟨_, List.mem_singleton_self _, by rw [hwait]⟩

end Sys2Proof.Machine

namespace Sys2Proof
open Machine

/-- Settles O9: the words of the table complete, and a load of a marked row traps, back to where it stood in its queue. -/
theorem memoryWords : Obligations.MemoryWords := by
  refine ⟨memoryWords_complete, ?_⟩
  intro s u x y d b i sp vals pops w v hsp h hpriv htvec hp hv hu hy hbad
  have hloc := located_spad (s := s) hp.check hv
  have hres := reserving_of_touched hu hy
  obtain ⟨z, hz, ⟨-, htenant, -, hpend, hpstat⟩, hstall⟩ := reserving_strand h.resident sp w v pops
  cases hres.symm.trans hz
  obtain ⟨hq, hf⟩ := reserving_empty h hres
  have htraps : SameTraps s.cur s u := by rw [hu]; exact (SameTraps.entered s x sp w v pops).trans (SameTraps.touchUnits _ _ _ _)
  have htvecs : Map.get 0 (u.core s.cur).tvec y.tenant = Map.get 0 (s.core s.cur).tvec x.tenant := by rw [htraps.1, htenant]
  obtain ⟨z, hz, hent⟩ := afterRun_trap_enters (s0 := queuedIn sp noAct s x w pops v y) (v := v) 9 (BitVec.ofNat 64 (v.pa / 128 * 128)) hy hq hf
    (State.ctx_setCtx_self _ _ _) rfl hstall (hpend.trans h.noTrap) ((congrArg (fun b : BitVec 8 => b.getLsbD 0) hpstat).trans hpriv)
    (htraps.2.trans h.running) (by rw [htvecs]; exact htvec) hloc.waiting
  rw [htvecs, hloc.eng, hloc.addr] at hent
  subst hsp
  refine ⟨z, ?_, hent⟩
  rw [← hz, hu]
  refine (issue_starts runLds h hp rfl hv hres (Acts.idle (reserving_same h.resident hres))).trans ?_
  rw [← hu]
  exact congrArg (fun r => Host.Outcome.next (afterRun _ s.cur v r)) (if_pos hbad)

end Sys2Proof
end

section
/-! SUPPORT. Channels as destinations (R41, R87, R234, R235): the packet that carries a result to the peer core. Settles O20. -/

namespace Sys2Proof.Machine

/-! ## A packet in the fabric -/

/-- The fabric holds a packet from one place to another. -/
def State.carries (s : State) (src dst : Leaf) (tenant : Nat) (kind : PKind) : Prop :=
  ∃ n q, Map.at? s.net n = some q ∧ q.src = src ∧ q.dst = dst ∧ q.tenant = tenant ∧ q.kind = kind

theorem State.carries_of_net {s t : State} (h : t.net = s.net) {src dst : Leaf} {tenant : Nat} {kind : PKind} (hs : s.carries src dst tenant kind) :
    t.carries src dst tenant kind := by
  unfold State.carries; rw [h]; exact hs

/-- A packet sent is in the fabric, whether it flies or its core holds it. -/
theorem State.send_carries (s : State) (p : Packet) : (s.send p).carries p.src p.dst p.tenant p.kind := by
  unfold State.send
  simp only
  split
  · split
    · split
      · exact ⟨s.nextId, _, Map.at?_ins_self _ _ _, rfl, rfl, rfl, rfl⟩
      · exact ⟨s.nextId, _, Map.at?_ins_self _ _ _, rfl, rfl, rfl, rfl⟩
    · exact ⟨s.nextId, _, Map.at?_ins_self _ _ _, rfl, rfl, rfl, rfl⟩
  · exact ⟨s.nextId, _, Map.at?_ins_self _ _ _, rfl, rfl, rfl, rfl⟩

theorem sendChannel_carries {s : State} {c p : Nat} {x : Ctx} {q : Nat} (seq : Nat) (v : Dword) (ticket : Bool) (hp : peerOf x c q = some p) :
    (sendChannel s c x q seq v ticket).carries (.core c) (.core p) x.tenant (.chan q x.uid seq v ticket) := by
  unfold sendChannel
  simp only [hp]
  exact State.send_carries s _

/-- A result for a channel goes to the peer (R87). -/
theorem writeDst_carries {s : State} {c p d : Nat} {y : Ctx} {w : QWord} (v : Dword) (hy : s.ctx c = some y) (hw : w.dst = some d) (hlo : 48 ≤ d)
    (hhi : d ≤ 53) (hp : peerOf y c (d - 48) = some p) :
    (writeDst s c w v).carries (.core c) (.core p) y.tenant (.chan (d - 48) y.uid w.seq v false) := by
  have hwrote : y.wrote w d v = { y with rq := fillRq y.rq w.seq v } := by
    unfold Ctx.wrote
    rw [if_neg (by omega), if_neg (by omega)]
  have hch : (decide (48 ≤ d) && decide (d ≤ 53)) = true := by simp [hlo, hhi]
  unfold writeDst
  simp only [hw, State.modCtx_of _ hy, State.ctx_setCtx_self, hch, if_true, hwrote]
  exact sendChannel_carries (x := { y with rq := fillRq y.rq w.seq v }) _ _ _ hp

theorem peerOf_strand {x y : Ctx} (h : SameStrand x y) (c q : Nat) : peerOf y c q = peerOf x c q := by
  unfold peerOf; rw [h.chdecl]

/-! ## Words with a result -/

/-- A word with a result for a channel takes no order and no q6 element. -/
theorem enrol_channel (x : Ctx) (i : Instr) {r : ScalarRow} (preds : List Nat) (vals : List Dword) (cap imm : Dword) (k : Nat) (hhi : r.dst ≤ 53) :
    (x.enrol (r.spec preds) k (r.word x i preds vals cap imm [])).2 = r.word x i preds vals cap imm [] := by
  rw [Ctx.enrol_result x k r.dst _ rfl rfl rfl, if_neg (by omega)]
  rfl

/-- A scalar word with a result for a channel that has a free slot passes capture. -/
theorem passes_of_result {s : State} {x : Ctx} {i : Instr} {r : ScalarRow} {vals : List Dword} {pops preds : List Nat}
    {chk : State → Nat → Ctx → QWord → Chk} {cap imm : Dword} (h : Idle s x) (hstill : i.still = true)
    (hchk : chk s s.cur x (mkWord x i (r.spec preds) vals) = .ok (r.word x i preds vals cap imm []))
    (hread : readAll s s.cur x r.srcs [] [] = .ok vals pops) (hhi : r.dst ≤ 53) (hdest : destTrap x r.dst = false)
    (hcredit : channelCredit s s.cur x (r.dst - 48) = true) : Passes s x i (r.spec preds) chk vals pops (r.word x i preds vals cap imm []) := by
  have hpushed : (r.spec preds).pushed = some r.dst := rfl
  have hneed : q6Need (r.spec preds) = 0 := by
    unfold q6Need
    rw [if_neg (by simp only [ScalarRow.spec, Option.some.injEq]; omega)]
    rfl
  refine ⟨fun h => (nomatch h), ?_, ?_, hread, fun h => (nomatch h), hchk, ?_, ?_, ?_, .inl rfl, rfl, rfl, rfl, rfl, rfl⟩
  · intro d hd; cases hpushed.symm.trans hd; exact hdest
  · unfold creditStall; rw [hpushed]; simp [hcredit]
  · rw [hneed]; have := h.elems; omega
  · rw [enrol_channel x i preds vals cap imm _ hhi]; rfl
  · intro t
    rw [enrol_channel x i preds vals cap imm _ hhi]
    unfold State.clashesBefore
    rw [State.placed_still t s.cur x.tenant hstill]
    simp [QWord.clashes, ScalarRow.word, mkWord]

/-- Such a word sends its result to the peer core. -/
theorem ResultWord.carries {s : State} {x : Ctx} {i : Instr} {r : ScalarRow} {vals : List Dword} {pops : List Nat} {k p : Nat}
    (hw : ResultWord s x i r vals k) (h : Idle s x) (hread : readAll s s.cur x r.srcs [] [] = .ok vals pops) (hlo : 48 ≤ r.dst) (hhi : r.dst ≤ 53)
    (hdest : destTrap x r.dst = false) (hcredit : channelCredit s s.cur x (r.dst - 48) = true) (hpeer : peerOf x s.cur (r.dst - 48) = some p) :
    ∃ t, exec i s = .next t ∧ t.carries (.core s.cur) (.core p) x.tenant (.chan (r.dst - 48) x.uid x.nextSeq (r.value vals) false) := by
  obtain ⟨preds, chk, n, f, cap, imm, hexec, hstill, hchk, hval⟩ := hw
  obtain ⟨hn, hf⟩ := hval []
  have hp := passes_of_result h hstill hchk hread hhi hdest hcredit
  have hv := (enrol_channel x i preds vals cap imm (s.tenant x.tenant).scap hhi).symm
  obtain ⟨y, hy, hsame, -⟩ := reserving_strand h.resident (r.spec preds) (r.word x i preds vals cap imm []) (r.word x i preds vals cap imm []) pops
  obtain ⟨s0, hi⟩ := issue_passes (run := fun s c w => finishFlushed s c w (n w) (f w)) h hp hv rfl hy (Acts.idle (reserving_same h.resident hy))
  obtain ⟨hsig, hseqr, -⟩ := Passes.word h hp hv
  rw [hexec, hi, State.placed_still _ _ _ hstill]
  generalize hu : touchUnits (passing (r.spec preds) noAct (s.entered x (r.spec preds) (r.word x i preds vals cap imm []) pops) s.cur
    (r.word x i preds vals cap imm [])) s.cur x.me (r.word x i preds vals cap imm []).units = u
  have huy : u.ctx s.cur = some y := by rw [← hu, touchUnits_ctx, passing_eq]; exact hy
  have hroom : (r.word x i preds vals cap imm []).dst = some 55 → oboxRoom u y = true := fun h55 => by
    have := Option.some.inj h55; omega
  refine ⟨_, rfl, ?_⟩
  rw [finishFlushed_done _ _ huy hroom, hn, hf, afterRun_done hsig (hseqr rfl)]
  have hny := noteFlush_ctx k huy
  generalize hz : (if k = 0 then y else y.stick stFTZHIT) = z at hny
  have hzs : SameStrand x z := by
    rw [← hz]
    split
    · exact hsame
    · exact ⟨hsame.uid, hsame.tenant, hsame.chdecl, hsame.pend, hsame.pstat⟩
  rw [← hzs.uid, ← hzs.tenant]
  exact writeDst_carries _ hny rfl hlo hhi ((peerOf_strand hzs _ _).trans hpeer)

/-! ## Loads -/

/-- The context of a strand whose word has reserved a slot of another core's buffer: the word is due in the channel. -/
theorem reserveChannel_ctx {s : State} {c p k : Nat} {x : Ctx} (n : Nat) (hx : s.ctx c = some x) (hp : peerOf x c k = some p) (hne : p ≠ c) :
    (reserveChannel s c k n).ctx c = some { x with chout := Map.ins x.chout k (Map.get [] x.chout k ++ [n]) } := by
  unfold reserveChannel
  simp only [hx, hp]
  split
  · exact State.ctx_setCtx_self _ _ _
  · unfold State.ctx State.modCtxOf
    rw [State.core_modCore_ne _ _ hne, State.core_setCtx_self]

/-- A captured word's push slot in a channel follows those reserved before it. -/
theorem reserving_chout {s : State} {x y : Ctx} {sp : CapSpec} {w v : QWord} {pops : List Nat} {d p : Nat} (h : Idle s x) (hd : sp.pushed = some d)
    (hlo : 48 ≤ d) (hhi : d ≤ 53) (hpeer : peerOf x s.cur (d - 48) = some p) (hne : p ≠ s.cur)
    (hy : (reserving sp (s.entered x sp w pops) s.cur v).ctx s.cur = some y) :
    Map.get [] y.chout (d - 48) = Map.get [] x.chout (d - 48) ++ [v.seq] := by
  obtain ⟨y1, hy1, hsame, -, hout⟩ := entered_strand h.resident sp w pops
  have hpeer1 : peerOf y1 s.cur (d - 48) = some p := (peerOf_strand hsame _ _).trans hpeer
  have hres : reserving sp (s.entered x sp w pops) s.cur v = reserveChannel (s.entered x sp w pops) s.cur (d - 48) v.seq := by
    unfold reserving
    simp [hd, hlo, hhi]
  rw [hres, reserveChannel_ctx _ hy1 hpeer1 hne] at hy
  cases hy
  rw [Map.get_ins_self, hout]

theorem stlbFill_ctx (s : State) (c t va d : Nat) : (stlbFill s c t va).ctx d = s.ctx d := by
  unfold stlbFill
  split
  · rfl
  · split
    · by_cases hd : c = d
      · subst hd; rw [State.ctx_modCore_self]; rfl
      · unfold State.ctx; rw [State.core_modCore_ne _ _ hd]
    · rfl

/-- A command of one packet sends it, and leaves the contexts. -/
theorem sendCmd_carries (s : State) (c : Nat) (x : Ctx) (w : QWord) (op5 : Nat) (kind : PKind) (dst : Leaf) :
    (sendCmd s c x w op5 kind dst).carries (.core c) dst x.tenant kind ∧ ∀ d, (sendCmd s c x w op5 kind dst).ctx d = s.ctx d :=
  ⟨State.send_carries _ _, fun d => State.ctx_send _ _ d⟩

theorem State.performed_net (u : State) (c : Nat) (v : QWord) : (u.performed c v).net = u.net := by
  unfold State.performed
  split
  · rfl
  · exact State.modCtx_net _ _ _

/-- `lds` to a channel, of a row without a mark, sends its word. -/
theorem lds_carries {s u : State} {x : Ctx} {d b : BitVec 6} {i : BitVec 11} {vals : List Dword} {pops : List Nat} {w v : QWord} {p : Nat} {sp : CapSpec}
    (hsp : sp = { eng := .s, srcs := [b.toNat], dst := some d.toNat, mem := true }) (h : Idle s x) (hlo : 48 ≤ d.toNat) (hhi : d.toNat ≤ 53)
    (hv : v = (x.enrol sp (s.tenant x.tenant).scap w).2)
    (hu : u = touchUnits (passing sp noAct (s.entered x sp w pops) s.cur v) s.cur x.me w.units) (hpeer : peerOf x s.cur (d.toNat - 48) = some p)
    (hp : Passes s x (.lds d b i) sp (chkSpadWord i false) vals pops w) (hsound : v.pa / 128 ∉ (u.core s.cur).spadPoison) :
    ∃ t, exec (.lds d b i) s = .next t ∧
      t.carries (.core s.cur) (.core p) x.tenant (.chan (d.toNat - 48) x.uid x.nextSeq ((u.core s.cur).spadWord v.pa) false) := by
  subst hsp
  obtain ⟨y, hy, hsame, -⟩ := reserving_strand h.resident _ w v pops
  have huy : u.ctx s.cur = some y := by rw [hu, touchUnits_ctx, passing_eq]; exact hy
  have hloc := located_spad (s := s) hp.check hv
  refine ⟨_, memoryWords_complete s u x y (.lds d b i) _ vals pops w v rfl h hp hv hu huy ⟨hsound, fun h55 => by omega⟩, ?_⟩
  refine State.carries_of_net (State.performed_net _ _ _) ?_
  rw [← hsame.uid, ← hsame.tenant, ← hloc.seq]
  exact writeDst_carries _ huy hloc.dst hlo hhi ((peerOf_strand hsame _ _).trans hpeer)

/-- `ldg` to a channel has its push slot from its capture, and its request goes to the byte's home. -/
theorem ldg_carries {s u : State} {x : Ctx} {d b : BitVec 6} {i : BitVec 11} {vals : List Dword} {pops : List Nat} {w v : QWord} {p pa : Nat}
    {sp : CapSpec} (hsp : sp = { eng := .s, srcs := [b.toNat], dst := some d.toNat, mem := true }) (h : Idle s x) (hlo : 48 ≤ d.toNat)
    (hhi : d.toNat ≤ 53) (hv : v = (x.enrol sp (s.tenant x.tenant).scap w).2)
    (hu : u = touchUnits (passing sp noAct (s.entered x sp w pops) s.cur v) s.cur x.me w.units) (hpeer : peerOf x s.cur (d.toNat - 48) = some p)
    (hne : p ≠ s.cur) (hp : Passes s x (.ldg d b i) sp (chkGlobWord i false) vals pops w) (ht : stlbTranslate u s.cur x.tenant v.pa false = .ok pa) :
    ∃ t y, exec (.ldg d b i) s = .next t ∧ t.ctx s.cur = some y ∧
      Map.get [] y.chout (d.toNat - 48) = Map.get [] x.chout (d.toNat - 48) ++ [x.nextSeq] ∧
      t.carries (.core s.cur) (.slice (homeSlice pa)) x.tenant (.load pa v.pa) := by
  subst hsp
  obtain ⟨y, hy, hsame, -⟩ := reserving_strand h.resident _ w v pops
  have huy : u.ctx s.cur = some y := by rw [hu, touchUnits_ctx, passing_eq]; exact hy
  obtain ⟨hloc, -⟩ := located_glob (s := s) hp.check hv
  rw [← hsame.tenant] at ht
  have hexec := memoryWords_complete s u x y (.ldg d b i) _ vals pops w v rfl h hp hv hu huy ⟨pa, ht⟩
  simp only [ht] at hexec
  generalize u.placed s.cur y.tenant v = f at hexec
  obtain ⟨hcarry, hctx⟩ := sendCmd_carries (stlbFill u s.cur y.tenant v.pa) s.cur y f 0 (.load pa v.pa) (.slice (homeSlice pa))
  have hload : (State.modCtx (sendCmd (stlbFill u s.cur y.tenant v.pa) s.cur y f 0 (.load pa v.pa) (.slice (homeSlice pa))) s.cur (fun z => z.loading f)).ctx
      s.cur = some (y.loading f) := by
    rw [State.modCtx_of _ ((hctx s.cur).trans ((stlbFill_ctx _ _ _ _ _).trans huy))]; exact State.ctx_setCtx_self _ _ _
  refine ⟨_, _, hexec, (congrArg (fun t => State.ctx t s.cur) (State.modCtx_of _ hload _)).trans (State.ctx_setCtx_self _ _ _), ?_, ?_⟩
  · have hchout : (y.loading f).chout = y.chout := by
      unfold Ctx.loading
      split
      · split <;> rfl
      · rfl
    show Map.get [] (y.loading f).chout _ = _
    rw [hchout, ← hloc.seq]
    exact reserving_chout h rfl hlo hhi hpeer hne hy
  · rw [← hsame.tenant]
    exact State.carries_of_net ((State.modCtx_net _ _ _).trans (State.modCtx_net _ _ _)) hcarry

/-! ## Tickets -/

/-- A sequencer owes the confirmation of a ticket of its handle (R222). -/
def Ctx.owes (a : Nat) (z : Ctx) : Ctx :=
  z.setSeqr (z.seqOf a) { z.seqr (z.seqOf a) with owed := (z.seqr (z.seqOf a)).owed ++ [(z.seqr (z.seqOf a)).count] }

theorem Ctx.owes_blind (a : Nat) : Blind (Ctx.owes a) :=
  ⟨fun _ => rfl, fun _ => rfl, fun _ => rfl, fun _ => rfl, fun _ _ => rfl⟩

theorem SameStrand.owes {x y : Ctx} (h : SameStrand x y) (a : Nat) : SameStrand x (y.owes a) :=
  ⟨h.uid, h.tenant, h.chdecl, h.pend, h.pstat⟩

/-- `hpass` to a channel sends its ticket to the peer core. -/
theorem hpass_carries {s : State} {x : Ctx} {a : BitVec 5} {k : BitVec 6} {r : WordSpec} {vals : List Dword} {pops : List Nat} {w : QWord} {p : Nat}
    (hr : handleWords (.hpass a k) = some r) (h : Idle s x) (hlo : 48 ≤ k.toNat) (hhi : k.toNat ≤ 53)
    (hp : Passes s x (.hpass a k) r.sp r.chk vals pops w) (hpeer : peerOf x s.cur (k.toNat - 48) = some p) :
    ∃ t, exec (.hpass a k) s = .next t ∧ t.carries (.core s.cur) (.core p) x.tenant (.chan (k.toNat - 48) x.uid x.nextSeq
      (mkTicket s.cur 0x3FF (x.seqOf a.toNat) (x.seqr (x.seqOf a.toNat)).count) true) := by
  obtain ⟨v, hv⟩ : ∃ v, v = (x.enrol r.sp (s.tenant x.tenant).scap w).2 := ⟨_, rfl⟩
  obtain ⟨u, hu⟩ : ∃ u, u = touchUnits (passing r.sp r.act (s.entered x r.sp w pops) s.cur v) s.cur x.me w.units := ⟨_, rfl⟩
  cases hr
  have hch : (decide (48 ≤ k.toNat) && decide (k.toNat ≤ 53)) = true := by simp [hlo, hhi]
  have hport : isPort k.toNat = true := by simp [isPort, hch]
  have hseqr := (Passes.word h hp hv).2.1 rfl
  obtain ⟨hcap, hseq⟩ : v.cap = mkTicket s.cur 0x3FF (x.seqOf a.toNat) (x.seqr (x.seqOf a.toNat)).count ∧ v.seq = x.nextSeq := by
    obtain ⟨sq, on, pr, tx, rs, q, he⟩ := Ctx.enrol_word_eq x _ (s.tenant x.tenant).scap w
    rw [hv, he]
    have hchk := hp.check
    simp only [hport, Bool.not_true, Bool.false_and, Bool.false_eq_true, if_false] at hchk
    by_cases hlive : x.live a.toNat = true
    · simp only [hlive, Bool.not_true, Bool.false_eq_true, if_false] at hchk
      cases hchk; exact ⟨rfl, rfl⟩
    · simp only [hlive, Bool.not_false, if_true] at hchk
      cases hchk
  obtain ⟨y, hy, hsame, -⟩ := reserving_strand h.resident _ w v pops
  have hacts := Acts.modCtx (v := v) (g := fun _ => Ctx.owes a.toNat) hy (Ctx.owes_blind a.toNat) (.inl hseqr)
  have huy : u.ctx s.cur = some (y.owes a.toNat) := by rw [hu, touchUnits_ctx]; exact hacts.ctx
  refine ⟨_, word_plain (run := runHpass k) h hp hv hu (fun y0 hy0 => acts_ctx (g := fun _ => Ctx.owes a.toNat) (Ctx.owes_blind a.toNat) hseqr y0 hy0)
    rfl rfl (y := y.owes a.toNat) ?_, ?_⟩
  · unfold runHpass
    simp only [huy, hch, if_true]
  · simp only [hch, if_true]
    rw [hcap, hseq, ← (hsame.owes a.toNat).uid, ← (hsame.owes a.toNat).tenant]
    exact sendChannel_carries _ _ _ ((peerOf_strand (hsame.owes a.toNat) _ _).trans hpeer)

/-- Settles O20: words with a result and loads send it as they write their destination, and `hpass` its ticket. -/
theorem channelResults : Obligations.ChannelResults := by
  refine ⟨?_, ?_, ?_⟩
  · intro s x i r vals pops p hr h hread hlo hhi hdest hcredit hpeer _
    have hw : ∃ k, ResultWord s x i r vals k := by
      rcases hr with hr | hr | hr
      · exact ⟨_, resultWord_of_intRow vals hr⟩
      · exact ⟨_, resultWord_of_floatRow vals hr⟩
      · exact ⟨_, resultWord_of_readRow vals h.resident hr⟩
    obtain ⟨k, hw⟩ := hw
    obtain ⟨t, ht, n, q, hq⟩ := hw.carries h hread hlo hhi hdest hcredit hpeer
    exact ⟨t, n, q, ht, hq⟩
  · intro s u x d b i sp vals pops w v p hsp h hlo hhi hv hu hpeer hne
    refine ⟨fun hp hsound => ?_, fun pa hp htr => ?_⟩
    · obtain ⟨t, ht, n, q, hq⟩ := lds_carries hsp h hlo hhi hv hu hpeer hp hsound
      exact ⟨t, n, q, ht, hq⟩
    · obtain ⟨t, y, ht, hy, hout, n, q, hq, hsrc, hdst, -, hkind⟩ := ldg_carries hsp h hlo hhi hv hu hpeer hne hp htr
      exact ⟨t, y, n, q, ht, hy, hout, hq, hsrc, hdst, hkind⟩
  · intro s x a k r vals pops w p hr h hlo hhi hp hpeer _
    obtain ⟨t, ht, n, q, hq⟩ := hpass_carries hr h hlo hhi hp hpeer
    exact ⟨t, n, q, ht, hq⟩

end Sys2Proof.Machine
end

section
/-! SUPPORT. Acknowledgements and replies (R54, R56, R102, R103, R182, R183, R210): what the end of a command leaves, where a load's
value goes, and the trap of a load whose data is poisoned. Settles O29. -/

namespace Sys2Proof.Machine

/-! ## The end of a command -/

theorem State.finishCmd_gone (s : State) (id : Nat) : Map.at? (s.finishCmd id).cmds id = none := by
  unfold State.finishCmd
  split
  · assumption
  · simp only
    split
    · exact Map.at?_del_self _ _
    · unfold State.lateTokens
      split
      · show Map.at? (Map.modify (Map.del s.cmds id) _ _) id = none
        rw [Map.at?_modify, Map.at?_del_self]
        split <;> rfl
      · unfold State.count
        split
        · exact Map.at?_del_self _ _
        · exact Map.at?_del_self _ _

/-- A command of which everything awaited is acknowledged has finished. -/
theorem State.settle_gone {s : State} {id : Nat} {m : Cmd} {ids : List Nat} (info : AckInfo) (hm : Map.at? s.cmds id = some m) (hne : m.pend ≠ [])
    (hall : ∀ a ∈ m.pend, a ∈ ids) : Map.at? (s.settle id ids info).cmds id = none := by
  have hany : m.pend.any (fun a => decide (a ∈ ids)) = true := by
    obtain ⟨a, ha⟩ := List.exists_mem_of_ne_nil _ hne
    exact List.any_eq_true.2 ⟨a, ha, decide_eq_true (hall a ha)⟩
  have hleft : m.pend.filter (fun a => decide (a ∉ ids)) = [] := by
    rw [List.filter_eq_nil_iff]
    intro a ha
    simp [hall a ha]
  unfold State.settle
  simp only [hm, hany, if_true, hleft, List.isEmpty_nil]
  exact State.finishCmd_gone _ _

theorem State.cmdStatus_net (s : State) (m : Cmd) (cause : Nat) (tval : Dword) : (s.cmdStatus m cause tval).net = s.net := by
  unfold State.cmdStatus State.launchStatus
  split
  · rfl
  · split <;> rfl

theorem State.noteLines_net (s : State) (id : Nat) (ls : List Nat) : (s.noteLines id ls).net = s.net := by
  unfold State.noteLines
  split
  · rfl
  · split
    · rfl
    · split
      · rfl
      · simp only
        split <;> rfl

theorem State.finishCmd_net (s : State) (id : Nat) : (s.finishCmd id).net = s.net := by
  unfold State.finishCmd
  split
  · rfl
  · simp only
    split
    · rfl
    · unfold State.lateTokens
      split
      · rfl
      · unfold State.count; split <;> rfl

/-- Settling a command leaves the fabric. -/
theorem State.settle_net (s : State) (id : Nat) (ids : List Nat) (info : AckInfo) : (s.settle id ids info).net = s.net := by
  have hflush : ∀ (u : State) (m : Cmd), (if info.flushes = 0 then u else (u.count m.core 9 info.flushes).modCtxOf m.core m.uid (fun x => x.stick 4)).net =
      u.net := by
    intro u m
    split
    · rfl
    · unfold State.count; split <;> rfl
  have hend : ∀ (u : State) (b : Bool), (if b then u.finishCmd id else u).net = u.net := by
    intro u b
    cases b
    · rfl
    · exact State.finishCmd_net u id
  unfold State.settle
  split
  · rfl
  · split
    · simp only
      rw [hend, State.noteLines_net, hflush, State.cmdStatus_net]
    · rfl

/-- The registers of the resident context stay when its command is settled whole. -/
theorem State.settle_all_registers {s : State} {id : Nat} {m : Cmd} {x : Ctx} (hm : Map.at? s.cmds id = some m) (hx : s.ctx m.core = some x)
    (hu : x.uid = m.uid) : ∃ y, (s.settle id m.pend {}).ctx m.core = some y ∧ y.n = x.n := by
  unfold State.settle
  simp only [hm]
  split
  · have hleft : m.pend.filter (fun a => decide (a ∉ m.pend)) = [] := by simp [List.filter_eq_nil_iff]
    have hx' : ∀ cm sn, State.ctx { s with cmds := cm, sent := sn } m.core = some x := fun _ _ => hx
    simp only [hleft, State.cmdStatus, State.noteLines, if_true, List.isEmpty_nil, State.finishCmd, Map.at?_ins_self,
      State.ctxOf_of_resident (hx' _ _) hu]
    refine ⟨_, State.ctx_modCtxOf_resident (hx' _ _) hu _, ?_⟩
    cases m.seqr <;> rfl
  · exact ⟨x, hx, rfl⟩

/-! ## Where a load's value goes -/

/-- A register that a load is still to write takes the value; one that a later word has written keeps its own (R103). -/
theorem writeLate_register {s : State} {c d : Nat} {x : Ctx} {w : QWord} (v : Dword) (hx : s.ctx c = some x) (hw : w.dst = some d) (hd : d < 32) :
    (writeLate s c w v).cmds = s.cmds ∧ ∃ y, (writeLate s c w v).ctx c = some y ∧ y.uid = x.uid ∧
      ∀ k, y.reg k = if k = d ∧ w.seq ∈ Map.get [] x.late d then v else x.reg k := by
  have hmine : (s.ctx c).any (fun x => w.dst.all (fun d => decide (32 ≤ d) || decide (w.seq ∈ Map.get [] x.late d))) =
      decide (w.seq ∈ Map.get [] x.late d) := by
    simp [hx, hw, show ¬ 32 ≤ d by omega]
  unfold writeLate
  simp only [hmine]
  by_cases hlate : w.seq ∈ Map.get [] x.late d
  · have hout : ∀ (t : State) k, t.outbox d k v = t := fun t k => if_neg (by omega)
    rw [if_pos (decide_eq_true hlate), writeDst_eq v hx hw (by omega), hout, State.modCtx_of _ hx]
    refine ⟨rfl, _, State.ctx_setCtx_self _ _ _, ?_, fun k => ?_⟩
    · rw [Ctx.wrote, if_pos hd]; rfl
    · rw [Ctx.wrote, if_pos hd]
      show Map.get 0 (Map.put 0 x.n d v) k = if k = d ∧ _ then v else Map.get 0 x.n k
      rw [Map.get_put]
      by_cases hk : d = k
      · rw [if_pos hk, if_pos ⟨hk.symm, hlate⟩]
      · rw [if_neg hk, if_neg (fun h => hk h.1.symm)]
  · rw [if_neg (by rw [decide_eq_false hlate]; decide), State.modCtx_of _ hx]
    exact ⟨rfl, _, State.ctx_setCtx_self _ _ _, rfl, fun k => by rw [if_neg (fun h => hlate h.2)]; rfl⟩

/-- To a channel the value is sent to the peer core. -/
theorem writeLate_carries {s : State} {c d p : Nat} {x : Ctx} {w : QWord} (v : Dword) (hx : s.ctx c = some x) (hw : w.dst = some d) (hlo : 48 ≤ d)
    (hhi : d ≤ 53) (hp : peerOf x c (d - 48) = some p) :
    (writeLate s c w v).carries (.core c) (.core p) x.tenant (.chan (d - 48) x.uid w.seq v false) := by
  have hmine : (s.ctx c).any (fun x => w.dst.all (fun d => decide (32 ≤ d) || decide (w.seq ∈ Map.get [] x.late d))) = true := by
    simp [hx, hw, show 32 ≤ d by omega]
  unfold writeLate
  simp only [hmine, if_true]
  exact writeDst_carries v hx hw hlo hhi hp

/-! ## The replies -/

section
variable {s : State} {id va : Nat} {p : Packet} {m : Cmd} {v : Dword} {x : Ctx} {w : QWord}

/-- An acknowledgement settles its command. -/
theorem exec_ackReceive {c q : Nat} {ids : List Nat} {info : AckInfo} (hfly : s.flying id = some p) (hkind : p.kind = .ack q ids info)
    (hdst : p.dst = .core c) : exec (.ackReceive id) s = .next ((s.unsend id).settle p.cmd ids info) := by
  change execAckReceive id s = _
  unfold execAckReceive
  simp only [hfly, hkind, hdst]

/-- An atomic's reply gives its element the value, or its error (R54). -/
theorem exec_xatReply {bad : Bool} {i : Nat} {rest : List Nat} (hfly : s.flying id = some p) (hm : Map.at? s.cmds p.cmd = some m)
    (hkind : p.kind = .atomicReply v bad va) (hq : m.q6 = i :: rest) :
    exec (.xatReply id) s = .next (((s.unsend id).modCtxOf m.core m.uid (fun x => if bad then x.produceErr i 9 (BitVec.ofNat 64 va) else x.produce i v)).settle
      p.cmd m.pend (if bad then { cause := 9, tval := BitVec.ofNat 64 va } else {})) := by
  change execXatReply id s = _
  unfold execXatReply
  simp only [hfly, hkind, hm, hq]

variable (hfly : s.flying id = some p) (hm : Map.at? s.cmds p.cmd = some m) (hx : s.ctxOf m.core m.uid = some x)
  (hw : x.fly.find? (fun u => decide (u.seq = m.word)) = some w)
include hfly hm hx hw

/-- A load's reply delivers its value and settles the load. -/
theorem exec_ldgReply_delivers (hkind : p.kind = .loadReply v false va) (hroom : w.dst = some 55 → oboxRoom s x = true) :
    exec (.ldgReply id) s = .next ((writeLate (s.unsend id) m.core w v).settle p.cmd m.pend {}) := by
  change execLdgReply id s = _
  unfold execLdgReply
  simp only [hfly, hkind, hm, hx, hw, mailbox_open hroom, Bool.false_eq_true, if_false]

/-- Into a full mailbox it waits (R293). -/
theorem exec_ldgReply_waits (hkind : p.kind = .loadReply v false va) (hd : w.dst = some 55) (hfull : oboxRoom s x = false) :
    exec (.ldgReply id) s = .next s := by
  change execLdgReply id s = _
  unfold execLdgReply
  simp only [hfly, hkind, hm, hx, hw, hd, hfull, decide_true, Bool.not_false, Bool.and_self, Bool.false_eq_true, if_true, if_false]

/-- Poisoned data unstarts the load and raises ECC (R56, R102). -/
theorem exec_ldgReply_poisoned (hkind : p.kind = .loadReply v true va) :
    exec (.ldgReply id) s = .next (((s.forgets id p).modCtxOf m.core m.uid (fun z => z.unstarted w)).raise m.core
      { cause := 9, tval := BitVec.ofNat 64 va, eng := .s, addr := w.addr, word := some w.seq }) := by
  change execLdgReply id s = _
  unfold execLdgReply
  simp only [hfly, hkind, hm, hx, hw, if_true]
  rfl
end

/-! ## The trap of a poisoned load -/

/-- A load unstarted leaves the strand's mode, tenant and trap as they are. -/
theorem Ctx.unstarted_same (x : Ctx) (w : QWord) : SameStrand x (x.unstarted w) := by
  unfold Ctx.unstarted Ctx.unload
  cases w.dst
  · exact ⟨rfl, rfl, rfl, rfl, rfl⟩
  · exact ⟨rfl, rfl, rfl, rfl, rfl⟩

theorem State.unstall_setCtx (s : State) (c : Nat) (x z : Ctx) : (s.unstall c x).setCtx c z = (endStall s c x).setCtx c z := by
  unfold State.unstall
  split
  · rename_i h; unfold endStall; rw [h]
  · exact State.setCtx_setCtx _ _ _ _

/-- A trap that may not be entered yet is recorded (R298). -/
theorem raise_records {s : State} {c : Nat} {x : Ctx} {p : Pend} (hx : s.ctx c = some x) (hpend : x.pend = none)
    (hno : s.noneRunsOn c x = false ∨ x.earlierDone p.eng p.word = false ∨ (s.core c).quiesce ≠ none) :
    s.raise c p = (endStall s c x).setCtx c { x with pend := some (p.raisedIn s x), stall := .none } := by
  have hstay : (s.mayEnter c x (p.raisedIn s x) && (s.core c).quiesce.isNone) = false := by
    have hdone : x.earlierDone (p.raisedIn s x).eng (p.raisedIn s x).word = x.earlierDone p.eng p.word := rfl
    unfold State.mayEnter
    rcases hno with h | h | h
    · rw [h]; rfl
    · rw [hdone, h, Bool.and_false]; rfl
    · rw [Option.isNone_eq_false_iff.2 (Option.isSome_iff_ne_none.2 h), Bool.and_false]
  unfold State.raise
  simp only [hx, hpend, hstay, Bool.false_eq_true, if_false]
  exact State.unstall_setCtx s c x _

/-- Settles O29: acknowledgements settle, replies deliver where their word says, and a poisoned load raises its trap. -/
theorem replies : Obligations.Replies := by
  refine ⟨?_, ?_⟩
  · intro s id c q p ids info hfly hkind hdst
    exact ⟨exec_ackReceive hfly hkind hdst, fun m hm hne hall => State.settle_gone (s := s.unsend id) info hm hne hall⟩
  · intro s id va p m v hfly hm
    refine ⟨?_, ?_, ?_, ?_, ?_⟩
    · intro i rest bad hkind hq
      exact exec_xatReply hfly hm hkind hq
    · intro x w hkind hx hw hroom
      exact exec_ldgReply_delivers hfly hm hx hw hkind hroom
    · intro x w hkind hx hw hd hfull
      exact exec_ldgReply_waits hfly hm hx hw hkind hd hfull
    · intro x w d hkind hx hu hw hd
      have hexec := exec_ldgReply_delivers hfly hm (State.ctxOf_of_resident hx hu.symm) hw hkind
      constructor
      · intro hlt
        obtain ⟨hcmds, y, hy, hyu, hreg⟩ := writeLate_register (s := s.unsend id) v hx hd hlt
        obtain ⟨z, hz, hn⟩ := State.settle_all_registers (hcmds ▸ hm) hy (hyu.trans hu.symm)
        refine ⟨_, z, hexec (fun h55 => by rw [hd] at h55; cases h55; omega), hz, fun k => ?_⟩
        rw [← hreg k]
        unfold Ctx.reg
        rw [hn]
      · intro k hlo hhi hpeer
        obtain ⟨n, q, hq⟩ := State.carries_of_net (State.settle_net _ p.cmd m.pend {})
          (writeLate_carries (s := s.unsend id) v hx hd hlo hhi hpeer)
        exact ⟨_, n, q, hexec (fun h55 => by rw [hd] at h55; cases h55; omega), hq⟩
    · intro x y w u hkind hx hu hpend hw hy hus
      have hexec := exec_ldgReply_poisoned hfly hm (State.ctxOf_of_resident hx hu.symm) hw hkind
      rw [← hus] at hexec
      obtain ⟨-, htenant, -, hypend, hpstat⟩ := x.unstarted_same w
      rw [← hy] at htenant hypend hpstat
      have huy : u.ctx m.core = some y := by
        rw [hus, hy]; exact State.ctx_modCtxOf_resident (s := s.forgets id p) hx hu.symm _
      obtain ⟨htvec, hquiet⟩ : SameTraps m.core s u := by
        rw [hus]; exact SameTraps.modCtxOf (s.forgets id p) m.core m.core m.uid _
      constructor
      · intro hnone hdone hrun hpriv hhandler
        rw [← htvec, ← htenant] at hhandler ⊢
        obtain ⟨z, hz, hent⟩ := raise_enters (p := { cause := 9, tval := BitVec.ofNat 64 va, eng := .s, addr := w.addr, word := some w.seq }) huy
          (hypend.trans hpend) hnone hdone (hquiet.trans hrun) ((congrArg (fun b : BitVec 8 => b.getLsbD 0) hpstat).trans hpriv) hhandler
        exact ⟨z, hexec.trans (congrArg Host.Outcome.next hz), hent⟩
      · intro hno
        refine ⟨_, hexec.trans (congrArg Host.Outcome.next (raise_records huy (hypend.trans hpend) ?_)), rfl, rfl, rfl, rfl⟩
        exact hno.imp_right (Or.imp_right (fun h => by rw [hquiet]; exact h))

end Sys2Proof.Machine
end

section
/-! SUPPORT. Tile words that fold, move and quantise (R74, R75, R123-R128): each writes the tiles its row names. Settles O5. -/

namespace Sys2Proof.Machine

/-! ## What the checks of a word of two outputs leave (R126, R128) -/

/-- A check that goes through has met both of its conditions. -/
theorem shapes_of_own_none {types shapes : Bool} {f g : Nat} (h : (if types then some f else if shapes then none else some g) = none) :
    shapes = true := by
  cases types
  · cases shapes
    · cases h
    · rfl
  · cases h

/-- The two destinations of a quantisation differ. -/
theorem vqntChk_ne {d a b : Nat} (x : Ctx) {w : QWord} (h : vqntChk d a b x w = none) : d ≠ b := by
  have := shapes_of_own_none h
  simp only [Bool.and_eq_true, decide_eq_true_eq] at this
  exact this.2

/-- The two destinations of a compression differ. -/
theorem vcompChk_ne {m d a b : Nat} (x : Ctx) {w : QWord} (h : vcompChk m d a b x w = none) : d ≠ b := by
  have := shapes_of_own_none h
  simp only [Bool.and_eq_true, decide_eq_true_eq] at this
  exact this.2

/-! ## Tiles written -/

section
variable {x : Ctx} {ts : List Nat} {i : Instr} {e : Engine} {srcs : List Nat} {vals : List Dword} {w : QWord}
  (hw : w = x.tileWord i e srcs vals ts) (hleg : x.legal ts)
include hw hleg

/-- Rows of a legal tile, as long as it has them, written. -/
theorem put_legal {d : Nat} (hd : d ∈ ts) {rows : List Nat} (hn : rows.Nodup) (hr : ∀ i ∈ rows, i < 128) (f : Nat → Nat → Nat) (k : Core) :
    Put w [(d, rows, f)] k (putTile w d rows f k) :=
  putTile_put _ _ _ _ _ hn hr (legal_dims (w := w) hleg hd (by rw [hw]; rfl)).2

/-- The selected rows of a legal tile are rows of its own. -/
theorem sel_lt {d : Nat} (hd : d ∈ ts) : ∀ i ∈ selRows w (w.rows d), i < 128 := fun _ hi =>
  Nat.lt_of_lt_of_le (selRows_lt hi) (legal_dims (w := w) hleg hd (by rw [hw]; rfl)).1

/-- Two legal tiles written row by row, each row of both at once. -/
theorem put_row_pairs {d b : Nat} (hd : d ∈ ts) (hb : b ∈ ts) (hdb : d ≠ b) (f g : Nat → Nat → Nat) (k : Core) :
    Put w [(d, selRows w (w.rows d), f), (b, selRows w (w.rows d), g)] k
      ((selRows w (w.rows d)).foldl (fun k1 i => putTile w b [i] (fun _ j => g i j) (putTile w d [i] (fun _ j => f i j) k1)) k) := by
  refine Put.rows _ (fun k1 i hi => ?_) _ k (selRows_nodup _ _) (sel_lt hw hleg hd)
  have hi1 : ∀ l ∈ [i], l < 128 := fun l hl => List.mem_singleton.1 hl ▸ hi
  refine (put_two hw hleg hd hb hdb (List.nodup_singleton i) hi1 (fun _ j => f i j) (fun _ j => g i j) k1).congr ?_ ?_
  · intro l hl j; rw [List.mem_singleton.1 hl]
  · intro l hl j; rw [List.mem_singleton.1 hl]

end

/-! ## The codebook (R63, R127) -/

/-- A word that passes capture leaves the codebook. -/
theorem codebookOf_readied {s : State} {x : Ctx} (hx : s.ctx s.cur = some x) (pops : List Nat) (w : QWord) :
    codebookOf (s.readied x pops w) s.cur = x.codebook := by
  obtain ⟨y, hy, _, _, rfl⟩ := popPorts_ctx s.cur pops (endStall s s.cur x) x (by rw [endStall_ctx]; exact hx)
  unfold codebookOf State.readied State.past
  rw [touchUnits_ctx, State.modCtx_of (s.popped x pops) hy, State.ctx_setCtx_self]
  rfl

/-! ## The words -/

/-- A word of one source reads its selected rows. -/
theorem rowwise_one (d a : BitVec 6) (own : Ctx → QWord → Option Nat) (raw : QWord → Bool) (elem : Ctx → QWord → Core → Nat → Nat → Nat) :
    rowwise d [a] own raw elem = some {
      tiles := [d.toNat, a.toNat]
      own := own
      reads := fun w _ => readRows a.toNat (w.sel d)
      runs := fun w _ => if raw w then [] else runsOf a.toNat (w.cols a.toNat) (w.sel d)
      outs := fun x w k => [(d.toNat, w.sel d, elem x w k)] } := by
  simp [rowwise]

/-- Reductions, scans and rearrangement (R123-R125) write their destination alone. -/
theorem foldTiles_complete : TileWordsComplete foldTiles := by
  intro s u x i r vals pops w k hr hw hu hk h hread hleg hown hp
  cases i
  case vredr d a f =>
    cases (rowwise_one _ _ _ _ _).symm.trans hr
    exact tile_done hw hu hk h rfl hread hleg hown hp (by rw [hk]; rfl) rfl (put_sel hw hleg (by simp) _)
  case vredc d a f =>
    cases hr
    exact tile_done hw hu hk h rfl hread hleg hown hp (by rw [hk]; rfl) rfl
      (put_legal hw hleg (by simp) (selRows_nodup _ _) (fun i hi => Nat.lt_trans (selRows_lt hi) (by decide)) _)
  case vscan d a m =>
    cases (rowwise_one _ _ _ _ _).symm.trans hr
    exact tile_done hw hu hk h rfl hread hleg hown hp (by rw [hk]; rfl) rfl (put_sel hw hleg (by simp) _)
  case vtrn d a =>
    cases hr
    exact tile_done hw hu hk h rfl hread hleg hown hp (by rw [hk]; rfl) rfl (put_sel hw hleg (by simp) _)
  case vbcr d a =>
    cases hr
    exact tile_done hw hu hk h rfl hread hleg hown hp (by rw [hk]; rfl) rfl (put_sel hw hleg (by simp) _)
  case vbcc d a =>
    cases hr
    exact tile_done hw hu hk h rfl hread hleg hown hp (by rw [hk]; rfl) rfl (put_sel hw hleg (by simp) _)
  all_goals cases hr

/-- Quantisation, weight decoding and compression (R126-R128) write their destinations alone. -/
theorem quantTiles_complete : TileWordsComplete quantTiles := by
  intro s u x i r vals pops w k hr hw hu hk h hread hleg hown hp
  cases i
  case vqnt d a b =>
    cases hr
    exact tile_done hw hu hk h rfl hread hleg hown hp (by rw [hk]; rfl) rfl
      (put_row_pairs hw hleg (by simp) (by simp) (vqntChk_ne x hown) _ _)
  case vdqnt d a b =>
    cases hr
    exact tile_done hw hu hk h rfl hread hleg hown hp (by rw [hk]; rfl) rfl (put_sel hw hleg (by simp) _)
  case vvqd d a b =>
    cases hr
    have hbook : codebookOf u s.cur = x.codebook := by rw [hu]; exact codebookOf_readied h.resident pops w
    exact tile_done hw hu hk h rfl hread hleg hown hp (by rw [hk, ← hbook]; rfl) rfl (put_sel hw hleg (by simp) _)
  case vcomp d a b m =>
    cases hr
    exact tile_done hw hu hk h rfl hread hleg hown hp (by rw [hk]; rfl) rfl
      (put_row_pairs hw hleg (by simp) (by simp) (vcompChk_ne x hown) _ _)
  all_goals cases hr

/-- Settles O5: every word of both tables leaves exactly its tiles written. -/
theorem foldTileWords : Obligations.FoldTileWords := ⟨foldTiles_complete, quantTiles_complete⟩

end Sys2Proof.Machine
end

section
/-! SUPPORT. Predicate, shape, CSR and scale-binding words (R94-R99, R109, R147): what each changes as it passes capture or as it
finishes. Settles O7. -/

namespace Sys2Proof.Machine

/-- A predicate is written from the context as it stands. -/
theorem setPredRun_done {u : State} {c : Nat} {y : Ctx} {w : QWord} (hy : u.ctx c = some y) (p : BitVec 7) (f : Ctx → QWord → Pred) :
    setPredRun p f u c w = .done (u.modCtx c (fun z => z.setPred p.toNat (f y w))) := by
  unfold setPredRun
  rw [State.modCtx_of u hy, State.modCtx_of u hy]

/-- A shape record changes beside the words waiting and started (R98). -/
theorem blind_shapes (f : Map Word → Map Word) : Blind (fun x => { x with shapes := f x.shapes }) :=
  ⟨fun _ => rfl, fun _ => rfl, fun _ => rfl, fun _ => rfl, fun _ _ => rfl⟩

/-- So does the scale binding (R147). -/
theorem blind_mscl (b : Option (Nat × Nat)) : Blind (fun x => { x with mscl := b }) :=
  ⟨fun _ => rfl, fun _ => rfl, fun _ => rfl, fun _ => rfl, fun _ _ => rfl⟩

/-- The checks of a CSR word before it writes (R55, R302). -/
def csrwChk (n : Nat) : State → Nat → Ctx → QWord → Chk := fun _ _ x w =>
  match csrTrap x n true with | some cause => .trap cause (x.grp.raw.setWidth 64) | none => .ok w

/-- A CSR word that passes them is one that R55 and R302 let write, captured without a check of its own. -/
theorem Passes.csrw {s : State} {x : Ctx} {i : Instr} {sp : CapSpec} {n : Nat} {vals : List Dword} {pops : List Nat} {w : QWord}
    (hp : Passes s x i sp (csrwChk n) vals pops w) : csrTrap x n true = none ∧ Passes s x i sp noChk vals pops w := by
  have hchk := hp.check
  unfold csrwChk at hchk
  cases ht : csrTrap x n true with
  | none => rw [ht] at hchk; exact ⟨rfl, { hp with check := hchk }⟩
  | some cause => rw [ht] at hchk; cases hchk

/-- Where R55 and R302 let it write, a CSR word is captured as any other. -/
theorem exec_csrw {s : State} {x : Ctx} {a : BitVec 6} {n : BitVec 12} (hx : s.ctx s.cur = some x) (ht : csrTrap x n.toNat true = none) :
    exec (.csrw a n) s = issue (.csrw a n) { eng := .s, srcs := [a.toNat], sys := n.toNat = 0x011 } noChk
      (fun s k w => csrWrite s k n.toNat (op0 w)) runCsrw s := by
  show execCsrw a n s = _
  unfold execCsrw
  rw [hx]
  simp only [ht]

/-- Each row's word changes its context as it passes capture, or runs to what the row gives. -/
theorem stateWords_complete : WordsComplete stateWords := by
  intro s u x y i r vals pops w v hr h hp hv hu hy _
  cases i
  case nop => cases hr; exact word_plain (run := runNone) h hp hv hu (acts_none h) rfl rfl rfl
  case cmp p a b k => cases hr; exact word_plain (run := runCmp p k) h hp hv hu (acts_none h) rfl rfl rfl
  case pand d a b => cases hr; exact word_plain (run := runPand d a b) h hp hv hu (acts_none h) rfl rfl (setPredRun_done hy _ _)
  case por d a b => cases hr; exact word_plain (run := runPor d a b) h hp hv hu (acts_none h) rfl rfl (setPredRun_done hy _ _)
  case pxor d a b => cases hr; exact word_plain (run := runPxor d a b) h hp hv hu (acts_none h) rfl rfl (setPredRun_done hy _ _)
  case pandn d a b => cases hr; exact word_plain (run := runPandn d a b) h hp hv hu (acts_none h) rfl rfl (setPredRun_done hy _ _)
  case pput a p b => cases hr; exact word_plain (run := runPput p b) h hp hv hu (acts_none h) rfl rfl (setPredRun_done hy _ _)
  case tshape a t =>
    cases hr
    exact word_plain (run := runTshape) h hp hv hu
      (acts_ctx (g := fun v z => { z with shapes := Map.put 0 z.shapes t.toNat ((op0 v).setWidth 32) })
        (blind_shapes fun m => Map.put 0 m t.toNat ((op0 v).setWidth 32)) ((Passes.word h hp hv).2.1 rfl)) rfl rfl rfl
  case csrw a n =>
    cases hr
    obtain ⟨ht, hp⟩ := Passes.csrw hp
    rw [exec_csrw h.resident ht]
    exact word_plain (r := { sp := { eng := .s, srcs := [a.toNat], sys := n.toNat = 0x011 }
                             act := fun u c v => csrWrite u c n.toNat (op0 v), out := fun u _ _ _ => u })
      (run := runCsrw) (y := y) h hp hv hu
      (fun y0 hy0 => acts_csr hy0 (reserving_same h.resident hy0) ((Passes.word h hp hv).2.1 rfl)) rfl rfl rfl
  case mscl a b =>
    cases hr
    exact word_plain (run := runMscl) h hp hv hu
      (acts_ctx (g := fun _ z => { z with mscl := some (a.toNat, b.toNat) }) (blind_mscl _) ((Passes.word h hp hv).2.1 rfl)) rfl rfl rfl
  case msclOff =>
    cases hr
    exact word_plain (run := runMsclOff) h hp hv hu
      (acts_ctx (g := fun _ z => { z with mscl := none }) (blind_mscl _) ((Passes.word h hp hv).2.1 rfl)) rfl rfl rfl
  all_goals cases hr

end Sys2Proof.Machine

namespace Sys2Proof

/-- Settles O7: every word of the table completes. -/
theorem stateWords : Obligations.StateWords := Machine.stateWords_complete

end Sys2Proof
end

section
/-! SUPPORT. Rows, single elements, liveness and codebooks (R68, R129-R138): what each word runs to where nothing it reads is
marked. Settles O10. -/

namespace Sys2Proof.Machine

/-! ## Runs that meet no mark -/

/-- A tile word that reads no marked row counts its flushes, writes, and revives the tile it names (R68, R137, R308). -/
theorem tileRunOf_writes {u : State} {c n : Nat} {w : QWord} {reads : List (Nat × Nat)} (t : Nat) {upd : Core → Core}
    (hp : poisonedTile (u.core c) reads = none) :
    tileRunOf n u c w reads [t] upd = .done (((noteFlush u c n).modCore c upd).revived c t (selRows w (w.rows t))) := by
  unfold tileRunOf State.revived
  rw [hp]
  simp only [List.filter_cons, List.filter_nil]
  cases (selRows w (w.rows t)).isEmpty <;> rfl

/-- One that writes no tile revives none. -/
theorem tileRunOf_reads {u : State} {c n : Nat} {w : QWord} {reads : List (Nat × Nat)} (t : Nat) {upd : Core → Core}
    (hp : poisonedTile (u.core c) reads = none) :
    tileRunOf n u c w reads [] upd = .done (((noteFlush u c n).modCore c upd).revived c t []) := by
  unfold tileRunOf
  rw [hp]
  rfl

/-- A word that reads no elements flushes none. -/
@[simp] theorem flushedIn_nil (w : QWord) (k : Core) : flushedIn w k [] = 0 := by
  unfold flushedIn
  split <;> rfl

/-- The same for a word that moves rows bit for bit. -/
theorem tileRun_moves {u : State} {c : Nat} {w : QWord} {reads : List (Nat × Nat)} (t : Nat) {upd : Core → Core}
    (hp : poisonedTile (u.core c) reads = none) :
    tileRun u c w reads [] [t] upd = .done ((u.modCore c upd).revived c t (selRows w (w.rows t))) := by
  rw [tileRun, flushedIn_nil, tileRunOf_writes t hp, noteFlush_zero]

/-- And for one that writes no tile. -/
theorem tileRun_keeps {u : State} {c : Nat} {w : QWord} {reads : List (Nat × Nat)} (t : Nat) {upd : Core → Core}
    (hp : poisonedTile (u.core c) reads = none) : tileRun u c w reads [] [] upd = .done ((u.modCore c upd).revived c t []) := by
  rw [tileRun, flushedIn_nil, tileRunOf_reads t hp, noteFlush_zero]

/-- Scratchpad rows without marks raise nothing (R308). -/
theorem poisonedSpad_none {k : Core} {rows : List Nat} (h : ∀ r ∈ rows, r ∉ k.spadPoison) : poisonedSpad k rows = none := by
  unfold poisonedSpad
  rw [List.find?_eq_none.2 (fun r hr => by simpa using h r hr)]
  rfl

/-- Neither does a tile row without one. -/
theorem poisonedTile_none {k : Core} {t i : Nat} (h : 128 * t + i ∉ k.tilePoison) : poisonedTile k [(t, i)] = none := by
  simp [poisonedTile, h]

/-! ## The words -/

section
variable {u : State} {c : Nat} {v : QWord}

/-- Rows loaded from sound scratchpad rows (R131). -/
theorem runTld_sound {d : BitVec 6} (h : ∀ j ∈ v.sel d, (rowBase v).toNat + j ∉ (u.core c).spadPoison) :
    runTld d u c v = .done ((u.modCore c (fun k => k.setRows d.toNat (v.sel d) true (fun k1 j =>
      unswizzle v.swz ((rowBase v).toNat + j) (k1.spadRow ((rowBase v).toNat + j))))).revived c d.toNat (v.sel d)) := by
  have hrows : ∀ r ∈ (v.sel d).map (fun j => (rowBase v).toNat + j), r ∉ (u.core c).spadPoison := by
    simpa only [List.forall_mem_map] using h
  have hnone := poisonedSpad_none hrows
  unfold runTld
  simp only [QWord.sel] at hnone
  simp only [hnone]
  exact tileRun_moves (reads := []) d.toNat rfl

/-- A bit-packed stream read from a scratchpad without marks (R133). -/
theorem runTldX_sound {d : BitVec 6} (h : (u.core c).spadPoison = []) :
    runTldX d u c v = .done ((u.modCore c (putTile v d.toNat (v.sel d) (fun i j =>
      let wd := bfxWidth v.bfx (j % bfxCount v.bfx)
      bfxExtend (v.et d.toNat) wd ((u.core c).spadBits
        ((tldxStart v).toNat + i * bfxRowBits v.bfx (v.cols d.toNat) + bfxPos v.bfx j) wd)))).revived c d.toNat (v.sel d)) := by
  have hnone : ∀ rows, poisonedSpad (u.core c) rows = none := fun rows => poisonedSpad_none (by simp [h])
  unfold runTldX
  simp only [hnone]
  exact tileRun_moves (reads := []) d.toNat rfl

/-- An element read into q6 (R130). -/
theorem runVget_sound {t : BitVec 6} (h : 128 * t.toNat + cRow (op0 v) ∉ (u.core c).tilePoison) :
    runVget t u c v = .done (u.modCtx c (fun z => z.produceAll v.q6
      [getElem (u.core c) t.toNat (v.et t.toNat) (cRow (op0 v)) (cCol (op0 v))])) := by
  unfold runVget
  simp only [poisonedTile_none h]

/-- A row mask read into q6, its float elements flushed as they are read (R138). -/
theorem runVrowm_sound {t : BitVec 6} (h : poisonedTile (u.core c) (readRows t.toNat (List.range (v.rows t.toNat))) = none) :
    runVrowm t u c v = .done ((((noteFlush u c (flushedIn v (u.core c) (if isFloatT (v.et t.toNat)
        then runsOf t.toNat (v.cols t.toNat) (List.range (v.rows t.toNat)) else []))).modCore c id).revived c t.toNat []).modCtx c
      (fun z => z.produceAll v.q6
        [BitVec.ofNat 64 (rowMaskOf v (u.core c) t.toNat), BitVec.ofNat 64 (rowMaskOf v (u.core c) t.toNat / 2 ^ 64)])) := by
  unfold runVrowm
  simp only [tileRun, tileRunOf_reads t.toNat h]

/-- A codebook loaded from a sound tile (R136). -/
theorem runVcbld_sound {t : BitVec 6} (h : poisonedTile (u.core c) (readRows t.toNat (List.range 8)) = none) :
    runVcbld t u c v = .done (((u.modCore c id).revived c t.toNat []).modCtx c (fun z => { z with
      codebook := (List.range 256).foldl (fun m e => Map.put 0 m e (cbEntry (u.core c) t.toNat e)) [] })) := by
  unfold runVcbld
  simp only [tileRun_keeps t.toNat h]

/-- An element written, where the mask selects its row (R115, R130). -/
theorem runVput_eq (t : BitVec 6) : runVput t u c v = .done (
    let e := fillElemOf v (v.et t.toNat) (cRow (op1 v) * v.cols t.toNat + cCol (op1 v)) (op0 v)
    if rowSel v.mask (cRow (op1 v)) then
      ((noteFlush u c (if e.2 then 1 else 0)).modCore c (fun k => k.putRow t.toNat (cRow (op1 v)) false
        (if v.et t.toNat = 0x10 then setVq (k.tileRow t.toNat (cRow (op1 v))) (cCol (op1 v) / 8) e.1
         else setBits (k.tileRow t.toNat (cRow (op1 v))) (ewidth (v.et t.toNat) * cCol (op1 v)) (ewidth (v.et t.toNat)) e.1))).revived c t.toNat
          (v.sel t)
    else u) := by
  unfold runVput
  cases hsel : rowSel v.mask (cRow (op1 v)) with
  | false => simp only [hsel, Bool.not_false, Bool.false_eq_true, if_true, if_false]
  | true =>
    simp only [hsel, Bool.not_true, Bool.false_eq_true, if_true, if_false]
    exact tileRunOf_writes (reads := []) t.toNat rfl

end

/-- Each row's word runs to what the row gives. -/
theorem rowWords_complete : WordsComplete rowWords := by
  intro s u x y i r vals pops w v hr h hp hv hu hy hok
  cases i
  case tld d a i => cases hr; exact word_plain h hp hv hu (acts_none h) rfl rfl (runTld_sound hok)
  case tst d a i => cases hr; exact word_plain (run := runTst d) h hp hv hu (acts_none h) rfl rfl (tileRun_keeps d.toNat hok)
  case tldX d a i => cases hr; exact word_plain h hp hv hu (acts_none h) rfl rfl (runTldX_sound hok)
  case vrmg d a t => cases hr; exact word_plain (run := runVrmg d t) h hp hv hu (acts_none h) rfl rfl (tileRun_moves d.toNat hok)
  case vfill d a => cases hr; exact word_plain (run := runVfill d) h hp hv hu (acts_none h) rfl rfl (tileRunOf_writes (reads := []) d.toNat rfl)
  case vput t a b => cases hr; exact word_plain h hp hv hu (acts_none h) rfl rfl (runVput_eq t)
  case vget t a => cases hr; exact word_plain h hp hv hu (acts_none h) rfl rfl (runVget_sound hok)
  case vrowm t => cases hr; exact word_plain h hp hv hu (acts_none h) rfl rfl (runVrowm_sound hok)
  case tkill d => cases hr; exact word_plain (run := runTkill d) h hp hv hu (acts_none h) rfl rfl rfl
  case vcbld t => cases hr; exact word_plain h hp hv hu (acts_none h) rfl rfl (runVcbld_sound hok)
  all_goals cases hr

end Sys2Proof.Machine

namespace Sys2Proof

/-- Settles O10: every word of the table completes. -/
theorem rowWords : Obligations.RowWords := Machine.rowWords_complete

end Sys2Proof
end


section
/-! SUPPORT. Accumulators and the multiply words (R68, R76-R78, R140-R152): what each runs to where nothing marked lies in the
core. Settles O11 and O12. -/

namespace Sys2Proof.Machine

/-! ## Cores without marks (R308) -/

/-- Accumulator rows without marks raise nothing. -/
theorem poisonedAcc_none {k : Core} (h : k.accPoison = []) (a : Nat) (rows : List Nat) : poisonedAcc k a rows = none := by
  simp [poisonedAcc, h]

/-- Neither do tile rows. -/
theorem poisonedTile_clean {k : Core} (h : k.tilePoison = []) (reads : List (Nat × Nat)) : poisonedTile k reads = none := by
  simp [poisonedTile, h]

/-! ## Read-out, write-in and clearing (R149-R151) -/

/-- Each row's word runs to what the row gives. -/
theorem accWords_complete : WordsComplete accWords := by
  intro s u x y i r vals pops w v hr h hp hv hu hy hok
  cases i
  case mrd a d col t =>
    cases hr
    refine word_plain (run := runMrd a d col t) h hp hv hu (acts_none h) rfl rfl ?_
    unfold runMrd
    simp only [poisonedAcc_none hok]
    exact tileRunOf_writes (reads := []) d.toNat rfl
  case mwr a d col t =>
    cases hr
    exact word_plain (run := runMwr a d col t) h hp hv hu (acts_none h) rfl rfl
      (tileRunOf_reads d.toNat (poisonedTile_clean hok _))
  case mclr a => cases hr; exact word_plain (run := runMclr a) h hp hv hu (acts_none h) rfl rfl rfl
  all_goals cases hr

/-- Settles O11: read-out, write-in and clearing are the table's three words. -/
theorem accumulatorWords : Obligations.AccumulatorWords := accWords_complete

/-! ## Gathered rows (R146) -/

/-- A word of which no row was read ahead gathers the scratchpad's rows as they stand. -/
theorem gathRow_eq {w : QWord} (hw : w.gath = []) (k : Core) (i : Nat) {r : Nat} (hr : r < 8192) :
    gathRow w k i r = { key := 8192 + r, val := k.spadRow r, bad := decide (r ∈ k.spadPoison) } := by
  unfold gathRow Core.rowVal Core.spadRow
  rw [hw, List.find?_nil, Option.getD_none, if_neg (by omega), Nat.add_mod_left, Nat.mod_eq_of_lt hr]

/-- A gathered row lies in the scratchpad (R203). -/
theorem gatherRow_lt {w : QWord} {n : Int} {r : Nat} (h : gatherRow w n = some r) : r < 8192 := by
  unfold gatherRow at h
  simp only [Bool.or_eq_true, decide_eq_true_eq] at h
  split at h
  · cases h
  · cases h; omega

theorem gathered_lt {op : MulOp} {w : QWord} {k : Core} {tx : Nat} {rows : List Nat} {g : Nat × Nat} (h : g ∈ gathered op w k tx rows) :
    g.2 < 8192 := by
  unfold gathered at h
  split at h
  · obtain ⟨i, -, hi⟩ := List.mem_filterMap.1 h
    obtain ⟨r, hr, rfl⟩ := Option.map_eq_some_iff.1 hi
    exact gatherRow_lt hr
  · cases h

/-- Gathered rows without marks raise nothing. -/
theorem poisonedGath_clean {w : QWord} {k : Core} {gs : List (Nat × Nat)} (hw : w.gath = []) (hk : k.spadPoison = [])
    (hg : ∀ g ∈ gs, g.2 < 8192) : poisonedGath w k gs = none := by
  have hnone : gs.find? (fun g => (gathRow w k g.1 g.2).bad) = none := List.find?_eq_none.2 (fun g hm => by
    rw [gathRow_eq hw k g.1 (hg g hm), hk]; simp)
  unfold poisonedGath
  rw [hnone]
  rfl

/-- Without the input flush nothing is flushed (R68). -/
theorem flushIn_off {ftz : Nat} (h : ftz % 2 = 0) (t v : Nat) : (flushIn ftz t v).2 = false := by
  simp [flushIn, h]

/-- Flushed elements of a scratchpad row that a word gathers (R68). -/
def rowFlushes (w : QWord) (k : Core) (et kk r : Nat) : Nat :=
  ((List.range kk).filter (fun p => (flushIn w.ftz et (rowElem (unswizzle w.swz r (k.spadRow r)) (ewidth et) p)).2)).length

/-- Each row gathered counts once, as it stands, however many indices name it. -/
theorem gathFlushes_eq {w : QWord} (k : Core) (et kk : Nat) {gs : List (Nat × Nat)} (hw : w.gath = []) (hg : ∀ g ∈ gs, g.2 < 8192) :
    gathFlushes w k et kk gs = (((gs.map Prod.snd).dedup).map (rowFlushes w k et kk)).sum := by
  unfold gathFlushes
  split
  · rename_i hoff
    have hzero : rowFlushes w k et kk = fun _ => 0 := by funext r; simp [rowFlushes, flushIn_off hoff]
    simp [hzero]
  · refine congrArg List.sum (List.map_congr_left fun r hr => congrArg List.length (List.filter_congr fun p _ => ?_))
    obtain ⟨g, hm, rfl⟩ := List.mem_map.1 (List.mem_dedup.1 hr)
    rw [Bool.eq_iff_iff, List.any_eq_true]
    constructor
    · rintro ⟨g', hm', hflush⟩
      rw [Bool.and_eq_true, decide_eq_true_eq] at hflush
      rw [gathRow_eq hw k g'.1 (hg g hm)] at hflush
      exact hflush.2
    · intro hflush
      refine ⟨g, hm, ?_⟩
      rw [gathRow_eq hw k g.1 (hg g hm)]
      simpa using hflush

/-- Units of rows, each named once, do not depend on how often a row is. -/
theorem dedup_map_dedup {α β : Type} [DecidableEq α] [DecidableEq β] (f : α → β) (l : List α) : (l.dedup.map f).dedup = (l.map f).dedup := by
  induction l with
  | nil => rfl
  | cons a l ih =>
    by_cases ha : a ∈ l
    · rw [List.dedup_cons_of_mem ha, ih, List.map_cons, List.dedup_cons_of_mem (List.mem_map_of_mem ha)]
    · rw [List.dedup_cons_of_notMem ha, List.map_cons, List.map_cons, List.dedup_cons, List.dedup_cons, ih]
      simp only [List.mem_map, List.mem_dedup]

/-! ## The multiply words (R143-R148) -/

/-- What the checks of a multiply word leave of it as captured: they take its shapes and its units. -/
theorem mulChk_word {op : MulOp} {acc a b tx c : Nat} {f : BitVec 3} {s : State} {x : Ctx} {w0 w : QWord}
    (h : mulChk op acc a b tx f s c x w0 = .ok w) : ∃ shapes units, w = { w0 with shapes := shapes, units := units } := by
  unfold mulChk chkTiles at h
  simp only at h
  split at h
  · cases h
  · split at h
    · cases h
    · split at h
      · cases h
      · cases h; exact ⟨_, _, rfl⟩

/-- A multiply word run where nothing marked lies in the core. -/
theorem mulRun_clean {op : MulOp} {acc a b tx c : Nat} {f : BitVec 3} {u u2 : State} {y : Ctx} {w : QWord} {rows : List Nat}
    (hy : u.ctx c = some y) (hgath : w.gath = []) (hbook : w.book = none)
    (hrows : rows = ((gathered op w (u.core c) tx (List.range (w.rows a))).map Prod.snd).dedup)
    (hu2 : u2 = touchUnits u c y.me ((rows.map spadUnit).dedup)) (hclean : (u2.core c).clean) :
    mulRun op acc a b tx f u c w = .done (mulOut u2 c y w op acc a b tx f rows) := by
  obtain ⟨htile, hacc, hspad⟩ := hclean
  have hlt : ∀ g ∈ gathered op w (u.core c) tx (List.range (w.rows a)), g.2 < 8192 := fun g => gathered_lt
  have htouch : (if w.gath.isEmpty then touchUnits u c y.me
      (((gathered op w (u.core c) tx (List.range (w.rows a))).map (fun g => spadUnit g.2)).dedup) else u) = u2 := by
    rw [hgath, hu2, hrows, dedup_map_dedup, List.map_map]
    rfl
  have hflush := gathFlushes_eq (u2.core c) (w.et a) (mulK (mulSparse op f w.fmt) w a b) hgath hlt
  rw [← hrows] at hflush
  unfold mulRun
  simp only [hy, htouch, poisonedTile_clean htile, poisonedGath_clean hgath hspad hlt, poisonedAcc_none hacc, ite_self, hbook, hflush,
    Option.getD_none]
  unfold mulOut mulFlushes mulSkips mulRows
  simp only [List.foldl_map, List.map_map]
  rfl

/-- A multiply word of an idle strand completes as it runs. -/
theorem multiply_done {s u u2 : State} {x y : Ctx} {i : Instr} {op : MulOp} {acc a b tx : Nat} {f : BitVec 3} {vals : List Dword}
    {pops rows : List Nat} {w : QWord} (hst : i.still = true) (h : Idle s x)
    (hp : Passes s x i { eng := .m } (mulChk op acc a b tx f) vals pops w)
    (hu : u = touchUnits (s.entered x { eng := .m } w pops) s.cur x.me w.units) (hy : u.ctx s.cur = some y)
    (hrows : rows = ((gathered op w (u.core s.cur) tx (List.range (w.rows a))).map Prod.snd).dedup)
    (hu2 : u2 = touchUnits u s.cur y.me ((rows.map spadUnit).dedup)) (hclean : (u2.core s.cur).clean) :
    issue i { eng := .m } (mulChk op acc a b tx f) noAct (mulRun op acc a b tx f) s = .next (mulOut u2 s.cur y w op acc a b tx f rows) := by
  obtain ⟨_, _, _, _, hq6⟩ := hp.same
  obtain ⟨_, _, hw⟩ := mulChk_word hp.check
  have hv : w = (x.enrol { eng := .m } (s.tenant x.tenant).scap w).2 := by
    rw [Ctx.enrol_plain x _ w rfl rfl rfl, ← hq6]
  exact word_plain (r := { sp := { eng := .m }, chk := mulChk op acc a b tx f, out := fun _ c z v => mulOut u2 c z v op acc a b tx f rows })
    h hp hv hu (acts_none h) hst rfl (mulRun_clean hy (by rw [hw]; rfl) (by rw [hw]; rfl) hrows hu2 hclean)

/-- Settles O12: each multiply word runs to its sums, flushes and skips. -/
theorem multiplyWords : Obligations.MultiplyWords := by
  intro s u u2 x y i op acc a b tx f vals pops rows w hi h hp hu hy hrows hu2 hclean
  cases i
  case mma => cases hi; exact multiply_done rfl h hp hu hy hrows hu2 hclean
  case mmaSp => cases hi; exact multiply_done rfl h hp hu hy hrows hu2 hclean
  case mmaG => cases hi; exact multiply_done rfl h hp hu hy hrows hu2 hclean
  all_goals cases hi

end Sys2Proof.Machine
end

section
/-! SUPPORT. Control flow (R104-R107): where each word sends capture on as it passes. Settles O8. -/

namespace Sys2Proof.Machine

/-- Capture goes on elsewhere beside the words waiting and started (R106). -/
theorem blind_goTo (target : Nat) : Blind (fun x => x.goTo target) :=
  ⟨fun _ => rfl, fun _ => rfl, fun _ => rfl, fun _ => rfl, fun _ _ => rfl⟩

/-- So does a loop level open (R105). -/
theorem blind_openLoop (k trips waddr last : Nat) : Blind (fun x => x.openLoop k trips waddr last) := by
  by_cases h : trips = 0
  · simp only [Ctx.openLoop, h, if_true]
    exact ⟨fun _ => rfl, fun _ => rfl, fun _ => rfl, fun _ => rfl, fun _ _ => rfl⟩
  · simp only [Ctx.openLoop, h, if_false]
    exact ⟨fun _ => rfl, fun _ => rfl, fun _ => rfl, fun _ => rfl, fun _ _ => rfl⟩

/-- One change after another leaves the words apart as both do. -/
theorem Blind.comp {f g : Ctx → Ctx} (hf : Blind f) (hg : Blind g) : Blind (fun x => g (f x)) :=
  ⟨fun y => (hg.qs _).trans (hf.qs y), fun y => (hg.fly _).trans (hf.fly y), fun y => (hg.me _).trans (hf.me y),
    fun y => (hg.held _).trans (hf.held y), fun y q => by rw [hf.apart, hg.apart]⟩

/-- The row pointer of a loop is taken, RPNEG noted where it is the smaller (R105). -/
theorem blind_rpbase (p : Dword) :
    Blind (fun x => { (if p.toNat < x.rpbase.toNat then x.stick stRPNEG else x) with rpbase := p }) := by
  constructor
  case apart => intro y q; simp only; split <;> rfl
  all_goals intro y; simp only; split <;> rfl

/-- `end` closes capture of its span (R107). -/
theorem blind_ending : Blind (fun x => { x with ending := true }) :=
  ⟨fun _ => rfl, fun _ => rfl, fun _ => rfl, fun _ => rfl, fun _ _ => rfl⟩

/-- A word that is no operation, changes its context as it passes capture, and finishes. -/
theorem word_ctx {r : WordSpec} {run : RunFn} {i : Instr} {s u : State} {x y : Ctx} {vals : List Dword} {pops : List Nat}
    {w v : QWord} {g : QWord → Ctx → Ctx} (h : Idle s x) (hp : Passes s x i r.sp r.chk vals pops w)
    (hv : v = (x.enrol r.sp (s.tenant x.tenant).scap w).2)
    (hu : u = touchUnits (passing r.sp r.act (s.entered x r.sp w pops) s.cur v) s.cur x.me w.units)
    (hact : r.act = fun t c q => t.modCtx c (g q)) (hg : Blind (g v)) (hst : i.still = true) (hm : r.sp.mem = false)
    (hr : run u s.cur v = .done (r.out u s.cur y v)) : issue i r.sp r.chk r.act run s = .next (r.out u s.cur y v) := by
  obtain ⟨-, hseqr, -⟩ := Passes.word h hp hv
  refine word_plain h hp hv hu (fun y0 hy0 => ?_) hst hm hr
  rw [hact]
  exact acts_ctx hg (hseqr hm) y0 hy0

/-- Each row's word sends capture on as it passes; `call` then writes its link register, and `end` waits. -/
theorem flowWords_complete : WordsComplete flowWords := by
  intro s u x y i r vals pops w v hr h hp hv hu _ _
  cases i
  case br p t d => cases hr; exact word_ctx (run := runBr) (y := y) h hp hv hu rfl (blind_goTo _) rfl rfl rfl
  case jmp d => cases hr; exact word_ctx (run := runJmp) (y := y) h hp hv hu rfl (blind_goTo _) rfl rfl rfl
  case call d => cases hr; exact word_ctx (run := runCall) (y := y) h hp hv hu rfl (blind_goTo _) rfl rfl rfl
  case jr a => cases hr; exact word_ctx (run := runJr) (y := y) h hp hv hu rfl (blind_goTo _) rfl rfl rfl
  case loopT l n len => cases hr; exact word_ctx (run := runLoopT) (y := y) h hp hv hu rfl (blind_openLoop _ _ _ _) rfl rfl rfl
  case loopRp l q len =>
    cases hr
    exact word_ctx (run := runLoopRp) (y := y) h hp hv hu rfl ((blind_rpbase (op0 v)).comp (blind_openLoop _ _ _ _)) rfl rfl rfl
  case endw =>
    cases hr
    obtain ⟨-, hseqr, -⟩ := Passes.word h hp hv
    exact word_still (run := runEndw) h hp hv hu (acts_ctx (g := fun _ z => { z with ending := true }) blind_ending (hseqr rfl)) rfl
      (fun _ _ => rfl)
  all_goals cases hr

end Sys2Proof.Machine

namespace Sys2Proof

/-- Settles O8: every word of the table completes. -/
theorem flowWords : Obligations.FlowWords := Machine.flowWords_complete

end Sys2Proof
end

section
/-! SUPPORT. Predicates and selection (R95, R96): what the words leave of every predicate, and the ports that a selection pops.
Settles O50 and O51. -/

namespace Sys2Proof.Machine

/-! ## Predicate words -/

/-- A word that names no byte clashes with none before it (R196). -/
theorem clashesBefore_footless {t : State} {c : Nat} {x : Ctx} {w : QWord} (hst : w.instr.still = true) (hf : w.foot = []) :
    t.clashesBefore c x w = false := by
  unfold State.clashesBefore
  rw [State.placed_still t c x.tenant hst]
  simp [QWord.clashes, hf]

/-- A predicate word of an idle strand passes capture: it reads no operand, pushes nothing and waits for nothing. -/
theorem passes_pred {s : State} {x : Ctx} {i : Instr} (h : Idle s x) (hst : i.still = true) (d a b : BitVec 7) :
    Passes s x i (predSpec d a b) noChk [] [] (mkWord x i (predSpec d a b) []) where
  priv h := by cases h
  dest _ h := by cases h
  credit := rfl
  read := rfl
  handle h := by cases h
  check := rfl
  room := h.elems
  order := by rw [Ctx.enrol_plain x _ _ rfl rfl rfl]; rfl
  apart t := by rw [Ctx.enrol_plain x _ _ rfl rfl rfl]; exact clashesBefore_footless hst rfl
  gate := .inl rfl
  same := ⟨rfl, rfl, rfl, rfl, rfl⟩

/-- A word that takes nothing of its context enters with its predicates as they are. -/
theorem entered_pred {s : State} {x : Ctx} {sp : CapSpec} (hx : s.ctx s.cur = some x) (w : QWord) (pops : List Nat) :
    ∃ y, (s.entered x sp w pops).ctx s.cur = some y ∧ y.p = x.p := by
  obtain ⟨y0, hy0, q6, ch, rfl⟩ := popPorts_ctx s.cur pops (endStall s s.cur x) x (by rw [endStall_ctx]; exact hx)
  refine ⟨_, (congrArg (fun t => State.ctx t s.cur) (State.modCtx_of (s.popped x pops) hy0 _)).trans (State.ctx_setCtx_self _ _ _), ?_⟩
  obtain ⟨q, e, r, sq, henr⟩ := Ctx.enrol_eq { x with q6 := q6, chans := ch } sp (s.tenant x.tenant).scap w
  rw [henr]
  cases sp.jump
  · rfl
  · rfl

/-- A predicate word of an idle strand writes its predicate, p0 apart, and no other. -/
theorem predWord_writes {s : State} {x : Ctx} {i : Instr} {d a b : BitVec 7} {f : Pred → Pred → Pred} (h : Idle s x)
    (hst : i.still = true) (hr : stateWords i = predRow d a b f) :
    ∃ t y, exec i s = .next t ∧ t.ctx s.cur = some y ∧
      ∀ k, y.pred k = if k = d.toNat ∧ k ≠ 0 then f (x.pred a.toNat) (x.pred b.toNat) else x.pred k := by
  obtain ⟨y, hy, hpred⟩ := entered_pred (sp := predSpec d a b) h.resident (mkWord x i (predSpec d a b) []) []
  have hsame : ∀ k, y.pred k = x.pred k := fun k => by rw [Ctx.pred, Ctx.pred, hpred]
  refine ⟨_, y.setPred d.toNat (f (y.pred a.toNat) (y.pred b.toNat)),
    stateWords_complete s _ x y i _ [] [] _ _ hr h (passes_pred h hst d a b) rfl rfl hy trivial, ?_, fun k => ?_⟩
  · refine (State.ctx_modCtx_self _ s.cur _).trans ?_
    exact congrArg (Option.map _) hy
  · rw [Ctx.pred_setPred, hsame, hsame, hsame]
    by_cases hk : d.toNat = k
    · subst hk; simp
    · simp [hk, Ne.symm hk]

end Sys2Proof.Machine

namespace Sys2Proof
open Machine

/-- Settles O50: the words are the rows' encodings, and each writes its predicate from those it reads; p0, which reads as all
ones, leaves `pandn` the complement. -/
theorem predicateLogic : Obligations.PredicateLogic := by
  refine ⟨fun d a b => ⟨decodeOfEncode (.pand d a b) _ rfl rfl, decodeOfEncode (.por d a b) _ rfl rfl,
    decodeOfEncode (.pxor d a b) _ rfl rfl, decodeOfEncode (.pandn d a b) _ rfl rfl⟩, fun s x d a b h => ?_⟩
  refine ⟨rfl, predWord_writes h (i := .pand d a b) rfl rfl, predWord_writes h (i := .por d a b) rfl rfl,
    predWord_writes h (i := .pxor d a b) rfl rfl, predWord_writes (i := .pandn d a b) (f := fun p q => p &&& ~~~q) h rfl rfl, ?_⟩
  obtain ⟨t, y, hexec, hy, hpred⟩ := predWord_writes (i := .pandn d 0 a) (f := fun p q => p &&& ~~~q) h rfl rfl
  refine ⟨t, y, hexec, hy, fun hd => ?_⟩
  have hd0 : d.toNat ≠ 0 := fun h0 => hd (BitVec.eq_of_toNat_eq h0)
  rw [hpred, if_pos ⟨rfl, hd0⟩]
  exact BitVec.allOnes_and
end Sys2Proof

namespace Sys2Proof.Machine

/-! ## Selection -/

/-- An operand read from a port pops it (R40). -/
theorem readOne_pops {s : State} {c : Nat} {x : Ctx} {n k : Nat} {v : List Dword} {p : List Nat} (h : readOne s c x n k = .ok v p)
    (hlo : 48 ≤ k) (hhi : k ≤ 55) : k ∈ p := by
  unfold readOne at h
  rw [if_neg (by omega), if_neg (by omega)] at h
  by_cases hchan : k < 54
  · rw [if_pos hchan] at h
    split at h
    · cases h
    · split at h
      · cases h
      · split at h
        · cases h; exact List.mem_singleton_self k
        · cases h
  · rw [if_neg hchan] at h
    by_cases hq6 : k = 54
    · subst hq6
      rw [if_pos rfl] at h
      split at h
      · cases h
      · split at h
        · cases h
        · split at h
          · cases h
          · split at h
            · cases h; exact List.mem_singleton_self 54
            · cases h
    · obtain rfl : k = 55 := by omega
      rw [if_neg hq6, if_pos rfl] at h
      split at h
      · cases h; exact List.mem_singleton_self 55
      · cases h

/-- Ports once popped stay among those popped, and every port that an operand names is one (R32 step 4). -/
theorem readAll_pops {s : State} {c : Nat} {x : Ctx} (ks : List Nat) : ∀ {vals vals' : List Dword} {pops pops' : List Nat},
    readAll s c x ks vals pops = .ok vals' pops' → pops ⊆ pops' ∧ ∀ k ∈ ks, 48 ≤ k → k ≤ 55 → k ∈ pops' := by
  induction ks with
  | nil => intro vals vals' pops pops' h; cases h; exact ⟨List.Subset.refl _, fun _ hk => by cases hk⟩
  | cons k ks ih =>
    intro vals vals' pops pops' h
    rw [readAll] at h
    split at h
    case h_1 v p hone =>
      obtain ⟨hsub, hmem⟩ := ih h
      refine ⟨fun _ hq => hsub (List.mem_append_left _ hq), fun j hj hlo hhi => ?_⟩
      rcases List.mem_cons.1 hj with rfl | hj
      · exact hsub (List.mem_append_right _ (readOne_pops hone hlo hhi))
      · exact hmem j hj hlo hhi
    case h_2 hnot => exact absurd h (hnot _ _)

end Sys2Proof.Machine

namespace Sys2Proof
open Machine

/-- Settles O51: `csel` is one of the words that O3 describes, and reading its operands pops their ports. -/
theorem selectWord : Obligations.SelectWord := by
  refine ⟨fun d a b p hd => decodeOfEncode (.csel d a b p) _ rfl hd, fun s x d a b p vals pops h hread hdst => ⟨?_, _, rfl, ?_⟩⟩
  · intro k hlo hhi hk
    refine (readAll_pops _ hread).2 k ?_ hlo hhi
    simpa using hk
  · exact readingWords s x (.csel d a b p) _ vals pops rfl h hread hdst

end Sys2Proof
end

section
/-! SUPPORT. Words of global memory at their home slice (R102, R183, R205). Settles O32. -/

namespace Sys2Proof.Machine

/-- A word is read from its bytes alone (R4). -/
theorem State.readN_congr {s t : State} (h : ∀ a, t.byte a = s.byte a) (n : Nat) : ∀ a, t.readN a n = s.readN a n := by
  induction n with
  | zero => exact fun _ => rfl
  | succ n ih => intro a; simp only [State.readN, h, ih]

@[simp] theorem State.writeN_cores (n : Nat) : ∀ (s : State) (a v : Nat), (s.writeN a n v).cores = s.cores := by
  induction n with
  | zero => intro s a v; rfl
  | succ n ih => intro s a v; exact ih _ _ _

/-- A state with the bytes of one in which a word was stored: the word reads as stored, and every byte outside it as before. -/
theorem State.stored_bytes {s t : State} {a n v : Nat} (h : ∀ b, t.byte b = (s.writeN a n v).byte b) :
    t.readN a n = v % 2 ^ (8 * n) ∧ ∀ b, (b < a ∨ a + n ≤ b) → t.byte b = s.byte b := by
  refine ⟨?_, fun b hb => (h b).trans (State.byte_writeN_out n s a v b hb)⟩
  rw [State.readN_congr h, State.readN_writeN, Nat.pow_mul]

/-- The answer to a packet is on its way back to its source, under the packet's command. -/
theorem State.answer_sent (s : State) (id : Nat) (p : Packet) {r : PKind} (hr : r.kept 4 = false) :
    ∃ n q, Map.at? (s.answer id p r).net n = some q ∧ q.kind = r ∧ q.dst = p.src ∧ q.cmd = p.cmd :=
  ⟨_, _, (State.answer_facts s id p r hr).1, rfl, rfl, rfl⟩

section
variable {s : State} {id sl pa va : Nat} {p : Packet} (ha : s.Arriving id p) (hdst : p.dst = .slice sl)
include ha hdst

/-- A word atomic on sound bytes stores its operation's result and answers the old value (R183). -/
theorem exec_sliceAtomic {op size : Nat} {b c : Dword} (hkind : p.kind = .atomic op size pa va b c) (hsound : s.poisoned pa size = false) :
    exec (.sliceAtomic id) s = .next (((s.writeN pa size
        (atomicNew op size (s.readN pa size) (b.toNat % 2 ^ (8 * size)) (c.toNat % 2 ^ (8 * size)))).noteLines p.cmd (linesAt pa size)).answer
      id p (.atomicReply (BitVec.ofNat 64 (s.readN pa size)) false va)) := by
  refine (onPacket_of_arriving ha _).trans ?_
  simp only [hkind, hdst, hsound, Bool.false_eq_true, if_false]

/-- A store writes its word, clears the marks of its bytes, and is acknowledged (R102, R205). -/
theorem exec_sliceStore {v : Dword} (hkind : p.kind = .store pa va v) :
    exec (.sliceScalarAccess id) s = .next (((s.writeN pa 8 v.toNat).cleanMem pa 8).ackPkt id p { lines := linesAt pa 8 }) := by
  refine (onPacket_of_arriving ha _).trans ?_
  simp only [hkind, hdst]

/-- A load is answered with its word (R102, R205). -/
theorem exec_sliceLoad (hkind : p.kind = .load pa va) :
    exec (.sliceScalarAccess id) s = .next (s.answer id p (.loadReply (BitVec.ofNat 64 (s.readN pa 8)) (s.poisoned pa 8) va)) := by
  refine (onPacket_of_arriving ha _).trans ?_
  simp only [hkind, hdst]
end

/-- Settles O32: each access is the slice's own read or write, and its answer leaves memory as it is. -/
theorem sliceWords : Obligations.SliceWords := by
  intro s id sl pa va p ha hdst
  refine ⟨?_, ?_, ?_⟩
  · intro op size b c hkind hsound
    obtain ⟨hread, hout⟩ := State.stored_bytes (s := s) fun z =>
      ((Fabric.answer _ id p (.atomicReply (BitVec.ofNat 64 (s.readN pa size)) false va)).byte z).trans
        ((Settled.noteLines _ p.cmd (linesAt pa size)).byte z)
    obtain ⟨n, q, hnet, hreply⟩ := State.answer_sent _ id p (r := .atomicReply (BitVec.ofNat 64 (s.readN pa size)) false va) rfl
    exact ⟨_, n, q, exec_sliceAtomic ha hdst hkind hsound, hread, hout, hnet, hreply⟩
  · intro v hkind
    have hfab := Fabric.ackPkt ((s.writeN pa 8 v.toNat).cleanMem pa 8) id p { lines := linesAt pa 8 }
    obtain ⟨hread, hout⟩ := State.stored_bytes (s := s) fun z => hfab.byte z
    exact ⟨_, exec_sliceStore ha hdst hkind, hread.trans (Nat.mod_eq_of_lt v.isLt), hout,
      hfab.cores.trans (State.writeN_cores 8 s pa v.toNat)⟩
  · intro hkind
    obtain ⟨n, q, hnet, hreply⟩ := State.answer_sent s id p (r := .loadReply (BitVec.ofNat 64 (s.readN pa 8)) (s.poisoned pa 8) va) rfl
    exact ⟨_, n, q, exec_sliceLoad ha hdst hkind, (Fabric.answer s id p _).mem, hnet, hreply⟩

end Sys2Proof.Machine
end

section
/-! SUPPORT. What the walker's own bookkeeping, of launches, queues, loans and borders, leaves of the machine (R288-R290, R294, R295):
one law that the handing out of spans and their ends both cite. -/

namespace Sys2Proof.Machine

/-- A map changed value by value reads as the change of what it read, where the change leaves the value of an unlisted key. -/
theorem Map.get_map {α : Type} (d : α) (f : Nat → α → α) (k : Nat) (hf : f k d = d) (m : Map α) :
    Map.get d (m.map (fun p => (p.1, f p.1 p.2))) k = f k (Map.get d m k) := by
  induction m with
  | nil => exact hf.symm
  | cons p t ih =>
    obtain ⟨j, v⟩ := p
    by_cases h : j = k
    · subst h; simp [Map.get]
    · simp [Map.get, h, ih]

/-- What the walker's bookkeeping leaves of the state: memory and time, of a core all but its loan, its border and since when it is
free, of a tenant all but its launches and queues. -/
structure Booked (s t : State) : Prop where
  rest : t = { s with cores := t.cores, tenants := t.tenants, served := t.served }
  core : ∀ c, t.core c = { s.core c with lent := (t.core c).lent, freeAt := (t.core c).freeAt, part := (t.core c).part }
  tenant : ∀ k, t.tenant k = { s.tenant k with launches := (t.tenant k).launches, queues := (t.tenant k).queues }

theorem Booked.refl (s : State) : Booked s s := ⟨rfl, fun _ => rfl, fun _ => rfl⟩

theorem Booked.trans {s t u : State} (h : Booked s t) (g : Booked t u) : Booked s u := by
  refine ⟨?_, fun c => ?_, fun k => ?_⟩
  · have a := h.rest; have b := g.rest
    rw [a] at b; exact b
  · have a := h.core c; have b := g.core c
    rw [a] at b; exact b
  · have a := h.tenant k; have b := g.tenant k
    rw [a] at b; exact b

theorem Booked.served (s : State) (n : Nat) : Booked s { s with served := n } := ⟨rfl, fun _ => rfl, fun _ => rfl⟩

theorem Booked.modTenant (s : State) (k : Nat) {f : Tenant → Tenant}
    (hf : ∀ v, f v = { v with launches := (f v).launches, queues := (f v).queues }) : Booked s (s.modTenant k f) := by
  refine ⟨rfl, fun _ => rfl, fun j => ?_⟩
  by_cases h : k = j
  · subst h; rw [State.tenant_modTenant_self]; exact hf _
  · rw [State.modTenant, State.tenant_setTenant_ne _ _ h]

theorem Booked.modLaunch (s : State) (k lid : Nat) (f : Launch → Launch) : Booked s (s.modLaunch k lid f) := .modTenant s k fun _ => rfl
theorem Booked.popLaunch (s : State) (k lid : Nat) : Booked s (s.popLaunch k lid) := .modTenant s k fun _ => rfl

/-- A core as the end of a launch's loans leaves it: free, where it was lent to the launch, holds no span, and none is left for it. -/
def State.unlend (s : State) (k lid c : Nat) (q : Core) : Core :=
  if q.res.isNone && decide (q.lent = some (k, lid)) && !s.placesOn k lid (dieOf c) then { q with lent := none, freeAt := s.cycle } else q

/-- The end of a launch's loans looks at every core (R295). -/
theorem State.core_endLoans (s : State) (k lid c : Nat) : (s.endLoans k lid).core c = s.unlend k lid c (s.core c) := by
  have hfree : s.unlend k lid c {} = {} := if_neg (by simp)
  exact Map.get_map {} (s.unlend k lid) c hfree s.cores

theorem State.unlend_eq (s : State) (k lid c : Nat) (q : Core) : ∃ b n, s.unlend k lid c q = { q with lent := b, freeAt := n } := by
  unfold State.unlend
  split
  · exact ⟨_, _, rfl⟩
  · exact ⟨q.lent, q.freeAt, rfl⟩

theorem Booked.endLoans (s : State) (k lid : Nat) : Booked s (s.endLoans k lid) := by
  refine ⟨rfl, fun c => ?_, fun _ => rfl⟩
  rw [State.core_endLoans]
  obtain ⟨b, n, e⟩ := s.unlend_eq k lid c (s.core c)
  rw [e]

theorem Booked.frontError (s : State) (k lid cause : Nat) : Booked s (s.frontError k lid cause) :=
  (((Booked.modLaunch s k lid _).trans (.popLaunch _ _ _)).trans (.endLoans _ _ _)).trans (.served _ _)

theorem Booked.advance (s : State) (k lid : Nat) (l : Launch) (v : List Nat) : Booked s (s.advance k lid l v) := by
  unfold State.advance
  simp only
  split
  · exact (Booked.modLaunch s _ _ _).trans (.frontError _ _ _ _)
  · exact (((Booked.modLaunch s _ _ _).trans (.modLaunch _ _ _ _)).trans (.popLaunch _ _ _)).trans (.endLoans _ _ _)
  · exact ((Booked.modLaunch s _ _ _).trans (.modLaunch _ _ _ _)).trans (.endLoans _ _ _)

/-- A border stays, or passes at its core (R294). -/
theorem State.moveBorder_cases (s : State) (need : List (Nat × Nat)) (c : Nat) :
    s.moveBorder need c = s ∨ ∃ b n, s.moveBorder need c = s.setCore c { s.core c with part := b, freeAt := n } := by
  have hite : ∀ (b : Bool) (t : State), (t = s ∨ ∃ b n, t = s.setCore c { s.core c with part := b, freeAt := n }) →
      ((if b then s else t) = s ∨ ∃ b' n, (if b then s else t) = s.setCore c { s.core c with part := b', freeAt := n }) := by
    intro b t h
    cases b
    · exact h
    · exact .inl rfl
  unfold State.moveBorder
  refine hite _ _ (hite _ _ ?_)
  split
  · exact .inl rfl
  · exact .inr ⟨_, _, rfl⟩

theorem Booked.moveBorder (s : State) (need : List (Nat × Nat)) (c : Nat) : Booked s (s.moveBorder need c) := by
  rcases s.moveBorder_cases need c with e | ⟨b, n, e⟩
  · rw [e]; exact .refl s
  · rw [e]
    refine ⟨rfl, fun d => ?_, fun _ => rfl⟩
    by_cases h : c = d
    · subst h; rw [State.core_setCore_self]
    · rw [State.core_setCore_ne _ _ h]

section
variable {s t : State} (h : Booked s t)
include h
theorem Booked.mem : t.mem = s.mem := by rw [h.rest]
theorem Booked.cycle : t.cycle = s.cycle := by rw [h.rest]
theorem Booked.ctx (c : Nat) : t.ctx c = s.ctx c := by unfold State.ctx; rw [h.core c]
theorem Booked.sus (c : Nat) : (t.core c).sus = (s.core c).sus := by rw [h.core c]
end

end Sys2Proof.Machine
end

section
/-! SUPPORT. SPAN_HANDOFF (R90, R289, R290): the state in which a span starts, and what placing a gang leaves. Settles O38. -/

namespace Sys2Proof.Machine

/-! ## One span starts -/

/-- Units claimed on a core for its suspended context: nothing of another core changes, nor of the core but its units. -/
theorem Kept1.claimSpill (s : State) (c : Nat) (us : List Nat) : Kept1 c s (s.claimSpill c us) := by
  unfold State.claimSpill
  split
  · exact .refl c s
  · exact Kept1.touchUnits c _ _ s

/-- The start of a span leaves every other core, the contexts suspended, and of a tenant all but its launches; memory is written
where units of a suspended context are claimed alone. -/
structure Started (c : Nat) (x : Ctx) (s t : State) : Prop where
  ctx : t.ctx c = some x
  others : ∀ d, d ≠ c → t.core d = s.core d
  sus : ∀ d, (t.core d).sus = (s.core d).sus
  tenant : ∀ k, t.tenant k = { s.tenant k with launches := (t.tenant k).launches }
  mem : (s.core c).sus = none → t.mem = s.mem

/-- The start of a span claims units, then changes its core, and lists its launch's code. -/
theorem startSpan_eq (s : State) (c k lid : Nat) (l : Launch) (v : List Nat) (n : Nat) : ∃ g f,
    (∀ q, g q = { q with res := some (startCtx s c k lid l v n), ended := (g q).ended, nextUid := (g q).nextUid, kept := (g q).kept,
                         spilling := (g q).spilling }) ∧
    startSpan s c k lid l v n = ((s.claimSpill c (toSpill s c k l)).modCore c g).modLaunch k lid f :=
  ⟨_, _, fun _ => rfl, rfl⟩

theorem State.tenant_modLaunch (s : State) (k lid : Nat) (f : Launch → Launch) (j : Nat) :
    (s.modLaunch k lid f).tenant j = { s.tenant j with launches := ((s.modLaunch k lid f).tenant j).launches } := by
  by_cases h : k = j
  · subst h; rw [State.modLaunch, State.tenant_modTenant_self]
  · rw [State.modLaunch, State.modTenant, State.tenant_setTenant_ne _ _ h]

theorem startSpan_started (s : State) (c k lid : Nat) (l : Launch) (v : List Nat) (n : Nat) :
    Started c (startCtx s c k lid l v n) s (startSpan s c k lid l v n) := by
  have hclaim := Kept1.claimSpill s c (toSpill s c k l)
  obtain ⟨g, f, hg, he⟩ := startSpan_eq s c k lid l v n
  rw [he]
  have hself : (((s.claimSpill c (toSpill s c k l)).modCore c g).modLaunch k lid f).core c = g ((s.claimSpill c (toSpill s c k l)).core c) :=
    State.core_modCore_self _ _ _
  have hothers : ∀ d, d ≠ c → (((s.claimSpill c (toSpill s c k l)).modCore c g).modLaunch k lid f).core d = s.core d := fun d hd =>
    (State.core_modCore_ne _ _ (Ne.symm hd)).trans (hclaim.others d (Ne.symm hd))
  refine ⟨?_, hothers, fun d => ?_, fun j => ?_, fun hnone => ?_⟩
  · unfold State.ctx
    rw [hself, hg]
  · by_cases h : d = c
    · subst h
      obtain ⟨_, _, _, _, _, _, _, _, _, _, e⟩ := hclaim.core
      rw [hself, hg, e]
    · rw [hothers d h]
  · have hten : ((s.claimSpill c (toSpill s c k l)).modCore c g).tenant j = s.tenant j := by unfold State.tenant; rw [← hclaim.tenants]; rfl
    rw [State.tenant_modLaunch, hten]
  · show (s.claimSpill c (toSpill s c k l)).mem = s.mem
    unfold State.claimSpill
    rw [hnone]

/-! ## The spans of a gang start -/

/-- A context is a span of the launch as R90 starts it: at its entry, of its tenant and number, its registers reading 0. -/
structure SpanOf (v : Served) (y : Ctx) : Prop where
  pc : y.pc = v.l.entry
  tenant : y.tenant = v.tenant
  lid : y.lid = v.lid
  gang : y.gang = v.l.gang
  regs : y.n = []

/-- Spans of a launch have started on some cores, and those that had started before still stand. -/
structure GangStarted (v : Served) (cores : List Nat) (s t : State) : Prop where
  ctx : ∀ c, (c ∈ cores ∨ ∃ y, s.ctx c = some y ∧ SpanOf v y) → ∃ y, t.ctx c = some y ∧ SpanOf v y
  sus : ∀ d, (t.core d).sus = (s.core d).sus
  mem : (∀ c ∈ cores, (s.core c).sus = none) → t.mem = s.mem

theorem GangStarted.nil (v : Served) (s : State) : GangStarted v [] s s :=
  ⟨fun _ h => h.resolve_left List.not_mem_nil, fun _ => rfl, fun _ => rfl⟩

/-- One span more starts first. -/
theorem GangStarted.cons {v : Served} {c n : Nat} {p cores : List Nat} {s t : State}
    (h : GangStarted v cores (startSpan s c v.tenant v.lid v.l p n) t) : GangStarted v (c :: cores) s t := by
  have hone := startSpan_started s c v.tenant v.lid v.l p n
  refine ⟨fun d hd => h.ctx d ?_, fun d => (h.sus d).trans (hone.sus d), fun hnone => ?_⟩
  · by_cases hc : d = c
    · subst hc
      exact .inr ⟨_, hone.ctx, ⟨rfl, rfl, rfl, rfl, rfl⟩⟩
    · refine hd.imp (fun hm => (List.mem_cons.1 hm).resolve_left hc) fun ⟨y, hy, hspan⟩ => ⟨y, ?_, hspan⟩
      unfold State.ctx
      rw [hone.others d hc]
      exact hy
  · rw [h.mem fun d hd => (hone.sus d).trans (hnone d (List.mem_cons_of_mem _ hd)), hone.mem (hnone c List.mem_cons_self)]

theorem gangStarted_foldl (v : Served) (ps : List ((Nat × List Nat) × Nat)) : ∀ s, GangStarted v (ps.map fun p => p.1.1) s
    (ps.foldl (fun q p => startSpan q p.1.1 v.tenant v.lid v.l p.1.2 p.2) s) := by
  induction ps with
  | nil => exact fun s => .nil v s
  | cons p ps ih => exact fun s => (ih _).cons

/-- A gang without a missing peer starts on all of its cores, and b0 is configured for them (R290). -/
theorem placeGang_started {s : State} {v : Served} {cs : List (Nat × List Nat)} (hpeers : peerMissing v.l (cs.map fun p => p.1) = false) :
    GangStarted v (cs.map fun p => p.1) s (placeGang s v cs) ∧ ((placeGang s v cs).tenant v.tenant).b0gang = some v.lid ∧
      ((placeGang s v cs).tenant v.tenant).bar 0 = { parts := partBits (cs.map fun p => p.1), conf := true } := by
  have hstart := gangStarted_foldl v cs.zipIdx s
  have hcores : cs.zipIdx.map (fun p => p.1.1) = cs.map fun p => p.1 := by
    exact List.map_map.symm.trans (congrArg (List.map fun p => p.1) (List.zipIdx_map_fst 0 cs))
  rw [hcores] at hstart
  unfold placeGang
  rw [hpeers]
  simp only [Bool.false_eq_true, if_false]
  generalize cs.zipIdx.foldl _ s = s1 at hstart ⊢
  generalize hs3 : (s1.modLaunch v.tenant v.lid _).modTenant v.tenant _ = s3
  have hbook : Booked s3 ((s3.popLaunch v.tenant v.lid).endLoans v.tenant v.lid) := (Booked.popLaunch s3 _ _).trans (.endLoans _ _ _)
  subst hs3
  refine ⟨⟨fun c hc => ?_, fun d => (hbook.sus d).trans (hstart.sus d), fun hnone => hbook.mem.trans (hstart.mem hnone)⟩, ?_, ?_⟩
  · rw [hbook.ctx]
    exact hstart.ctx c hc
  · rw [hbook.tenant, State.tenant_modTenant_self]
  · rw [hbook.tenant, State.tenant_modTenant_self]
    exact Map.get_ins_self _ _ _ _

/-! ## The hand-off -/

/-- The walker has served a queue of a tenant, and has assigned a core at a cycle. -/
def State.turned (s : State) (v : Served) (n : Nat) : State :=
  { s.modTenant v.tenant (fun t => { t with rrobin := v.queue }) with served := n }

theorem State.turned_rrobin (s : State) (v : Served) (n : Nat) : ((s.turned v n).tenant v.tenant).rrobin = v.queue :=
  congrArg Tenant.rrobin (State.tenant_modTenant_self s v.tenant fun t => { t with rrobin := v.queue })

section
variable {s : State} {c due : Nat} {v : Served} (hwalk : s.walkError = none) (hhand : s.handoff = some (v, c, due)) (hdue : due ≤ s.cycle)
include hwalk hhand hdue

/-- A hand-off that is due, of a launch that is no gang, starts its next span. -/
theorem exec_spanHandoff_span {p : List Nat} (hgang : v.l.gang = false) (hpos : v.l.pos = some p) : exec (.spanHandoff c) s =
    .next ((startSpan (s.turned v (assignedAt s v.l c)) c v.tenant v.lid v.l p v.l.nextSpan).advance v.tenant v.lid v.l p) := by
  show execSpanHandoff c s = _
  unfold execSpanHandoff State.handOver
  simp only [hwalk, hhand, hgang, hpos, ne_eq, not_true_eq_false, decide_false, Bool.false_or, Nat.not_lt.2 hdue, if_false,
    Bool.false_eq_true]
  rfl

/-- One of a gang whose spans all fit places the gang. -/
theorem exec_spanHandoff_gang {cs : List (Nat × List Nat)} (hgang : v.l.gang = true) (hcores : s.gangCores v = some cs) :
    ∃ n, exec (.spanHandoff c) s = .next (placeGang (s.turned v n) v cs) := by
  refine ⟨(cs.map fun p => assignedAt s v.l p.1).foldl Max.max s.served, ?_⟩
  show execSpanHandoff c s = _
  unfold execSpanHandoff State.handOver
  simp only [hwalk, hhand, hgang, hcores, ne_eq, not_true_eq_false, decide_false, Bool.false_or, Nat.not_lt.2 hdue, if_true]
  rfl
end

/-- Settles O38: one span, or every span of a gang, starts, and the walker then notes it. -/
theorem spanHandoff : Obligations.SpanHandoff := by
  intro s c due v hwalk hhand hdue
  refine ⟨fun p hgang hpos => ?_, fun cs hgang hcores hpeers => ?_⟩
  · have hstart := startSpan_started (s.turned v (assignedAt s v.l c)) c v.tenant v.lid v.l p v.l.nextSpan
    have hbook := Booked.advance (startSpan (s.turned v (assignedAt s v.l c)) c v.tenant v.lid v.l p v.l.nextSpan) v.tenant v.lid v.l p
    refine ⟨_, _, exec_spanHandoff_span hwalk hhand hdue hgang hpos, (hbook.ctx c).trans hstart.ctx, fun hnone => hbook.mem.trans (hstart.mem hnone),
      ⟨rfl, rfl, rfl, rfl, rfl, rfl⟩, ⟨rfl, rfl, rfl, rfl, rfl, rfl, rfl, rfl, rfl, rfl, rfl, rfl, rfl, rfl, rfl⟩, fun k hk => ?_, ?_⟩
    · rw [hbook.ctx]
      unfold State.ctx
      rw [hstart.others k hk]
      rfl
    · rw [hbook.tenant, hstart.tenant]
      exact s.turned_rrobin v _
  · obtain ⟨n, hexec⟩ := exec_spanHandoff_gang hwalk hhand hdue hgang hcores
    obtain ⟨hstart, hb0, hbar⟩ := placeGang_started (s := s.turned v n) hpeers
    refine ⟨_, hexec, fun p hp => ?_, hb0, hbar, fun hnone => ?_⟩
    · obtain ⟨y, hy, hpc, htenant, hlid, hyg, hregs⟩ := hstart.ctx p.1 (.inl (List.mem_map_of_mem hp))
      exact ⟨y, hy, hpc, htenant, hlid, hyg.trans hgang, hregs⟩
    · refine hstart.mem fun d hd => ?_
      obtain ⟨p, hp, rfl⟩ := List.mem_map.1 hd
      exact hnone p hp

end Sys2Proof.Machine
end

section
/-! SUPPORT. SPAN_END_COMPLETE (R90, R107, R110, R290): what a span leaves in its core and with its launch, and which launches become
eligible by its end. Settles O23. -/

namespace Sys2Proof.Machine

/-! ## Tokens that come late -/

/-- Counting tokens leaves the machine but for commands and the counts of cores, that of ended spans among what it leaves. -/
structure TokensCounted (s t : State) : Prop where
  rest : t = { s with cmds := t.cmds, cores := t.cores }
  core : ∀ d, t.core d = { s.core d with ev := (t.core d).ev }
  spans : ∀ d, Map.get 0 (t.core d).ev evSPAN = Map.get 0 (s.core d).ev evSPAN

theorem TokensCounted.refl (s : State) : TokensCounted s s := ⟨rfl, fun _ => rfl, fun _ => rfl⟩

theorem TokensCounted.trans {s t u : State} (h : TokensCounted s t) (g : TokensCounted t u) : TokensCounted s u := by
  refine ⟨?_, fun d => ?_, fun d => (g.spans d).trans (h.spans d)⟩
  · have a := h.rest; have b := g.rest
    rw [a] at b; exact b
  · have a := h.core d; have b := g.core d
    rw [a] at b; exact b

theorem TokensCounted.count (s : State) (c n : Nat) : TokensCounted s (s.count c evTOKLEFT n) := by
  unfold State.count
  split
  · exact .refl s
  · refine ⟨rfl, fun d => ?_, fun d => ?_⟩
    · by_cases h : c = d
      · subst h; rw [State.core_modCore_self]; rfl
      · rw [State.core_modCore_ne _ _ h]
    · by_cases h : c = d
      · subst h; rw [State.core_modCore_self]; exact Map.get_put_ne 0 _ _ (by decide)
      · rw [State.core_modCore_ne _ _ h]

theorem TokensCounted.lateTokens (s : State) (c uid word n : Nat) : TokensCounted s (s.lateTokens c uid word n) := by
  unfold State.lateTokens
  split
  · exact ⟨rfl, fun _ => rfl, fun _ => rfl⟩
  · exact .count s c n

theorem TokensCounted.foldl {α : Type} {f : State → α → State} (hf : ∀ s a, TokensCounted s (f s a)) (l : List α) :
    ∀ s, TokensCounted s (l.foldl f s) := by
  induction l with
  | nil => exact fun s => .refl s
  | cons a l ih => exact fun s => (hf s a).trans (ih _)

/-! ## The core and the launch at the end of a span -/

/-- The core as the end of its span leaves it, but for its counts, its loan and its border. -/
def Core.vacated (k : Core) (x : Ctx) (now : Nat) : Core :=
  { k with
    res := none
    ended := some x.closed
    kept := Map.put 0 k.kept x.tenant (endBits x.tokensDue (x.q6.any Elem.produced))
    seqs := keepSeqrs k.seqs x
    lent := if k.quiesce.isSome then k.quiesce else k.lent
    quiesce := none
    freeAt := now }

/-- What the end of a span leaves with its tenant. -/
def Tenant.spanEnded (v : Tenant) (x : Ctx) : Tenant :=
  Tenant.releaseB0 { v with launches := Map.modify v.launches x.lid (fun l => l.spanEnded x) } x.lid

/-- The state at the end of a span, before the walker's bookkeeping: its core is vacated, its launch has one span less. -/
structure SpanLeft (c : Nat) (x : Ctx) (s t : State) : Prop where
  rest : t = { s with cmds := t.cmds, cores := t.cores, tenants := t.tenants }
  core : t.core c = { (s.core c).vacated x s.cycle with ev := (t.core c).ev }
  spans : Map.get 0 (t.core c).ev evSPAN = Map.get 0 (s.core c).ev evSPAN + 1
  others : ∀ d, d ≠ c → t.core d = { s.core d with ev := (t.core d).ev }
  tenant : t.tenant x.tenant = (s.tenant x.tenant).spanEnded x

/-- A vacated core and the tokens counted, the span is counted, too, and noted with its launch. -/
theorem TokensCounted.left {s u : State} {c : Nat} {x : Ctx} (h : TokensCounted (s.setCore c ((s.core c).vacated x s.cycle)) u) :
    SpanLeft c x s (((u.count c evSPAN 1).modLaunch x.tenant x.lid (fun l => l.spanEnded x)).modTenant x.tenant (fun v => v.releaseB0 x.lid)) := by
  have hself : (u.count c evSPAN 1).core c = (u.core c).count evSPAN 1 := State.core_modCore_self u c fun q => q.count evSPAN 1
  have hother : ∀ d, d ≠ c → (u.count c evSPAN 1).core d = u.core d := fun d hd => State.core_modCore_ne u (fun q => q.count evSPAN 1) (Ne.symm hd)
  have htenants : u.tenants = s.tenants := by rw [h.rest]; rfl
  refine ⟨?_, ?_, ?_, fun d hd => ?_, ?_⟩
  · have hrest := h.rest
    generalize hcm : u.cmds = cm at hrest
    generalize hco : u.cores = co at hrest
    rw [hrest]
    rfl
  · show (u.count c evSPAN 1).core c = { (s.core c).vacated x s.cycle with ev := ((u.count c evSPAN 1).core c).ev }
    have hcore := h.core c
    rw [State.core_setCore_self] at hcore
    rw [hself, hcore]
    rfl
  · show Map.get 0 ((u.count c evSPAN 1).core c).ev evSPAN = _
    have hspans := h.spans c
    rw [State.core_setCore_self] at hspans
    rw [hself]
    exact (Map.get_put_self 0 _ _ _).trans (congrArg (· + 1) hspans)
  · show (u.count c evSPAN 1).core d = { s.core d with ev := ((u.count c evSPAN 1).core d).ev }
    rw [hother d hd, h.core d, State.core_setCore_ne _ _ (Ne.symm hd)]
  · rw [State.tenant_modTenant_self, State.modLaunch, State.tenant_modTenant_self]
    have hten : (u.count c evSPAN 1).tenant x.tenant = s.tenant x.tenant := by
      unfold State.tenant
      rw [← htenants]
      rfl
    rw [hten]
    rfl

theorem State.moveBorder_tenants (s : State) (need : List (Nat × Nat)) (c : Nat) : (s.moveBorder need c).tenants = s.tenants := by
  rcases s.moveBorder_cases need c with e | ⟨b, n, e⟩
  · rw [e]
  · rw [e]; rfl

/-- The end of a span is that state, and then a loan ends or a border moves. -/
theorem endSpan_left (s : State) (c : Nat) (x : Ctx) :
    ∃ t, SpanLeft c x s t ∧ Booked t (s.endSpan c x) ∧ (s.endSpan c x).tenants = t.tenants := by
  have htok : TokensCounted (s.setCore c ((s.core c).vacated x s.cycle))
      (((x.unsignalled true).foldl (fun q w => q.lateTokens c x.uid w.seq (maskList w.pfx.signal).length)
        (s.setCore c ((s.core c).vacated x s.cycle))).count c evTOKLEFT (x.tokensDue + x.endTokens)) :=
    (TokensCounted.foldl (fun _ _ => .lateTokens _ _ _ _ _) _ _).trans (.count _ _ _)
  refine ⟨_, htok.left, ?_⟩
  unfold State.endSpan
  simp only
  split
  · exact ⟨.endLoans _ _ _, rfl⟩
  · exact ⟨.moveBorder _ _ _, State.moveBorder_tenants _ _ _⟩

/-! ## Launches that become eligible (R289, R290, R322) -/

theorem Map.mem_of_at? {α : Type} {m : Map α} {k : Nat} {v : α} (h : Map.at? m k = some v) : (k, v) ∈ m := by
  induction m with
  | nil => cases h
  | cons p m ih =>
    obtain ⟨j, u⟩ := p
    unfold Map.at? at h
    by_cases hjk : j = k
    · rw [if_pos hjk] at h
      cases h
      rw [hjk]
      exact List.mem_cons_self
    · rw [if_neg hjk] at h
      exact List.mem_cons_of_mem _ (ih h)

/-- Whether some listed value has a property does not change where a listed value changes and keeps it. -/
theorem Map.any_ins {α : Type} {m : Map α} {k : Nat} {v w : α} (f : α → Bool) (hk : Map.at? m k = some v) (hf : f w = f v) :
    (Map.ins m k w).any (fun p => f p.2) = m.any (fun p => f p.2) := by
  induction m with
  | nil => cases hk
  | cons p m ih =>
    obtain ⟨j, u⟩ := p
    unfold Map.at? at hk
    unfold Map.ins
    by_cases hlt : k < j
    · rw [if_neg (Nat.ne_of_gt hlt)] at hk
      have hin : f v = true → m.any (fun p => f p.2) = true := fun hv => List.any_eq_true.2 ⟨_, Map.mem_of_at? hk, hv⟩
      simp only [hlt, if_true, List.any_cons, hf]
      cases hv : f v
      · rfl
      · simp [hin hv]
    · by_cases hkj : k = j
      · rw [if_pos hkj.symm] at hk
        cases hk
        simp [hkj, hf]
      · rw [if_neg (Ne.symm hkj)] at hk
        simp [hlt, hkj, ih hk]

/-- What makes the head launch of a queue one to be served. -/
def State.mayServe (s : State) (k q : Nat) (l : Launch) : Bool :=
  s.devstat = 4 && s.powered && (s.tenant k).enabled && l.checked && l.elig.isSome && l.result.isNone && l.pos.isSome
    && !(l.gang && (s.tenant k).b0gang.isSome) && !(s.tenant k).holding q

theorem State.eligible_head {s : State} {k q lid : Nat} {l : Launch} (hhead : (Map.get [] (s.tenant k).queues q).head? = some lid)
    (hl : s.launch k lid = some l) : s.eligible k q = if s.mayServe k q l then some ⟨k, q, lid, l⟩ else none := by
  unfold State.eligible
  simp only [hhead, show Map.at? (s.tenant k).launches lid = some l from hl]
  rfl

/-- An eligible launch is the head of its queue, and may be served. -/
theorem State.eligible_some {s : State} {k q : Nat} {v : Served} (h : s.eligible k q = some v) :
    (Map.get [] (s.tenant k).queues q).head? = some v.lid ∧ ∃ l, s.launch k v.lid = some l ∧ s.mayServe k q l = true := by
  cases hhead : (Map.get [] (s.tenant k).queues q).head? with
  | none => simp [State.eligible, hhead] at h
  | some lid =>
    cases hl : s.launch k lid with
    | none => simp [State.eligible, hhead, show Map.at? (s.tenant k).launches lid = none from hl] at h
    | some l =>
      rw [State.eligible_head hhead hl] at h
      split at h
      next hserve => cases h; exact ⟨rfl, l, hl, hserve⟩
      next => cases h

/-- A launch has become the eligible head of one of its tenant's queues. -/
def State.BecameEligible (s t : State) (k lid : Nat) : Prop :=
  ∃ q v, t.eligible k q = some v ∧ v.lid = lid ∧ (s.eligible k q).any (fun o => decide (o.lid = v.lid)) = false

/-- The walker notes the cycle with launches that have become eligible, and with no other. -/
structure Noted (s t u : State) : Prop where
  booked : Booked t u
  launch : ∀ k lid l, t.launch k lid = some l → ∃ m, u.launch k lid = some m ∧
    (m = l ∨ m = { l with elig := some t.cycle } ∧ s.BecameEligible t k lid)

theorem Noted.refl (s t : State) : Noted s t t := ⟨.refl t, fun _ _ l h => ⟨l, h, .inl rfl⟩⟩

/-- A launch changed is read back, and every other one reads as before. -/
theorem State.launch_modLaunch (s : State) (k lid : Nat) (f : Launch → Launch) (j i : Nat) :
    (s.modLaunch k lid f).launch j i = if k = j ∧ lid = i then (s.launch j i).map f else s.launch j i := by
  unfold State.launch State.modLaunch
  by_cases h : k = j
  · subst h
    rw [State.tenant_modTenant_self, Map.at?_modify]
    simp
  · rw [State.modTenant, State.tenant_setTenant_ne _ _ h, if_neg fun hk => h hk.1]

theorem Noted.note {s t u : State} {k q : Nat} {v : Served} (h : Noted s t u) (hv : t.eligible k q = some v)
    (hnew : (s.eligible k q).any (fun o => decide (o.lid = v.lid)) = false) :
    Noted s t (u.modLaunch k v.lid (fun l => { l with elig := some t.cycle })) := by
  refine ⟨h.booked.trans (.modLaunch _ _ _ _), fun j i l hl => ?_⟩
  obtain ⟨m, hm, hcase⟩ := h.launch j i l hl
  rw [State.launch_modLaunch]
  by_cases hji : k = j ∧ v.lid = i
  · obtain ⟨rfl, rfl⟩ := hji
    refine ⟨{ l with elig := some t.cycle }, ?_, .inr ⟨rfl, q, v, hv, rfl, hnew⟩⟩
    rw [if_pos ⟨rfl, rfl⟩, hm]
    rcases hcase with rfl | ⟨rfl, -⟩
    · rfl
    · rfl
  · rw [if_neg hji]
    exact ⟨m, hm, hcase⟩

theorem Noted.foldl {α : Type} {s t : State} {f : State → α → State} (hf : ∀ u a, Noted s t u → Noted s t (f u a)) (l : List α) :
    ∀ {u}, Noted s t u → Noted s t (l.foldl f u) := by
  induction l with
  | nil => exact fun h => h
  | cons a l ih => exact fun h => ih (hf _ a h)

theorem eligBack_noted (s t : State) : Noted s t (s.eligBack t) := by
  refine Noted.foldl (fun u k hu => Noted.foldl (fun r q hr => ?_) _ hu) _ (.refl s t)
  split
  · rename_i v hv
    split
    · exact hr
    · rename_i hnew
      exact hr.note hv (Bool.eq_false_iff.2 hnew)
  · exact hr

theorem frontMoved_noted (s t : State) : Noted s t (s.frontMoved t) := by
  have h := eligBack_noted s t
  unfold State.frontMoved
  simp only
  split
  · exact h
  · exact ⟨h.booked.trans (.served _ _), h.launch⟩

/-! ## The end of a span -/

theorem Tenant.releaseB0_eq (v : Tenant) (lid : Nat) : ∃ b, v.releaseB0 lid = { v with b0gang := b } := by
  unfold Tenant.releaseB0
  split
  · split
    · exact ⟨_, rfl⟩
    · exact ⟨v.b0gang, rfl⟩
  · exact ⟨v.b0gang, rfl⟩

theorem Tenant.spanEnded_eq (v : Tenant) (x : Ctx) : ∃ b, v.spanEnded x = { v with
    launches := Map.modify v.launches x.lid (fun l => l.spanEnded x), b0gang := b } :=
  Tenant.releaseB0_eq _ _

/-- The end of a span holds back no record, and releases none (R322). -/
theorem Tenant.holding_spanEnded (v : Tenant) (x : Ctx) (q : Nat) : (v.spanEnded x).holding q = v.holding q := by
  obtain ⟨b, e⟩ := v.spanEnded_eq x
  rw [e]
  unfold Tenant.holding Map.modify
  cases hl : Map.at? v.launches x.lid with
  | none => rfl
  | some l => exact Map.any_ins (w := l.spanEnded x) (fun l => decide (l.queue = q) && l.completed && !l.written) hl rfl

/-- The end of its span makes no launch eligible but a gang (R290). -/
theorem not_becameEligible {s t : State} {x : Ctx} {l : Launch} (hdev : t.devstat = s.devstat) (hpow : t.powered = s.powered)
    (htenant : t.tenant x.tenant = (s.tenant x.tenant).spanEnded x) (hl : s.launch x.tenant x.lid = some l) (hgang : l.gang = false) :
    ¬ s.BecameEligible t x.tenant x.lid := by
  rintro ⟨q, v, hv, hlid, hnew⟩
  obtain ⟨b, e⟩ := (s.tenant x.tenant).spanEnded_eq x
  obtain ⟨hhead, m, hm, hserve⟩ := State.eligible_some hv
  rw [hlid] at hhead hm
  have hmeq : m = l.spanEnded x := by
    unfold State.launch at hm hl
    rw [htenant, e, Map.at?_modify, if_pos rfl, hl] at hm
    exact (Option.some.inj hm).symm
  have hheads : (Map.get [] (s.tenant x.tenant).queues q).head? = some x.lid := by
    rw [htenant, e] at hhead
    exact hhead
  have hserves : s.mayServe x.tenant q l = true := by
    unfold State.mayServe at hserve ⊢
    rw [hdev, hpow, htenant, Tenant.holding_spanEnded, e, hmeq] at hserve
    rw [hgang]
    simpa [Launch.spanEnded, hgang] using hserve
  rw [State.eligible_head hheads hl, hserves] at hnew
  simp [hlid] at hnew

/-- Settles O23: the core is vacated and the launch has a span less, and what the walker then notes changes neither. -/
theorem spanEnd : Obligations.SpanEnd := by
  intro s c x l hx hpow hready hissued hl
  obtain ⟨t, hleft, hbook, htenants⟩ := endSpan_left s c x
  have hnoted := frontMoved_noted s (s.endSpan c x)
  have hall := hbook.trans hnoted.booked
  have hexec : exec (.spanEndComplete c) s = .next (s.frontMoved (s.endSpan c x)) := by
    show execSpanEndComplete c s = _
    simp [execSpanEndComplete, hx, hpow, hready, hissued]
  have htenant : (s.endSpan c x).tenant x.tenant = (s.tenant x.tenant).spanEnded x := by
    rw [← hleft.tenant]
    unfold State.tenant
    rw [htenants]
  have hlaunch : (s.endSpan c x).launch x.tenant x.lid = some (l.spanEnded x) := by
    obtain ⟨b, e⟩ := (s.tenant x.tenant).spanEnded_eq x
    unfold State.launch at hl ⊢
    rw [htenant, e, Map.at?_modify, if_pos rfl, hl]
    rfl
  have hcore : ∀ d, (s.frontMoved (s.endSpan c x)).core d = { t.core d with
      lent := ((s.frontMoved (s.endSpan c x)).core d).lent, freeAt := ((s.frontMoved (s.endSpan c x)).core d).freeAt,
      part := ((s.frontMoved (s.endSpan c x)).core d).part } := hall.core
  refine ⟨_, hexec, ?_, ?_, ?_, fun k hk => ?_, ?_, ?_, ?_, ?_⟩
  · rw [hall.ctx]; unfold State.ctx; rw [hleft.core]; rfl
  · rw [hcore, hleft.core]; rfl
  · rw [hall.mem, hleft.rest]
  · rw [hall.ctx]; unfold State.ctx; rw [hleft.others k hk]
  · obtain ⟨m, hm, hcase⟩ := hnoted.launch _ _ _ hlaunch
    have hcycle : (s.endSpan c x).cycle = s.cycle := by rw [hbook.cycle, hleft.rest]
    rcases hcase with rfl | ⟨rfl, hbecame⟩
    · exact ⟨_, hm, rfl, fun _ => rfl, .inl rfl⟩
    · refine ⟨_, hm, rfl, fun hgang => ?_, .inr (congrArg some hcycle)⟩
      refine absurd hbecame (not_becameEligible ?_ ?_ htenant hl hgang)
      · rw [hbook.rest, hleft.rest]
      · rw [hbook.rest, hleft.rest]
  · rw [hcore]; exact hleft.spans
  · refine ⟨x.closed, ?_, rfl, rfl, rfl, rfl, rfl, rfl, rfl, rfl, rfl⟩
    rw [hcore, hleft.core]; rfl
  · intro hfly
    have hdue : x.tokensDue = x.tokCount := by simp [Ctx.tokensDue, Ctx.unsignalled, hfly]
    rw [hcore, hleft.core]
    show Map.get 0 (Map.put 0 _ _ _) _ = _
    rw [Map.get_put_self, hdue]

end Sys2Proof.Machine
end

section
/-! SUPPORT. Elementwise tile words (R117-R122): each writes its selected rows from whole selected rows of its sources. Settles O4. -/

namespace Sys2Proof.Machine

/-! ## What the words read -/

/-- A word of two sources reads its selected rows of both. -/
theorem rowwise_two (d a b : BitVec 6) (own : Ctx → QWord → Option Nat) (raw : QWord → Bool) (elem : Ctx → QWord → Core → Nat → Nat → Nat) :
    rowwise d [a, b] own raw elem = some {
      tiles := [d.toNat, a.toNat, b.toNat]
      own := own
      reads := fun w _ => readRows a.toNat (w.sel d) ++ readRows b.toNat (w.sel d)
      runs := fun w _ => if raw w then [] else runsOf a.toNat (w.cols a.toNat) (w.sel d) ++ runsOf b.toNat (w.cols b.toNat) (w.sel d)
      outs := fun x w k => [(d.toNat, w.sel d, elem x w k)] } := by
  simp [rowwise]

/-- A word of three sources reads its selected rows of all of them (R122). -/
theorem fourTile_eq (op : FourOp) (d a b e : BitVec 6) :
    fourTile op d a b e = some {
      tiles := [d.toNat, a.toNat, b.toNat, e.toNat]
      own := fourChk op d.toNat a.toNat b.toNat e.toNat
      reads := fun w _ => readRows a.toNat (w.sel d) ++ readRows b.toNat (w.sel d) ++ readRows e.toNat (w.sel d)
      runs := fun w _ =>
        let runs := fun (t : BitVec 6) =>
          if op = .sel && w.et t.toNat = w.et d.toNat then [] else runsOf t.toNat (w.cols t.toNat) (w.sel d)
        runs a ++ runs b ++ runs e
      outs := fun _ w k => [(d.toNat, w.sel d, fun i j =>
        fourElem op (w.et d.toNat) (w.et a.toNat) (w.et b.toNat) (w.et e.toNat) (w.rnd2 d i j)
          (k.elem a.toNat (w.et a.toNat) i j) (k.elem b.toNat (w.et b.toNat) i j)
          (flushed w k a.toNat i j) (flushed w k b.toNat i j) (flushed w k e.toNat i j))] } := by
  simp [fourTile, rowwise]

/-! ## The groups -/

section
variable {s u : State} {x : Ctx} {i : Instr} {r : TileSpec} {vals : List Dword} {pops : List Nat} {w : QWord} {k : Core}
  {d a b e : BitVec 6} (hst : i.still = true)
  (hw : w = x.tileWord i r.eng r.srcs vals r.tiles) (hu : u = s.readied x pops w) (hk : k = u.core s.cur)
  (h : Idle s x) (hread : readAll s s.cur x r.srcs [] [] = .ok vals pops) (hleg : x.legal r.tiles) (hown : r.own x w = none)
  (hp : poisonedTile k (r.reads w k) = none)
include hst hw hu hk h hread hleg hown hp

/-- A word of the binary group completes (R117). -/
theorem binary_done {op : BinOp} {bc : BitVec 2} (hr : binTile op d a b bc = some r) :
    ∃ t, binary i op d a b bc (runBin op d a b bc) s = .next t ∧ TileOut u t s.cur (flushedIn w k (r.runs w k)) w (r.outs x w k) := by
  cases hr
  exact tile_done hw hu hk h hst hread hleg hown hp (by rw [hk]; rfl) rfl (put_sel hw hleg (by simp) _)

/-- A word of the unary group completes (R118, R119). -/
theorem unary_done {op : UnOp} (hr : unTile op d a = some r) :
    ∃ t, unary i op d a (runUn op d a) s = .next t ∧ TileOut u t s.cur (flushedIn w k (r.runs w k)) w (r.outs x w k) := by
  cases (rowwise_one _ _ _ _ _).symm.trans hr
  exact tile_done hw hu hk h hst hread hleg hown hp (by rw [hk]; rfl) rfl (put_sel hw hleg (by simp) _)

/-- A word of four operands completes (R122). -/
theorem four_done {op : FourOp} (hr : fourTile op d a b e = some r) :
    ∃ t, four i op d a b e (runFour op d a b e) s = .next t ∧ TileOut u t s.cur (flushedIn w k (r.runs w k)) w (r.outs x w k) := by
  cases (fourTile_eq _ _ _ _ _).symm.trans hr
  exact tile_done hw hu hk h hst hread hleg hown hp (by rw [hk]; rfl) rfl (put_sel hw hleg (by simp) _)

end

/-! ## The words -/

/-- The words of the binary group (R117) write their destination alone. -/
theorem binTiles_complete : TileWordsComplete binTiles := by
  intro s u x i r vals pops w k hr hw hu hk h hread hleg hown hp
  cases i
  case vadd => exact binary_done rfl hw hu hk h hread hleg hown hp hr
  case vsub => exact binary_done rfl hw hu hk h hread hleg hown hp hr
  case vmul => exact binary_done rfl hw hu hk h hread hleg hown hp hr
  case vdiv => exact binary_done rfl hw hu hk h hread hleg hown hp hr
  case vmin => exact binary_done rfl hw hu hk h hread hleg hown hp hr
  case vmax => exact binary_done rfl hw hu hk h hread hleg hown hp hr
  case vand => exact binary_done rfl hw hu hk h hread hleg hown hp hr
  case vor => exact binary_done rfl hw hu hk h hread hleg hown hp hr
  case vxor => exact binary_done rfl hw hu hk h hread hleg hown hp hr
  case vshl => exact binary_done rfl hw hu hk h hread hleg hown hp hr
  case vshr => exact binary_done rfl hw hu hk h hread hleg hown hp hr
  case vsra => exact binary_done rfl hw hu hk h hread hleg hown hp hr
  all_goals cases hr

/-- So do those of the unary group (R118, R119). -/
theorem unTiles_complete : TileWordsComplete unTiles := by
  intro s u x i r vals pops w k hr hw hu hk h hread hleg hown hp
  cases i
  case vabs => exact unary_done rfl hw hu hk h hread hleg hown hp hr
  case vneg => exact unary_done rfl hw hu hk h hread hleg hown hp hr
  case vrcp => exact unary_done rfl hw hu hk h hread hleg hown hp hr
  case vrsqrt => exact unary_done rfl hw hu hk h hread hleg hown hp hr
  case vsqrt => exact unary_done rfl hw hu hk h hread hleg hown hp hr
  case vexp2 => exact unary_done rfl hw hu hk h hread hleg hown hp hr
  case vlog2 => exact unary_done rfl hw hu hk h hread hleg hown hp hr
  case vtanh => exact unary_done rfl hw hu hk h hread hleg hown hp hr
  case vsigm => exact unary_done rfl hw hu hk h hread hleg hown hp hr
  case vsilu => exact unary_done rfl hw hu hk h hread hleg hown hp hr
  case vfloor => exact unary_done rfl hw hu hk h hread hleg hown hp hr
  case vrnd => exact unary_done rfl hw hu hk h hread hleg hown hp hr
  case vmov => exact unary_done rfl hw hu hk h hread hleg hown hp hr
  case vnot => exact unary_done rfl hw hu hk h hread hleg hown hp hr
  all_goals cases hr

/-- Compare, convert and the words of four operands (R120-R122) write their destination alone. -/
theorem mixTiles_complete : TileWordsComplete mixTiles := by
  intro s u x i r vals pops w k hr hw hu hk h hread hleg hown hp
  cases i
  case vcmp d a b c =>
    cases (rowwise_two _ _ _ _ _ _).symm.trans hr
    simp only [decide_eq_true_eq]
    exact tile_done hw hu hk h rfl hread hleg hown hp (by rw [hk]; rfl) rfl (put_sel hw hleg (by simp) _)
  case vcvt d a =>
    cases (rowwise_one _ _ _ _ _).symm.trans hr
    exact tile_done hw hu hk h rfl hread hleg hown hp (by rw [hk]; rfl) rfl (put_sel hw hleg (by simp) _)
  case vfma => exact four_done rfl hw hu hk h hread hleg hown hp hr
  case vfms => exact four_done rfl hw hu hk h hread hleg hown hp hr
  case vsel => exact four_done rfl hw hu hk h hread hleg hown hp hr
  case vclamp => exact four_done rfl hw hu hk h hread hleg hown hp hr
  all_goals cases hr

/-- Settles O4: every word of the three tables leaves exactly its tile written. -/
theorem elementTileWords : Obligations.ElementTileWords := ⟨binTiles_complete, unTiles_complete, mixTiles_complete⟩

end Sys2Proof.Machine
end

section
/-! SUPPORT. Touching, spilling and filling (R137, R186, R312): what each of the three moves leaves of its unit or map. Settles O25. -/

namespace Sys2Proof.Machine

/-! ## A unit freed -/

section
variable (k : Core) (u : Nat)

/-- Clearing a unit leaves all of its core but stores and marks. -/
theorem Core.clearUnit_eq : ∃ ti tp ac ap sp pp, k.clearUnit u =
    { k with tiles := ti, tilePoison := tp, acc := ac, accPoison := ap, spad := sp, spadPoison := pp } := by
  unfold Core.clearUnit
  simp only
  split
  · exact ⟨_, _, _, _, _, _, rfl⟩
  · split
    · exact ⟨_, _, _, _, _, _, rfl⟩
    · exact ⟨_, _, _, _, _, _, rfl⟩

@[simp] theorem Core.owner_freeUnit : (k.freeUnit u).owner = Map.del k.owner u := by
  obtain ⟨_, _, _, _, _, _, h⟩ := k.clearUnit_eq u
  simp [Core.freeUnit, h]

@[simp] theorem Core.spilling_freeUnit : (k.freeUnit u).spilling = k.spilling.filter (fun v => v ≠ u) := by
  obtain ⟨_, _, _, _, _, _, h⟩ := k.clearUnit_eq u
  simp [Core.freeUnit, h]

@[simp] theorem Core.saved_freeUnit : (k.freeUnit u).saved = k.saved := by
  obtain ⟨_, _, _, _, _, _, h⟩ := k.clearUnit_eq u
  simp [Core.freeUnit, h]

@[simp] theorem Core.side_freeUnit : (k.freeUnit u).side = k.side := by
  obtain ⟨_, _, _, _, _, _, h⟩ := k.clearUnit_eq u
  simp [Core.freeUnit, h]

/-- A resident context's dead tiles are those it has killed (R137). -/
theorem Core.deadUnit_me {x : Ctx} (hx : k.res = some x) : k.deadUnit x.me u = decide (u ∈ x.dead) := by
  simp [Core.deadUnit, Core.ctxFor, Ctx.me, hx]

end

/-! ## A unit taken (R312) -/

section
variable {s : State} {c u : Nat} {me : Owner}

/-- A unit taken is its taker's. -/
theorem takeUnit_owner (s : State) (c : Nat) (me : Owner) (u : Nat) : Map.at? ((takeUnit s c me u).core c).owner u = some me := by
  simp [takeUnit]

/-- So is one touched, whoever had it. -/
theorem touchUnit_owner (s : State) (c : Nat) (me : Owner) (u : Nat) : Map.at? ((touchUnit s c me u).core c).owner u = some me := by
  unfold touchUnit
  split
  · next o ho =>
    split
    · next e => rw [ho, e]
    · exact takeUnit_owner _ c me u
  · exact takeUnit_owner s c me u

/-- The toucher's own unit stays as it stands. -/
theorem touchUnit_own (ho : Map.at? (s.core c).owner u = some me) : touchUnit s c me u = s := by
  simp [touchUnit, ho]

/-- A unit that nobody has is taken. -/
theorem touchUnit_free (ho : Map.at? (s.core c).owner u = none) : touchUnit s c me u = takeUnit s c me u := by
  simp [touchUnit, ho]

/-- A unit without a saved copy is taken as it stands. -/
theorem takeUnit_unsaved (hb : (s.core c).beside me = false) (hs : u ∉ (s.core c).savedOf me.tenant) :
    takeUnit s c me u = s.modCore c (fun k => { k with owner := Map.ins k.owner u me }) := by
  simp [takeUnit, hb, hs]

/-- A core that has read a unit's copy back: the unit is its taker's, and saved no more. -/
def Core.unsaved (k : Core) (me : Owner) (u : Nat) : Core :=
  { k with saved := Map.put [] k.saved me.tenant ((k.savedOf me.tenant).filter (fun v => v ≠ u)), owner := Map.ins k.owner u me }

theorem Core.not_mem_savedOf_unsaved (k : Core) (me : Owner) (u : Nat) : u ∉ (k.unsaved me u).savedOf me.tenant := by
  simp [Core.unsaved, Core.savedOf]

/-- A unit with a saved copy takes its rows from it, unless it is a dead tile. -/
theorem takeUnit_saved (hme : me.sus = false) (hb : (s.core c).beside me = false) (hs : u ∈ (s.core c).savedOf me.tenant) :
    takeUnit s c me u = (if (s.core c).deadUnit me u then s
      else loadRows s c u (slotAt s me.tenant c (unitOff u)) (unitRows u)).modCore c (fun k => k.unsaved me u) := by
  have hbit : ∀ t : State, t.spillBit c me u false = t := by simp [State.spillBit, hme]
  simp only [takeUnit, hb, hs, hbit, Bool.false_eq_true, if_true, if_false]
  simp [State.modCore, Core.unsaved]

/-- The resident context touches a unit of its core. -/
theorem unitFirstTouch_done {x : Ctx} (hx : s.ctx c = some x) (hu : u < 176) :
    exec (.unitFirstTouch c u) s = .next (touchUnit s c x.me u) := by
  show execUnitFirstTouch c u s = _
  simp [execUnitFirstTouch, hx, hu]

end

/-! ## A unit spilled (R137, R312) -/

section
variable {s : State} {c u : Nat} {o : Owner} (ho : Map.at? (s.core c).owner u = some o)
include ho

/-- A dead tile is not saved. -/
theorem spillUnit_dead (hd : (s.core c).deadUnit o u = true) : spillUnit s c u = s.modCore c (fun k => k.freeUnit u) := by
  simp [spillUnit, ho, hd]

/-- A unit of an urgent span beside its own tenant's suspended one goes to the core's side store. -/
theorem spillUnit_beside (hd : (s.core c).deadUnit o u = false) (hb : (s.core c).beside o = true) :
    spillUnit s c u = s.modCore c (fun k => { k.freeUnit u with side := Map.ins k.side u (k.unitVals u) }) := by
  simp [spillUnit, ho, hd, hb]

/-- Any other goes to its owner's slot. -/
theorem spillUnit_slot (hd : (s.core c).deadUnit o u = false) (hb : (s.core c).beside o = false) :
    spillUnit s c u = ((spillRows s c u (slotAt s o.tenant c (unitOff u)) (unitRows u)).spillBit c o u true).modCore c
      (fun k => { k.freeUnit u with saved := Map.put [] k.saved o.tenant (addMark (k.savedOf o.tenant) u) }) := by
  simp [spillUnit, ho, hd, hb]

/-- A unit spilled is nobody's and spills no more. -/
theorem spillUnit_freed : Map.at? ((spillUnit s c u).core c).owner u = none ∧ u ∉ ((spillUnit s c u).core c).spilling := by
  cases hd : (s.core c).deadUnit o u
  · cases hb : (s.core c).beside o
    · simp [spillUnit_slot ho hd hb]
    · simp [spillUnit_beside ho hd hb]
  · simp [spillUnit_dead ho hd]

end

theorem mem_addMark (l : List Nat) (k : Nat) : k ∈ addMark l k := by
  unfold addMark
  split
  · assumption
  · exact List.mem_cons_self

/-! ## The three moves -/

/-- UNIT_FIRST_TOUCH: a unit that nobody has is taken as it stands, or with its copy's rows, a dead tile's apart (R137, R312). -/
theorem unitFirstTouch_moves (s : State) (c u : Nat) (x : Ctx) (hx : s.ctx c = some x) (hu : u < 176) :
    ∃ t, exec (.unitFirstTouch c u) s = .next t ∧
      Map.at? (t.core c).owner u = some x.me ∧ (∀ k, k ≠ c → t.core k = s.core k) ∧
      (Map.at? (s.core c).owner u = some x.me → t = s) ∧
      (Map.at? (s.core c).owner u = none → (s.core c).beside x.me = false → u ∉ (s.core c).savedOf x.tenant →
        t = s.modCore c (fun k => { k with owner := Map.ins k.owner u x.me })) ∧
      (Map.at? (s.core c).owner u = none → (s.core c).beside x.me = false → u ∈ (s.core c).savedOf x.tenant →
        t = (if u ∈ x.dead then s else loadRows s c u (slotAt s x.tenant c (unitOff u)) (unitRows u)).modCore c
          (fun k => k.unsaved x.me u)) := by
  refine ⟨_, unitFirstTouch_done hx hu, touchUnit_owner s c x.me u, fun k hk => (Kept1.touchUnit s c x.me u).others k (Ne.symm hk),
    touchUnit_own, fun ho hb hs => ?_, fun ho hb hs => ?_⟩
  · rw [touchUnit_free ho, takeUnit_unsaved hb hs]
  · rw [touchUnit_free ho, takeUnit_saved rfl hb hs, Core.deadUnit_me _ _ hx]
    simp [Ctx.me]

/-- Settles O25: each clause is one case of the touch, of the spill, or of the fill. -/
theorem unitSteps : Obligations.UnitSteps := by
  intro s c u
  refine ⟨fun x hx hu => ?_, fun o hspill ho => ?_, fun tenant g hg => ?_⟩
  · obtain ⟨t, hexec, howner, hothers, hown, hplain, hsaved⟩ := unitFirstTouch_moves s c u x hx hu
    refine ⟨t, hexec, howner, hothers, hown, hplain, fun ho hb hs hd => ?_, fun ho hb hs hd => ?_⟩
    · rw [hsaved ho hb hs, if_pos hd, State.core_modCore_self]
      exact ⟨Core.not_mem_savedOf_unsaved _ x.me u, rfl, rfl⟩
    · rw [hsaved ho hb hs, if_neg hd, State.core_modCore_self]
      exact ⟨Core.not_mem_savedOf_unsaved _ x.me u, rfl, rfl, rfl⟩
  · have hexec : exec (.unitSpillComplete c u) s = .next (spillUnit s c u) := by
      show execUnitSpillComplete c u s = _
      simp [execUnitSpillComplete, hspill]
    obtain ⟨hnone, hdone⟩ := spillUnit_freed ho
    refine ⟨_, hexec, hnone, hdone, fun k hk => (Kept1.spillUnit s c u).others k (Ne.symm hk), fun hd => ?_, fun hd hb => ?_, fun hd hb => ?_⟩
    · simp [spillUnit_dead ho hd]
    · simp [spillUnit_beside ho hd hb]
    · simp [spillUnit_slot ho hd hb, Core.savedOf, mem_addMark]
  · have hexec : exec (.mapCacheFill c tenant u) s =
        .next (s.modCore c (fun k => { k with gcache := Map.ins k.gcache tenant (Map.ins (Map.get [] k.gcache tenant) u g) })) := by
      show execMapCacheFill c tenant u s = _
      simp [execMapCacheFill, hg]
    exact ⟨_, hexec, by simp, fun k hk => State.core_modCore_ne s _ (Ne.symm hk), rfl, by simp [State.ctx]⟩

end Sys2Proof.Machine
end

section
/-! SUPPORT. Elements that land (R163, R164, R229): what they leave of the parts of rows that a block gathers, bit by bit. -/

namespace Sys2Proof.Machine

/-! ## Sparse data -/

/-- An unlisted key reads as the default. -/
theorem Map.get_of_not_mem {α : Type} (d : α) {m : Map α} {k : Nat} (h : ∀ p ∈ m, p.1 ≠ k) : Map.get d m k = d := by
  induction m with
  | nil => rfl
  | cons p t ih =>
    obtain ⟨j, u⟩ := p
    have hjk : j ≠ k := h (j, u) List.mem_cons_self
    rw [Map.get, if_neg hjk]
    exact ih (fun q hq => h q (List.mem_cons_of_mem _ hq))

/-- Keys unlisted one after another read as the default, and every other one as before. -/
theorem Map.get_foldl_del {α : Type} (d : α) (ks : List Nat) (k : Nat) : ∀ m : Map α,
    Map.get d (ks.foldl Map.del m) k = if k ∈ ks then d else Map.get d m k := by
  induction ks with
  | nil => intro m; simp
  | cons j ks ih =>
    intro m
    rw [List.foldl_cons, ih]
    by_cases hj : j = k
    · subst hj; simp
    · simp [Map.get_del_ne _ _ hj, Ne.symm hj]

/-! ## The bits of an element, byte by byte -/

/-- The part in byte b of n bits at a bit address. -/
def bytePiece (pos n b : Nat) : Nat × Nat × Nat × Nat :=
  (b, Max.max pos (8 * b) - 8 * b, Min.min (pos + n) (8 * b + 8) - Max.max pos (8 * b), Max.max pos (8 * b) - pos)

theorem bytePieces_eq (pos n : Nat) :
    bytePieces pos n = (rangeFrom (pos / 8) ((pos + n - 1) / 8 + 1 - pos / 8)).map (bytePiece pos n) := rfl

/-- A part lies in its byte, where the bits of the element have it. -/
theorem of_mem_bytePieces {pos n : Nat} {q : Nat × Nat × Nat × Nat} (h : q ∈ bytePieces pos n) :
    pos + q.2.2.2 = 8 * q.1 + q.2.1 ∧ q.2.1 + q.2.2.1 ≤ 8 := by
  simp only [bytePieces_eq, rangeFrom, List.map_map, List.mem_map, List.mem_range, Function.comp_apply] at h
  obtain ⟨j, -, rfl⟩ := h
  simp only [bytePiece]
  omega

/-- The bits of the first bytes, in turn, are the first bits. -/
theorem range_eq_flatMap_bytePiece (pos n j : Nat) :
    List.range (Min.min (pos + n) (8 * (pos / 8 + j)) - pos) = ((rangeFrom (pos / 8) j).map (bytePiece pos n)).flatMap
      (fun q => (List.range q.2.2.1).map (q.2.2.2 + ·)) := by
  induction j with
  | zero =>
    have h0 : Min.min (pos + n) (8 * (pos / 8 + 0)) - pos = 0 := by omega
    rw [h0]; rfl
  | succ j ih =>
    have hlen : Min.min (pos + n) (8 * (pos / 8 + (j + 1))) - pos = (Min.min (pos + n) (8 * (pos / 8 + j)) - pos) +
        (bytePiece pos n (pos / 8 + j)).2.2.1 := by
      simp only [bytePiece]; omega
    have hlow : (bytePiece pos n (pos / 8 + j)).2.2.1 = 0 ∨
        Min.min (pos + n) (8 * (pos / 8 + j)) - pos = (bytePiece pos n (pos / 8 + j)).2.2.2 := by
      simp only [bytePiece]; omega
    rw [hlen, List.range_add, ih]
    simp only [rangeFrom, List.range_succ, List.map_append, List.map_cons, List.map_nil, List.flatMap_append, List.flatMap_cons,
      List.flatMap_nil, List.append_nil]
    rcases hlow with h0 | h0
    · simp [h0]
    · rw [h0]

/-- The bits of the parts of an element, in turn, are its own. -/
theorem range_eq_flatMap_bytePieces (pos n : Nat) :
    List.range n = (bytePieces pos n).flatMap (fun q => (List.range q.2.2.1).map (q.2.2.2 + ·)) := by
  rw [bytePieces_eq, ← range_eq_flatMap_bytePiece]
  congr 1
  omega

/-! ## What an element leaves in a bit of the scratchpad -/

/-- What piece q of an element v leaves in bit z: a bit of v where the piece covers z. -/
def pieceOver (z v : Nat) (b : Bool) (q : Nat × Nat × Nat) : Bool :=
  if q.1 ≤ z ∧ z < q.1 + q.2.1 then v.testBit (q.2.2 + (z - q.1)) else b

/-- What an element v leaves in bit z: the last of its bits that lands there. -/
def cellOver (m : Rec512) (origin : Dword) (slot z : Nat) (b : Bool) (e : Nat × Nat × Nat) : Bool :=
  (List.range (cellBits (mEt m))).foldl (fun b i => if landBit m origin slot e.1 e.2.1 i = z then e.2.2.testBit i else b) b

/-- Bits that land one beside the other reach each place once. -/
theorem foldl_consecutive (a low z v n : Nat) (b : Bool) :
    (List.range n).foldl (fun b i => if a + i = z then v.testBit (low + i) else b) b = pieceOver z v b (a, n, low) := by
  unfold pieceOver
  induction n with
  | zero => simp
  | succ n ih =>
    rw [List.range_succ, List.foldl_append, ih, List.foldl_cons, List.foldl_nil]
    by_cases hz : a + n = z
    · subst hz; simp
    · rw [if_neg hz]
      have : (a ≤ z ∧ z < a + n) ↔ (a ≤ z ∧ z < a + (n + 1)) := by omega
      simp only [this]

/-- An element's bits land by its pieces: those of a part of a byte stand side by side. -/
theorem cellOver_eq_pieces (m : Rec512) (origin : Dword) (slot z : Nat) (b : Bool) (e : Nat × Nat × Nat) (hz : z < 8 * Config.flagBase) :
    (cellPieces m origin slot e.1 e.2.1).foldl (pieceOver z e.2.2) b = cellOver m origin slot z b e := by
  unfold cellPieces cellOver
  rw [range_eq_flatMap_bytePieces (mapPos m origin slot e.1 e.2.1), List.foldl_flatMap, List.foldl_filter, List.foldl_map]
  refine List.foldl_ext _ _ b (fun b q hq => ?_)
  obtain ⟨hpos, hlen⟩ := of_mem_bytePieces hq
  have hbit : ∀ i ∈ List.range q.2.2.1, landBit m origin slot e.1 e.2.1 (q.2.2.2 + i) = 8 * mapSwizzle m q.1 + q.2.1 + i := by
    intro i hi
    have hi := List.mem_range.1 hi
    have hdiv : (mapPos m origin slot e.1 e.2.1 + (q.2.2.2 + i)) / 8 = q.1 := by omega
    have hmod : (mapPos m origin slot e.1 e.2.1 + (q.2.2.2 + i)) % 8 = q.2.1 + i := by omega
    simp only [landBit, hdiv, hmod]
    omega
  rw [List.foldl_map, List.foldl_ext _ (fun b i => if 8 * mapSwizzle m q.1 + q.2.1 + i = z then e.2.2.testBit (q.2.2.2 + i) else b) b
    (fun b i hi => by rw [hbit i hi]), foldl_consecutive]
  split
  · rfl
  · next hfar =>
    have hfar : ¬ 8 * mapSwizzle m q.1 + q.2.1 < 8 * Config.flagBase := by simpa using hfar
    rw [pieceOver, if_neg (by simp only; omega)]

/-- A piece lies in one row, and short of the flag words (R229). -/
theorem of_mem_cellPieces {m : Rec512} {origin : Dword} {slot row col : Nat} {q : Nat × Nat × Nat}
    (h : q ∈ cellPieces m origin slot row col) : q.1 % 1024 + q.2.1 ≤ 1024 ∧ q.1 + q.2.1 ≤ 8 * Config.flagBase := by
  simp only [cellPieces, List.mem_filter, List.mem_map, decide_eq_true_eq] at h
  obtain ⟨⟨a, ha, rfl⟩, hlt⟩ := h
  obtain ⟨-, hlen⟩ := of_mem_bytePieces ha
  simp only at hlt ⊢
  omega

/-- No element leaves anything in the flag words. -/
theorem foldl_pieceOver_flags (m : Rec512) (origin : Dword) (slot row col z v : Nat) (b : Bool) (hz : 8 * Config.flagBase ≤ z) :
    (cellPieces m origin slot row col).foldl (pieceOver z v) b = b := by
  rw [List.foldl_ext _ (fun b _ => b) b (fun b q hq => ?_), List.foldl_fixed]
  have := (of_mem_cellPieces hq).2
  rw [pieceOver, if_neg (by omega)]

/-! ## Parts of rows -/

/-- A part over a row: its own bits where its mask has them, the row's elsewhere. -/
theorem RowPart.getLsbD_over (p : RowPart) (old : Row) (i : Nat) :
    (p.over old).getLsbD i = if p.mask.getLsbD i then p.data.getLsbD i else old.getLsbD i := by
  unfold RowPart.over
  by_cases hi : i < 1024
  · simp only [BitVec.getLsbD_eq_getElem hi]
    cases h : p.mask[i] <;> simp [h]
  · simp [BitVec.getLsbD_of_ge _ _ (Nat.le_of_not_lt hi)]

@[simp] theorem RowPart.over_empty (old : Row) : ({} : RowPart).over old = old := by
  apply BitVec.eq_of_getLsbD_eq
  intro i _
  rw [RowPart.getLsbD_over]
  simp

/-- Bits put into a part are what it has there. -/
theorem RowPart.getLsbD_over_put (p : RowPart) (o n low v : Nat) (bad : Bool) (old : Row) {i : Nat} (hi : i < 1024) :
    ((p.put o n (v / 2 ^ low) bad).over old).getLsbD i =
      if o ≤ i ∧ i < o + n then v.testBit (low + (i - o)) else (p.over old).getLsbD i := by
  simp only [RowPart.getLsbD_over, RowPart.put, getLsbD_setBits]
  split
  · next h =>
    have hn : i - o < n := by omega
    simp [hi, hn, Nat.testBit_two_pow_sub_one, Nat.testBit_div_two_pow, Nat.add_comm]
  · rfl

/-- The core's scratchpad with one more piece gathered. -/
theorem Core.gathered_put (k : Core) (ps : Map RowPart) (q : Nat × Nat × Nat) (v : Nat) (bad : Bool) (z : Nat)
    (hq : q.1 % 1024 + q.2.1 ≤ 1024) :
    k.gathered (Map.ins ps (q.1 / 1024) ((Map.get {} ps (q.1 / 1024)).put (q.1 % 1024) q.2.1 (v / 2 ^ q.2.2) bad)) z =
      pieceOver z v (k.gathered ps z) q := by
  unfold Core.gathered pieceOver
  rw [Map.get_ins]
  by_cases hrow : q.1 / 1024 = z / 1024
  · rw [if_pos hrow, hrow, RowPart.getLsbD_over_put _ _ _ _ _ _ _ (Nat.mod_lt _ (by decide))]
    have hin : (q.1 % 1024 ≤ z % 1024 ∧ z % 1024 < q.1 % 1024 + q.2.1) ↔ (q.1 ≤ z ∧ z < q.1 + q.2.1) := by omega
    have hoff : z % 1024 - q.1 % 1024 = z - q.1 := by omega
    simp only [hin, hoff]
  · rw [if_neg hrow, if_neg (by omega)]

/-! ## Elements gathered -/

/-- The parts of rows after some elements (row, column, value) have been taken into them. -/
def landCells (m : Rec512) (origin : Dword) (slot : Nat) (bad : Bool) (cells : List (Nat × Nat × Nat)) (ps : Map RowPart) : Map RowPart :=
  cells.foldl (fun q e => landCell m origin slot e.1 e.2.1 e.2.2 bad q) ps

section
variable (m : Rec512) (origin : Dword) (slot : Nat) (bad : Bool)

/-- An element gathered, piece by piece. -/
theorem Core.gathered_landCell (k : Core) (e : Nat × Nat × Nat) (ps : Map RowPart) (z : Nat) :
    k.gathered (landCell m origin slot e.1 e.2.1 e.2.2 bad ps) z =
      (cellPieces m origin slot e.1 e.2.1).foldl (pieceOver z e.2.2) (k.gathered ps z) := by
  unfold landCell
  have hrow : ∀ q ∈ cellPieces m origin slot e.1 e.2.1, q.1 % 1024 + q.2.1 ≤ 1024 := fun q hq => (of_mem_cellPieces hq).1
  generalize cellPieces m origin slot e.1 e.2.1 = qs at hrow
  induction qs generalizing ps with
  | nil => rfl
  | cons q qs ih =>
    rw [List.foldl_cons, List.foldl_cons, ih _ (fun r hr => hrow r (List.mem_cons_of_mem _ hr)),
      Core.gathered_put k ps q _ _ z (hrow q List.mem_cons_self)]

/-- The last of several values that a place takes, over the one it had. -/
theorem getD_foldl_over {α : Type} (p : α → Prop) [DecidablePred p] (f : α → Bool) (l : List α) : ∀ (o : Option Bool) (b : Bool),
    (l.foldl (fun o i => if p i then some (f i) else o) o).getD b = l.foldl (fun b i => if p i then f i else b) (o.getD b) := by
  induction l with
  | nil => intro o b; rfl
  | cons a l ih =>
    intro o b
    rw [List.foldl_cons, List.foldl_cons, ih]
    by_cases h : p a <;> simp [h]

/-- What elements that land in turn leave in a bit short of the flag words. -/
theorem landedAs_getD (cells : List (Nat × Nat × Nat)) {z : Nat} (hz : z < 8 * Config.flagBase) (b : Bool) :
    (landedAs m origin slot cells z).getD b = cells.foldl (cellOver m origin slot z) b := by
  rw [landedAs, if_neg (Nat.not_le.2 hz)]
  have key : ∀ (o : Option Bool), (cells.foldl (fun o e => (List.range (cellBits (mEt m))).foldl (fun o i =>
      if landBit m origin slot e.1 e.2.1 i = z then some (e.2.2.testBit i) else o) o) o).getD b =
      cells.foldl (cellOver m origin slot z) (o.getD b) := by
    induction cells with
    | nil => intro o; rfl
    | cons e cells ih =>
      intro o
      rw [List.foldl_cons, List.foldl_cons, ih, getD_foldl_over (fun i => landBit m origin slot e.1 e.2.1 i = z)]
      rfl
  exact key none

/-- A bit of the scratchpad with what a block has gathered is that of the last element to reach it, or as before. -/
theorem Core.gathered_landCells (k : Core) (cells : List (Nat × Nat × Nat)) (z : Nat) : ∀ ps : Map RowPart,
    k.gathered (landCells m origin slot bad cells ps) z = (landedAs m origin slot cells z).getD (k.gathered ps z) := by
  by_cases hz : 8 * Config.flagBase ≤ z
  · have hflag : landedAs m origin slot cells z = none := if_pos hz
    rw [hflag]
    induction cells with
    | nil => exact fun _ => rfl
    | cons e cells ih =>
      intro ps
      rw [landCells, List.foldl_cons, ← landCells, ih (if_pos hz), Core.gathered_landCell, foldl_pieceOver_flags _ _ _ _ _ _ _ _ hz]
  · have hz := Nat.lt_of_not_le hz
    intro ps
    rw [landedAs_getD m origin slot cells hz]
    induction cells generalizing ps with
    | nil => rfl
    | cons e cells ih =>
      rw [landCells, List.foldl_cons, ← landCells, ih, Core.gathered_landCell, cellOver_eq_pieces _ _ _ _ _ _ hz, List.foldl_cons]

theorem mem_partRows {ps : Map RowPart} {r : Nat} : r ∈ partRows ps ↔ ∃ p ∈ ps, p.1 = r := by
  simp [partRows]

/-- A part listed is of its row. -/
theorem mem_partRows_ins {ps : Map RowPart} {r j : Nat} {p : RowPart} (h : j ∈ partRows (Map.ins ps r p)) : j = r ∨ j ∈ partRows ps := by
  obtain ⟨q, hq, rfl⟩ := mem_partRows.1 h
  rcases Map.mem_ins hq with rfl | hq
  · exact .inl rfl
  · exact .inr (mem_partRows.2 ⟨q, hq, rfl⟩)

/-- Elements are gathered in the rows they reach. -/
theorem mem_partRows_landCell {row col v r : Nat} {ps : Map RowPart} (h : r ∈ partRows (landCell m origin slot row col v bad ps)) :
    r ∈ partRows ps ∨ r ∈ cellRows m origin slot row col := by
  unfold landCell at h
  unfold cellRows
  generalize cellPieces m origin slot row col = qs at h
  induction qs generalizing ps with
  | nil => exact .inl h
  | cons q qs ih =>
    rcases ih h with h | h
    · rcases mem_partRows_ins h with rfl | h
      · exact .inr List.mem_cons_self
      · exact .inl h
    · exact .inr (List.mem_cons_of_mem _ h)

theorem mem_partRows_landCells {r : Nat} (cells : List (Nat × Nat × Nat)) : ∀ {ps : Map RowPart},
    r ∈ partRows (landCells m origin slot bad cells ps) →
      r ∈ partRows ps ∨ r ∈ cells.flatMap (fun e => cellRows m origin slot e.1 e.2.1) := by
  induction cells with
  | nil => exact fun h => .inl h
  | cons e cells ih =>
    intro ps h
    rw [List.flatMap_cons, List.mem_append]
    rcases ih h with h | h
    · rcases mem_partRows_landCell m origin slot bad h with h | h
      · exact .inl h
      · exact .inr (.inl h)
    · exact .inr (.inr h)

end

end Sys2Proof.Machine
end

section
/-! SUPPORT. A packet that arrives at a core (R134, R158, R159, R162-R167, R171, R224), and a marker at a slice: what binding, landing and
dropping leave of the core. Settles O26. -/

namespace Sys2Proof.Machine

/-! ## Rows written whole (R134) -/

/-- A core with a part of a scratchpad row written. -/
def Core.putPart (k : Core) (row : Nat) (p : RowPart) : Core :=
  { k.setSpadRow row (p.over (k.spadRow row)) with
    spadPoison := if p.bad then addMark k.spadPoison row else if p.whole then k.spadPoison.filter (fun r => r ≠ row) else k.spadPoison }

theorem Core.spadRow_putPart (k : Core) (row : Nat) (p : RowPart) (j : Nat) :
    (k.putPart row p).spadRow j = if row = j then p.over (k.spadRow j) else k.spadRow j := by
  simp only [Core.putPart, Core.setSpadRow, Core.spadRow, Map.get_put]
  split
  · next h => rw [h]
  · rfl

/-- Parts of several rows written, each row once. -/
theorem Core.spadRow_foldl_putPart (ps : Map RowPart) (rows : List Nat) (j : Nat) : ∀ k : Core, rows.Nodup →
    (rows.foldl (fun q r => q.putPart r (Map.get {} ps r)) k).spadRow j =
      if j ∈ rows then (Map.get {} ps j).over (k.spadRow j) else k.spadRow j := by
  induction rows with
  | nil => intro k _; simp
  | cons r rows ih =>
    intro k hn
    obtain ⟨hr, hn⟩ := List.nodup_cons.1 hn
    rw [List.foldl_cons, ih _ hn, Core.spadRow_putPart]
    by_cases hj : r = j
    · subst hj; simp [hr]
    · simp only [List.mem_cons, Ne.symm hj, false_or, if_neg hj]

/-- A landing of a context that is not out writes its own row where it stands. -/
theorem landRow_own {s : State} {c : Nat} {me : Owner} (hme : me.sus = false) {row : Nat} (p : RowPart)
    (ho : Map.at? (s.core c).owner (spadUnit row) = some me) : landRow s c me row p = s.modCore c (fun k => k.putPart row p) := by
  simp [landRow, toSlot, hme, touchUnit_own ho, Core.putPart]

/-- So do landings in several rows. -/
theorem foldl_landRow_own {c : Nat} {me : Owner} (hme : me.sus = false) (ps : Map RowPart) (rows : List Nat) : ∀ {s : State},
    (∀ r ∈ rows, Map.at? (s.core c).owner (spadUnit r) = some me) →
    (rows.foldl (fun q r => landRow q c me r (Map.get {} ps r)) s).core c =
      rows.foldl (fun q r => q.putPart r (Map.get {} ps r)) (s.core c) := by
  induction rows with
  | nil => exact fun _ => rfl
  | cons r rows ih =>
    intro s ho
    rw [List.foldl_cons, landRow_own hme _ (ho r List.mem_cons_self), ih (fun j hj => ?_), State.core_modCore_self]
    · rfl
    · rw [State.core_modCore_self]; exact ho j (List.mem_cons_of_mem _ hj)

/-! ## What noting an arrival leaves (R162, R171) -/

/-- What binding a block and noting a beat leave of core c: its counts and contexts apart, everything; with no context out,
none goes out and memory stays. -/
structure Marked (c : Nat) (s t : State) : Prop where
  core : t.core c = { s.core c with ev := (t.core c).ev, res := (t.core c).res, sus := (t.core c).sus }
  alone : (s.core c).sus = none → (t.core c).sus = none ∧ t.mem = s.mem

theorem Marked.refl (c : Nat) (s : State) : Marked c s s := ⟨rfl, fun h => ⟨h, rfl⟩⟩

theorem Marked.trans {c : Nat} {s t u : State} (h : Marked c s t) (g : Marked c t u) : Marked c s u := by
  refine ⟨?_, fun hs => ?_⟩
  · have a := h.core
    have b := g.core
    rw [a] at b; exact b
  · obtain ⟨ht, hmem⟩ := h.alone hs
    exact ⟨(g.alone ht).1, (g.alone ht).2.trans hmem⟩

theorem Fabric.marked {s t : State} (h : Fabric s t) (c : Nat) : Marked c s t := by
  refine ⟨by rw [h.core], fun hs => ⟨by rw [h.core]; exact hs, h.mem⟩⟩

section
variable (s : State) (c : Nat)

theorem Marked.modCtxOf (uid : Nat) (f : Ctx → Ctx) : Marked c s (s.modCtxOf c uid f) := by
  unfold State.modCtxOf
  refine ⟨?_, fun hs => ⟨?_, rfl⟩⟩
  · rw [State.core_modCore_self]
  · rw [State.core_modCore_self]; simp [hs]

theorem Marked.count (k n : Nat) : Marked c s (s.count c k n) := by
  unfold State.count
  split
  · exact .refl c s
  · refine ⟨?_, fun hs => ⟨?_, rfl⟩⟩
    · rw [State.core_modCore_self]; rfl
    · rw [State.core_modCore_self]; exact hs

/-- A sticky bit shows in the core's context; a context that is out has it in its image too. -/
theorem State.core_stickAt (uid i : Nat) : (s.stickAt c uid i).core c = (s.modCtxOf c uid (fun x => x.stick i)).core c := by
  unfold State.stickAt
  simp only
  split <;> rfl

theorem Marked.stickAt (uid i : Nat) : Marked c s (s.stickAt c uid i) := by
  have hcore := State.core_stickAt s c uid i
  have h := Marked.modCtxOf s c uid (fun x => x.stick i)
  refine ⟨by rw [hcore]; exact h.core, fun hs => ⟨by rw [hcore]; exact (h.alone hs).1, ?_⟩⟩
  simp [State.stickAt, hs]

end

theorem Marked.spadRow {c : Nat} {s t : State} (h : Marked c s t) (j : Nat) : (t.core c).spadRow j = (s.core c).spadRow j := by
  rw [h.core]; rfl

theorem Marked.gathered {c : Nat} {s t : State} (h : Marked c s t) (ps : Map RowPart) (z : Nat) :
    (t.core c).gathered ps z = (s.core c).gathered ps z := by
  unfold Core.gathered; rw [h.spadRow]

/-- Binding a block notes it in the counts and in the context it meets (R162). -/
theorem bindBlock_marked {s u : State} {c cmd row : Nat} {h : Hdr} {src : Leaf} {cols : List Nat} {b : OpenBlk}
    (hb : bindBlock s c h cmd src row cols = some (u, b)) : Marked c s u := by
  unfold bindBlock at hb
  simp only at hb
  split at hb
  · cases hb; exact .refl c s
  · next x _ =>
    have hmarked : Marked c s (if 2 ≤ (candidates x h.tag h.origin).length then (s.count c evMAPDUP 1).stickAt c x.uid stMAPDUP else s) := by
      split
      · exact (Marked.count s c _ _).trans (.stickAt _ c _ _)
      · exact .refl c s
    split at hb
    · cases hb; exact .refl c s
    · split at hb
      · cases hb; exact hmarked
      · split at hb
        · cases hb
        · split at hb
          · split at hb
            · cases hb
            · cases hb; exact hmarked.trans (.modCtxOf _ c _ _)
          · split at hb
            · cases hb
            · cases hb; exact hmarked

/-- So does finding the block a packet belongs to (R159). -/
theorem blockFor_marked {s u : State} {c row : Nat} {p : Packet} {h : Hdr} {cols : List Nat} {b : OpenBlk}
    (hb : s.blockFor c p h row cols = some (u, b)) : Marked c s u := by
  unfold State.blockFor at hb
  split at hb
  · split at hb
    · cases hb
    · cases hb; exact .refl c _
  · exact bindBlock_marked hb

/-! ## Beats that no map takes (R162, R171) -/

section
variable (v : State) (c : Nat) (b : OpenBlk)

theorem dropBeat_marked : Marked c v (dropBeat v c b).1 := by
  unfold dropBeat
  simp only
  split
  · exact (Marked.count v c _ _).trans (.stickAt _ c _ _)
  · exact .count v c _ _

/-- The core counts the beat. -/
theorem dropBeat_ev : Map.get 0 ((dropBeat v c b).1.core c).ev evMAPMISS = Map.get 0 (v.core c).ev evMAPMISS + 1 := by
  have hcount : Map.get 0 ((v.count c evMAPMISS 1).core c).ev evMAPMISS = Map.get 0 (v.core c).ev evMAPMISS + 1 := by
    simp [State.count, Core.count]
  unfold dropBeat
  simp only
  split
  · rw [State.core_stickAt, State.core_modCtxOf_ev, hcount]
  · exact hcount

/-- The context that the block met, if it is still the core's, is marked. -/
theorem dropBeat_ctx {x : Ctx} (hx : v.ctx c = some x) :
    (dropBeat v c b).1.ctx c = some (if b.ctx = some x.uid then x.stick stMAPMISS else x) := by
  have hcount : (v.count c evMAPMISS 1).ctx c = some x := by
    rw [← hx]; simp [State.count, State.ctx, Core.count]
  unfold dropBeat
  simp only
  split
  · next uid huid =>
    unfold State.ctx
    rw [State.core_stickAt, State.modCtxOf, State.core_modCore_self]
    simp only [show ((v.count c evMAPMISS 1).core c).res = some x from hcount, Option.map_some, huid, Option.some.injEq, eq_comm]
  · next hnone => rw [hcount, hnone]; simp

end

/-! ## Beats that land (R162, R163) -/

/-- A part of a row that is not there is not whole. -/
theorem RowPart.whole_empty : ({} : RowPart).whole = false := by
  refine beq_eq_false_iff_ne.2 (fun h => ?_)
  have hbit := congrArg (fun v => v.getLsbD 0) h
  simp at hbit

/-- Rows that are whole, written and taken out of the parts, leave none that is whole. -/
theorem whole_foldl_del (ps : Map RowPart) (r : Nat) :
    (Map.get {} (((partRows ps).filter (fun r => (Map.get {} ps r).whole)).foldl Map.del ps) r).whole = false := by
  rw [Map.get_foldl_del]
  split
  · exact RowPart.whole_empty
  · next hr =>
    simp only [List.mem_filter, not_and, Bool.not_eq_true] at hr
    by_cases hp : r ∈ partRows ps
    · exact hr hp
    · rw [Map.get_of_not_mem _ (fun p hp' e => hp (mem_partRows.2 ⟨p, hp', e⟩))]
      exact RowPart.whole_empty

/-- Rows written and taken out of the parts leave the scratchpad with its parts as it was. -/
theorem landRows_gathered {v : State} {c : Nat} {me : Owner} (hme : me.sus = false) (uid : Nat) (ps : Map RowPart) {rows : List Nat}
    (hn : rows.Nodup) (ho : ∀ r ∈ rows, Map.at? (v.core c).owner (spadUnit r) = some me) (z : Nat) :
    ((landRows v c me uid ps rows).core c).gathered (rows.foldl Map.del ps) z = (v.core c).gathered ps z := by
  have hmarked : Marked c (rows.foldl (fun q r => landRow q c me r (Map.get {} ps r)) v) (landRows v c me uid ps rows) := by
    unfold landRows
    simp only
    split
    · exact .stickAt _ c _ _
    · exact .refl c _
  rw [hmarked.gathered]
  unfold Core.gathered
  rw [foldl_landRow_own hme ps rows ho, Core.spadRow_foldl_putPart ps rows _ _ hn, Map.get_foldl_del]
  split
  · rw [RowPart.over_empty]
  · rfl

section
variable {v : State} {c slot : Nat} {b : OpenBlk} {m : Rec512} {x : Ctx} {h : Hdr} {t : Beat} (ht : x.tenant = h.tenant)
  (hv : HoldsRows v c x (partRows b.parts ++ (landed m h t).flatMap (fun e => cellRows m h.origin slot t.row e.1)))
include ht hv

/-- A beat of a bound block leaves each bit as the last of its elements to reach it, or as before. -/
theorem landBeat_gathered (z : Nat) :
    ((landBeat v c b m x.uid slot h t).1.core c).gathered (landBeat v c b m x.uid slot h t).2.parts z =
      (landedAs m h.origin slot ((landed m h t).map (fun e => (t.row, e.1, e.2))) z).getD ((v.core c).gathered b.parts z) := by
  have hme : v.ownerOf c h.tenant x.uid = x.me := by simp [State.ownerOf, hv.alone, Ctx.me, ht]
  have hparts : (landed m h t).foldl (fun q e => landCell m h.origin slot t.row e.1 e.2 t.poison q) b.parts =
      landCells m h.origin slot t.poison ((landed m h t).map (fun e => (t.row, e.1, e.2))) b.parts := by
    rw [landCells, List.foldl_map]
  unfold landBeat
  simp only [hme, hparts]
  rw [landRows_gathered rfl, Core.gathered_landCells]
  · exact (List.nodup_dedup _).filter _
  · intro r hr
    refine hv.owns r ?_
    have hcells := mem_partRows_landCells m h.origin slot t.poison _ (List.mem_of_mem_filter hr)
    simpa only [List.mem_append, List.flatMap_map] using hcells

end

/-! ## A packet at a core (R159) -/

/-- What the arrival of a packet of a block does at its core: `f` is what it does to the open block. -/
def State.arriveInto (s : State) (id : Nat) (p : Packet) (c : Nat) (h : Hdr) (row : Nat) (cols : List Nat)
    (f : State → OpenBlk → State × OpenBlk) : State :=
  if (Map.at? s.applied h.blk).isSome then s.answerDup id p
  else
    match s.blockFor c p h row cols with
    | none => s.refuse id p
    | some (u, b) =>
      if (Map.at? (s.core c).blks h.blk).isNone && b.ringOf.any (fun g => s.wfreeReady c g.1 g.2) then s
      else (f ((u.unsend id).noteApplied p (.ack p.seq [] {})) b).1.setBlk c h.blk (f ((u.unsend id).noteApplied p (.ack p.seq [] {})) b).2

section
variable {s : State} {id c : Nat} {p : Packet} {h : Hdr}

/-- A beat lands in its block or is dropped. -/
theorem exec_beatArrival_beat {t : Beat} (ha : s.Arriving id p) (hd : p.dst = .core c) (hk : p.kind = .beat h t) :
    exec (.beatArrival id) s = .next (s.arriveInto id p c h t.row ((beatCells h t).map (fun e => e.1)) (fun v b => landOrDrop v c b h t)) := by
  show execBeatArrival id s = _
  rw [execBeatArrival, onPacket_of_arriving ha]
  simp only [hd, arriveAtCore, hk]
  rfl

/-- A close marker says how many beats its block has. -/
theorem exec_beatArrival_close {n : Nat} {link : Bool} (ha : s.Arriving id p) (hd : p.dst = .core c) (hk : p.kind = .close h n link) :
    exec (.beatArrival id) s = .next (s.arriveInto id p c h 0 [] (fun v b => (v, b.closed n link))) := by
  show execBeatArrival id s = _
  rw [execBeatArrival, onPacket_of_arriving ha]
  simp only [hd, arriveAtCore, hk]
  rfl

variable {row : Nat} {cols : List Nat} {f : State → OpenBlk → State × OpenBlk}

/-- A packet of a block that has completed is a duplicate (R167, R211). -/
theorem State.arriveInto_completed (hdone : (Map.at? s.applied h.blk).isSome = true) : s.arriveInto id p c h row cols f = s.answerDup id p := by
  rw [State.arriveInto, if_pos hdone]

/-- One that finds no room is refused (R159). -/
theorem State.arriveInto_refused (hnew : Map.at? s.applied h.blk = none) (hb : s.blockFor c p h row cols = none) :
    s.arriveInto id p c h row cols f = s.refuse id p := by
  simp [State.arriveInto, hnew, hb]

variable {u : State} {b : OpenBlk}

/-- One that would take the slot a `ring.wfree` takes in the same cycle waits for it (R224). -/
theorem State.arriveInto_waits {g : Nat × Nat} (hnew : Map.at? s.applied h.blk = none) (hb : s.blockFor c p h row cols = some (u, b))
    (hfirst : Map.at? (s.core c).blks h.blk = none) (hring : b.ringOf = some g) (hready : s.wfreeReady c g.1 g.2 = true) :
    s.arriveInto id p c h row cols f = s := by
  simp [State.arriveInto, hnew, hb, hfirst, hring, hready]

/-- Any other reaches its block. -/
theorem State.arriveInto_open (hnew : Map.at? s.applied h.blk = none) (hb : s.blockFor c p h row cols = some (u, b))
    (hring : Map.at? (s.core c).blks h.blk = none → ∀ g ∈ b.ringOf, s.wfreeReady c g.1 g.2 = false) :
    s.arriveInto id p c h row cols f = (f ((u.unsend id).noteApplied p (.ack p.seq [] {})) b).1.setBlk c h.blk
      (f ((u.unsend id).noteApplied p (.ack p.seq [] {})) b).2 := by
  have hno : ((Map.at? (s.core c).blks h.blk).isNone && b.ringOf.any (fun g => s.wfreeReady c g.1 g.2)) = false := by
    cases hblk : Map.at? (s.core c).blks h.blk with
    | some _ => rfl
    | none =>
      cases hr : b.ringOf with
      | none => rfl
      | some g => simpa [hr] using hring hblk g hr
  simp only [State.arriveInto, hnew, hb, hno, Option.isSome_none, Bool.false_eq_true, if_false]

end

/-! ## A close marker at a slice (R158, R210) -/

/-- A block whose marker names more beats than have been applied stays. -/
theorem State.closeSlice_waits (v : State) (p : Packet) (blk : Nat) {b : SliceBlk} {n : Nat} (hneed : b.need = some n) (hn : b.beats < n) :
    v.closeSlice p blk b = v.setSlcBlk blk b := by
  simp [State.closeSlice, hneed, Nat.not_le.2 hn]

/-- Any other is closed and acknowledged. -/
theorem State.closeSlice_closes (v : State) (p : Packet) (blk : Nat) {b : SliceBlk} {n : Nat} (hneed : b.need = some n) (hn : n ≤ b.beats) :
    Map.at? (v.closeSlice p blk b).slcBlks blk = none ∧
      Map.at? (v.closeSlice p blk b).applied blk = some (.ack blk [blk] b.info) ∧
      (∃ k q, Map.at? (v.closeSlice p blk b).net k = some q ∧ q.kind = .ack blk [blk] b.info ∧ q.dst = p.src ∧ q.cmd = p.cmd) ∧
      (v.closeSlice p blk b).mem = v.mem ∧ (v.closeSlice p blk b).cores = v.cores := by
  simp only [State.closeSlice, hneed, if_pos hn]
  generalize hq : ({ seq := 0, kind := PKind.ack blk [blk] b.info, src := p.dst, dst := p.src, tenant := p.tenant, cls := 4, cmd := p.cmd } : Packet) = q
  have hcls : 3 < q.cls := by rw [← hq]; exact Nat.lt_succ_self 3
  obtain ⟨hnet, -, -, -, happlied⟩ := State.send_free { v.dropSlcBlk blk with applied := Map.ins v.applied blk (.ack blk [blk] b.info) } q (.inl hcls)
  have hsent := Fabric.send { v.dropSlcBlk blk with applied := Map.ins v.applied blk (.ack blk [blk] b.info) } q
  refine ⟨?_, ?_, ⟨_, _, (congrArg (Map.at? · _) hnet).trans (Map.at?_ins_self _ _ _), ?_⟩, hsent.mem, hsent.cores⟩
  · rw [hsent.rest]; exact Map.at?_del_self _ _
  · rw [happlied]; exact Map.at?_ins_self _ _ _
  · subst hq; exact ⟨rfl, rfl, rfl⟩

/-! ## The clauses of BEAT_ARRIVAL -/

@[simp] theorem State.core_setBlk (s : State) (c k : Nat) (b : OpenBlk) :
    (s.setBlk c k b).core c = { s.core c with blks := Map.ins (s.core c).blks k b } :=
  State.core_modCore_self s c _

/-- Taking a packet and noting it leaves every core and memory. -/
theorem fabric_taken (u : State) (id : Nat) (p : Packet) (r : PKind) : Fabric u ((u.unsend id).noteApplied p r) :=
  (Fabric.unsend u id).trans (.noteApplied _ p r)

section
variable {s u v : State} {id c : Nat} {p : Packet} {h : Hdr} {b : OpenBlk}

/-- What a beat that no map takes leaves (R162, R171). -/
theorem dropBeat_setBlk (hmet : Marked c s u) (hv : Fabric u v) {z : State}
    (hz : z = (dropBeat v c b).1.setBlk c h.blk (dropBeat v c b).2) :
    Map.get 0 (z.core c).ev evMAPMISS = Map.get 0 (u.core c).ev evMAPMISS + 1 ∧
      Map.at? (z.core c).blks h.blk = some { b with beats := b.beats + 1, dropped := b.dropped + 1 } ∧
      (z.core c).spad = (s.core c).spad ∧ ((s.core c).sus = none → z.mem = s.mem) ∧
      (∀ x, u.ctx c = some x → (s.core c).sus = none → z.ctx c = some (if b.ctx = some x.uid then x.stick stMAPMISS else x)) := by
  subst hz
  have hall := (hmet.trans (hv.marked c)).trans (dropBeat_marked v c b)
  refine ⟨?_, ?_, ?_, fun hs => (hall.alone hs).2, fun x hx _ => ?_⟩
  · rw [State.core_setBlk, ← hv.core]
    exact dropBeat_ev v c b
  · rw [State.core_setBlk]
    exact Map.at?_ins_self _ _ _
  · rw [State.core_setBlk, hall.core]
  · unfold State.ctx
    rw [State.core_setBlk]
    exact dropBeat_ctx v c b ((hv.ctx c).trans hx)

/-- What a beat that lands leaves of its block and of the scratchpad (R162, R163). -/
theorem landBeat_setBlk (hmet : Marked c s v) {m : Rec512} {slot : Nat} {x : Ctx} {t : Beat} (ht : x.tenant = h.tenant)
    (hrows : HoldsRows v c x (partRows b.parts ++ (landed m h t).flatMap (fun e => cellRows m h.origin slot t.row e.1))) {z : State}
    (hz : z = (landBeat v c b m x.uid slot h t).1.setBlk c h.blk (landBeat v c b m x.uid slot h t).2) :
    ∃ b', Map.at? (z.core c).blks h.blk = some b' ∧ b'.beats = b.beats + 1 ∧
        b'.dropped = b.dropped ∧ (∀ r, (Map.get {} b'.parts r).whole = false) ∧
        (∀ i, (z.core c).gathered b'.parts i = ((landedAs m h.origin slot ((landed m h t).map (fun e => (t.row, e.1, e.2))) i).getD
          ((s.core c).gathered b.parts i))) := by
  subst hz
  refine ⟨(landBeat v c b m x.uid slot h t).2, ?_, rfl, rfl, whole_foldl_del _, fun i => ?_⟩
  · rw [State.core_setBlk]
    exact Map.at?_ins_self _ _ _
  · rw [State.core_setBlk, ← hmet.gathered]
    exact landBeat_gathered ht hrows i

end

/-- A close marker at a slice is taken, and its block then knows how many beats it has. -/
theorem exec_beatArrival_slice {s : State} {id sl n : Nat} {p : Packet} {h : Hdr} {link : Bool} (ha : s.Arriving id p)
    (hd : p.dst = .slice sl) (hk : p.kind = .close h n link) {v : State} (hv : v = (s.unsend id).noteApplied p (.ack p.seq [] {})) :
    exec (.beatArrival id) s = .next (v.closeSlice p h.blk { v.slcBlk h.blk with need := some n }) := by
  show execBeatArrival id s = _
  rw [execBeatArrival, onPacket_of_arriving ha]
  simp only [hd, arriveClose, hk, hv]

/-- Settles O26: a packet at a core reaches its block, or is refused, waits or is a duplicate, as `arriveInto` says; a beat of an
unbound block is dropped and one of a bound block lands bit by bit, and a marker at a slice waits or closes. -/
theorem beatArrival : Obligations.BeatArrival := by
  refine ⟨?_, ?_, ?_, ?_⟩
  · intro s u v id c p h t b ha hd hk hnew hb hring hv
    have hmet := blockFor_marked hb
    have htaken : Fabric u v := hv ▸ fabric_taken u id p _
    have hexec : exec (.beatArrival id) s = .next ((landOrDrop v c b h t).1.setBlk c h.blk (landOrDrop v c b h t).2) := by
      rw [exec_beatArrival_beat ha hd hk, State.arriveInto_open hnew hb hring, ← hv]
    refine ⟨fun hbound => ?_, fun k m uid slot hbound => ?_, fun k m slot x hbound ht hrows => ?_⟩
    · rw [landOrDrop, hbound] at hexec
      exact ⟨hexec, _, hexec, dropBeat_setBlk hmet htaken rfl⟩
    · rw [landOrDrop, hbound] at hexec
      exact hexec
    · rw [landOrDrop, hbound] at hexec
      obtain ⟨b', hb'⟩ := landBeat_setBlk (hmet.trans (htaken.marked c)) ht hrows rfl
      exact ⟨_, b', hexec, hb'⟩
  · intro s u id c n p h link b ha hd hk hnew hb hring
    rw [exec_beatArrival_close ha hd hk, State.arriveInto_open hnew hb hring]
    rfl
  · intro s id c row cols p h ha hd hkind
    obtain ⟨f, hexec⟩ : ∃ f, exec (.beatArrival id) s = .next (s.arriveInto id p c h row cols f) := by
      rcases hkind with ⟨t, hk, rfl, rfl⟩ | ⟨n, link, hk, rfl, rfl⟩
      · exact ⟨_, exec_beatArrival_beat ha hd hk⟩
      · exact ⟨_, exec_beatArrival_close ha hd hk⟩
    rw [hexec]
    refine ⟨fun hdone => ?_, fun hnew hb => ?_, fun u b g hnew hb hfirst hring hready => ?_⟩
    · rw [State.arriveInto_completed hdone]
    · rw [State.arriveInto_refused hnew hb]
      rfl
    · rw [State.arriveInto_waits hnew hb hfirst hring hready]
  · intro s v id sl n p h link b ha hd hk hv hb
    have hexec := exec_beatArrival_slice ha hd hk hv
    rw [← hb] at hexec
    have htaken : Fabric s v := hv ▸ fabric_taken s id p _
    refine ⟨fun hn => ?_, fun hn => ?_⟩
    · rw [hexec, State.closeSlice_waits v p h.blk (b := { b with need := some n }) rfl hn]
    · obtain ⟨hgone, happlied, ⟨k, q, hq, hkind, hdst, hcmd⟩, hmem, hcores⟩ :=
        State.closeSlice_closes v p h.blk (b := { b with need := some n }) rfl hn
      exact ⟨_, k, q, hexec, hgone, happlied, hq, hkind, hdst, hcmd, hmem.trans htaken.mem, hcores.trans htaken.cores⟩

end Sys2Proof.Machine
end

section
/-! SUPPORT. Clearing an accumulator (R151): what `mclr` leaves of each of its rows and of its kind. Settles O52. -/

namespace Sys2Proof.Machine

/-! ## Accumulator rows -/

/-- Rows of accumulators lie apart: a row written is the only one that reads otherwise. -/
theorem Core.accRow_setAccRow (k : Core) {a b r q : Nat} (v : AccRow) (hr : r < 128) (hq : q < 128) :
    (k.setAccRow a r v).accRow b q = if a = b ∧ r = q then v else k.accRow b q := by
  have hslot : 128 * a + r = 128 * b + q ↔ a = b ∧ r = q := by omega
  simp only [Core.accRow, Core.setAccRow, Map.get_put, hslot]

@[simp] theorem Core.accInt_setAccRow (k : Core) (a r : Nat) (v : AccRow) : (k.setAccRow a r v).accInt = k.accInt := rfl

/-- Rows of one accumulator that take a value one after another read as it, and every other row as before. -/
theorem Core.accRow_foldl_setAccRow {a b q : Nat} (v : AccRow) (hq : q < 128) (rows : List Nat) (hrows : ∀ r ∈ rows, r < 128) : ∀ k : Core,
    (rows.foldl (fun k1 r => k1.setAccRow a r v) k).accRow b q = if a = b ∧ q ∈ rows then v else k.accRow b q := by
  induction rows with
  | nil => intro k; simp
  | cons r rows ih =>
    intro k
    obtain ⟨hr, hrest⟩ := List.forall_mem_cons.1 hrows
    rw [List.foldl_cons, ih hrest, Core.accRow_setAccRow k v hr hq]
    by_cases ha : a = b
    · by_cases hqr : r = q
      · simp [ha, hqr]
      · simp [ha, hqr, Ne.symm hqr]
    · simp [ha]

/-- Writing rows leaves every accumulator's kind. -/
theorem Core.accInt_foldl_setAccRow (a : Nat) (v : AccRow) (rows : List Nat) : ∀ k : Core,
    (rows.foldl (fun k1 r => k1.setAccRow a r v) k).accInt = k.accInt := by
  induction rows with
  | nil => exact fun _ => rfl
  | cons r rows ih => intro k; rw [List.foldl_cons, ih, Core.accInt_setAccRow]

/-- A core with rows of an accumulator cleared, and the marks of those rows with them (R151, R308). -/
def Core.clearAcc (k : Core) (a : Nat) (rows : List Nat) : Core :=
  (rows.foldl (fun k1 r => k1.setAccRow a r 0) k).healAcc a rows

/-- The rows cleared read 0, and every other row as before. -/
theorem Core.accRow_clearAcc (k : Core) (a b : Nat) {q : Nat} {rows : List Nat} (hq : q < 128) (hrows : ∀ r ∈ rows, r < 128) :
    (k.clearAcc a rows).accRow b q = if a = b ∧ q ∈ rows then 0 else k.accRow b q :=
  Core.accRow_foldl_setAccRow 0 hq rows hrows k

@[simp] theorem Core.accInt_clearAcc (k : Core) (a : Nat) (rows : List Nat) : (k.clearAcc a rows).accInt = k.accInt :=
  Core.accInt_foldl_setAccRow a 0 rows k

/-- A word acts on the rows that its mask selects, of those there are. -/
theorem mem_selRows {w : QWord} {n r : Nat} : r ∈ selRows w n ↔ r < n ∧ w.mask.getLsbD r = true := by
  simp [selRows, rowSel]

/-! ## The word -/

/-- `mclr` as it passes capture: it touches the units of the rows that it clears. -/
def clearWord (x : Ctx) (c : BitVec 2) : QWord :=
  { mkWord x (.mclr c) { eng := .m } [] with
    units := ((selRows (mkWord x (.mclr c) { eng := .m } []) 128).map (accUnit c.toNat)).dedup }

/-- The rows a word selects follow from its mask, so a word with `mclr`'s mask that names the units of its own rows is `mclr`. -/
theorem eq_clearWord {x : Ctx} {c : BitVec 2} {w : QWord}
    (hw : w = { mkWord x (.mclr c) { eng := .m } [] with units := ((selRows w 128).map (accUnit c.toNat)).dedup }) :
    w = clearWord x c := by
  have hsel : selRows w 128 = selRows (mkWord x (.mclr c) { eng := .m } []) 128 := by
    unfold selRows
    rw [congrArg QWord.mask hw]
  rw [hsel] at hw
  exact hw

/-- `mclr` of an idle strand passes capture: it reads no operand, pushes nothing and waits for nothing. -/
theorem passes_mclr {s : State} {x : Ctx} (h : Idle s x) (c : BitVec 2) :
    Passes s x (.mclr c) { eng := .m } (fun _ _ _ w => .ok { w with units := ((selRows w 128).map (accUnit c.toNat)).dedup })
      [] [] (clearWord x c) where
  priv h := by cases h
  dest _ h := by cases h
  credit := rfl
  read := rfl
  handle h := by cases h
  check := rfl
  room := h.elems
  order := by rw [Ctx.enrol_plain x _ _ rfl rfl rfl]; rfl
  apart t := by rw [Ctx.enrol_plain x _ _ rfl rfl rfl]; exact clashesBefore_footless rfl rfl
  gate := .inl rfl
  same := ⟨rfl, rfl, rfl, rfl, rfl⟩

/-- `mclr` of an idle strand clears its accumulator's selected rows, its units touched. -/
theorem exec_mclr {s u : State} {x : Ctx} (h : Idle s x) (c : BitVec 2)
    (hu : u = touchUnits (s.entered x { eng := .m } (clearWord x c) []) s.cur x.me (clearWord x c).units) :
    exec (.mclr c) s = .next (u.modCore s.cur (fun k => k.clearAcc c.toNat (selRows (clearWord x c) 128))) := by
  obtain ⟨y, hy, -⟩ := entered_pred (sp := { eng := .m }) h.resident (clearWord x c) []
  have huy : u.ctx s.cur = some y := by rw [hu, touchUnits_ctx, hy]
  have hv : clearWord x c = (x.enrol { eng := .m } (s.tenant x.tenant).scap (clearWord x c)).2 := by
    rw [Ctx.enrol_plain x _ _ rfl rfl rfl]; rfl
  exact accWords_complete s u x y (.mclr c) _ [] [] (clearWord x c) (clearWord x c) rfl h (passes_mclr h c) hv hu huy trivial

end Sys2Proof.Machine

namespace Sys2Proof
open Machine

/-- Settles O52: `mclr` is the row's encoding, and the rows it clears are those of its accumulator that the mask selects. -/
theorem clearAccumulator : Obligations.ClearAccumulator := by
  refine ⟨fun c => decodeOfEncode (.mclr c) _ rfl rfl, fun s u x c w h hw hu => ?_⟩
  obtain rfl := eq_clearWord hw
  have hrow : ∀ a r, r < 128 → ((u.modCore s.cur (fun k => k.clearAcc c.toNat (selRows (clearWord x c) 128))).core s.cur).accRow a r =
      if c.toNat = a ∧ (maskOf x x.grp.pfx).getLsbD r = true then 0 else (u.core s.cur).accRow a r := by
    intro a r hr
    have hsel : r ∈ selRows (clearWord x c) 128 ↔ (maskOf x x.grp.pfx).getLsbD r = true := mem_selRows.trans (and_iff_right hr)
    rw [State.core_modCore_self, Core.accRow_clearAcc _ _ _ hr (fun _ hq => (mem_selRows.1 hq).1)]
    exact if_congr (and_congr_right' hsel) rfl rfl
  refine ⟨_, exec_mclr h c hu, ?_, fun r hr hmask => ?_, fun a r hr hout => ?_⟩
  · rw [State.core_modCore_self, Core.accInt_clearAcc]
  · rw [hrow _ _ hr, if_pos ⟨rfl, hmask⟩]
  · rw [hrow _ _ hr, if_neg]
    rintro ⟨rfl, hmask⟩
    rcases hout with hne | hoff
    · exact hne rfl
    · rw [hmask] at hoff; cases hoff

end Sys2Proof
end

section
/-! SUPPORT. Words that load records, the step cache's, the reduction's and global maps (R161, R173, R184-R189, R262, R274): what each
changes as it passes capture, and what its start sends. Settles O14. -/

namespace Sys2Proof.Machine

/-! ## What the words change of their context -/

/-- A descriptor is listed beside the words waiting and started (R173). -/
theorem blind_desc (k : Nat) (d : Rec512) : Blind (fun x => { x with desc := Map.ins x.desc k d }) :=
  ⟨fun _ => rfl, fun _ => rfl, fun _ => rfl, fun _ => rfl, fun _ _ => rfl⟩

/-- So is a microword (R187). -/
theorem blind_mws (k : Nat) (m : Dword) : Blind (fun x => { x with mws := Map.put 0 x.mws k m }) :=
  ⟨fun _ => rfl, fun _ => rfl, fun _ => rfl, fun _ => rfl, fun _ _ => rfl⟩

/-- The slots whose maps are captured change beside them too (R161). -/
theorem blind_mapCap (f : List Nat → List Nat) : Blind (fun x => { x with mapCap := f x.mapCap }) :=
  ⟨fun _ => rfl, fun _ => rfl, fun _ => rfl, fun _ => rfl, fun _ _ => rfl⟩

/-! ## Words that finish as they start, and words under way -/

/-- A word that is no operation, touches its record and changes its context as it passes, and finishes (R184). -/
theorem word_record {r : WordSpec} {run : RunFn} {i : Instr} {s u : State} {x y : Ctx} {vals : List Dword} {pops : List Nat}
    {w v : QWord} {g : QWord → Ctx → Ctx} (h : Idle s x) (hp : Passes s x i r.sp r.chk vals pops w)
    (hv : v = (x.enrol r.sp (s.tenant x.tenant).scap w).2)
    (hu : u = touchUnits (passing r.sp r.act (s.entered x r.sp w pops) s.cur v) s.cur x.me w.units)
    (hact : r.act = recordAct g) (hg : Blind (g v)) (hst : i.still = true) (hm : r.sp.mem = false)
    (hr : run u s.cur v = .done (r.out u s.cur y v)) : issue i r.sp r.chk r.act run s = .next (r.out u s.cur y v) := by
  obtain ⟨-, hseqr, -⟩ := Passes.word h hp hv
  refine word_plain h hp hv hu (fun y0 hy0 => ?_) hst hm hr
  rw [hact]
  exact acts_record hg hy0 (.inl (hseqr hm))

/-- A word that does nothing as it passes, and whose local accesses are over once it has sent its packets (R177). -/
theorem word_sent {r : WordSpec} {run : RunFn} {i : Instr} {s u t : State} {x y : Ctx} {vals : List Dword} {pops : List Nat}
    {w v : QWord} (h : Idle s x) (hp : Passes s x i r.sp r.chk vals pops w) (hv : v = (x.enrol r.sp (s.tenant x.tenant).scap w).2)
    (hu : u = touchUnits (passing r.sp r.act (s.entered x r.sp w pops) s.cur v) s.cur x.me w.units) (hact : r.act = noAct)
    (hst : i.still = true) (hr : run u s.cur v = .sent t) (ho : r.out u s.cur y v = t.sent1 s.cur v) :
    issue i r.sp r.chk r.act run s = .next (r.out u s.cur y v) :=
  word_still h hp hv hu (fun y0 hy0 => hact ▸ acts_none h y0 hy0) hst (fun _ _ => by rw [hr, ho]; rfl)

/-! ## What a step-cache word reads (R274-R277) -/

/-- What the checks of a step-cache word leave of it: no row was read ahead for it. -/
theorem sacChk_gath {slot c : Nat} {out : Bool} {s : State} {x : Ctx} {w0 w : QWord} (h : sacChk slot out s c x w0 = .ok w) :
    w.gath = w0.gath := by
  unfold sacChk at h
  simp only at h
  split at h
  · split at h
    · cases h
    · split at h
      · cases h
      · split at h
        · cases h
        · cases h; rfl
  · cases h

/-- Enrolment reads none ahead either. -/
@[simp] theorem Ctx.enrol_gath (x : Ctx) (sp : CapSpec) (k : Nat) (w : QWord) : (x.enrol sp k w).2.gath = w.gath := by
  obtain ⟨_, _, _, _, _, _, he⟩ := Ctx.enrol_word_eq x sp k w
  rw [he]

/-- Where no row was read ahead, `xrpf` reads its output block as the core stands (R277). -/
theorem outCore_of_gath {w : QWord} (h : w.gath = []) (k : Core) : outCore k w = k := by
  unfold outCore
  rw [h]
  rfl

/-! ## What the starts send -/

section
variable {u : State} {c : Nat} {y : Ctx} {v : QWord} (hy : u.ctx c = some y)
include hy

/-- A check: its block streams to its key's home slice, and the check closes it (R275). -/
theorem runXrpl_sent : runXrpl u c v = .sent (u.issues c y v 0x0D 0 0 1 [u.nextId] (fun cmd =>
    (streamBeats (u.core c) v.desc y (some (sacKey v)) u.nextId ++
      [PKind.sacCheck (sacKey v) (blockOf (u.core c) v.desc) ((op1 v).setWidth 32) (bits (op1 v).toNat 32 1) v.step v.sacage false]).map
        (pkt y c cmd (.slice (sacHome (sacKey v) y.tenant)) [u.nextId]))) := by
  unfold runXrpl
  rw [hy]
  rfl

/-- A fill: both blocks stream there, and the fill closes the second (R277). -/
theorem runXrpf_sent (hg : v.gath = []) : runXrpf u c v = .sent (u.issues c y v 0x0E 0 0 2 [u.nextId, u.nextId + 1] (fun cmd =>
    (streamBeats (u.core c) v.desc y (some (sacKey v)) u.nextId ++
      [PKind.sacIn (sacKey v) u.nextId (blockOf (u.core c) v.desc).beats] ++
        streamBeats (u.core c) v.desc2 y (some (sacKey v)) (u.nextId + 1) ++
        [PKind.sacFill (sacKey v) (blockOf (u.core c) v.desc) (blockOf (u.core c) v.desc2) v.step false]).map
          (pkt y c cmd (.slice (sacHome (sacKey v) y.tenant)) [u.nextId, u.nextId + 1]))) := by
  unfold runXrpf
  simp only [hy, outCore_of_gath hg]
  rfl

/-- A global map spreads to every slice and to the cores of its tenant's partition, and shuts the queue (R186). -/
theorem runXgmap_shut : runXgmap u c v = .shut (spreadMap u c y v 0x10 (.gmapIns v.gmap) (u.partition y.tenant)) := by
  unfold runXgmap
  rw [hy]

end


/-- The packets of a reduction of one contribution: its own block comes back, and the status after it (R263). -/
def soleResult (u : State) (c : Nat) (y : Ctx) (v : QWord) (cmd : Nat) : List Packet :=
  let b := blockOf (u.core c) v.desc
  let rows := (blockRows (u.core c) v.desc).map (fun r => { r with cells := r.cells.map (fun v => (v.1, false)) })
  (blockPackets y c cmd b.tag b.etype 0 (beatsOf b.etype rows) [(.core c, u.nextId + 1)] ++
    [pkt y c cmd (.core c) [u.nextId] (.redStatus (redGroup v) (some (redStatusWord (redGroup v) 1)) 0 0 (u.nextId + 1))]).map
      (fun p => { p with cls := 5 })

/-- Those of any other: the block streams to the core's node, and the contribution closes it (R262). -/
def contribution (u : State) (c : Nat) (y : Ctx) (v : QWord) (cmd : Nat) : List Packet :=
  let g := redGroup v
  let b := blockOf (u.core c) v.desc
  let grp := Map.get {} u.groups g
  let root := ((List.range 63).find? (fun n => bits (Map.get 0 grp.tree n).toNat 38 6 = 0x3F)).getD 0
  (streamBeats (u.core c) v.desc y none (u.nextId + 1) ++
    [PKind.redContrib g (bits (Map.get 0 grp.attach c) 4 6) (bits (Map.get 0 grp.attach c) 0 4) c (redCount v) b.tag b.shape b.elems
      true (u.nextId + 1) b.beats]).map (fun k =>
    { pkt y c cmd (.slice (bits (Map.get 0 grp.tree root).toNat 0 8 % 128)) [] k with cls := 5 })

/-- What `xred` sends (R189, R262). -/
theorem runXred_sent {u : State} {c : Nat} {y : Ctx} {v : QWord} (hy : u.ctx c = some y) : runXred u c v = .sent
    (if redCount v = 1 then u.issues c y v 0x0F 0 (redGroup v) 2 [u.nextId, u.nextId + 1] (soleResult u c y v)
      else u.issues c y v 0x0F 0 (redGroup v) 2 [u.nextId] (contribution u c y v)) := by
  unfold runXred
  simp only [hy]
  split
  · rfl
  · rfl

/-! ## Global maps (R186) -/

/-- The cores that a map is removed from: those of the tenant's partition, and those that cache it. -/
def State.unmapped (u : State) (t tag : Nat) : List Nat :=
  u.partition t ++ (u.cachers t tag).filter (fun k => k ∉ u.partition t)

/-- Removing a map that no slice has finishes at once; any other spreads and shuts the queue. -/
theorem runXgunmap_eq {u : State} {c : Nat} {y : Ctx} {v : QWord} (hy : u.ctx c = some y) : runXgunmap u c v =
    if (Map.at? (u.tenant y.tenant).gmaps ((op0 v).toNat % 4096)).isNone then .done u
    else .shut (spreadMap u c y v 0x11 (.gmapDel ((op0 v).toNat % 4096)) (u.unmapped y.tenant ((op0 v).toNat % 4096))) := by
  unfold runXgunmap
  rw [hy]
  rfl

/-- The pages that a map pins, none where one does not translate. -/
def State.pinsOf (u : State) (t : Nat) (g : Rec512) : Map Nat :=
  match pinAll u t g (List.range 128) [] with
  | .ok m => m
  | .error _ => []

/-- They do not depend on the context that runs. -/
theorem State.pinsOf_setCtx (u : State) (c t : Nat) (x : Ctx) (g : Rec512) : (u.setCtx c x).pinsOf t g = u.pinsOf t g := by
  unfold State.pinsOf
  rw [pinAll_setCtx]

/-- A tenant with a map and the pages it pins. -/
def Tenant.withMap (t : Tenant) (g : Rec512) (pins : Map Nat) : Tenant :=
  { t with gmaps := Map.ins t.gmaps (gTag g) g, pins := Map.ins t.pins (gTag g) pins }

/-- A core with what it caches of a tenant's maps changed. -/
def Core.recache (k : Core) (t : Nat) (f : Map Rec512 → Map Rec512) : Core :=
  { k with gcache := Map.ins k.gcache t (f (Map.get [] k.gcache t)) }

/-- `xgmap` as it passes lists the map with its tenant and in its core's cache. -/
def mapAct : State → Nat → QWord → State := fun u c v =>
  match u.ctx c with
  | none => u
  | some z =>
    ((touchRecord u c v).modTenant z.tenant (fun t => t.withMap v.gmap (u.pinsOf z.tenant v.gmap))).modCore c
      (fun k => k.recache z.tenant (fun m => Map.ins m (gTag v.gmap) v.gmap))

/-- It leaves its queue to the word. -/
theorem acts_map {t : State} {c : Nat} {v : QWord} {y : Ctx} (hy : t.ctx c = some y) (ht : t.setCtx c y = t) : Acts mapAct t c v y y := by
  refine acts_global (tid := y.tenant) (f := fun q => q.withMap v.gmap (t.pinsOf y.tenant v.gmap))
    (g := fun k => k.recache y.tenant (fun m => Map.ins m (gTag v.gmap) v.gmap)) hy ht (fun q => ?_) (fun _ _ => rfl) (fun _ hk => hk)
  unfold mapAct
  simp only [State.ctx_setCtx_self, State.pinsOf_setCtx]

/-- `xgunmap` as it passes takes the map out of its core's cache. -/
def unmapAct : State → Nat → QWord → State := fun u c v =>
  match u.ctx c with
  | none => u
  | some z => u.modCore c (fun k => k.recache z.tenant (fun m => Map.del m ((op0 v).toNat % 4096)))

/-- So does this. -/
theorem acts_unmap {t : State} {c : Nat} {v : QWord} {y : Ctx} (ht : t.setCtx c y = t) : Acts unmapAct t c v y y := by
  refine acts_core (f := fun k => k.recache y.tenant (fun m => Map.del m ((op0 v).toNat % 4096))) ht (fun q => ?_) (fun _ _ => rfl)
    (fun _ hk => hk)
  unfold unmapAct
  simp only [State.ctx_setCtx_self]

/-! ## The table -/

/-- Each row's word changes its context, its tenant's maps or its core's as it passes capture, and finishes or sends its packets. -/
theorem recordWords_complete : WordsComplete recordWords := by
  intro s u x y i r vals pops w v hr h hp hv hu hy _
  cases i
  case xdesc k a =>
    cases hr
    exact word_record (run := runXdesc) (y := y) h hp hv hu rfl (blind_desc k.toNat v.desc) rfl rfl rfl
  case xmap k a =>
    cases hr
    exact word_record (run := runXmap k) (y := y) h hp hv hu rfl (blind_mapCap fun l => addMark l k.toNat) rfl rfl rfl
  case xswap k a =>
    cases hr
    exact word_record (run := runXswap k) (y := y) h hp hv hu rfl (blind_mapCap fun l => addMark l k.toNat) rfl rfl rfl
  case xunmap k =>
    cases hr
    exact word_ctx (g := fun _ z => { z with mapCap := z.mapCap.filter (fun m => m ≠ k.toNat) }) (run := runXunmap k) (y := y) h hp hv hu rfl
      (blind_mapCap fun l => l.filter (fun m => m ≠ k.toNat)) rfl rfl rfl
  case xmw k a =>
    cases hr
    exact word_record (run := runXmw) (y := y) h hp hv hu rfl (blind_mws k.toNat v.cap) rfl rfl rfl
  case xrpl d a b => cases hr; exact word_sent (run := runXrpl) h hp hv hu rfl rfl (runXrpl_sent hy) rfl
  case xrpf d a b =>
    cases hr
    have hw : w.gath = [] := sacChk_gath (s := s) (c := s.cur) hp.check
    have hg : v.gath = [] := by rw [hv, Ctx.enrol_gath, hw]
    exact word_sent (run := runXrpf) h hp hv hu rfl rfl (runXrpf_sent hy hg) rfl
  case xred d ab =>
    cases hr
    refine word_sent (run := runXred) h hp hv hu rfl rfl (runXred_sent hy) ?_
    by_cases hone : redCount v = 1
    · simp only [hone, if_true]; rfl
    · simp only [hone, if_false]; rfl
  case xgmap a =>
    cases hr
    exact word_still (run := runXgmap) h hp hv hu (fun y0 hy0 => ⟨y0, acts_map hy0 (reserving_same h.resident hy0)⟩) rfl
      (fun _ _ => by rw [runXgmap_shut hy]; rfl)
  case xgunmap a =>
    cases hr
    obtain ⟨-, hseqr, -⟩ := Passes.word h hp hv
    refine word_still (run := runXgunmap) h hp hv hu (fun y0 hy0 => ⟨y0, acts_unmap (reserving_same h.resident hy0)⟩) rfl
      (fun _ hsig => ?_)
    rw [runXgunmap_eq hy]
    by_cases hnone : (Map.at? (u.tenant y.tenant).gmaps ((op0 v).toNat % 4096)).isNone = true
    · simp only [hnone, if_true]
      exact afterRun_done hsig (hseqr rfl)
    · simp only [hnone]; rfl
  all_goals cases hr

end Sys2Proof.Machine

namespace Sys2Proof

/-- Settles O14: every word of the table completes. -/
theorem recordWords : Obligations.RecordWords := Machine.recordWords_complete

end Sys2Proof
end

section
/-! SUPPORT. Blocks of global tensors at slices (R158, R170, R171, R177, R181, R182, R188, R282): what a put, an accumulate and a block
request do there. Settles O31. -/

namespace Sys2Proof.Machine

/-! ## Beats at a slice (R170, R181) -/

section
variable {s : State} {id sl : Nat} {p : Packet} {h : Hdr} {b : Beat}

/-- A put beat with a map writes its elements, its bytes that are whole losing their marks. -/
def State.putBeat (s : State) (t : Nat) (h : Hdr) (cells : List (Nat × Nat)) : State :=
  cleanGlob (cells.foldl (fun q e => putGlob q t h.tag e.1 (cellBits h.etype) e.2) s) t h.tag (cells.map (fun e => (e.1, cellBits h.etype)))

/-- A poisoned beat leaves its bytes marked. -/
def State.markBeat (s : State) (t : Nat) (h : Hdr) (cells : List (Nat × Nat)) : State :=
  cells.foldl (fun q e => poisonGlob q t h.tag e.1 (cellBits h.etype)) s

/-- What a poisoned beat reports: ECC with the first of its addresses, and the lines it wrote (R182). -/
def poisonInfo (cells : List (Nat × Nat)) (lines : List Nat) : AckInfo :=
  match cells with
  | e :: _ => { cause := 9, tval := BitVec.ofNat 64 (e.1 / 8), lines := lines }
  | [] => { lines := lines }

section
variable (ha : s.Arriving id p) (hd : p.dst = .slice sl) (hk : p.kind = .put h b)
include ha hd hk

/-- A put beat without a map is dropped with MAP (R171). -/
theorem exec_slicePutBeat_mapless (hm : sliceMap s p h = none) : exec (.slicePutBeat id) s = .next (s.sliceBeat id p h mapMiss true) := by
  show execSlicePutBeat id s = _
  rw [execSlicePutBeat, onPacket_of_arriving ha]
  simp only [hk, hd, hm]

variable {g : Rec512} {cells : List (Nat × Nat)} {lines : List Nat} (hm : sliceMap s p h = some g) (hc : cells = sliceCells g h b)
  (hl : lines = linesOf (cells.flatMap (fun e => globBytes s p.tenant h.tag e.1 (cellBits h.etype))))
include hm hc hl

/-- A sound one with a map writes its elements and reports the lines (R170). -/
theorem exec_slicePutBeat_sound (hb : b.poison = false) :
    exec (.slicePutBeat id) s = .next ((s.putBeat p.tenant h cells).sliceBeat id p h { lines := lines } false) := by
  show execSlicePutBeat id s = _
  rw [execSlicePutBeat, onPacket_of_arriving ha]
  simp only [hk, hd, hm, hb, hl, hc]
  rfl

/-- A poisoned one writes them too, marks their bytes and reports ECC (R182; notes/assumptions/37). -/
theorem exec_slicePutBeat_poisoned (hb : b.poison = true) : exec (.slicePutBeat id) s =
    .next (((s.putBeat p.tenant h cells).markBeat p.tenant h cells).sliceBeat id p h (poisonInfo cells lines) false) := by
  show execSlicePutBeat id s = _
  rw [execSlicePutBeat, onPacket_of_arriving ha]
  simp only [hk, hd, hm, hb, ← hc, ← hl]
  cases cells with
  | nil => rfl
  | cons e es => rfl

end

section
variable {op : Nat} (ha : s.Arriving id p) (hd : p.dst = .slice sl) (hk : p.kind = .acc h b op) (hw : accWaits s p h b = false)
include ha hd hk hw

/-- An accumulate beat without a map is dropped with MAP (R171). -/
theorem exec_sliceAccumulate_mapless (hm : sliceMap s p h = none) :
    exec (.sliceAccumulate id) s = .next (s.sliceBeat id p h mapMiss true) := by
  show execSliceAccumulate id s = _
  rw [execSliceAccumulate, onPacket_of_arriving ha]
  simp only [hk, hd, hw, hm]
  rfl

variable {g : Rec512} (hm : sliceMap s p h = some g)
include hm

/-- What an accumulate reports: ECC with the first address that keeps a mark, and the lines it wrote (R181, R182). -/
def accumInfo (bad : Option Nat) (lines : List Nat) : AckInfo :=
  match bad with
  | some a => { cause := 9, tval := BitVec.ofNat 64 a, lines := lines }
  | none => { lines := lines }

/-- A sound one with a map combines its elements with those in place (R181). -/
theorem exec_sliceAccumulate_sound (hb : b.poison = false) {r : State × Option Nat × List Nat}
    (hr : r = accumCells s p.tenant h op (sliceCells g h b) none []) :
    exec (.sliceAccumulate id) s = .next (r.1.sliceBeat id p h (accumInfo r.2.1 (linesOf r.2.2)) false) := by
  show execSliceAccumulate id s = _
  rw [execSliceAccumulate, onPacket_of_arriving ha]
  simp only [hk, hd, hw, hm, hb, hr]
  rfl

/-- A poisoned one only marks their bytes, and reports ECC (R182). -/
theorem exec_sliceAccumulate_poisoned (hb : b.poison = true) : exec (.sliceAccumulate id) s =
    .next ((s.markBeat p.tenant h (sliceCells g h b)).sliceBeat id p h (poisonInfo (sliceCells g h b) []) false) := by
  show execSliceAccumulate id s = _
  rw [execSliceAccumulate, onPacket_of_arriving ha]
  simp only [hk, hd, hw, hm, hb]
  cases sliceCells g h b with
  | nil => rfl
  | cons e es => rfl

end

end

/-! ## A beat without a map (R171) -/

/-- The block of a beat dropped for want of a map. -/
def SliceBlk.missed (b : SliceBlk) : SliceBlk :=
  { b with beats := b.beats + 1, info := b.info.merge mapMiss, dropped := true }

/-- A dropped block counts with its tenant once. -/
theorem State.sliceBeat_mapless (s : State) (id : Nat) (p : Packet) (h : Hdr) : ∃ v : State, Fabric s v ∧
    s.sliceBeat id p h mapMiss true =
      (if (s.slcBlk h.blk).dropped then v else v.sliceDrop p.tenant 1).closeSlice p h.blk (s.slcBlk h.blk).missed := by
  refine ⟨(s.unsend id).noteApplied p (.ack p.seq [] {}), fabric_taken s id p _, ?_⟩
  have hblk : ((s.unsend id).noteApplied p (.ack p.seq [] {})).slcBlk h.blk = s.slcBlk h.blk := by
    unfold State.slcBlk
    rw [(fabric_taken s id p _).rest]
  unfold State.sliceBeat SliceBlk.missed
  simp only [hblk, Bool.true_and, Bool.or_true]
  cases (s.slcBlk h.blk).dropped <;> rfl

/-- Closing a block at a slice, or keeping it, leaves memory, its marks, and the dropped blocks that a tenant counts. -/
theorem State.closeSlice_frame (v : State) (p : Packet) (blk : Nat) (b : SliceBlk) : (v.closeSlice p blk b).mem = v.mem ∧
    (v.closeSlice p blk b).memPoison = v.memPoison ∧ ∀ k, ((v.closeSlice p blk b).tenant k).dropped = (v.tenant k).dropped := by
  unfold State.closeSlice
  split
  · split
    · have hsent := fun q => Fabric.send { v.dropSlcBlk blk with applied := Map.ins v.applied blk (.ack blk [blk] b.info) } q
      exact ⟨(hsent _).mem, (hsent _).memPoison, fun k => by rw [(hsent _).tenant k]; rfl⟩
    · exact ⟨rfl, rfl, fun _ => rfl⟩
  · exact ⟨rfl, rfl, fun _ => rfl⟩

/-- A block that no marker has named stays, as one of which beats are still to come. -/
theorem State.closeSlice_keeps (v : State) (p : Packet) (blk : Nat) {b : SliceBlk} (hneed : ∀ n, b.need = some n → b.beats < n) :
    v.closeSlice p blk b = v.setSlcBlk blk b := by
  cases hb : b.need with
  | none => simp [State.closeSlice, hb]
  | some n => exact State.closeSlice_waits v p blk hb (hneed n hb)

/-- What dropping a beat for want of a map leaves: memory, its count, and its block, closed with MAP or one beat further. -/
theorem State.sliceBeat_misses (s : State) (id : Nat) (p : Packet) (h : Hdr) {t : State} (ht : t = s.sliceBeat id p h mapMiss true) :
    t.mem = s.mem ∧ t.memPoison = s.memPoison ∧
      (t.tenant p.tenant).dropped = (s.tenant p.tenant).dropped + (if (s.slcBlk h.blk).dropped then 0 else 1) ∧
      (∀ n, (s.slcBlk h.blk).need = some n → n ≤ (s.slcBlk h.blk).beats + 1 → ∃ k q, Map.at? t.net k = some q ∧ q.dst = p.src ∧
        q.cmd = p.cmd ∧ q.kind = .ack h.blk [h.blk] ((s.slcBlk h.blk).info.merge mapMiss)) ∧
      ((∀ n, (s.slcBlk h.blk).need = some n → (s.slcBlk h.blk).beats + 1 < n) → t.slcBlk h.blk = (s.slcBlk h.blk).missed) := by
  obtain ⟨v, hv, hbeat⟩ := State.sliceBeat_mapless s id p h
  have hcount : ∀ w : State, w = (if (s.slcBlk h.blk).dropped then v else v.sliceDrop p.tenant 1) → w.mem = s.mem ∧
      w.memPoison = s.memPoison ∧
      (w.tenant p.tenant).dropped = (s.tenant p.tenant).dropped + (if (s.slcBlk h.blk).dropped then 0 else 1) := by
    rintro w rfl
    have hdropped : (v.tenant p.tenant).dropped = (s.tenant p.tenant).dropped := by rw [hv.tenant p.tenant]
    split
    · exact ⟨hv.mem, hv.memPoison, hdropped⟩
    · refine ⟨hv.mem, hv.memPoison, ?_⟩
      rw [State.sliceDrop, State.tenant_modTenant_self, hdropped]
  rw [hbeat] at ht
  generalize (if (s.slcBlk h.blk).dropped then v else v.sliceDrop p.tenant 1) = w at ht hcount
  obtain ⟨hmem, hpoison, hdropped⟩ := hcount w rfl
  obtain ⟨fmem, fpoison, fdropped⟩ := State.closeSlice_frame w p h.blk (s.slcBlk h.blk).missed
  subst ht
  refine ⟨fmem.trans hmem, fpoison.trans hpoison, (fdropped _).trans hdropped, fun n hneed hn => ?_, fun hneed => ?_⟩
  · obtain ⟨-, -, ⟨k, q, hq, hkind, hdst, hcmd⟩, -⟩ := State.closeSlice_closes w p h.blk (b := (s.slcBlk h.blk).missed) hneed hn
    exact ⟨k, q, hq, hdst, hcmd, hkind⟩
  · rw [State.closeSlice_keeps w p h.blk hneed]
    exact Map.get_ins_self _ _ _ _

/-! ## Block requests (R177, R188) -/

section
variable {s : State} {id sl : Nat} {p : Packet} {d : Rec512} {mw src origin : Dword} {outT : Nat} {dests : List (Leaf × Nat)} {ftz : Nat}
  {seed srq : BitVec 32} {bfx : List Dword} {rid : Nat} (ha : s.Arriving id p) (hd : p.dst = .slice sl)
  (hk : p.kind = .blockReq d mw src origin outT dests ftz seed srq bfx rid)
include ha hd hk

/-- Every destination receives a copy of the rows inside both extents. -/
theorem exec_sliceBlockRequest_serves {g : Rec512} {rows : List (BRow × Nat)} (hg : s.gmapAt p.tenant (dTag d) sl = some g)
    (hr : rows = (requestRows g d src).map (requestRow s p.tenant g (((s.gmapAt p.tenant ((dTag d + 1) % 4096) sl)).getD 0) d mw bfx src
      origin outT ftz seed srq)) :
    exec (.sliceBlockRequest id) s = .next ((s.answer id p (.ack p.seq [rid] { flushes := (rows.map (fun r => r.2)).sum })).sendAll
      (sliceBlock p (dTag d) outT origin (beatsOf outT (rows.map (fun r => r.1))) dests)) := by
  show execSliceBlockRequest id s = _
  rw [execSliceBlockRequest, onPacket_of_arriving ha]
  simp only [hk, hd, hg, hr]

/-- Without a map each receives a marker that names no beat, and the block counts as dropped. -/
theorem exec_sliceBlockRequest_mapless (hg : s.gmapAt p.tenant (dTag d) sl = none) : exec (.sliceBlockRequest id) s =
    .next (((s.sliceDrop p.tenant 1).answer id p (.ack p.seq [rid] mapMiss)).sendAll (sliceBlock p (dTag d) outT origin [] dests)) := by
  show execSliceBlockRequest id s = _
  rw [execSliceBlockRequest, onPacket_of_arriving ha]
  simp only [hk, hd, hg]

end

/-- Settles O31: a put and an accumulate do to the beat's cells what their maps say, a beat without a map is dropped, and a block
request is served. -/
theorem sliceWrites : Obligations.SliceWrites := by
  refine ⟨fun s id sl p h b ha hd => ⟨?_, ?_, ?_⟩, ?_⟩
  · intro g cells lines hk hm hc hl
    refine ⟨exec_slicePutBeat_sound ha hd hk hm hc hl, fun hb => ?_⟩
    rw [exec_slicePutBeat_poisoned ha hd hk hm hc hl hb]
    cases cells <;> rfl
  · intro g op r hk hw hm hr
    refine ⟨fun hb => ?_, fun hb => ?_⟩
    · rw [exec_sliceAccumulate_sound ha hd hk hw hm hb hr]
      cases r.2.1 <;> rfl
    · rw [exec_sliceAccumulate_poisoned ha hd hk hw hm hb]
      cases sliceCells g h b <;> rfl
  · intro i hi hm
    have hexec : exec i s = .next (s.sliceBeat id p h mapMiss true) := by
      rcases hi with ⟨rfl, hk⟩ | ⟨op, rfl, hk, hw⟩
      · exact exec_slicePutBeat_mapless ha hd hk hm
      · exact exec_sliceAccumulate_mapless ha hd hk hw hm
    exact ⟨_, hexec, State.sliceBeat_misses s id p h rfl⟩
  · intro s id sl p d mw src origin outT dests ftz seed srq bfx rid ha hd hk
    exact ⟨fun g rows hg hr => exec_sliceBlockRequest_serves ha hd hk hg hr, exec_sliceBlockRequest_mapless ha hd hk⟩

end Sys2Proof.Machine
end

section
/-! SUPPORT. A block at a core that is whole (R159, R165, R166, R182): what filling it leaves of the scratchpad, of the counts and of its
context, what becomes of its ring slot, and its acknowledgement. Settles O28. -/

namespace Sys2Proof.Machine

/-! ## Parts of rows written (R134, R167) -/

section
variable (c : Nat) (me : Owner)

/-- Writing a row in place leaves the core's context. -/
theorem landRow_ctx (hme : me.sus = false) (s : State) (row : Nat) (p : RowPart) : (landRow s c me row p).ctx c = s.ctx c := by
  unfold landRow toSlot
  simp only [hme, Bool.false_and, Bool.false_eq_true, if_false]
  rw [State.ctx_modCore_self]
  exact (Kept1.touchUnit s c me (spadUnit row)).ctx c

/-- So does writing several. -/
theorem foldl_landRow_ctx (hme : me.sus = false) (ps : Map RowPart) (rows : List Nat) : ∀ s : State,
    (rows.foldl (fun q r => landRow q c me r (Map.get {} ps r)) s).ctx c = s.ctx c := by
  induction rows with
  | nil => exact fun _ => rfl
  | cons r rows ih => exact fun s => (ih _).trans (landRow_ctx c me hme s r _)

/-- Writing parts of rows where they stand leaves the context's registers: only its sticky bits may change (R171). -/
theorem landRows_ctx (hme : me.sus = false) {s : State} {x : Ctx} (hx : s.ctx c = some x) (ps : Map RowPart) (rows : List Nat) :
    ∃ k, (landRows s c me x.uid ps rows).ctx c = some { x with sticky := k } := by
  have hfold : (rows.foldl (fun q r => landRow q c me r (Map.get {} ps r)) s).ctx c = some x :=
    (foldl_landRow_ctx c me hme ps rows s).trans hx
  unfold landRows
  simp only
  split
  · refine ⟨(x.stick stPOISON).sticky, ?_⟩
    unfold State.ctx
    rw [State.core_stickAt]
    exact State.ctx_modCtxOf_resident hfold rfl _
  · exact ⟨x.sticky, hfold⟩

/-- Parts written count nothing. -/
theorem Core.ev_foldl_putPart (ps : Map RowPart) (rows : List Nat) : ∀ k : Core,
    (rows.foldl (fun q r => q.putPart r (Map.get {} ps r)) k).ev = k.ev := by
  induction rows with
  | nil => exact fun _ => rfl
  | cons r rows ih => exact fun k => ih _

/-- Parts written in rows that the writer owns show in those rows. -/
theorem landRows_core (hme : me.sus = false) (s : State) (uid : Nat) (ps : Map RowPart)
    (ho : ∀ r ∈ partRows ps, Map.at? (s.core c).owner (spadUnit r) = some me) :
    (∀ j, ((landRows s c me uid ps (partRows ps)).core c).spadRow j = (Map.get {} ps j).over ((s.core c).spadRow j)) ∧
    ((landRows s c me uid ps (partRows ps)).core c).ev = (s.core c).ev := by
  have hwritten := foldl_landRow_own hme ps (partRows ps) ho
  have hstuck : (∀ j, ((landRows s c me uid ps (partRows ps)).core c).spadRow j =
        (((partRows ps).foldl (fun q r => landRow q c me r (Map.get {} ps r)) s).core c).spadRow j) ∧
      ((landRows s c me uid ps (partRows ps)).core c).ev =
        (((partRows ps).foldl (fun q r => landRow q c me r (Map.get {} ps r)) s).core c).ev := by
    unfold landRows
    simp only
    split
    · exact ⟨(Marked.stickAt _ c uid stPOISON).spadRow, by rw [State.core_stickAt, State.core_modCtxOf_ev]⟩
    · exact ⟨fun _ => rfl, rfl⟩
  obtain ⟨hrow, hev⟩ := hstuck
  refine ⟨fun j => ?_, ?_⟩
  · rw [hrow, hwritten, Core.spadRow_foldl_putPart ps (partRows ps) j _ (List.nodup_dedup _)]
    split
    · rfl
    · next hj =>
      rw [Map.get_of_not_mem _ (fun p hp e => hj (mem_partRows.2 ⟨p, hp, e⟩)), RowPart.over_empty]
  · rw [hev, hwritten, Core.ev_foldl_putPart]

end

/-! ## Fill (R165) -/

/-- The footprint positions that a block's fill writes. -/
def OpenBlk.toFill (b : OpenBlk) (m : Rec512) : List (Nat × Nat) := if mFill m = 3 then [] else unwritten b m

/-- What a block has gathered, with the fill value at those positions. -/
def OpenBlk.filled (b : OpenBlk) (m : Rec512) (slot : Nat) : Map RowPart :=
  landCells m b.hdr.origin slot b.link ((b.toFill m).map (fun e => (e.1, e.2, fillBits m))) b.parts

/-- A fill of n positions is counted, and marks its context (R165, R171). -/
def State.noteFill (s : State) (c uid n : Nat) : State := if n = 0 then s else (s.count c evFILL n).stickAt c uid stFILL

/-- A fill writes its parts, and is noted. -/
theorem fillBlock_eq (s : State) (c : Nat) (b : OpenBlk) (m : Rec512) (uid slot : Nat) : fillBlock s c b m uid slot =
    (landRows s c (s.ownerOf c b.hdr.tenant uid) uid (b.filled m slot) (partRows (b.filled m slot))).noteFill c uid (b.toFill m).length := by
  unfold fillBlock State.noteFill OpenBlk.filled landCells
  rw [List.foldl_map, ← OpenBlk.toFill]
  simp only
  cases b.toFill m <;> rfl

/-- A sticky bit set reads as set. -/
theorem Ctx.getLsbD_stick (x : Ctx) {i : Nat} (hi : i < 11) : (x.stick i).sticky.getLsbD i = true := by
  simp [Ctx.stick, hi]

section
variable (s : State) (c uid n : Nat)

/-- Noting a fill leaves rows, and adds to one count. -/
theorem State.noteFill_core : (∀ j, ((s.noteFill c uid n).core c).spadRow j = (s.core c).spadRow j) ∧
    Map.get 0 ((s.noteFill c uid n).core c).ev evFILL = Map.get 0 (s.core c).ev evFILL + BitVec.ofNat 64 n := by
  unfold State.noteFill
  split
  · next hn => subst hn; exact ⟨fun _ => rfl, by simp⟩
  · next hn =>
    refine ⟨((Marked.count s c evFILL n).trans (.stickAt _ c uid stFILL)).spadRow, ?_⟩
    rw [State.core_stickAt, State.core_modCtxOf_ev]
    simp [State.count, hn, Core.count]

variable {s c uid n}

/-- It leaves the context's registers, and FILL set where a position was filled. -/
theorem State.noteFill_ctx {x : Ctx} (hx : s.ctx c = some x) (hu : x.uid = uid) :
    ∃ k, (s.noteFill c uid n).ctx c = some { x with sticky := k } ∧ (n ≠ 0 → k.getLsbD stFILL = true) := by
  unfold State.noteFill
  split
  · next hn => exact ⟨x.sticky, hx, fun h => absurd hn h⟩
  · next hn =>
    have hcount : (s.count c evFILL n).ctx c = some x := by
      rw [← hx]; simp [State.count, hn, State.ctx, Core.count]
    refine ⟨(x.stick stFILL).sticky, ?_, fun _ => Ctx.getLsbD_stick x (by decide)⟩
    unfold State.ctx
    rw [State.core_stickAt]
    exact State.ctx_modCtxOf_resident hcount hu _

end

section
variable {s : State} {c slot : Nat} {b : OpenBlk} {m : Rec512} {x : Ctx}

/-- A fill leaves its context's registers where no context is out: only sticky bits change, FILL among them. -/
theorem fillBlock_ctx (hx : s.ctx c = some x) (hs : (s.core c).sus = none) :
    ∃ k, (fillBlock s c b m x.uid slot).ctx c = some { x with sticky := k } ∧ (b.toFill m ≠ [] → k.getLsbD stFILL = true) := by
  have hme : (s.ownerOf c b.hdr.tenant x.uid).sus = false := by simp [State.ownerOf, hs]
  obtain ⟨k, hk⟩ := landRows_ctx c _ hme hx (b.filled m slot) (partRows (b.filled m slot))
  rw [fillBlock_eq]
  obtain ⟨k', hk', hfill⟩ := State.noteFill_ctx (uid := x.uid) (n := (b.toFill m).length) hk rfl
  exact ⟨k', hk', fun hne => hfill (by simpa using hne)⟩

/-- It leaves each bit of the scratchpad as the last position to reach it, or as the block had gathered it, and counts its positions. -/
theorem fillBlock_core (ht : x.tenant = b.hdr.tenant)
    (hrows : HoldsRows s c x (partRows b.parts ++ (b.toFill m).flatMap (fun e => cellRows m b.hdr.origin slot e.1 e.2))) :
    (∀ i, (((fillBlock s c b m x.uid slot).core c).spadRow (i / 1024)).getLsbD (i % 1024) =
      (landedAs m b.hdr.origin slot ((b.toFill m).map (fun e => (e.1, e.2, fillBits m))) i).getD ((s.core c).gathered b.parts i)) ∧
    Map.get 0 ((fillBlock s c b m x.uid slot).core c).ev evFILL =
      Map.get 0 (s.core c).ev evFILL + BitVec.ofNat 64 (b.toFill m).length := by
  have hme : s.ownerOf c b.hdr.tenant x.uid = x.me := by simp [State.ownerOf, hrows.alone, Ctx.me, ht]
  have hown : ∀ r ∈ partRows (b.filled m slot), Map.at? (s.core c).owner (spadUnit r) = some x.me := by
    intro r hr
    refine hrows.owns r ?_
    have hcells := mem_partRows_landCells m b.hdr.origin slot b.link _ hr
    simpa only [List.mem_append, List.flatMap_map] using hcells
  obtain ⟨hspad, hev⟩ := landRows_core c x.me rfl s x.uid (b.filled m slot) hown
  obtain ⟨fspad, fev⟩ := State.noteFill_core
    (landRows s c x.me x.uid (b.filled m slot) (partRows (b.filled m slot))) c x.uid (b.toFill m).length
  rw [fillBlock_eq, hme]
  refine ⟨fun i => ?_, by rw [fev, hev]⟩
  rw [fspad, hspad, ← Core.gathered_landCells (bad := b.link)]
  rfl

end

/-! ## Ring slots (R166) -/

/-- The slot that a block landed in is filled, in the order of completion. -/
def Ring.fills (r : Ring) (slot : Nat) : Ring :=
  if r.slotSt slot = SlotSt.landing then { r.set slot SlotSt.filled with fillOrder := r.fillOrder ++ [slot] } else r

/-- A slot that was landing is filled, and is the last in that order. -/
theorem Ring.fills_landing {r : Ring} {slot : Nat} (h : r.slotSt slot = SlotSt.landing) :
    (r.fills slot).slotSt slot = SlotSt.filled ∧ (r.fills slot).fillOrder = r.fillOrder ++ [slot] := by
  unfold Ring.fills
  rw [if_pos h]
  exact ⟨Map.get_put_self SlotSt.free SlotSt.filled r.state slot, rfl⟩

/-- A bound block filled, and its slot with it where its map is one of a ring. -/
def State.fillBound (s : State) (c : Nat) (b : OpenBlk) (m : Rec512) (uid slot : Nat) : State :=
  if mKind m = 3 then (fillBlock s c b m uid slot).modCtxOf c uid (fun x => x.modRing (mRing m) (fun r => r.fills slot))
  else fillBlock s c b m uid slot

section
variable {s : State} {c slot : Nat} {b : OpenBlk} {m : Rec512} {x : Ctx}

/-- Of the context only sticky bits and its rings change; FILL is set where a position was filled, and a slot that was landing is
filled. -/
theorem State.fillBound_ctx (hx : s.ctx c = some x) (hs : (s.core c).sus = none) :
    ∃ y, (s.fillBound c b m x.uid slot).ctx c = some y ∧ (b.toFill m ≠ [] → y.sticky.getLsbD stFILL = true) ∧
      (mKind m = 3 → y.ring (mRing m) = (x.ring (mRing m)).fills slot) := by
  obtain ⟨k, hk, hfill⟩ := fillBlock_ctx (b := b) (m := m) (slot := slot) hx hs
  unfold State.fillBound
  split
  · refine ⟨_, State.ctx_modCtxOf_resident hk rfl _, hfill, fun _ => ?_⟩
    exact Map.get_ins_self _ _ _ _
  · next hkind => exact ⟨_, hk, hfill, fun h => absurd h hkind⟩

/-- Rows and counts are as the fill leaves them. -/
theorem State.fillBound_core (uid : Nat) :
    (∀ j, ((s.fillBound c b m uid slot).core c).spadRow j = ((fillBlock s c b m uid slot).core c).spadRow j) ∧
    ((s.fillBound c b m uid slot).core c).ev = ((fillBlock s c b m uid slot).core c).ev := by
  unfold State.fillBound
  split
  · exact ⟨(Marked.modCtxOf _ c uid _).spadRow, State.core_modCtxOf_ev _ _ _ _⟩
  · exact ⟨fun _ => rfl, rfl⟩

end

/-! ## The acknowledgement (R159, R182) -/

/-- What a whole block has landed: nothing where it is unbound. -/
def State.landWhole (s : State) (c : Nat) (b : OpenBlk) : State :=
  match b.bound with
  | none => s
  | some (_, m, uid, slot) => s.fillBound c b m uid slot

/-- The acknowledgement of a block from its core. -/
def OpenBlk.ackPkt (b : OpenBlk) (c k : Nat) (dst : Leaf) : Packet :=
  { seq := 0, kind := .ack k [k] b.report, src := .core c, dst := dst, tenant := b.hdr.tenant, cls := 4, cmd := b.cmd }

/-- A core no longer holds a block, and the window holds the block's acknowledgement. -/
def State.retire (u : State) (c k : Nat) (b : OpenBlk) : State :=
  { u.modCore c (fun q => { q with blks := Map.del q.blks k }) with applied := Map.ins u.applied k (.ack k [k] b.report) }

/-- A block closed in a state, and acknowledged from there. -/
def State.closeBlk (u : State) (c k : Nat) (b : OpenBlk) (dst : Leaf) : State := (u.retire c k b).send (b.ackPkt c k dst)

/-- A block that completes lands what it has left, and is closed from there. -/
theorem completeBlock_eq (s : State) (c k : Nat) (b : OpenBlk) :
    completeBlock s c k b = (s.landWhole c b).closeBlk c k b (s.ackLeaf b) := by
  unfold completeBlock State.landWhole
  cases b.bound with
  | none => rfl
  | some g => rfl

/-- The block is gone, its acknowledgement recorded and on its way; memory stands, and so does the core but for its blocks. -/
theorem State.closeBlk_facts (u : State) (c k : Nat) (b : OpenBlk) (dst : Leaf) :
    (u.closeBlk c k b dst).core c = { u.core c with blks := Map.del (u.core c).blks k } ∧ (u.closeBlk c k b dst).mem = u.mem ∧
      Map.at? (u.closeBlk c k b dst).applied k = some (.ack k [k] b.report) ∧
      ∃ n q, Map.at? (u.closeBlk c k b dst).net n = some q ∧ q.kind = .ack k [k] b.report ∧ q.dst = dst ∧ q.cmd = b.cmd := by
  obtain ⟨hnet, -, -, -, happ⟩ := State.send_free (u.retire c k b) (b.ackPkt c k dst) (.inl (Nat.lt_succ_self 3))
  have hsent : Fabric (u.retire c k b) (u.closeBlk c k b dst) := Fabric.send _ _
  refine ⟨?_, hsent.mem, ?_, _, _, (congrArg (Map.at? · _) hnet).trans (Map.at?_ins_self _ _ _), rfl, rfl, rfl⟩
  · rw [hsent.core]; exact State.core_modCore_self u c (fun q => { q with blks := Map.del q.blks k })
  · exact (congrArg (Map.at? · k) happ).trans (Map.at?_ins_self _ _ _)

/-- A whole block completes. -/
theorem exec_blockComplete {s : State} {c k : Nat} {b : OpenBlk} (hb : Map.at? (s.core c).blks k = some b) (hw : b.whole = true) :
    exec (.blockComplete c k) s = .next ((s.landWhole c b).closeBlk c k b (s.ackLeaf b)) := by
  show execBlockComplete c k s = _
  unfold execBlockComplete
  simp only [hb, hw, if_true]
  rw [completeBlock_eq]

/-- Settles O28: a whole block is filled, closed and acknowledged, its ring slot filled with it. -/
theorem blockComplete : Obligations.BlockComplete := by
  intro s c k b hb hw
  obtain ⟨hcore, hmem, happlied, n, q, hq, hkind, hdst, hcmd⟩ := State.closeBlk_facts (s.landWhole c b) c k b (s.ackLeaf b)
  have hctx : ((s.landWhole c b).closeBlk c k b (s.ackLeaf b)).ctx c = (s.landWhole c b).ctx c := by
    unfold State.ctx; rw [hcore]
  refine ⟨_, n, q, exec_blockComplete hb hw, ?_, happlied, hq, hkind, hdst, hcmd, ?_, ?_, ?_⟩
  · rw [hcore]; exact Map.at?_del_self _ _
  · intro hbound
    have hnone : s.landWhole c b = s := by unfold State.landWhole; rw [hbound]
    rw [hctx, hmem, hnone]
    exact ⟨rfl, rfl⟩
  · intro j m x slot hbound hring hx hs hland
    have hsome : s.landWhole c b = s.fillBound c b m x.uid slot := by unfold State.landWhole; rw [hbound]
    obtain ⟨y, hy, -, hfills⟩ := State.fillBound_ctx (b := b) (m := m) (slot := slot) hx hs
    rw [hctx, hsome]
    exact ⟨y, hy, by rw [hfills hring]; exact Ring.fills_landing hland⟩
  · intro j m x slot ps hbound ht hps hrows
    have hsome : s.landWhole c b = s.fillBound c b m x.uid slot := by unfold State.landWhole; rw [hbound]
    have hfill : ps = b.toFill m := hps
    subst hfill
    obtain ⟨hspad, hev⟩ := fillBlock_core ht hrows
    obtain ⟨rspad, rev⟩ := State.fillBound_core (s := s) (c := c) (slot := slot) (b := b) (m := m) x.uid
    refine ⟨fun i => ?_, ?_, fun hne => ?_⟩
    · rw [hcore, hsome, ← hspad, ← rspad]; rfl
    · rw [hcore, hsome, ← hev, ← rev]
    · obtain ⟨y, hy, hstick, -⟩ := State.fillBound_ctx (b := b) (m := m) (slot := slot) hrows.resident hrows.alone
      rw [hctx, hsome]
      exact ⟨y, hy, hstick hne⟩

end Sys2Proof.Machine
end

section
/-! SUPPORT. Packets that stay once sent (R211, R258): what sending leaves, and the packets that it puts in the fabric, however many
are sent after them. -/

namespace Sys2Proof.Machine

/-- What sending packets and noting commands leaves of the state: memory, cores and groups, every packet under an earlier identity, and
which commands are listed. -/
structure Grown (s t : State) : Prop where
  next : s.nextId ≤ t.nextId
  net : ∀ k < s.nextId, Map.at? t.net k = Map.at? s.net k
  cmds : ∀ k, (Map.at? t.cmds k).isSome = (Map.at? s.cmds k).isSome
  mem : t.mem = s.mem
  cores : t.cores = s.cores
  groups : t.groups = s.groups

theorem Grown.refl (s : State) : Grown s s := ⟨Nat.le_refl _, fun _ _ => rfl, fun _ => rfl, rfl, rfl, rfl⟩

theorem Grown.trans {s t u : State} (h : Grown s t) (g : Grown t u) : Grown s u where
  next := h.next.trans g.next
  net k hk := (g.net k (hk.trans_le h.next)).trans (h.net k hk)
  cmds k := (g.cmds k).trans (h.cmds k)
  mem := g.mem.trans h.mem
  cores := g.cores.trans h.cores
  groups := g.groups.trans h.groups

theorem Grown.group {s t : State} (h : Grown s t) (g : Nat) : t.group g = s.group g := by
  unfold State.group; rw [h.groups]

/-- A change of a listed command leaves as much. -/
theorem Grown.insCmd (s : State) {id : Nat} (h : (Map.at? s.cmds id).isSome = true) (f : Cmd) :
    Grown s { s with cmds := Map.ins s.cmds id f } := by
  refine ⟨Nat.le_refl _, fun _ _ => rfl, fun k => ?_, rfl, rfl, rfl⟩
  by_cases hk : id = k
  · subst hk; simp [h]
  · simp [Map.at?_ins_ne _ _ hk]

/-- So does a change of the window's records (R211). -/
theorem Grown.setApplied (s : State) (m : Map PKind) : Grown s { s with applied := m } :=
  ⟨Nat.le_refl _, fun _ _ => rfl, fun _ => rfl, rfl, rfl, rfl⟩

/-- Identities are taken without any other change. -/
theorem Grown.fresh (s : State) (n : Nat) : Grown s (s.fresh n).1 :=
  ⟨Nat.le_add_right _ _, fun _ _ => rfl, fun _ => rfl, rfl, rfl, rfl⟩

/-- A packet that no limiter concerns is sent under a new identity. -/
theorem Grown.send (s : State) {p : Packet} (hc : 3 < p.cls) : Grown s (s.send p) := by
  obtain ⟨hnet, hnext, -⟩ := State.send_free s p (.inl hc)
  have hsent := Fabric.send s p
  refine ⟨by omega, fun k hk => by rw [hnet, Map.at?_ins_ne _ _ (by omega)], fun k => ?_, hsent.mem, hsent.cores, hsent.groups⟩
  have hpend := congrArg Option.isSome (State.send_pend s p k)
  simpa only [Option.isSome_map] using hpend

theorem Grown.sendAll (ps : List Packet) : ∀ {s : State}, (∀ p ∈ ps, 3 < p.cls) → Grown s (s.sendAll ps) := by
  induction ps with
  | nil => exact fun _ => .refl _
  | cons p ps ih =>
    intro s hc
    exact (Grown.send s (hc p List.mem_cons_self)).trans (ih (fun q hq => hc q (List.mem_cons_of_mem _ hq)))

theorem Grown.foldl {α : Type} {f : State → α → State} (hf : ∀ s a, Grown s (f s a)) (l : List α) : ∀ s, Grown s (l.foldl f s) := by
  induction l with
  | nil => exact Grown.refl
  | cons a l ih => exact fun s => (hf s a).trans (ih _)

/-- Of several steps that each only send, any one is taken from such a state and followed by such steps. -/
theorem Grown.foldl_mem {α : Type} {f : State → α → State} (hf : ∀ s a, Grown s (f s a)) {a : α} (l : List α) : ∀ {s}, a ∈ l →
    ∃ u, Grown s u ∧ Grown (f u a) (l.foldl f s) := by
  induction l with
  | nil => intro s ha; cases ha
  | cons b l ih =>
    intro s ha
    rcases List.mem_cons.1 ha with rfl | ha
    · exact ⟨s, .refl s, .foldl hf l _⟩
    · obtain ⟨u, hu, htail⟩ := ih (s := f s b) ha
      exact ⟨u, (hf s b).trans hu, htail⟩

/-- A packet of a kind for a leaf and a command is in the fabric, under an identity already given. -/
def State.Sent (s : State) (k : PKind) (d : Leaf) (cmd : Nat) : Prop :=
  ∃ n q, n < s.nextId ∧ Map.at? s.net n = some q ∧ q.dst = d ∧ q.cmd = cmd ∧ q.kind = k

/-- It stays there as more is sent. -/
theorem State.Sent.grown {s t : State} {k : PKind} {d : Leaf} {cmd : Nat} (h : s.Sent k d cmd) (g : Grown s t) : t.Sent k d cmd := by
  obtain ⟨n, q, hn, hq, hkind⟩ := h
  exact ⟨n, q, hn.trans_le g.next, (g.net n hn).trans hq, hkind⟩

/-- A packet sent is there. -/
theorem State.sent_send (s : State) {p : Packet} (hc : 3 < p.cls) : (s.send p).Sent p.kind p.dst p.cmd := by
  obtain ⟨hnet, hnext, -⟩ := State.send_free s p (.inl hc)
  exact ⟨s.nextId, { p with seq := s.nextId, sentAt := s.cycle }, by omega, by rw [hnet, Map.at?_ins_self], rfl, rfl, rfl⟩

theorem State.sent_sendAll {p : Packet} (ps : List Packet) : ∀ {s : State}, (∀ q ∈ ps, 3 < q.cls) → p ∈ ps →
    (s.sendAll ps).Sent p.kind p.dst p.cmd := by
  induction ps with
  | nil => intro s _ hp; cases hp
  | cons q ps ih =>
    intro s hc hp
    have hc' : ∀ r ∈ ps, 3 < r.cls := fun r hr => hc r (List.mem_cons_of_mem _ hr)
    rcases List.mem_cons.1 hp with rfl | hp
    · exact (State.sent_send s (hc p List.mem_cons_self)).grown (.sendAll ps hc')
    · exact ih hc' hp

/-- The packets of a block and of its marker, all for one leaf and one command, are in the fabric. -/
theorem State.sendAll_block (s : State) {mk : PKind → Packet} {d : Leaf} {cmd : Nat}
    (hmk : ∀ k, (mk k).kind = k ∧ 3 < (mk k).cls ∧ (mk k).dst = d ∧ (mk k).cmd = cmd) (f : Beat → PKind) (bs : List Beat) (k : PKind) :
    Grown s (s.sendAll (bs.map (fun b => mk (f b)) ++ [mk k])) ∧
      (∀ b ∈ bs, (s.sendAll (bs.map (fun b => mk (f b)) ++ [mk k])).Sent (f b) d cmd) ∧
      (s.sendAll (bs.map (fun b => mk (f b)) ++ [mk k])).Sent k d cmd := by
  have hcls : ∀ q ∈ bs.map (fun b => mk (f b)) ++ [mk k], 3 < q.cls := by
    intro q hq
    rcases List.mem_append.1 hq with hq | hq
    · obtain ⟨b, -, rfl⟩ := List.mem_map.1 hq
      exact (hmk _).2.1
    · rw [List.mem_singleton.1 hq]
      exact (hmk _).2.1
  have hsent : ∀ j, mk j ∈ bs.map (fun b => mk (f b)) ++ [mk k] → (s.sendAll (bs.map (fun b => mk (f b)) ++ [mk k])).Sent j d cmd := by
    intro j hj
    obtain ⟨hkind, -, hdst, hcmd⟩ := hmk j
    have h := State.sent_sendAll (s := s) _ hcls hj
    rwa [hkind, hdst, hcmd] at h
  exact ⟨.sendAll _ hcls, fun b hb => hsent _ (List.mem_append_left _ (List.mem_map_of_mem hb)),
    hsent k (List.mem_append_right _ List.mem_cons_self)⟩

end Sys2Proof.Machine
end

section
/-! SUPPORT. The reduction network (R251, R261-R263): a contribution at a node, a round that closes or runs out, and the delivery of a
status. Settles O35. -/

namespace Sys2Proof.Machine

/-! ## combine (R262) -/

/-- The integer of an INT32 pattern is that of its low 32 bits. -/
theorem intVal_int32 (a : Nat) : intVal 9 a = (BitVec.ofNat 32 a).toInt := by
  have hpat : intVal 9 a = if 2 ^ 31 ≤ a % 2 ^ 32 then ((a % 2 ^ 32 : Nat) : Int) - 2 ^ 32 else ((a % 2 ^ 32 : Nat) : Int) := by
    simp [intVal, ewidth, isSignedT]
  rw [hpat, BitVec.toInt_eq_toNat_cond, BitVec.toNat_ofNat]
  split <;> split <;> omega

/-- The INT32 pattern of an integer is its low 32 bits. -/
theorem intBits_int32 (v : Int) : intBits 9 v = (BitVec.ofInt 32 v).toNat := by
  simp [intBits, ewidth, BitVec.toNat_ofInt]

/-- A pattern's integer has the pattern's low 32 bits. -/
theorem intBits_toInt (u : BitVec 32) : intBits 9 u.toInt = u.toNat := by
  rw [intBits_int32, BitVec.ofInt_toInt]

/-- Over FP32, a node computes R262's sum, maximum and minimum as they are written. -/
theorem combineElem_float {op : Nat} (h : op = 0 ∨ op = 2 ∨ op = 3) (a b : Nat) : combineElem op a b = combined op a b := by
  rcases h with rfl | rfl | rfl <;> rfl

/-- Over INT32, its sum is the one modulo 2^32. -/
theorem combineElem_sum (a b : Nat) : combineElem 1 a b = combined 1 a b := by
  show intBits 9 (intVal 9 a + intVal 9 b) = (BitVec.ofNat 32 a + BitVec.ofNat 32 b).toNat
  rw [intVal_int32, intVal_int32, intBits_int32, BitVec.ofInt_add, BitVec.ofInt_toInt, BitVec.ofInt_toInt]

/-- Its maximum is that of the signed words. -/
theorem combineElem_max (a b : Nat) : combineElem 4 a b = combined 4 a b := by
  show intBits 9 (Max.max (intVal 9 a) (intVal 9 b)) =
    (if (BitVec.ofNat 32 a).toInt < (BitVec.ofNat 32 b).toInt then BitVec.ofNat 32 b else BitVec.ofNat 32 a).toNat
  rw [intVal_int32, intVal_int32]
  split
  · next h => rw [max_eq_right h.le, intBits_toInt]
  · next h => rw [max_eq_left (not_lt.1 h), intBits_toInt]

/-- Its minimum, which every operation above 4 takes, is that of the signed words too. -/
theorem combineElem_min (n a b : Nat) : combineElem (n + 5) a b = combined (n + 5) a b := by
  have hmin : combineElem (n + 5) a b = intBits 9 (Min.min (intVal 9 a) (intVal 9 b)) := by
    simp [combineElem, accumElem, gcFloat, isFloatT]
  have hcomb : combined (n + 5) a b =
    (if (BitVec.ofNat 32 a).toInt < (BitVec.ofNat 32 b).toInt then BitVec.ofNat 32 a else BitVec.ofNat 32 b).toNat := rfl
  rw [hmin, hcomb, intVal_int32, intVal_int32]
  split
  · next h => rw [min_eq_left h.le, intBits_toInt]
  · next h => rw [min_eq_right (not_lt.1 h), intBits_toInt]

/-- The element that a node computes is the one R262 gives. -/
theorem combineElem_eq (op : Nat) : combineElem op = combined op := by
  funext a b
  match op with
  | 0 => exact combineElem_float (.inl rfl) a b
  | 1 => exact combineElem_sum a b
  | 2 => exact combineElem_float (.inr (.inl rfl)) a b
  | 3 => exact combineElem_float (.inr (.inr rfl)) a b
  | 4 => exact combineElem_max a b
  | n + 5 => exact combineElem_min n a b

/-! ## Values at a node (R262) -/

/-- A listed value is what its key reads as. -/
theorem Map.get_of_at? {α : Type} (d : α) {m : Map α} {k : Nat} {v : α} (h : Map.at? m k = some v) : Map.get d m k = v := by
  induction m with
  | nil => cases h
  | cons p m ih =>
    obtain ⟨j, w⟩ := p
    by_cases hj : j = k
    · simpa [Map.at?, Map.get, hj] using h
    · exact (if_neg hj).trans (ih ((if_neg hj).symm.trans h))

/-- A group's open round with one more value. -/
def Group.given (v : Group) (node port core count tag : Nat) (shape : Dword) (vals : List Nat) (leaf : Bool) (cmd now : Nat) : Group :=
  { v with
    vals := Map.ins v.vals (portKey node port) vals
    tags := Map.ins v.tags (portKey node port) tag
    shapes := Map.ins v.shapes (portKey node port) shape
    counts := if leaf then Map.ins v.counts core count else v.counts
    cmds := if leaf then Map.ins v.cmds core cmd else v.cmds
    opened := if v.opened.isNone then some now else v.opened }

/-- The ports of a node have keys of their own. -/
theorem portKey_ne {node j k : Nat} (h : j ≠ k) : portKey node j ≠ portKey node k := by
  unfold portKey; omega

section
variable {v : Group} {node port core count tag cmd now : Nat} {shape : Dword} {vals : List Nat} {leaf : Bool}

/-- The value of each port of the node. -/
theorem Group.given_vals (k : Nat) : Map.at? (v.given node port core count tag shape vals leaf cmd now).vals (portKey node k) =
    if k = port then some vals else Map.at? v.vals (portKey node k) := by
  split
  · next h => rw [h]; exact Map.at?_ins_self _ _ _
  · next h => exact Map.at?_ins_ne _ _ (portKey_ne (Ne.symm h))

/-- The values a node holds, of the ports it expects. -/
def Group.got (v : Group) (node : Nat) (e : Dword) : List (List Nat) := (portsOf e).filterMap (fun k => Map.at? v.vals (portKey node k))

/-- A node that lacks another port is not complete. -/
theorem Group.given_lacks {e : Dword} (h : ∃ k ∈ portsOf e, k ≠ port ∧ Map.at? v.vals (portKey node k) = none) :
    ((v.given node port core count tag shape vals leaf cmd now).got node e).length ≠ (portsOf e).length := by
  obtain ⟨k, hk, hne, hnone⟩ := h
  intro hlen
  have hall := List.filterMap_length_eq_length.1 hlen k hk
  rw [Group.given_vals, if_neg hne, hnone] at hall
  cases hall

/-- One that has every other port is: its values stand ascending by port. -/
theorem Group.given_complete {e : Dword} (h : ∀ k ∈ portsOf e, k ≠ port → (Map.at? v.vals (portKey node k)).isSome = true) :
    (v.given node port core count tag shape vals leaf cmd now).got node e =
      (portsOf e).map (fun k => if k = port then vals else Map.get [] v.vals (portKey node k)) := by
  refine List.filterMap_eq_map_iff_forall_eq_some.2 (fun k hk => ?_)
  rw [Group.given_vals]
  split
  · rfl
  · next hne =>
    obtain ⟨w, hw⟩ := Option.isSome_iff_exists.1 (h k hk hne)
    rw [hw, Map.get_of_at? [] hw]

end

/-- The fold of a node's values is element by element as R262 combines them. -/
theorem foldPorts_cons (op : Nat) (v : List Nat) (rest : List (List Nat)) :
    foldPorts op (v :: rest) = rest.foldl (fun u w => List.zipWith (combined op) u w) v := by
  rw [← combineElem_eq]
  rfl

/-! ## A contribution taken from the fabric (R211, R262) -/

/-- A contribution taken: a core's is noted in the window and kept by its source; a node's is done with, and so are the beats of its
block. -/
def State.takes (s : State) (id : Nat) (p : Packet) (leaf : Bool) (blk : Nat) : State :=
  (if leaf then (s.unsend id).noteApplied p (.ack p.seq [] {}) else (s.consume id p).dropStreams [blk]).dropSlcBlk blk

/-- Taking it leaves memory, cores, groups, time and commands. -/
structure TakeFrame (s u : State) : Prop where
  mem : u.mem = s.mem
  cores : u.cores = s.cores
  groups : u.groups = s.groups
  cycle : u.cycle = s.cycle
  cmds : u.cmds = s.cmds

theorem State.takes_frame (s : State) (id : Nat) (p : Packet) (leaf : Bool) (blk : Nat) : TakeFrame s (s.takes id p leaf blk) := by
  cases leaf with
  | true =>
    have h : Fabric s ((s.unsend id).noteApplied p (.ack p.seq [] {})) := fabric_taken s id p _
    exact ⟨h.mem, h.cores, h.groups, h.cycle, State.noteApplied_cmds _ _ _⟩
  | false =>
    have h : Fabric s (s.consume id p) := .consume s id p
    exact ⟨h.mem, h.cores, h.groups, h.cycle, State.noteApplied_cmds _ _ _⟩

section
variable {s : State} {id g node port core count tag blk beats : Nat} {shape : Dword} {vals : List Nat} {leaf : Bool} {p : Packet}
  (ha : s.Arriving id p) (hk : p.kind = .redContrib g node port core count tag shape vals leaf blk beats)
include ha hk

/-- A contribution waits for its beats, and for the end of a round whose time is up (R263). -/
theorem exec_reductionContribution_waits (hw : (s.slcBlk blk).beats < beats ∨ (s.group g).expired s.cycle = true) :
    exec (.reductionContribution id) s = .next s := by
  show execReductionContribution id s = _
  rw [execReductionContribution, onPacket_of_arriving ha]
  simp only [hk]
  rw [if_pos (by simpa using hw)]

variable (hb : beats ≤ (s.slcBlk blk).beats) (he : (s.group g).expired s.cycle = false)
include hb he

/-- A second value for a port is refused. -/
theorem exec_reductionContribution_refused (hfull : (Map.at? (s.group g).vals (portKey node port)).isSome = true) :
    exec (.reductionContribution id) s = .next (s.refuse id p) := by
  show execReductionContribution id s = _
  rw [execReductionContribution, onPacket_of_arriving ha]
  simp only [hk]
  rw [if_neg (by simpa [he] using hb), if_pos hfull]

/-- Any other is taken. -/
theorem exec_reductionContribution_taken (hfree : Map.at? (s.group g).vals (portKey node port) = none) :
    exec (.reductionContribution id) s =
      .next (contribute (s.takes id p leaf blk) g node port core count tag shape vals leaf p.cmd p.tenant) := by
  show execReductionContribution id s = _
  rw [execReductionContribution, onPacket_of_arriving ha]
  simp only [hk]
  rw [if_neg (by simpa [he] using hb), if_neg (by simp [hfree])]
  rfl

end

/-! ## What a node does with it (R262, R263) -/

section
variable {u : State} {g node port core count tag cmd t : Nat} {shape e : Dword} {vals : List Nat} {leaf : Bool} {v1 : Group}
  (hv : v1 = (u.group g).given node port core count tag shape vals leaf cmd u.cycle) (he : e = Map.get 0 (u.group g).tree node)
include hv he

/-- A node that is not complete keeps the value. -/
theorem contribute_keeps (hlack : (v1.got node e).length ≠ (portsOf e).length) :
    contribute u g node port core count tag shape vals leaf cmd t = u.setGroup g v1 := by
  subst hv he
  unfold contribute
  simp only
  rw [if_pos]
  · rfl
  · exact hlack

/-- One that is complete combines its values and closes the round, at the root, or sends the sum on. -/
theorem contribute_folds {acc : List Nat} {tag1 : Nat} {shape1 : Dword} (hall : (v1.got node e).length = (portsOf e).length)
    (hacc : acc = foldPorts (gcOp (u.group g).conf) (v1.got node e))
    (htag : tag1 = Map.get 0 v1.tags (portKey node ((portsOf e).headD 0)))
    (hshape : shape1 = Map.get 0 v1.shapes (portKey node ((portsOf e).headD 0))) :
    contribute u g node port core count tag shape vals leaf cmd t =
      if treeParent e = treeRoot then closeRound u g (bits e.toNat 0 8 % 128) v1 tag1 shape1 acc
      else sendPartial (u.setGroup g v1) g t (bits e.toNat 0 8 % 128)
        (bits (Map.get 0 (u.group g).tree (treeParent e)).toNat 0 8 % 128) (treeParent e) (treePport e) core tag1 shape1
        (if gcFloat (gcOp (u.group g).conf) then 0x01 else 0x09) acc := by
  subst hv he hacc htag hshape
  unfold contribute
  simp only
  rw [if_neg]
  · rfl
  · exact not_not.2 hall

end

/-! ## A value that travels to its parent (R158, R262) -/

/-- The block of a node's value is on its way to its parent's port; memory, cores and groups stand. -/
theorem sendPartial_sends (u : State) (g t from_ to_ node port core tag : Nat) (shape : Dword) (et : Nat) (acc : List Nat) :
    Grown u (sendPartial u g t from_ to_ node port core tag shape et acc) ∧
      ∃ b m, (sendPartial u g t from_ to_ node port core tag shape et acc).Sent
        (.redContrib g node port core 0 tag shape acc false b m) (.slice to_) 0 := by
  obtain ⟨hgrown, -, hsent⟩ := State.sendAll_block (u.fresh 1).1
    (mk := fun k => { seq := 0, kind := k, src := .slice from_, dst := .slice to_, tenant := t, cls := 5 : Packet })
    (fun _ => ⟨rfl, (by decide : 3 < 5), rfl, rfl⟩)
    (.stream none { tag := tag, tenant := t, origin := 0, blk := u.nextId, etype := et })
    (beatsOf et (resultRows (cCol shape) (cRow shape) acc 0))
    (.redContrib g node port core 0 tag shape acc false u.nextId (beatsOf et (resultRows (cCol shape) (cRow shape) acc 0)).length)
  exact ⟨(Grown.fresh u 1).trans hgrown, _, _, hsent⟩

/-! ## Statuses (R251, R263) -/

/-- A status is on its way, and the window holds it as the reply to its member's contribution. -/
theorem State.sendStatus_sends (s : State) {p : Packet} (hc : 3 < p.cls) :
    Grown s (s.sendStatus p) ∧ (s.sendStatus p).Sent p.kind p.dst p.cmd := by
  unfold State.sendStatus
  exact ⟨(Grown.setApplied s _).trans (.send _ hc), State.sent_send _ hc⟩

/-- Every contributor's status is. -/
theorem statusAll_sends (s : State) (g root : Nat) (v : Group) (cause tval : Nat) : Grown s (statusAll s g root v cause tval) ∧
    ∀ m ∈ v.cmds, (statusAll s g root v cause tval).Sent (.redStatus g none cause tval 0) (.core m.1) m.2 := by
  unfold statusAll
  have hstep : ∀ (q : State) (m : Nat × Nat) ids, Grown q (q.sendStatus (statusPkt g root (v.owner.getD 0) m.1 m.2 ids none cause tval 0)) ∧
      (q.sendStatus (statusPkt g root (v.owner.getD 0) m.1 m.2 ids none cause tval 0)).Sent (.redStatus g none cause tval 0) (.core m.1) m.2 :=
    fun q m ids => State.sendStatus_sends q (by decide : 3 < 5)
  refine ⟨.foldl (fun q m => (hstep q m _).1) _ _, fun m hm => ?_⟩
  obtain ⟨q, -, htail⟩ := Grown.foldl_mem (fun q m => (hstep q m
    (match Map.at? s.cmds m.2 with | some k => k.pend | none => [])).1) (s := s) v.cmds hm
  exact (hstep q m _).2.grown htail

/-! ## A round that closes (R263) -/

/-- The element type of a group's values. -/
def Group.etype (v : Group) : Nat := if gcFloat (gcOp v.conf) then 0x01 else 0x09

/-- What a live member receives: the result as a block, and its status after that block. -/
structure Resulted (t : State) (g : Nat) (v : Group) (tag : Nat) (beats : List Beat) (c cmd : Nat) (h : Hdr) : Prop where
  header : h.tag = tag ∧ h.tenant = v.owner.getD 0 ∧ h.origin = 0 ∧ h.etype = v.etype
  beat : ∀ b ∈ beats, t.Sent (.beat h b) (.core c) cmd
  close : t.Sent (.close h beats.length false) (.core c) cmd
  status : t.Sent (.redStatus g (some (redStatusWord g (gcMembers v.conf).length)) 0 0 h.blk) (.core c) cmd

/-- What it has received stays as more is sent. -/
theorem Resulted.grown {s t : State} {g : Nat} {v : Group} {tag : Nat} {beats : List Beat} {c cmd : Nat} {h : Hdr}
    (hr : Resulted s g v tag beats c cmd h) (hg : Grown s t) : Resulted t g v tag beats c cmd h :=
  ⟨hr.header, fun b hb => (hr.beat b hb).grown hg, hr.close.grown hg, hr.status.grown hg⟩

/-- The header of the result's block for one member. -/
def Group.resultHdr (v : Group) (tag blk : Nat) : Hdr := { tag := tag, tenant := v.owner.getD 0, origin := 0, blk := blk, etype := v.etype }

/-- A packet of it. -/
def Group.resultPkt (v : Group) (root c cmd blk : Nat) (k : PKind) : Packet :=
  { seq := 0, kind := k, src := .slice root, dst := .core c, tenant := v.owner.getD 0, cls := 5, cmd := cmd, acks := [blk] }

/-- The machine with the result's block sent to one member. -/
def State.sendBlock (s : State) (v : Group) (root tag c cmd : Nat) (beats : List Beat) : State :=
  (s.fresh 1).1.sendAll (beats.map (fun b => v.resultPkt root c cmd s.nextId (.beat (v.resultHdr tag s.nextId) b)) ++
    [v.resultPkt root c cmd s.nextId (.close (v.resultHdr tag s.nextId) beats.length false)])

/-- The result for one member: its block, and, where its command is listed, its status, which waits for the block's landing. -/
theorem sendResult_eq {s u : State} {g root tag c cmd : Nat} {v : Group} {shape : Dword} {acc : List Nat} (hcmd : Map.get 0 v.cmds c = cmd)
    (hu : u = s.sendBlock v root tag c cmd (beatsOf v.etype (resultRows (cCol shape) (cRow shape) acc 0))) :
    sendResult s g root v tag shape acc c =
      match Map.at? u.cmds cmd with
      | none => u
      | some m => { u with cmds := Map.ins u.cmds cmd { m with pend := m.pend ++ [s.nextId] } }.sendStatus
          (statusPkt g root (v.owner.getD 0) c cmd m.pend (some (redStatusWord g (gcMembers v.conf).length)) 0 0 s.nextId) := by
  subst hcmd hu
  rfl

/-- The result for one member leaves memory, cores and groups, and reaches the member if its command is listed. -/
theorem sendResult_sends (s : State) (g root : Nat) (v : Group) (tag : Nat) (shape : Dword) (acc : List Nat) (c : Nat) :
    Grown s (sendResult s g root v tag shape acc c) ∧
      ∀ cmd, Map.get 0 v.cmds c = cmd → (Map.at? s.cmds cmd).isSome = true →
        ∃ h, Resulted (sendResult s g root v tag shape acc c) g v tag (beatsOf v.etype (resultRows (cCol shape) (cRow shape) acc 0)) c cmd h := by
  obtain ⟨cmd, hcmd⟩ : ∃ cmd, Map.get 0 v.cmds c = cmd := ⟨_, rfl⟩
  obtain ⟨hgrown, hbeat, hclose⟩ := State.sendAll_block (s.fresh 1).1 (mk := v.resultPkt root c cmd s.nextId) (d := .core c) (cmd := cmd)
    (fun _ => ⟨rfl, (by decide : 3 < 5), rfl, rfl⟩) (.beat (v.resultHdr tag s.nextId))
    (beatsOf v.etype (resultRows (cCol shape) (cRow shape) acc 0))
    (.close (v.resultHdr tag s.nextId) (beatsOf v.etype (resultRows (cCol shape) (cRow shape) acc 0)).length false)
  obtain ⟨u, hu⟩ : ∃ u, u = s.sendBlock v root tag c cmd (beatsOf v.etype (resultRows (cCol shape) (cRow shape) acc 0)) := ⟨_, rfl⟩
  rw [← State.sendBlock, ← hu] at hgrown hbeat hclose
  have hsu : Grown s u := (Grown.fresh s 1).trans hgrown
  rw [sendResult_eq hcmd hu]
  cases hm : Map.at? u.cmds cmd with
  | none =>
    refine ⟨hsu, fun cmd' hcmd' hlisted => ?_⟩
    rw [← hcmd', hcmd, ← hsu.cmds, hm] at hlisted
    cases hlisted
  | some m =>
    have hins : Grown u { u with cmds := Map.ins u.cmds cmd { m with pend := m.pend ++ [s.nextId] } } := .insCmd u (by rw [hm]; rfl) _
    obtain ⟨hstatus, hsent⟩ := State.sendStatus_sends { u with cmds := Map.ins u.cmds cmd { m with pend := m.pend ++ [s.nextId] } }
      (p := statusPkt g root (v.owner.getD 0) c cmd m.pend (some (redStatusWord g (gcMembers v.conf).length)) 0 0 s.nextId)
      (by decide : 3 < 5)
    have hafter := hins.trans hstatus
    refine ⟨hsu.trans hafter, fun cmd' hcmd' _ => ⟨v.resultHdr tag s.nextId, ⟨rfl, rfl, rfl, rfl⟩, ?_, ?_, ?_⟩⟩
    · rw [← hcmd', hcmd]; exact fun b hb => (hbeat b hb).grown hafter
    · rw [← hcmd', hcmd]; exact hclose.grown hafter
    · rw [← hcmd', hcmd]; exact hsent

/-- A round whose members all counted alike sends its result to every live one whose command is listed. -/
theorem closeRound_results {s : State} {g root tag : Nat} {v : Group} {shape : Dword} {acc : List Nat}
    (hcounts : ∀ k ∈ v.counts, k.2 = (gcMembers v.conf).length) :
    Grown (s.setGroup g v.reopen) (closeRound s g root v tag shape acc) ∧
      ∀ c ∈ gcMembers v.conf, ∀ cmd, Map.get 0 v.cmds c = cmd → (Map.at? s.cmds cmd).isSome = true →
        ∃ h, Resulted (closeRound s g root v tag shape acc) g v tag (beatsOf v.etype (resultRows (cCol shape) (cRow shape) acc 0)) c cmd h := by
  have heq : closeRound s g root v tag shape acc =
      (gcMembers v.conf).foldl (fun q c => sendResult q g root v tag shape acc c) (s.setGroup g v.reopen) := by
    unfold closeRound
    simp only
    rw [if_neg]
    simpa using hcounts
  have hstep := fun (q : State) c => (sendResult_sends q g root v tag shape acc c).1
  rw [heq]
  refine ⟨.foldl hstep _ _, fun c hc cmd hcmd hlisted => ?_⟩
  obtain ⟨q, hq, htail⟩ := Grown.foldl_mem hstep (s := s.setGroup g v.reopen) _ hc
  obtain ⟨h, hr⟩ := (sendResult_sends q g root v tag shape acc c).2 cmd hcmd ((hq.cmds cmd).trans hlisted)
  exact ⟨h, hr.grown htail⟩

/-- One whose members counted otherwise tells every contributor the number of live members. -/
theorem closeRound_counts {s : State} {g root tag : Nat} {v : Group} {shape : Dword} {acc : List Nat}
    (hcounts : ∃ k ∈ v.counts, k.2 ≠ (gcMembers v.conf).length) :
    Grown (s.setGroup g v.reopen) (closeRound s g root v tag shape acc) ∧
      ∀ m ∈ v.cmds, (closeRound s g root v tag shape acc).Sent (.redStatus g none 4 (BitVec.ofNat 64 (gcMembers v.conf).length) 0)
        (.core m.1) m.2 := by
  have heq : closeRound s g root v tag shape acc = statusAll (s.setGroup g v.reopen) g root v 4 (gcMembers v.conf).length := by
    unfold closeRound
    simp only
    rw [if_pos]
    simpa using hcounts
  rw [heq]
  exact statusAll_sends _ g root v 4 _

/-- A group written is read back. -/
@[simp] theorem State.group_setGroup (s : State) (g : Nat) (v : Group) : (s.setGroup g v).group g = v := Map.get_ins_self _ _ _ _

/-! ## A round whose time runs out (R251, R263) -/

/-- The packet brings a node's partial value of a group. -/
def PKind.partialOf (g : Nat) : PKind → Bool
  | .redContrib h _ _ _ _ _ _ _ leaf _ _ => decide (h = g) && !leaf
  | _ => false

/-- No partial value of a group is on its way, nor kept to be resent. -/
structure State.NoPartials (s : State) (g : Nat) : Prop where
  net : ∀ q ∈ s.net, q.2.kind.partialOf g = false
  sent : ∀ q ∈ s.sent, q.2.kind.partialOf g = false

/-- A packet found there brings none. -/
theorem State.NoPartials.at? {s : State} {g i : Nat} {q : Packet} (h : s.NoPartials g)
    (hq : Map.at? s.net i = some q ∨ Map.at? s.sent i = some q) : q.kind.partialOf g = false := by
  rcases hq with hq | hq
  · exact h.net _ (Map.mem_of_at? hq)
  · exact h.sent _ (Map.mem_of_at? hq)

/-- A status sent brings none. -/
theorem State.NoPartials.sendStatus {s : State} {g : Nat} (h : s.NoPartials g) (p : Packet) (hc : 3 < p.cls)
    (hp : ∃ g' elem cause tval after, p.kind = .redStatus g' elem cause tval after) : (s.sendStatus p).NoPartials g := by
  obtain ⟨g', elem, cause, tval, after, hkind⟩ := hp
  obtain ⟨m, hm⟩ : ∃ m, s.sendStatus p = { s with applied := m }.send p := ⟨_, rfl⟩
  obtain ⟨hnet, -, hsent, -, -⟩ := State.send_free { s with applied := m } p (.inl hc)
  have hkept : p.kind.kept p.cls = false := by rw [hkind]; exact decide_eq_false (by omega)
  refine ⟨fun q hq => ?_, fun q hq => ?_⟩
  · rw [hm, hnet] at hq
    rcases Map.mem_ins hq with rfl | hq
    · show p.kind.partialOf g = false
      rw [hkind]; rfl
    · exact h.net q hq
  · rw [hm, hsent, hkept, if_neg Bool.false_ne_true] at hq
    exact h.sent q hq

/-- Nor do those of all contributors. -/
theorem statusAll_noPartials {s : State} {g : Nat} (h : s.NoPartials g) (root : Nat) (v : Group) (cause tval : Nat) :
    (statusAll s g root v cause tval).NoPartials g := by
  unfold statusAll
  exact List.foldlRecOn (motive := fun q : State => q.NoPartials g) v.cmds _ h
    (fun q hq m _ => hq.sendStatus _ (by decide : 3 < 5) ⟨_, _, _, _, _, rfl⟩)

/-- Blocks of a slice dropped leave all else. -/
theorem State.foldl_dropSlcBlk (blks : List Nat) : ∀ s : State, ∃ m, blks.foldl State.dropSlcBlk s = { s with slcBlks := m } := by
  induction blks with
  | nil => exact fun s => ⟨s.slcBlks, rfl⟩
  | cons b blks ih => exact fun s => ih (s.dropSlcBlk b)

/-- Discarding the partial values of a group leaves memory, cores, groups, and none of them. -/
theorem State.dropPartials_drops (s : State) (g : Nat) : (s.dropPartials g).mem = s.mem ∧ (s.dropPartials g).cores = s.cores ∧
    (s.dropPartials g).NoPartials g := by
  obtain ⟨m, hm⟩ := State.foldl_dropSlcBlk (s.partials g) (s.dropStreams (s.partials g))
  have hkeep : ∀ q : Nat × Packet, (match q.2.kind with
      | .redContrib h _ _ _ _ _ _ _ leaf _ _ => decide (h ≠ g) || leaf
      | _ => true) = true → q.2.kind.partialOf g = false := by
    intro q hq
    cases hk : q.2.kind <;> rw [hk] at hq
    case redContrib h a b c d e f i leaf j k => cases leaf <;> simp_all [PKind.partialOf]
    all_goals rfl
  unfold State.dropPartials
  rw [hm]
  exact ⟨rfl, rfl, fun q hq => hkeep q (List.mem_filter.1 hq).2, fun q hq => hkeep q (List.mem_filter.1 hq).2⟩

/-- A round of which nothing is missing does not run out. -/
theorem Group.expired_of_missing {v : Group} (h : v.missing = 0) (now : Nat) : v.expired now = false := by
  unfold Group.expired
  split
  · rfl
  · simp [h]

/-- A round open for its timeout with a contribution missing does. -/
theorem Group.expired_of_timeout {v : Group} {n now : Nat} (hopen : v.opened = some n) (hset : gcTimeout v.conf ≠ 0)
    (hlate : n + gcTimeout v.conf ≤ now) (hmiss : v.cmds.length < (gcMembers v.conf).length) : v.expired now = true := by
  have : 0 < v.missing := by unfold Group.missing; omega
  unfold Group.expired
  simp [hopen, hset, hlate, this]

/-- Nothing happens in a round of which nothing is missing. -/
theorem exec_reductionTimeout_waits {s : State} {g : Nat} (h : (s.group g).missing = 0) : exec (.reductionTimeout g) s = .next s := by
  show execReductionTimeout g s = _
  simp [execReductionTimeout, Group.expired_of_missing h]

/-- A round whose time is up is discarded, its partial values with it, and each contributor is told how many are missing. -/
theorem exec_reductionTimeout_expired {s : State} {g : Nat} (h : (s.group g).expired s.cycle = true) : ∃ root,
    exec (.reductionTimeout g) s =
      .next (statusAll ((s.dropPartials g).setGroup g (s.group g).reopen) g root (s.group g) 7 (s.group g).missing) := by
  show ∃ root, execReductionTimeout g s = _
  simp only [execReductionTimeout, h, if_true]
  exact ⟨_, rfl⟩

/-! ## A status delivered (R201, R251) -/

/-- A status at its element: the value, or the errored element (R202). -/
def Ctx.takeStatus (x : Ctx) (i : Nat) (elem : Option Dword) (cause : Nat) (tval : Dword) : Ctx :=
  match elem with
  | some v => x.produce i v
  | none => x.produceErr i cause tval

section
variable {s : State} {id g cause after : Nat} {p : Packet} {elem : Option Dword} {tval : Dword} {m : Cmd} (hf : s.flying id = some p)
  (hk : p.kind = .redStatus g elem cause tval after) (hm : Map.at? s.cmds p.cmd = some m)
include hf hk hm

/-- A status waits for its result's landing. -/
theorem exec_reductionStatusDeliver_waits (hw : after ∈ m.pend) : exec (.reductionStatusDeliver id) s = .next s := by
  show execReductionStatusDeliver id s = _
  unfold execReductionStatusDeliver
  simp only [hf, hk, hm, hw, if_true]

/-- Then it is produced, and the command finishes. -/
theorem exec_reductionStatusDeliver_gives {i : Nat} {rest : List Nat} (hw : after ∉ m.pend) (hq : m.q6 = i :: rest) :
    exec (.reductionStatusDeliver id) s = .next (((s.unsend id).modCtxOf m.core m.uid (fun x => x.takeStatus i elem cause tval)).settle
      p.cmd p.acks {}) := by
  show execReductionStatusDeliver id s = _
  unfold execReductionStatusDeliver
  simp only [hf, hk, hm, hw, if_false, hq]
  rfl

end

/-! ## The clauses of REDUCTION_CONTRIBUTION -/

section
variable {s : State} {id g node port core count tag blk beats : Nat} {shape e : Dword} {vals : List Nat} {leaf : Bool} {p : Packet}
  {gr : Group} (ha : s.Arriving id p) (hk : p.kind = .redContrib g node port core count tag shape vals leaf blk beats)
  (hgr : gr = s.group g) (he : e = Map.get 0 gr.tree node) (hb : beats ≤ (s.slcBlk blk).beats) (hopen : gr.expired s.cycle = false)
  (hfree : Map.at? gr.vals (portKey node port) = none)
include ha hk hgr he hb hopen hfree

/-- A node that lacks another port only keeps the value. -/
theorem exec_reductionContribution_kept (hlack : ∃ k ∈ portsOf e, k ≠ port ∧ Map.at? gr.vals (portKey node k) = none) :
    exec (.reductionContribution id) s =
      .next ((s.takes id p leaf blk).setGroup g (gr.given node port core count tag shape vals leaf p.cmd s.cycle)) := by
  have hu := State.takes_frame s id p leaf blk
  have hgroup : (s.takes id p leaf blk).group g = gr := by rw [hgr, State.group, hu.groups]; rfl
  have hv : gr.given node port core count tag shape vals leaf p.cmd s.cycle =
      ((s.takes id p leaf blk).group g).given node port core count tag shape vals leaf p.cmd (s.takes id p leaf blk).cycle := by
    rw [hgroup, hu.cycle]
  rw [exec_reductionContribution_taken ha hk hb (hgr ▸ hopen) (hgr ▸ hfree),
    contribute_keeps hv (by rw [hgroup]; exact he) (Group.given_lacks hlack)]

/-- A complete node combines its ports' values, and closes the round or sends the sum on. -/
theorem exec_reductionContribution_folds {v1 : Group} {v0 acc : List Nat} {rest : List (List Nat)} {tag1 : Nat} {shape1 : Dword}
    (hv1 : v1 = gr.given node port core count tag shape vals leaf p.cmd s.cycle)
    (hall : ∀ k ∈ portsOf e, k ≠ port → (Map.at? gr.vals (portKey node k)).isSome = true)
    (hvals : (portsOf e).map (fun k => if k = port then vals else Map.get [] gr.vals (portKey node k)) = v0 :: rest)
    (hacc : acc = rest.foldl (fun u w => List.zipWith (combined (gcOp gr.conf)) u w) v0)
    (htag : tag1 = Map.get 0 (Map.ins gr.tags (portKey node port) tag) (portKey node ((portsOf e).headD 0)))
    (hshape : shape1 = Map.get 0 (Map.ins gr.shapes (portKey node port) shape) (portKey node ((portsOf e).headD 0))) :
    exec (.reductionContribution id) s = .next (
      if treeParent e = treeRoot then closeRound (s.takes id p leaf blk) g (bits e.toNat 0 8 % 128) v1 tag1 shape1 acc
      else sendPartial ((s.takes id p leaf blk).setGroup g v1) g p.tenant (bits e.toNat 0 8 % 128)
        (bits (Map.get 0 gr.tree (treeParent e)).toNat 0 8 % 128) (treeParent e) (treePport e) core tag1 shape1
        (if gcFloat (gcOp gr.conf) then 0x01 else 0x09) acc) := by
  have hu := State.takes_frame s id p leaf blk
  have hgroup : (s.takes id p leaf blk).group g = gr := by rw [hgr, State.group, hu.groups]; rfl
  have hv : v1 =
      ((s.takes id p leaf blk).group g).given node port core count tag shape vals leaf p.cmd (s.takes id p leaf blk).cycle := by
    rw [hgroup, hu.cycle, hv1]
  have hgot : v1.got node e = v0 :: rest := by rw [hv1, Group.given_complete hall, hvals]
  have hlen : (v1.got node e).length = (portsOf e).length := by rw [hgot, ← hvals, List.length_map]
  rw [exec_reductionContribution_taken ha hk hb (hgr ▸ hopen) (hgr ▸ hfree),
    contribute_folds hv (by rw [hgroup]; exact he) (acc := acc) (tag1 := tag1) (shape1 := shape1) hlen (by rw [hgroup, hgot, foldPorts_cons, hacc])
      (by rw [hv1]; exact htag) (by rw [hv1]; exact hshape), hgroup]

end

/-- What a state holds whose group is written and from which packets are then sent. -/
theorem Grown.take_frame {s u t : State} {g : Nat} {v : Group} (hu : TakeFrame s u) (h : Grown (u.setGroup g v) t) :
    t.mem = s.mem ∧ t.cores = s.cores ∧ t.group g = v :=
  ⟨h.mem.trans hu.mem, h.cores.trans hu.cores, (h.group g).trans (State.group_setGroup u g v)⟩

/-- A packet of the fabric, without the bound on its identity. -/
theorem State.Sent.exists {s : State} {k : PKind} {d : Leaf} {cmd : Nat} (h : s.Sent k d cmd) :
    ∃ n q, Map.at? s.net n = some q ∧ q.dst = d ∧ q.cmd = cmd ∧ q.kind = k := by
  obtain ⟨n, q, -, hq⟩ := h
  exact ⟨n, q, hq⟩

/-- Settles O35: a contribution waits, is refused, is kept or is folded; a round whose time is up is discarded at every node; and a
status is delivered once its result has landed. -/
theorem reductionSteps : Obligations.ReductionSteps := by
  refine ⟨?_, fun s g => exec_reductionTimeout_waits, ?_, ?_⟩
  · intro s id g node port core count tag shape e vals leaf blk beats p gr ha hk hgr he
    refine ⟨fun hexp => exec_reductionContribution_waits ha hk (.inr (hgr ▸ hexp)), fun hopen => ⟨fun hlt =>
      exec_reductionContribution_waits ha hk (.inl hlt), fun hb hfull =>
      exec_reductionContribution_refused ha hk hb (hgr ▸ hopen) (hgr ▸ hfull), fun hb hfree => ⟨fun hlack => ?_, ?_⟩⟩⟩
    · have hu := State.takes_frame s id p leaf blk
      refine ⟨_, exec_reductionContribution_kept ha hk hgr he hb hopen hfree hlack, ?_⟩
      rw [State.group_setGroup]
      refine ⟨Map.at?_ins_self _ _ _, fun j hj => Map.at?_ins_ne _ _ (Ne.symm hj), hu.mem, hu.cores, rfl, ?_⟩
      rintro rfl
      exact ⟨Map.get_ins_self _ _ _ _, Map.get_ins_self _ _ _ _⟩
    · intro v0 rest acc tag1 shape1 _ hall hvals hacc htag hshape
      have hu := State.takes_frame s id p leaf blk
      have hexec := exec_reductionContribution_folds ha hk hgr he hb hopen hfree rfl hall hvals hacc htag hshape
      refine ⟨fun hparent => ?_, fun hroot hcounts => ?_, fun hroot hcounts => ?_⟩
      · rw [if_neg hparent] at hexec
        obtain ⟨hgrown, b, m, hsent⟩ := sendPartial_sends ((s.takes id p leaf blk).setGroup g (gr.given node port core count tag shape vals
          leaf p.cmd s.cycle)) g p.tenant (bits e.toNat 0 8 % 128) (bits (Map.get 0 gr.tree (treeParent e)).toNat 0 8 % 128)
          (treeParent e) (treePport e) core tag1 shape1 (if gcFloat (gcOp gr.conf) then 0x01 else 0x09) acc
        obtain ⟨n, q, hq, hdst, -, hkind⟩ := hsent.exists
        obtain ⟨hmem, hcores, -⟩ := hgrown.take_frame hu
        exact ⟨_, n, q, b, m, hexec, hq, hdst, hkind, hmem, hcores⟩
      · rw [if_pos hroot] at hexec
        obtain ⟨hgrown, hresult⟩ := closeRound_results (s := s.takes id p leaf blk) (g := g) (root := bits e.toNat 0 8 % 128) (tag := tag1)
          (v := gr.given node port core count tag shape vals leaf p.cmd s.cycle) (shape := shape1) (acc := acc) hcounts
        obtain ⟨hmem, hcores, hgroup⟩ := hgrown.take_frame hu
        refine ⟨_, hexec, hmem, hcores, hgroup, fun c hc cmd m bts hcmd hm hbts => ?_⟩
        obtain ⟨h, ⟨htag', htenant, horigin, hetype⟩, hbeat, hclose, hstatus⟩ :=
          hresult c hc cmd (Map.get_of_at? 0 hcmd) (by rw [hu.cmds, hm]; rfl)
        subst hbts
        exact ⟨h, htag', htenant, horigin, hetype, fun b hb => (hbeat b hb).exists, hclose.exists, hstatus.exists⟩
      · rw [if_pos hroot] at hexec
        obtain ⟨hgrown, hstatus⟩ := closeRound_counts (s := s.takes id p leaf blk) (g := g) (root := bits e.toNat 0 8 % 128) (tag := tag1)
          (v := gr.given node port core count tag shape vals leaf p.cmd s.cycle) (shape := shape1) (acc := acc) hcounts
        obtain ⟨hmem, hcores, hgroup⟩ := hgrown.take_frame hu
        exact ⟨_, hexec, hmem, hcores, hgroup, fun k hk => (hstatus k hk).exists⟩
  · intro s g n hstart hset hlate hmiss
    obtain ⟨root, hexec⟩ := exec_reductionTimeout_expired (Group.expired_of_timeout hstart hset hlate hmiss)
    obtain ⟨hmem, hcores, hnone⟩ := State.dropPartials_drops s g
    obtain ⟨hgrown, hsent⟩ := statusAll_sends ((s.dropPartials g).setGroup g (s.group g).reopen) g root (s.group g) 7 (s.group g).missing
    refine ⟨_, hexec, (hgrown.group g).trans (State.group_setGroup _ g _), hgrown.mem.trans hmem, hgrown.cores.trans hcores, ?_, ?_⟩
    · intro i q nd pt c m tg sh vs bl bt hq hkind
      have hnone' : ((s.dropPartials g).setGroup g (s.group g).reopen).NoPartials g := ⟨hnone.net, hnone.sent⟩
      have hpart := (statusAll_noPartials hnone' root (s.group g) 7 (s.group g).missing).at? hq
      rw [hkind] at hpart
      simp [PKind.partialOf] at hpart
    · exact fun k hk => (hsent k hk).exists
  · intro s id g cause after p elem tval m hf hk hm
    refine ⟨exec_reductionStatusDeliver_waits hf hk hm, fun i rest hw hq => ?_⟩
    rw [exec_reductionStatusDeliver_gives hf hk hm hw hq]
    rfl

end Sys2Proof.Machine
end

section
/-! SUPPORT. The data commands and word atomics (R174-R183, R187, R188): what each sends as it starts, and how a word goes through
its index list. Settles O13. -/

namespace Sys2Proof.Machine

/-! ## What a run leaves -/

/-- A word without tokens to push that has finished has performed, where it is an operation (R177, R198). -/
theorem afterRun_finished {s0 s : State} {c : Nat} {w : QWord} (hs : w.pfx.signal = 0) :
    afterRun s0 c w (.done s) = s.performed c w := by
  simp only [afterRun, hs, if_true]
  rfl

/-- The ways in which a data command leaves its run (R177, R178): through with nothing awaited, through with packets under way, or
standing at the next batch of its list. -/
def RunRes.OfData : RunRes → Prop
  | .done _ | .sent _ | .again .. => True
  | .shut _ | .going _ | .hold _ | .trap .. => False

/-- Such a run leaves what the tables list. -/
theorem afterRun_data {s0 : State} {c : Nat} {w : QWord} {r : RunRes} (hs : w.pfx.signal = 0) (hr : r.OfData) :
    afterRun s0 c w r = r.listed c w := by
  cases r with
  | done t => exact afterRun_finished hs
  | sent t => rfl
  | again t v keys => rfl
  | shut t => cases hr
  | going t => cases hr
  | hold t => cases hr
  | trap cause tval t => cases hr

/-- The end of a list is the end of its command, or waits for what it has sent. -/
theorem listEnd_ofData (s : State) (cmd : Nat) : (listEnd s cmd).OfData := by
  unfold listEnd
  split
  · split <;> trivial
  · trivial

/-- However many batches one step takes. -/
theorem listLoop_ofData (o : DataOp) (batch : State → Listing → State) (c t : Nat) (w : QWord) (n : Nat) :
    ∀ (s : State) (l : Listing), (listLoop o batch c t w n s l).OfData := by
  induction n with
  | zero => exact fun s l => listEnd_ofData s l.cmd
  | succ n ih =>
    intro s l
    simp only [listLoop]
    split
    · exact listEnd_ofData _ _
    · split
      · exact ih _ _
      · trivial

/-- A word that starts its list, and one that goes on with it. -/
theorem listRun_ofData (o : DataOp) (leaves : List Leaf) (per : Nat) (batch : State → Listing → State) (s : State) (c : Nat) (x : Ctx)
    (w : QWord) : (listRun o leaves per batch s c x w).OfData := by
  unfold listRun
  simp only
  split
  · exact listLoop_ofData _ _ _ _ _ _ _ _
  · exact listLoop_ofData _ _ _ _ _ _ _ _

/-! ## The batches of a list (R178) -/

/-- The positions of the first k batches of n are the first of all. -/
theorem batches_range (n k : Nat) :
    (List.range k).flatMap (fun b => rangeFrom (batchLen * b) (Min.min batchLen (n - batchLen * b))) = List.range (Min.min n (batchLen * k)) := by
  induction k with
  | zero => simp
  | succ k ih =>
    rw [List.range_succ, List.flatMap_append, ih, List.flatMap_singleton]
    have hlen : Min.min n (batchLen * (k + 1)) = Min.min n (batchLen * k) + Min.min batchLen (n - batchLen * k) := by
      simp only [batchLen]; omega
    rw [hlen, List.range_add]
    congr 1
    by_cases hk : batchLen * k ≤ n
    · rw [Nat.min_eq_right hk]; rfl
    · rw [Nat.sub_eq_zero_of_le (Nat.le_of_not_le hk)]; rfl

/-- The batches of a list hold each of its indices once, with its position. -/
theorem batches_indices (k : Core) (a : Dword) :
    ((rangeFrom 0 (ceilDiv (ixCount a) batchLen)).flatMap (fun b => batchOf k a (batchLen * b))).map Prod.fst = k.indices a := by
  have hfrom : rangeFrom 0 (ceilDiv (ixCount a) batchLen) = List.range (ceilDiv (ixCount a) batchLen) := by
    simp [rangeFrom]
  have hall : Min.min (ixCount a) (batchLen * ceilDiv (ixCount a) batchLen) = ixCount a := by
    simp only [ceilDiv, batchLen]; omega
  have hcover := batches_range (ixCount a) (ceilDiv (ixCount a) batchLen)
  rw [hall] at hcover
  rw [hfrom, Core.indices, ← hcover, List.map_flatMap, List.map_flatMap]
  simp only [batchOf, List.map_map]
  rfl

/-! ## The captured word -/

/-- A check passes. -/
def Chk.passed : Chk → Bool
  | .ok _ => true
  | .trap .. | .stall _ => false

/-- A check that passes did not take a branch that does not. -/
theorem Chk.ok_of_ite {p : Prop} [Decidable p] {b e : Chk} {w : QWord} (h : (if p then b else e) = .ok w) (hb : b.passed = false) :
    e = .ok w := by
  by_cases hp : p
  · rw [if_pos hp] at h; rw [h] at hb; cases hb
  · rwa [if_neg hp] at h

/-- What the checks of a data command leave of it: it is at the start of its list. -/
theorem dataChk_lst {o : DataOp} {slot mw c : Nat} {sel : Bool} {s : State} {x : Ctx} {w0 w : QWord}
    (h : dataChk o slot mw sel s c x w0 = .ok w) : w.lst = w0.lst := by
  unfold dataChk at h
  split at h
  · cases h
  · have hspace := Chk.ok_of_ite h rfl
    have hmap := Chk.ok_of_ite hspace rfl
    have hmiss := Chk.ok_of_ite hmap rfl
    have hscales := Chk.ok_of_ite hmiss rfl
    simp only at hscales
    generalize firstBreach _ = breach at hscales
    cases breach with
    | some cause => cases hscales
    | none => cases hscales; rfl

/-- Enrolment leaves it there. -/
@[simp] theorem Ctx.enrol_lst (x : Ctx) (sp : CapSpec) (k : Nat) (w : QWord) : (x.enrol sp k w).2.lst = w.lst := by
  obtain ⟨_, _, _, _, _, _, he⟩ := Ctx.enrol_word_eq x sp k w
  rw [he]

/-! ## What the starts send -/

section
variable {u : State} {c : Nat} {y : Ctx} {v : QWord} (hy : u.ctx c = some y)
include hy

/-- `xget` asks for its block for every destination, and finishes where there is none (R174, R177). -/
theorem runXget_eq : runXget u c v =
    let leaves := destLeaves (u.tenant y.tenant) (op1 v)
    if leaves.isEmpty then .done u
    else .sent (u.issues c y v 1 (dTag v.desc) 0 (leaves.length + 1) (rangeFrom u.nextId (leaves.length + 1)) (fun cmd =>
      [requestPacket y c cmd v (op0 v) (op0 v) (numbered u.nextId leaves) (u.nextId + leaves.length)])) := by
  unfold runXget
  rw [hy]
  rfl

/-- `xgat` without a destination counts the indices outside the extent, and finishes; any other goes through its list (R178, R179). -/
theorem runXgat_eq (hl : v.lst = none) : runXgat u c v =
    let leaves := destLeaves (u.tenant y.tenant) (op1 v)
    if leaves.isEmpty then .done (noteOob u c (((u.core c).indices (op0 v)).countP (outside (cRow (gExt v.gmap)))))
    else listRun .gat leaves (leaves.length + 1) (gatBatch c y v) u c y v := by
  have hcount := congrArg (List.countP (outside (cRow (gExt v.gmap)))) (batches_indices (u.core c) (op0 v))
  rw [List.countP_map] at hcount
  unfold runXgat
  simp only [hy, hl, Option.isNone_none, Bool.and_true]
  rw [← hcount]
  rfl

/-- `xsend` sends its block, and under QNT its scales, to every destination, and finishes where there is none (R174, R180, R188). -/
theorem runXsend_eq : runXsend u c v =
    let leaves := destLeaves (u.tenant y.tenant) (op1 v)
    let rows := outRows u c v (op0 v) (rowsOf (dBlock v.desc))
    let u1 := noteFlush u c ((rows.map (fun r => r.2.2)).sum)
    let n := leaves.length
    let all := if mwQNT v.mw then 2 * n else n
    if leaves.isEmpty then .done u1
    else .sent (u1.issues c y v 3 (dTag v.desc) 0 all (rangeFrom u1.nextId all) (fun cmd =>
      blockPackets y c cmd (dTag v.desc) v.outEt (op0 v) (beatsOf v.outEt (rows.map (fun r => r.1))) (numbered u1.nextId leaves)
        ++ (if mwQNT v.mw then blockPackets y c cmd ((dTag v.desc + 1) % 4096) 0x11 (scaleOrigin (op0 v))
              (beatsOf 0x11 (rows.map (fun r => r.2.1))) (numbered (u1.nextId + n) leaves) else []))) := by
  unfold runXsend
  rw [hy]
  rfl

/-- `xput` and `xacc` leave their blocks on the way to the slices (R177, R181). -/
theorem afterRun_putRun {s0 : State} {op5 : Nat} {kind : Hdr → Beat → PKind} :
    afterRun s0 c v (putRun op5 kind u c v) = putOut op5 kind u c y v := by
  unfold putRun putOut
  rw [hy]
  rfl

/-- `xsca` goes through its list (R178, R180). -/
theorem runXsca_eq (o : BitVec 2) : runXsca o u c v = listRun .sca [] 1 (scaBatch o.toNat c y v) u c y v := by
  unfold runXsca
  rw [hy]

/-- `xat` sends its operation to its word's home (R183). -/
theorem runXat_going (o : BitVec 4) (z : BitVec 2) : runXat o z u c v = .going (sendCmd u c y v 7
    (.atomic o.toNat (if z = 0 then 4 else 8) v.pa (xatAddr z (op0 v)) (op1 v) (v.ops.getD 2 0)) (.slice (homeSlice v.pa))) := by
  unfold runXat
  rw [hy]

end

/-! ## The table -/

/-- A word that does nothing as it passes capture, and runs as a data command. -/
theorem word_data {r : WordSpec} {run : RunFn} {i : Instr} {s u : State} {x y : Ctx} {vals : List Dword} {pops : List Nat}
    {w v : QWord} {l : RunRes} (h : Idle s x) (hp : Passes s x i r.sp r.chk vals pops w) (hv : v = (x.enrol r.sp (s.tenant x.tenant).scap w).2)
    (hu : u = touchUnits (passing r.sp r.act (s.entered x r.sp w pops) s.cur v) s.cur x.me w.units) (hact : r.act = noAct)
    (hst : i.still = true) (hr : run u s.cur v = l) (hl : l.OfData) (ho : r.out u s.cur y v = l.listed s.cur v) :
    issue i r.sp r.chk r.act run s = .next (r.out u s.cur y v) :=
  word_still h hp hv hu (fun y0 hy0 => hact ▸ acts_none h y0 hy0) hst (fun _ hs => by rw [hr, ho]; exact afterRun_data hs hl)

/-- Each row's word sends its packets, goes through its list, or finishes where it has no destination. -/
theorem dataWords_complete : WordsComplete dataWords := by
  intro s u x y i r vals pops w v hr h hp hv hu hy _
  cases i
  case xget d a b m k =>
    cases hr
    refine word_data (run := runXget) h hp hv hu rfl rfl (runXget_eq hy) ?_ ?_
    · dsimp only; split <;> trivial
    · dsimp only; split <;> rfl
  case xgat d a b m k =>
    cases hr
    have hl : v.lst = none := by rw [hv, Ctx.enrol_lst, dataChk_lst (s := s) (c := s.cur) hp.check]; rfl
    refine word_data (run := runXgat) h hp hv hu rfl rfl (runXgat_eq hy hl) ?_ ?_
    · dsimp only
      split
      · trivial
      · exact listRun_ofData ..
    · dsimp only; split <;> rfl
  case xsend d a b m k =>
    cases hr
    refine word_data (run := runXsend) h hp hv hu rfl rfl (runXsend_eq hy) ?_ ?_
    · dsimp only; split <;> trivial
    · dsimp only; split <;> rfl
  case xput d a b m k =>
    cases hr
    exact word_still (run := runXput) h hp hv hu (acts_none h) rfl (fun _ _ => afterRun_putRun hy)
  case xacc d a b m o k =>
    cases hr
    exact word_still (run := runXacc o) h hp hv hu (acts_none h) rfl (fun _ _ => afterRun_putRun hy)
  case xsca d a b m o k =>
    cases hr
    exact word_data (run := runXsca o) h hp hv hu rfl rfl (runXsca_eq hy o) (listRun_ofData ..) rfl
  case xat o a b e z =>
    cases hr
    exact word_still (run := runXat o z) h hp hv hu (acts_none h) rfl (fun _ _ => by rw [runXat_going hy]; rfl)
  all_goals cases hr

end Sys2Proof.Machine

namespace Sys2Proof

/-- Settles O13: every word of the table completes. -/
theorem dataWords : Obligations.DataWords := Machine.dataWords_complete

end Sys2Proof
end

section
/-! SUPPORT. Global maps at slices, invalidations of the step cache and counter snapshots (R186, R281, R315, R333): what each packet
does where it arrives. Settles O49. -/

namespace Sys2Proof.Machine

/-! ## Answers leave a tenant's maps and counters -/

section
variable {s t : State} (h : Fabric s t) (k : Nat)
include h
theorem Fabric.gmaps : (t.tenant k).gmaps = (s.tenant k).gmaps := by rw [h.tenant k]
theorem Fabric.gslices : (t.tenant k).gslices = (s.tenant k).gslices := by rw [h.tenant k]
theorem Fabric.pins : (t.tenant k).pins = (s.tenant k).pins := by rw [h.tenant k]
theorem Fabric.snaps : (t.tenant k).snaps = (s.tenant k).snaps := by rw [h.tenant k]
theorem Fabric.gap : (t.tenant k).gap = (s.tenant k).gap := by rw [h.tenant k]
theorem Fabric.usage : (t.tenant k).usage = (s.tenant k).usage := by rw [h.tenant k]
theorem Fabric.gmapAt (tag sl : Nat) : t.gmapAt k tag sl = s.gmapAt k tag sl := by
  unfold State.gmapAt
  rw [h.gslices, h.gmaps]
end

/-- An acknowledgement is in the response class, which no limiter concerns: no tenant pays for it (R258, R260). -/
theorem State.tenants_ackPkt (s : State) (id : Nat) (p : Packet) (i : AckInfo) : (s.ackPkt id p i).tenants = s.tenants := by
  obtain ⟨-, -, htenants, -⟩ := State.answer_facts s id p (.ack p.seq p.acks i) rfl
  exact htenants

/-! ## Global maps (R186) -/

/-- A slice has no map that it does not list. -/
theorem State.gmapAt_unlisted {s : State} {k tag sl : Nat} (h : sl ∉ Map.get [] (s.tenant k).gslices tag) : s.gmapAt k tag sl = none :=
  if_neg h

/-- The other slices that have a map. -/
def Tenant.slicesBut (t : Tenant) (tag sl : Nat) : List Nat := (Map.get [] t.gslices tag).filter (fun k => k ≠ sl)

/-- The slice itself is none of them. -/
theorem Tenant.not_mem_slicesBut (t : Tenant) (tag sl : Nat) : sl ∉ t.slicesBut tag sl := by
  simp [Tenant.slicesBut]

/-- There is none where it is the last. -/
theorem Tenant.slicesBut_isEmpty {t : Tenant} {tag sl : Nat} :
    (t.slicesBut tag sl).isEmpty = true ↔ ∀ k ∈ Map.get [] t.gslices tag, k = sl := by
  simp [Tenant.slicesBut, List.filter_eq_nil_iff]

/-- A tenant without a map: no slice has it, and none of its pages is pinned. -/
def Tenant.dropMap (t : Tenant) (tag : Nat) : Tenant :=
  { t with gslices := Map.del t.gslices tag, gmaps := Map.del t.gmaps tag, pins := Map.del t.pins tag }

/-- A listed value changed under every key reads changed, or as it did where the key is not listed. -/
theorem Map.get_map_all {α : Type} (d : α) (f : α → α) (k : Nat) (m : Map α) :
    Map.get d (m.map (fun p => (p.1, f p.2))) k = f (Map.get d m k) ∨
      (Map.get d (m.map (fun p => (p.1, f p.2))) k = d ∧ Map.get d m k = d) := by
  induction m with
  | nil => exact .inr ⟨rfl, rfl⟩
  | cons p t ih =>
    obtain ⟨j, v⟩ := p
    by_cases hj : j = k
    · exact .inl (by simp [Map.get, hj])
    · simpa [Map.get, hj] using ih

/-- Purging changes a core's cached maps alone, and leaves the map in none (R186). -/
theorem State.core_purgeMap (s : State) (k tag c : Nat) :
    ∃ m, (s.purgeMap k tag).core c = { s.core c with gcache := m } ∧ Map.at? (Map.get [] m k) tag = none := by
  rcases Map.get_map_all {} (fun q : Core => { q with gcache := Map.ins q.gcache k (Map.del (Map.get [] q.gcache k) tag) }) c s.cores
    with h | ⟨h, hnew⟩
  · exact ⟨_, h, by simp⟩
  · refine ⟨[], h.trans ?_, rfl⟩
    unfold State.core
    rw [hnew]

section
variable {s : State} {id sl : Nat} {p : Packet} (ha : s.Arriving id p) (hd : p.dst = .slice sl)
include ha hd

/-- A slice that takes a map is listed with those that have it. -/
theorem exec_gmapIns {g : Rec512} (hk : p.kind = .gmapIns g) : exec (.globalMapInstallArrive id) s =
    .next ((s.modTenant p.tenant (fun t => { t with
      gslices := Map.ins t.gslices (gTag g) (addMark (Map.get [] t.gslices (gTag g)) sl) })).ackPkt id p {}) := by
  show execGlobalMapInstallArrive id s = _
  unfold execGlobalMapInstallArrive
  rw [onPacket_of_arriving ha]
  simp only [hk, hd]

/-- The last slice that lets a map go takes it from its tenant, with its pinned pages and every core's copy. -/
theorem exec_gmapDel_last {tag : Nat} (hk : p.kind = .gmapDel tag) (hlast : ∀ k ∈ Map.get [] (s.tenant p.tenant).gslices tag, k = sl) :
    exec (.globalMapInstallArrive id) s =
      .next (((s.modTenant p.tenant (fun t => t.dropMap tag)).purgeMap p.tenant tag).ackPkt id p {}) := by
  have hempty : (List.filter (fun k => decide (k ≠ sl)) (Map.get [] (s.tenant p.tenant).gslices tag)).isEmpty = true :=
    Tenant.slicesBut_isEmpty.2 hlast
  show execGlobalMapInstallArrive id s = _
  unfold execGlobalMapInstallArrive
  rw [onPacket_of_arriving ha]
  simp only [hk, hd, hempty, if_true]
  rfl

/-- Any other leaves the map to the others. -/
theorem exec_gmapDel_others {tag : Nat} (hk : p.kind = .gmapDel tag)
    (hothers : ¬ ∀ k ∈ Map.get [] (s.tenant p.tenant).gslices tag, k = sl) : exec (.globalMapInstallArrive id) s =
      .next ((s.modTenant p.tenant (fun t => { t with
        gslices := Map.ins t.gslices tag ((s.tenant p.tenant).slicesBut tag sl) })).ackPkt id p {}) := by
  have hsome : ¬ (List.filter (fun k => decide (k ≠ sl)) (Map.get [] (s.tenant p.tenant).gslices tag)).isEmpty = true :=
    fun h => hothers (Tenant.slicesBut_isEmpty.1 h)
  show execGlobalMapInstallArrive id s = _
  unfold execGlobalMapInstallArrive
  rw [onPacket_of_arriving ha]
  simp only [hk, hd, hsome]
  rfl

/-- An invalidation drops the tenant's entries of the slice (R281). -/
theorem exec_sacInv (hk : p.kind = .sacInv) : exec (.sacInvalidationArrive id) s =
    .next (({ s with sac := s.sac.filter (fun e => e.1 / 4096 ≠ sl * 32 + p.tenant) } : State).ackPkt id p {}) := by
  show execSacInvalidationArrive id s = _
  unfold execSacInvalidationArrive
  rw [onPacket_of_arriving ha]
  simp only [hk, hd]

/-- What a slice leaves that lets a map go. -/
theorem exec_gmapDel {tag : Nat} (hk : p.kind = .gmapDel tag) : ∃ t, exec (.globalMapInstallArrive id) s = .next t ∧
    t.gmapAt p.tenant tag sl = none ∧ t.mem = s.mem ∧ (∀ c, ∃ m, t.core c = { s.core c with gcache := m }) ∧
    ((∀ k ∈ Map.get [] (s.tenant p.tenant).gslices tag, k = sl) →
      (t.tenant p.tenant).gmaps = Map.del (s.tenant p.tenant).gmaps tag ∧ Map.at? (t.tenant p.tenant).pins tag = none ∧
      ∀ c, Map.at? (Map.get [] (t.core c).gcache p.tenant) tag = none) := by
  by_cases hlast : ∀ k ∈ Map.get [] (s.tenant p.tenant).gslices tag, k = sl
  · refine ⟨_, exec_gmapDel_last ha hd hk hlast, ?_⟩
    have hf := Fabric.ackPkt ((s.modTenant p.tenant (fun t => t.dropMap tag)).purgeMap p.tenant tag) id p {}
    have htenant : ((s.modTenant p.tenant (fun t => t.dropMap tag)).purgeMap p.tenant tag).tenant p.tenant =
        (s.tenant p.tenant).dropMap tag := State.tenant_modTenant_self s p.tenant (fun t => t.dropMap tag)
    have hcore := (s.modTenant p.tenant (fun t => t.dropMap tag)).core_purgeMap p.tenant tag
    refine ⟨?_, hf.mem, fun c => ?_, fun _ => ⟨?_, ?_, fun c => ?_⟩⟩
    · rw [hf.gmapAt]
      refine State.gmapAt_unlisted ?_
      rw [htenant, Tenant.dropMap, Map.get_del_self]
      exact List.not_mem_nil
    · obtain ⟨m, hm, -⟩ := hcore c
      exact ⟨m, (hf.core c).trans hm⟩
    · rw [hf.gmaps, htenant, Tenant.dropMap]
    · rw [hf.pins, htenant, Tenant.dropMap, Map.at?_del_self]
    · obtain ⟨m, hm, hnone⟩ := hcore c
      rw [hf.core, hm]
      exact hnone
  · refine ⟨_, exec_gmapDel_others ha hd hk hlast, ?_⟩
    have hf := Fabric.ackPkt (s.modTenant p.tenant (fun t => { t with
      gslices := Map.ins t.gslices tag ((s.tenant p.tenant).slicesBut tag sl) })) id p {}
    refine ⟨?_, hf.mem, fun c => ⟨_, hf.core c⟩, fun h => absurd h hlast⟩
    rw [hf.gmapAt]
    refine State.gmapAt_unlisted ?_
    rw [State.tenant_modTenant_self, Map.get_ins_self]
    exact Tenant.not_mem_slicesBut _ _ _

end

/-! ## Counter snapshots (R315, R333) -/

/-- The record is of 320 bytes. -/
theorem snapRecord_length (s : State) (t : Nat) : (snapRecord s t).length = 320 := by
  simp [snapRecord, snapBody]

/-- Writes of a list of keys read back, and every other key reads as before. -/
theorem Map.get_foldl_put {α : Type} [DecidableEq α] (d : α) (f : Nat → α) (j : Nat) (ks : List Nat) : ∀ (m : Map α),
    Map.get d (ks.foldl (fun m k => Map.put d m k (f k)) m) j = if j ∈ ks then f j else Map.get d m j := by
  induction ks with
  | nil => intro m; simp
  | cons k ks ih =>
    intro m
    rw [List.foldl_cons, ih, Map.get_put]
    by_cases hj : j ∈ ks
    · simp [hj]
    · by_cases hk : k = j
      · simp [hk]
      · simp [hj, hk, Ne.symm hk]

/-- A counter as read is not below what it was (R333). -/
theorem State.usage_le_usageAt (s : State) (t k : Nat) : (Map.get 0 (s.tenant t).usage k).toNat ≤ (s.usageAt t k).toNat := by
  unfold State.usageAt
  simp only
  split
  · rw [BitVec.toNat_ofNat, Nat.mod_eq_of_lt (Nat.max_lt.2 ⟨BitVec.isLt _, BitVec.isLt _⟩)]
    exact Nat.le_max_left _ _
  · exact Nat.le_refl _

/-- What reading the counters leaves of the tenant. -/
theorem State.tenant_meter (s : State) (t : Nat) : (s.meter t).tenant t =
    { s.tenant t with usage := (rangeFrom 1 8).foldl (fun m k => Map.put 0 m k (s.usageAt t k)) (s.tenant t).usage } :=
  State.tenant_modTenant_self s t (fun v => { v with usage := (rangeFrom 1 8).foldl (fun m k => Map.put 0 m k (s.usageAt t k)) v.usage })

/-- Reading the counters lets none fall. -/
theorem State.usage_le_meter (s : State) (t k : Nat) :
    (Map.get 0 (s.tenant t).usage k).toNat ≤ (Map.get 0 ((s.meter t).tenant t).usage k).toNat := by
  rw [State.tenant_meter, Map.get_foldl_put]
  split
  · exact s.usage_le_usageAt t k
  · exact Nat.le_refl _

/-- Writing bytes changes memory alone. -/
theorem State.writeBytes_eq (bs : List Byte) : ∀ (s : State) (a : Nat), ∃ m, s.writeBytes a bs = { s with mem := m } := by
  induction bs with
  | nil => exact fun s _ => ⟨s.mem, rfl⟩
  | cons b t ih =>
    intro s a
    obtain ⟨m, hm⟩ := ih (s.putByte a b) (a + 1)
    exact ⟨m, hm⟩

/-- A tenant's counters as read, and the next snapshot's number. -/
def State.counted (s : State) (t : Nat) : State := (s.meter t).modTenant t (fun v => { v with snaps := v.snaps + 1, gap := false })

theorem State.tenant_counted (s : State) (t : Nat) :
    (s.counted t).tenant t = { (s.meter t).tenant t with snaps := (s.tenant t).snaps + 1, gap := false } := by
  have hsnaps : ((s.meter t).tenant t).snaps = (s.tenant t).snaps := by rw [State.tenant_meter]
  rw [State.counted, State.tenant_modTenant_self, hsnaps]

/-- A tenant's counters read, their record written where it stays in its page, and the next snapshot's number (R315). -/
def State.snapshot (s : State) (t pa : Nat) : State :=
  { (s.writeBytes pa (snapRecord s t)).cleanMem pa 320 with tenants := (s.counted t).tenants, freeCtr := (s.counted t).freeCtr }

theorem State.byte_snapshot (s : State) (t pa a : Nat) : (s.snapshot t pa).byte a = (s.writeBytes pa (snapRecord s t)).byte a := by
  unfold State.snapshot
  generalize snapRecord s t = record
  rfl

theorem State.cores_snapshot (s : State) (t pa : Nat) : (s.snapshot t pa).cores = s.cores := by
  obtain ⟨m, hm⟩ := State.writeBytes_eq (snapRecord s t) s pa
  unfold State.snapshot
  rw [hm]
  rfl

theorem State.tenant_snapshot (s : State) (t pa : Nat) : (s.snapshot t pa).tenant t = (s.counted t).tenant t := by
  unfold State.snapshot
  generalize snapRecord s t = record
  generalize s.counted t = u
  rfl

/-- Such a snapshot is taken and acknowledged with the lines of its record. -/
theorem exec_cntsnap {s : State} {id pa : Nat} {p : Packet} (ha : s.Arriving id p) (hk : p.kind = .cntsnap pa 0) (hd : p.dst = .io) :
    exec (.cntsnapRequestArrive id) s = .next ((s.snapshot p.tenant pa).ackPkt id p { lines := linesAt pa 320 }) := by
  have htake : (snapRecord s p.tenant).take 320 = snapRecord s p.tenant := List.take_of_length_le (by rw [snapRecord_length])
  have hdrop : (snapRecord s p.tenant).drop 320 = [] := List.drop_of_length_le (by rw [snapRecord_length])
  show execCntsnapRequestArrive id s = _
  unfold execCntsnapRequestArrive
  rw [onPacket_of_arriving ha]
  simp only [hk, hd, if_true, htake, hdrop, Nat.lt_irrefl, if_false, List.append_nil]
  rfl

/-- Settles O49: maps at slices and at the last of them, invalidations, and snapshots. -/
theorem distribution : Obligations.Distribution := by
  intro s id sl p ha
  refine ⟨fun g hk hd => ?_, fun tag hk hd => exec_gmapDel ha hd hk, fun hk hd => ?_, fun pa hk hd => ?_⟩
  · refine ⟨_, exec_gmapIns ha hd hk, ?_⟩
    have hf := Fabric.ackPkt (s.modTenant p.tenant (fun t => { t with
      gslices := Map.ins t.gslices (gTag g) (addMark (Map.get [] t.gslices (gTag g)) sl) })) id p {}
    refine ⟨?_, ?_, hf.mem, hf.cores⟩
    · rw [hf.gslices, State.tenant_modTenant_self, Map.get_ins_self]
      exact mem_addMark _ _
    · rw [hf.gmaps, State.tenant_modTenant_self]
  · refine ⟨_, exec_sacInv ha hd hk, ?_⟩
    have hf := Fabric.ackPkt { s with sac := s.sac.filter (fun e => e.1 / 4096 ≠ sl * 32 + p.tenant) } id p {}
    exact ⟨hf.sac, hf.mem, hf.cores, State.tenants_ackPkt _ _ _ _⟩
  · refine ⟨_, exec_cntsnap ha hk hd, ?_⟩
    have hf := Fabric.ackPkt (s.snapshot p.tenant pa) id p { lines := linesAt pa 320 }
    refine ⟨fun i h _ => ?_, fun a hout => ?_, ?_, ?_, hf.cores.trans (s.cores_snapshot _ _), fun k => ?_⟩
    · rw [hf.byte, State.byte_snapshot]
      exact State.byte_writeBytes_in _ s pa i h
    · rw [hf.byte, State.byte_snapshot]
      exact State.byte_writeBytes_out _ s pa a (by rwa [snapRecord_length])
    · rw [hf.snaps, State.tenant_snapshot, State.tenant_counted]
    · rw [hf.gap, State.tenant_snapshot, State.tenant_counted]
    · rw [hf.usage, State.tenant_snapshot, State.tenant_counted]
      exact s.usage_le_meter p.tenant k

end Sys2Proof.Machine
end

section
/-! SUPPORT. Evictions from a switch's buffer, resends and releases from the limiters (R190, R211, R259, R260): when each acts, and
on which packet. Settles O30. -/

namespace Sys2Proof.Machine

/-! ## The victim of an eviction (R259) -/

/-- The last entry that a filter keeps, with what stands before and after it. -/
theorem getLast?_filter_eq_some {α : Type} {p : α → Bool} {l : List α} {a : α} (h : (l.filter p).getLast? = some a) :
    ∃ as bs, l = as ++ a :: bs ∧ p a = true ∧ ∀ b ∈ bs, p b = false := by
  obtain ⟨ys, hys⟩ := List.getLast?_eq_some_iff.1 h
  obtain ⟨l1, l2, hl, -, h2⟩ := List.filter_eq_append_iff.1 hys
  obtain ⟨pre, bs, hl2, -, ha, hbs⟩ := List.filter_eq_cons_iff.1 h2
  refine ⟨l1 ++ pre, bs, by rw [hl, hl2, List.append_assoc], ha, fun b hb => ?_⟩
  simpa using List.filter_eq_nil_iff.1 hbs b hb

/-- A buffered packet of a class below a request's: its identity and its class. -/
def State.below (s : State) (cls i : Nat) : Option (Nat × Nat) :=
  ((s.flying i).filter (fun p => decide (p.cls < cls))).map (fun p => (i, p.cls))

theorem State.below_eq_some {s : State} {cls i : Nat} {a : Nat × Nat} :
    s.below cls i = some a ↔ ∃ p, s.flying i = some p ∧ p.cls < cls ∧ (i, p.cls) = a := by
  simp [State.below, Option.filter_eq_some_iff, and_assoc]

/-- What an eviction may take: no other such packet of the buffer is of a lower class. -/
def State.lowest (s : State) (cls : Nat) (a : Nat × Nat) : Bool := (s.crowd.filterMap (s.below cls)).all (fun b => decide (a.2 ≤ b.2))

theorem State.lowest_iff {s : State} {cls : Nat} {a : Nat × Nat} :
    s.lowest cls a = true ↔ ∀ j ∈ s.crowd, ∀ q, s.flying j = some q → q.cls < cls → a.2 ≤ q.cls := by
  simp only [State.lowest, List.all_eq_true, List.mem_filterMap, State.below_eq_some, decide_eq_true_eq]
  constructor
  · exact fun h j hj q hq hlt => h (j, q.cls) ⟨j, hj, q, hq, hlt, rfl⟩
  · rintro h b ⟨j, hj, q, hq, hlt, rfl⟩
    exact h j hj q hq hlt

/-- The victim is the last that an eviction may take. -/
theorem State.victim_eq (s : State) (cls : Nat) :
    s.victim cls = (((s.crowd.filterMap (s.below cls)).filter (s.lowest cls)).map Prod.fst).getLast? := rfl

/-- The victim divides the buffer: none before it is of a lower class, and each after it that is below the request is of a
higher one. -/
theorem State.victim_newest {s : State} {cls k : Nat} (h : s.victim cls = some k) : ∃ as bs v, s.crowd = as ++ k :: bs ∧
    s.flying k = some v ∧ v.cls < cls ∧ (∀ j ∈ as, ∀ q, s.flying j = some q → q.cls < cls → v.cls ≤ q.cls) ∧
    (∀ j ∈ bs, ∀ q, s.flying j = some q → q.cls < cls → v.cls < q.cls) := by
  rw [State.victim_eq, List.getLast?_map, Option.map_eq_some_iff] at h
  obtain ⟨a, hlast, rfl⟩ := h
  obtain ⟨before, after, hsplit, hlow, hafter⟩ := getLast?_filter_eq_some hlast
  obtain ⟨l1, l2, hcrowd, -, h2⟩ := List.filterMap_eq_append_iff.1 hsplit
  obtain ⟨skip, i, bs, hl2, -, ha, hbs⟩ := List.filterMap_eq_cons_iff.1 h2
  obtain ⟨v, hv, hlt, rfl⟩ := State.below_eq_some.1 ha
  have hparts : s.crowd = (l1 ++ skip) ++ i :: bs := by rw [hcrowd, hl2, List.append_assoc]
  have hmin : ∀ j ∈ s.crowd, ∀ q, s.flying j = some q → q.cls < cls → v.cls ≤ q.cls := State.lowest_iff.1 hlow
  refine ⟨l1 ++ skip, bs, v, hparts, hv, hlt, fun j hj => hmin j ?_, fun j hj q hq hqlt => ?_⟩
  · rw [hparts]; exact List.mem_append_left _ hj
  · have hnot : s.lowest cls (j, q.cls) = false :=
      hafter _ (hbs ▸ List.mem_filterMap.2 ⟨j, hj, State.below_eq_some.2 ⟨q, hq, hqlt, rfl⟩⟩)
    by_contra hle
    have hlow' : s.lowest cls (j, q.cls) = true :=
      State.lowest_iff.2 fun m hm r hr hrlt => (Nat.not_lt.1 hle).trans (hmin m hm r hr hrlt)
    rw [hlow'] at hnot
    cases hnot

/-- PACKET_EVICTION: the victim goes, and the request takes its place; any other packet stays. -/
theorem exec_packetEviction {s : State} {id k : Nat} {a v : Packet} (ha : s.flying id = some a) (hv : s.flying k = some v)
    (hcls : a.cls ≤ 3) (hout : id ∉ s.crowd) : exec (.packetEviction id k) s =
      .next (if s.victim a.cls = some k then { s with
        net := Map.ins s.net k { v with st := .evicted s.cycle, evicts := v.evicts + 1 }
        crowd := s.crowd.filter (fun i => i ≠ k) ++ [id] } else s) := by
  show execPacketEviction id k s = _
  unfold execPacketEviction
  simp only [ha, hv, hcls, hout]
  by_cases hk : s.victim a.cls = some k
  · simp only [hk]; rfl
  · simp [hk]

/-! ## Resends (R211, R259) -/

section
variable {s : State} {id : Nat} {p : Packet}

/-- An evicted packet is sent again from 64 cycles after its notice on, and a core counts it. -/
theorem exec_packetResend_evicted {n : Nat} (hp : Map.at? s.net id = some p) (hst : p.st = .evicted n) (hn : n + 64 ≤ s.cycle) :
    exec (.packetResend id) s = .next ((s.setPkt id { p with
      st := .flying, cls := if p.evicts % 3 = 0 then Min.min 3 (p.cls + 1) else p.cls }).noteResend p) := by
  show execPacketResend id s = _
  unfold execPacketResend
  simp only [hp, hst, hn, if_true]

/-- A refused packet is sent again from 64 cycles after its refusal on. -/
theorem exec_packetResend_refused {n : Nat} (hp : Map.at? s.net id = some p) (hst : p.st = .refused n) (hn : n + 64 ≤ s.cycle) :
    exec (.packetResend id) s = .next (s.setPkt id { p with st := .flying }) := by
  show execPacketResend id s = _
  unfold execPacketResend
  simp only [hp, hst, hn, if_true]

/-- Counting a resend changes its core's counter alone. -/
theorem State.noteResend_eq (s : State) (p : Packet) : (s.noteResend p).net = s.net ∧ (s.noteResend p).mem = s.mem ∧
    (s.noteResend p).sent = s.sent ∧ ∀ c, p.src = .core c → (s.noteResend p).core c = (s.core c).count evRETX 1 := by
  unfold State.noteResend
  split
  · rename_i c hc
    refine ⟨rfl, rfl, rfl, fun d hd => ?_⟩
    obtain rfl := Leaf.core.inj (hc.symm.trans hd)
    exact State.core_modCore_self s c (fun q => q.count evRETX 1)
  · rename_i hno
    exact ⟨rfl, rfl, rfl, fun c hc => absurd hc (hno c)⟩

/-- A packet that has left its core is sent again once it has waited 65,536 cycles for its acknowledgement. -/
theorem exec_ackTimeoutResend (hp : Map.at? s.sent id = some p) (hlate : p.sentAt + 65536 ≤ s.cycle)
    (hleft : ∀ q, Map.at? s.net id = some q → q.st ≠ .held) : exec (.ackTimeoutResend id) s = .next { s with
      sent := Map.ins s.sent id { p with sentAt := s.cycle, st := .flying }
      net := Map.ins s.net s.nextId { p with sentAt := s.cycle, st := .flying }, nextId := s.nextId + 1 } := by
  have hnot : (Map.at? s.net id).any (fun q => decide (q.st = PSt.held)) = false := by
    simpa [Option.any_eq_false] using hleft
  show execAckTimeoutResend id s = _
  unfold execAckTimeoutResend
  simp only [hp, hlate, hnot]
  rfl

/-! ## Releases from the limiters (R190, R260) -/

/-- The packet as it leaves its core. -/
def Packet.leaves (p : Packet) (now : Nat) : Packet := { p with st := .flying, sentAt := now }

/-- The state in which a held packet of core c has left it. -/
def State.released (s : State) (id c : Nat) (p : Packet) : State :=
  let u := (s.setPkt id (p.leaves s.cycle)).pay c p
  { u with sent := Map.modify u.sent id (fun r => { r with sentAt := s.cycle }) }

/-- RATE_LIMIT_RELEASE: the oldest held packet of its engine leaves where there is room for it. -/
theorem exec_rateLimitRelease {c : Nat} (hp : Map.at? s.net id = some p) (hst : p.st = .held) (hsrc : p.src = .core c)
    (hfirst : ∀ q ∈ s.net, q.1 < id → q.2.st = .held → q.2.src = p.src → q.2.tenant = p.tenant → q.2.kind.engine ≠ p.kind.engine) :
    exec (.rateLimitRelease id) s = .next (if s.shortOf c p = true then s else s.released id c p) := by
  have hnone : s.net.any (fun q => decide (q.1 < id) && decide (q.2.st = PSt.held) && decide (q.2.src = p.src)
      && decide (q.2.tenant = p.tenant) && decide (q.2.kind.engine = p.kind.engine)) = false := by
    simp only [List.any_eq_false, Bool.and_eq_true, decide_eq_true_eq]
    rintro q hq ⟨⟨⟨⟨hlt, hheld⟩, hfrom⟩, hten⟩, heng⟩
    exact hfirst q hq hlt hheld hfrom hten heng
  show execRateLimitRelease id s = _
  unfold execRateLimitRelease
  simp only [hp]
  split
  · rename_i d _ hd
    obtain rfl := Leaf.core.inj (hsrc.symm.trans hd)
    rw [hnone]
    cases s.shortOf c p with
    | false => rfl
    | true => rfl
  · rename_i hno
    exact absurd hsrc (hno c hst)

/-- A packet is short of room where its core has its outstanding requests, or where its tenant's bucket is overdrawn and it is to
pay (R190, R260). -/
theorem State.shortOf_iff {c : Nat} : s.shortOf c p = true ↔ s.requestFull c p.kind = true ∨ (p.twin = false ∧
    ((s.tenant p.tenant).bucketOf (dieOf c)).1 ≠ 0 ∧ balanceAt ((s.tenant p.tenant).bucketOf (dieOf c)) s.cycle < 0) := by
  simp [State.shortOf, and_assoc]

/-- A copy, and a packet of a tenant without a limit, cost nothing. -/
theorem State.pay_free {c : Nat} (h : p.twin = true ∨ ((s.tenant p.tenant).bucketOf (dieOf c)).1 = 0) : s.pay c p = s := by
  have hfree : (p.twin || decide (((s.tenant p.tenant).bucketOf (dieOf c)).1 = 0)) = true := by simpa using h
  exact if_pos hfree

/-- Any other is paid for from its tenant's bucket of the die. -/
theorem State.bucketOf_pay {c : Nat} (ht : p.twin = false) (hb : ((s.tenant p.tenant).bucketOf (dieOf c)).1 ≠ 0) :
    ((s.pay c p).tenant p.tenant).bucketOf (dieOf c) = debit ((s.tenant p.tenant).bucketOf (dieOf c)) s.cycle p.kind.bytes := by
  have hpays : (p.twin || decide (((s.tenant p.tenant).bucketOf (dieOf c)).1 = 0)) = false := by simp [ht, hb]
  unfold State.pay
  simp only [hpays, Bool.false_eq_true, if_false, State.tenant_modTenant_self]
  exact Map.get_ins_self _ _ _ _

/-- What a release changes beside its tenant's bucket. -/
theorem State.released_frame (s : State) (id c : Nat) (p : Packet) : (s.released id c p).net = Map.ins s.net id (p.leaves s.cycle) ∧
    (s.released id c p).mem = s.mem ∧ (s.released id c p).cores = s.cores ∧
    (s.released id c p).sent = Map.modify s.sent id (fun r => { r with sentAt := s.cycle }) := by
  obtain ⟨m, hm⟩ := State.pay_eq (s.setPkt id (p.leaves s.cycle)) c p
  unfold State.released
  rw [hm]
  exact ⟨rfl, rfl, rfl, rfl⟩

end

/-- Settles O30: evictions and their victims, resends after an eviction, a refusal and a time-out, and releases. -/
theorem resendSteps : Obligations.ResendSteps := by
  intro s id p
  refine ⟨fun a v k ha hv hcls hout => ⟨fun hk => ?_, fun hk => ?_⟩, fun cls k => State.victim_newest, fun n hp hst hn => ?_,
    fun n => exec_packetResend_refused, exec_ackTimeoutResend, fun c hp hst hsrc hfirst => ⟨fun hshort => ?_, fun hroom hpaid => ?_⟩⟩
  · rw [exec_packetEviction ha hv hcls hout, if_pos hk]
  · rw [exec_packetEviction ha hv hcls hout, if_neg hk]
  · obtain ⟨hnet, hmem, hsent, hcore⟩ := State.noteResend_eq (s.setPkt id { p with
      st := .flying, cls := if p.evicts % 3 = 0 then Min.min 3 (p.cls + 1) else p.cls }) p
    exact ⟨_, exec_packetResend_evicted hp hst hn, hnet, hcore, hmem, hsent⟩
  · rw [exec_rateLimitRelease hp hst hsrc hfirst, if_pos (State.shortOf_iff.2 hshort)]
  · have hnot : ¬ s.shortOf c p = true := by
      rw [State.shortOf_iff]
      rintro (hfull | ⟨htwin, hlimit, hover⟩)
      · rw [hroom] at hfull; cases hfull
      · rcases hpaid with h | h | h
        · rw [htwin] at h; cases h
        · exact hlimit h
        · exact absurd hover (not_lt.2 h)
    obtain ⟨hnet, hmem, hcores, hsent⟩ := State.released_frame s id c p
    refine ⟨_, (exec_rateLimitRelease hp hst hsrc hfirst).trans (by rw [if_neg hnot]), hnet, hmem, hcores, fun r hr => ?_, fun ht hb => ?_,
      fun hfree => ?_⟩
    · rw [hsent, Map.at?_modify, if_pos rfl, hr]; rfl
    · exact State.bucketOf_pay (s := s.setPkt id (p.leaves s.cycle)) ht hb
    · have hpay := State.pay_free (s := s.setPkt id (p.leaves s.cycle)) (c := c) hfree
      rw [State.released, hpay]
      rfl

end Sys2Proof.Machine
end

section
/-! SUPPORT. Handles and tickets, rings, barriers and flag words (R198, R199, R206, R212, R219-R232): what each word changes as it
passes capture, and what its start finds. Settles O15. -/

namespace Sys2Proof.Machine

/-! ## Sequencers and the words that wait (R219, R220) -/

/-- Which sequencer is free does not depend on the context that the core runs (R219). -/
@[simp] theorem State.freeSeqr_setCtx (t : State) (c : Nat) (x z : Ctx) : (t.setCtx c z).freeSeqr c x = t.freeSeqr c x := by
  unfold State.freeSeqr State.seqrFree
  rw [State.core_setCtx_self]
  rfl

/-- Taking a sequencer changes the handles and the sequencers alone. -/
theorem Ctx.takeSeqr_eq (y : Ctx) (i : Option Nat) (d : Nat) (pre : List Pre) (tix : List Nat) :
    ∃ hn sq, y.takeSeqr i d pre tix = { y with hnd := hn, seqrs := sq } := by
  cases i with
  | none => exact ⟨y.hnd, y.seqrs, rfl⟩
  | some i => exact ⟨_, _, rfl⟩

/-- Marking sequencers for the host's copies leaves the words waiting apart (R219). -/
theorem Ctx.markSys_with_qs (ps : List Pre) (y : Ctx) (q : List QWord) :
    Ctx.markSys { y with qs := q } ps = { y.markSys ps with qs := q } := by
  unfold Ctx.markSys
  induction ps.filter (fun p => decide (5 ≤ p.scope)) generalizing y with
  | nil => rfl
  | cons p ps ih => exact ih (y.setSeqr p.seqr _)

/-- What is read of a context beside the words waiting in it. -/
def Apart {α : Type} (f : Ctx → α) : Prop := ∀ y q, f { y with qs := q } = f y

/-- A choice between two changes, by what is read beside the words waiting. -/
theorem Blind.cond {p : Ctx → Bool} {f g : Ctx → Ctx} (hp : Apart p) (hf : Blind f) (hg : Blind g) :
    Blind (fun x => if p x then f x else g x) := by
  have either : ∀ {α : Type} (part : Ctx → α), (∀ y, part (f y) = part y) → (∀ y, part (g y) = part y) →
      ∀ y, part (if p y then f y else g y) = part y := by
    intro α part h1 h2 y
    cases hy : p y with
    | true => exact h1 y
    | false => exact h2 y
  refine ⟨either _ hf.qs hg.qs, either _ hf.fly hg.fly, either _ hf.me hg.me, either _ hf.held hg.held, fun y q => ?_⟩
  simp only [hp y q]
  cases p y with
  | true => exact hf.apart y q
  | false => exact hg.apart y q

/-- One sequencer changes. -/
theorem blind_setSeqr {i : Ctx → Nat} {r : Ctx → Seqr} (hi : Apart i) (hr : Apart r) : Blind (fun x => x.setSeqr (i x) (r x)) :=
  ⟨fun _ => rfl, fun _ => rfl, fun _ => rfl, fun _ => rfl, fun y q => by rw [hi y q, hr y q]; rfl⟩

/-- A handle takes a sequencer. -/
theorem blind_takeSeqr (t : State) (c d : Nat) {pre : Ctx → List Pre} {tix : Ctx → List Nat} (hpre : Apart pre) (htix : Apart tix) :
    Blind (fun x => x.takeSeqr (t.freeSeqr c x) d (pre x) (tix x)) := by
  have hfree : Apart (t.freeSeqr c) := fun _ _ => rfl
  constructor
  case apart => intro y q; rw [hfree y q, hpre y q, htix y q, Ctx.takeSeqr_with_qs]
  all_goals
    intro y
    obtain ⟨hn, sq, he⟩ := y.takeSeqr_eq (t.freeSeqr c y) d (pre y) (tix y)
    rw [he]
  case me => rfl

/-- Sequencers are marked after a change. -/
theorem Blind.markSys {g : Ctx → Ctx} {ps : Ctx → List Pre} (hg : Blind g) (hps : Apart ps) : Blind (fun x => (g x).markSys (ps x)) := by
  constructor
  case apart => intro y q; rw [hps y q, hg.apart, Ctx.markSys_with_qs]
  all_goals
    intro y
    obtain ⟨sq, he⟩ := Ctx.markSys_eq (ps y) (g y)
    rw [he]
  case qs => exact hg.qs y
  case fly => exact hg.fly y
  case me => exact hg.me y
  case held => exact hg.held y

/-- A join changes the sequencer of its first handle, or takes one for it (R220). -/
theorem blind_join (t : State) (c d a b scope : Nat) : Blind (fun x => x.join (t.freeSeqr c x) d a b scope) :=
  Blind.cond (p := fun x => x.live d) (fun _ _ => rfl)
    ((blind_setSeqr (fun _ _ => rfl) (fun _ _ => rfl)).markSys (fun _ _ => rfl))
    ((blind_takeSeqr t c d (fun _ _ => rfl) (fun _ _ => rfl)).markSys (fun _ _ => rfl))

/-- The handle of a received ticket waits for it (R222). -/
def Ctx.awaits (t : State) (c d n : Nat) (x : Ctx) : Ctx :=
  if x.live d then x.setSeqr (x.seqOf d) { x.seqr (x.seqOf d) with tix := (x.seqr (x.seqOf d)).tix ++ [n] }
  else x.takeSeqr (t.freeSeqr c x) d [] [n]

/-- Its wait leaves the words of its context apart. -/
theorem blind_awaits (t : State) (c d n : Nat) : Blind (Ctx.awaits t c d n) :=
  Blind.cond (p := fun x => x.live d) (fun _ _ => rfl) (blind_setSeqr (fun _ _ => rfl) (fun _ _ => rfl))
    (blind_takeSeqr t c d (fun _ _ => rfl) (fun _ _ => rfl))

/-- A ticket is listed with its context. -/
theorem blind_ticket (n : Nat) (k : Ticket) : Blind (fun x => { x with tickets := Map.ins x.tickets n k }) :=
  ⟨fun _ => rfl, fun _ => rfl, fun _ => rfl, fun _ => rfl, fun _ _ => rfl⟩

/-- Nothing changes. -/
theorem blind_id : Blind (fun x => x) :=
  ⟨fun _ => rfl, fun _ => rfl, fun _ => rfl, fun _ => rfl, fun _ _ => rfl⟩

/-- A handle is let go. -/
theorem blind_release (h : Nat) : Blind (fun x => { x with hnd := Map.del x.hnd h }) :=
  ⟨fun _ => rfl, fun _ => rfl, fun _ => rfl, fun _ => rfl, fun _ _ => rfl⟩

/-- A capped scope sets its sticky bit (R213). -/
theorem blind_capNote (b : Bool) : Blind (fun x => if b then x.stick stSCOPECAP else x) := by
  cases b with
  | true => exact ⟨fun _ => rfl, fun _ => rfl, fun _ => rfl, fun _ => rfl, fun _ _ => rfl⟩
  | false => exact ⟨fun _ => rfl, fun _ => rfl, fun _ => rfl, fun _ => rfl, fun _ _ => rfl⟩

/-! ## What a handle word does as it passes capture -/

/-- Counting a capped scope leaves the machine beside its core (R213). -/
theorem capNote_beside (t : State) (c : Nat) (b : Bool) : Reserved c t (if b then t.count c evSCOPECAP 1 else t) := by
  cases b with
  | true =>
    refine ⟨rfl, rfl, ⟨rfl, rfl⟩, ?_⟩
    show ((t.modCore c (fun q => q.count evSCOPECAP 1)).core c).spilling = _
    rw [State.core_modCore_self]
    rfl
  | false => exact Reserved.refl c t

section
variable {act : State → Nat → QWord → State} {t : State} {c : Nat} {v : QWord} {y : Ctx} {g : Ctx → Ctx} (ht : t.setCtx c y = t)
  (hg : Blind g) (ho : v.seqr = none)
include ht hg ho

/-- A word that changes its context by what the machine beside it shows leaves its queue to it. -/
theorem acts_seen (ha : ∀ z, act (t.setCtx c z) c v = t.setCtx c (g z)) : ∃ z, Acts act t c v y z :=
  ⟨g y, Acts.build ht (fun _ => ha _) (hg.apart y [v]) (hg.qs y) (hg.fly y) (hg.me y) (hg.held y) (.inl ho) rfl rfl ⟨rfl, rfl⟩ id⟩

/-- So does one that notes a capped scope first (R213). -/
theorem acts_capped {k : Nat}
    (ha : ∀ q, act (t.setCtx c { y with qs := q }) c v = (noteCap (t.setCtx c { y with qs := q }) c k).modCtx c g) :
    ∃ z, Acts act t c v y z := by
  have hb := (blind_capNote (capped t y k)).comp hg
  obtain ⟨hnet, hcmds, hopens, hspill⟩ := capNote_beside t c (capped t y k)
  refine ⟨_, Acts.build (g := fun z => g (if capped t y k then z.stick stSCOPECAP else z)) ht (fun q => (ha q).trans ?_) (hb.apart y [v])
    (hb.qs y) (hb.fly y) (hb.me y) (hb.held y) (.inl ho) hnet hcmds hopens hspill.trans⟩
  rw [noteCap_setCtx, State.modCtx_setCtx]
  rfl

end

section
variable {t : State} {c : Nat} {v : QWord} {y : Ctx} (ht : t.setCtx c y = t) (ho : v.seqr = none)
include ht ho

/-- A handle takes the free sequencer, with predecessors and tickets of its context (R219, R220). -/
theorem acts_takeSeqr (d : Nat) {pre : Ctx → List Pre} {tix : Ctx → List Nat} (hpre : Apart pre) (htix : Apart tix) : ∃ z,
    Acts (fun u c _ => u.modCtx c (fun x => x.takeSeqr (u.freeSeqr c x) d (pre x) (tix x))) t c v y z :=
  acts_seen ht (blind_takeSeqr t c d hpre htix) ho (fun z => by simp only [State.modCtx_setCtx, State.freeSeqr_setCtx])

/-- What `hjoin` does as it passes. -/
def joinAct (d a b k : Nat) : State → Nat → QWord → State := fun u c _ =>
  match u.ctx c with
  | none => u
  | some z => (noteCap u c k).modCtx c (fun y => y.join (u.freeSeqr c y) d a b (capScope (u.tenant z.tenant).scap k))

/-- A join notes a capped scope, then joins (R213, R220). -/
theorem acts_join (d a b k : Nat) : ∃ z, Acts (joinAct d a b k) t c v y z :=
  acts_capped ht (blind_join t c d a b (capScope (t.tenant y.tenant).scap k)) ho (fun q => by
    unfold joinAct
    simp only [State.ctx_setCtx_self, State.freeSeqr_setCtx]
    rfl)

/-- A received ticket is listed, and its handle waits for it (R222). -/
theorem acts_receive (d : Nat) : ∃ z, Acts (fun u c v => u.modCtx c (fun x =>
    Ctx.awaits u c d v.seq { x with tickets := Map.ins x.tickets v.seq (ticketOf (op0 v)) })) t c v y z :=
  acts_seen ht ((blind_ticket v.seq (ticketOf (op0 v))).comp (blind_awaits t c d v.seq)) ho (fun z => by
    simp only [State.modCtx_setCtx, Ctx.awaits, State.freeSeqr_setCtx])

end

/-! ## What the starts of handle words find -/

section
variable {u : State} {c : Nat} {y : Ctx} {v : QWord} (hy : u.ctx c = some y)
include hy

/-- A drain of what has performed, with no status to raise, clears the statuses and finishes (R221). -/
theorem runHdrain_done (hall : v.covers.all (fun p => u.preOk y p) = true)
    (hsound : worstStatus y ((v.covers.map (fun p => p.seqr)).dedup) = none) :
    runHdrain u c v = .done (u.setCtx c (clearStatus y ((v.covers.map (fun p => p.seqr)).dedup))) := by
  unfold runHdrain
  simp only [hy, hall, if_true, hsound]

/-- A ticket goes to its channel, to the mailbox, which has room, or to its core (R222, R293). -/
theorem runHpass_done {p : BitVec 6} (hroom : p.toNat = 55 → oboxRoom u y = true) : runHpass p u c v = .done
    (if 48 ≤ p.toNat && p.toNat ≤ 53 then sendChannel u c y (p.toNat - 48) v.seq v.cap true
      else if p.toNat = 55 then u.oboxPush y.tenant v.cap
      else u.send (loosePkt y c (if epDev (op0 v) = 0x3FF then .core (epCore (op0 v)) else .remote (epDev (op0 v)) (epCore (op0 v)))
        (.ticket v.cap))) := by
  unfold runHpass
  simp only [hy]
  split
  · rfl
  · split
    · rename_i h55; rw [if_pos (hroom h55)]
    · split
      · rfl
      · rfl

/-- The receiver asks the ticket's core for its confirmation (R212). -/
theorem runHrecv_done : runHrecv u c v = .done (u.send (loosePkt y c
    (if (ticketOf (op0 v)).device = 0x3FF then .core (ticketOf (op0 v)).core else .remote (ticketOf (op0 v)).device (ticketOf (op0 v)).core)
    (.confirmReq y.uid c (ticketOf (op0 v)).seqr (ticketOf (op0 v)).count v.seq))) := by
  unfold runHrecv
  simp only [hy]

end

/-! ## The table of handle words -/

/-- Each row's word changes its context's handles and sequencers as it passes capture, and finishes as it starts. -/
theorem handleWords_complete : WordsComplete handleWords := by
  intro s u x y i r vals pops w v hr h hp hv hu hy hok
  obtain ⟨-, hseqr, -⟩ := Passes.word h hp hv
  cases i
  case hnew d =>
    cases hr
    exact word_plain (run := runHnew) (y := y) h hp hv hu
      (fun y0 hy0 => acts_takeSeqr (reserving_same h.resident hy0) (hseqr rfl) d.toNat (fun _ _ => rfl) (fun _ _ => rfl)) rfl rfl rfl
  case hfork d a =>
    cases hr
    exact word_plain (run := runHfork) (y := y) h hp hv hu
      (fun y0 hy0 => acts_takeSeqr (reserving_same h.resident hy0) (hseqr rfl) d.toNat (fun _ _ => rfl) (fun _ _ => rfl)) rfl rfl rfl
  case hjoin d a b k =>
    cases hr
    exact word_plain (run := runHjoin) (y := y) h hp hv hu
      (fun y0 hy0 => acts_join (reserving_same h.resident hy0) (hseqr rfl) d.toNat a.toNat b.toNat k.toNat) rfl rfl rfl
  case hfree a =>
    cases hr
    exact word_ctx (run := runHfree) (y := y) h hp hv hu rfl (blind_release a.toNat) rfl rfl rfl
  case hdrain a k =>
    cases hr
    obtain ⟨hall, hsound⟩ := hok
    refine word_plain (run := runHdrain) h hp hv hu (fun y0 hy0 => ?_) rfl rfl (runHdrain_done hy hall hsound)
    exact acts_capped (k := k.toNat) (reserving_same h.resident hy0) (Blind.markSys blind_id (fun _ _ => rfl)) (hseqr rfl) (fun _ => rfl)
  case hpass a p =>
    cases hr
    exact word_ctx (run := runHpass p) (g := fun _ => Ctx.owes a.toNat) h hp hv hu rfl (Ctx.owes_blind a.toNat) rfl rfl (runHpass_done hy hok)
  case hrecv d p =>
    cases hr
    exact word_plain (run := runHrecv) h hp hv hu
      (fun y0 hy0 => acts_receive (reserving_same h.resident hy0) (hseqr rfl) d.toNat) rfl rfl (runHrecv_done hy)
  all_goals cases hr

/-! ## Rings (R223-R227) -/

/-- A ring changes beside the words waiting and started. -/
theorem blind_modRing (k : Nat) (f : Ring → Ring) : Blind (fun x => x.modRing k f) :=
  ⟨fun _ => rfl, fun _ => rfl, fun _ => rfl, fun _ => rfl, fun _ _ => rfl⟩

section
variable {u : State} {c : Nat} {y : Ctx} {v : QWord} {g : BitVec 4} (hy : u.ctx c = some y)
include hy

/-- A ring word that finds what it needs changes its ring, and gives its element (R224). -/
theorem ringRun_done {f : Ring → Option (Ring × List Dword)} {p : Ring × List Dword} (hf : f (y.ring g.toNat) = some p) :
    ringRun g f u c v = .done (u.setCtx c ((y.modRing g.toNat (fun _ => p.1)).produceAll v.q6 p.2)) := by
  unfold ringRun
  simp only [hy, hf]

/-- A ring without a landing slot starts anew (R225). -/
theorem runRingInit_done (hidle : (y.ring g.toNat).countOf .landing = 0) :
    runRingInit g u c v = .done (u.setCtx c (y.modRing g.toNat (fun r => { r with
      up := true, refusing := false, base := Rec512.f v.desc 0 0 20, slots := Rec512.f v.desc 1 32 9
      slotbytes := Rec512.f v.desc 1 0 32, state := [], ptr := 0, fillOrder := [], takeOrder := [], claimOrder := [] }))) := by
  unfold runRingInit
  simp only [hy, hidle, lt_irrefl, if_false]

end

/-- A ring word in use books its claim or take as it passes capture, and finishes where its ring has what it needs. -/
theorem word_ring {r : WordSpec} {i : Instr} {s u : State} {x y : Ctx} {vals : List Dword} {pops : List Nat} {w v : QWord} {g : BitVec 4}
    {q6 : Nat} {mem : Bool} {okR : Ring → Bool} {book : Ring → Ring} {f : Ring → Option (Ring × List Dword)}
    (hr : ringRow g q6 mem okR book f = some r) (h : Idle s x) (hp : Passes s x i r.sp r.chk vals pops w)
    (hv : v = (x.enrol r.sp (s.tenant x.tenant).scap w).2)
    (hu : u = touchUnits (passing r.sp r.act (s.entered x r.sp w pops) s.cur v) s.cur x.me w.units) (hy : u.ctx s.cur = some y)
    (hok : r.ok u s.cur y v) (hst : i.still = true) : ringWord i g q6 mem okR book (ringRun g f) s = .next (r.out u s.cur y v) := by
  cases hr
  obtain ⟨p, hf⟩ := Option.isSome_iff_exists.1 hok
  refine word_still h hp hv hu (fun y0 hy0 => ⟨_, Acts.modCtx (g := fun _ z => z.modRing g.toNat book) hy0 (blind_modRing _ _) (.inr ⟨rfl, rfl⟩)⟩)
    hst (fun _ hsig => ?_)
  rw [ringRun_done hy hf, afterRun_finished hsig]
  simp only [hf]

/-- Each row's word changes its ring. -/
theorem ringWords_complete : WordsComplete ringWords := by
  intro s u x y i r vals pops w v hr h hp hv hu hy hok
  cases i
  case ringInit g a =>
    cases hr
    exact word_mem (run := runRingInit g) h hp hv hu
      (fun y0 hy0 => acts_record (g := fun _ z => z.modRing g.toNat (fun r => { r with init := true, nClaim := 0, nTake := 0 }))
        (blind_modRing _ _) hy0 (.inr ⟨rfl, rfl⟩)) rfl rfl (runRingInit_done hy hok) rfl
  case ringWfree g => exact word_ring hr h hp hv hu hy hok rfl
  case ringPub g => exact word_ring hr h hp hv hu hy hok rfl
  case ringWfill g => exact word_ring hr h hp hv hu hy hok rfl
  case ringRel g => exact word_ring hr h hp hv hu hy hok rfl
  case ringStat g => exact word_ring hr h hp hv hu hy hok rfl
  all_goals cases hr

/-! ## Barriers and flag words (R228-R232) -/

section
variable {u : State} {c : Nat} {y : Ctx} {v : QWord} (hy : u.ctx c = some y)
include hy

/-- An arrival at a barrier whose last phase has ended is the core's next (R228). -/
theorem runBarArr_done {t : BitVec 3}
    (hended : Map.get 0 ((u.tenant y.tenant).bar t.toNat).arr c ≤ ((u.tenant y.tenant).bar t.toNat).done) :
    runBarArr t u c v = .done (u.modTenant y.tenant (fun m => { m with
      bars := Map.ins m.bars t.toNat (((u.tenant y.tenant).bar t.toNat).arrive c u.cycle) })) := by
  unfold runBarArr
  simp only [hy, not_lt.2 hended, if_false]

/-- A wait for the phase of the core's last arrival ends with that phase (R228). -/
theorem runBarWait_done {t : BitVec 3}
    (hended : Map.get 0 ((u.tenant y.tenant).bar t.toNat).arr c ≤ ((u.tenant y.tenant).bar t.toNat).done) :
    runBarWait t u c v = .done u := by
  unfold runBarWait
  simp only [hy, not_lt.2 hended, if_false]

/-- An addition goes to its flag word's core (R230). -/
theorem runFlagAdd_going : runFlagAdd u c v = .going (sendCmd u c y v 0x20
    (.flagAdd (bits (op0 v).toNat 32 7) ((op1 v).toNat % 2 ^ 32)) (leafOf (epDev (op0 v)) (epCore (op0 v)))) := by
  unfold runFlagAdd
  rw [hy]

/-- A store goes to every destination, and finishes where there is none (R174, R231). -/
theorem runFlagSet_eq : runFlagSet u c v =
    let leaves := destLeaves (u.tenant y.tenant) (op0 v)
    if leaves.isEmpty then .done u
    else .going (u.issues c y v 0x21 0 0 leaves.length (rangeFrom u.nextId leaves.length) (fun cmd =>
      (numbered u.nextId leaves).map (fun p =>
        { pkt y c cmd p.1 [p.2] (.flagSet ((op1 v).toNat % 128) (v.ops.getD 2 0)) with twin := decide (p.2 ≠ u.nextId) }))) := by
  unfold runFlagSet
  rw [hy]
  rfl

end

/-- A wait is over where its flag holds, or held after an earlier change of the word (R232). -/
theorem runFlagWait_eq (u : State) (c : Nat) (v : QWord) : runFlagWait u c v =
    if v.cap = 1 ∨ flagHolds ((u.core c).flag ((op0 v).toNat % 128)) (op1 v) = true then .done u else .hold u := by
  unfold runFlagWait
  simp only [Bool.or_eq_true, decide_eq_true_eq]

/-- Each row's word reads or changes its barrier, sends its packets, or tests its flag. -/
theorem syncWords_complete : WordsComplete syncWords := by
  intro s u x y i r vals pops w v hr h hp hv hu hy hok
  cases i
  case barArr t => cases hr; exact word_plain (run := runBarArr t) h hp hv hu (acts_none h) rfl rfl (runBarArr_done hy hok)
  case barWait t => cases hr; exact word_plain (run := runBarWait t) h hp hv hu (acts_none h) rfl rfl (runBarWait_done hy hok)
  case flagAdd a b =>
    cases hr
    exact word_still (run := runFlagAdd) h hp hv hu (acts_none h) rfl (fun _ _ => by rw [runFlagAdd_going hy]; rfl)
  case flagSet a b e =>
    cases hr
    refine word_still (run := runFlagSet) h hp hv hu (acts_none h) rfl (fun _ hsig => ?_)
    rw [runFlagSet_eq hy]
    dsimp only
    split
    · exact afterRun_finished hsig
    · rfl
  case flagWait a b =>
    cases hr
    refine word_still (run := runFlagWait) h hp hv hu (acts_none h) rfl (fun _ hsig => ?_)
    rw [runFlagWait_eq]
    dsimp only
    split
    · exact afterRun_finished hsig
    · rfl
  all_goals cases hr

end Sys2Proof.Machine

namespace Sys2Proof

/-- Settles O15: every word of the three tables completes. -/
theorem syncWords : Obligations.SyncWords :=
  ⟨Machine.handleWords_complete, Machine.ringWords_complete, Machine.syncWords_complete⟩

end Sys2Proof
end

section
/-! SUPPORT. Duplicates (R211): what a packet already applied is answered, and what the answer leaves. Settles O27. -/

namespace Sys2Proof.Machine

/-- A packet already applied is answered with its recorded reply, whatever an arrival would do (R211). -/
theorem onPacket_of_applied {s : State} {id : Nat} {p : Packet} (hfly : s.flying id = some p) (hkept : p.kind.kept p.cls = true)
    (hdone : (Map.at? s.applied p.seq).isSome = true) (f : Packet → State) : onPacket id s f = .next (s.answerDup id p) := by
  simp [onPacket, hfly, hkept, hdone]

theorem PKind.three_lt_replyClass (k : PKind) : 3 < k.replyClass := by
  cases k <;> simp [PKind.replyClass]

/-- A packet that no limiter concerns moves no bucket and no record of the window. -/
theorem State.send_kept (s : State) {q : Packet} (hcls : 3 < q.cls) : (s.send q).tenants = s.tenants ∧ (s.send q).applied = s.applied :=
  (State.send_free s q (.inl hcls)).2.2.2

theorem State.ackRemote_kept (s : State) (p : Packet) : (s.ackRemote p).tenants = s.tenants ∧ (s.ackRemote p).applied = s.applied := by
  unfold State.ackRemote
  split
  · exact State.send_kept s (Nat.lt_succ_self 3)
  · exact ⟨rfl, rfl⟩

section
variable (s : State) (id : Nat) (p : Packet)

/-- Nor does the second answer. -/
theorem State.answerDup_kept : (s.answerDup id p).tenants = s.tenants ∧ (s.answerDup id p).applied = s.applied := by
  unfold State.answerDup
  dsimp only
  split
  next r _ =>
    split
    · exact State.ackRemote_kept (s.unsend id) p
    · exact State.send_kept (s.unsend id) r.three_lt_replyClass
  next => exact ⟨rfl, rfl⟩

/-- The recorded reply to a command's packet is in the fabric again. -/
theorem State.answerDup_sends {r : PKind} (hr : s.replyFor p = some r) (hcmd : p.cmd ≠ 0) :
    ∃ n q, Map.at? (s.answerDup id p).net n = some q ∧ q.kind = r ∧ q.src = p.dst ∧ q.dst = p.src ∧ q.cmd = p.cmd := by
  unfold State.answerDup
  simp only [hr, hcmd, if_false]
  rw [(State.send_free (s.unsend id) _ (.inl r.three_lt_replyClass)).1]
  exact ⟨_, _, Map.at?_ins_self _ _ _, rfl, rfl, rfl, rfl⟩
end

end Sys2Proof.Machine

namespace Sys2Proof

/-- Settles O27: every such step is an arrival, and one of a packet already applied is its second answer. -/
theorem duplicatesAnswered : Obligations.DuplicatesAnswered := by
  unfold Obligations.DuplicatesAnswered
  intro s id p i hfly hkept hdone hi
  have harrival : ∃ f, Machine.exec i s = Machine.onPacket id s f := by
    simp only [List.mem_cons, List.not_mem_nil, or_false] at hi
    rcases hi with rfl | rfl | rfl | rfl | rfl | rfl | rfl | rfl | rfl | rfl | rfl | rfl | rfl | rfl | rfl | rfl <;> exact ⟨_, rfl⟩
  obtain ⟨f, hf⟩ := harrival
  have hfab := Machine.Fabric.answerDup s id p
  obtain ⟨htenants, happlied⟩ := Machine.State.answerDup_kept s id p
  exact ⟨_, hf.trans (Machine.onPacket_of_applied hfly hkept hdone f), hfab.mem, htenants, hfab.cores, hfab.groups, hfab.sac, happlied,
    fun r hr hcmd => Machine.State.answerDup_sends s id p hr hcmd⟩

end Sys2Proof
end

section
/-! SUPPORT. Channels, mailboxes and tickets as their packets arrive (R211, R212, R222, R234, R235, R266, R293). Settles O34. -/

namespace Sys2Proof.Machine

/-! ## Contexts that packets find -/

section
variable {s : State} {c : Nat}

theorem State.ctxFor_of_resident {y : Ctx} {t : Nat} (hy : s.ctx c = some y) (ht : y.tenant = t) : s.ctxFor c t = some y := by
  unfold State.ctxFor
  rw [show (s.core c).res = some y from hy, Option.filter_some, if_pos (decide_eq_true ht)]

/-- A change of a context of another core leaves the resident one. -/
theorem State.ctx_modCtxOf_ne {k : Nat} (h : k ≠ c) (u : Nat) (f : Ctx → Ctx) : (s.modCtxOf k u f).ctx c = s.ctx c := by
  unfold State.modCtxOf State.ctx
  rw [State.core_modCore_ne _ _ h]

theorem State.ctx_cross (t d n : Nat) : (s.cross t d n).ctx c = s.ctx c := by
  unfold State.cross
  dsimp only
  split <;> rfl
end

@[simp] theorem Ctx.seqr_setSeqr_self (x : Ctx) (q : Nat) (v : Seqr) : (x.setSeqr q v).seqr q = v := Map.get_ins_self _ _ _ _

/-! ## Packets taken from the fabric -/

/-- A packet applied that needs no answer is gone. -/
theorem State.consume_gone (s : State) (id : Nat) (p : Packet) : Map.at? (s.consume id p).net id = none := by
  unfold State.consume State.noteApplied
  dsimp only
  split <;> exact Map.at?_del_self _ _

/-- What another device sent is acknowledged to it (R211). -/
theorem State.ackRemote_sends {p : Packet} {d k : Nat} (hsrc : p.src = .remote d k) (s : State) :
    ∃ n q, Map.at? (s.ackRemote p).net n = some q ∧ q.kind = .ack p.seq [] {} ∧ q.dst = p.src := by
  unfold State.ackRemote
  simp only [hsrc]
  rw [(State.send_free s _ (.inl (Nat.lt_succ_self 3))).1]
  exact ⟨_, _, Map.at?_ins_self _ _ _, rfl, rfl⟩

theorem State.ackRemote_local {p : Packet} (hsrc : ∀ d e, p.src ≠ .remote d e) (s : State) : s.ackRemote p = s := by
  unfold State.ackRemote
  split
  next d e h => exact absurd h (hsrc d e)
  next => rfl

/-! ## Channels (R234, R235) -/

/-- An element joins the end of a channel's buffer. -/
def Ctx.joinChannel (q : Nat) (v : Dword) (z : Ctx) : Ctx :=
  { z with chans := Map.ins z.chans q { Map.get {} z.chans q with elems := (Map.get {} z.chans q).elems ++ [v] } }

/-- A slot of the channel's pool is free again. -/
def Ctx.takeCredit (q : Nat) (z : Ctx) : Ctx :=
  { z with chans := Map.ins z.chans q { Map.get {} z.chans q with reserved := (Map.get {} z.chans q).reserved - 1 } }

section
variable {s : State} {id k c q uid slot : Nat} {p : Packet} {v : Dword} {tk : Bool}

theorem exec_channelElement_waits (ha : s.Arriving id p) (hk : p.kind = .chan q uid slot v tk) (hsrc : p.src = .core k) (hdst : p.dst = .core c)
    (hlate : chanFirst s p k q uid slot = false) : exec (.channelElementArrive id) s = .next s := by
  refine (onPacket_of_arriving ha _).trans ?_
  simp [hk, hsrc, hdst, hlate]

/-- The oldest push of its sender joins the buffer of the context that declares the channel. -/
theorem exec_channelElement_joins {y : Ctx} (ha : s.Arriving id p) (hk : p.kind = .chan q uid slot v tk) (hsrc : p.src = .core k)
    (hdst : p.dst = .core c) (hne : c ≠ k) (hfirst : chanFirst s p k q uid slot = true) (hy : s.ctx c = some y) (ht : y.tenant = p.tenant)
    (hdecl : (Map.at? y.chdecl q).isSome = true) : ∃ t, exec (.channelElementArrive id) s = .next t ∧
      t.ctx c = some (y.joinChannel q v) ∧ Map.at? t.net id = none := by
  have hctx : ∀ f, ((s.consume id p).modCtxOf k uid f).ctx c = some y := fun f => by
    rw [State.ctx_modCtxOf_ne (Ne.symm hne), (Fabric.consume s id p).ctx, hy]
  refine ⟨_, onPacket_of_arriving ha _, ?_⟩
  simp only [hk, hsrc, hdst, hfirst, if_true, State.ctxFor_of_resident (hctx _) ht, hdecl]
  exact ⟨State.ctx_modCtxOf_resident (hctx _) rfl _, State.consume_gone s id p⟩

theorem exec_channelCredit {y : Ctx} (hfly : s.flying id = some p) (hk : p.kind = .credit q y.uid) (hdst : p.dst = .core c)
    (hy : s.ctx c = some y) : ∃ t, exec (.channelCreditReturn id) s = .next t ∧ t.ctx c = some (y.takeCredit q) := by
  refine ⟨(s.unsend id).modCtxOf c y.uid (Ctx.takeCredit q), ?_, State.ctx_modCtxOf_resident hy rfl _⟩
  simp only [exec, execChannelCreditReturn, hfly, hk, hdst]
  rfl
end

/-! ## Mailboxes (R222, R293) -/

section
variable {s : State} {id c : Nat} {p : Packet} {v : Dword} {x : Ctx}

/-- A ticket as the mailbox takes it: one from another device names that device (R222). -/
def Packet.named (p : Packet) (v : Dword) : Dword :=
  match p.src with
  | .remote d _ => setBits v 9 10 d
  | _ => v

theorem exec_ticketArrive_joins (ha : s.Arriving id p) (hk : p.kind = .ticket v) (hdst : p.dst = .core c)
    (hx : s.ctxFor c p.tenant = some x) (hroom : ((s.core c).box x).length < 16) : exec (.mailboxTicketArrive id) s =
      .next (((s.consume id p).modCore c (fun k => k.setBox x (k.box x ++ [p.named v]))).ackRemote p) := by
  refine (onPacket_of_arriving ha _).trans ?_
  simp only [hk, hdst, hx, if_neg (Nat.not_le.2 hroom)]
  rfl

theorem exec_ticketArrive_refused (ha : s.Arriving id p) (hk : p.kind = .ticket v) (hdst : p.dst = .core c)
    (hx : s.ctxFor c p.tenant = some x) (hfull : 16 ≤ ((s.core c).box x).length) : exec (.mailboxTicketArrive id) s =
      .next (s.refuse id p) := by
  refine (onPacket_of_arriving ha _).trans ?_
  simp only [hk, hdst, hx, if_pos hfull]

theorem Core.box_setBox (k : Core) (x : Ctx) (ws : List Dword) : (k.setBox x ws).box x = ws := Map.get_put_self _ _ _ _

theorem Core.box_setBox_ne (k : Core) {x y : Ctx} (h : k.boxKey y ≠ k.boxKey x) (ws : List Dword) : (k.setBox x ws).box y = k.box y :=
  Map.get_put_ne _ _ _ (Ne.symm h)
end

/-! ## Confirmations (R212, R266) -/

/-- A ticket is confirmed. -/
def Ctx.confirm (i : Nat) (x : Ctx) : Ctx := { x with tickets := Map.modify x.tickets i (fun v => { v with confirmed := true }) }

/-- The sequencer of a tenant's context owes one confirmation less. -/
def Ctx.payTicket (t q count : Nat) (x : Ctx) : Ctx :=
  if x.tenant = t then x.setSeqr q { x.seqr q with owed := (x.seqr q).owed.erase count } else x

section
variable {y : Ctx} {i : Nat} {v : Ticket}

theorem Ctx.tickets_confirm (hv : Map.at? y.tickets i = some v) : Map.at? (y.confirm i).tickets i = some { v with confirmed := true } := by
  simp [Ctx.confirm, Map.at?_modify, hv]

theorem Ctx.tickets_confirm_ne {j : Nat} (h : j ≠ i) : Map.at? (y.confirm i).tickets j = Map.at? y.tickets j := by
  simp [Ctx.confirm, Map.at?_modify, Ne.symm h]

@[simp] theorem Ctx.seqr_confirm (q : Nat) : (y.confirm i).seqr q = y.seqr q := rfl

theorem Ctx.payTicket_eq (t q count : Nat) (x : Ctx) : ∃ m, x.payTicket t q count = { x with seqrs := m } := by
  unfold Ctx.payTicket
  split
  · exact ⟨_, rfl⟩
  · exact ⟨_, rfl⟩

theorem Ctx.owed_payTicket {x : Ctx} {t : Nat} (ht : x.tenant = t) (q count : Nat) :
    ((x.payTicket t q count).seqr q).owed = (x.seqr q).owed.erase count := by
  rw [Ctx.payTicket, if_pos ht, Ctx.seqr_setSeqr_self]

/-- An unconfirmed ticket that is lost leaves LINK in every sequencer that lists it (R266). -/
theorem Ctx.seqrs_loseTickets (hv : Map.at? y.tickets i = some v) (hc : v.confirmed = false) {r : Nat × Seqr} (hr : r ∈ y.seqrs)
    (hi : i ∈ r.2.tix) : (r.1, { r.2 with status := mergeStatus r.2.status 8 0 }) ∈ (y.loseTickets (fun j _ => decide (j = i))).seqrs := by
  have hlost : i ∈ (y.tickets.filter (fun t => !t.2.confirmed && decide (t.1 = i))).map (fun t => t.1) :=
    List.mem_map.2 ⟨(i, v), List.mem_filter.2 ⟨Map.mem_of_at? hv, by simp [hc]⟩, rfl⟩
  refine List.mem_map.2 ⟨r, hr, ?_⟩
  dsimp only
  rw [if_pos (List.any_eq_true.2 ⟨i, hi, decide_eq_true hlost⟩)]
end

theorem State.ctx_payTicket (s : State) (k t q count c : Nat) :
    (s.payTicket k t q count).ctx c = if k = c then (s.ctx c).map (Ctx.payTicket t q count) else s.ctx c := by
  unfold State.payTicket
  split
  next h =>
    subst h
    exact State.ctx_modCore_self _ _ _
  next h =>
    unfold State.ctx
    rw [State.core_modCore_ne _ _ h]

/-- A confirmation given: the sender's context owes one less and the receiver's ticket is confirmed, also where the two are one
context. -/
theorem State.confirmed_ctxs {s : State} {k c q count i t : Nat} {x y : Ctx} {v : Ticket} (hx : s.ctx k = some x) (ht : x.tenant = t)
    (hy : s.ctx c = some y) (hv : Map.at? y.tickets i = some v) :
    ∃ a b, ((s.payTicket k t q count).modCtxOf c y.uid (Ctx.confirm i)).ctx k = some a ∧
      ((s.payTicket k t q count).modCtxOf c y.uid (Ctx.confirm i)).ctx c = some b ∧ (a.seqr q).owed = (x.seqr q).owed.erase count ∧
      Map.at? b.tickets i = some { v with confirmed := true } ∧ (∀ j, j ≠ i → Map.at? b.tickets j = Map.at? y.tickets j) ∧
      (k ≠ c → b = { y with tickets := b.tickets }) := by
  have hsender : (s.payTicket k t q count).ctx k = some (x.payTicket t q count) := by
    rw [State.ctx_payTicket, if_pos rfl, hx, Option.map_some]
  by_cases hkc : k = c
  · subst hkc
    obtain rfl : x = y := Option.some.inj (hx.symm.trans hy)
    obtain ⟨m, hm⟩ := Ctx.payTicket_eq t q count x
    have htickets : (x.payTicket t q count).tickets = x.tickets := by rw [hm]
    have hctx := State.ctx_modCtxOf_resident hsender (by rw [hm]) (Ctx.confirm i)
    refine ⟨_, _, hctx, hctx, Ctx.owed_payTicket ht q count, Ctx.tickets_confirm (htickets ▸ hv), fun j hj => ?_, fun h => absurd rfl h⟩
    rw [Ctx.tickets_confirm_ne hj, htickets]
  · have hreceiver : (s.payTicket k t q count).ctx c = some y := by rw [State.ctx_payTicket, if_neg hkc, hy]
    exact ⟨_, _, (State.ctx_modCtxOf_ne (Ne.symm hkc) _ _).trans hsender, State.ctx_modCtxOf_resident hreceiver rfl _,
      Ctx.owed_payTicket ht q count, Ctx.tickets_confirm hv, fun j hj => Ctx.tickets_confirm_ne hj, fun _ => rfl⟩

section
variable {s : State} {id c k q count i uid : Nat} {p : Packet} (hfly : s.flying id = some p) (hk : p.kind = .confirmReq uid c q count i)
include hfly hk

theorem exec_ticketConfirm_answers (hdst : p.dst = .core k) (hsrc : ∀ d e, p.src ≠ .remote d e) (hnew : Map.at? s.applied p.seq = none)
    (hdone : ticketDone s k p.tenant q count = true) : exec (.ticketConfirm id) s =
      .next (((s.consume id p).payTicket k p.tenant q count).modCtxOf c uid (Ctx.confirm i)) := by
  simp only [exec, execTicketConfirm, hfly, hk, hdst, hnew, hdone, Option.isSome_none, Bool.false_eq_true, if_false, if_true,
    State.ackRemote_local hsrc]
  rfl

theorem exec_ticketConfirm_waits (hdst : p.dst = .core k) (hnew : Map.at? s.applied p.seq = none)
    (hdone : ticketDone s k p.tenant q count = false) : exec (.ticketConfirm id) s =
      .next (if capScope (s.tenant p.tenant).scap 5 = 5 then
        { s with recalls := (s.recalls ++ (s.seqrsOf k p.tenant q).flatMap (fun r => s.copiesBelow r count)).dedup } else s) := by
  simp only [exec, execTicketConfirm, hfly, hk, hdst, hnew, hdone, Option.isSome_none, Bool.false_eq_true, if_false]

theorem exec_ticketConfirm_crosses {d e : Nat} (hdst : p.dst = .remote d e) (hup : s.pathFailed (s.endpoint p.tenant d) = false) :
    exec (.ticketConfirm id) s = .next (((s.cross p.tenant d p.seq).consume id p).modCtxOf c uid (Ctx.confirm i)) := by
  simp only [exec, execTicketConfirm, hfly, hk, hdst, hup, Bool.false_eq_true, if_false]
  rfl

theorem exec_ticketConfirm_lost {d e : Nat} (hdst : p.dst = .remote d e) (hdown : s.pathFailed (s.endpoint p.tenant d) = true) :
    exec (.ticketConfirm id) s = .next ((s.consume id p).modCtxOf c uid (fun x => x.loseTickets (fun j _ => decide (j = i)))) := by
  simp only [exec, execTicketConfirm, hfly, hk, hdst, hdown, if_true]
end

end Sys2Proof.Machine

namespace Sys2Proof
open Machine

/-- Settles O34, clause by clause. -/
theorem channelSteps : Obligations.ChannelSteps := by
  refine ⟨fun s id k c q uid slot p v tk y => ⟨fun ha hk hsrc hdst => ⟨fun hne hfirst hy _ ht hdecl => ?joins,
    exec_channelElement_waits ha hk hsrc hdst⟩, fun hfly hk hdst hy => ?credit⟩, fun s id c p v x ha hk hdst hx => ⟨fun hroom => ?mailbox,
    exec_ticketArrive_refused ha hk hdst hx⟩, fun s id c k q count i p x y v hfly hk =>
    ⟨fun hdst hsrc hnew hdone hx ht hy hv => ?confirms, exec_ticketConfirm_waits hfly hk, fun d e hdst hup hy hv => ?crosses,
      fun d e hdst hdown hy hv hc => ?lost⟩⟩
  case joins =>
    obtain ⟨t, hexec, hctx, hgone⟩ := exec_channelElement_joins ha hk hsrc hdst hne hfirst hy ht hdecl
    refine ⟨t, _, hexec, hctx, ?_, fun j hj => ?_, rfl, hgone⟩
    · simp [Ctx.joinChannel]
    · exact Map.get_ins_ne _ _ _ (Ne.symm hj)
  case credit =>
    obtain ⟨t, hexec, hctx⟩ := exec_channelCredit hfly hk hdst hy
    exact ⟨t, _, hexec, hctx, by simp [Ctx.takeCredit], by simp [Ctx.takeCredit], rfl⟩
  case mailbox =>
    have hack := Fabric.ackRemote ((s.consume id p).modCore c (fun k => k.setBox x (k.box x ++ [p.named v]))) p
    have hcore : ((((s.consume id p).modCore c (fun k => k.setBox x (k.box x ++ [p.named v]))).ackRemote p).core c) =
        (s.core c).setBox x ((s.core c).box x ++ [p.named v]) := by
      rw [hack.core, State.core_modCore_self, (Fabric.consume s id p).core]
    refine ⟨_, exec_ticketArrive_joins ha hk hdst hx hroom, ?_, fun y hy => ?_, ?_, ?_, fun d e hsrc => State.ackRemote_sends hsrc _⟩
    · rw [hcore, Core.box_setBox]
      rfl
    · rw [hcore, Core.box_setBox_ne _ hy]
    · unfold State.ctx
      rw [hcore]
      rfl
    · rw [hack.mem, State.modCore_mem, (Fabric.consume s id p).mem]
  case confirms =>
    have hfab := Fabric.consume s id p
    obtain ⟨a, b, ha, hb, howed, hconf, hothers, hrest⟩ := State.confirmed_ctxs (s := s.consume id p) (q := q) (count := count)
      ((hfab.ctx k).trans hx) ht ((hfab.ctx c).trans hy) hv
    exact ⟨_, a, b, exec_ticketConfirm_answers hfly hk hdst hsrc hnew hdone, ha, hb, howed, hconf, hothers, hrest, hfab.mem⟩
  case crosses =>
    have hctx : ((s.cross p.tenant d p.seq).consume id p).ctx c = some y := by rw [(Fabric.consume _ id p).ctx, State.ctx_cross, hy]
    exact ⟨_, _, exec_ticketConfirm_crosses hfly hk hdst hup, State.ctx_modCtxOf_resident hctx rfl _, Ctx.tickets_confirm hv, rfl⟩
  case lost =>
    have hctx : (s.consume id p).ctx c = some y := by rw [(Fabric.consume s id p).ctx, hy]
    exact ⟨_, _, exec_ticketConfirm_lost hfly hk hdst hdown, State.ctx_modCtxOf_resident hctx rfl _,
      fun r hr hi => Ctx.seqrs_loseTickets hv hc hr hi⟩

end Sys2Proof
end

section
/-! SUPPORT. Operations that no step of which reaches memory (R205): one law each of what they leave, for `simp`. -/

namespace Sys2Proof.Machine

/-! ## Shapes of operations -/

@[simp] theorem State.mem_ite {p : Prop} [Decidable p] (s t : State) : (if p then s else t).mem = if p then s.mem else t.mem :=
  apply_ite _ _ _ _

@[simp] theorem State.mem_foldl {α : Type} {f : State → α → State} (hf : ∀ s a, (f s a).mem = s.mem) (l : List α) :
    ∀ s, (l.foldl f s).mem = s.mem := by
  induction l with
  | nil => exact fun _ => rfl
  | cons a l ih => exact fun s => (ih _).trans (hf s a)

/-! ## Packets and commands (R158, R182, R211) -/

section
variable (s : State) (id c : Nat) (p : Packet)

@[simp] theorem State.send_mem : (s.send p).mem = s.mem := (Fabric.send s p).mem
@[simp] theorem State.sendAll_mem (ps : List Packet) : (s.sendAll ps).mem = s.mem := (Fabric.sendAll ps s).mem
@[simp] theorem State.pay_mem : (s.pay c p).mem = s.mem := (Fabric.pay s c p).mem
@[simp] theorem State.unsend_mem : (s.unsend id).mem = s.mem := rfl
@[simp] theorem State.noteApplied_mem (r : PKind) : (s.noteApplied p r).mem = s.mem := (Fabric.noteApplied s p r).mem
@[simp] theorem State.answer_mem (r : PKind) : (s.answer id p r).mem = s.mem := (Fabric.answer s id p r).mem
@[simp] theorem State.ackPkt_mem (i : AckInfo) : (s.ackPkt id p i).mem = s.mem := (Fabric.ackPkt s id p i).mem
@[simp] theorem State.ackRemote_mem : (s.ackRemote p).mem = s.mem := (Fabric.ackRemote s p).mem
@[simp] theorem State.consume_mem : (s.consume id p).mem = s.mem := (Fabric.consume s id p).mem
@[simp] theorem State.settle_mem (ids : List Nat) (i : AckInfo) : (s.settle id ids i).mem = s.mem := (Settled.settle s id ids i).mem
@[simp] theorem State.lateTokens_mem (u w n : Nat) : (s.lateTokens c u w n).mem = s.mem := (Settled.lateTokens s c u w n).mem
@[simp] theorem State.count_mem (k n : Nat) : (s.count c k n).mem = s.mem := (Settled.count s c k n).mem
@[simp] theorem State.fresh_mem (n : Nat) : (s.fresh n).1.mem = s.mem := rfl
@[simp] theorem openCmd_mem (x : Ctx) (w : QWord) (op5 tag group : Nat) (pend : List Nat) :
    (openCmd s c x w op5 tag group pend).1.mem = s.mem := rfl
@[simp] theorem sendCmd_mem (x : Ctx) (w : QWord) (op5 : Nat) (k : PKind) (d : Leaf) : (sendCmd s c x w op5 k d).mem = s.mem :=
  State.send_mem _ _
@[simp] theorem State.setPkt_mem : (s.setPkt id p).mem = s.mem := rfl
@[simp] theorem State.refuse_mem : (s.refuse id p).mem = s.mem := rfl
@[simp] theorem State.inject_mem : (s.inject p).mem = s.mem := rfl

@[simp] theorem State.noteResend_mem : (s.noteResend p).mem = s.mem := (State.noteResend_eq s p).2.1

@[simp] theorem sendChannel_mem (x : Ctx) (q n : Nat) (v : Dword) (tk : Bool) : (sendChannel s c x q n v tk).mem = s.mem := by
  unfold sendChannel; split <;> simp

@[simp] theorem failPacket_mem : (failPacket s id p).mem = s.mem := by
  unfold failPacket; simp

@[simp] theorem remoteApplied_mem : (remoteApplied s id p).mem = s.mem := by
  unfold remoteApplied; simp

@[simp] theorem State.cross_mem (t d n : Nat) : (s.cross t d n).mem = s.mem := by
  unfold State.cross; dsimp only; split <;> rfl

@[simp] theorem State.bringIn_mem : (s.bringIn p).mem = s.mem := by
  unfold State.bringIn
  extract_lets home
  split
  · rfl
  · split <;> simp
end

/-! ## Contexts and their words -/

section
variable (s : State) (c : Nat)

@[simp] theorem noteFlush_mem (n : Nat) : (noteFlush s c n).mem = s.mem := by
  unfold noteFlush; simp

@[simp] theorem noteOob_mem (n : Nat) : (noteOob s c n).mem = s.mem := by
  unfold noteOob; simp

@[simp] theorem noteCap_mem (scope : Nat) : (noteCap s c scope).mem = s.mem := by
  unfold noteCap; split <;> simp

@[simp] theorem State.setFlag_mem (w : Nat) (v : Dword) : (s.setFlag c w v).mem = s.mem := by
  unfold State.setFlag; simp


@[simp] theorem stlbFill_mem (t va : Nat) : (stlbFill s c t va).mem = s.mem := by
  unfold stlbFill; repeat' split
  all_goals rfl

@[simp] theorem State.msixRaise_mem (t v : Nat) : (s.msixRaise t v).mem = s.mem := by
  unfold State.msixRaise; simp

@[simp] theorem State.oboxPush_mem (t : Nat) (v : Dword) : (s.oboxPush t v).mem = s.mem := by
  unfold State.oboxPush; simp

@[simp] theorem writeDst_mem (w : QWord) (v : Dword) : (writeDst s c w v).mem = s.mem := by
  unfold writeDst; split
  · rfl
  · dsimp only; split <;> simp

@[simp] theorem writeLate_mem (w : QWord) (v : Dword) : (writeLate s c w v).mem = s.mem := by
  unfold writeLate
  dsimp only
  split
  · exact writeDst_mem _ _ _ _
  · exact State.modCtx_mem _ _ _

@[simp] theorem csrWrite_mem (n : Nat) (v : Dword) : (csrWrite s c n v).mem = s.mem := by
  unfold csrWrite
  rw [State.mem_ite, State.modCtx_mem]
  split
  · split <;> rfl
  · rfl

@[simp] theorem releasePushes_mem (x : Ctx) (ws : List QWord) : ∀ s : State, (releasePushes s c x ws).mem = s.mem := by
  induction ws with
  | nil => exact fun _ => rfl
  | cons w ws ih =>
    intro s
    rw [releasePushes, ih]
    refine State.mem_foldl (fun t p => ?_) _ s
    split
    · dsimp only; repeat' split
      all_goals simp
    · rfl

@[simp] theorem State.eret_mem : (s.eret c).mem = s.mem := by
  unfold State.eret
  split
  · rfl
  · simp only [State.modCtx_mem, releasePushes_mem, State.mem_ite, State.count_mem, ite_self]
end

/-! ## Tenants: launches, records, mailboxes and registers (R287-R295, R322-R328) -/

section
variable (s : State) (t : Nat)

@[simp] theorem State.modLaunch_mem (i : Nat) (f : Launch → Launch) : (s.modLaunch t i f).mem = s.mem := rfl
@[simp] theorem State.popLaunch_mem (i : Nat) : (s.popLaunch t i).mem = s.mem := rfl
@[simp] theorem State.endLoans_mem (i : Nat) : (s.endLoans t i).mem = s.mem := (Booked.endLoans s t i).mem
@[simp] theorem State.frontError_mem (i cause : Nat) : (s.frontError t i cause).mem = s.mem := (Booked.frontError s t i cause).mem
@[simp] theorem State.advance_mem (i : Nat) (l : Launch) (v : List Nat) : (s.advance t i l v).mem = s.mem := (Booked.advance s t i l v).mem
@[simp] theorem State.moveBorder_mem (need : List (Nat × Nat)) (c : Nat) : (s.moveBorder need c).mem = s.mem := (Booked.moveBorder s need c).mem
@[simp] theorem State.enqueueLaunch_mem (q l : Nat) : (s.enqueueLaunch t q l).mem = s.mem := rfl
@[simp] theorem State.use_mem (k n : Nat) : (s.use t k n).mem = s.mem := by
  unfold State.use; simp

@[simp] theorem State.hostWrite_mem (a : Nat) (v : Dword) : (s.hostWrite a v).mem = s.mem := rfl

@[simp] theorem State.failLaunch_mem (i st cause : Nat) (v : Dword) : (s.failLaunch t i st cause v).mem = s.mem := by
  unfold State.failLaunch; simp

@[simp] theorem State.launchError_mem (i cause : Nat) : (s.launchError t i cause).mem = s.mem := by
  unfold State.launchError; simp

@[simp] theorem State.writeRecord_mem (i : Nat) : (s.writeRecord t i).mem = s.mem := by
  unfold State.writeRecord; split <;> simp

@[simp] theorem State.releaseRecords_mem (q : Nat) : (s.releaseRecords t q).mem = s.mem := by
  unfold State.releaseRecords; simp

@[simp] theorem State.eligBack_mem (u : State) : (s.eligBack u).mem = u.mem := by
  unfold State.eligBack
  refine State.mem_foldl (fun q k => State.mem_foldl (fun r i => ?_) _ q) _ u
  split
  · simp
  · rfl

@[simp] theorem State.frontMoved_mem (u : State) : (s.frontMoved u).mem = u.mem := by
  unfold State.frontMoved; simp

@[simp] theorem State.settleHead_mem (q : Nat) : (s.settleHead t q).mem = s.mem := by
  unfold State.settleHead; split
  · rfl
  · split <;> simp

@[simp] theorem State.flag_mem (i : Nat) : (s.flag t i).mem = s.mem := rfl

@[simp] theorem State.doorbell_mem (q : Nat) (v : Dword) : (s.doorbell t q v).mem = s.mem := by
  unfold State.doorbell; simp


@[simp] theorem State.writeHead_mem (q : Nat) (v : Dword) : (s.writeHead t q v).mem = s.mem := by
  unfold State.writeHead; simp

@[simp] theorem State.writeIbox_mem (c : Nat) (v : Dword) : (s.writeIbox t c v).mem = s.mem := by
  unfold State.writeIbox
  split
  · rfl
  · dsimp only
    split <;> simp
end

/-! ## The step cache, reductions and blocks at slices (R158, R171, R251, R261-R263, R272-R282) -/

section
variable (s : State)

@[simp] theorem State.setGroup_mem (g : Nat) (v : Group) : (s.setGroup g v).mem = s.mem := rfl
@[simp] theorem State.setSlcBlk_mem (k : Nat) (b : SliceBlk) : (s.setSlcBlk k b).mem = s.mem := rfl
@[simp] theorem State.dropSlcBlk_mem (k : Nat) : (s.dropSlcBlk k).mem = s.mem := rfl
@[simp] theorem State.dropStreams_mem (ks : List Nat) : (s.dropStreams ks).mem = s.mem := rfl
@[simp] theorem State.sliceDrop_mem (t n : Nat) : (s.sliceDrop t n).mem = s.mem := rfl

@[simp] theorem State.closeSlice_mem (p : Packet) (k : Nat) (b : SliceBlk) : (s.closeSlice p k b).mem = s.mem := by
  unfold State.closeSlice
  split
  · dsimp only
    split <;> simp
  · rfl

@[simp] theorem State.holdBeat_mem (id : Nat) (p : Packet) (k : Nat) : (s.holdBeat id p k).mem = s.mem := by
  unfold State.holdBeat; simp

@[simp] theorem State.sliceBeat_mem (id : Nat) (p : Packet) (h : Hdr) (i : AckInfo) (d : Bool) : (s.sliceBeat id p h i d).mem = s.mem := by
  unfold State.sliceBeat; simp

@[simp] theorem arriveAtSac_mem (id : Nat) (p : Packet) : (arriveAtSac s id p).mem = s.mem := by
  unfold arriveAtSac; split <;> simp

@[simp] theorem arriveClose_mem (id : Nat) (p : Packet) : (arriveClose s id p).mem = s.mem := by
  unfold arriveClose; split <;> simp

@[simp] theorem sendPartial_mem (g t from_ to_ node port core tag : Nat) (shape : Dword) (et : Nat) (acc : List Nat) :
    (sendPartial s g t from_ to_ node port core tag shape et acc).mem = s.mem := by
  unfold sendPartial; simp

@[simp] theorem State.sendStatus_mem (p : Packet) : (s.sendStatus p).mem = s.mem := by
  unfold State.sendStatus; simp

@[simp] theorem statusAll_mem (g root : Nat) (v : Group) (cause tval : Nat) : (statusAll s g root v cause tval).mem = s.mem := by
  unfold statusAll; simp

@[simp] theorem sendResult_mem (g root : Nat) (v : Group) (tag : Nat) (shape : Dword) (acc : List Nat) (c : Nat) :
    (sendResult s g root v tag shape acc c).mem = s.mem := by
  unfold sendResult; dsimp only; split <;> simp

@[simp] theorem closeRound_mem (g root : Nat) (v : Group) (tag : Nat) (shape : Dword) (acc : List Nat) :
    (closeRound s g root v tag shape acc).mem = s.mem := by
  unfold closeRound; simp

@[simp] theorem contribute_mem (g node port core count tag : Nat) (shape : Dword) (vals : List Nat) (leaf : Bool) (cmd t : Nat) :
    (contribute s g node port core count tag shape vals leaf cmd t).mem = s.mem := by
  unfold contribute
  repeat' split
  all_goals simp

@[simp] theorem State.dropPartials_mem (g : Nat) : (s.dropPartials g).mem = s.mem := (State.dropPartials_drops s g).1

@[simp] theorem sacDecide_mem (sl t key : Nat) (i : Blk) (thr : Word) (metric step age : Nat) :
    (sacDecide s sl t key i thr metric step age).1.mem = s.mem := by
  unfold sacDecide
  split
  · rfl
  split
  · rfl
  dsimp only
  split
  · rfl
  split
  · rfl
  split
  · rfl
  split <;> rfl

@[simp] theorem State.countVerdict_mem (t : Nat) (v : Dword) (n : Nat) : (s.countVerdict t v n).mem = s.mem := by
  unfold State.countVerdict; simp
end

/-! ## The controller, spans and the device (R294-R297, R316, R330-R334) -/

section
variable (s : State)

@[simp] theorem takeVictims_mem (t i : Nat) (cs : List Nat) : ∀ (s : State) (miss : List (Option Nat)), (takeVictims t i cs s miss).mem = s.mem := by
  induction cs with
  | nil => exact fun _ _ => rfl
  | cons c cs ih =>
    intro s miss
    unfold takeVictims
    split
    · exact ih _ _
    · exact (ih _ _).trans (State.mem_foldl (fun q k => State.modCore_mem q k _) _ s)

@[simp] theorem State.preemptFor_mem (v : Served) : (s.preemptFor v).mem = s.mem := by
  unfold State.preemptFor; simp

@[simp] theorem State.setWants_mem (act : List Nat) (d : Nat) : (s.setWants act d).mem = s.mem := by
  unfold State.setWants
  exact State.mem_foldl (fun q (p : Nat × Nat) => State.modTenant_mem q p.1 _) _ s

@[simp] theorem State.settleDeficits_mem (act : List Nat) : (s.settleDeficits act).mem = s.mem := rfl

@[simp] theorem State.endSpan_mem (c : Nat) (x : Ctx) : (s.endSpan c x).mem = s.mem := by
  unfold State.endSpan
  dsimp only
  split <;> simp

@[simp] theorem State.logReset_mem (t : Nat) (r : List Dword) : (s.logReset t r).mem = s.mem := by
  unfold State.logReset
  exact (State.msixRaise_mem _ _ _).trans (State.mem_foldl (fun q (p : Dword × Nat) => State.hostWrite_mem q _ p.1) r.zipIdx s)

@[simp] theorem State.discardVerdicts_mem (t : Nat) : (s.discardVerdicts t).mem = s.mem := by
  unfold State.discardVerdicts
  refine State.mem_foldl (fun q p => ?_) _ s
  split
  · split
    · exact State.countVerdict_mem _ _ _ _
    · rfl
  · rfl

@[simp] theorem State.resetCommands_mem (t : Nat) : (s.resetCommands t).mem = s.mem := by
  unfold State.resetCommands
  dsimp only
  refine (State.mem_foldl (fun q (m : Nat × Cmd) => State.modCore_mem q m.2.core _) _ _).trans
    ((State.mem_foldl (fun q m => ?_) _ _).trans (State.discardVerdicts_mem s t))
  split
  · exact State.logReset_mem _ _ _
  · rfl

@[simp] theorem State.resetLaunches_mem (t : Nat) : (s.resetLaunches t).mem = s.mem := by
  unfold State.resetLaunches; simp

@[simp] theorem State.resetShared_mem (t : Nat) : (s.resetShared t).mem = s.mem := rfl

@[simp] theorem State.failPaths_mem : s.failPaths.mem = s.mem := by
  exact (State.mem_foldl (fun q p => State.inject_mem q _) _ _).trans (State.mem_foldl (fun q (p : Nat × Packet) => failPacket_mem q p.1 p.2) _ s)

@[simp] theorem State.replayPort_mem (p : Nat) : (s.replayPort p).mem = s.mem := by
  exact State.mem_foldl (fun q (p : Nat × Packet) => State.inject_mem q p.2) _ s

@[simp] theorem State.meter_mem (t : Nat) : (s.meter t).mem = s.mem := rfl

@[simp] theorem State.manage_mem (t : Nat) (f : Tenant → Tenant) : (s.manage t f).mem = s.mem := by
  unfold State.manage State.pinSaves; simp

@[simp] theorem State.log_mem (k n : Nat) : (s.log k n).mem = s.mem := by
  unfold State.log; simp

@[simp] theorem State.strike_mem (e : ErrSite) : (s.strike e).mem = s.mem := by
  unfold State.strike
  split
  · rfl
  · split <;> simp

@[simp] theorem State.elapse_mem (n : Nat) : (s.elapse n).mem = s.mem := by
  unfold State.elapse; simp

@[simp] theorem State.vfRead_mem (t off n : Nat) : (s.vfRead t off n).mem = s.mem := by
  unfold State.vfRead State.popObox; simp

@[simp] theorem State.pfRead_mem (i : PfItem) : (s.pfRead i).mem = s.mem := by
  unfold State.pfRead; simp
end

end Sys2Proof.Machine
end

section
/-! SUPPORT. What each word's run does to memory: all leave it but those that spill, save or load units, which keep its
canonical form. -/

namespace Sys2Proof.Machine

/-- A run that leaves memory as it is. -/
def LeavesMem (run : RunFn) : Prop := ∀ s c w, (run s c w).state.mem = s.mem

/-- A run that keeps the canonical form of memory. -/
def RunKeeps (run : RunFn) : Prop := ∀ s c w, KeepsMem s (run s c w).state

theorem RunKeeps.of_leaves {run : RunFn} (h : LeavesMem run) : RunKeeps run := fun s c w => .of_eq (h s c w)

section
variable (s : State)

@[simp] theorem RunRes.state_done : (RunRes.done s).state = s := rfl
@[simp] theorem RunRes.state_sent : (RunRes.sent s).state = s := rfl
@[simp] theorem RunRes.state_shut : (RunRes.shut s).state = s := rfl
@[simp] theorem RunRes.state_going : (RunRes.going s).state = s := rfl
@[simp] theorem RunRes.state_hold : (RunRes.hold s).state = s := rfl
@[simp] theorem RunRes.state_again (v : QWord) (ks : List Nat) : (RunRes.again s v ks).state = s := rfl
@[simp] theorem RunRes.state_trap (a : Nat) (v : Dword) : (RunRes.trap a v s).state = s := rfl
end

/-- A run written as a case of the context it runs in. -/
theorem LeavesMem.ctx {none_ : State → RunRes} {run : State → Nat → QWord → Ctx → RunRes} (hn : ∀ s, (none_ s).state.mem = s.mem)
    (h : ∀ s c w x, (run s c w x).state.mem = s.mem) :
    LeavesMem (fun s c w => match s.ctx c with | none => none_ s | some x => run s c w x) := by
  intro s c w
  dsimp only
  split
  · exact hn s
  · exact h s c w _

/-! ## Scalar words -/

@[simp] theorem finishFlushed_mem (s : State) (c : Nat) (w : QWord) (n : Nat) (v : Dword) : (finishFlushed s c w n v).state.mem = s.mem := by
  unfold finishFlushed
  split
  · rfl
  · split <;> simp

@[simp] theorem finishWith_mem (s : State) (c : Nat) (w : QWord) (v : Dword) : (finishWith s c w v).state.mem = s.mem :=
  finishFlushed_mem s c w 0 v

theorem LeavesMem.runNone : LeavesMem runNone := fun _ _ _ => rfl
theorem LeavesMem.scalarRun (f : QWord → Dword) : LeavesMem (scalarRun f) := fun s c w => finishWith_mem s c w (f w)
theorem LeavesMem.fpRun (f : QWord → Dword) : LeavesMem (fpRun f) := fun s c w => finishFlushed_mem s c w _ (f w)
theorem LeavesMem.setPredRun (p : BitVec 7) (f : Ctx → QWord → Pred) : LeavesMem (setPredRun p f) := fun _ _ _ => State.modCtx_mem _ _ _

theorem LeavesMem.runCmp (p : BitVec 7) (k : BitVec 4) : LeavesMem (runCmp p k) := fun s c w =>
  (LeavesMem.setPredRun p _ _ c w).trans (noteFlush_mem s c _)

theorem LeavesMem.runLds : LeavesMem runLds := by
  intro s c w
  unfold Sys2Proof.Machine.runLds
  split
  · rfl
  · exact finishWith_mem _ _ _ _

theorem LeavesMem.runSts : LeavesMem runSts := by
  intro s c w
  unfold Sys2Proof.Machine.runSts
  split <;> simp

theorem LeavesMem.globalRun (store : Bool) (kind : Nat → Nat → QWord → PKind) : LeavesMem (globalRun store kind) := by
  intro s c w
  unfold Sys2Proof.Machine.globalRun
  split
  · rfl
  · split <;> simp

theorem LeavesMem.runStg : LeavesMem runStg := .globalRun true _

theorem LeavesMem.runLdg : LeavesMem runLdg := by
  intro s c w
  have h := LeavesMem.globalRun false (fun pa va _ => .load pa va) s c w
  unfold Sys2Proof.Machine.runLdg
  split
  · next t ht => rw [ht] at h; exact (State.modCtx_mem _ _ _).trans h
  · exact h

theorem LeavesMem.runCall : LeavesMem runCall := fun _ _ _ => State.modCtx_mem _ _ _
theorem LeavesMem.runEndw : LeavesMem runEndw := fun _ _ _ => rfl

/-! ## Tile words -/

@[simp] theorem tileRunOf_mem (n : Nat) (s : State) (c : Nat) (w : QWord) (reads : List (Nat × Nat)) (writes : List Nat) (upd : Core → Core) :
    (tileRunOf n s c w reads writes upd).state.mem = s.mem := by
  unfold tileRunOf
  split <;> simp

@[simp] theorem tileRun_mem (s : State) (c : Nat) (w : QWord) (reads : List (Nat × Nat)) (runs : List Run) (writes : List Nat)
    (upd : Core → Core) : (tileRun s c w reads runs writes upd).state.mem = s.mem := tileRunOf_mem _ s c w reads writes upd


theorem LeavesMem.runVget (t : BitVec 6) : LeavesMem (runVget t) := by
  intro s c w
  unfold Sys2Proof.Machine.runVget
  dsimp only
  split <;> simp

theorem LeavesMem.runVput (d : BitVec 6) : LeavesMem (runVput d) := by
  intro s c w
  unfold Sys2Proof.Machine.runVput
  dsimp only
  split
  · rfl
  · exact tileRunOf_mem _ _ _ _ _ _ _

theorem LeavesMem.runVfill (d : BitVec 6) : LeavesMem (runVfill d) := by
  intro s c w
  unfold Sys2Proof.Machine.runVfill
  exact tileRunOf_mem _ _ _ _ _ _ _

theorem LeavesMem.runTld (d : BitVec 6) : LeavesMem (runTld d) := by
  intro s c w
  unfold Sys2Proof.Machine.runTld
  dsimp only
  split
  · rfl
  · exact tileRun_mem _ _ _ _ _ _ _

theorem LeavesMem.runTldX (d : BitVec 6) : LeavesMem (runTldX d) := by
  intro s c w
  unfold Sys2Proof.Machine.runTldX
  dsimp only
  split
  · rfl
  · exact tileRun_mem _ _ _ _ _ _ _

theorem LeavesMem.runTkill (d : BitVec 6) : LeavesMem (runTkill d) := fun _ _ _ => State.modCtx_mem _ _ _

theorem LeavesMem.runVcbld (t : BitVec 6) : LeavesMem (runVcbld t) := by
  intro s c w
  have h := tileRun_mem s c w (readRows t.toNat (List.range 8)) [] [] id
  unfold Sys2Proof.Machine.runVcbld
  dsimp only
  split
  · next s1 h1 => rw [h1] at h; exact (State.modCtx_mem _ _ _).trans h
  · exact h

theorem LeavesMem.runVrowm (t : BitVec 6) : LeavesMem (runVrowm t) := by
  intro s c w
  unfold Sys2Proof.Machine.runVrowm
  extract_lets k rows m
  have h := tileRun_mem s c w (readRows t.toNat rows) (if isFloatT (w.et t.toNat) then runsOf t.toNat (w.cols t.toNat) rows else []) [] id
  split
  · next s1 h1 => rw [h1] at h; exact (State.modCtx_mem _ _ _).trans h
  · exact h

/-! ## Matrix words -/

theorem LeavesMem.runMrd (acc : BitVec 2) (d : BitVec 6) (col : BitVec 8) (t : BitVec 1) : LeavesMem (runMrd acc d col t) := by
  intro s c w
  unfold Sys2Proof.Machine.runMrd
  dsimp only
  split
  · rfl
  · exact tileRunOf_mem _ _ _ _ _ _ _

theorem LeavesMem.runMwr (acc : BitVec 2) (d : BitVec 6) (col : BitVec 8) (t : BitVec 1) : LeavesMem (runMwr acc d col t) :=
  fun _ _ _ => tileRunOf_mem _ _ _ _ _ _ _

theorem LeavesMem.runMclr (acc : BitVec 2) : LeavesMem (runMclr acc) := fun _ _ _ => rfl

/-- A matrix word may touch units of the scratchpad before it multiplies. -/
theorem RunKeeps.mulRun (op : MulOp) (acc a b tx : Nat) (f : BitVec 3) : RunKeeps (mulRun op acc a b tx f) := by
  intro s c w
  unfold Sys2Proof.Machine.mulRun
  split
  · exact .refl s
  · next x _ =>
    extract_lets sp mx kk pair rows spRows t
    have ht : KeepsMem s t := by
      show KeepsMem s (if _ then _ else _)
      split
      · exact .touchUnits _ _ _ _
      · exact .refl s
    split
    · exact ht
    · split
      · exact ht
      · split
        · exact ht
        · exact ht.trans (.of_eq (by simp))

/-! ## Data words -/

@[simp] theorem spreadMap_mem (s : State) (c : Nat) (x : Ctx) (w : QWord) (op5 : Nat) (k : PKind) (cs : List Nat) :
    (spreadMap s c x w op5 k cs).mem = s.mem := State.sendAll_mem _ _

@[simp] theorem sendSlice_mem (s : State) (c : Nat) (x : Ctx) (w : QWord) (op5 : Nat) (k : Hdr → Beat → PKind) (bs : List SliceOut) :
    (sendSlice s c x w op5 k bs).state.mem = s.mem := by
  unfold sendSlice
  split
  · rfl
  · exact State.sendAll_mem _ _

@[simp] theorem gatBatch_mem (c : Nat) (x : Ctx) (w : QWord) (s : State) (l : Listing) : (gatBatch c x w s l).mem = s.mem :=
  (State.sendAll_mem _ _).trans (noteOob_mem _ _ _)

@[simp] theorem scaBatch_mem (o c : Nat) (x : Ctx) (w : QWord) (s : State) (l : Listing) : (scaBatch o c x w s l).mem = s.mem :=
  (State.sendAll_mem _ _).trans ((noteOob_mem _ _ _).trans (noteFlush_mem _ _ _))

@[simp] theorem listEnd_mem (s : State) (cmd : Nat) : (listEnd s cmd).state.mem = s.mem := by
  unfold listEnd
  split
  · split <;> rfl
  · rfl

section
variable {batch : State → Listing → State} (hb : ∀ s l, (batch s l).mem = s.mem)
include hb

theorem listLoop_mem (o : DataOp) (c t : Nat) (w : QWord) : ∀ (n : Nat) (s : State) (l : Listing),
    (listLoop o batch c t w n s l).state.mem = s.mem
  | 0, s, l => listEnd_mem s l.cmd
  | n + 1, s, l => by
    unfold listLoop
    dsimp only
    split
    · exact (listEnd_mem _ _).trans (hb s l)
    · split
      · exact (listLoop_mem o c t w n _ _).trans (hb s l)
      · exact hb s l

theorem listRun_mem (o : DataOp) (leaves : List Leaf) (per : Nat) (s : State) (c : Nat) (x : Ctx) (w : QWord) :
    (listRun o leaves per batch s c x w).state.mem = s.mem := by
  unfold listRun
  dsimp only
  split
  · exact listLoop_mem hb _ _ _ _ _ _ _
  · exact (listLoop_mem hb _ _ _ _ _ _ _).trans rfl
end

theorem LeavesMem.putRun (op5 : Nat) (k : Hdr → Beat → PKind) : LeavesMem (putRun op5 k) :=
  .ctx (fun _ => rfl) (fun s c _ _ => (sendSlice_mem _ _ _ _ _ _ _).trans (noteFlush_mem s c _))

theorem LeavesMem.runXget : LeavesMem runXget := by
  refine .ctx (fun _ => rfl) (fun s c w x => ?_)
  dsimp only
  split
  · rfl
  · simp

theorem LeavesMem.runXgat : LeavesMem runXgat := by
  refine .ctx (fun _ => rfl) (fun s c w x => ?_)
  dsimp only
  split
  · exact noteOob_mem _ _ _
  · exact listRun_mem (gatBatch_mem c x w) _ _ _ _ _ _ _

theorem LeavesMem.runXsend : LeavesMem runXsend := by
  refine .ctx (fun _ => rfl) (fun s c w x => ?_)
  dsimp only
  split
  · exact noteFlush_mem _ _ _
  · simp

theorem LeavesMem.runXsca (o : BitVec 2) : LeavesMem (runXsca o) :=
  .ctx (fun _ => rfl) (fun s c w x => listRun_mem (scaBatch_mem o.toNat c x w) _ _ _ s c x w)

theorem LeavesMem.runXat (o : BitVec 4) (z : BitVec 2) : LeavesMem (runXat o z) := .ctx (fun _ => rfl) (fun s c w x => sendCmd_mem s c x w _ _ _)
theorem LeavesMem.installMap (slot : Nat) : LeavesMem (installMap slot) := fun _ _ _ => State.modCtx_mem _ _ _
theorem LeavesMem.runXunmap (k : BitVec 4) : LeavesMem (runXunmap k) := fun _ _ _ => State.modCtx_mem _ _ _
theorem LeavesMem.runXgmap : LeavesMem runXgmap := .ctx (fun _ => rfl) (fun s c w x => spreadMap_mem s c x w _ _ _)

theorem LeavesMem.runXgunmap : LeavesMem runXgunmap := by
  refine .ctx (fun _ => rfl) (fun s c w x => ?_)
  dsimp only
  split
  · rfl
  · exact spreadMap_mem _ _ _ _ _ _ _

theorem LeavesMem.runXrpl : LeavesMem runXrpl := .ctx (fun _ => rfl) (fun _ _ _ _ => by simp)
theorem LeavesMem.runXrpf : LeavesMem runXrpf := .ctx (fun _ => rfl) (fun _ _ _ _ => by simp)

theorem LeavesMem.runXred : LeavesMem runXred := by
  intro s c w
  unfold Sys2Proof.Machine.runXred
  split
  · rfl
  · dsimp only
    split <;> simp only [RunRes.state_sent, State.sendAll_mem, openCmd_mem, State.fresh_mem]

theorem LeavesMem.runSacinv : LeavesMem runSacinv := .ctx (fun _ => rfl) (fun _ _ _ _ => by simp)
theorem LeavesMem.runCntsnap : LeavesMem runCntsnap := .ctx (fun _ => rfl) (fun s c w x => sendCmd_mem s c x w _ _ _)

/-! ## Handles, tickets, rings, barriers and flags -/

theorem LeavesMem.runHdrain : LeavesMem runHdrain := by
  refine .ctx (fun _ => rfl) (fun s c w x => ?_)
  split
  · dsimp only; split <;> rfl
  · rfl

theorem LeavesMem.runHpass (p : BitVec 6) : LeavesMem (runHpass p) := by
  refine .ctx (fun _ => rfl) (fun s c w x => ?_)
  split
  · exact sendChannel_mem _ _ _ _ _ _ _
  · split
    · split
      · exact State.oboxPush_mem _ _ _
      · rfl
    · split <;> simp

theorem LeavesMem.runHrecv : LeavesMem runHrecv :=
  .ctx (fun _ => rfl) (fun _ _ _ _ => by simp)

theorem LeavesMem.runRingInit (g : BitVec 4) : LeavesMem (runRingInit g) := by
  refine .ctx (fun _ => rfl) (fun s c w x => ?_)
  split <;> rfl

theorem LeavesMem.ringRun (g : BitVec 4) (f : Ring → Option (Ring × List Dword)) : LeavesMem (ringRun g f) := by
  refine .ctx (fun _ => rfl) (fun s c w x => ?_)
  split <;> rfl

theorem LeavesMem.runRingWfree (g : BitVec 4) : LeavesMem (runRingWfree g) := .ringRun g _
theorem LeavesMem.runRingPub (g : BitVec 4) : LeavesMem (runRingPub g) := .ringRun g _
theorem LeavesMem.runRingWfill (g : BitVec 4) : LeavesMem (runRingWfill g) := .ringRun g _
theorem LeavesMem.runRingRel (g : BitVec 4) : LeavesMem (runRingRel g) := .ringRun g _
theorem LeavesMem.runRingStat (g : BitVec 4) : LeavesMem (runRingStat g) := .ringRun g _

theorem LeavesMem.runBarArr (t : BitVec 3) : LeavesMem (runBarArr t) := by
  refine .ctx (fun _ => rfl) (fun s c w x => ?_)
  dsimp only
  split <;> rfl

theorem LeavesMem.runBarWait (t : BitVec 3) : LeavesMem (runBarWait t) := by
  refine .ctx (fun _ => rfl) (fun s c w x => ?_)
  dsimp only
  split <;> rfl

theorem LeavesMem.runBarcfg (t : BitVec 3) : LeavesMem (runBarcfg t) := .ctx (fun _ => rfl) (fun _ _ _ _ => rfl)
theorem LeavesMem.runFlagAdd : LeavesMem runFlagAdd := .ctx (fun _ => rfl) (fun s c w x => sendCmd_mem s c x w _ _ _)

theorem LeavesMem.runFlagSet : LeavesMem runFlagSet := by
  refine .ctx (fun _ => rfl) (fun s c w x => ?_)
  dsimp only
  split
  · rfl
  · simp

theorem LeavesMem.runFlagWait : LeavesMem runFlagWait := by
  intro s c w
  unfold Sys2Proof.Machine.runFlagWait
  split <;> rfl

/-! ## System words -/

theorem LeavesMem.runKlaunch (q : BitVec 4) : LeavesMem (runKlaunch q) := by
  refine .ctx (fun _ => rfl) (fun s c w x => ?_)
  split <;> rfl

theorem LeavesMem.runTinv : LeavesMem runTinv := .ctx (fun _ => rfl) (fun _ _ _ _ => rfl)

theorem LeavesMem.runWfi : LeavesMem runWfi := by
  refine .ctx (fun _ => rfl) (fun s c w x => ?_)
  split <;> rfl

theorem RunKeeps.runCtxsave : RunKeeps runCtxsave := by
  intro s c w
  unfold Sys2Proof.Machine.runCtxsave
  split
  · exact .refl s
  · exact (KeepsMem.writeImage _ _ _ _ _ _ _).trans (KeepsMem.trans (.saveUnits _ _ _ _) (.of_eq rfl))

theorem RunKeeps.runCtxload : RunKeeps runCtxload := by
  intro s c w
  unfold Sys2Proof.Machine.runCtxload
  split
  · exact .refl s
  · dsimp only [RunRes.state_done]
    refine KeepsMem.trans (KeepsMem.trans ?_ (.loadUnits _ _ _ _)) (.modCore _ _ _)
    exact ((KeepsMem.setCtx _ _ _).trans (.modCore _ _ _)).trans (.touchUnits _ _ _ _)

theorem KeepsMem.spillOthers (c : Nat) (me : Owner) (us : List Nat) : ∀ s : State, KeepsMem s (spillOthers s c me us) := by
  induction us with
  | nil => exact fun s => .refl s
  | cons u us ih =>
    intro s
    unfold Sys2Proof.Machine.spillOthers
    refine KeepsMem.trans ?_ (ih _)
    split
    · split
      · exact .refl s
      · exact .spillUnit _ _ _
    · exact .refl s

theorem RunKeeps.runSpflush : RunKeeps runSpflush := by
  intro s c w
  unfold Sys2Proof.Machine.runSpflush
  split
  · exact .refl s
  · simp only [RunRes.state_done]
    exact .spillOthers _ _ _ _

/-! ## Every word -/

/-- Every word's run keeps the canonical form. -/
theorem RunKeeps.runWord (i : Instr) : RunKeeps (runWord i) := by
  cases i with
  | add | sub | mul | mulh | mulhu | div | divu | rem | remu | and | or | xor | andn | shl | shr | sra | rotl | min | max | minu |
    maxu | clz | ctz | popc | addi | andi | ori | xori | shli | shri | srai | muli | li | fabs | fneg | fcvtFw | csel | pget | rdshape
    | csrr => exact .of_leaves (.scalarRun _)
  | fadd | fsub | fmul | fdiv | fmin | fmax | fsqrt | fcvtWf => exact .of_leaves (.fpRun _)
  | pand | por | pxor | pandn | pput => exact .of_leaves (.setPredRun _ _)
  | vadd | vsub | vmul | vdiv | vmin | vmax | vand | vor | vxor | vshl | vshr | vsra | vabs | vneg | vrcp | vrsqrt | vsqrt | vexp2 |
    vlog2 | vtanh | vsigm | vsilu | vfloor | vrnd | vmov | vnot | vfma | vfms | vsel | vclamp | vtrn | vbcr | vbcc | ktopr | ksort |
    vcmp | vcvt | vredr | vredc | vqnt | vdqnt | vvqd | vcomp | vscan | vrmg | tst | ktopc | kmerge | khist | kmark =>
    exact .of_leaves (fun _ _ _ => tileRun_mem _ _ _ _ _ _ _)
  | vfill => exact .of_leaves (.runVfill _)
  | mwr => exact .of_leaves (.runMwr _ _ _ _)
  | mma | mmaSp | mmaG => exact .mulRun _ _ _ _ _ _
  | xput | xacc => exact .of_leaves (.putRun _ _)
  | xmap | xswap => exact .of_leaves (.installMap _)
  | ringWfree => exact .of_leaves (.runRingWfree _)
  | ringPub => exact .of_leaves (.runRingPub _)
  | ringWfill => exact .of_leaves (.runRingWfill _)
  | ringRel => exact .of_leaves (.runRingRel _)
  | ringStat => exact .of_leaves (.runRingStat _)
  | stg => exact .of_leaves .runStg
  | cmp => exact .of_leaves (.runCmp _ _)
  | lds => exact .of_leaves .runLds
  | sts => exact .of_leaves .runSts
  | ldg => exact .of_leaves .runLdg
  | call => exact .of_leaves .runCall
  | endw => exact .of_leaves .runEndw
  | vget => exact .of_leaves (.runVget _)
  | vput => exact .of_leaves (.runVput _)
  | tld => exact .of_leaves (.runTld _)
  | tldX => exact .of_leaves (.runTldX _)
  | tkill => exact .of_leaves (.runTkill _)
  | vcbld => exact .of_leaves (.runVcbld _)
  | vrowm => exact .of_leaves (.runVrowm _)
  | mrd => exact .of_leaves (.runMrd _ _ _ _)
  | mclr => exact .of_leaves (.runMclr _)
  | xget => exact .of_leaves .runXget
  | xsend => exact .of_leaves .runXsend
  | xgat => exact .of_leaves .runXgat
  | xsca => exact .of_leaves (.runXsca _)
  | xat => exact .of_leaves (.runXat _ _)
  | xunmap => exact .of_leaves (.runXunmap _)
  | xrpl => exact .of_leaves .runXrpl
  | xrpf => exact .of_leaves .runXrpf
  | xred => exact .of_leaves .runXred
  | xgmap => exact .of_leaves .runXgmap
  | xgunmap => exact .of_leaves .runXgunmap
  | hdrain => exact .of_leaves .runHdrain
  | hpass => exact .of_leaves (.runHpass _)
  | hrecv => exact .of_leaves .runHrecv
  | ringInit => exact .of_leaves (.runRingInit _)
  | barArr => exact .of_leaves (.runBarArr _)
  | barWait => exact .of_leaves (.runBarWait _)
  | flagAdd => exact .of_leaves .runFlagAdd
  | flagSet => exact .of_leaves .runFlagSet
  | flagWait => exact .of_leaves .runFlagWait
  | klaunch => exact .of_leaves (.runKlaunch _)
  | tinv => exact .of_leaves .runTinv
  | ctxsave => exact .runCtxsave
  | ctxload => exact .runCtxload
  | spflush => exact .runSpflush
  | sacinv => exact .of_leaves .runSacinv
  | cntsnap => exact .of_leaves .runCntsnap
  | wfi => exact .of_leaves .runWfi
  | barcfg => exact .of_leaves (.runBarcfg _)
  | _ => exact .of_leaves .runNone

end Sys2Proof.Machine
end

section
/-! SUPPORT. Words and memory: what a word's passing capture does, and then every word's step (R205). -/

namespace Sys2Proof.Machine

/-- Where a result is a next state, the canonical form of memory is kept to it. -/
def StepKeeps (s : State) (r : Res) : Prop := ∀ t, r = .next t → KeepsMem s t

/-- A passing capture's own act that keeps the canonical form. -/
def ActKeeps (act : State → Nat → QWord → State) : Prop := ∀ s c w, KeepsMem s (act s c w)

theorem StepKeeps.next {s t : State} (h : KeepsMem s t) : StepKeeps s (.next t) := by
  intro u hu
  cases hu
  exact h

theorem StepKeeps.same (s : State) : StepKeeps s (.next s) := .next (.refl s)

theorem StepKeeps.fault (s : State) (f : Fault) : StepKeeps s (.fault f) := fun _ h => nomatch h

/-- A word keeps the form where its passing capture does. -/
theorem StepKeeps.issue {i : Instr} {sp : CapSpec} {chk : State → Nat → Ctx → QWord → Chk} {act : State → Nat → QWord → State} (ha : ActKeeps act)
    (s : State) : StepKeeps s (issue i sp chk act (runWord i) s) :=
  fun _ h => KeepsMem.issue ha (RunKeeps.runWord i) h

/-! ## Acts -/

theorem ActKeeps.noAct : ActKeeps noAct := fun s _ _ => .refl s

theorem ActKeeps.ctx (f : State → Nat → QWord → Ctx → Ctx) : ActKeeps (fun s c w => s.modCtx c (f s c w)) := fun _ _ _ => .modCtx _ _ _

theorem ActKeeps.touchRecord : ActKeeps touchRecord := by
  intro s c w
  unfold Sys2Proof.Machine.touchRecord
  split
  · exact .touchUnits _ _ _ _
  · exact .refl s

/-- A word that reads its record touches the record's unit, then writes its context. -/
theorem ActKeeps.record (f : QWord → Ctx → Ctx) : ActKeeps (fun s c w => (Machine.touchRecord s c w).modCtx c (f w)) :=
  fun s c w => (ActKeeps.touchRecord s c w).trans (.modCtx _ _ _)

theorem ActKeeps.markMap (slot : Nat) : ActKeeps (markMap slot) := ActKeeps.record _

theorem KeepsMem.noteCap (s : State) (c scope : Nat) : KeepsMem s (noteCap s c scope) := .of_eq (noteCap_mem s c scope)
theorem KeepsMem.captureEarly (s : State) (c : Nat) (x : Ctx) (e : Engine) (cause : Nat) (v : Dword) : KeepsMem s (captureEarly s c x e cause v) := by
  unfold Machine.captureEarly
  split
  · exact .refl s
  · split
    · exact .setStall _ _ _ _
    · exact .captureTrap _ _ _ _ _ _ _

/-! ## Words whose capture does more than its books -/

theorem StepKeeps.csrr (d : BitVec 6) (c : BitVec 12) (s : State) : StepKeeps s (execCsrr d c s) := by
  unfold execCsrr
  split
  · exact .same s
  · split
    · exact .next (.captureEarly _ _ _ _ _ _)
    · exact .issue .noAct s

theorem StepKeeps.csrw (a : BitVec 6) (c : BitVec 12) (s : State) : StepKeeps s (execCsrw a c s) := by
  unfold execCsrw
  split
  · exact .same s
  · split
    · exact .next (.captureEarly _ _ _ _ _ _)
    · exact .issue (fun s k w => .of_eq (csrWrite_mem s k c.toNat (op0 w))) s

theorem StepKeeps.xgmap (a : BitVec 6) (s : State) : StepKeeps s (execXgmap a s) := by
  refine .issue (fun s c w => ?_) s
  dsimp only
  split
  · exact .refl s
  · exact (ActKeeps.touchRecord s c w).trans (.of_eq rfl)

theorem StepKeeps.xgunmap (a : BitVec 6) (s : State) : StepKeeps s (execXgunmap a s) := by
  refine .issue (fun s c w => ?_) s
  split
  · exact .refl s
  · exact .modCore _ _ _

theorem StepKeeps.hjoin (d a b : BitVec 5) (k : BitVec 3) (s : State) : StepKeeps s (execHjoin d a b k s) := by
  refine .issue (fun s c w => ?_) s
  split
  · exact .refl s
  · exact (KeepsMem.noteCap _ _ _).trans (.modCtx _ _ _)

theorem StepKeeps.hdrain (a : BitVec 5) (k : BitVec 3) (s : State) : StepKeeps s (execHdrain a k s) :=
  .issue (fun s c _ => (KeepsMem.noteCap s c k.toNat).trans (.modCtx _ _ _)) s

theorem StepKeeps.eret (s : State) : StepKeeps s (execEret s) := .issue (fun s c _ => .of_eq (State.eret_mem s c)) s

end Sys2Proof.Machine
end

section
/-! SUPPORT. Events that leave memory as it is (R205): their steps, part by part. -/

namespace Sys2Proof.Machine

/-- A next state with the same memory keeps its form. -/
theorem StepKeeps.leaves {s t : State} (h : t.mem = s.mem) : StepKeeps s (.next t) := .next (.of_eq h)

/-- What a packet does when it has not been applied yet decides for the whole of its arrival (R211). -/
theorem StepKeeps.onPacket {s : State} {f : Packet → State} (id : Nat) (h : ∀ p, KeepsMem s (f p)) : StepKeeps s (onPacket id s f) := by
  refine .next ?_
  split
  · exact .refl s
  · next p _ =>
    split
    · exact (Fabric.answerDup s id p).keepsMem
    · exact h p

section
variable (s : State) (id c t : Nat)

/-! ## Strands -/

theorem StepKeeps.tokenSignal (e : Engine) : StepKeeps s (execTokenSignal c e s) := by
  refine .leaves ?_
  split
  · rfl
  · split <;> rfl

theorem StepKeeps.trapEntry : StepKeeps s (execTrapEntry c s) := by
  refine .next ?_
  split
  · exact .refl s
  · split
    · split
      · exact .enterTrap _ _ _
      · exact .refl s
    · exact .refl s

theorem StepKeeps.channelPopTimeout : StepKeeps s (execChannelPopTimeout c s) := by
  refine .next ?_
  split
  · exact .refl s
  · split
    · split
      · exact .captureTrap _ _ _ _ _ _ _
      · exact .refl s
    · exact .refl s

theorem StepKeeps.mapCacheFill (tag : Nat) : StepKeeps s (execMapCacheFill c t tag s) := by
  refine .leaves ?_
  split <;> rfl

/-! ## Packets and their commands -/

theorem StepKeeps.ackReceive : StepKeeps s (execAckReceive id s) := by
  refine .leaves ?_
  split
  · rfl
  · split
    · simp
    · rfl
    · rfl
    · split <;> simp
    · rfl

theorem StepKeeps.packetEviction (v : Nat) : StepKeeps s (execPacketEviction id v s) := by
  refine .leaves ?_
  split
  · split <;> rfl
  · rfl

theorem StepKeeps.packetResend : StepKeeps s (execPacketResend id s) := by
  refine .leaves ?_
  split
  · rfl
  · split
    · split <;> simp
    · split <;> rfl
    · rfl

theorem StepKeeps.ackTimeoutResend : StepKeeps s (execAckTimeoutResend id s) := by
  refine .leaves ?_
  split
  · rfl
  · split <;> rfl

theorem StepKeeps.rateLimitRelease : StepKeeps s (execRateLimitRelease id s) := by
  refine .leaves ?_
  split
  · rfl
  · split
    · dsimp only
      split
      · exact (State.pay_mem _ _ _).trans (State.setPkt_mem _ _ _)
      · rfl
    · rfl

theorem StepKeeps.sliceBlockRequest : StepKeeps s (execSliceBlockRequest id s) := by
  refine .onPacket id (fun p => .of_eq ?_)
  split
  · split <;> simp
  · rfl

theorem StepKeeps.xatReply : StepKeeps s (execXatReply id s) := by
  refine .leaves ?_
  split
  · rfl
  · split <;> simp

theorem StepKeeps.ldgReply : StepKeeps s (execLdgReply id s) := by
  refine .next ?_
  split
  · exact .refl s
  · split
    · split
      · exact .of_eq (by simp)
      · split
        · exact .of_eq (by simp)
        · dsimp only
          split
          · refine KeepsMem.trans ?_ (.raise _ _ _)
            exact .of_eq rfl
          · split
            · exact .refl s
            · exact .of_eq (by simp)
    · exact .of_eq rfl
    · exact .refl s

theorem StepKeeps.channelElementArrive : StepKeeps s (execChannelElementArrive id s) := by
  refine .onPacket id (fun p => .of_eq ?_)
  split
  · split
    · dsimp only
      split
      · simp
      · split <;> simp
    · rfl
  · rfl

theorem StepKeeps.channelCreditReturn : StepKeeps s (execChannelCreditReturn id s) := by
  refine .leaves ?_
  split
  · rfl
  · split <;> rfl

theorem StepKeeps.mailboxTicketArrive : StepKeeps s (execMailboxTicketArrive id s) := by
  refine .onPacket id (fun p => .of_eq ?_)
  split
  · split
    · simp
    · split <;> simp
  · rfl

theorem StepKeeps.ticketConfirm : StepKeeps s (execTicketConfirm id s) := by
  have hpay : ∀ (r : State) (k u q n : Nat), (r.payTicket k u q n).mem = r.mem := fun _ _ _ _ _ => rfl
  have hdup : ∀ p, (s.confirmDup id p).mem = s.mem := fun p => State.ackRemote_mem _ p
  refine .leaves ?_
  split
  · rfl
  · split
    · dsimp only
      split
      · split
        · exact hdup _
        · split
          · split <;> simp [hpay]
          · split <;> rfl
      · split <;> simp
      · rfl
    · rfl

theorem StepKeeps.globalMapInstallArrive : StepKeeps s (execGlobalMapInstallArrive id s) := by
  refine .onPacket id (fun p => .of_eq ?_)
  split
  · simp
  · simp
  · dsimp only
    split <;> simp [State.purgeMap]
  · simp
  · rfl

theorem StepKeeps.sacInvalidationArrive : StepKeeps s (execSacInvalidationArrive id s) := by
  refine .onPacket id (fun p => .of_eq ?_)
  split <;> simp

/-! ## Reductions and the step cache -/

theorem StepKeeps.reductionContribution : StepKeeps s (execReductionContribution id s) := by
  refine .onPacket id (fun p => .of_eq ?_)
  split
  · split
    · rfl
    · split
      · rfl
      · dsimp only
        split <;> simp
  · rfl

theorem StepKeeps.reductionTimeout (g : Nat) : StepKeeps s (execReductionTimeout g s) := by
  refine .leaves ?_
  dsimp only
  split <;> simp

theorem StepKeeps.reductionStatusDeliver : StepKeeps s (execReductionStatusDeliver id s) := by
  refine .leaves ?_
  split
  · rfl
  · split
    · split <;> simp
    · rfl
    · rfl

theorem StepKeeps.sacCheck : StepKeeps s (execSacCheck id s) := by
  refine .onPacket id (fun p => .of_eq ?_)
  split
  · dsimp only
    split
    · rfl
    · split <;> simp [State.unbusy_mem]
  · rfl

theorem StepKeeps.sacVerdictDeliver : StepKeeps s (execSacVerdictDeliver id s) := by
  refine .leaves ?_
  split
  · rfl
  · split
    · extract_lets waits hit s2 s3
      have h3 : s3.mem = s.mem := State.countVerdict_mem _ _ _ _
      split
      · rfl
      · split
        · rfl
        · split
          · exact h3
          · split <;> simp [h3]
    · rfl

/-! ## Launches and spans -/

theorem StepKeeps.launchHeadCheck (q : Nat) : StepKeeps s (execLaunchHeadCheck t q s) := by
  refine .leaves ?_
  split
  · rfl
  · split
    · rfl
    · split
      · rfl
      · split
        · simp
        · split <;> simp

theorem StepKeeps.spanEndComplete : StepKeeps s (execSpanEndComplete c s) := by
  refine .leaves ?_
  split
  · rfl
  · split <;> simp

theorem StepKeeps.launchComplete (lid : Nat) : StepKeeps s (execLaunchComplete t lid s) := by
  have hheads : ∀ r : State, (r.settleHeads t).mem = r.mem := State.mem_foldl (fun q k => State.settleHead_mem q t k) _
  refine .leaves ?_
  split
  · rfl
  · split
    · rfl
    · split
      · simp
      · split
        · rfl
        · split
          · rfl
          · simp [hheads]

theorem StepKeeps.barrierPhaseComplete (tag : Nat) : StepKeeps s (execBarrierPhaseComplete t tag s) := by
  refine .leaves ?_
  dsimp only
  split
  · rfl
  · split <;> rfl

theorem StepKeeps.controllerPeriod : StepKeeps s (execControllerPeriod s) := by
  refine .leaves ?_
  split
  · rfl
  · dsimp only
    rw [State.mem_foldl State.preemptFor_mem, State.mem_foldl (fun q k => State.moveBorder_mem q _ k), State.frontMoved_mem,
      State.mem_foldl (fun q d => State.setWants_mem q _ d), State.settleDeficits_mem]

/-! ## Registers -/

theorem StepKeeps.qbellWrite (q : Nat) (v : BitVec 64) : StepKeeps s (execQbellWrite t q v s) := by
  refine .leaves ?_
  split <;> simp

theorem StepKeeps.qstatClear (v : BitVec 64) : StepKeeps s (execQstatClear t v s) := by
  refine .leaves ?_
  split <;> rfl

theorem StepKeeps.cqidxHeadWrite (q : Nat) (v : BitVec 64) : StepKeeps s (execCqidxHeadWrite t q v s) := by
  refine .leaves ?_
  split <;> simp

theorem StepKeeps.oboxRead : StepKeeps s (execOboxRead t s) := by
  refine .leaves ?_
  split <;> rfl

theorem StepKeeps.iboxWrite (v : BitVec 64) : StepKeeps s (execIboxWrite t c v s) := by
  refine .leaves ?_
  split <;> simp

theorem StepKeeps.iboxovfClear (i : Nat) (v : BitVec 64) : StepKeeps s (execIboxovfClear t i v s) := by
  refine .leaves ?_
  split <;> rfl

@[simp] theorem State.writeMcgrp_mem (g i : Nat) (v : Dword) : (s.writeMcgrp t g i v).mem = s.mem := by
  unfold State.writeMcgrp
  split <;> rfl

theorem StepKeeps.mcgrpWrite (g i : Nat) (v : BitVec 64) : StepKeeps s (execMcgrpWrite t g i v s) := by
  refine .leaves ?_
  split <;> simp

theorem StepKeeps.rgselWrite (v : BitVec 64) : StepKeeps s (execRgselWrite t v s) := by
  refine .leaves ?_
  split <;> rfl

theorem StepKeeps.rgcommitWrite (v : BitVec 64) : StepKeeps s (execRgcommitWrite t v s) := by
  refine .leaves ?_
  split <;> rfl

theorem StepKeeps.vfEnable : StepKeeps s (execVfEnable t s) := by
  refine .leaves ?_
  split <;> rfl

theorem StepKeeps.rateLimitConfig (d : Nat) (v : BitVec 64) : StepKeeps s (execRateLimitConfig t d v s) := by
  refine .leaves ?_
  split <;> rfl

theorem StepKeeps.sacQuotaWrite (v : BitVec 64) : StepKeeps s (execSacQuotaWrite t v s) := by
  refine .leaves ?_
  dsimp only
  split
  · rfl
  · split <;> rfl

theorem StepKeeps.msixUnmask (vec : Nat) : StepKeeps s (execMsixUnmask t vec s) := by
  refine .leaves ?_
  split
  · dsimp only
    split <;> rfl
  · rfl

/-! ## The host, the ports and the device -/

@[simp] theorem State.takeHost_mem (k : PKind) : (s.takeHost k).mem = s.mem := by
  unfold State.takeHost
  split <;> rfl

theorem StepKeeps.hostMemRead (n : Nat) : StepKeeps s (execHostMemRead id n s) := by
  unfold execHostMemRead
  split
  · exact .same s
  · split
    · exact .fault s _
    · exact .leaves (State.takeHost_mem s _)

theorem StepKeeps.hostRecallResponse (l : Nat) : StepKeeps s (execHostRecallResponse l s) := by
  refine .leaves ?_
  split <;> rfl

theorem StepKeeps.falardFlitReplay (p : Nat) : StepKeeps s (execFalardFlitReplay p s) := by
  refine .leaves ?_
  split <;> rfl

theorem StepKeeps.falardRetrain (p : Nat) : StepKeeps s (execFalardRetrain p s) := by
  refine .leaves ?_
  dsimp only
  split <;> simp [State.setPort]

theorem StepKeeps.falardRetrainDone (p : Nat) (ok : Bool) : StepKeeps s (execFalardRetrainDone p ok s) := by
  refine .leaves ?_
  dsimp only
  split
  · rfl
  · split <;> simp [State.setPort]

theorem StepKeeps.falardPortFail (p : Nat) : StepKeeps s (execFalardPortFail p s) := by
  refine .leaves ?_
  split <;> simp [State.setPort]

theorem StepKeeps.deviceReset : StepKeeps s (execDeviceReset s) := by
  refine .leaves ?_
  dsimp only
  split <;> simp [State.restart]

theorem StepKeeps.firmwareLoadDone (ok : Bool) : StepKeeps s (execFirmwareLoadDone ok s) := by
  refine .leaves ?_
  split
  · split <;> rfl
  · rfl

theorem StepKeeps.hbmTrainingDone (ok : Bool) : StepKeeps s (execHbmTrainingDone ok s) := by
  refine .leaves ?_
  split
  · split <;> rfl
  · rfl

theorem StepKeeps.falardTrainingDone (up : BitVec 16) : StepKeeps s (execFalardTrainingDone up s) := by
  refine .leaves ?_
  split
  · refine State.mem_foldl (fun q p => ?_) _ _
    dsimp only
    split <;> simp [State.setPort]
  · rfl

theorem StepKeeps.powerLimitStep (w : Nat) : StepKeeps s (execPowerLimitStep w s) := by
  refine .leaves ?_
  split
  · rfl
  · split
    · rfl
    · split <;> rfl

theorem StepKeeps.thermalThrottle (d temp : Nat) : StepKeeps s (execThermalThrottle d temp s) := by
  refine .leaves ?_
  split
  · rfl
  · split <;> rfl

theorem StepKeeps.counterFlush : StepKeeps s (execCounterFlush s) := by
  refine .leaves ?_
  split <;> rfl

theorem StepKeeps.lifetimeLogUpdate (temps : List Nat) (w : Nat) : StepKeeps s (execLifetimeLogUpdate temps w s) := by
  refine .leaves ?_
  split <;> rfl

theorem StepKeeps.supplyDroop (d mv : Nat) : StepKeeps s (execSupplyDroop d mv s) := by
  refine .leaves ?_
  split <;> simp
end

end Sys2Proof.Machine
end

section
/-! SUPPORT. Events that store to memory keep its canonical form (R205): landing and dropping of blocks, stores at
slices, spills, saves and resumes, resets and power-off. -/

namespace Sys2Proof.Machine

theorem KeepsMem.ite {p : Prop} [Decidable p] {s t u : State} (ht : KeepsMem s t) (hu : KeepsMem s u) : KeepsMem s (if p then t else u) := by
  split
  · exact ht
  · exact hu

/-! ## Words that start or are tried again -/

theorem StepKeeps.wordStart (c : Nat) (e : Engine) (s : State) : StepKeeps s (execWordStart c e s) := by
  refine .next ?_
  split
  · exact .resumeWord (RunKeeps.runWord _) _ _ _
  · exact .refl s
  · split
    · exact .resumeWord (RunKeeps.runWord _) _ _ _
    · split
      · exact .refl s
      · split
        · exact .startWord (RunKeeps.runWord _) _ _ _
        · split
          · exact .refl s
          · exact .of_eq rfl

theorem KeepsMem.retry (s : State) (c : Nat) (p : QWord → Bool) : KeepsMem s (s.retry c p) := by
  unfold State.retry
  split
  · exact .refl s
  · split
    · exact .resumeWord (RunKeeps.runWord _) _ _ _
    · exact .refl s

/-! ## Blocks at cores (R171-R185) -/

theorem KeepsMem.bindBlock {s t : State} {c cmd row : Nat} {h : Hdr} {src : Leaf} {cols : List Nat} {b : OpenBlk}
    (hb : bindBlock s c h cmd src row cols = some (t, b)) : KeepsMem s t := by
  have hn : ∀ (l : List (Nat × Rec512)) (uid : Nat), KeepsMem s (if 2 ≤ l.length then (s.count c evMAPDUP 1).stickAt c uid stMAPDUP else s) := by
    intro l uid
    split
    · exact (KeepsMem.count _ _ _ _).trans (.stickAt _ _ _ _)
    · exact .refl s
  unfold Machine.bindBlock at hb
  dsimp only at hb
  split at hb
  · cases hb; exact .refl s
  · split at hb
    · cases hb; exact .refl s
    · split at hb
      · cases hb; exact hn _ _
      · split at hb
        · cases hb
        · split at hb
          · split at hb
            · cases hb
            · cases hb; exact (hn _ _).trans (.modCtxOf _ _ _ _)
          · split at hb
            · cases hb
            · cases hb; exact hn _ _

theorem KeepsMem.blockFor {s t : State} {c row : Nat} {p : Packet} {h : Hdr} {cols : List Nat} {b : OpenBlk}
    (hb : s.blockFor c p h row cols = some (t, b)) : KeepsMem s t := by
  unfold State.blockFor at hb
  split at hb
  · split at hb
    · cases hb
    · cases hb; exact .refl s
  · exact .bindBlock hb

theorem KeepsMem.landOrDrop (s : State) (c : Nat) (b : OpenBlk) (h : Hdr) (t : Beat) : KeepsMem s (landOrDrop s c b h t).1 := by
  unfold Machine.landOrDrop
  split
  · exact .landBeat _ _ _ _ _ _ _ _
  · exact .dropBeat _ _ _

theorem KeepsMem.arriveAtCore (s : State) (id : Nat) (p : Packet) (c : Nat) : KeepsMem s (arriveAtCore s id p c) := by
  have go : ∀ (h : Hdr) (row : Nat) (cols : List Nat) (f : State → OpenBlk → State × OpenBlk), (∀ r b, KeepsMem r (f r b).1) →
      KeepsMem s (if (Map.at? s.applied h.blk).isSome then s.answerDup id p
        else match s.blockFor c p h row cols with
          | none => s.refuse id p
          | some (s1, b) =>
            if (Map.at? (s.core c).blks h.blk).isNone && b.ringOf.any (fun g => s.wfreeReady c g.1 g.2) then s
            else
              let r := f ((s1.unsend id).noteApplied p (.ack p.seq [] {})) b
              r.1.setBlk c h.blk r.2) := by
    intro h row cols f hf
    split
    · exact (Fabric.answerDup s id p).keepsMem
    · split
      · exact .of_eq rfl
      · next s1 b hb =>
        split
        · exact .refl s
        · exact (KeepsMem.blockFor hb).trans ((Fabric.noteApplied (s1.unsend id) p _).keepsMem.trans (hf _ b))
  unfold Machine.arriveAtCore
  dsimp only
  split
  · exact go _ _ _ _ (fun r b => .landOrDrop r c b _ _)
  · exact go _ _ _ (fun s1 b => (s1, b.closed _ _)) (fun r _ => .refl r)
  · exact .refl s

theorem StepKeeps.beatArrival (id : Nat) (s : State) : StepKeeps s (execBeatArrival id s) := by
  refine .onPacket id (fun p => ?_)
  split
  · exact .arriveAtCore _ _ _ _
  · exact .of_eq (arriveClose_mem s id p)
  · exact .refl s

theorem StepKeeps.blockComplete (c k : Nat) (s : State) : StepKeeps s (execBlockComplete c k s) := by
  refine .next ?_
  split
  · exact .refl s
  · split
    · exact .completeBlock _ _ _ _
    · exact .refl s

theorem StepKeeps.unitFirstTouch (c u : Nat) (s : State) : StepKeeps s (execUnitFirstTouch c u s) := by
  refine .next ?_
  split
  · exact .refl s
  · split
    · exact .touchUnit _ _ _ _
    · exact .refl s

theorem StepKeeps.unitSpillComplete (c u : Nat) (s : State) : StepKeeps s (execUnitSpillComplete c u s) := by
  refine .next ?_
  split
  · exact .spillUnit _ _ _
  · exact .refl s

/-! ## Stores at slices and flags (R158, R228) -/

theorem KeepsMem.sliceBeat (s : State) (id : Nat) (p : Packet) (h : Hdr) (i : AckInfo) (d : Bool) : KeepsMem s (s.sliceBeat id p h i d) :=
  .of_eq (State.sliceBeat_mem s id p h i d)

/-- The cells of a beat stored, then marked sound. -/
theorem KeepsMem.putCells (s : State) (t tag wd : Nat) (cells : List (Nat × Nat)) (bs : List (Nat × Nat)) :
    KeepsMem s (Machine.cleanGlob (cells.foldl (fun q e => Machine.putGlob q t tag e.1 wd e.2) s) t tag bs) := by
  refine KeepsMem.trans ?_ (.cleanGlob _ _ _ _)
  exact KeepsMem.foldl (fun q (e : Nat × Nat) => Machine.putGlob q t tag e.1 wd e.2) (fun q e => .putGlob q t tag e.1 wd e.2) cells s

theorem KeepsMem.poisonCells (t tag wd : Nat) (cells : List (Nat × Nat)) (s : State) :
    KeepsMem s (cells.foldl (fun q e => Machine.poisonGlob q t tag e.1 wd) s) :=
  KeepsMem.foldl (fun q e => Machine.poisonGlob q t tag e.1 wd) (fun _ _ => .poisonGlob _ _ _ _ _) cells s

theorem StepKeeps.slicePutBeat (id : Nat) (s : State) : StepKeeps s (execSlicePutBeat id s) := by
  refine .onPacket id (fun p => ?_)
  split
  · split
    · exact .sliceBeat _ _ _ _ _ _
    · dsimp only
      refine KeepsMem.trans ?_ (.sliceBeat _ _ _ _ _ _)
      split
      · exact (KeepsMem.putCells _ _ _ _ _ _).trans (.poisonCells _ _ _ _ _)
      · exact .putCells _ _ _ _ _ _
  · exact .refl s

theorem StepKeeps.sliceAccumulate (id : Nat) (s : State) : StepKeeps s (execSliceAccumulate id s) := by
  refine .onPacket id (fun p => ?_)
  split
  · split
    · exact .refl s
    · split
      · exact .sliceBeat _ _ _ _ _ _
      · dsimp only
        split
        · refine KeepsMem.trans ?_ (.sliceBeat _ _ _ _ _ _)
          exact .poisonCells _ _ _ _ _
        · refine KeepsMem.trans ?_ (.sliceBeat _ _ _ _ _ _)
          exact .accumCells _ _ _ _ _ _ _
  · exact .refl s

theorem StepKeeps.sliceAtomic (id : Nat) (s : State) : StepKeeps s (execSliceAtomic id s) := by
  refine .onPacket id (fun p => ?_)
  split
  · dsimp only
    split
    · exact (Fabric.answer _ _ _ _).keepsMem
    · exact ((KeepsMem.writeN _ _ _ _).trans (Settled.noteLines _ _ _).keepsMem).trans (Fabric.answer _ _ _ _).keepsMem
  · exact .refl s

theorem StepKeeps.sliceScalarAccess (id : Nat) (s : State) : StepKeeps s (execSliceScalarAccess id s) := by
  refine .onPacket id (fun p => ?_)
  split
  · exact (Fabric.answer _ _ _ _).keepsMem
  · exact ((KeepsMem.writeN _ _ _ _).trans (.cleanMem _ _ _)).trans (Fabric.ackPkt _ _ _ _).keepsMem
  · exact .refl s

/-- A flag packet keeps the form where what it writes does. -/
theorem StepKeeps.onFlag {s : State} {f : State → Nat → Ctx → Packet → Option State} (id : Nat) (h : ∀ c x p t, f s c x p = some t → KeepsMem s t) :
    StepKeeps s (onFlag id s f) := by
  refine .onPacket id (fun p => ?_)
  split
  · split
    · split
      · exact (Fabric.ackPkt _ _ _ _).keepsMem
      · exact .refl s
    · split
      · next s1 hs1 => exact (h _ _ _ _ hs1).trans (Fabric.ackPkt _ _ _ _).keepsMem
      · exact .refl s
  · exact .refl s

theorem StepKeeps.flagAddApply (id : Nat) (s : State) : StepKeeps s (execFlagAddApply id s) := by
  refine .onFlag id (fun c x p t ht => ?_)
  split at ht
  · cases ht; exact .putFlag _ _ _ _ _
  · cases ht

theorem StepKeeps.flagSetApply (id : Nat) (s : State) : StepKeeps s (execFlagSetApply id s) := by
  refine .onFlag id (fun c x p t ht => ?_)
  split at ht
  · cases ht; exact .putFlag _ _ _ _ _
  · cases ht

theorem StepKeeps.cntsnapRequestArrive (id : Nat) (s : State) : StepKeeps s (execCntsnapRequestArrive id s) := by
  refine .onPacket id (fun p => ?_)
  split
  · refine KeepsMem.trans ?_ (Fabric.ackPkt _ _ _ _).keepsMem
    have h : ∀ (t : State) (ts : Map Tenant) (n : Nat), KeepsMem t { t with tenants := ts, freeCtr := n } := fun _ _ _ => .of_eq rfl
    exact (((KeepsMem.writeBytes _ _ _).trans (.cleanMem _ _ _)).trans (.writeBytes _ _ _)).trans (h _ _ _)
  · exact .refl s

theorem StepKeeps.sacFill (id : Nat) (s : State) : StepKeeps s (execSacFill id s) := by
  have hb : ∀ p, KeepsMem s (s.unbusy p) := fun p => .of_eq (State.unbusy_mem s p)
  have hc : ∀ (r : State) (t k n : Nat), KeepsMem r (r.sacCount t k n) := fun r t k n => .of_eq (State.sacCount_mem r t k n)
  have hw : ∀ p a et vs b et' vs' (m : Map SacEnt), KeepsMem s
      { sacWrite (sacWrite (s.unbusy p) p.tenant a et vs) p.tenant b et' vs' with sac := m } := fun p _ _ _ _ _ _ _ =>
    KeepsMem.trans (hb p) (KeepsMem.trans (.sacWrite _ _ _ _ _) (KeepsMem.trans (.sacWrite _ _ _ _ _) (.of_eq rfl)))
  refine .onPacket id (fun p => ?_)
  split
  · dsimp only
    split
    · exact .refl s
    · split
      · refine KeepsMem.trans (KeepsMem.trans ?_ (hc _ _ _ _)) (Fabric.ackPkt _ _ _ _).keepsMem
        split
        · exact hb p
        · exact hb p
      · split
        · exact ((hb p).trans (hc _ _ _ _)).trans (Fabric.ackPkt _ _ _ _).keepsMem
        · refine KeepsMem.trans (KeepsMem.trans ?_ (hc _ _ _ _)) (Fabric.ackPkt _ _ _ _).keepsMem
          split
          · refine KeepsMem.trans ?_ (hc _ _ _ _)
            exact hw p _ _ _ _ _ _ _
          · exact hw p _ _ _ _ _ _ _
  · exact .refl s

/-! ## Spans (R290-R297) -/

theorem KeepsMem.claimSpill (s : State) (c : Nat) (us : List Nat) : KeepsMem s (s.claimSpill c us) := by
  unfold State.claimSpill
  split
  · exact .refl s
  · exact .touchUnits _ _ _ _

theorem KeepsMem.startSpan (s : State) (c t lid : Nat) (l : Launch) (v : List Nat) (n : Nat) : KeepsMem s (startSpan s c t lid l v n) :=
  KeepsMem.trans (.claimSpill s c _) (.of_eq rfl)

theorem KeepsMem.placeGang (s : State) (v : Served) (cs : List (Nat × List Nat)) : KeepsMem s (placeGang s v cs) := by
  unfold Machine.placeGang
  split
  · exact .of_eq (State.frontError_mem _ _ _ _)
  · refine KeepsMem.trans (KeepsMem.foldl _ (fun q p => .startSpan q p.1.1 v.tenant v.lid v.l p.1.2 p.2) cs.zipIdx s) (.of_eq ?_)
    simp

theorem KeepsMem.handOver (s : State) (c : Nat) : KeepsMem s (s.handOver c) := by
  unfold State.handOver
  split
  · exact .refl s
  · next v k due _ =>
    split
    · exact .refl s
    · dsimp only
      split
      · split
        · exact .refl s
        · refine KeepsMem.trans ?_ (.placeGang _ _ _)
          exact .of_eq (State.modTenant_mem s v.tenant (fun t => { t with rrobin := v.queue }))
      · split
        · exact .refl s
        · refine KeepsMem.trans (KeepsMem.trans ?_ (.startSpan _ _ _ _ _ _ _)) (.of_eq (State.advance_mem _ _ _ _ _))
          exact .of_eq (State.modTenant_mem s v.tenant (fun t => { t with rrobin := v.queue }))

theorem StepKeeps.spanHandoff (c : Nat) (s : State) : StepKeeps s (execSpanHandoff c s) := by
  refine .next ?_
  split
  · exact .of_eq (State.frontError_mem _ _ _ _)
  · exact .handOver _ _

theorem KeepsMem.saveSpan (s : State) (c : Nat) (x : Ctx) (q : Nat × Nat) : KeepsMem s (s.saveSpan c x q) := by
  unfold State.saveSpan
  extract_lets y a s1 s2 s3 s4
  have h1 : KeepsMem s s1 := .writeImage _ _ _ _ _ _ _
  have h4 : s4.mem = s1.mem := by
    show (State.use (State.modTenant (State.count s3 c evPREEMPT 1) _ _) _ _ _).mem = s1.mem
    rw [State.use_mem, State.modTenant_mem, State.count_mem]
    rfl
  exact h1.trans (.of_eq ((State.endLoans_mem _ _ _).trans h4))

theorem StepKeeps.immediateSave (c : Nat) (s : State) : StepKeeps s (execImmediateSave c s) := by
  refine .next ?_
  split
  · split
    · exact .saveSpan _ _ _ _
    · exact .refl s
  · exact .refl s

theorem KeepsMem.sideBack (s : State) (c t : Nat) : KeepsMem s (s.sideBack c t) := by
  refine KeepsMem.foldl _ (fun q u => ?_) _ s
  dsimp only
  split
  · exact .refl q
  · exact (KeepsMem.spillUnit _ _ _).trans (.modCore _ _ _)

theorem KeepsMem.resumeSpan (s : State) (c : Nat) : KeepsMem s (s.resumeSpan c) := by
  unfold State.resumeSpan
  split
  · exact .refl s
  · refine KeepsMem.trans (KeepsMem.trans ?_ (.sideBack _ _ _)) (.modCore _ _ _)
    exact .of_eq rfl

theorem StepKeeps.spanResume (c : Nat) (s : State) : StepKeeps s (execSpanResume c s) := by
  refine .next ?_
  split
  · exact .refl s
  · dsimp only
    split
    · exact KeepsMem.foldl _ .resumeSpan _ s
    · exact .refl s

/-! ## Registers, the host, resets and power -/

theorem KeepsMem.storeSpdata (s : State) (t : Nat) (v : Dword) : KeepsMem s (s.storeSpdata t v) := by
  unfold State.storeSpdata
  dsimp only
  split
  · exact .of_eq rfl
  · exact (KeepsMem.storeRow _ _ _ _ _).trans (.modTenant _ _ _)

theorem StepKeeps.spdataStore (t : Nat) (v : BitVec 64) (s : State) : StepKeeps s (execSpdataStore t v s) := by
  refine .next ?_
  split
  · exact .storeSpdata _ _ _
  · exact .refl s

@[simp] theorem State.stage_mem (s : State) (t i : Nat) (v : Dword) : (s.stage t i v).mem = s.mem := by
  unfold State.stage
  split <;> rfl

/-- A tenant's register write (R322-R329) reaches memory only through SPDATA, whose row may be a spilled one. -/
theorem KeepsMem.vfWrite (s : State) (t off : Nat) (v : Dword) : KeepsMem s (s.vfWrite t off v) := by
  unfold State.vfWrite
  refine .ite (.of_eq (State.doorbell_mem _ _ _ _)) (.ite (.of_eq rfl) (.ite ?_ ?_))
  · exact .ite (.modTenant _ _ _) (.of_eq (State.writeHead_mem _ _ _ _))
  refine .ite (.modTenant _ _ _) (.ite (.of_eq (State.writeIbox_mem _ _ _ _)) (.ite (.of_eq rfl) (.ite (.modCore _ _ _) ?_)))
  refine .ite (.of_eq (State.writeMcgrp_mem _ _ _ _ _)) (.ite (.of_eq rfl) (.ite (.of_eq rfl) (.ite (.of_eq (State.stage_mem _ _ _ _)) ?_)))
  exact .ite (.modTenant _ _ _) (.ite (.storeSpdata _ _ _) (.ite (.modTenant _ _ _) (.refl s)))

theorem KeepsMem.manage (s : State) (t : Nat) (f : Tenant → Tenant) : KeepsMem s (s.manage t f) := .of_eq (State.manage_mem s t f)

theorem StepKeeps.registerWrite (w : RegWrite) (s : State) : StepKeeps s (execRegisterWrite w s) := by
  refine .next ?_
  cases w with
  | vf t off width v =>
    dsimp only
    split
    · exact .refl s
    · split
      · exact .of_eq rfl
      · exact .vfWrite _ _ _ _
  | ptbase | tenctl | scap | qmax | weight | window => exact .manage _ _ _
  | floorCap | queueCap | endpoint =>
    dsimp only
    split
    · exact .refl s
    · exact .manage _ _ _
  | rgOwner | powerLimit | msixMask =>
    dsimp only
    split
    · exact .of_eq rfl
    · exact .refl s

theorem StepKeeps.hostMemWrite (pa : Nat) (bs : List (BitVec 8)) (s : State) : StepKeeps s (execHostMemWrite pa bs s) := by
  unfold execHostMemWrite
  split
  · exact .same s
  · split
    · exact .fault s _
    · exact .next ((KeepsMem.of_eq (State.takeHost_mem s _)).trans ((KeepsMem.writeBytes _ _ _).trans (.cleanMem _ _ _)))

theorem KeepsMem.landParts (s : State) (t : Nat) : KeepsMem s (s.landParts t) := by
  refine KeepsMem.foldl _ (fun q k => KeepsMem.foldl _ (fun r b => ?_) _ q) _ s
  split
  · exact KeepsMem.foldl _ (fun u i => .landRow u k.1 _ i _) _ r
  · exact .refl r

theorem KeepsMem.resetCores (s : State) (t : Nat) : KeepsMem s (s.resetCores t) := KeepsMem.trans (.landParts s t) (.of_eq rfl)

theorem State.pinSaves_mem (s : State) (t : Nat) : (s.pinSaves t).mem = s.mem := rfl

theorem StepKeeps.vfReset (t : Nat) (s : State) : StepKeeps s (execVfReset t s) := by
  refine .next ?_
  split
  · exact .refl s
  · have h : KeepsMem s ((s.resetLaunches t).resetCores t) := KeepsMem.trans (.of_eq (State.resetLaunches_mem s t)) (.resetCores _ t)
    refine h.trans (.of_eq ?_)
    rw [State.frontMoved_mem, State.pinSaves_mem, State.resetShared_mem, State.resetCommands_mem]

/-- No byte is listed once the power is off (R316). -/
theorem KeepsMem.powerOff (s t : State) : KeepsMem s t.powerOff := fun _ => rfl

theorem KeepsMem.powerLost (s t : State) : KeepsMem s t.powerLost := fun _ => rfl

theorem StepKeeps.abruptPowerLoss (s : State) : StepKeeps s (execAbruptPowerLoss s) := by
  refine .next ?_
  split
  · exact .powerLost s s
  · exact .refl s

theorem StepKeeps.orderlyPowerOff (s : State) : StepKeeps s (execOrderlyPowerOff s) := by
  refine .next ?_
  split
  · exact .powerOff s _
  · exact .refl s

theorem StepKeeps.thermalShutdown (temp flow : Nat) (s : State) : StepKeeps s (execThermalShutdown temp flow s) := by
  refine .next ?_
  split
  · exact .powerLost s _
  · exact .refl s

end Sys2Proof.Machine
end

section
/-! SUPPORT. Every instruction and event, and every step of the device, keeps the canonical form of memory (R205, R318).
Settles O59. -/

namespace Sys2Proof.Machine

theorem StepKeeps.hdrainComplete (c : Nat) (s : State) : StepKeeps s (execHdrainComplete c s) := .next (.retry s c _)

theorem StepKeeps.flagWaitRetest (c : Nat) (s : State) : StepKeeps s (execFlagWaitRetest c s) := .next (.retry s c _)

/-- What any instruction or event does: the last case is the words whose capture does no more than its books. -/
theorem StepKeeps.exec (i : Instr) (s : State) : StepKeeps s (exec i s) := by
  cases i with
  | wordStart => exact .wordStart _ _ _
  | tokenSignal => exact .tokenSignal _ _ _
  | hdrainComplete => exact .hdrainComplete _ _
  | flagWaitRetest => exact .flagWaitRetest _ _
  | trapEntry => exact .trapEntry _ _
  | channelPopTimeout => exact .channelPopTimeout _ _
  | mapCacheFill => exact .mapCacheFill _ _ _ _
  | unitFirstTouch => exact .unitFirstTouch _ _ _
  | unitSpillComplete => exact .unitSpillComplete _ _ _
  | beatArrival => exact .beatArrival _ _
  | blockComplete => exact .blockComplete _ _ _
  | ackReceive => exact .ackReceive _ _
  | packetEviction => exact .packetEviction _ _ _
  | packetResend => exact .packetResend _ _
  | ackTimeoutResend => exact .ackTimeoutResend _ _
  | rateLimitRelease => exact .rateLimitRelease _ _
  | slicePutBeat => exact .slicePutBeat _ _
  | sliceAccumulate => exact .sliceAccumulate _ _
  | sliceBlockRequest => exact .sliceBlockRequest _ _
  | sliceAtomic => exact .sliceAtomic _ _
  | xatReply => exact .xatReply _ _
  | sliceScalarAccess => exact .sliceScalarAccess _ _
  | ldgReply => exact .ldgReply _ _
  | flagAddApply => exact .flagAddApply _ _
  | flagSetApply => exact .flagSetApply _ _
  | channelElementArrive => exact .channelElementArrive _ _
  | channelCreditReturn => exact .channelCreditReturn _ _
  | mailboxTicketArrive => exact .mailboxTicketArrive _ _
  | ticketConfirm => exact .ticketConfirm _ _
  | globalMapInstallArrive => exact .globalMapInstallArrive _ _
  | sacInvalidationArrive => exact .sacInvalidationArrive _ _
  | cntsnapRequestArrive => exact .cntsnapRequestArrive _ _
  | reductionContribution => exact .reductionContribution _ _
  | reductionTimeout => exact .reductionTimeout _ _
  | reductionStatusDeliver => exact .reductionStatusDeliver _ _
  | sacCheck => exact .sacCheck _ _
  | sacVerdictDeliver => exact .sacVerdictDeliver _ _
  | sacFill => exact .sacFill _ _
  | launchHeadCheck => exact .launchHeadCheck _ _ _
  | spanHandoff c => exact .spanHandoff c s
  | spanEndComplete => exact .spanEndComplete _ _
  | launchComplete => exact .launchComplete _ _ _
  | barrierPhaseComplete => exact .barrierPhaseComplete _ _ _
  | controllerPeriod => exact .controllerPeriod _
  | immediateSave => exact .immediateSave _ _
  | spanResume => exact .spanResume _ _
  | qbellWrite => exact .qbellWrite _ _ _ _
  | qstatClear => exact .qstatClear _ _ _
  | cqidxHeadWrite => exact .cqidxHeadWrite _ _ _ _
  | oboxRead => exact .oboxRead _ _
  | iboxWrite => exact .iboxWrite _ _ _ _
  | iboxovfClear => exact .iboxovfClear _ _ _ _
  | mcgrpWrite => exact .mcgrpWrite _ _ _ _ _
  | rgselWrite => exact .rgselWrite _ _ _
  | rgcommitWrite t v => exact .rgcommitWrite s t v
  | spdataStore => exact .spdataStore _ _ _
  | vfEnable => exact .vfEnable _ _
  | rateLimitConfig => exact .rateLimitConfig _ _ _ _
  | sacQuotaWrite => exact .sacQuotaWrite _ _ _
  | registerWrite => exact .registerWrite _ _
  | msixUnmask => exact .msixUnmask _ _ _
  | hostMemRead => exact .hostMemRead _ _ _
  | hostMemWrite => exact .hostMemWrite _ _ _
  | hostRecallResponse => exact .hostRecallResponse _ _
  | vfReset => exact .vfReset _ _
  | falardFlitReplay => exact .falardFlitReplay _ _
  | falardRetrain => exact .falardRetrain _ _
  | falardRetrainDone => exact .falardRetrainDone _ _ _
  | falardPortFail => exact .falardPortFail _ _
  | deviceReset => exact .deviceReset _
  | firmwareLoadDone => exact .firmwareLoadDone _ _
  | hbmTrainingDone => exact .hbmTrainingDone _ _
  | falardTrainingDone => exact .falardTrainingDone _ _
  | powerLimitStep => exact .powerLimitStep _ _
  | thermalThrottle => exact .thermalThrottle _ _ _
  | counterFlush => exact .counterFlush _
  | abruptPowerLoss => exact .abruptPowerLoss _
  | orderlyPowerOff => exact .orderlyPowerOff _
  | thermalShutdown => exact .thermalShutdown _ _ _
  | lifetimeLogUpdate => exact .lifetimeLogUpdate _ _ _
  | supplyDroop => exact .supplyDroop _ _ _
  | tshape | br | jmp | call | jr | loopT | loopRp | endw | mscl | msclOff | xunmap | hnew | hfork | hfree | hpass | hrecv |
    ringWfree | ringPub | ringWfill | ringRel | ringStat => exact .issue (.ctx _) s
  | xdesc | xmw | ringInit => exact .issue (.record _) s
  | xmap | xswap => exact .issue (.markMap _) s
  | barcfg => exact .issue .touchRecord s
  | csrr => exact .csrr _ _ s
  | csrw => exact .csrw _ _ s
  | xgmap => exact .xgmap _ s
  | xgunmap => exact .xgunmap _ s
  | hjoin => exact .hjoin _ _ _ _ s
  | hdrain => exact .hdrain _ _ s
  | eret => exact .eret s
  | _ => exact .issue .noAct s

/-! ## Capture -/

theorem fetchPa_mem {s t : State} {c u va pa : Nat} (h : fetchPa s c u va = .ok (pa, t)) : t.mem = s.mem := by
  unfold fetchPa at h
  split at h
  · cases h
  · split at h
    · split at h
      · cases h; rfl
      · cases h
    · split at h
      · cases h
      · split at h
        · cases h; rfl
        · cases h

theorem fetchWord_mem {s t : State} {c u va : Nat} {w : Word} (h : fetchWord s c u va = .ok (w, t)) : t.mem = s.mem := by
  unfold fetchWord at h
  split at h
  · cases h
  · next pa s1 hpa =>
    dsimp only at h
    have hs1 := fetchPa_mem hpa
    split at h <;> cases h <;> exact hs1

theorem checkGroup_mem {s t : State} {x : Ctx} {addr waddr : Nat} {p : Pfx} {pre : List Word} {w : Word} {g : Grp} {i : Instr}
    (h : checkGroup s x addr waddr p pre w = .group g i t) : t.mem = s.mem := by
  unfold checkGroup at h
  split at h
  · cases h
  · split at h
    · cases h
    · split at h
      · cases h
      · cases h; rfl

/-- Fetching a group fills the instruction cache and the translation buffer, nothing of memory. -/
theorem gather_mem {t : State} {c : Nat} {x : Ctx} {addr : Nat} {g : Grp} {i : Instr} :
    ∀ {n : Nat} {s : State} {a : Nat} {p : Pfx} {pre : List Word}, gather s c x addr n a p pre = .group g i t → t.mem = s.mem
  | 0, _, _, _, _, h => by cases h
  | n + 1, s, a, p, pre, h => by
    unfold gather at h
    split at h
    · cases h
    · next w s1 hw =>
      split at h
      · split at h
        · cases h
        · exact (gather_mem h).trans (fetchWord_mem hw)
      · exact (checkGroup_mem h).trans (fetchWord_mem hw)

theorem StepKeeps.of_keeps {s t : State} {r : Res} (h : KeepsMem s t) (hr : StepKeeps t r) : StepKeeps s r := fun u hu => h.trans (hr u hu)

theorem StepKeeps.captureStep (c : Nat) (eager : Bool) (s : State) : StepKeeps s (captureStep c eager s) := by
  unfold Machine.captureStep
  split
  · exact .same s
  · split
    · exact .same s
    · split
      · next g i s1 hg => exact .of_keeps ((KeepsMem.of_eq (gather_mem hg)).trans (.of_eq (State.modCtx_mem _ _ _))) (.exec i _)
      · exact .next (.captureEarly _ _ _ _ _ _)

/-! ## Saved images kept up with their spans -/

theorem KeepsMem.noteImage (s t : State) (c : Nat) (x y : Ctx) : KeepsMem t (s.noteImage t c x y) := by
  unfold State.noteImage
  dsimp only
  split
  · exact .refl t
  · refine KeepsMem.trans (KeepsMem.trans ?_ (.writeRegions _ _ _)) (.writeN _ _ _ _)
    exact .of_eq rfl

theorem KeepsMem.noteImages (s t : State) : KeepsMem t (s.noteImages t) := by
  refine KeepsMem.foldl _ (fun q p => ?_) _ t
  split
  · split
    · exact .noteImage _ _ _ _ _
    · exact .refl q
  · exact .refl q

theorem StepKeeps.noted {s : State} {r : Res} (u : State) (h : StepKeeps s r) : StepKeeps s (noted u r) := by
  cases r with
  | next t => exact .next ((h t rfl).trans (.noteImages u t))
  | fault f => exact .fault s f
  | _ => exact fun _ h => nomatch h

/-! ## Moves of the device's own -/

/-- A move that keeps the form from every state. -/
def MoveKeeps (f : State → Res) : Prop := ∀ s, StepKeeps s (f s)

theorem packetMove_keeps (id : Nat) (p : Packet) : MoveKeeps (packetMove id p) := by
  unfold packetMove
  cases p.st with
  | held => exact fun s => .rateLimitRelease s id
  | evicted | refused => exact fun s => .packetResend s id
  | flying =>
    dsimp only
    split
    · exact fun s => .ticketConfirm s id
    · exact fun s => .ackReceive s id
    · exact fun s => .sliceBlockRequest s id
    · exact fun s => .beatArrival id s
    · exact fun s => .beatArrival id s
    · exact fun s => .beatArrival id s
    · exact fun s => .beatArrival id s
    · exact fun s => .slicePutBeat id s
    · exact fun s => .sliceAccumulate id s
    · exact fun s => .sliceAtomic id s
    · exact fun s => .xatReply s id
    · exact fun s => .sliceScalarAccess id s
    · exact fun s => .sliceScalarAccess id s
    · exact fun s => .ldgReply s id
    · exact fun s => .ackReceive s id
    · exact fun s => .flagAddApply id s
    · exact fun s => .flagSetApply id s
    · exact fun s => .channelElementArrive s id
    · exact fun s => .channelCreditReturn s id
    · exact fun s => .mailboxTicketArrive s id
    · exact fun s => .reductionContribution s id
    · exact fun s => .reductionStatusDeliver s id
    · split
      · exact fun s => .sacCheck s id
      · exact fun s => .beatArrival id s
    · split
      · exact fun s => .sacFill id s
      · exact fun s => .beatArrival id s
    · exact fun s => .sacVerdictDeliver s id
    · exact fun s => .globalMapInstallArrive s id
    · exact fun s => .globalMapInstallArrive s id
    · exact fun s => .sacInvalidationArrive s id
    · exact fun s => .cntsnapRequestArrive id s
    · exact fun s => .hostMemRead s _ _
    · exact fun s => .hostMemWrite _ _ s

theorem coreMoves_keep (c : Nat) (k : Core) : ∀ f ∈ coreMoves c k, MoveKeeps f := by
  intro f hf
  simp only [coreMoves, List.mem_append, List.mem_map, List.mem_flatMap, List.mem_cons, List.not_mem_nil, or_false] at hf
  obtain ((((⟨b, -, rfl⟩ | rfl | rfl | rfl | rfl | rfl) | ⟨e, -, rfl | rfl⟩) | rfl) | hfill) | ⟨u, -, rfl⟩ := hf
  · exact .blockComplete c b.1
  · exact fun s => .trapEntry s c
  · exact .immediateSave c
  · exact .spanResume c
  · exact .spanHandoff c
  · exact fun s => .spanEndComplete s c
  · exact fun s => .tokenSignal s c e
  · exact .wordStart c e
  · exact fun s => .channelPopTimeout s c
  · split at hfill
    · split at hfill
      · cases List.mem_singleton.1 hfill
        exact fun s => .mapCacheFill s c _ _
      · cases hfill
    · cases hfill
  · exact .unitSpillComplete c u

theorem tenantMoves_keep (t : Nat) (v : Tenant) : ∀ f ∈ tenantMoves t v, MoveKeeps f := by
  intro f hf
  simp only [tenantMoves, List.mem_append, List.mem_map] at hf
  obtain (⟨q, -, rfl⟩ | ⟨l, -, rfl⟩) | ⟨b, -, rfl⟩ := hf
  · exact fun s => .launchHeadCheck s t q
  · exact fun s => .launchComplete s t l.1
  · exact fun s => .barrierPhaseComplete s t b.1

theorem State.moves_keep (s : State) : ∀ f ∈ s.moves, MoveKeeps f := by
  intro f hf
  simp only [State.moves, List.mem_append, List.mem_map, List.mem_flatMap, List.mem_singleton] at hf
  obtain (((((rfl | ⟨p, -, rfl⟩) | ⟨t, -, ht⟩) | ⟨k, -, hk⟩) | ⟨g, -, rfl⟩) | ⟨l, -, rfl⟩) | ⟨p, -, rfl⟩ := hf
  · exact .controllerPeriod
  · exact packetMove_keeps p.1 p.2
  · exact tenantMoves_keep t.1 t.2 f ht
  · exact coreMoves_keep k.1 k.2 f hk
  · exact fun s => .reductionTimeout s g.1
  · exact fun s => .hostRecallResponse s l
  · exact fun s => .ackTimeoutResend s p.1

theorem firstMove_keeps {s : State} {r : Res} : ∀ {fs : List (State → Res)}, (∀ f ∈ fs, MoveKeeps f) → firstMove s fs = some r → StepKeeps s r
  | [], _, h => by cases h
  | f :: fs, hf, h => by
    have h0 : StepKeeps s (f s) := hf f List.mem_cons_self s
    unfold firstMove at h
    split at h
    · next s1 h1 =>
      split at h
      · exact firstMove_keeps (fun g hg => hf g (List.mem_cons_of_mem f hg)) h
      · cases h; rw [← h1]; exact h0
    · cases h; exact h0

theorem StepKeeps.ownMove (s : State) : StepKeeps s (ownMove s) := by
  refine .of_keeps (.of_eq (State.elapse_mem s 1)) ?_
  unfold Machine.ownMove
  dsimp only
  split
  · next r hr => exact .noted _ (firstMove_keeps (State.moves_keep _) hr)
  · split
    · next r hr =>
      refine firstMove_keeps (fun f hf => ?_) hr
      obtain ⟨c, -, rfl⟩ := List.mem_map.1 hf
      exact .captureStep c true
    · exact .same _

theorem StepKeeps.oneMove (s : State) : StepKeeps s (oneMove s) := by
  unfold Machine.oneMove
  split
  · exact .ownMove s
  · exact .of_keeps (.of_eq rfl) (.captureStep _ _ _)
  · split
    · exact .leaves rfl
    · exact .noted _ (.of_keeps (.of_eq rfl) (.exec _ _))
  · exact .leaves (State.elapse_mem _ _)
  · exact .leaves (State.bringIn_mem _ _)
  · exact .leaves rfl
  · exact .leaves (State.vfRead_mem _ _ _ _)
  · exact .leaves (State.pfRead_mem _ _)
  · exact .leaves (State.strike_mem _ _)

end Sys2Proof.Machine

namespace Sys2Proof
open Machine

/-- Settles O59: the form is kept by every operation on memory, so by every word's run, every event and every move. -/
theorem memoryKept : Obligations.MemoryKept := by
  intro s t hs h
  exact StepKeeps.oneMove s t h hs

end Sys2Proof
end

section
/-! SUPPORT. `trap` and `ebrk` (R56, R219, R298, R299, R301): capture raises each one's exception, and what a trap leaves that no handler
takes. Settles O17. -/

namespace Sys2Proof.Machine

/-! ## Operations that are over with their words (R219) -/

/-- An operation that has performed changes the sequencers alone. -/
theorem Ctx.perform_eq (x : Ctx) (sq : Option Nat) (n : Nat) : ∃ m, x.perform sq n = { x with seqrs := m } := by
  cases sq with
  | none => exact ⟨x.seqrs, rfl⟩
  | some i => exact ⟨_, rfl⟩

/-- It is open no more, and no other is opened. -/
theorem Ctx.mem_opened_perform {x : Ctx} {sq : Option Nat} {n j o : Nat} :
    o ∈ ((x.perform sq n).seqr j).opened ↔ o ∈ (x.seqr j).opened ∧ ¬ (sq = some j ∧ o = n) := by
  cases sq with
  | none => simp [Ctx.perform]
  | some i =>
    by_cases h : i = j
    · subst h; simp [Ctx.perform]
    · simp [Ctx.perform, Ctx.seqr, Ctx.setSeqr, Map.get_ins_ne _ _ _ h, h]

/-- The operations of words that are over have performed. -/
def Ctx.performAll (x : Ctx) (ws : List QWord) : Ctx := ws.foldl (fun y w => y.perform w.seqr w.opn) x

theorem Ctx.performAll_eq (ws : List QWord) : ∀ x : Ctx, ∃ m, x.performAll ws = { x with seqrs := m } := by
  induction ws with
  | nil => exact fun x => ⟨x.seqrs, rfl⟩
  | cons w ws ih =>
    intro x
    obtain ⟨m, hm⟩ := x.perform_eq w.seqr w.opn
    obtain ⟨n, hn⟩ := ih (x.perform w.seqr w.opn)
    exact ⟨n, hn.trans (by rw [hm])⟩

theorem Ctx.mem_opened_performAll {j o : Nat} (ws : List QWord) : ∀ {x : Ctx},
    o ∈ ((x.performAll ws).seqr j).opened ↔ o ∈ (x.seqr j).opened ∧ ∀ w ∈ ws, ¬ (w.seqr = some j ∧ o = w.opn) := by
  induction ws with
  | nil => intro x; simp [Ctx.performAll]
  | cons w ws ih =>
    intro x
    rw [show x.performAll (w :: ws) = (x.perform w.seqr w.opn).performAll ws from rfl, ih, Ctx.mem_opened_perform, List.forall_mem_cons,
      and_assoc]

/-! ## A trap that no handler takes (R299) -/

/-- The span that a trap without a handler ends: it holds and queues nothing, the place of its capture stays, and no operation of a
held word is open. -/
structure EndedBy (x y : Ctx) (cause : Nat) (tval : Dword) : Prop where
  ending : y.ending = true
  queues : y.qs = []
  held : y.held = {}
  dead : y.dead0 = some (cause, tval)
  epc : y.epc = x.epc
  pc : y.pc = x.pc
  performed : ∀ w ∈ x.held.words, ∀ j, w.seqr = some j → w.opn ∉ (y.seqr j).opened

theorem endedBy_endUnhandled (x : Ctx) (p : Pend) : EndedBy x (x.endUnhandled p) p.cause p.tval := by
  generalize hgone : x.notStarted ++ x.fly.filter (fun w => w.waiting) = gone
  have hend : x.endUnhandled p = { x.performAll gone with
      ending := true, dead0 := some (p.cause, p.tval), qs := [], held := {}, pend := none, fly := x.fly.filter (fun w => !w.waiting) } := by
    rw [← hgone]; rfl
  obtain ⟨m, hm⟩ := x.performAll_eq gone
  constructor
  case performed =>
    intro w hw j hj hopen
    have hin : w ∈ gone := by rw [← hgone]; simp [Ctx.notStarted, hw]
    rw [hend] at hopen
    exact ((Ctx.mem_opened_performAll gone).1 hopen).2 w hin ⟨hj, rfl⟩
  all_goals rw [hend, hm]

/-- A trap raised where nothing more can start, and that no handler takes, ends the span at once (R298, R299). -/
theorem raise_ends {s : State} {c : Nat} {x : Ctx} {p : Pend} (hx : s.ctx c = some x) (hpend : x.pend = none) (hstall : x.stall = .none)
    (hnone : s.noneRunsOn c x = true) (hdone : x.earlierDone p.eng p.word = true) (hrun : (s.core c).quiesce = none) (helem : p.elem = none)
    (hends : x.priv = true ∨ Map.get 0 (s.core c).tvec x.tenant = 0) : s.raise c p = s.setCtx c (x.endUnhandled p) := by
  have hmay : s.mayEnter c x (p.raisedIn s x) = true := by
    rw [State.mayEnter, hnone]; exact hdone
  have hraise : s.raise c p = s.enterTrap c (p.raisedIn s x) := by
    unfold State.raise State.unstall
    simp only [hx, hpend, hmay, hrun, hstall, Option.isNone_none, Bool.and_self, if_true]
  have hdrop : x.dropElem (p.raisedIn s x).elem = x := by
    rw [show (p.raisedIn s x).elem = p.elem from rfl, helem]; rfl
  rw [hraise]
  unfold State.enterTrap
  simp only [hx, hdrop]
  rw [if_pos (by simpa using hends)]
  rfl

/-- So does a trap of capture (R32, R56). -/
theorem captureTrap_ends {s : State} {c : Nat} {x : Ctx} (e : Engine) (cause : Nat) (tval : Dword) (hpend : x.pend = none)
    (hnone : ((endStall s c x).setCtx c { x with grp := {}, stall := .none }).noneRunsOn c { x with grp := {}, stall := .none } = true)
    (hrun : (s.core c).quiesce = none) (hends : x.priv = true ∨ Map.get 0 (s.core c).tvec x.tenant = 0) :
    ∃ y, captureTrap s c x e cause tval = (endStall s c x).setCtx c y ∧ EndedBy x y cause tval := by
  obtain ⟨ev, hev⟩ := endStall_core_eq s c x c
  have hcore : ((endStall s c x).setCtx c { x with grp := {}, stall := .none }).core c =
      { s.core c with ev := ev, res := some { x with grp := {}, stall := .none } } := by rw [State.core_setCtx_self, hev]
  have hraise := raise_ends (p := { cause := cause, tval := tval, eng := e, addr := x.grp.addr, word := none })
    (State.ctx_setCtx_self (endStall s c x) c { x with grp := {}, stall := .none }) hpend rfl hnone rfl (by rw [hcore]; exact hrun) rfl
    (by rw [hcore]; exact hends)
  obtain ⟨h1, h2, h3, h4, h5, h6, h7⟩ := endedBy_endUnhandled { x with grp := {}, stall := .none }
    { cause := cause, tval := tval, eng := e, addr := x.grp.addr, word := none }
  exact ⟨_, hraise.trans (State.setCtx_setCtx _ _ _ _), h1, h2, h3, h4, h5, h6, h7⟩

/-! ## The two words (R301) -/

/-- Capture of a word without operands, whose own checks trap, in an idle strand. -/
theorem issue_chkTrap {i : Instr} {sp : CapSpec} {chk : State → Nat → Ctx → QWord → Chk} (act : State → Nat → QWord → State) (run : RunFn)
    {s : State} {x : Ctx} {cause : Nat} {tval : Dword} (h : Idle s x) (hsrcs : sp.srcs = []) (hpriv : sp.priv = false) (hmem : sp.mem = false)
    (hpush : sp.pushed = none) (hchk : chk s s.cur x (mkWord x i sp []) = .trap cause tval) :
    issue i sp chk act run s = .next (captureTrap s s.cur x sp.eng cause tval) := by
  have hsteer : x.steering = false := by simp [Ctx.steering, Ctx.queued, h.queues]
  unfold issue capture
  rw [h.resident]
  simp [captureShut_idle h, hsteer, hpriv, hsrcs, predPending_idle h, sBusy_idle h, csrPending_idle h, hpush, readAll, hmem, hchk]

section
variable {s : State} {x : Ctx} (h : Idle s x)
include h

theorem exec_trap (i : BitVec 17) : exec (.trap i) s = .next (captureTrap s s.cur x .s 0x10 (immZ x.grp.pfx i)) :=
  issue_chkTrap _ _ h rfl rfl rfl rfl rfl

theorem exec_ebrk (i : BitVec 17) : exec (.ebrk i) s = .next (captureTrap s s.cur x .s 0x11 (immZ x.grp.pfx i)) :=
  issue_chkTrap _ _ h rfl rfl rfl rfl rfl

/-- A trap of capture of an idle strand is entered where there is a handler to take it. -/
theorem Idle.captureTrap_enters (cause : Nat) (tval : Dword) (hpriv : x.priv = false)
    (htvec : Map.get 0 (s.core s.cur).tvec x.tenant ≠ 0) : ∃ y, captureTrap s s.cur x .s cause tval = (endStall s s.cur x).setCtx s.cur y ∧
      Entered { x with grp := {}, stall := .none } y { cause := cause, tval := tval, eng := .s, addr := x.grp.addr, word := none }
        (Map.get 0 (s.core s.cur).tvec x.tenant) :=
  Machine.captureTrap_enters .s cause tval h.noTrap (noneRunsOn_empty _ _ h.queues h.started) h.running hpriv htvec

/-- Elsewhere it ends the span. -/
theorem Idle.captureTrap_ends (cause : Nat) (tval : Dword) (hends : x.priv = true ∨ Map.get 0 (s.core s.cur).tvec x.tenant = 0) :
    ∃ y, captureTrap s s.cur x .s cause tval = (endStall s s.cur x).setCtx s.cur y ∧ EndedBy x y cause tval :=
  Machine.captureTrap_ends .s cause tval h.noTrap (noneRunsOn_empty _ _ h.queues h.started) h.running hends
end

end Sys2Proof.Machine

namespace Sys2Proof
open Machine

/-- Settles O17: each word raises its own exception as it is captured, which the idle strand enters, or which ends its span. -/
theorem trapWords : Obligations.TrapWords := by
  refine ⟨fun s x i h hpriv htvec => ?_, fun s x i h hends => ?_⟩
  · rw [exec_trap h, exec_ebrk h]
    obtain ⟨y, hy, hent⟩ := h.captureTrap_enters 0x10 (immZ x.grp.pfx i) hpriv htvec
    obtain ⟨z, hz, hzent⟩ := h.captureTrap_enters 0x11 (immZ x.grp.pfx i) hpriv htvec
    exact ⟨⟨y, congrArg _ hy, hent⟩, z, congrArg _ hz, hzent⟩
  · rw [exec_trap h, exec_ebrk h]
    obtain ⟨y, hy, hend⟩ := h.captureTrap_ends 0x10 (immZ x.grp.pfx i) hends
    obtain ⟨z, hz, hzend⟩ := h.captureTrap_ends 0x11 (immZ x.grp.pfx i) hends
    exact ⟨⟨y, congrArg _ hy, hend.ending, hend.queues, hend.held, hend.dead, hend.epc, hend.pc, hend.performed⟩,
      z, congrArg _ hz, hzend.ending, hzend.queues, hzend.held, hzend.dead, hzend.epc, hzend.pc, hzend.performed⟩

end Sys2Proof
end

section
/-! SUPPORT. Flag words as their packets change them, the phase of a barrier, and the sum of `flag.add` (R228-R233, R264). Settles O33. -/

namespace Sys2Proof.Machine

/-! ## The sum of `flag.add` (R229, R230) -/

/-- The fields of a flag word: the count, the expected count, the phase, and zeros above it (R229). -/
theorem flagFields {m e : Nat} (b : Bool) (hm : m < 2 ^ 32) (he : e < 2 ^ 16) {k : Nat} (hk : k = m + 2 ^ 32 * e + (if b then 2 ^ 48 else 0)) :
    k < 2 ^ 64 ∧ k % 2 ^ 32 = m ∧ bits k 32 16 = e ∧ bit k 48 = b ∧ bits k 49 15 = 0 := by
  subst hk
  unfold bits bit
  cases b
  · simp only [Bool.false_eq_true, if_false, decide_eq_false_iff_not]
    omega
  · simp only [if_true, decide_eq_true_eq]
    omega

/-- The sum reaches an expected count. -/
def flagFlips (e c : Nat) : Bool := decide (e ≠ 0) && decide (e ≤ c)

/-- What `flag.add` leaves in each field of a flag word (R230). -/
theorem flagSum_fields (v : Dword) (n : Nat) {e c : Nat} (he : e = bits v.toNat 32 16) (hc : c = v.toNat % 2 ^ 32 + n) :
    (flagSum v n).toNat % 2 ^ 32 = (if flagFlips e c then c - e else c) % 2 ^ 32 ∧ bits (flagSum v n).toNat 32 16 = e ∧
    bit (flagSum v n).toNat 48 = (if flagFlips e c then !bit v.toNat 48 else bit v.toNat 48) ∧ bits (flagSum v n).toNat 49 15 = 0 := by
  have hcount : (if flagFlips e c then c - e else c) % 2 ^ 32 < 2 ^ 32 := Nat.mod_lt _ (Nat.two_pow_pos 32)
  have hexp : e < 2 ^ 16 := by rw [he]; exact Nat.mod_lt _ (Nat.two_pow_pos 16)
  obtain ⟨hlt, hfields⟩ := flagFields (if flagFlips e c then !bit v.toNat 48 else bit v.toNat 48) hcount hexp rfl
  have hsum : flagSum v n = BitVec.ofNat 64 ((if flagFlips e c then c - e else c) % 2 ^ 32 + 2 ^ 32 * e +
      (if (if flagFlips e c then !bit v.toNat 48 else bit v.toNat 48) then 2 ^ 48 else 0)) := by
    rw [he, hc]; rfl
  rw [hsum, BitVec.toNat_ofNat, Nat.mod_eq_of_lt hlt]
  exact hfields

theorem flagFlips_false {e c : Nat} (h : e = 0 ∨ c < e) : flagFlips e c = false := by
  rcases h with h | h
  · simp [flagFlips, h]
  · simp [flagFlips, Nat.not_le.2 h]

theorem flagFlips_true {e c : Nat} (h0 : e ≠ 0) (h : e ≤ c) : flagFlips e c = true := by simp [flagFlips, h0, h]

/-! ## A flag word of a core -/

theorem Core.spadRow_setSpadRow (k : Core) (r : Nat) (v : Row) (j : Nat) :
    (k.setSpadRow r v).spadRow j = if r = j then v else k.spadRow j := Map.get_put _ _ _ _ _

/-- A flag word written is read back, and every other one is as it was. -/
theorem Core.flag_setSpadWord (k : Core) (w : Nat) (v : Dword) :
    (k.setSpadWord (flagAddr w) v).flag w = v ∧ ∀ j, j ≠ w → (k.setSpadWord (flagAddr w) v).flag j = k.flag j := by
  have haddr : ∀ i, flagAddr i = 785408 + 8 * i := fun _ => rfl
  unfold Core.flag Core.spadWord Core.setSpadWord
  refine ⟨?_, fun j hj => ?_⟩
  · rw [Core.spadRow_setSpadRow, if_pos rfl, extract_setBits_self _ _ _ _ (by rw [haddr]; omega)]
    exact BitVec.ofNat_toNat 64 v
  · rw [Core.spadRow_setSpadRow]
    split
    next hrow =>
      rw [extract_setBits_out _ _ _ _ _ _ (by rw [haddr, haddr] at *; omega), hrow]
    next => rfl

section
variable {s : State} {c : Nat} {x : Ctx} (hsus : (s.core c).sus = none)
include hsus

/-- Where the core holds no suspended context, its flag words are no saved copy's. -/
theorem toSlot_ownerOf : s.ownerOf c x.tenant x.uid = x.me ∧ toSlot s c 175 x.me = false := by
  refine ⟨?_, by simp [toSlot, Ctx.me]⟩
  unfold State.ownerOf
  rw [hsus]
  rfl

variable (hown : Map.at? (s.core c).owner 175 = some x.me)
include hown

/-- The flag words of a context that has their unit are its core's. -/
theorem State.flagAt_own (w : Nat) : s.flagAt c (s.ownerOf c x.tenant x.uid) w = (s.core c).flag w := by
  obtain ⟨howner, hslot⟩ := toSlot_ownerOf (x := x) hsus
  rw [howner, State.flagAt, hslot, touchUnit_own hown]
  rfl

theorem State.putFlag_own (w : Nat) (v : Dword) : s.putFlag c x w v =
    (s.modCore c (fun k => k.setSpadWord (flagAddr w) v)).modCtxOf c x.uid (fun y => y.retestFlags w v) := by
  obtain ⟨howner, hslot⟩ := toSlot_ownerOf (x := x) hsus
  rw [State.putFlag, howner, hslot, touchUnit_own hown]
  rfl

/-- A flag word put there changes alone, whatever acknowledges it. -/
theorem State.flag_putFlag_own (w : Nat) (v : Dword) {t : State} (ht : Fabric (s.putFlag c x w v) t) :
    (t.core c).flag w = v ∧ ∀ j < 128, j ≠ w → (t.core c).flag j = (s.core c).flag j := by
  obtain ⟨hself, hothers⟩ := Core.flag_setSpadWord (s.core c) w v
  have hflag : ∀ j, (t.core c).flag j = ((s.core c).setSpadWord (flagAddr w) v).flag j := by
    intro j
    rw [ht.core, State.putFlag_own hsus hown, State.modCtxOf, State.core_modCore_self, State.core_modCore_self]
    rfl
  exact ⟨(hflag w).trans hself, fun j _ hj => (hflag j).trans (hothers j hj)⟩
end

/-! ## FLAG_ADD_APPLY and FLAG_SET_APPLY (R230, R231, R233) -/

section
variable {s : State} {id c w : Nat} {p : Packet} (ha : s.Arriving id p) (hdst : p.dst = .core c)
include ha hdst

/-- A change that the tenant's context takes is acknowledged. -/
theorem onFlag_applies {x : Ctx} {t : State} {f : State → Nat → Ctx → Packet → Option State} (hx : s.ctxFor c p.tenant = some x)
    (hf : f s c x p = some t) : onFlag id s f = .next (t.ackPkt id p {}) := by
  unfold onFlag
  rw [onPacket_of_arriving ha]
  simp only [hdst, hx, hf]

/-- One that finds no context is dropped and acknowledged with MAP. -/
theorem onFlag_drops {f : State → Nat → Ctx → Packet → Option State} (hx : s.ctxFor c p.tenant = none) (hf : (f s c {} p).isSome = true) :
    onFlag id s f = .next (s.ackPkt id p mapMiss) := by
  unfold onFlag
  rw [onPacket_of_arriving ha]
  simp only [hdst, hx, hf, if_true]

theorem exec_flagAdd_applies {x : Ctx} {n : Nat} (hk : p.kind = .flagAdd w n) (hx : s.ctxFor c p.tenant = some x) :
    exec (.flagAddApply id) s =
      .next ((s.putFlag c x w (flagSum (s.flagAt c (s.ownerOf c x.tenant x.uid) w) n)).ackPkt id p {}) := by
  show execFlagAddApply id s = _
  exact onFlag_applies ha hdst hx (by simp only [hk])

theorem exec_flagSet_applies {x : Ctx} {v : Dword} (hk : p.kind = .flagSet w v) (hx : s.ctxFor c p.tenant = some x) :
    exec (.flagSetApply id) s = .next ((s.putFlag c x w v).ackPkt id p {}) := by
  show execFlagSetApply id s = _
  exact onFlag_applies ha hdst hx (by simp only [hk])

theorem exec_flagAdd_drops {n : Nat} (hk : p.kind = .flagAdd w n) (hx : s.ctxFor c p.tenant = none) :
    exec (.flagAddApply id) s = .next (s.ackPkt id p mapMiss) := by
  show execFlagAddApply id s = _
  exact onFlag_drops ha hdst hx (by simp only [hk, Option.isSome_some])

theorem exec_flagSet_drops {v : Dword} (hk : p.kind = .flagSet w v) (hx : s.ctxFor c p.tenant = none) :
    exec (.flagSetApply id) s = .next (s.ackPkt id p mapMiss) := by
  show execFlagSetApply id s = _
  exact onFlag_drops ha hdst hx (by simp only [hk, Option.isSome_some])
end

/-! ## BARRIER_PHASE_COMPLETE (R228, R264) -/

/-- A barrier whose last participant has arrived, with its phase completed. -/
def Bar.completed (b : Bar) : Bar := { b with done := b.done + 1, full := none }

theorem exec_barrierPhaseComplete {s : State} {k tag n : Nat} (hfull : ((s.tenant k).bar tag).full = some n)
    (hdue : n + ((s.tenant k).bar tag).delay ≤ s.cycle) : exec (.barrierPhaseComplete k tag) s =
      .next (s.modTenant k (fun v => { v with bars := Map.ins v.bars tag ((s.tenant k).bar tag).completed })) := by
  show execBarrierPhaseComplete k tag s = _
  simp only [execBarrierPhaseComplete, hfull, Nat.not_lt.2 hdue, if_false]
  rfl

end Sys2Proof.Machine

namespace Sys2Proof
open Machine

/-- Settles O33: the changes of a flag word, the completed phase, and the fields of the sum. -/
theorem flagSteps : Obligations.FlagSteps := by
  refine ⟨⟨fun s id c w p ha hdst => ⟨fun x n hk hx => exec_flagAdd_applies ha hdst hk hx, fun x v hk hx => exec_flagSet_applies ha hdst hk hx,
    fun n hk hx => exec_flagAdd_drops ha hdst hk hx, fun v hk hx => exec_flagSet_drops ha hdst hk hx,
    fun x hx ht hsus hown _ => ⟨fun n hk => ?add, fun v hk => ?set⟩⟩, fun s k tag n hfull hdue => ?barrier⟩, fun v n _ e c he hc => ?sum⟩
  case add =>
    refine ⟨_, exec_flagAdd_applies ha hdst hk (State.ctxFor_of_resident hx ht), ?_⟩
    rw [State.flagAt_own hsus hown]
    exact State.flag_putFlag_own hsus hown w _ (.ackPkt _ id p {})
  case set =>
    exact ⟨_, exec_flagSet_applies ha hdst hk (State.ctxFor_of_resident hx ht), State.flag_putFlag_own hsus hown w v (.ackPkt _ id p {})⟩
  case barrier =>
    refine ⟨_, exec_barrierPhaseComplete hfull hdue, ?_, fun j hj => State.tenant_setTenant_ne s _ (Ne.symm hj), rfl, rfl⟩
    rw [State.tenant_modTenant_self]
    exact Map.get_ins_self _ _ _ _
  case sum =>
    obtain ⟨hcount, hexp, hphase, hzero⟩ := flagSum_fields v n he hc
    refine ⟨hexp, hzero, fun hbelow => ?_, fun h0 hreach => ?_⟩
    · rw [hcount, hphase, flagFlips_false hbelow]
      exact ⟨rfl, rfl⟩
    · rw [hcount, hphase, flagFlips_true h0 hreach]
      exact ⟨rfl, rfl⟩

end Sys2Proof
end

section
/-! SUPPORT. IMMEDIATE_SAVE and SPAN_RESUME (R219, R295, R309-R312): the core that a saved span leaves, and the one that a resumed span
finds. Settles O41. -/

namespace Sys2Proof.Machine

/-! ## The image (R310) -/

/-- Two states of one list of cores and one of tenants: all else may differ. -/
structure SameUnits (s t : State) : Prop where
  cores : t.cores = s.cores
  tenants : t.tenants = s.tenants

theorem SameUnits.refl (s : State) : SameUnits s s := ⟨rfl, rfl⟩
theorem SameUnits.trans {s t u : State} (h : SameUnits s t) (g : SameUnits t u) : SameUnits s u :=
  ⟨g.cores.trans h.cores, g.tenants.trans h.tenants⟩
theorem SameUnits.core {s t : State} (h : SameUnits s t) (c : Nat) : t.core c = s.core c := by unfold State.core; rw [h.cores]
theorem SameUnits.tenant {s t : State} (h : SameUnits s t) (k : Nat) : t.tenant k = s.tenant k := by unfold State.tenant; rw [h.tenants]

theorem SameUnits.writeN (s : State) (a n v : Nat) : SameUnits s (s.writeN a n v) :=
  ⟨State.writeN_cores n s a v, (Kept1.writeN 0 n s a v).tenants⟩

theorem SameUnits.writeBytes (s : State) (a : Nat) (bs : List Byte) : SameUnits s (s.writeBytes a bs) := by
  obtain ⟨m, hm⟩ := State.writeBytes_eq bs s a
  rw [hm]
  exact ⟨rfl, rfl⟩

theorem SameUnits.writeRegions (a : Nat) (rs : List Region) : ∀ s : State, SameUnits s (writeRegions s a rs) := by
  induction rs with
  | nil => exact .refl
  | cons r rs ih =>
    intro s
    simp only [Machine.writeRegions]
    split
    · exact ih s
    · split
      · exact (SameUnits.writeN s _ _ _).trans (ih _)
      · have hctr : ∀ t : State, SameUnits t { t with freeCtr := s.freeCtr + r.len } := fun _ => ⟨rfl, rfl⟩
        exact ((SameUnits.writeBytes s _ _).trans (hctr _)).trans (ih _)

/-- An image is written to memory alone. -/
theorem SameUnits.writeImage (s : State) (c : Nat) (x : Ctx) (csr : Nat → Nat) (resume : Nat) (spill : List Nat) (a : Nat) :
    SameUnits s (writeImage s c x csr resume spill a) := by
  have hclean : SameUnits s ((s.cleanMem a 0x10000).zeroMem (a + 0x5000) 0xB000) := ⟨rfl, rfl⟩
  exact (hclean.trans (.writeRegions _ _ _)).trans (.writeN _ _ _ _)

/-! ## IMMEDIATE_SAVE (R295, R310, R311) -/

/-- A core whose span is suspended, lent to the launch it quiesced for. -/
def Core.suspend (k : Core) (y : Ctx) (q : Nat × Nat) (now : Nat) : Core :=
  { k with res := none, sus := some y, quiesce := none, lent := some q, freeAt := now, owner := turnOwners k.owner y.tenant true }

/-- An image noted as the context stood. -/
def State.noting (s : State) (a : Nat) (y : Ctx) : State := { s with images := Map.ins s.images a y }

theorem SameUnits.noting (s : State) (a : Nat) (y : Ctx) : SameUnits s (s.noting a y) := ⟨rfl, rfl⟩

/-- The state once a span's image is written and noted (R310). -/
def State.imaged (s : State) (c : Nat) (x : Ctx) : State :=
  let y := x.stopped s.cycle (s.core c).accInt
  let a := slotOf s x.tenant c
  (writeImage s c y (fun n => (csrRead s c y n).toNat) y.pc ((s.core c).savedOf x.tenant) a).noting a y

theorem SameUnits.imaged (s : State) (c : Nat) (x : Ctx) : SameUnits s (s.imaged c x) :=
  (SameUnits.writeImage _ _ _ _ _ _ _).trans (.noting _ _ _)

/-- The state with its core lent, too. -/
def State.suspended (s : State) (c : Nat) (x : Ctx) (q : Nat × Nat) : State :=
  (s.imaged c x).modCore c (fun k => k.suspend (x.stopped s.cycle (s.core c).accInt) q s.cycle)

/-- A pre-emption counted at its core, with its tenant and for billing. -/
def State.countPreempt (s : State) (c t : Nat) : State :=
  ((s.count c evPREEMPT 1).modTenant t (fun v => { v with preempts := v.preempts + 1 })).use t 17 1

theorem State.saveSpan_eq (s : State) (c : Nat) (x : Ctx) (q : Nat × Nat) : s.saveSpan c x q =
    (((s.suspended c x q).countPreempt c x.tenant).modLaunch x.tenant x.lid (fun l => { l with mword := l.mword || x.mword })).endLoans
      q.1 q.2 := rfl

/-- Use counted for a tenant changes neither a core nor its pre-emptions. -/
theorem State.use_frame (s : State) (t k n : Nat) :
    (∀ d, (s.use t k n).core d = s.core d) ∧ ((s.use t k n).tenant t).preempts = (s.tenant t).preempts := by
  unfold State.use
  split
  · exact ⟨fun _ => rfl, rfl⟩
  · exact ⟨fun _ => rfl, by rw [State.tenant_modTenant_self]⟩

theorem State.countPreempt_counts (s : State) (c t : Nat) :
    (s.countPreempt c t).core c = (s.core c).count evPREEMPT 1 ∧ (∀ d, d ≠ c → (s.countPreempt c t).core d = s.core d) ∧
    ((s.countPreempt c t).tenant t).preempts = (s.tenant t).preempts + 1 := by
  have hcount : s.count c evPREEMPT 1 = s.modCore c (fun k => k.count evPREEMPT 1) := if_neg Nat.one_ne_zero
  unfold State.countPreempt
  rw [hcount]
  obtain ⟨hcore, hpreempts⟩ := State.use_frame ((s.modCore c (fun k => k.count evPREEMPT 1)).modTenant t
    (fun v => { v with preempts := v.preempts + 1 })) t 17 1
  refine ⟨?_, fun d hd => ?_, ?_⟩
  · rw [hcore, State.core_modTenant, State.core_modCore_self]
  · rw [hcore, State.core_modTenant, State.core_modCore_ne _ _ (Ne.symm hd)]
  · rw [hpreempts, State.tenant_modTenant_self]
    rfl

/-- The save of a span: its core is lent and no other changes, its tenant counts a pre-emption, and loans that have no more use end. -/
theorem State.saveSpan_saves (s : State) (c : Nat) (x : Ctx) (q : Nat × Nat) : ∃ u : State, s.saveSpan c x q = u.endLoans q.1 q.2 ∧
    u.core c = ((s.core c).suspend (x.stopped s.cycle (s.core c).accInt) q s.cycle).count evPREEMPT 1 ∧ (∀ d, d ≠ c → u.core d = s.core d) ∧
    (u.tenant x.tenant).preempts = (s.tenant x.tenant).preempts + 1 := by
  have himage := SameUnits.imaged s c x
  obtain ⟨hcore, hothers, hpreempts⟩ := (s.suspended c x q).countPreempt_counts c x.tenant
  refine ⟨_, State.saveSpan_eq s c x q, ?_, fun d hd => ?_, ?_⟩
  · rw [State.modLaunch, State.core_modTenant, hcore, State.suspended, State.core_modCore_self, himage.core]
  · rw [State.modLaunch, State.core_modTenant, hothers d hd, State.suspended, State.core_modCore_ne _ _ (Ne.symm hd), himage.core]
  · have htenant : (s.suspended c x q).tenant x.tenant = s.tenant x.tenant := by
      unfold State.suspended State.tenant
      rw [State.modCore_tenants, himage.tenants]
    rw [State.modLaunch, State.tenant_modTenant_self, ← htenant]
    exact hpreempts

theorem exec_immediateSave {s : State} {c : Nat} {x : Ctx} {q : Nat × Nat} (hx : s.ctx c = some x) (hq : (s.core c).quiesce = some q)
    (hpow : s.powered = true) (hset : x.settled = true) : exec (.immediateSave c) s = .next (s.saveSpan c x q) := by
  show execImmediateSave c s = _
  simp [execImmediateSave, hx, hq, hpow, hset]

/-- A loan at its end is over, or goes on. -/
theorem State.unlend_lent (s : State) (k lid c : Nat) (q : Core) : (s.unlend k lid c q).lent = q.lent ∨ (s.unlend k lid c q).lent = none := by
  unfold State.unlend
  split
  · exact .inr rfl
  · exact .inl rfl

/-! ## SPAN_RESUME (R295, R311, R312) -/

/-- Folded steps that touch and spill units of a core do no more together. -/
theorem Kept1.foldl {α : Type} {c : Nat} {f : State → α → State} (hf : ∀ s a, Kept1 c s (f s a)) (l : List α) : ∀ s, Kept1 c s (l.foldl f s) := by
  induction l with
  | nil => exact Kept1.refl c
  | cons a l ih => exact fun s => (hf s a).trans (ih _)

/-- A unit let go holds zeros and is nobody's. -/
def Core.letGo (k : Core) (u : Nat) : Core :=
  let k1 := k.clearUnit u
  { k1 with owner := Map.del k1.owner u }

/-- Units let go: the core's stores, marks and owners alone change. -/
theorem Core.foldl_letGo_eq (us : List Nat) : ∀ k : Core, ∃ ti tp ac ap sp pp ow, us.foldl Core.letGo k = { k with
    tiles := ti, tilePoison := tp, acc := ac, accPoison := ap, spad := sp, spadPoison := pp, owner := ow } := by
  induction us with
  | nil => exact fun k => ⟨_, _, _, _, _, _, _, rfl⟩
  | cons u us ih =>
    intro k
    obtain ⟨_, _, _, _, _, _, hclear⟩ := k.clearUnit_eq u
    obtain ⟨_, _, _, _, _, _, _, hrest⟩ := ih (k.letGo u)
    rw [List.foldl_cons, hrest, Core.letGo, hclear]
    exact ⟨_, _, _, _, _, _, _, rfl⟩

/-- So with those that an ended span of the tenant left (R312). -/
theorem Core.dropLeft_eq (k : Core) (t : Nat) : ∃ ti tp ac ap sp pp ow, k.dropLeft t = { k with
    tiles := ti, tilePoison := tp, acc := ac, accPoison := ap, spad := sp, spadPoison := pp, owner := ow } :=
  Core.foldl_letGo_eq _ k

theorem Kept1.sideBack (s : State) (c t : Nat) : Kept1 c s (s.sideBack c t) := by
  refine Kept1.foldl (fun q u => ?_) _ s
  dsimp only
  split
  · exact .refl c q
  · refine (Kept1.spillUnit q c u.1).trans (.modCore _ c _ ?_)
    obtain ⟨_, _, _, _, _, _, h⟩ := Core.setUnitRows_eq u.1 u.2 (State.core (Machine.spillUnit q c u.1) c)
    exact ⟨_, _, _, _, _, _, _, _, _, _, by rw [h]⟩

/-- The core as the image names its tenant's units and mailbox words (R310). -/
def Core.reread (k : Core) (s : State) (y : Ctx) (a : Nat) : Core :=
  { k with saved := Map.put [] k.saved y.tenant (spilledIn s a)
           mbox := Map.put [] k.mbox y.tenant (imageBox s a (Map.get [] k.mbox y.tenant).length) }

/-- The state as a span finds it that resumes, but for what an urgent span of its tenant kept beside it. -/
def State.reread (s : State) (c : Nat) (y : Ctx) : State :=
  (s.modCore c (fun k => k.reread s y (slotOf s y.tenant c))).modCore c (fun k => k.dropLeft y.tenant)

/-- Of that core its units, their copies and its mailboxes alone have changed, and every other core is as it was. -/
theorem State.core_reread (s : State) (c : Nat) (y : Ctx) : (∃ ti tp ac ap sp pp ow sv mb, (s.reread c y).core c = { s.core c with
      tiles := ti, tilePoison := tp, acc := ac, accPoison := ap, spad := sp, spadPoison := pp, owner := ow, saved := sv, mbox := mb }) ∧
    ∀ d, d ≠ c → (s.reread c y).core d = s.core d := by
  unfold State.reread
  refine ⟨?_, fun d hd => ?_⟩
  · rw [State.core_modCore_self, State.core_modCore_self]
    obtain ⟨_, _, _, _, _, _, _, h⟩ := ((s.core c).reread s y (slotOf s y.tenant c)).dropLeft_eq y.tenant
    exact ⟨_, _, _, _, _, _, _, _, _, h⟩
  · rw [State.core_modCore_ne _ _ (Ne.symm hd), State.core_modCore_ne _ _ (Ne.symm hd)]

/-- Nothing comes back where nothing was kept beside the suspended span. -/
theorem State.sideBack_none {s : State} {c : Nat} (h : (s.core c).side = []) (t : Nat) : s.sideBack c t = s := by
  unfold State.sideBack
  rw [h]
  rfl

/-- The context that resumes, with its clocks set on and the numbers that its core's sequencers have reached (R219, R311). -/
def State.resumed (s : State) (c : Nat) (y : Ctx) (seqs : Map Seqr) : Ctx :=
  { s.reload c y with
    stall := y.stall.turn s.cycle, started := s.cycle - y.started, kinds := []
    seqrs := (s.reload c y).seqrs.map (fun q => (q.1, { q.2 with count := Max.max q.2.count (Map.get {} seqs q.1).count })) }

theorem State.resumeSpan_eq {s : State} {c : Nat} {y : Ctx} (hy : (s.core c).sus = some y) : s.resumeSpan c =
    ((s.reread c y).sideBack c y.tenant).modCore c (fun k => { k.boxBack y.tenant with
      res := some (s.resumed c y k.seqs), sus := none, side := [], ended := none, accInt := y.kinds, spilling := []
      owner := turnOwners k.owner y.tenant false }) := by
  unfold State.resumeSpan
  rw [hy]
  rfl

/-- The core that a span resumes in: the context and what its image names of units and mailbox words (R311). -/
structure SpanBack (s t : State) (c : Nat) (y : Ctx) : Prop where
  ctx : t.ctx c = some (s.resumed c y (s.core c).seqs)
  sus : (t.core c).sus = none
  kinds : (t.core c).accInt = y.kinds
  others : ∀ d, d ≠ c → t.core d = s.core d
  tenants : t.tenants = s.tenants
  mem : (s.core c).side = [] → t.mem = s.mem

theorem State.resumeSpan_back {s : State} {c : Nat} {y : Ctx} (hy : (s.core c).sus = some y) : SpanBack s (s.resumeSpan c) c y := by
  obtain ⟨⟨_, _, _, _, _, _, _, _, _, hreread⟩, hothers⟩ := s.core_reread c y
  have hside := Kept1.sideBack (s.reread c y) c y.tenant
  obtain ⟨_, _, _, _, _, _, _, _, _, _, hcore⟩ := hside.core
  rw [State.resumeSpan_eq hy]
  constructor
  case ctx => rw [State.ctx, State.core_modCore_self, hcore, hreread]
  case sus => rw [State.core_modCore_self]
  case kinds => rw [State.core_modCore_self]
  case others => exact fun d hd => by rw [State.core_modCore_ne _ _ (Ne.symm hd), hside.others d (Ne.symm hd), hothers d hd]
  case tenants => exact hside.tenants
  case mem =>
    intro hnone
    rw [State.modCore_mem, State.sideBack_none (by rw [hreread]; exact hnone)]
    rfl

theorem exec_spanResume {s : State} {c : Nat} {y : Ctx} (hy : (s.core c).sus = some y) (hgang : y.gang = false) (hpow : s.powered = true)
    (hmay : s.mayResume c = true) : exec (.spanResume c) s = .next (s.resumeSpan c) := by
  show execSpanResume c s = _
  simp [execSpanResume, hy, State.resumeGroup, State.gangQuiescing, hgang, hpow, hmay]

end Sys2Proof.Machine

namespace Sys2Proof
open Machine

/-- Settles O41: a saved span leaves its core lent, or with a loan that has no more use, and a resumed one has its core again. -/
theorem saveResume : Obligations.SaveResume := by
  refine fun s c => ⟨fun x q hx hq hpow hset => ?_, fun y hy hgang hpow hmay => ?_⟩
  · obtain ⟨u, hsave, hcore, hothers, hpreempts⟩ := s.saveSpan_saves c x q
    have hbook := Booked.endLoans u q.1 q.2
    have hc := hbook.core c
    refine ⟨_, exec_immediateSave hx hq hpow hset, ?_⟩
    rw [hsave]
    refine ⟨?_, ?_, ?_, ?_, fun k hk => ?_, ?_, ?_⟩
    · rw [hbook.ctx]; unfold State.ctx; rw [hcore]; rfl
    · rw [hbook.sus, hcore]; rfl
    · rw [hc, hcore]; rfl
    · rw [State.core_endLoans]
      rcases u.unlend_lent q.1 q.2 c (u.core c) with h | h
      · rw [h, hcore]; exact .inl rfl
      · exact .inr h
    · rw [hbook.ctx]; unfold State.ctx; rw [hothers k hk]
    · rw [hc, hcore]; exact Map.get_put_self _ _ _ _
    · rw [hbook.tenant, ← hpreempts]
  · obtain ⟨h1, h2, h3, h4, h5, h6⟩ := State.resumeSpan_back hy
    exact ⟨_, exec_spanResume hy hgang hpow hmay, h1, h2, h3, h4, h5, h6⟩

end Sys2Proof
end

section
/-! SUPPORT. Falard ports (R266, R330): what a replay, a retrain, its end and a failure leave. Settles O46. -/

namespace Sys2Proof.Machine

@[simp] theorem State.port_setPort_self (s : State) (p : Nat) (v : Port) : (s.setPort p v).port p = v := Map.get_ins_self _ _ _ _

theorem State.port_setPort_ne (s : State) {p j : Nat} (v : Port) (h : p ≠ j) : (s.setPort p v).port j = s.port j :=
  Map.get_ins_ne _ _ _ h

theorem State.port_congr {s t : State} (h : t.ports = s.ports) (p : Nat) : t.port p = s.port p := by unfold State.port; rw [h]

/-! ## A path that fails (R266) -/

theorem State.ports_foldl {α : Type} {f : State → α → State} (hf : ∀ s a, (f s a).ports = s.ports) (l : List α) :
    ∀ s, (l.foldl f s).ports = s.ports := by
  induction l with
  | nil => exact fun _ => rfl
  | cons a l ih => exact fun s => (ih _).trans (hf s a)

theorem failPacket_ports (s : State) (id : Nat) (p : Packet) : (failPacket s id p).ports = s.ports := by
  unfold failPacket
  extract_lets s1
  split
  · rfl
  · split
    · rfl
    · exact (Settled.settle s1 _ _ _).ports

theorem State.inject_ports (s : State) (p : Packet) : (s.inject p).ports = s.ports := rfl

/-- Paths fail, and no port changes with them. -/
theorem State.failPaths_ports (s : State) : s.failPaths.ports = s.ports := by
  have hfail := State.ports_foldl (fun q (p : Nat × Packet) => failPacket_ports q p.1 p.2)
  exact (State.ports_foldl (fun q p => State.inject_ports q _) _ _).trans (hfail _ s)

/-! ## A port that replays what has left (R266) -/

theorem Grown.inject (s : State) (p : Packet) : Grown s (s.inject p) :=
  ⟨Nat.le_succ _, fun _ hk => Map.at?_ins_ne _ _ (Nat.ne_of_gt hk), fun _ => rfl, rfl, rfl, rfl⟩

/-- Of packets that are put in the fabric one after another each is there in the end. -/
theorem State.net_foldl_inject {q : Nat × Packet} (l : List (Nat × Packet)) : ∀ s : State, q ∈ l →
    ∃ n, Map.at? (l.foldl (fun r p => r.inject p.2) s).net n = some { q.2 with st := .flying, sentAt := s.cycle } := by
  induction l with
  | nil => intro s hq; cases hq
  | cons p l ih =>
    intro s hq
    rcases List.mem_cons.1 hq with rfl | hq
    · have hrest := Grown.foldl (fun r (p : Nat × Packet) => Grown.inject r p.2) l (s.inject q.2)
      exact ⟨s.nextId, (hrest.net _ (Nat.lt_succ_self _)).trans (Map.at?_ins_self _ _ _)⟩
    · exact ih (s.inject p.2) hq

theorem State.replayPort_grown (s : State) (p : Nat) : Grown s (s.replayPort p) :=
  Grown.foldl (fun r (q : Nat × Packet) => Grown.inject r q.2) _ s

theorem State.replayPort_ports (s : State) (p : Nat) : (s.replayPort p).ports = s.ports :=
  State.ports_foldl (fun r (q : Nat × Packet) => State.inject_ports r q.2) _ s

/-- A packet that has left for another device, and that the port may carry, is in the fabric again. -/
theorem State.replayPort_sends {s : State} {p k d : Nat} {q : Packet} (hq : (k, q) ∈ s.sent) (hleft : s.staying k = false)
    (hdev : q.device = some d) (hport : p ∈ entryPorts (s.endpoint q.tenant d)) :
    ∃ n, Map.at? (s.replayPort p).net n = some { q with st := .flying, sentAt := s.cycle } := by
  refine State.net_foldl_inject (q := (k, q)) _ s (List.mem_filter.2 ⟨hq, ?_⟩)
  simp [hdev, hport, hleft]

/-! ## The four steps -/

section
variable {s : State} {p : Nat} (hp : p < 16)
include hp

theorem exec_falardFlitReplay (hup : (s.port p).up = true) : exec (.falardFlitReplay p) s =
    .next (s.setPort p { s.port p with fails := (s.port p).fails + 1, replays := (s.port p).replays + 1 }) := by
  show execFalardFlitReplay p s = _
  simp [execFalardFlitReplay, hp, hup]

/-- A port that is down or has logged more than 16 failures retrains. -/
theorem exec_falardRetrain (hpow : s.powered = true) (hdev : s.devstat = 4) (hidle : (s.port p).training = false)
    (hbad : (s.port p).up = false ∨ 16 < (s.port p).fails) : exec (.falardRetrain p) s =
    .next ((s.setPort p { s.port p with training := true, flits := 0, fails := 0 }).log (logRetrain p) 1) := by
  have hbad' : (!(s.port p).up || decide (16 < (s.port p).fails)) = true := by simpa using hbad
  show execFalardRetrain p s = _
  simp [execFalardRetrain, hp, hpow, hdev, hidle, hbad']

theorem exec_falardPortFail (hpow : s.powered = true) : exec (.falardPortFail p) s =
    .next (s.setPort p { s.port p with up := false, training := false }).failPaths := by
  show execFalardPortFail p s = _
  simp [execFalardPortFail, hp, hpow]
end

/-- The end of a retrain. -/
theorem exec_falardRetrainDone {s : State} {p : Nat} (htrain : (s.port p).training = true) (ok : Bool) : exec (.falardRetrainDone p ok) s =
    .next (if ok then (s.setPort p { s.port p with training := false, up := true, flits := 0, fails := 0 }).replayPort p
      else ((s.setPort p { s.port p with training := false, up := false }).log (logTrainFail p) 1).failPaths) := by
  show execFalardRetrainDone p ok s = _
  simp [execFalardRetrainDone, htrain]

end Sys2Proof.Machine

namespace Sys2Proof
open Machine

/-- Settles O46: each step sets its port; the end of a retrain sends again what the port carried, and a port that is down fails paths. -/
theorem portSteps : Obligations.PortSteps := by
  rintro s p _ rfl hp hpow
  refine ⟨fun hup => exec_falardFlitReplay hp hup,
    fun hdev hidle hbad => ⟨_, exec_falardRetrain hp hpow hdev hidle hbad, State.port_setPort_self _ _ _, rfl, rfl⟩,
    fun htrain => ?done, fun htrain => ?undone, ?fail⟩
  case done =>
    have hgrown := (s.setPort p { s.port p with training := false, up := true, flits := 0, fails := 0 }).replayPort_grown p
    refine ⟨_, exec_falardRetrainDone htrain true, ?_, hgrown.mem, hgrown.cores, fun k q d hq hleft hdev hport =>
      State.replayPort_sends hq hleft hdev hport⟩
    exact (State.port_congr (State.replayPort_ports _ _) p).trans (State.port_setPort_self _ _ _)
  case undone =>
    have hport : ∀ (u : State) (v : Port), (((u.setPort p v).log (logTrainFail p) 1).failPaths).port p = v := fun u v =>
      (State.port_congr (State.failPaths_ports _) p).trans (State.port_setPort_self _ _ _)
    refine ⟨_, exec_falardRetrainDone htrain false, ?_⟩
    rw [if_neg Bool.false_ne_true, hport]
    exact ⟨rfl, rfl, State.failPaths_mem _⟩
  case fail =>
    refine ⟨_, exec_falardPortFail hp hpow, ?_, State.failPaths_mem _, fun j hj => ?_⟩
    · rw [State.port_congr (State.failPaths_ports _), State.port_setPort_self]
    · rw [State.port_congr (State.failPaths_ports _), State.port_setPort_ne _ _ (Ne.symm hj)]

end Sys2Proof
end

section
/-! SUPPORT. Bring-up, the device reset, and what of the module outlasts a loss of power (R331-R334, R336). Settles O47, O48, O53, O60. -/

namespace Sys2Proof.Machine

/-! ## What outlasts a reset (R280, R331, R333) -/

/-- A tenant as a device reset leaves it: its counters, and management values as at reset. -/
def Tenant.restarted (v : Tenant) : Tenant :=
  { usage := v.usage, usageNv := v.usageNv, gap := v.gap, snaps := v.snaps
    sacctr := v.sacctr, dropped := v.dropped, replays := v.replays }

theorem State.tenant_restart (s : State) (k : Nat) : s.restart.tenant k = (s.tenant k).restarted :=
  Map.get_map ({} : Tenant) (fun _ => Tenant.restarted) k rfl s.tenants

/-- A flush of the counters (R333). -/
theorem State.tenant_flush (s : State) (k : Nat) : s.flush.tenant k = { s.tenant k with usageNv := (s.tenant k).usage } :=
  Map.get_map ({} : Tenant) (fun _ (v : Tenant) => { v with usageNv := v.usage }) k rfl s.tenants

/-- Once power is off the counters hold the last flush (R333). -/
theorem State.tenant_powerOff (s : State) (k : Nat) :
    s.powerOff.tenant k = { (s.tenant k).restarted with usage := (s.tenant k).usageNv } := by
  have hoff : s.powerOff.tenant k = { s.restart.tenant k with usage := (s.restart.tenant k).usageNv } :=
    Map.get_map ({} : Tenant) (fun _ (v : Tenant) => { v with usage := v.usageNv }) k rfl s.restart.tenants
  rw [hoff, State.tenant_restart]
  rfl

/-- So they do where power is lost abruptly, and the next snapshot flags a gap. -/
theorem State.tenant_powerLost (s : State) {k : Nat} (hk : k < 32) :
    s.powerLost.tenant k = { (s.tenant k).restarted with usage := (s.tenant k).usageNv, gap := true } := by
  have hlost : s.powerLost.tenant k = { ({ s with nvLog := bump s.nvLog logAbrupt 1 } : State).powerOff.tenant k with gap := true } :=
    Map.get_rows ({} : Tenant) (fun t => { ({ s with nvLog := bump s.nvLog logAbrupt 1 } : State).powerOff.tenant t with gap := true })
      (List.mem_range.2 hk)
  rw [hlost, State.tenant_powerOff]
  rfl

/-! ## Device reset (R331, R336) -/

/-- A module with power starts again in state 1. -/
theorem exec_deviceReset {s : State} (hpow : s.powered = true) : exec .deviceReset s = .next { s.restart with devstat := 1 } := by
  show execDeviceReset s = _
  simp [execDeviceReset, hpow]

/-- At reset and after any device reset a tenant has its counters alone, and no reduction group an owner (R336). -/
theorem tenant_reset {s : State} (h : s = State.reset ∨ ∃ r, exec .deviceReset r = .next s) (k : Nat) :
    (∃ v : Tenant, s.tenant k = v.restarted) ∧ ∀ g, (s.group g).owner = none := by
  rcases h with rfl | ⟨r, hr⟩
  · exact ⟨⟨{}, rfl⟩, fun _ => rfl⟩
  · have hs : ∃ pow log, s = { r.restart with devstat := 1, powered := pow, lifeLog := log } := by
      change execDeviceReset r = _ at hr
      unfold execDeviceReset at hr
      split at hr
      · cases hr; exact ⟨_, _, rfl⟩
      · cases hr; exact ⟨_, _, rfl⟩
    obtain ⟨pow, log, rfl⟩ := hs
    exact ⟨⟨r.tenant k, State.tenant_restart r k⟩, fun _ => rfl⟩

/-! ## The refused enable (R336) -/

/-- The tables' walk begins at the first of them, which its window has to hold (R304, R321). -/
theorem tablesOk_of_outside {s : State} {k : Tenant} {left width table : Nat} (h : k.inWindow table (8 * 2 ^ width) = false) :
    tablesOk s k (left + 1) width table = false := by
  rw [tablesOk, h, Bool.false_and]

/-- What a configuration lacks that is not whole. -/
theorem configOk_of_lack {s : State} {k : Nat} (h : (s.tenant k).ptbase = 0 ∨ (s.tenant k).saveBase = 0 ∨ (s.tenant k).windows = [] ∨
      (s.tenant k).inWindow (s.tenant k).ptbase 4096 = false ∨ pinSave s k = none ∨
      ((s.tenant k).sacQuota ≠ 0 ∧ pinRegion s k (s.tenant k).sacBase (64 * (s.tenant k).sacQuota) = none)) : configOk s k = false := by
  unfold configOk
  rcases h with h | h | h | h | h | ⟨hquota, hpin⟩
  · simp [h]
  · simp [h]
  · simp [h]
  · simp [tablesOk_of_outside (s := s) (left := 3) (width := 9) h]
  · simp [h]
  · simp [hquota, hpin]

/-- An enable with such a configuration changes nothing. -/
theorem exec_vfEnable_refused {s : State} {k : Nat} (h : configOk s k = false) : exec (.vfEnable k) s = .next s := by
  show execVfEnable k s = _
  simp [execVfEnable, h]

/-! ## Bring-up (R331) -/

theorem exec_firmwareLoadDone {s : State} (hpow : s.powered = true) (hdev : s.devstat = 1) (ok : Bool) :
    exec (.firmwareLoadDone ok) s = .next (if ok then { s with devstat := 2 } else s.failBringUp 1) := by
  show execFirmwareLoadDone ok s = _
  simp [execFirmwareLoadDone, hpow, hdev]

theorem exec_hbmTrainingDone {s : State} (hpow : s.powered = true) (hdev : s.devstat = 2) (ok : Bool) :
    exec (.hbmTrainingDone ok) s = .next (if ok then { s with devstat := 3 } else s.failBringUp 2) := by
  show execHbmTrainingDone ok s = _
  simp [execHbmTrainingDone, hpow, hdev]

/-- A port as its training ends: up, or down and logged. -/
def State.trainPort (up : BitVec 16) (s : State) (p : Nat) : State :=
  let r := s.setPort p { up := up.getLsbD p }
  if up.getLsbD p then r else r.log (logTrainFail p) 1

/-- It changes that port and the log. -/
theorem State.trainPort_eq (up : BitVec 16) (s : State) (p : Nat) :
    ∃ log, s.trainPort up p = { s.setPort p { up := up.getLsbD p } with lifeLog := log } := by
  unfold State.trainPort
  split
  · exact ⟨_, rfl⟩
  · exact ⟨_, rfl⟩

/-- Every port whose training has ended is up or down as it trained, and the others stay. -/
theorem State.foldl_trainPort (up : BitVec 16) (l : List Nat) : ∀ s : State,
    (∃ ports log, l.foldl (State.trainPort up) s = { s with ports := ports, lifeLog := log }) ∧
    ∀ p, (p ∈ l ∨ (s.port p).up = up.getLsbD p) → ((l.foldl (State.trainPort up) s).port p).up = up.getLsbD p := by
  induction l with
  | nil => exact fun s => ⟨⟨_, _, rfl⟩, fun p hp => hp.resolve_left List.not_mem_nil⟩
  | cons a l ih =>
    intro s
    obtain ⟨log, hhead⟩ := s.trainPort_eq up a
    obtain ⟨⟨ports, log', hrest⟩, hports⟩ := ih (s.trainPort up a)
    refine ⟨⟨ports, log', by rw [List.foldl_cons, hrest, hhead]; rfl⟩, fun p hp => hports p ?_⟩
    have hport : (s.trainPort up a).port p = (s.setPort a { up := up.getLsbD a }).port p := by rw [hhead]; rfl
    by_cases hap : a = p
    · subst hap
      exact .inr (by rw [hport, State.port_setPort_self])
    · rcases hp with hp | hp
      · exact .inl ((List.mem_cons.1 hp).resolve_left (Ne.symm hap))
      · exact .inr (by rw [hport, State.port_setPort_ne _ _ hap, hp])

theorem exec_falardTrainingDone {s : State} (hpow : s.powered = true) (hdev : s.devstat = 3) (up : BitVec 16) :
    exec (.falardTrainingDone up) s = .next ((List.range 16).foldl (State.trainPort up) { s with devstat := 4 }) := by
  show execFalardTrainingDone up s = _
  simp [execFalardTrainingDone, hpow, hdev]
  rfl

/-! ## The lifetime log (R334) -/

theorem get_bump (m : Map Nat) (k n j : Nat) :
    Map.get 0 (bump m k n) j = if k = j then Min.min (Map.get 0 m k + n) (2 ^ 32 - 1) else Map.get 0 m j := Map.get_put _ _ _ _ _

theorem tempBin_le (t : Nat) : tempBin t ≤ 15 := by unfold tempBin; split_ifs <;> omega

/-- The temperatures of at most nine dies are counted apart from every power record. -/
theorem get_foldl_logTemp {j : Nat} (hj : logTemp 9 0 ≤ j) (l : List (Nat × Nat)) : (∀ p ∈ l, p.2 < 9) → ∀ m : Map Nat,
    Map.get 0 (l.foldl (fun m p => bump m (logTemp p.2 (tempBin p.1)) 10) m) j = Map.get 0 m j := by
  induction l with
  | nil => exact fun _ _ => rfl
  | cons p l ih =>
    intro hl m
    have hp := hl p List.mem_cons_self
    have hbin := tempBin_le p.1
    unfold logTemp at hj
    rw [List.foldl_cons, ih (fun q hq => hl q (List.mem_cons_of_mem _ hq)), get_bump, if_neg (by unfold logTemp; omega)]

/-- The log's clock ten seconds on, which counts seconds and hours. -/
def logClock (m : Map Nat) : Map Nat :=
  let secs := Map.get 0 m logSeconds + 10
  if 3600 ≤ secs then bump (Map.put 0 m logSeconds (secs - 3600)) logHours 1 else Map.put 0 m logSeconds secs

/-- It has keys of its own. -/
theorem get_logClock {j : Nat} (hj : j < logHours) (m : Map Nat) : Map.get 0 (logClock m) j = Map.get 0 m j := by
  have hhours : logHours ≠ j := Nat.ne_of_gt hj
  have hsecs : logSeconds ≠ j := by unfold logHours at hj; unfold logSeconds; omega
  unfold logClock
  extract_lets secs
  split
  · rw [get_bump, if_neg hhours, Map.get_put_ne _ _ _ hsecs]
  · rw [Map.get_put_ne _ _ _ hsecs]

/-! ## Power and cooling (R332, R333) -/

section
variable {s : State} (hpow : s.powered = true)
include hpow

theorem exec_powerLimitStep {w : Nat} (hw : s.powerLimit < w) :
    exec (.powerLimitStep w) s = .next { s with clockSteps := s.clockSteps + 1 } := by
  show execPowerLimitStep w s = _
  simp [execPowerLimitStep, hpow, hw]

theorem exec_thermalThrottle {d n : Nat} (hd : d < 9) (hn : 105 ≤ n) : exec (.thermalThrottle d n) s =
    .next { s with clockSteps := s.clockSteps + 1, hotDies := addMark s.hotDies d } := by
  show execThermalThrottle d n s = _
  simp [execThermalThrottle, hpow, Nat.not_le.2 hd, hn]

theorem exec_supplyDroop {d : Nat} (hd : d < 8) (mv : Nat) :
    exec (.supplyDroop d mv) s = .next (s.log (logDroop d (Min.min (mv / 10) 15)) 1) := by
  show execSupplyDroop d mv s = _
  simp [execSupplyDroop, hpow, hd]

theorem exec_counterFlush : exec .counterFlush s = .next s.flush := by
  show execCounterFlush s = _
  simp [execCounterFlush, hpow]

theorem exec_orderlyPowerOff : exec .orderlyPowerOff s = .next ({ s.flush with nvLog := s.flush.lifeLog } : State).powerOff := by
  show execOrderlyPowerOff s = _
  simp [execOrderlyPowerOff, hpow]

theorem exec_abruptPowerLoss : exec .abruptPowerLoss s = .next s.powerLost := by
  show execAbruptPowerLoss s = _
  simp [execAbruptPowerLoss, hpow]

theorem exec_thermalShutdown {n flow : Nat} (h : 115 ≤ n ∨ flow < 1000) :
    exec (.thermalShutdown n flow) s = .next ({ s with nvLog := bump s.nvLog logThermal 1 } : State).powerLost := by
  have h' : (decide (115 ≤ n) || decide (flow < 1000)) = true := by simpa using h
  show execThermalShutdown n flow s = _
  simp [execThermalShutdown, hpow, h']

/-- Ten more seconds are logged, at the module's power among the rest. -/
theorem exec_lifetimeLogUpdate (temps : List Nat) (w : Nat) : ∃ log,
    exec (.lifetimeLogUpdate temps w) s = .next { s with lifeLog := log, nvLog := log } ∧
    Map.get 0 log (logPower (Min.min (w / 200) 15)) = Min.min (Map.get 0 s.lifeLog (logPower (Min.min (w / 200) 15)) + 10) (2 ^ 32 - 1) := by
  have hdies : ∀ p ∈ (temps.take 9).zipIdx, p.2 < 9 := fun p hp => by
    have := List.snd_lt_of_mem_zipIdx hp
    rw [List.length_take] at this
    omega
  have htemp : logTemp 9 0 ≤ logPower (Min.min (w / 200) 15) := by unfold logTemp logPower; omega
  have hclock : logPower (Min.min (w / 200) 15) < logHours := by unfold logPower logHours; omega
  refine ⟨logClock (bump (((temps.take 9).zipIdx).foldl (fun m p => bump m (logTemp p.2 (tempBin p.1)) 10) s.lifeLog)
    (logPower (Min.min (w / 200) 15)) 10), ?_, ?_⟩
  · show execLifetimeLogUpdate temps w s = _
    unfold execLifetimeLogUpdate
    rw [hpow]
    rfl
  · rw [get_logClock hclock, get_bump, if_pos rfl, get_foldl_logTemp htemp _ hdies]
end

end Sys2Proof.Machine

namespace Sys2Proof
open Machine

/-- Settles O47: bring-up goes on by one state or fails, ports end their training one by one, and a reset keeps counters alone. -/
theorem bringUp : Obligations.BringUp := by
  refine fun s hpow => ⟨fun h => exec_firmwareLoadDone hpow h true, fun h => ⟨_, exec_firmwareLoadDone hpow h false, rfl, rfl⟩,
    fun h => exec_hbmTrainingDone hpow h true, fun h => ⟨_, exec_hbmTrainingDone hpow h false, rfl, rfl⟩, fun up h => ?trained, ?reset⟩
  case trained =>
    obtain ⟨⟨ports, log, hrest⟩, hports⟩ := State.foldl_trainPort up (List.range 16) { s with devstat := 4 }
    refine ⟨_, exec_falardTrainingDone hpow h up, ?_, fun p hp => hports p (.inl (List.mem_range.2 hp)), ?_, ?_⟩
    all_goals rw [hrest]
  case reset =>
    refine ⟨_, exec_deviceReset hpow, rfl, hpow, rfl, fun _ => rfl, rfl, rfl, rfl, fun k => ?_⟩
    exact congrArg Tenant.enabled (State.tenant_restart s k)

/-- Settles O48: limits, logs and counters step by step, and what each way of losing power leaves of them. -/
theorem powerSteps : Obligations.PowerSteps := by
  refine fun s hpow => ⟨fun w hw => exec_powerLimitStep hpow hw,
    fun d n hd hn => ⟨_, exec_thermalThrottle hpow hd hn, rfl, mem_addMark _ _, rfl⟩,
    fun d mv hd => ⟨_, exec_supplyDroop hpow hd mv, Map.get_put_self _ _ _ _, rfl, rfl⟩,
    ⟨_, exec_counterFlush hpow, fun k => by rw [State.tenant_flush], rfl, rfl⟩, fun temps w => ?log, ?orderly,
    ⟨_, exec_abruptPowerLoss hpow, rfl, fun k hk => by rw [State.tenant_powerLost _ hk]; exact ⟨rfl, rfl⟩, fun _ => rfl⟩,
    fun n flow h => ⟨_, exec_thermalShutdown hpow h, rfl, fun k hk => by rw [State.tenant_powerLost _ hk], fun _ => rfl⟩⟩
  case log =>
    obtain ⟨log, hexec, hpower⟩ := exec_lifetimeLogUpdate hpow temps w
    exact ⟨_, hexec, rfl, rfl, rfl, hpower⟩
  case orderly =>
    refine ⟨_, exec_orderlyPowerOff hpow, rfl, rfl, fun k => ?_, fun _ => rfl⟩
    rw [State.tenant_powerOff]
    exact congrArg Tenant.usageNv (State.tenant_flush s k)

/-- Settles O53: management values as at reset, and the enable refused for what its configuration lacks. -/
theorem managementValues : Obligations.ManagementValues := by
  refine ⟨fun s k h _ => ?_, fun s k _ _ hoff h => ⟨exec_vfEnable_refused (configOk_of_lack h), ?_⟩⟩
  · obtain ⟨⟨v, hv⟩, howner⟩ := tenant_reset h k
    refine ⟨_, hv.symm, rfl, fun d _ => ⟨rfl, rfl, rfl, rfl⟩, fun _ _ => rfl, rfl, rfl, rfl, rfl, rfl, fun _ => BitVec.getLsbD_zero, rfl, rfl,
      fun g _ => howner g⟩
  · simp [State.ready, hoff]

/-- Settles O60: the state after reset lists nothing. -/
theorem resetState : Obligations.ResetState :=
  ⟨rfl, fun _ => rfl, fun _ => ⟨rfl, rfl⟩, rfl, rfl, rfl, rfl, fun _ _ => rfl⟩

end Sys2Proof
end

section
/-! SUPPORT. Management and register writes (R260, R273, R306, R320-R322, R327, R328, R336): what each sets where it is allowed. Settles O44. -/

namespace Sys2Proof.Machine

theorem State.tenant_modTenant_ne (s : State) {t u : Nat} (f : Tenant → Tenant) (h : u ≠ t) : (s.modTenant t f).tenant u = s.tenant u :=
  State.tenant_setTenant_ne s _ (Ne.symm h)

/-- A value listed is listed changed where every value changes. -/
theorem Map.at?_map {α : Type} (f : Nat → α → α) (k : Nat) (m : Map α) :
    Map.at? (m.map (fun p => (p.1, f p.1 p.2))) k = (Map.at? m k).map (f k) := by
  induction m with
  | nil => rfl
  | cons p t ih =>
    obtain ⟨j, v⟩ := p
    by_cases h : j = k
    · simp [Map.at?, h]
    · simp [Map.at?, h, ih]

/-- A tenant with a quota of the step cache, its region and the pages pinned for it (R273). -/
def Tenant.setQuota (v : Tenant) (n base : Nat) (m : Map Nat) : Tenant :=
  { v with sacQuota := n, sacBase := base, pins := Map.put [] v.pins sacTag m }

/-- A tenant with a vector unmasked, and pending no more (R328). -/
def Tenant.unmask (v : Tenant) (n : Nat) : Tenant :=
  { v with msixMask := v.msixMask &&& ~~~ (1#64 <<< n), msixPend := v.msixPend &&& ~~~ (1#64 <<< n) }

/-! ## When writes act (R331) -/

section
variable {s : State} (hman : s.managed = true)
include hman

/-- Where management acts the device is powered, and its registers answer. -/
theorem State.mmioUp_of_managed : s.mmioUp = true := by
  simp only [State.managed, Bool.and_eq_true, decide_eq_true_eq] at hman
  obtain ⟨⟨hpow, hlow⟩, -⟩ := hman
  have hdev : s.devstat ≠ 0 := Nat.ne_of_gt (Nat.lt_of_lt_of_le (by decide) hlow)
  simp [State.mmioUp, hpow, hdev]

variable {k : Nat} (hk : k < 32)
include hk

/-- A management write to a function that is not enabled acts. -/
theorem State.manage_of_disabled (hoff : (s.tenant k).enabled = false) (f : Tenant → Tenant) : s.manage k f = s.modTenant k f := by
  have hk' : ¬ Config.numTenants ≤ k := Nat.not_le.2 hk
  simp [State.manage, hman, hoff, hk']

/-- The enable of a whole configuration. -/
theorem exec_vfEnable (hoff : (s.tenant k).enabled = false) (hok : configOk s k = true) : exec (.vfEnable k) s =
    .next ((s.pinSaves k).modTenant k (fun v => { v with
      enabled := true, bucket := v.bucket.map (fun b => (b.1, b.2.1, b.2.2.1, ((16 * b.2.2.1 : Nat) : Int), s.cycle)) })) := by
  have hk' : k < Config.numTenants := hk
  show execVfEnable k s = _
  simp [execVfEnable, hman, hoff, hok, hk']

/-- A bucket that had no rate starts full. -/
theorem exec_rateLimitConfig {d : Nat} (hd : d < 8) (v : BitVec 64) (hnew : ((s.tenant k).bucketOf d).1 = 0) (hrate : bits v.toNat 0 32 ≠ 0) :
    exec (.rateLimitConfig k d v) s = .next (s.modTenant k (fun w => { w with
      bucket := Map.ins w.bucket d (bits v.toNat 0 32, bits v.toNat 32 32, ((16 * bits v.toNat 32 32 : Nat) : Int), s.cycle) })) := by
  have hk' : k < Config.numTenants := hk
  show execRateLimitConfig k d v s = _
  simp [execRateLimitConfig, State.modTenant, hman, hk', hd, hnew, hrate]

/-- A quota that the directory has room for, and a region that translates. -/
theorem exec_sacQuotaWrite {v : BitVec 64} {m : Map Nat} (hown : bits v.toNat 0 13 ≤ 4096) (hall : s.quotaOthers k + bits v.toNat 0 13 ≤ 4096)
    (hpin : pinRegion s k (v.toNat / 65536 * 65536) (64 * bits v.toNat 0 13) = some m) : exec (.sacQuotaWrite k v) s =
    .next { s.modTenant k (fun w => w.setQuota (bits v.toNat 0 13) (v.toNat / 65536 * 65536) m) with
      sac := s.sac.filter (fun e => e.1 / 4096 % 32 ≠ k) } := by
  have hk' : ¬ Config.numTenants ≤ k := Nat.not_le.2 hk
  show execSacQuotaWrite k v s = _
  simp only [execSacQuotaWrite, hman, hk', Nat.not_lt.2 hown, Nat.not_lt.2 hall, hpin]
  rfl

/-- A management write sets its value, in its field alone. -/
theorem exec_registerWrite_manages {w : RegWrite} {f : Tenant → Tenant} (hw : managementWrite w = some (k, f))
    (hoff : (s.tenant k).enabled = false) : exec (.registerWrite w) s = .next (s.modTenant k f) := by
  have hact := State.manage_of_disabled hman hk hoff f
  show execRegisterWrite w s = _
  rw [← hact]
  cases w with
  | ptbase | tenctl | scap | qmax | weight | window => cases hw; rfl
  | floorCap t d lo hi =>
    by_cases hd : d < 8
    · cases (if_pos hd).symm.trans hw
      exact congrArg Host.Outcome.next (if_neg (Nat.not_le.2 hd))
    · cases (if_neg hd).symm.trans hw
  | queueCap t q cap =>
    by_cases hq : q < 16
    · cases (if_pos hq).symm.trans hw
      exact congrArg Host.Outcome.next (if_neg (Nat.not_le.2 hq))
    · cases (if_neg hq).symm.trans hw
  | endpoint t dev v =>
    by_cases hdev : dev < 0x3FF
    · cases (if_pos hdev).symm.trans hw
      exact congrArg Host.Outcome.next (if_neg (Nat.not_le.2 hdev))
    · cases (if_neg hdev).symm.trans hw
  | vf | rgOwner | powerLimit | msixMask => cases hw
end

/-! ## A tenant's page (R322, R327) -/

section
variable {s : State} (hup : s.mmioUp = true) {k off : Nat} (hk : k < 32) (hoff : off < 0x10000)
include hup hk hoff

/-- A narrow or misaligned access sets its status bit. -/
theorem exec_registerWrite_bad {width : Nat} (hbad : width ≠ 8 ∨ off % 8 ≠ 0) (v : Dword) :
    exec (.registerWrite (.vf k off width v)) s = .next (s.flag k qBadAccess) := by
  have hk' : ¬ Config.numTenants ≤ k := Nat.not_le.2 hk
  have hbad' : (decide (width ≠ 8) || decide (off % 8 ≠ 0)) = true := by simpa using hbad
  show execRegisterWrite (.vf k off width v) s = _
  simp only [execRegisterWrite, hup, hk', Nat.not_le.2 hoff, hbad']
  rfl

theorem exec_registerWrite_vf (halign : off % 8 = 0) (v : Dword) :
    exec (.registerWrite (.vf k off 8 v)) s = .next (s.vfWrite k off v) := by
  have hk' : ¬ Config.numTenants ≤ k := Nat.not_le.2 hk
  show execRegisterWrite (.vf k off 8 v) s = _
  simp only [execRegisterWrite, hup, hk', Nat.not_le.2 hoff, halign]
  rfl
end

/-- The registers of the handlers' addresses, one for each core (R298). -/
theorem State.vfWrite_tvec (s : State) (k : Nat) {c : Nat} (hc : c < 384) (v : Dword) : s.vfWrite k (0x3000 + 8 * c) v =
    s.modCore c (fun q => { q with tvec := Map.put 0 q.tvec k (v.toNat / 4 * 4) }) := by
  have hindex : (0x3000 + 8 * c - 0x3000) / 8 = c := by omega
  unfold State.vfWrite
  rw [if_neg (by omega), if_neg (by omega), if_neg (by simp; omega), if_neg (by omega), if_neg (by simp; omega), if_neg (by simp; omega),
    if_pos (by simp; omega), hindex]

/-! ## Messages (R328) -/

/-- A vector unmasked is pending no more, and sent if it was. -/
theorem exec_msixUnmask {s : State} (hup : s.mmioUp = true) (k : Nat) {n : Nat} (hn : n < 64) : exec (.msixUnmask k n) s = .next
    { s.modTenant k (fun v => v.unmask n) with
      msix := if (s.tenant k).msixPend.getLsbD n then (k, n) :: s.msix else s.msix } := by
  show execMsixUnmask k n s = _
  unfold execMsixUnmask
  rw [if_pos (by simp [hup, hn])]
  dsimp only
  cases h : (s.tenant k).msixPend.getLsbD n
  · rfl
  · rfl

/-- The bit cleared is clear. -/
theorem getLsbD_clearBit (v : BitVec 64) {n : Nat} (hn : n < 64) : (v &&& ~~~ (1#64 <<< n)).getLsbD n = false := by
  simp [hn]

end Sys2Proof.Machine

namespace Sys2Proof
open Machine

/-- Settles O44: each write sets its own subject's value. -/
theorem management : Obligations.Management := by
  intro s k v hman hk
  have hup := State.mmioUp_of_managed hman
  refine ⟨fun hoff hok => ?enable, fun d hd hnew hrate => ?rate, fun m hown hall hpin => ?quota,
    fun w f hw hoff => exec_registerWrite_manages hman hk hw hoff, fun off width hoff hbad => exec_registerWrite_bad hup hk hoff hbad v,
    fun c hc => ?tvec, fun n hn => ?unmask⟩
  case enable =>
    have hpin : (pinSave s k).isSome = true := by
      simp only [configOk, Bool.and_eq_true] at hok
      exact hok.1.2
    obtain ⟨ps, hps⟩ := Option.isSome_iff_exists.1 hpin
    refine ⟨_, exec_vfEnable hman hk hoff hok, ?_⟩
    rw [State.tenant_modTenant_self, State.pinSaves, State.tenant_modTenant_self]
    refine ⟨rfl, fun d b hb => ?_, ⟨ps, hps, by rw [hps]; rfl⟩, fun j hj => ?_, rfl, rfl⟩
    · refine (Map.at?_map (fun _ b => (b.1, b.2.1, ((16 * b.2.1 : Nat) : Int), s.cycle)) d (s.tenant k).bucket).trans ?_
      rw [hb]
      rfl
    · rw [State.tenant_modTenant_ne _ _ hj, State.tenant_modTenant_ne _ _ hj]
  case rate =>
    refine ⟨_, exec_rateLimitConfig hman hk hd v hnew hrate, ?_, fun j hj => State.tenant_modTenant_ne _ _ hj, rfl, rfl⟩
    rw [State.tenant_modTenant_self]
    exact Map.get_ins_self _ _ _ _
  case quota =>
    have hself := State.tenant_modTenant_self s k (fun w => w.setQuota (bits v.toNat 0 13) (v.toNat / 65536 * 65536) m)
    exact ⟨_, exec_sacQuotaWrite hman hk hown hall hpin, congrArg Tenant.sacQuota hself, congrArg Tenant.sacBase hself,
      fun e he => of_decide_eq_true (List.mem_filter.1 he).2,
      fun j hj => State.tenant_modTenant_ne s (fun w => w.setQuota (bits v.toNat 0 13) (v.toNat / 65536 * 65536) m) hj, rfl⟩
  case tvec =>
    refine ⟨_, exec_registerWrite_vf hup hk (by omega) (by omega) v, ?_⟩
    rw [State.vfWrite_tvec s k hc v, State.core_modCore_self]
    exact ⟨Map.get_put_self _ _ _ _, fun j hj => State.core_modCore_ne _ _ (Ne.symm hj), rfl, rfl⟩
  case unmask =>
    have hself := State.tenant_modTenant_self s k (fun v => v.unmask n)
    exact ⟨_, exec_msixUnmask hup k hn, (congrArg (fun v => v.msixMask.getLsbD n) hself).trans (getLsbD_clearBit _ hn),
      (congrArg (fun v => v.msixPend.getLsbD n) hself).trans (getLsbD_clearBit _ hn), rfl, rfl⟩

end Sys2Proof
end

section
/-! SUPPORT. Selection words (R241-R247): each writes its index and value tiles, or its counts or marks, alone. Settles O6. -/

namespace Sys2Proof.Machine

/-! ## The checks (R241) -/

/-- A selection word that passes its checks has the shapes it asks for. -/
theorem kOwn_shapes {types count shapes : QWord → Bool} {x : Ctx} {w : QWord} (h : kOwn types count shapes x w = none) : shapes w = true := by
  unfold kOwn at h
  split_ifs at h with htypes hcount hshapes
  simpa using hshapes

theorem isDims_iff {w : QWord} {t n m : Nat} : isDims w t n m = true ↔ w.rows t = n ∧ w.cols t = m := by
  simp [isDims]

/-- What a ranking word asks of its shapes: both destinations of given dimensions, and two of them. -/
theorem pairDims_iff {w : QWord} {d b : BitVec 6} {n m : Nat} :
    (isDims w b.toNat n m && isDims w d.toNat n m && decide (d ≠ b)) = true ↔
      (w.rows b.toNat = n ∧ w.cols b.toNat = m) ∧ (w.rows d.toNat = n ∧ w.cols d.toNat = m) ∧ d.toNat ≠ b.toNat := by
  simp only [Bool.and_eq_true, isDims_iff, decide_eq_true_eq, ne_eq, BitVec.toNat_inj, and_assoc]

/-! ## Pairs of tiles -/

/-- Of two tiles written, only patterns in their columns count. -/
theorem Put.congr_cols {w : QWord} {k l : Core} {a b : Nat} {rows : List Nat} {f g f' g' : Nat → Nat → Nat}
    (h : Put w [(a, rows, f), (b, rows, g)] k l) (hf : ∀ i ∈ rows, ∀ j < w.cols a, f i j = f' i j)
    (hg : ∀ i ∈ rows, ∀ j < w.cols b, g i j = g' i j) : Put w [(a, rows, f'), (b, rows, g')] k l where
  rest := h.rest
  elems := by
    have hold := h.elems
    simp only [List.forall_mem_cons, List.not_mem_nil, false_imp_iff, implies_true, and_true] at hold ⊢
    exact ⟨fun i hi j hj => by rw [← hf i hi j hj]; exact hold.1 i hi j hj, fun i hi j hj => by rw [← hg i hi j hj]; exact hold.2 i hi j hj⟩
  beyond := by
    have hold := h.beyond
    simpa only [List.forall_mem_cons, List.not_mem_nil, false_imp_iff, implies_true, and_true] using hold
  others := by
    have hold := h.others
    simpa only [List.forall_mem_cons, List.not_mem_nil, false_imp_iff, implies_true, and_true] using hold

section
variable {x : Ctx} {ts : List Nat} {i : Instr} {e : Engine} {srcs : List Nat} {vals : List Dword} {w : QWord}
  (hw : w = x.tileWord i e srcs vals ts) (hleg : x.legal ts)
include hw hleg

/-- The selected rows of an index tile, and the same rows of a value tile. -/
theorem put_pair {d b : Nat} (hd : d ∈ ts) (hb : b ∈ ts) (hdb : d ≠ b) (f g : Nat → Nat → Nat) (k : Core) :
    Put w [(d, selRows w (w.rows d), f), (b, selRows w (w.rows d), g)] k (putPair w d b (selRows w (w.rows d)) f g k) :=
  put_two hw hleg hd hb hdb (selRows_nodup _ _) (sel_lt hw hleg hd) f g k

/-- A ranking by rows looks each of its rows up in the orders of them all (R241). -/
theorem put_rowRank {d a b : Nat} (hd : d ∈ ts) (hb : b ∈ ts) (hdb : d ≠ b) (hrows : w.rows d = w.rows a) (F : Nat → List Nat)
    (val : Nat → Nat → Nat) (k : Core) :
    Put w [(d, selRows w (w.rows d), fun i j => (F i).getD j 0), (b, selRows w (w.rows d), fun i j => val i ((F i).getD j 0))] k
      (putPair w d b (selRows w (w.rows d)) (fun i j => (Map.get [] ((List.range (w.rows a)).map (fun i => (i, F i))) i).getD j 0)
        (fun i j => val i ((Map.get [] ((List.range (w.rows a)).map (fun i => (i, F i))) i).getD j 0)) k) := by
  have hget : ∀ i ∈ selRows w (w.rows d), Map.get [] ((List.range (w.rows a)).map (fun i => (i, F i))) i = F i := fun i hi =>
    Map.get_rows [] F (List.mem_range.2 (hrows ▸ selRows_lt hi))
  refine (put_pair hw hleg hd hb hdb _ _ k).congr_cols (fun i hi j _ => ?_) (fun i hi j _ => ?_)
  · rw [hget i hi]
  · rw [hget i hi]

/-- A ranking by columns looks each of its columns up in the orders of them all (R243). -/
theorem put_colRank {d a b : Nat} (hd : d ∈ ts) (hb : b ∈ ts) (hdb : d ≠ b) (hcols : w.cols d = w.cols a) (hcols2 : w.cols b = w.cols a)
    (F : Nat → List Nat) (val : Nat → Nat → Nat) (k : Core) :
    Put w [(d, selRows w (w.rows d), fun r j => (F j).getD r 0), (b, selRows w (w.rows d), fun r j => val ((F j).getD r 0) j)] k
      (putPair w d b (selRows w (w.rows d)) (fun r j => (((List.range (w.cols a)).map F).getD j []).getD r 0)
        (fun r j => val ((((List.range (w.cols a)).map F).getD j []).getD r 0) j) k) := by
  have hget : ∀ j < w.cols a, ((List.range (w.cols a)).map F).getD j [] = F j := fun j hj => by simp [List.getD, hj]
  refine (put_pair hw hleg hd hb hdb _ _ k).congr_cols (fun r _ j hj => ?_) (fun r _ j hj => ?_)
  · rw [hget j (hcols ▸ hj)]
  · rw [hget j (hcols2 ▸ hj)]
end

/-! ## The words -/

/-- The selection words (R241-R247) write their destinations alone. -/
theorem rankTiles_complete : TileWordsComplete rankTiles := by
  intro s u x i r vals pops w k hr hw hu hk h hread hleg hown hp
  cases i
  case ktopc d a b n =>
    cases hr
    dsimp only at hown
    have hshapes := kOwn_shapes hown
    obtain ⟨⟨-, hb⟩, ⟨-, hd⟩, hdb⟩ := pairDims_iff.1 hshapes
    exact tile_done hw hu hk h rfl hread hleg hown hp (by rw [hk]; rfl) rfl
      (put_colRank hw hleg (by simp) (by simp) hdb hd hb _ _)
  case ktopr d a b n =>
    cases hr
    dsimp only at hown
    have hshapes := kOwn_shapes hown
    obtain ⟨-, ⟨hd, -⟩, hdb⟩ := pairDims_iff.1 hshapes
    exact tile_done hw hu hk h rfl hread hleg hown hp (by rw [hk]; rfl) rfl
      (put_rowRank hw hleg (by simp) (by simp) hdb hd _ _)
  case ksort d a b =>
    cases hr
    dsimp only at hown
    have hshapes := kOwn_shapes hown
    obtain ⟨-, ⟨hd, -⟩, hdb⟩ := pairDims_iff.1 hshapes
    exact tile_done hw hu hk h rfl hread hleg hown hp (by rw [hk]; rfl) rfl
      (put_rowRank hw hleg (by simp) (by simp) hdb hd _ _)
  case kmerge d a b n =>
    cases hr
    dsimp only at hown
    have hshapes := kOwn_shapes hown
    simp only [Bool.and_eq_true, decide_eq_true_eq] at hshapes
    obtain ⟨⟨⟨heven, -⟩, -⟩, -⟩ := hshapes
    exact tile_done hw hu hk h rfl hread hleg hown hp (by rw [hk]; rfl) rfl
      (put_pair hw hleg (by simp [heven]) (by simp [heven]) (Nat.ne_of_lt (Nat.lt_succ_self _)) _ _)
  case khist d a n =>
    cases hr
    exact tile_done hw hu hk h rfl hread hleg hown hp (by rw [hk]; rfl) rfl (put_sel hw hleg (by simp) _)
  case kmark d a n =>
    cases hr
    exact tile_done hw hu hk h rfl hread hleg hown hp (by rw [hk]; rfl) rfl (put_sel hw hleg (by simp) _)
  all_goals cases hr

/-- Settles O6: every word of the table leaves exactly its tiles written. -/
theorem selectionWords : Obligations.SelectionWords := rankTiles_complete

end Sys2Proof.Machine
end

section
/-! SUPPORT. The system words that return to the strand (R281, R287, R307, R313-R315): what each runs to where its checks have passed.
Settles O16. -/

namespace Sys2Proof.Machine

/-- A word that touches the unit of its record as it passes capture leaves its queue to it (R184, R312). -/
theorem acts_touch {t : State} {c : Nat} {v : QWord} {y : Ctx} (hy : t.ctx c = some y) (ht : t.setCtx c y = t) :
    Acts touchRecord t c v y y := by
  have hkept := Kept1.touchUnits c y.me [spadUnitOf v.pa] t
  refine Acts.build (g := fun z => z) ht (fun q => ?_) rfl rfl rfl rfl rfl (.inr ⟨rfl, rfl⟩) hkept.net hkept.cmds ⟨hkept.snoop, hkept.picks⟩
    (touchUnits_spilling _ _)
  unfold touchRecord
  simp only [State.ctx_setCtx_self]
  exact touchUnits_setCtx (x := { y with qs := q }) (y := y) rfl rfl y.me _ hy

/-! ## What the starts find -/

section
variable {u : State} {c : Nat} {y : Ctx} {v : QWord} (hy : u.ctx c = some y)
include hy

/-- A launch is enqueued where its queue has room, and waits where it has none (R287). -/
theorem runKlaunch_eq (q : BitVec 4) : runKlaunch q u c v =
    if queueFull (u.tenant y.tenant) q.toNat then .hold u else .done (u.enqueueLaunch y.tenant q.toNat (op0 v).toNat) := by
  unfold runKlaunch
  rw [hy]

/-- A wait for the mailbox is over where it holds a word (R314). -/
theorem runWfi_eq : runWfi u c v = if ((u.core c).box y).isEmpty then .hold u else .done u := by
  unfold runWfi
  rw [hy]

/-- Every unit that another context holds is spilled (R313). -/
theorem runSpflush_done : runSpflush u c v = .done (spillOthers u c y.me (List.range 176)) := by
  unfold runSpflush
  rw [hy]

/-- An invalidation goes to every slice, and shuts the queue (R281). -/
theorem runSacinv_shut : runSacinv u c v = .shut (u.issues c y v 0x30 0 0 Config.numSlices (rangeFrom u.nextId Config.numSlices) (fun cmd =>
    (numbered u.nextId ((List.range Config.numSlices).map Leaf.slice)).map (fun p => pkt y c cmd p.1 [p.2] .sacInv))) := by
  unfold runSacinv
  rw [hy]
  simp only [List.length_map, List.length_range]
  rfl

/-- A snapshot is asked of the IO die (R315). -/
theorem runCntsnap_going : runCntsnap u c v = .going (sendCmd u c y v 0x31 (.cntsnap v.pa (v.frames.getD 0 0)) .io) := by
  unfold runCntsnap
  rw [hy]

/-- A barrier's configuration is its record's (R314). -/
theorem runBarcfg_done (t : BitVec 3) : runBarcfg t u c v = .done (u.modTenant y.tenant (fun m => { m with
    bars := Map.ins m.bars t.toNat { parts := v.desc.setWidth 384, conf := v.desc.getLsbD 384 } })) := by
  unfold runBarcfg
  rw [hy]

end

/-- A word that finishes, or waits in its queue. -/
theorem afterRun_waits {s0 s t : State} {c : Nat} {w : QWord} (hs : w.pfx.signal = 0) (hq : w.seqr = none) (p : Prop) [Decidable p] :
    afterRun s0 c w (if p then .hold s else .done t) = if p then s.waits c w else t := by
  split
  · rfl
  · exact afterRun_done hs hq

/-- A word under way whose queue stands until it has finished. -/
theorem afterRun_shuts (s0 s : State) (c : Nat) (w : QWord) : afterRun s0 c w (.shut s) = s.shuts c w := rfl

/-! ## The table -/

/-- Each row's word runs to what the row gives. -/
theorem systemWords_complete : WordsComplete systemWords := by
  intro s u x y i r vals pops w v hr h hp hv hu hy _
  obtain ⟨-, hseqr, -⟩ := Passes.word h hp hv
  cases i
  case klaunch a q =>
    cases hr
    refine word_still (run := runKlaunch q) h hp hv hu (acts_none h) rfl (fun _ hsig => ?_)
    rw [runKlaunch_eq hy, afterRun_waits hsig (hseqr rfl)]
  case tinv a => cases hr; exact word_plain (run := runTinv) h hp hv hu (acts_none h) rfl rfl (by unfold runTinv; rw [hy])
  case wfi =>
    cases hr
    refine word_still (run := runWfi) h hp hv hu (acts_none h) rfl (fun _ hsig => ?_)
    rw [runWfi_eq hy, afterRun_waits hsig (hseqr rfl)]
  case spflush =>
    cases hr
    refine word_plain (run := runSpflush) h hp hv hu (acts_none h) rfl rfl ?_
    dsimp only
    rw [runSpflush_done hy]
  case ctxsave a => cases hr; exact word_plain (run := runCtxsave) h hp hv hu (acts_none h) rfl rfl (by unfold runCtxsave; rw [hy])
  case ctxload a => cases hr; exact word_plain (run := runCtxload) h hp hv hu (acts_none h) rfl rfl (by unfold runCtxload; rw [hy])
  case sacinv =>
    cases hr
    refine word_still (run := runSacinv) h hp hv hu (acts_none h) rfl (fun _ _ => ?_)
    dsimp only
    rw [runSacinv_shut hy, afterRun_shuts]
  case cntsnap a =>
    cases hr
    exact word_still (run := runCntsnap) h hp hv hu (acts_none h) rfl (fun _ _ => by rw [runCntsnap_going hy]; rfl)
  case barcfg a t =>
    cases hr
    exact word_plain (run := runBarcfg t) h hp hv hu (fun y0 hy0 => ⟨y0, acts_touch hy0 (reserving_same h.resident hy0)⟩) rfl rfl
      (runBarcfg_done hy t)
  all_goals cases hr

end Sys2Proof.Machine

namespace Sys2Proof

/-- Settles O16: every word of the table completes. -/
theorem systemWords : Obligations.SystemWords := Machine.systemWords_complete

end Sys2Proof
end

section
/-! SUPPORT. The return from a trap (R300): the context that `eret` leaves, case by case, and the words that stand again unstarted.
Settles O18. -/

namespace Sys2Proof.Machine

/-! ## Held words dropped (R300) -/

theorem Ctx.foldl_produce_eq (is : List Nat) : ∀ x : Ctx, ∃ q, is.foldl (fun y i => y.produce i 0) x = { x with q6 := q } := by
  induction is with
  | nil => exact fun x => ⟨x.q6, rfl⟩
  | cons i is ih =>
    intro x
    obtain ⟨q, hq⟩ := ih (x.produce i 0)
    exact ⟨q, hq⟩

/-- Words dropped leave of a context all but its q6 elements, its sequencers and its result queue. -/
theorem Ctx.foldl_dropWord_eq (ws : List QWord) : ∀ x : Ctx, ∃ q m r, ws.foldl Ctx.dropWord x = { x with q6 := q, seqrs := m, rq := r } := by
  induction ws with
  | nil => exact fun x => ⟨x.q6, x.seqrs, x.rq, rfl⟩
  | cons w ws ih =>
    intro x
    obtain ⟨q, hq⟩ := x.foldl_produce_eq w.q6
    obtain ⟨m, hm⟩ := (w.q6.foldl (fun y i => y.produce i 0) x).perform_eq w.seqr w.opn
    obtain ⟨q', m', r', h⟩ := ih (x.dropWord w)
    refine ⟨q', m', r', h.trans ?_⟩
    rw [Ctx.dropWord, hm, hq]

/-! ## The context that returns (R300) -/

/-- What a return leaves of the context that returns: the held counts, the mode before entry, the registers, and the place of capture
and the words that stand again by the case of R300. -/
structure Returned (x y : Ctx) : Prop where
  tok : y.tok = x.held.toks
  pstat : y.pstat = if x.pstat.getLsbD 1 then 1#8 else 0#8
  held : y.held = {}
  n : y.n = x.n
  p : y.p = x.p
  capture : x.pstat.getLsbD 2 = false → y.qs = x.held.words ∧ y.pc = x.epc
  retry : x.pstat.getLsbD 2 = true → x.epc = x.held.epc0 → x.pstat.getLsbD 6 = false → y.qs = x.held.words ∧ y.pc = x.held.resume
  skip : x.pstat.getLsbD 2 = true → x.epc = x.held.epc0 → x.pstat.getLsbD 6 = true →
    y.qs = x.held.words.filter (fun w => some w.seq ≠ x.held.trapped) ∧ y.pc = x.held.resume
  moved : x.pstat.getLsbD 2 = true → x.epc ≠ x.held.epc0 → y.qs = [] ∧ y.pc = x.epc

/-- A context in the mode before entry again, its token counts standing. -/
def Ctx.leaveHandler (x : Ctx) : Ctx :=
  { x with tok := x.held.toks, pstat := if x.pstat.getLsbD 1 then 1#8 else 0#8, held := {}, stall := .none }

/-- The trap was one of capture. -/
theorem Ctx.returnTrap_capture {x : Ctx} (htrap : x.pstat.getLsbD 2 = false) :
    x.returnTrap = x.leaveHandler.restoreHeld x.held.words x.epc := by
  unfold Ctx.returnTrap
  dsimp only
  rw [if_pos (by rw [htrap]; rfl)]
  rfl

section
variable {x : Ctx} (htrap : x.pstat.getLsbD 2 = true)
include htrap

/-- The trap was one of an engine, and its word is to run again. -/
theorem Ctx.returnTrap_retry (hepc : x.epc = x.held.epc0) (hskip : x.pstat.getLsbD 6 = false) :
    x.returnTrap = x.leaveHandler.restoreHeld x.held.words x.held.resume := by
  unfold Ctx.returnTrap
  dsimp only
  rw [if_neg (by rw [htrap]; decide), if_pos hepc, if_neg (by rw [hskip]; decide)]
  rfl

/-- Its word is to be left out. -/
theorem Ctx.returnTrap_skip (hepc : x.epc = x.held.epc0) (hskip : x.pstat.getLsbD 6 = true) :
    x.returnTrap = ((x.held.words.filter (fun w => some w.seq = x.held.trapped)).foldl Ctx.dropWord x.leaveHandler).restoreHeld
      (x.held.words.filter (fun w => some w.seq ≠ x.held.trapped)) x.held.resume := by
  unfold Ctx.returnTrap
  dsimp only
  rw [if_neg (by rw [htrap]; decide), if_pos hepc, if_pos hskip]
  rfl

/-- The handler has moved the place of capture. -/
theorem Ctx.returnTrap_moved (hepc : x.epc ≠ x.held.epc0) :
    x.returnTrap = { x.held.words.foldl Ctx.dropWord x.leaveHandler with pc := x.epc } := by
  unfold Ctx.returnTrap
  dsimp only
  rw [if_neg (by rw [htrap]; decide), if_neg hepc]
  rfl
end

/-- A context whose queues are empty returns. -/
theorem Ctx.returnTrap_returned {x : Ctx} (hqs : x.qs = []) : Returned x x.returnTrap := by
  cases htrap : x.pstat.getLsbD 2
  · have hno := Bool.eq_false_iff.1 htrap
    rw [Ctx.returnTrap_capture htrap]
    exact ⟨rfl, rfl, rfl, rfl, rfl, fun _ => ⟨rfl, rfl⟩, fun h => absurd h hno, fun h => absurd h hno, fun h => absurd h hno⟩
  · have hno : ∀ {p : Prop}, x.pstat.getLsbD 2 = false → p := fun h => absurd htrap (Bool.eq_false_iff.1 h)
    by_cases hepc : x.epc = x.held.epc0
    · cases hskip : x.pstat.getLsbD 6
      · rw [Ctx.returnTrap_retry htrap hepc hskip]
        exact ⟨rfl, rfl, rfl, rfl, rfl, hno, fun _ _ _ => ⟨rfl, rfl⟩, fun _ _ h => absurd h (Bool.eq_false_iff.1 hskip),
          fun _ h => absurd hepc h⟩
      · obtain ⟨q, m, r, hdrop⟩ := Ctx.foldl_dropWord_eq (x.held.words.filter (fun w => some w.seq = x.held.trapped)) x.leaveHandler
        rw [Ctx.returnTrap_skip htrap hepc hskip, hdrop]
        exact ⟨rfl, rfl, rfl, rfl, rfl, hno, fun _ _ h => absurd hskip (Bool.eq_false_iff.1 h), fun _ _ _ => ⟨rfl, rfl⟩,
          fun _ h => absurd hepc h⟩
    · obtain ⟨q, m, r, hdrop⟩ := Ctx.foldl_dropWord_eq x.held.words x.leaveHandler
      rw [Ctx.returnTrap_moved htrap hepc, hdrop]
      exact ⟨rfl, rfl, rfl, rfl, rfl, hno, fun _ h => absurd h hepc, fun _ h => absurd h hepc, fun _ _ => ⟨hqs, rfl⟩⟩

/-- Every word that stands again was held. -/
theorem Returned.words {x y : Ctx} (h : Returned x y) : ∀ w ∈ y.qs, w ∈ x.held.words := by
  intro w hw
  cases htrap : x.pstat.getLsbD 2
  · rwa [(h.capture htrap).1] at hw
  · by_cases hepc : x.epc = x.held.epc0
    · cases hskip : x.pstat.getLsbD 6
      · rwa [(h.retry htrap hepc hskip).1] at hw
      · rw [(h.skip htrap hepc hskip).1] at hw
        exact (List.mem_filter.1 hw).1
    · rw [(h.moved htrap hepc).1] at hw
      cases hw

/-! ## Push slots given back (R235, R300) -/

theorem PushLeft.trans {x y z : Ctx} (h : PushLeft x y) (g : PushLeft y z) : PushLeft x z := by
  obtain ⟨_, _, rfl⟩ := h
  obtain ⟨o, ch, rfl⟩ := g
  exact ⟨o, ch, rfl⟩

/-- A context resident in a core, but for what it pushes into channels and takes from them. -/
def State.Resides (s : State) (c : Nat) (x : Ctx) : Prop := ∃ y, PushLeft x y ∧ s.ctx c = some y

section
variable {s : State} {c : Nat} {x : Ctx} (h : s.Resides c x)
include h

theorem State.Resides.modCtx {f : Ctx → Ctx} (hf : ∀ z, PushLeft z (f z)) : (s.modCtx c f).Resides c x := by
  obtain ⟨y, hleft, hy⟩ := h
  exact ⟨f y, hleft.trans (hf y), by rw [State.ctx_modCtx_self, hy]; rfl⟩

theorem State.Resides.modCtxOf {f : Ctx → Ctx} (hf : ∀ z, PushLeft z (f z)) (d u : Nat) : (s.modCtxOf d u f).Resides c x := by
  by_cases hd : d = c
  · subst hd
    obtain ⟨y, hleft, hy⟩ := h
    have hctx : (s.modCtxOf d u f).ctx d = some (if y.uid = u then f y else y) := by
      rw [State.modCtxOf, State.ctx_modCore_self, show (s.core d).res = some y from hy]
      rfl
    refine ⟨_, hleft.trans ?_, hctx⟩
    split
    · exact hf y
    · exact ⟨_, _, rfl⟩
  · unfold State.Resides State.ctx State.modCtxOf
    rw [State.core_modCore_ne _ _ hd]
    exact h
end

theorem releasePushes_resides {c : Nat} {x z : Ctx} (ws : List QWord) : ∀ {s : State}, s.Resides c x → (releasePushes s c z ws).Resides c x := by
  induction ws with
  | nil => exact fun h => h
  | cons w ws ih =>
    intro s h
    rw [releasePushes]
    refine ih (List.foldlRecOn (motive := fun t : State => t.Resides c x) _ _ h fun t ht p _ => ?_)
    split
    · have hout := ht.modCtx (f := fun y => { y with chout := Map.ins y.chout p.1 ((Map.get [] y.chout p.1).filter (fun k => k ≠ w.seq)) })
        (fun y => ⟨_, y.chans, rfl⟩)
      dsimp only
      split
      · exact hout
      · split
        · exact hout
        · exact hout.modCtxOf (fun y => ⟨y.chout, _, rfl⟩) _ _
    · exact ht

/-! ## The word (R300) -/

/-- The return of a context with no token in its queues and no word started. -/
theorem State.eret_returned {s : State} {c : Nat} {x : Ctx} (hx : s.ctx c = some x) (htok : x.tok = []) (hfly : x.fly = []) :
    ∃ y, Returned x y ∧ (s.eret c).ctx c = some y := by
  have hdue : x.tokensDue = 0 := by simp [Ctx.tokensDue, Ctx.tokCount, Ctx.unsignalled, htok, hfly]
  obtain ⟨_, ⟨o, ch, rfl⟩, hy⟩ := releasePushes_resides (z := x) x.returnDrops (s := s) ⟨x, ⟨x.chout, x.chans, rfl⟩, hx⟩
  have hret := Ctx.returnTrap_returned (x := { x with chout := o, chans := ch, qs := [], fly := [] }) rfl
  refine ⟨_, ⟨hret.tok, hret.pstat, hret.held, hret.n, hret.p, hret.capture, hret.retry, hret.skip, hret.moved⟩, ?_⟩
  unfold State.eret
  simp only [hx, hdue, if_true, State.ctx_modCtx_self, hy, hfly]
  rfl

/-- How the word is captured. -/
def eretSpec : CapSpec := { eng := .s, priv := true, jump := true, sys := true }

/-- The word's commitment on a strand with empty queues: it alone stands queued. -/
theorem commit_eretSpec {s : State} {x : Ctx} (h : Idle s x) (w : QWord) :
    commit s s.cur eretSpec x w [] =
      ((endStall s s.cur x).setCtx s.cur { (x.pastAt false).sawM .s with qs := [{ w with q6 := [] }] }, { w with q6 := [] }) := by
  have hctx : (endStall s s.cur x).ctx s.cur = some x := (endStall_ctx s s.cur x s.cur).trans h.resident
  have henrol := Ctx.enrol_plain x (sp := eretSpec) (s.tenant x.tenant).scap w rfl rfl rfl
  have hqs : ((x.pastAt false).sawM .s).qs ++ [{ w with q6 := [] }] = [{ w with q6 := [] }] := by
    show x.qs ++ _ = _
    rw [h.queues]
    rfl
  unfold commit
  dsimp only [popPorts]
  rw [hctx]
  dsimp only
  rw [henrol]
  exact congrArg (fun qs => ((endStall s s.cur x).setCtx s.cur { (x.pastAt false).sawM .s with qs := qs }, { w with q6 := [] })) hqs

/-- The word's capture: it returns as it passes, and starts if it is still there. -/
theorem exec_eret {s : State} {x : Ctx} (h : Idle s x) (hpriv : x.priv = true) : ∃ z v, exec .eret s =
      .next (tryStart runEret (((endStall s s.cur x).setCtx s.cur z).eret s.cur) s.cur x.nextSeq) ∧
    z = { (x.pastAt false).sawM .s with qs := [v] } := by
  have hquiet : x.quiet = true := by simp [Ctx.quiet, h.queues, h.started]
  have hpass := issue_idle (i := .eret) (sp := eretSpec)
    (chk := fun _ _ x w => if x.quiet then .ok w else .stall .other) (act := fun s c _ => s.eret c) (run := runEret) h (fun _ => hpriv)
    (fun d hd => by cases hd) rfl (fun hm => by cases hm) (if_pos hquiet) h.elems rfl
  rw [commit_eretSpec h] at hpass
  exact ⟨_, { mkWord x .eret eretSpec [] with q6 := [] }, hpass, rfl⟩

/-- Where its place in the queue is gone with the return, it does not start. -/
theorem tryStart_gone {run : RunFn} {s : State} {c seq : Nat} {y : Ctx} (hy : s.ctx c = some y) (hgone : ∀ w ∈ y.qs, w.seq ≠ seq) :
    tryStart run s c seq = s := by
  have hnone : y.qs.find? (fun w => decide (w.seq = seq)) = none := List.find?_eq_none.2 fun w hw => by simpa using hgone w hw
  unfold tryStart
  simp only [hy, hnone]

end Sys2Proof.Machine

namespace Sys2Proof
open Machine

/-- Settles O18: the return acts as the word passes capture, and none of the words that stand again is the word itself. -/
theorem returnWord : Obligations.ReturnWord := by
  intro s x h hpriv htok hseq
  obtain ⟨z, v, hexec, hz⟩ := exec_eret h hpriv
  have hctx : ((endStall s s.cur x).setCtx s.cur z).ctx s.cur = some z := State.ctx_setCtx_self _ _ _
  obtain ⟨y, hret, hy⟩ := State.eret_returned hctx (by rw [hz]; exact htok) (by rw [hz]; exact h.started)
  subst hz
  refine ⟨_, y, hexec, ?_, hret.tok, hret.pstat, hret.held, hret.n, hret.p, hret.capture, hret.retry, hret.skip, hret.moved⟩
  rw [tryStart_gone hy fun w hw => hseq w (hret.words w hw)]
  exact hy

end Sys2Proof
end

section
/-! SUPPORT. Host accesses to device memory (R258, R318, R319, R331): what each leaves, and that a recalled line is tracked no more.
Settles O45. -/

namespace Sys2Proof.Machine

/-! ## A request that came in as a packet (R258) -/

@[simp] theorem State.takeHost_cores (s : State) (k : PKind) : (s.takeHost k).cores = s.cores := by
  unfold State.takeHost
  split <;> rfl

theorem State.takeHost_net (s : State) (k : PKind) : (s.takeHost k).net =
    (match s.net.find? (fun p => decide (p.2.kind = k) && decide (p.2.st = PSt.flying)) with
      | some p => Map.del s.net p.1
      | none => s.net) := by
  unfold State.takeHost
  cases s.net.find? (fun p => decide (p.2.kind = k) && decide (p.2.st = PSt.flying)) <;> rfl

/-- Bytes written leave the cores. -/
theorem State.writeBytes_cores (s : State) (a : Nat) (bs : List Byte) : (s.writeBytes a bs).cores = s.cores := by
  obtain ⟨m, hm⟩ := s.writeBytes_eq bs a
  rw [hm]

/-- Bytes written leave the packets. -/
theorem State.writeBytes_net (s : State) (a : Nat) (bs : List Byte) : (s.writeBytes a bs).net = s.net := by
  obtain ⟨m, hm⟩ := s.writeBytes_eq bs a
  rw [hm]

/-- Equal memories read alike. -/
theorem State.byte_congr {s t : State} (h : t.mem = s.mem) (a : Nat) : t.byte a = s.byte a := by
  unfold State.byte
  rw [h]

/-- A range made whole carries no mark. -/
theorem State.poisoned_cleanMem (s : State) (a n : Nat) : (s.cleanMem a n).poisoned a n = false := by
  simp only [State.poisoned, State.cleanMem, List.any_filter]
  refine List.any_eq_false.2 fun p _ => ?_
  cases decide (a ≤ p) && decide (p < a + n) <;> simp

/-! ## The accesses (R318, R319) -/

section
variable {s : State} {pa : Nat} (hup : s.memUp = true)
include hup

theorem exec_hostMemRead {n : Nat} (hin : pa + n ≤ 0xC000000000) : exec (.hostMemRead pa n) s =
    .next { s.takeHost (.hostRead pa n) with hostRead := s.readBytes pa n, snoop := (s.snoop ++ linesIn pa n).dedup } := by
  have hmem : ¬ Config.memEnd < pa + n := Nat.not_lt.2 hin
  show execHostMemRead pa n s = _
  simp [execHostMemRead, hup, hmem]

theorem exec_hostMemRead_beyond {n : Nat} (hout : 0xC000000000 < pa + n) : exec (.hostMemRead pa n) s = .fault .hostAddress := by
  have hmem : Config.memEnd < pa + n := hout
  show execHostMemRead pa n s = _
  simp [execHostMemRead, hup, hmem]

theorem exec_hostMemWrite {bs : List (BitVec 8)} (hin : pa + bs.length ≤ 0xC000000000) : exec (.hostMemWrite pa bs) s =
    .next (((s.takeHost (.hostWrite pa bs)).writeBytes pa bs).cleanMem pa bs.length) := by
  have hmem : ¬ Config.memEnd < pa + bs.length := Nat.not_lt.2 hin
  show execHostMemWrite pa bs s = _
  simp [execHostMemWrite, hup, hmem]

theorem exec_hostMemWrite_beyond {bs : List (BitVec 8)} (hout : 0xC000000000 < pa + bs.length) :
    exec (.hostMemWrite pa bs) s = .fault .hostAddress := by
  have hmem : Config.memEnd < pa + bs.length := hout
  show execHostMemWrite pa bs s = _
  simp [execHostMemWrite, hup, hmem]
end

/-! ## The answer to a recall (R319) -/

/-- A launch that waits for a line no more. -/
def Launch.dropLine (l : Launch) (a : Nat) : Launch := { l with lines := l.lines.filter (fun k => k ≠ a) }

/-- The state in which a line is tracked no more. -/
def State.untrack (s : State) (l : Nat) : State :=
  { s with
    snoop := s.snoop.filter (fun k => k ≠ l)
    recalls := s.recalls.filter (fun k => k ≠ l)
    cores := s.cores.map (fun p => (p.1, p.2.dropLine l))
    tenants := s.tenants.map (fun p => (p.1, { p.2 with launches := p.2.launches.map (fun q => (q.1, q.2.dropLine l)) })) }

theorem exec_hostRecallResponse {s : State} {l : Nat} (h : l ∈ s.recalls) : exec (.hostRecallResponse l) s = .next (s.untrack l) := by
  show execHostRecallResponse l s = _
  rw [execHostRecallResponse, if_pos h]
  rfl

/-- No sequencer waits for a line dropped. -/
theorem dropLine_lines {m : Map Seqr} {l : Nat} : ∀ q ∈ dropLine m l, ∀ e ∈ q.2.lines, e.2 ≠ l := by
  intro q hq e he
  obtain ⟨p, -, rfl⟩ := List.mem_map.1 hq
  exact of_decide_eq_true (List.mem_filter.1 he).2

theorem State.core_untrack (s : State) (l c : Nat) : (s.untrack l).core c = (s.core c).dropLine l :=
  Map.get_map ({} : Core) (fun _ k => k.dropLine l) c rfl s.cores

end Sys2Proof.Machine

namespace Sys2Proof
open Machine

/-- Settles O45: a read and a write are what their equations give, and a recalled line is filtered from all that tracks it. -/
theorem hostAccess : Obligations.HostAccess := by
  intro s pa hpow hdev
  have hup : s.memUp = true := by
    rcases hdev with h | h <;> simp [State.memUp, hpow, h]
  refine ⟨?_, ?_, fun n => exec_hostMemRead_beyond hup, fun bs => exec_hostMemWrite_beyond hup, ?_⟩
  · intro n hin
    exact ⟨_, exec_hostMemRead hup hin, rfl, fun l hl => List.mem_dedup.2 (List.mem_append_right _ hl), State.takeHost_mem s _,
      s.takeHost_cores _, s.takeHost_net _⟩
  · intro bs hin
    refine ⟨_, exec_hostMemWrite hup hin, fun i h => State.byte_writeBytes_in bs _ pa i h, fun a ha => ?_, State.poisoned_cleanMem _ _ _,
      (State.writeBytes_cores _ _ _).trans (s.takeHost_cores _), (State.writeBytes_net _ _ _).trans (s.takeHost_net _)⟩
    exact (State.byte_writeBytes_out bs _ pa a ha).trans (State.byte_congr (State.takeHost_mem s _) a)
  · intro hrec
    refine ⟨_, exec_hostRecallResponse hrec, fun h => ?_, fun h => ?_, rfl, ?_, ?_⟩
    · exact of_decide_eq_true (List.mem_filter.1 h).2 rfl
    · exact of_decide_eq_true (List.mem_filter.1 h).2 rfl
    · intro c x hx
      rw [State.ctx, State.core_untrack] at hx
      obtain ⟨y, -, rfl⟩ := Option.map_eq_some_iff.1 hx
      exact dropLine_lines
    · intro c
      rw [State.core_untrack]
      exact dropLine_lines

end Sys2Proof
end

section
/-! SUPPORT. The registers of a virtual function (R261, R287, R293, R322-R327): what each write and each read is where it acts.
Settles O42. -/

namespace Sys2Proof.Machine

/-! ## Launch queues and mailboxes (R287, R293, R322, R327) -/

/-- Where what is eligible was so, no launch becomes it. -/
theorem State.eligBack_same {s t : State} (helig : ∀ k q v, t.eligible k q = some v → s.eligible k q = some v) : s.eligBack t = t := by
  unfold State.eligBack
  refine List.foldl_fixed' (fun k => ?_) _
  refine List.foldl_fixed' (fun i => ?_) _
  cases hv : t.eligible k.1 i with
  | none => rfl
  | some v => simp [helig k.1 i v hv]

/-- Where besides the walker's order stands, nothing comes to its front. -/
theorem State.frontMoved_same {s t : State} (helig : ∀ k q, t.eligible k q = s.eligible k q)
    (hdef : ∀ k, (t.tenant k).deficit = (s.tenant k).deficit) (hrobin : ∀ k, (t.tenant k).rrobin = (s.tenant k).rrobin) :
    s.frontMoved t = t := by
  have hserv : t.serving = s.serving := by simp only [State.serving, State.byDeficit, helig, hdef, hrobin]
  simp [State.frontMoved, State.eligBack_same fun k q v h => (helig k q).symm.trans h, hserv]

/-- A head moved changes neither which launches are eligible nor their order. -/
theorem State.frontMoved_cqhead (s : State) (k : Nat) (m : Map Nat) :
    s.frontMoved (s.modTenant k (fun w => { w with cqhead := m })) = s.modTenant k (fun w => { w with cqhead := m }) := by
  have hten : ∀ j, (s.modTenant k (fun w => { w with cqhead := m })).tenant j = s.tenant j ∨
      (s.modTenant k (fun w => { w with cqhead := m })).tenant j = { s.tenant j with cqhead := m } := by
    intro j
    by_cases hj : j = k
    · rw [hj, State.tenant_modTenant_self]
      exact .inr rfl
    · exact .inl (State.tenant_modTenant_ne s _ hj)
  refine State.frontMoved_same (fun j q => ?_) (fun j => ?_) (fun j => ?_)
  · unfold State.eligible
    rcases hten j with h | h <;> rw [h] <;> rfl
  · rcases hten j with h | h <;> rw [h]
  · rcases hten j with h | h <;> rw [h]

/-- A ring that holds no record back gives none up. -/
theorem State.releaseRecords_none {s : State} {k q : Nat}
    (h : ∀ p ∈ (s.tenant k).launches, p.2.queue = q → p.2.completed = true → p.2.written = true) : s.releaseRecords k q = s := by
  have hnone : (s.tenant k).launches.filter (fun p => decide (p.2.queue = q) && p.2.completed && !p.2.written) = [] :=
    List.filter_eq_nil_iff.2 fun p hp => by
      simp only [Bool.and_eq_true, decide_eq_true_eq, Bool.not_eq_true', not_and, and_imp, Bool.not_eq_false]
      exact h p hp
  simp [State.releaseRecords, Tenant.heldRecords, hnone]

section
variable {s : State} (hup : s.mmioUp = true) (k : Nat) (v : BitVec 64)
include hup

theorem exec_qbellWrite {q : Nat} (hq : q < 16) : exec (.qbellWrite k q v) s = .next (s.doorbell k q v) := by
  show execQbellWrite k q v s = _
  simp [execQbellWrite, hup, hq]

theorem exec_cqidxHeadWrite {q : Nat} (hq : q < 16) : exec (.cqidxHeadWrite k q v) s = .next (s.writeHead k q v) := by
  show execCqidxHeadWrite k q v s = _
  simp [execCqidxHeadWrite, hup, hq]

theorem exec_iboxWrite {c : Nat} (hc : c < 384) : exec (.iboxWrite k c v) s = .next (s.writeIbox k c v) := by
  have hc' : c < Config.numCores := hc
  show execIboxWrite k c v s = _
  simp [execIboxWrite, hup, hc']

theorem exec_iboxovfClear {i : Nat} (hi : i < 6) : exec (.iboxovfClear k i v) s = .next (s.clearIboxovf k i v) := by
  show execIboxovfClear k i v s = _
  simp [execIboxovfClear, hup, hi]

theorem exec_mcgrpWrite {g i : Nat} (hg : g < 256) (hi : i < 8) : exec (.mcgrpWrite k g i v) s = .next (s.writeMcgrp k g i v) := by
  show execMcgrpWrite k g i v s = _
  simp [execMcgrpWrite, hup, hg, hi]

/-- A write to a register of the tenant's page alone acts where registers answer. -/
theorem exec_pageWrite : exec (.qstatClear k v) s = .next (s.clearQstat k v) ∧ exec (.oboxRead k) s = .next (s.popObox k) ∧
    exec (.rgselWrite k v) s = .next (s.selectGroup k v) ∧ exec (.rgcommitWrite k v) s = .next (s.commit k) ∧
    exec (.spdataStore k v) s = .next (s.storeSpdata k v) :=
  ⟨congrArg Host.Outcome.next (if_pos hup), congrArg Host.Outcome.next (if_pos hup), congrArg Host.Outcome.next (if_pos hup),
    congrArg Host.Outcome.next (if_pos hup), congrArg Host.Outcome.next (if_pos hup)⟩
end

section
variable {s : State} {k : Nat} (v : Dword)

theorem State.doorbell_notReady (h : s.ready k = false) (q : Nat) : s.doorbell k q v = s.flag k 17 := by
  simp [State.doorbell, h, qNotReady]

theorem State.doorbell_full {q : Nat} (h : s.ready k = true) (hfull : queueFull (s.tenant k) q = true) :
    s.doorbell k q v = (s.flag k q).msixRaise k q := by
  simp [State.doorbell, h, hfull]

theorem State.doorbell_room {q : Nat} (h : s.ready k = true) (hroom : queueFull (s.tenant k) q = false) :
    s.doorbell k q v = s.enqueueLaunch k q v.toNat := by
  simp [State.doorbell, h, hroom]

/-- A head written where the ring holds no record back. -/
theorem State.writeHead_none {q : Nat} (h : ∀ p ∈ (s.tenant k).launches, p.2.queue = q → p.2.completed = true → p.2.written = true) :
    s.writeHead k q v = s.modTenant k (fun w => { w with cqhead := Map.put 0 w.cqhead q (v.toNat / 2 ^ 32) }) := by
  unfold State.writeHead
  rw [State.releaseRecords_none (by rw [State.tenant_modTenant_self]; exact h)]
  exact s.frontMoved_cqhead k _

theorem State.writeIbox_room {c : Nat} {x : Ctx} (h : s.ready k = true) (hx : s.ctxFor c k = some x)
    (hroom : ((s.core c).box x).length < 16) : s.writeIbox k c v = s.modCore c (fun r => r.setBox x (r.box x ++ [v])) := by
  simp [State.writeIbox, h, hx, Nat.not_le.2 hroom]

theorem State.writeIbox_lost {c : Nat} (h : s.ready k = true) (hfull : ∀ x, s.ctxFor c k = some x → 16 ≤ ((s.core c).box x).length) :
    s.writeIbox k c v = s.modTenant k (fun w => { w with iboxovf := w.iboxovf ||| (1#384 <<< c) }) := by
  cases hx : s.ctxFor c k with
  | none => simp [State.writeIbox, h, hx]
  | some x => simp [State.writeIbox, h, hx, hfull x hx]
end

/-! ## Multicast and reduction groups (R261, R324, R325) -/

/-- A dword of a record written is read back, and every other one is as it was. -/
theorem Rec512.w_setBits (r : Rec512) {i : Nat} (hi : i < 8) (v : Dword) : Rec512.w (setBits r (64 * i) 64 v.toNat) i = v ∧
    ∀ j, j ≠ i → Rec512.w (setBits r (64 * i) 64 v.toNat) j = Rec512.w r j := by
  refine ⟨?_, fun j hj => extract_setBits_out r _ _ _ _ _ (by omega)⟩
  unfold Rec512.w
  rw [extract_setBits_self r _ _ _ (by omega), BitVec.ofNat_toNat, BitVec.setWidth_eq]

theorem State.writeMcgrp_bad {s : State} {k g i : Nat} {v : Dword} (h : (i = 6 ∧ v.toNat / 2 ≠ 0) ∨ (i = 7 ∧ v ≠ 0)) :
    s.writeMcgrp k g i v = s.flag k 63 := by
  rw [State.writeMcgrp, if_pos (by simpa using h)]
  rfl

theorem State.writeMcgrp_ok {s : State} {k g i : Nat} {v : Dword} (h6 : ¬ (i = 6 ∧ v.toNat / 2 ≠ 0)) (h7 : ¬ (i = 7 ∧ v ≠ 0)) :
    s.writeMcgrp k g i v =
      s.modTenant k (fun w => { w with mcgrp := Map.put 0 w.mcgrp g (setBits (Map.get 0 w.mcgrp g) (64 * i) 64 v.toNat) }) := by
  rw [State.writeMcgrp, if_neg]
  simpa only [Bool.or_eq_true, Bool.and_eq_true, decide_eq_true_eq, ne_eq, decide_not, Bool.not_eq_true', decide_eq_false_iff_not, not_or]
    using And.intro h6 h7

/-- A write of a group's dword sets it alone. -/
theorem State.writeMcgrp_sets {s : State} {k g i : Nat} {v : Dword} (hi : i < 8)
    (h6 : ¬ (i = 6 ∧ v.toNat / 2 ≠ 0)) (h7 : ¬ (i = 7 ∧ v ≠ 0)) :
    Rec512.w (Map.get 0 ((s.writeMcgrp k g i v).tenant k).mcgrp g) i = v ∧
    (∀ j, j ≠ i → Rec512.w (Map.get 0 ((s.writeMcgrp k g i v).tenant k).mcgrp g) j = Rec512.w (Map.get 0 (s.tenant k).mcgrp g) j) ∧
    (∀ j, j ≠ g → Map.get 0 ((s.writeMcgrp k g i v).tenant k).mcgrp j = Map.get 0 (s.tenant k).mcgrp j) := by
  rw [State.writeMcgrp_ok h6 h7, State.tenant_modTenant_self]
  dsimp only
  rw [Map.get_put_self]
  obtain ⟨hself, hother⟩ := Rec512.w_setBits (Map.get 0 (s.tenant k).mcgrp g) hi v
  exact ⟨hself, fun j hj => hother j hj, fun j hj => Map.get_put_ne _ _ _ (Ne.symm hj)⟩

/-- The answer of a commit, and the group it leaves, by the first of its checks that fails. -/
theorem commitGroup_eq (w : Tenant) (k g : Nat) (gr : Group) {r : Rec512} {tree : List Dword} {live att : List Nat}
    (hr : r = w.stagedRec g) (htree : tree = (List.range (gcNodes r)).map (w.stagedNode g)) (hlive : live = gcMembers r)
    (hatt : att = (List.range live.length).map (w.stagedAttach g)) :
    (commitGroup w k g gr).1 = (if gr.owner ≠ some k then 1 else if groupRange r tree att then 2 else if groupTree tree att then 3
      else if gr.opened.isSome || !gr.vals.isEmpty then 4 else 0) ∧
    ((commitGroup w k g gr).1 ≠ 0 → (commitGroup w k g gr).2 = gr) ∧
    ((commitGroup w k g gr).1 = 0 → (commitGroup w k g gr).2 =
      { gr with conf := r, tree := tree.mapIdx (fun i e => (i, e)), attach := live.zip att }) := by
  have hbusy : (gr.opened.isSome || !gr.vals.isEmpty) = gr.busy := rfl
  subst hatt hlive htree hr
  rw [hbusy]
  unfold commitGroup
  dsimp only
  split_ifs <;> exact ⟨rfl, by simp⟩

/-! ## The scratchpad window (R326) -/

section
variable {s : State} {k c row : Nat} {x : Ctx} (v : Dword)

/-- A row stored for the resident context that holds its unit. -/
theorem storeRow_own (hown : Map.at? (s.core c).owner (spadUnit row) = some x.me) (r : Row) :
    storeRow s c x.me row r = s.modCore c (fun q => { q.setSpadRow row r with spadPoison := q.spadPoison.filter (fun i => i ≠ row) }) := by
  have hcore : toSlot s c (spadUnit row) x.me = false := rfl
  unfold storeRow
  dsimp only
  rw [hcore, touchUnit_own hown]
  rfl

/-- The last dword of a row given for a core where the tenant's span is and none is suspended. -/
theorem State.storeSpdata_resident (hc : bits (s.tenant k).spsel.toNat 0 9 = c) (hlt : c < 384) (hrow : bits (s.tenant k).spsel.toNat 16 13 = row)
    (hin : row < 6136) (hx : s.ctx c = some x) (hk : x.tenant = k) (hsus : (s.core c).sus = none)
    (hown : Map.at? (s.core c).owner (spadUnit row) = some x.me) : s.storeSpdata k v =
      (s.modCore c (fun q => { q.setSpadRow row (stagedRow (s.tenant k).spdata v) with
        spadPoison := q.spadPoison.filter (fun i => i ≠ row) })).modTenant k (fun w => { w with
          spsel := setBits w.spsel 16 13 (row + 1), spdata := Map.put 0 w.spdata 15 v }) := by
  have hnum : ¬ Config.numCores ≤ c := Nat.not_le.2 hlt
  have hfor : s.ctxFor c k = some x := by
    unfold State.ctxFor
    rw [show (s.core c).res = some x from hx, Option.filter_some, if_pos (decide_eq_true hk)]
  have hme : s.ownerOf c k x.uid = x.me := by
    unfold State.ownerOf
    rw [hsus, ← hk]
    rfl
  unfold State.storeSpdata
  simp only [hc, hrow, hnum, Nat.not_le.2 hin, decide_false, Bool.or_false, Bool.false_eq_true, if_false, hfor, hme]
  rw [storeRow_own hown]
end

/-! ## A host's reads (R322, R327) -/

/-- A read takes the next agenda entry. -/
theorem step_vfRead {s : State} {rest : List Action} {k off n : Nat} (h : s.agenda = .vfRead k off n :: rest) :
    step s = .next (State.vfRead { s with agenda := rest } k off n) := by
  unfold step oneMove
  rw [h]

section
variable {s : State} (hup : s.mmioUp = true) {k off : Nat} (hk : k < 32) (hoff : off < 0x10000)
include hup hk hoff

theorem State.vfRead_narrow {n : Nat} (hn : n ≠ 8) : s.vfRead k off n = { s with hostRead := List.replicate n 0 } := by
  have hk' : ¬ Config.numTenants ≤ k := Nat.not_le.2 hk
  simp [State.vfRead, hup, hk', Nat.not_le.2 hoff, hn]

theorem State.vfRead_plain (hbox : off ≠ 0x300) (huse : off < 0x2000 ∨ 0x2090 ≤ off ∨ off % 8 ≠ 0) :
    s.vfRead k off 8 = { s with hostRead := dwordBytes (s.vfReg k off) } := by
  have hk' : ¬ Config.numTenants ≤ k := Nat.not_le.2 hk
  have hmeter : (decide (0x2000 ≤ off) && decide (off < 0x2090) && decide (off % 8 = 0)) = false := by
    simp only [Bool.and_eq_false_iff, decide_eq_false_iff_not]
    omega
  simp [State.vfRead, hup, hk', Nat.not_le.2 hoff, hbox, hmeter]
end

/-- Where no register is assigned it reads 0. -/
theorem State.vfReg_unassigned (s : State) (k : Nat) {off : Nat} (h : off % 8 ≠ 0 ∨ 0xB000 ≤ off) : s.vfReg k off = 0 := by
  unfold State.vfReg
  dsimp only
  rcases Nat.eq_zero_or_pos (off % 8) with halign | halign
  · have hhigh : 0xB000 ≤ off := h.resolve_left (not_not.2 halign)
    have hne : ∀ n < 0xB000, off ≠ n := fun n hn => Nat.ne_of_gt (Nat.lt_of_lt_of_le hn hhigh)
    have hnot : ∀ n < 0xB000, ¬ off < n := fun n hn => Nat.not_lt.2 (Nat.le_trans (Nat.le_of_lt hn) hhigh)
    simp [halign, hne, hnot]
  · rw [if_pos (Nat.ne_of_gt halign)]

end Sys2Proof.Machine

namespace Sys2Proof
open Machine

/-- Settles O42: each access is what the equation of its case gives. -/
theorem functionRegisters : Obligations.FunctionRegisters := by
  refine ⟨?_, ?_, ?_, ?_⟩
  · intro s k v hup
    obtain ⟨hstat, hobox, -⟩ := exec_pageWrite hup k v
    refine ⟨fun q hq hr hroom => ?_, fun q hq hr hfull => ?_, fun q hq hr => ?_, hstat, fun q hq hheld => ?_, hobox,
      fun c x hc hr hx hroom => ?_, fun c hc hr hfull => ?_, fun i hi => exec_iboxovfClear hup k v hi⟩
    · rw [exec_qbellWrite hup k v hq, State.doorbell_room v hr hroom]
    · rw [exec_qbellWrite hup k v hq, State.doorbell_full v hr hfull]
      rfl
    · rw [exec_qbellWrite hup k v hq, State.doorbell_notReady v hr]
      rfl
    · rw [exec_cqidxHeadWrite hup k v hq, State.writeHead_none v hheld]
    · rw [exec_iboxWrite hup k v hc, State.writeIbox_room v hr hx hroom]
    · rw [exec_iboxWrite hup k v hc, State.writeIbox_lost v hr hfull]
  · intro s k v hup
    obtain ⟨-, -, hsel, hcommit, hstore⟩ := exec_pageWrite hup k v
    refine ⟨fun g i hg hi h6 h7 => ?_, fun g i hg hbad => ?_, hsel, ?_, ?_⟩
    · obtain ⟨hself, hword, hgroup⟩ := State.writeMcgrp_sets (s := s) (k := k) (g := g) hi h6 h7
      refine ⟨_, exec_mcgrpWrite hup k v hg hi, hself, fun j _ => hword j, hgroup, ?_, ?_⟩ <;> rw [State.writeMcgrp_ok h6 h7] <;> rfl
    · rw [exec_mcgrpWrite hup k v hg (by omega), State.writeMcgrp_bad hbad]
      rfl
    · intro g gr r tree live att bad shape hg hgr hr htree hlive hatt hbad hshape
      obtain ⟨hstat, hkept, hset⟩ := commitGroup_eq (s.tenant k) k g gr hr htree hlive hatt
      subst hbad hshape hg hgr
      have hten : ((s.commit k).tenant k).rgstat = (commitGroup (s.tenant k) k (s.tenant k).rgsel (s.group (s.tenant k).rgsel)).1 := by
        rw [State.commit, State.tenant_modTenant_self]
      have hgrp : ∀ j, (s.commit k).group j = (s.setGroup (s.tenant k).rgsel
          (commitGroup (s.tenant k) k (s.tenant k).rgsel (s.group (s.tenant k).rgsel)).2).group j := fun _ => rfl
      refine ⟨_, hcommit, hten.trans hstat, fun h => ?_, fun h => ?_, fun j hj => ?_, rfl, rfl⟩
      · rw [hgrp, State.group_setGroup]
        exact hkept (hten ▸ h)
      · rw [hgrp, State.group_setGroup]
        exact hset (hten ▸ h)
      · exact (hgrp j).trans (Map.get_ins_ne _ _ _ (Ne.symm hj))
    · intro c row x hc hlt hrow hin hx hk hsus hown
      have hrun := State.storeSpdata_resident v hc hlt hrow hin hx hk hsus hown
      rw [hrun] at hstore
      have hcore := State.core_modCore_self s c (fun q => { q.setSpadRow row (stagedRow (s.tenant k).spdata v) with
        spadPoison := q.spadPoison.filter (fun i => i ≠ row) })
      refine ⟨_, hstore, ?_, fun r hr => ?_, fun hmark => ?_, ?_, ?_, rfl⟩
      · rw [State.core_modTenant, hcore]
        exact (Core.spadRow_setSpadRow _ row _ row).trans (if_pos rfl)
      · rw [State.core_modTenant, hcore]
        exact (Core.spadRow_setSpadRow _ row _ r).trans (if_neg (Ne.symm hr))
      · rw [State.core_modTenant, hcore] at hmark
        exact of_decide_eq_true (List.mem_filter.1 hmark).2 rfl
      · rw [State.tenant_modTenant_self]
        exact bits_setBits_self _ 16 13 _ (by decide)
      · rw [State.ctx, State.core_modTenant, hcore]
        rfl
  · intro s rest k off hup hk hoff hag
    refine ⟨fun hbox huse => ?_, ?_, ?_, s.vfReg_unassigned k⟩
    · rw [step_vfRead hag, State.vfRead_plain (s := { s with agenda := rest }) hup hk hoff hbox huse]
      rfl
    · rintro rfl
      rfl
    · rintro rfl
      rfl
  · intro s rest k off n hup hk hoff hn hag
    rw [step_vfRead hag, State.vfRead_narrow (s := { s with agenda := rest }) hup hk hoff hn]

end Sys2Proof
end

section
/-! SUPPORT. The controller's period (R294, R295, R297): every part of a run leaves the spans, memory and the settled deficits.
Settles O40. -/

namespace Sys2Proof.Machine

/-! ## What the parts of a run leave -/

/-- What the placing of borders and the calling of pre-emption leave: memory and time, every core's spans, every tenant's account. -/
structure Placed (s t : State) : Prop where
  mem : t.mem = s.mem
  cycle : t.cycle = s.cycle
  ctx : ∀ c, t.ctx c = s.ctx c
  sus : ∀ c, (t.core c).sus = (s.core c).sus
  used : ∀ k, (t.tenant k).used = (s.tenant k).used
  deficit : ∀ k, (t.tenant k).deficit = (s.tenant k).deficit

theorem Placed.refl (s : State) : Placed s s := ⟨rfl, rfl, fun _ => rfl, fun _ => rfl, fun _ => rfl, fun _ => rfl⟩

theorem Placed.trans {s t u : State} (h : Placed s t) (g : Placed t u) : Placed s u :=
  ⟨g.mem.trans h.mem, g.cycle.trans h.cycle, fun c => (g.ctx c).trans (h.ctx c), fun c => (g.sus c).trans (h.sus c),
    fun k => (g.used k).trans (h.used k), fun k => (g.deficit k).trans (h.deficit k)⟩

theorem Placed.foldl {α : Type} {f : State → α → State} (hf : ∀ u a, Placed u (f u a)) (l : List α) (s : State) : Placed s (l.foldl f s) :=
  List.foldlRecOn (motive := fun t : State => Placed s t) l f (.refl s) fun u h a _ => h.trans (hf u a)

theorem Booked.placed {s t : State} (h : Booked s t) : Placed s t :=
  ⟨h.mem, h.cycle, h.ctx, h.sus, fun k => by rw [h.tenant k], fun k => by rw [h.tenant k]⟩

theorem Placed.setWants (s : State) (act : List Nat) (d : Nat) : Placed s (s.setWants act d) := by
  refine Placed.foldl (fun u p => ?_) _ _
  refine ⟨rfl, rfl, fun _ => rfl, fun _ => rfl, fun k => ?_, fun k => ?_⟩
  all_goals
    by_cases hk : k = p.1
    · rw [hk, State.tenant_modTenant_self]
    · rw [State.tenant_modTenant_ne _ _ hk]

theorem Placed.quiesce (s : State) (c : Nat) (q : Option (Nat × Nat)) : Placed s (s.modCore c (fun r => { r with quiesce := q })) := by
  refine ⟨rfl, rfl, fun d => ?_, fun d => ?_, fun _ => rfl, fun _ => rfl⟩
  all_goals
    by_cases hd : c = d
    · subst hd
      simp only [State.ctx, State.core_modCore_self]
    · simp only [State.ctx, State.core_modCore_ne _ _ hd]

theorem Placed.takeVictims (k lid : Nat) (cs : List Nat) : ∀ (s : State) (miss : List (Option Nat)), Placed s (takeVictims k lid cs s miss) := by
  induction cs with
  | nil => exact fun s _ => .refl s
  | cons c cs ih =>
    intro s miss
    unfold Machine.takeVictims
    split
    · exact ih s miss
    · exact (Placed.foldl (fun u d => .quiesce u d _) _ _).trans (ih _ _)

theorem Placed.preemptFor (s : State) (v : Served) : Placed s (s.preemptFor v) := by
  unfold State.preemptFor
  dsimp only
  split
  · exact .refl s
  · exact .takeVictims _ _ _ _ _

/-! ## A run -/

/-- A listed tenant's account is settled. -/
theorem State.tenant_settleDeficits {s : State} {k : Nat} (act : List Nat) (h : (Map.at? s.tenants k).isSome = true) :
    (s.settleDeficits act).tenant k = { s.tenant k with
      deficit := if k ∈ act then newDeficit (s.tenant k).deficit (s.weightOf act k) (s.weightSum act) (s.tenant k).used else 0
      used := 0, want := [] } := by
  obtain ⟨v, hv⟩ := Option.isSome_iff_exists.1 h
  have hold : s.tenant k = v := Map.get_of_at? _ hv
  have hnew := Map.at?_map (fun j (v : Tenant) => { v with
    deficit := if j ∈ act then newDeficit v.deficit (s.weightOf act j) (s.weightSum act) v.used else 0, used := 0, want := [] }) k s.tenants
  rw [hv] at hnew
  rw [hold]
  exact Map.get_of_at? _ hnew

/-- A run at its cycle settles the deficits, and places borders and calls pre-emption. -/
theorem exec_controllerPeriod {s : State} (hpow : s.powered = true) (hdue : Config.period * (s.ctlRuns + 1) ≤ s.cycle) : ∃ u,
    Placed (s.settleDeficits s.active) u ∧ exec .controllerPeriod s = .next { u with
      ctlRuns := s.ctlRuns + 1, forecast := (List.range 8).map (fun d => (d, u.forecastOf (s.ctlRuns + 1) d)) } := by
  have hrun : (decide (s.cycle < Config.period * (s.ctlRuns + 1)) || !s.powered) = false := by simp [hpow, Nat.not_lt.2 hdue]
  refine ⟨_, ?_, congrArg Host.Outcome.next (if_neg (Bool.eq_false_iff.1 hrun))⟩
  exact (Placed.foldl (fun u d => .setWants u _ d) _ _).trans
    ((frontMoved_noted _ _).booked.placed.trans
      ((Placed.foldl (fun u c => (Booked.moveBorder u _ c).placed) _ _).trans (Placed.foldl (fun u v => .preemptFor u v) _ _)))

end Sys2Proof.Machine

namespace Sys2Proof
open Machine

/-- Settles O40: the accounts are settled, and what follows in the run leaves them and every span. -/
theorem controllerPeriod : Obligations.ControllerPeriod := by
  intro s hpow hdue
  obtain ⟨u, hu, hexec⟩ := exec_controllerPeriod hpow hdue
  refine ⟨_, hexec, rfl, hu.mem, hu.cycle, hu.ctx, hu.sus, fun d hd => ?_, fun k hk => ?_⟩
  · interval_cases d <;> rfl
  · have hset := State.tenant_settleDeficits s.active hk
    exact ⟨(hu.used k).trans (by rw [hset]), (hu.deficit k).trans (by rw [hset])⟩

end Sys2Proof
end

section
/-! SUPPORT. A launch from its queue's head to its completion record (R285, R288, R292): the check of a head, the end of a launch, and
the record written. Settles O37 and O39. -/

namespace Sys2Proof.Machine

/-! ## A launch changed, and a launch that leaves its queue -/

theorem State.launch_modLaunch_self {s : State} {k lid : Nat} {l : Launch} (hl : s.launch k lid = some l) (f : Launch → Launch) :
    (s.modLaunch k lid f).launch k lid = some (f l) := by
  rw [State.launch_modLaunch, if_pos ⟨rfl, rfl⟩, hl]
  rfl

theorem State.queues_modLaunch (s : State) (k lid : Nat) (f : Launch → Launch) : ((s.modLaunch k lid f).tenant k).queues = (s.tenant k).queues := by
  rw [State.modLaunch, State.tenant_modTenant_self]

theorem State.launch_popLaunch (s : State) (k lid i : Nat) : (s.popLaunch k lid).launch k i = s.launch k i := by
  rw [State.launch, State.popLaunch, State.tenant_modTenant_self]
  rfl

/-- A launch that leaves leaves every queue. -/
theorem State.queues_popLaunch (s : State) (k lid q : Nat) :
    Map.get [] ((s.popLaunch k lid).tenant k).queues q = (Map.get [] (s.tenant k).queues q).filter (fun i => i ≠ lid) := by
  rw [State.popLaunch, State.tenant_modTenant_self]
  exact Map.get_map [] (fun _ ids => ids.filter (fun i => i ≠ lid)) q rfl _

/-- A launch that ends has its result, and is in no queue. -/
theorem State.failLaunch_ends {s : State} {k lid : Nat} {l : Launch} (hl : s.launch k lid = some l) (st cause : Nat) (tval : Dword) :
    (s.failLaunch k lid st cause tval).launch k lid = some { l with result := some (st, cause, tval) } ∧
    ∀ q, lid ∉ Map.get [] ((s.failLaunch k lid st cause tval).tenant k).queues q := by
  refine ⟨?_, fun q h => ?_⟩
  · refine (State.launch_popLaunch _ k lid lid).trans ?_
    exact State.launch_modLaunch_self hl _
  · have hmem : lid ∈ Map.get []
        (((s.modLaunch k lid (fun l => { l with result := some (st, cause, tval) })).popLaunch k lid).tenant k).queues q := h
    rw [State.queues_popLaunch] at hmem
    exact of_decide_eq_true (List.mem_filter.1 hmem).2 rfl

/-! ## The check of a head (R285, R288) -/

section
variable {s : State} {k q lid : Nat} {rest : List Nat} {l : Launch} (hhead : Map.get [] (s.tenant k).queues q = lid :: rest)
  (hl : s.launch k lid = some l)
include hhead hl

/-- A head whose prerequisites have completed and that has spans becomes eligible. -/
theorem State.settleHead_eligible (hchk : l.checked = true) (hpre : l.prereqs = []) (hpos : l.pos.isSome = true) (helig : l.elig = none) :
    s.settleHead k q = s.modLaunch k lid (fun m => { m with elig := some s.cycle }) := by
  have hspan : l.pos.isNone = false := by rw [Option.isNone_eq_false_iff]; exact hpos
  simp [State.settleHead, hhead, hl, hchk, hpre, hspan, helig]

/-- A failed prerequisite ends the launch. -/
theorem State.settleHead_failed (hchk : l.checked = true) (hbad : l.prereqs.any (prereqFailed (s.tenant k)) = true) :
    s.settleHead k q = s.failLaunch k lid 3 0 0 := by
  simp only [State.settleHead, hhead, List.head?_cons, hl, hchk, hbad, Bool.not_true, Bool.false_eq_true, if_false, if_true]

variable (hdev : s.devstat = 4) (hpow : s.powered = true)
include hdev hpow

/-- The record of a head is read once, and an error in it ends the launch. -/
theorem exec_launchHeadCheck_error {cause : Nat} (hnew : l.checked = false) (hbad : checkLaunch s k l = .error cause) :
    exec (.launchHeadCheck k q) s = .next (s.failLaunch k lid 2 cause (BitVec.ofNat 64 l.lnr)) := by
  show execLaunchHeadCheck k q s = _
  simp [execLaunchHeadCheck, hdev, hpow, hhead, hl, hnew, hbad, State.launchError]

/-- A sound record stands as read, and its head is looked at. -/
theorem exec_launchHeadCheck_ok {m : Launch} (hnew : l.checked = false) (hok : checkLaunch s k l = .ok m) :
    exec (.launchHeadCheck k q) s = .next ((s.modLaunch k lid (fun _ => m)).settleHead k q) := by
  show execLaunchHeadCheck k q s = _
  simp [execLaunchHeadCheck, hdev, hpow, hhead, hl, hnew, hok]

/-- A head that has been read is looked at again. -/
theorem exec_launchHeadCheck_again (hchk : l.checked = true) : exec (.launchHeadCheck k q) s = .next (s.settleHead k q) := by
  show execLaunchHeadCheck k q s = _
  simp [execLaunchHeadCheck, hdev, hpow, hhead, hl, hchk]
end

/-! ## The completion record (R292, R328) -/

/-- A vector raised changes of the tenants what is pending, and nothing of the host's memory. -/
theorem State.msixRaise_leaves (s : State) (k v : Nat) : (s.msixRaise k v).hostMem = s.hostMem ∧
    ∀ j, ∃ p, (s.msixRaise k v).tenant j = { s.tenant j with msixPend := p } := by
  unfold State.msixRaise
  split
  · refine ⟨rfl, fun j => ?_⟩
    by_cases hj : j = k
    · rw [hj, State.tenant_modTenant_self]
      exact ⟨_, rfl⟩
    · rw [State.tenant_modTenant_ne _ _ hj]
      exact ⟨_, rfl⟩
  · exact ⟨rfl, fun j => ⟨_, rfl⟩⟩

/-- Where a ring's next record goes. -/
def Tenant.recordAddr (v : Tenant) (q : Nat) : Nat := (Map.get 0 v.cqbase q).toNat / 4096 * 4096 + 16 * (Map.get 0 v.cqtail q % cqEntries v q)

/-- The record of a completed launch stands at the tail of its ring. -/
structure Recorded (s t : State) (k lid : Nat) (l : Launch) (r : Nat × Nat × Dword) : Prop where
  launch : t.launch k lid = some { l with written := true }
  queues : (t.tenant k).queues = (s.tenant k).queues
  low : Map.at? t.hostMem ((s.tenant k).recordAddr l.queue) = some (recordW0 lid r.1 r.2.1)
  high : Map.at? t.hostMem ((s.tenant k).recordAddr l.queue + 8) = some r.2.2
  tail : Map.get 0 (t.tenant k).cqtail l.queue = (Map.get 0 (s.tenant k).cqtail l.queue + 1) % 2 ^ 32

/-- The record in host memory, the ring's tail gone on, the launch marked. -/
def State.recorded (s : State) (k lid q : Nat) (r : Nat × Nat × Dword) : State :=
  let a := (s.tenant k).recordAddr q
  let s1 := (s.hostWrite a (recordW0 lid r.1 r.2.1)).hostWrite (a + 8) r.2.2
  let s2 := s1.modTenant k (fun w => { w with cqtail := Map.put 0 w.cqtail q ((Map.get 0 (s.tenant k).cqtail q + 1) % 2 ^ 32) })
  s2.modLaunch k lid (fun m => { m with written := true })

section
variable {s : State} {k lid : Nat} {l : Launch} {r : Nat × Nat × Dword} (hl : s.launch k lid = some l)
include hl

theorem State.writeRecord_eq (hr : l.result = some r) (hroom : cqFull (s.tenant k) l.queue = false) :
    s.writeRecord k lid = (s.recorded k lid l.queue r).msixRaise k l.queue := by
  unfold State.writeRecord
  simp only [hl, hroom, hr, Bool.false_eq_true, if_false, Option.getD_some]
  rfl

/-- A record is written where its ring has room. -/
theorem State.writeRecord_room (hr : l.result = some r) (hroom : cqFull (s.tenant k) l.queue = false) :
    Recorded s (s.writeRecord k lid) k lid l r := by
  rw [State.writeRecord_eq hl hr hroom]
  obtain ⟨hhost, hten⟩ := (s.recorded k lid l.queue r).msixRaise_leaves k l.queue
  obtain ⟨p, hp⟩ := hten k
  have hrec : (s.recorded k lid l.queue r).tenant k = { s.tenant k with
      cqtail := Map.put 0 (s.tenant k).cqtail l.queue ((Map.get 0 (s.tenant k).cqtail l.queue + 1) % 2 ^ 32)
      launches := Map.modify (s.tenant k).launches lid (fun m => { m with written := true }) } := by
    unfold State.recorded State.modLaunch
    rw [State.tenant_modTenant_self, State.tenant_modTenant_self]
    rfl
  have hmem : (s.recorded k lid l.queue r).hostMem = Map.ins (Map.ins s.hostMem ((s.tenant k).recordAddr l.queue)
      (recordW0 lid r.1 r.2.1)) ((s.tenant k).recordAddr l.queue + 8) r.2.2 := rfl
  rw [hrec] at hp
  rw [hmem] at hhost
  refine ⟨?_, by rw [hp], ?_, ?_, ?_⟩
  · rw [State.launch, hp]
    dsimp only
    rw [Map.at?_modify, if_pos rfl, show Map.at? (s.tenant k).launches lid = some l from hl]
    rfl
  · rw [hhost, Map.at?_ins_ne _ _ (by omega), Map.at?_ins_self]
  · rw [hhost, Map.at?_ins_self]
  · rw [hp]
    exact Map.get_put_self _ _ _ _
end

/-! ## What completion leaves of a launch in no queue (R288) -/

/-- The walker's bookkeeping beside a launch that is in no queue of its tenant. -/
structure Beside (k lid : Nat) (s t : State) : Prop where
  booked : Booked s t
  launch : t.launch k lid = s.launch k lid
  out : (∀ q, lid ∉ Map.get [] (s.tenant k).queues q) → ∀ q, lid ∉ Map.get [] (t.tenant k).queues q

theorem Beside.refl (k lid : Nat) (s : State) : Beside k lid s s := ⟨.refl s, rfl, id⟩

theorem Beside.trans {k lid : Nat} {s t u : State} (h : Beside k lid s t) (g : Beside k lid t u) : Beside k lid s u :=
  ⟨h.booked.trans g.booked, g.launch.trans h.launch, g.out ∘ h.out⟩

section
variable {k lid : Nat} (s : State) {i : Nat} (hi : i ≠ lid)

theorem Beside.popLaunch : Beside k lid s (s.popLaunch k i) := by
  refine ⟨.popLaunch s k i, State.launch_popLaunch s k i lid, fun h q hmem => ?_⟩
  rw [State.queues_popLaunch] at hmem
  exact h q (List.mem_filter.1 hmem).1

theorem Beside.endLoans : Beside k lid s (s.endLoans k i) := ⟨.endLoans s k i, rfl, id⟩

include hi

theorem Beside.modLaunch (f : Launch → Launch) : Beside k lid s (s.modLaunch k i f) := by
  refine ⟨.modLaunch s k i f, ?_, fun h q => ?_⟩
  · rw [State.launch_modLaunch, if_neg fun hk => hi hk.2]
  · rw [State.queues_modLaunch]
    exact h q

theorem Beside.failLaunch (st cause : Nat) (tval : Dword) : Beside k lid s (s.failLaunch k i st cause tval) :=
  ((Beside.modLaunch s hi _).trans (.popLaunch _)).trans (.endLoans _)
end

/-- A head looked at is not the launch that is in no queue. -/
theorem Beside.settleHead {k lid : Nat} {s : State} (hout : ∀ q, lid ∉ Map.get [] (s.tenant k).queues q) (q : Nat) :
    Beside k lid s (s.settleHead k q) := by
  unfold State.settleHead
  split
  · exact .refl k lid s
  · rename_i i hhead
    have hi : i ≠ lid := fun h => hout q (h ▸ List.mem_of_head? hhead)
    split
    · exact .refl k lid s
    · rename_i l hl
      split_ifs
      · exact .refl k lid s
      · exact .failLaunch s hi 3 0 0
      · exact .refl k lid s
      · exact .popLaunch s
      · exact .modLaunch s hi _
      · exact .refl k lid s

theorem Beside.settleHeads {k lid : Nat} {s : State} (hout : ∀ q, lid ∉ Map.get [] (s.tenant k).queues q) :
    Beside k lid s (s.settleHeads k) :=
  List.foldlRecOn (motive := fun t : State => Beside k lid s t) _ _ (.refl k lid s) fun _ h q _ => h.trans (.settleHead (h.out hout) q)

/-- Once its record is written, only since when the launch is eligible may change with it. -/
theorem Recorded.stands {s u : State} {k lid : Nat} {l : Launch} {r : Nat × Nat × Dword} (h : Recorded s u k lid l r)
    (hout : ∀ q, lid ∉ Map.get [] (s.tenant k).queues q) (before : State) : ∃ e, Booked u (before.frontMoved (u.settleHeads k)) ∧
      (before.frontMoved (u.settleHeads k)).launch k lid = some { l with written := true, elig := e } := by
  have hbeside := Beside.settleHeads (s := u) (k := k) (lid := lid) fun q => by rw [h.queues]; exact hout q
  have hnoted := frontMoved_noted before (u.settleHeads k)
  obtain ⟨m, hm, rfl | ⟨rfl, -⟩⟩ := hnoted.launch k lid _ (hbeside.launch.trans h.launch)
  · exact ⟨l.elig, hbeside.booked.trans hnoted.booked, hm⟩
  · exact ⟨_, hbeside.booked.trans hnoted.booked, hm⟩

/-- Completion, where nothing of the launch is left, no copy of a line it wrote waits and its ring has room. -/
theorem exec_launchComplete {s : State} {k lid : Nat} {l : Launch} (hl : s.launch k lid = some l) (hwr : l.written = false)
    (hopen : l.completed = false) (hpow : s.powered = true) (hover : s.launchOver k lid l = true) (hlines : l.lines = []) :
    exec (.launchComplete k lid) s = .next (s.frontMoved
      (((s.modLaunch k lid (fun m => { m with result := some m.outcome, completed := true })).writeRecord k lid).settleHeads k)) := by
  show execLaunchComplete k lid s = _
  simp [execLaunchComplete, hl, hwr, hopen, hpow, hover, hlines]

end Sys2Proof.Machine

namespace Sys2Proof
open Machine

/-- Settles O37: an error or a failed prerequisite ends the launch, and a sound head is changed in its eligibility alone. -/
theorem launchHead : Obligations.LaunchHead := by
  intro s k q lid rest l hdev hpow hhead hl
  refine ⟨fun cause hnew hbad => ?_, fun m hnew hok hchk hpre hpos helig => ?_, fun hchk hbad => ?_⟩
  · obtain ⟨hres, hout⟩ := State.failLaunch_ends hl 2 cause (BitVec.ofNat 64 l.lnr)
    exact ⟨_, _, exec_launchHeadCheck_error hhead hl hdev hpow hnew hbad, hres, rfl, hout q, rfl⟩
  · have hl1 := State.launch_modLaunch_self hl (fun _ => m)
    have hhead1 : Map.get [] ((s.modLaunch k lid (fun _ => m)).tenant k).queues q = lid :: rest := by rw [State.queues_modLaunch, hhead]
    refine ⟨_, exec_launchHeadCheck_ok hhead hl hdev hpow hnew hok, ?_⟩
    rw [State.settleHead_eligible hhead1 hl1 hchk hpre hpos helig]
    exact ⟨State.launch_modLaunch_self hl1 _, by rw [State.queues_modLaunch, hhead1], rfl, rfl⟩
  · obtain ⟨hres, hout⟩ := State.failLaunch_ends hl 3 0 0
    refine ⟨_, _, ?_, hres, rfl, hout q⟩
    rw [exec_launchHeadCheck_again hhead hl hdev hpow hchk, State.settleHead_failed hhead hl hchk hbad]

/-- Settles O39: the record stands before the other heads are looked at, and neither that nor the walker's order changes it. -/
theorem launchComplete : Obligations.LaunchComplete := by
  intro s k lid a l hl hwr hopen hpow hover hlines hout hroom ha
  subst ha
  have hl1 := State.launch_modLaunch_self hl (fun m => { m with result := some m.outcome, completed := true })
  have hten : (s.modLaunch k lid (fun m => { m with result := some m.outcome, completed := true })).tenant k = { s.tenant k with
      launches := Map.modify (s.tenant k).launches lid (fun m => { m with result := some m.outcome, completed := true }) } := by
    rw [State.modLaunch, State.tenant_modTenant_self]
  have hrec := State.writeRecord_room hl1 (r := l.outcome) rfl (by rw [hten]; exact hroom)
  have hmem := State.writeRecord_mem (s := s.modLaunch k lid (fun m => { m with result := some m.outcome, completed := true })) (t := k) lid
  obtain ⟨e, hbook, hlaunch⟩ := hrec.stands (fun q => by rw [hten]; exact hout q) s
  obtain ⟨-, -, hlow, hhigh, htail⟩ := hrec
  rw [hten] at hlow hhigh htail
  have hexec := exec_launchComplete hl hwr hopen hpow hover hlines
  generalize State.writeRecord _ k lid = u at *
  generalize s.frontMoved (u.settleHeads k) = t at *
  have hhost : t.hostMem = u.hostMem := by rw [hbook.rest]
  refine ⟨t, _, hexec, hlaunch, rfl, rfl, rfl, ?_, ?_, ?_, hbook.mem.trans hmem⟩
  · rw [hhost]; exact hlow
  · rw [hhost]; exact hhigh
  · rw [hbook.tenant k]; exact htail

end Sys2Proof
end

section
/-! SUPPORT. The reset of a virtual function (R316), step by step: what each leaves of the other tenants, and what of the tenant is
gone after it. Settles O43. -/

namespace Sys2Proof.Machine

/-! ## What every step leaves -/

/-- The other tenants stand, and queues once empty stay empty. -/
structure Aside (k : Nat) (s t : State) : Prop where
  devstat : t.devstat = s.devstat
  powered : t.powered = s.powered
  others : ∀ j, j ≠ k → t.tenant j = s.tenant j
  queues : (s.tenant k).queues = [] → (t.tenant k).queues = []

theorem Aside.trans {k : Nat} {s t u : State} (h : Aside k s t) (g : Aside k t u) : Aside k s u :=
  ⟨g.devstat.trans h.devstat, g.powered.trans h.powered, fun j hj => (g.others j hj).trans (h.others j hj), g.queues ∘ h.queues⟩

/-- A step with the same tenants leaves all of them. -/
theorem Aside.of_tenants {k : Nat} {s t : State} (hdev : t.devstat = s.devstat) (hpow : t.powered = s.powered) (h : t.tenants = s.tenants) :
    Aside k s t := by
  have hten : ∀ j, t.tenant j = s.tenant j := fun j => by unfold State.tenant; rw [h]
  exact ⟨hdev, hpow, fun j _ => hten j, fun hq => by rw [hten, hq]⟩

/-- A step on a tenant's own values: cores, commands, packets and memory stand, too. -/
structure Confined (k : Nat) (s t : State) : Prop extends Aside k s t where
  cores : t.cores = s.cores
  cmds : t.cmds = s.cmds
  net : t.net = s.net
  mem : t.mem = s.mem

theorem Confined.refl (k : Nat) (s : State) : Confined k s s := ⟨⟨rfl, rfl, fun _ _ => rfl, id⟩, rfl, rfl, rfl, rfl⟩

theorem Confined.trans {k : Nat} {s t u : State} (h : Confined k s t) (g : Confined k t u) : Confined k s u :=
  ⟨h.toAside.trans g.toAside, g.cores.trans h.cores, g.cmds.trans h.cmds, g.net.trans h.net, g.mem.trans h.mem⟩

theorem Confined.foldl {α : Type} {k : Nat} {f : State → α → State} (hf : ∀ u a, Confined k u (f u a)) (l : List α) (s : State) :
    Confined k s (l.foldl f s) :=
  List.foldlRecOn (motive := fun t : State => Confined k s t) l f (.refl k s) fun u h a _ => h.trans (hf u a)

section
variable (s : State) (k : Nat)

theorem Confined.modTenant {f : Tenant → Tenant} (hf : ∀ v, v.queues = [] → (f v).queues = [] := by exact fun _ h => h) :
    Confined k s (s.modTenant k f) :=
  ⟨⟨rfl, rfl, fun _ hj => State.tenant_modTenant_ne s f hj, fun h => by rw [State.tenant_modTenant_self]; exact hf _ h⟩, rfl, rfl, rfl, rfl⟩

theorem Confined.msixRaise (v : Nat) : Confined k s (s.msixRaise k v) := by
  unfold State.msixRaise
  split
  · exact .modTenant s k
  · exact ⟨.of_tenants rfl rfl rfl, rfl, rfl, rfl, rfl⟩

theorem Confined.hostWrite (a : Nat) (v : Dword) : Confined k s (s.hostWrite a v) := ⟨.of_tenants rfl rfl rfl, rfl, rfl, rfl, rfl⟩

theorem Confined.modLaunch (i : Nat) (f : Launch → Launch) : Confined k s (s.modLaunch k i f) := .modTenant s k

theorem Confined.writeRecord (i : Nat) : Confined k s (s.writeRecord k i) := by
  unfold State.writeRecord
  split
  · exact .refl k s
  · dsimp only
    split
    · exact .refl k s
    · exact ((((Confined.hostWrite s k _ _).trans (.hostWrite _ k _ _)).trans (.modTenant _ k)).trans (.modLaunch _ k _ _)).trans
        (.msixRaise _ k _)

theorem Confined.logReset (r : List Dword) : Confined k s (s.logReset k r) :=
  ((Confined.foldl (fun u p => .hostWrite u k _ _) _ s).trans (.modTenant _ k)).trans (.msixRaise _ k _)

theorem Confined.use (i n : Nat) : Confined k s (s.use k i n) := by
  unfold State.use
  split
  · exact .refl k s
  · exact .modTenant s k

theorem Confined.sacCount (i n : Nat) : Confined k s (s.sacCount k i n) :=
  (Confined.modTenant s k).trans (.use _ k _ _)

theorem Confined.countVerdict (v : Dword) (n : Nat) : Confined k s (s.countVerdict k v n) := by
  have hcount : ∀ u i, Confined k u (u.sacCount k i 1) := fun u i => .sacCount u k i 1
  unfold State.countVerdict
  dsimp only
  split <;> split
  · exact ((((hcount s _).trans (hcount _ _)).trans (hcount _ _)).trans (.sacCount _ k _ _)).trans (.modTenant _ k)
  · exact (((hcount s _).trans (hcount _ _)).trans (.sacCount _ k _ _)).trans (.modTenant _ k)
  · exact ((hcount s _).trans (hcount _ _)).trans (hcount _ _)
  · exact (hcount s _).trans (hcount _ _)

theorem Confined.applied (m : Map PKind) : Confined k s { s with applied := m } := ⟨.of_tenants rfl rfl rfl, rfl, rfl, rfl, rfl⟩

theorem Confined.discardVerdicts : Confined k s (s.discardVerdicts k) := by
  refine Confined.foldl (fun u p => ?_) _ s
  split
  · split
    · exact (Confined.countVerdict u k _ _).trans (.applied _ k _)
    · exact .refl k u
  · exact .refl k u

/-! ## Launches end (R316 step 1) -/

/-- The tenant's queues are empty after the first step. -/
theorem State.resetLaunches_confined : (s.resetLaunches k).cores = s.cores ∧ (s.resetLaunches k).mem = s.mem ∧
    (s.resetLaunches k).devstat = s.devstat ∧ (s.resetLaunches k).powered = s.powered ∧
    (∀ j, j ≠ k → (s.resetLaunches k).tenant j = s.tenant j) ∧ ((s.resetLaunches k).tenant k).queues = [] := by
  have hempty : Confined k s (s.modTenant k (fun v => { v with queues := [], b0gang := none })) := .modTenant s k fun _ _ => rfl
  have hfold := Confined.foldl (fun u i => (Confined.modLaunch u k i (fun l =>
    { l with result := some (4, 0, 0), completed := true, pos := none, live := 0 })).trans (.writeRecord _ k i))
    (((s.tenant k).launches.filter (fun p => !p.2.completed)).map (fun p => p.1))
    (s.modTenant k (fun v => { v with queues := [], b0gang := none }))
  have hall := hempty.trans hfold
  exact ⟨hall.cores, hall.mem, hall.devstat, hall.powered, hall.others, hfold.queues (by rw [State.tenant_modTenant_self])⟩

/-! ## Contexts go (R316 step 2) -/

/-- What rows landed leave: the cores' spans and everything beside cores and memory. -/
structure Landed (s t : State) : Prop where
  rest : t = { s with cores := t.cores, mem := t.mem, memPoison := t.memPoison }
  ctx : ∀ c, t.ctx c = s.ctx c
  sus : ∀ c, (t.core c).sus = (s.core c).sus

theorem Landed.refl (s : State) : Landed s s := ⟨rfl, fun _ => rfl, fun _ => rfl⟩

theorem Landed.trans {s t u : State} (h : Landed s t) (g : Landed t u) : Landed s u :=
  ⟨by rw [g.rest, h.rest], fun c => (g.ctx c).trans (h.ctx c), fun c => (g.sus c).trans (h.sus c)⟩

theorem Landed.foldl {α : Type} {f : State → α → State} (hf : ∀ u a, Landed u (f u a)) (l : List α) (s : State) : Landed s (l.foldl f s) :=
  List.foldlRecOn (motive := fun t : State => Landed s t) l f (.refl s) fun u h a _ => h.trans (hf u a)

theorem Kept1.landed {c : Nat} {s t : State} (h : Kept1 c s t) : Landed s t := by
  refine ⟨h.rest, h.ctx, fun d => ?_⟩
  by_cases hd : c = d
  · subst hd
    obtain ⟨_, _, _, _, _, _, _, _, _, _, hcore⟩ := h.core
    rw [hcore]
  · rw [h.others d hd]

theorem Kept1.ensureSaved (c u : Nat) (me : Owner) : Kept1 c s (ensureSaved s c u me) := by
  unfold Machine.ensureSaved
  split
  · exact .refl c s
  · exact (((Kept1.writeN c _ s _ _).trans (.cleanMem c _ _ _)).trans (.spillBit _ c c me u true)).trans
      (.modCore _ c _ ⟨_, _, _, _, _, _, _, _, _, _, rfl⟩)

theorem Kept1.landRow (c : Nat) (me : Owner) (row : Nat) (p : RowPart) : Kept1 c s (landRow s c me row p) := by
  unfold Machine.landRow
  dsimp only
  split
  · have hwrite := (Kept1.ensureSaved s c (spadUnit row) me).trans (.writeN c 128 _
      (slotRow (Machine.ensureSaved s c (spadUnit row) me) c row me)
      (p.over (BitVec.ofNat 1024 ((Machine.ensureSaved s c (spadUnit row) me).readN
        (slotRow (Machine.ensureSaved s c (spadUnit row) me) c row me) 128))).toNat)
    split_ifs
    · exact hwrite.trans (.poisonMem c _ _ _)
    · exact hwrite.trans (.cleanMem c _ _ _)
    · exact hwrite
  · exact (Kept1.touchUnit s c me (spadUnit row)).trans (.modCore _ c _ ⟨_, _, _, _, _, _, _, _, _, _, rfl⟩)

theorem State.landParts_landed : Landed s (s.landParts k) := by
  refine Landed.foldl (fun u p => Landed.foldl (fun r b => ?_) _ u) _ s
  split
  · exact Landed.foldl (fun v i => (Kept1.landRow v _ _ i _).landed) _ r
  · exact .refl r

/-- Where no beat of the tenant's waits to be written, none is. -/
theorem State.landParts_none (h : ∀ p ∈ s.cores, ∀ b ∈ p.2.blks, b.2.hdr.tenant = k → b.2.parts = []) : s.landParts k = s := by
  refine List.foldlRecOn (motive := fun t : State => t = s) _ _ rfl fun u hu p hp => ?_
  refine List.foldlRecOn (motive := fun t : State => t = s) _ _ hu fun r hr b hb => ?_
  obtain ⟨hmem, hten⟩ := List.mem_filter.1 hb
  rw [h p hp b hmem (of_decide_eq_true hten)]
  split
  · exact hr
  · exact hr

/-- Every core lets the tenant's contexts go. -/
theorem State.core_resetCores (c : Nat) : (s.resetCores k).core c = ((s.landParts k).core c).resetTenant k (s.landParts k).cycle :=
  Map.get_map ({} : Core) (fun _ q => q.resetTenant k (s.landParts k).cycle) c rfl (s.landParts k).cores

theorem State.resetCores_gone (c : Nat) : (s.resetCores k).ctx c = (s.ctx c).filter (fun x => x.tenant ≠ k) ∧
    ((s.resetCores k).core c).sus = (s.core c).sus.filter (fun x => x.tenant ≠ k) := by
  have hland := s.landParts_landed k
  rw [State.ctx, State.core_resetCores, ← hland.ctx, ← hland.sus]
  exact ⟨rfl, rfl⟩

theorem State.resetCores_aside : Aside k s (s.resetCores k) := by
  have hrest := (s.landParts_landed k).rest
  have hdev : (s.landParts k).devstat = s.devstat := by rw [hrest]
  have hpow : (s.landParts k).powered = s.powered := by rw [hrest]
  have hten : (s.landParts k).tenants = s.tenants := by rw [hrest]
  exact .of_tenants hdev hpow hten

/-! ## Commands stop (R316 steps 3 and 4) -/

theorem Landed.performed (c : Nat) (q : Option Nat) (n : Nat) : Landed s (s.modCore c (fun r => r.performed q n)) := by
  have hperf : ∀ r : Core, (r.performed q n).res = r.res ∧ (r.performed q n).sus = r.sus := fun r => by
    unfold Core.performed
    split <;> exact ⟨rfl, rfl⟩
  refine ⟨rfl, fun d => ?_, fun d => ?_⟩
  · by_cases hd : c = d
    · subst hd
      rw [State.ctx, State.core_modCore_self]
      exact (hperf _).1
    · rw [State.ctx, State.core_modCore_ne _ _ hd]
      rfl
  · by_cases hd : c = d
    · subst hd
      rw [State.core_modCore_self]
      exact (hperf _).2
    · rw [State.core_modCore_ne _ _ hd]

/-- Each command of the tenant's that had sent a beat is logged. -/
def State.resetLogged (s : State) (k : Nat) : State :=
  (s.cmds.filter (fun m => m.2.tenant = k)).foldl (fun q m => match resetRecord s m.1 m.2 with | some r => q.logReset k r | none => q)
    (s.discardVerdicts k)

theorem State.resetLogged_confined : Confined k s (s.resetLogged k) := by
  refine (Confined.discardVerdicts s k).trans (Confined.foldl (fun u m => ?_) _ _)
  cases resetRecord s m.1 m.2 with
  | none => exact .refl k u
  | some r => exact .logReset u k r

/-- No operation of a sequencer waits for a command of the tenant's any more. -/
def State.resetPerformed (s : State) (k : Nat) : State :=
  (s.cmds.filter (fun m => m.2.tenant = k)).foldl (fun q m => q.modCore m.2.core (fun r => r.performed m.2.seqr m.2.opn)) (s.resetLogged k)

theorem State.resetPerformed_landed : Landed (s.resetLogged k) (s.resetPerformed k) :=
  Landed.foldl (fun u (m : Nat × Cmd) => .performed u m.2.core m.2.seqr m.2.opn) _ _

theorem State.resetCommands_eq : s.resetCommands k = { s.resetPerformed k with
    cmds := (s.resetLogged k).cmds.filter (fun m => m.2.tenant ≠ k)
    net := (s.resetLogged k).net.filter (fun p => p.2.tenant ≠ k)
    sent := (s.resetLogged k).sent.filter (fun p => p.2.tenant ≠ k) } := rfl

theorem State.resetCommands_aside : Aside k s (s.resetCommands k) := by
  have hrest := (s.resetPerformed_landed k).rest
  have hdev : (s.resetPerformed k).devstat = (s.resetLogged k).devstat := by rw [hrest]
  have hpow : (s.resetPerformed k).powered = (s.resetLogged k).powered := by rw [hrest]
  have hten : (s.resetPerformed k).tenants = (s.resetLogged k).tenants := by rw [hrest]
  rw [State.resetCommands_eq]
  exact (s.resetLogged_confined k).toAside.trans (.of_tenants hdev hpow hten)

/-- Every span stays. -/
theorem State.resetCommands_spans (c : Nat) : (s.resetCommands k).ctx c = s.ctx c ∧ ((s.resetCommands k).core c).sus = (s.core c).sus := by
  have hperf := s.resetPerformed_landed k
  have hcore : (s.resetLogged k).core c = s.core c := by
    unfold State.core
    rw [(s.resetLogged_confined k).cores]
  rw [State.resetCommands_eq]
  exact ⟨(hperf.ctx c).trans (congrArg Core.res hcore), (hperf.sus c).trans (congrArg Core.sus hcore)⟩

/-- No command or packet of the tenant's is left. -/
theorem State.resetCommands_none :
    (∀ m ∈ (s.resetCommands k).cmds, m.2.tenant ≠ k) ∧ ∀ p ∈ (s.resetCommands k).net, p.2.tenant ≠ k := by
  rw [State.resetCommands_eq]
  exact ⟨fun m hm => of_decide_eq_true (List.mem_filter.1 hm).2, fun p hp => of_decide_eq_true (List.mem_filter.1 hp).2⟩

/-! ## What is shared is cleared (R316 step 5) -/

/-- Nothing of the tenant's is left but records held back. -/
structure Cleared (v : Tenant) : Prop where
  obox : v.obox = []
  gmaps : v.gmaps = []
  bars : v.bars = []
  launches : ∀ p ∈ v.launches, p.2.completed = true ∧ p.2.written = false

/-- A tenant that a reset has cleared: records held back keep their launches, under other identities (R292, R322). -/
def Tenant.cleared (v : Tenant) : Tenant :=
  { v with launches := (v.launches.filter (fun p => p.2.completed && !p.2.written)).map (fun p => (p.1 + 2 ^ 32, p.2))
           nextId := [], bars := [], gmaps := [], pins := v.pins.filter (fun p => p.1 = sacTag), gslices := [], mcgrp := [], obox := [] }

theorem State.resetShared_clears : Confined k s (s.resetShared k) ∧ Cleared ((s.resetShared k).tenant k) := by
  have hclean : Confined k s (s.resetShared k) :=
    (Confined.modTenant s k (f := Tenant.cleared)).trans ⟨.of_tenants rfl rfl rfl, rfl, rfl, rfl, rfl⟩
  have hten : (s.resetShared k).tenant k = (s.tenant k).cleared := State.tenant_modTenant_self s k Tenant.cleared
  refine ⟨hclean, ?_⟩
  rw [hten]
  refine ⟨rfl, rfl, rfl, fun p hp => ?_⟩
  obtain ⟨q, hq, rfl⟩ := List.mem_map.1 hp
  have hheld := (List.mem_filter.1 hq).2
  simpa using hheld

theorem State.pinSaves_clears (h : Cleared (s.tenant k)) : Confined k s (s.pinSaves k) ∧ Cleared ((s.pinSaves k).tenant k) := by
  refine ⟨.modTenant s k, ?_⟩
  rw [State.pinSaves, State.tenant_modTenant_self]
  exact ⟨h.obox, h.gmaps, h.bars, h.launches⟩
end

/-! ## The walker's order (R289) -/

/-- Where the other tenants stand and the queues are empty, no launch has become eligible. -/
theorem Aside.eligible {k : Nat} {s t : State} (h : Aside k s t) (hempty : (t.tenant k).queues = []) (j q : Nat) (v : Served)
    (hv : t.eligible j q = some v) : s.eligible j q = some v := by
  by_cases hj : j = k
  · have hhead : (Map.get [] (t.tenant j).queues q).head? = none := by rw [hj, hempty]; rfl
    simp [State.eligible, hhead] at hv
  · rw [← hv]
    unfold State.eligible
    rw [h.others j hj, h.devstat, h.powered]

/-- The walker then notes at most the cycle. -/
theorem Aside.frontMoved {k : Nat} {s t : State} (h : Aside k s t) (hempty : (t.tenant k).queues = []) :
    ∃ n, s.frontMoved t = { t with served := n } := by
  unfold State.frontMoved
  rw [State.eligBack_same (h.eligible hempty)]
  dsimp only
  split
  · exact ⟨t.served, rfl⟩
  · exact ⟨_, rfl⟩

/-- The steps of a reset, before the walker looks at its order again. -/
def State.vfReset (s : State) (k : Nat) : State := ((((s.resetLaunches k).resetCores k).resetCommands k).resetShared k).pinSaves k

theorem exec_vfReset {s : State} {k : Nat} (hpow : s.powered = true) (hk : k < 32) :
    exec (.vfReset k) s = .next (s.frontMoved (s.vfReset k)) := by
  have hk' : ¬ Config.numTenants ≤ k := Nat.not_le.2 hk
  show execVfReset k s = _
  simp [execVfReset, hpow, hk', State.vfReset]

section
variable (s : State) (k : Nat)

/-- The last step and the one before it are on the tenant's own values. -/
theorem State.vfReset_confined : Confined k (((s.resetLaunches k).resetCores k).resetCommands k) (s.vfReset k) ∧
    Cleared ((s.vfReset k).tenant k) := by
  obtain ⟨hshared, hcleared⟩ := (((s.resetLaunches k).resetCores k).resetCommands k).resetShared_clears k
  obtain ⟨hpins, hclear⟩ := State.pinSaves_clears _ k hcleared
  exact ⟨hshared.trans hpins, hclear⟩

/-- The other tenants stand through every step, and the queues are empty from the first on. -/
theorem State.vfReset_aside : Aside k s (s.vfReset k) ∧ ((s.vfReset k).tenant k).queues = [] := by
  obtain ⟨-, -, hdev, hpow, hothers, hempty⟩ := s.resetLaunches_confined k
  have hafter := ((s.resetLaunches k).resetCores_aside k).trans
    ((((s.resetLaunches k).resetCores k).resetCommands_aside k).trans (s.vfReset_confined k).1.toAside)
  have hfirst : Aside k s (s.resetLaunches k) := ⟨hdev, hpow, hothers, fun _ => hempty⟩
  exact ⟨hfirst.trans hafter, hafter.queues hempty⟩

/-- Every core lets the tenant's contexts go, and no other. -/
theorem State.vfReset_spans (c : Nat) : (s.vfReset k).ctx c = (s.ctx c).filter (fun x => x.tenant ≠ k) ∧
    ((s.vfReset k).core c).sus = (s.core c).sus.filter (fun x => x.tenant ≠ k) := by
  have hcores := (s.vfReset_confined k).1.cores
  have hlast : (s.vfReset k).core c = (((s.resetLaunches k).resetCores k).resetCommands k).core c := by
    unfold State.core
    rw [hcores]
  obtain ⟨hctx, hsus⟩ := ((s.resetLaunches k).resetCores k).resetCommands_spans k c
  obtain ⟨hres, hout⟩ := (s.resetLaunches k).resetCores_gone k c
  have hfirst : (s.resetLaunches k).core c = s.core c := by
    unfold State.core
    rw [(s.resetLaunches_confined k).1]
  unfold State.ctx at *
  rw [hlast, hctx, hsus, hres, hout, hfirst]
  exact ⟨rfl, rfl⟩

/-- Memory stands where no beat of the tenant's waits to be written. -/
theorem State.vfReset_mem (h : ∀ p ∈ s.cores, ∀ b ∈ p.2.blks, b.2.hdr.tenant = k → b.2.parts = []) : (s.vfReset k).mem = s.mem := by
  obtain ⟨hcores, hmem, -⟩ := s.resetLaunches_confined k
  have hland := (s.resetLaunches k).landParts_none k (by rw [hcores]; exact h)
  have hgone : ((s.resetLaunches k).resetCores k).mem = ((s.resetLaunches k).landParts k).mem := rfl
  rw [(s.vfReset_confined k).1.mem, State.resetCommands_mem, hgone, hland, hmem]
end

end Sys2Proof.Machine

namespace Sys2Proof
open Machine

/-- Settles O43: the other tenants stand through every step, and with the tenant's queues empty the walker changes nothing. -/
theorem vfReset : Obligations.VfReset := by
  intro s k hpow hk
  obtain ⟨haside, hempty⟩ := s.vfReset_aside k
  obtain ⟨hlast, hclear⟩ := s.vfReset_confined k
  obtain ⟨hcmds, hnet⟩ := ((s.resetLaunches k).resetCores k).resetCommands_none k
  rw [← hlast.cmds] at hcmds
  rw [← hlast.net] at hnet
  have hspans := s.vfReset_spans k
  have hmem := s.vfReset_mem k
  obtain ⟨n, hfront⟩ := haside.frontMoved hempty
  have hexec := (exec_vfReset hpow hk).trans (congrArg Host.Outcome.next hfront)
  clear hlast hfront
  generalize s.vfReset k = t at *
  exact ⟨_, hexec, fun c => (hspans c).1, fun c => (hspans c).2, hcmds, hnet, haside.others, hmem, hempty, hclear.obox, hclear.gmaps,
    hclear.bars, hclear.launches⟩

end Sys2Proof
end
